-- ==== Sys2Proof/Word.lean ====
section
/-!
DEFINITION. The words of the module and its plainest data: bit words, agent identifiers and physical addresses, and the shape
of a sparse map (a list of key and value pairs). The operations on them stand in Sys2Proof/Machine/FMap.lean and Bits.lean.
-/
namespace Sys2Proof

/-- One byte. -/
abbrev Byte := BitVec 8

/-- A doubleword, the width of a Hen general register (R168). -/
abbrev Word := BitVec 64

/-- A physical address (Table 1-8a). -/
abbrev PA := BitVec 56

/-- An agent identifier (Table 1-6): DIE [12:10], FLOCK or BLOCK [9:5], UNIT [4:0]. -/
abbrev Agent := BitVec 13

/-- A herd-wide agent identifier (R20): module number [21:13], agent ID [12:0]. -/
abbrev HerdAgent := BitVec 22

/-- A module-wide sync object identifier (R17): die number [14:12], index in the die [11:0]. -/
abbrev ObjId := BitVec 15

/-- A sparse map: pairs with strictly rising keys, and no pair that holds the map's default value. -/
abbrev FMap (α : Type) := List (Nat × α)

end Sys2Proof
end

