-- ==== Sys2Proof/Syntax.lean ====
section
/-!
DEFINITION. The commands of the module: one constructor of Instr per row of spec/opcode_table.json, each with the operands the
row's event carries, and the identifiers the operands use.
-/
namespace Sys2Proof

/-! ### Units (Tables 1-1, 1-3, 1-6 and 1-7). The A-die An is `die = n`; its die number is n + 1 (R10). -/

/-- A physical flock of an A-die. -/
structure FlockId where
  die : Fin 4
  flock : Fin 26
deriving DecidableEq, Repr

/-- An Ox of a flock. -/
structure OxId where
  die : Fin 4
  flock : Fin 26
  ox : Fin 4
deriving DecidableEq, Repr

/-- A Hen: of a flock, or a management Hen of the C-die. -/
inductive HenId where
  | flock (die : Fin 4) (flock : Fin 26) (hen : Fin 16)
  | mgmt (hen : Fin 8)
deriving DecidableEq, Repr

/-- A Mule: of a flock, of an A-die, or of the C-die. -/
inductive MuleId where
  | flock (die : Fin 4) (flock : Fin 26) (mule : Fin 2)
  | die (die : Fin 4) (mule : Fin 4)
  | cdie (mule : Fin 4)
deriving DecidableEq, Repr

/-- A shared-cache slice of an A-die. -/
structure SliceId where
  die : Fin 4
  slice : Fin 16
deriving DecidableEq, Repr

/-- An HBM3 controller of an A-die, with its stack. -/
structure HbmId where
  die : Fin 4
  ctl : Fin 3
deriving DecidableEq, Repr

/-- A pseudo-channel of an HBM3 stack. -/
structure PcId where
  hbm : HbmId
  pc : Fin 32
deriving DecidableEq, Repr

/-- A link end: Kerly port of an A-die (0 to the C-die, 1 to An−1, 2 to An+1), the C-die's end of the link to an A-die, or a
herd port (Table 1-7). -/
inductive LinkId where
  | adie (die : Fin 4) (port : Fin 3)
  | cdie (die : Fin 4)
  | herd (port : Fin 16)
deriving DecidableEq, Repr

/-- An application core. -/
abbrev CoreIx := Fin 48

/-- A register write's or read's sender, the access's place (an offset in device register space, PA − 0x00_7F00_0000_0000). -/
abbrev DevOff := Nat

/-- A hardware error in one output of an Ox pass: array, column (32 is the check column), the block of 32 reduction indices it lies in
(block 1 exists in passes of 64 only), and the exact value `m × 2^e` that the error adds to the column's unscaled sum over that block. -/
structure OxError where
  array : Fin 4
  col : Fin 33
  blk : Fin 2
  m : Int
  e : Int
deriving DecidableEq, Repr

/-- A faulty cell that a test of an array finds (R105, R132): rows 32 and 33 are the spare rows, column 32 the check column, columns 33
and 34 the spare columns. -/
structure OxCell where
  array : Fin 4
  row : Fin 34
  col : Fin 35
deriving DecidableEq, Repr

/-- The faulty cells that a diagnosis finds, and those that its repeated test finds (R132). -/
structure OxFinds where
  faults : List OxCell
  again : List OxCell
deriving DecidableEq, Repr

/-- An Ox, and how far its LDW, LDS or DRN has come: some of its lines, by their numbers, or with `none` all that are left (R163). -/
structure OxLines where
  ox : OxId
  part : Option (List Nat)
deriving DecidableEq, Repr

/-- What one read of an HBM location shows (R388): clean, a correctable error, or an uncorrectable one. -/
inductive ReadErr where
  | clean | ce | ue
deriving DecidableEq, Repr

/-- What the tries of a read of one location show (R388). -/
structure ReadTry where
  first : ReadErr := .clean
  second : ReadErr := .clean
  third : ReadErr := .clean
deriving DecidableEq, Repr

/-- What one try shows in the two sectors of a line in sector mode; in line mode the first counts (R388). -/
structure ReadPair where
  low : ReadErr := .clean
  high : ReadErr := .clean
deriving DecidableEq, Repr

/-- The header of a received flit, its bytes 0 to 7 (Table 14-2), and what its checks show (R433, R436): whether the CRC is good, and the
FEC codewords corrected and uncorrected in its group. -/
structure FlitHdr where
  word : BitVec 64
  crcOk : Bool
  fecCorr : Nat
  fecUncorr : Nat
deriving DecidableEq, Repr

/-- The kinds of herd message (R435, R453). -/
inductive HerdKind where
  | read | write | amo | sadd | swait | sread | multicast
  | dataRsp | completion | result | receipt | addrError | poison | dead
deriving DecidableEq, Repr

/-- A herd message: source and destination modules, the request number, the requester (agent ID in the source module), the address
or sync identifier, the operation code, scope or size, data with a byte mask and its poison mark, the TAIL mark and how many modules it has crossed. -/
structure HerdMsg where
  kind : HerdKind
  src : BitVec 9
  dst : BitVec 9
  num : Nat
  agent : BitVec 13
  addr : BitVec 46
  /-- AMO: ATOM func[10:4]; sync operations: the scope; reads: the size in bytes -/
  code : BitVec 10
  data : BitVec 512
  cmp : BitVec 64
  mask : BitVec 64
  poison : Bool
  tail : Bool
  hops : Nat
deriving DecidableEq, Repr

/-- What a MSG flit carries: herd messages on a herd port; slots of 16 B on an on-module link. -/
inductive FlitMsgs where
  | herd (ms : List HerdMsg)
  | slots (cls : BitVec 3) (ws : List (BitVec 128))
deriving DecidableEq, Repr

/-- The fields of a DISC payload (Table 14-5). -/
structure Disc where
  identity : BitVec 64
  die : BitVec 3
  revision : BitVec 8
  features : BitVec 32
  version : BitVec 8
  port : BitVec 8
  module : BitVec 9
  bellCand : Bool
  bellwether : Bool
  lr : Bool
deriving DecidableEq, Repr

/-- A port as a TOPO record gives it (R450): its state as LINK_STATUS names it, the peer's module number (511 for none), and its width. -/
structure TopoPort where
  state : BitVec 3
  peer : BitVec 9
  width : BitVec 6
deriving DecidableEq, Repr

/-- A TOPO record (R450). -/
structure TopoRec where
  module : BitVec 9
  seq : Nat
  ports : List TopoPort
  groups : BitVec 16
  identity : BitVec 64
  bellCand : Bool
  bellwether : Bool
deriving DecidableEq, Repr


/-- What the attached host holds of a line that a back-invalidation snoop names (R352, R355). -/
inductive HostCopy where
  /-- nothing: NP -/
  | gone
  /-- a clean copy, E or S -/
  | clean
  /-- the line in M, with its data -/
  | dirty (d : BitVec 512)
deriving DecidableEq, Repr

/-- The host's CXL.mem requests (R467): reads that cache, a read that does not, writes of a whole or a partial line, the write-back
of a line held in M (kept in S or given up), and the notice of a clean line discarded. -/
inductive HostMemOp where
  | rdShared | rdOwn | rdCurr | wrLine | wrPartial | wrBack | wrBackKeep | evict
deriving DecidableEq, Repr

/-- The host's CXL.cache snoops (R503): for a shared copy, for the current data, or for invalidation. -/
inductive HostSnoop where
  | data | cur | inv
deriving DecidableEq, Repr

/-- The Svpbmt encodings of Table 16-2. -/
inductive Pbmt where
  | pma | nc | io
deriving DecidableEq, Repr

/-- The RISC-V atomic memory operations. -/
inductive CoreAmo where
  | swap | add | and | or | xor | min | max | minu | maxu
deriving DecidableEq, Repr

/-- How the votes of the C-die's fuse groups end in stage 1 (R523, R561): corrected disagreements, the repair, variant and
vendor-root groups, the owner slots whose vote fails, and the highest copy of each anti-rollback counter whose vote fails. -/
structure FuseVotes where
  corrected : Nat
  repairOk : Bool
  variantOk : Bool
  rootOk : Bool
  ownerBad : BitVec 4
  rollbackBad : List (Fin 3 × Nat)
  /-- the retained record: whether it votes, and the disagreements corrected in it (R519, R520) -/
  recordOk : Bool := true
  recordCorrected : Nat := 0
deriving DecidableEq, Repr

/-- What stage 4 finds of an A-die: its link to the C-die trained, and the DISC fields (R531). -/
structure DieFind where
  trained : Bool
  revision : BitVec 2
  features : BitVec 32
  version : BitVec 8
  width : BitVec 6
deriving DecidableEq, Repr

/-- What the fuse vote and start-up test find on an A-die (R526 to R528): flocks with a flock memory, Collie or Mule that repair
cannot save, faulty Ox lines (flock, Ox, line), bad Hens (flock, Hen), bad die Mules, the spares that flock memories and slices take, a fault
of a unit whose loss excludes the die. -/
structure DieTest where
  voteOk : Bool
  badFlocks : BitVec 26
  oxCells : List (Fin 26 × Fin 4 × OxCell)
  badHens : List (Fin 26 × Fin 16)
  badMules : BitVec 4
  spares : Nat
  fatal : Bool
deriving DecidableEq, Repr

/-- What stage 6 finds on a stack (R530): pseudo-channels trained again, pseudo-channels that fail three times, rows repaired, and
rows with no repair left as the lines they hold. -/
structure StackFind where
  again : Nat
  failed : Bool
  repaired : Nat
  poison : List Nat
deriving DecidableEq, Repr

/-- A recipient of a firmware image and the chunks it misses (R535); a module of a herd SEND gives its number as `agent` (R537). -/
structure FwMiss where
  agent : Nat
  chunks : List Nat
deriving DecidableEq, Repr

/-- What a service step finds: it succeeds, the test's findings, the links' DISC. -/
structure SvcFind where
  ok : Bool
  test : DieTest
  disc : DieFind
deriving DecidableEq, Repr

/-- The TV fields of Table 18-2 whose vote may fail, and those of a die management block beside them (R548, R549). -/
inductive VoteField where
  | caps | supply
  | oxRepair (o : OxId)
  | dieFuse (die : Fin 4)
  | budget | locks
  | mgmt (die : Fin 4)
deriving DecidableEq, Repr

/-- The conditions that hold a safety reset (R552). -/
inductive GooseHold where
  | mclk | ref | temp
deriving DecidableEq, Repr

/-- An image of a boot-area slot (R532, R559), with what its checks need. -/
structure Image where
  version : BitVec 32
  minRev : BitVec 2
  chunks : Nat
  entry : Nat
  vector : Nat
  digest : BitVec 512
  sig : BitVec 512
  key : BitVec 256
  secVersion : Nat
  /-- the bytes of the chunks, those not zero, by offset -/
  data : List (Nat × BitVec 8)
deriving DecidableEq, Repr

/-- The commands and events of the module: one constructor per row of the table of operations. -/
inductive Instr where
  /-- BEAT_EDGE (R34): A rising edge on SITE_BEAT is timed, judged against the lock or window rules, and if accepted resets the angle and may advance the beat number or lock the beat. `t` is the mclk time of the rising transition, `high` how many mclk cycles the pulse stays high (R591). -/
  | beatEdge (t : Nat) (high : Nat)
  /-- BEAT_WORD (R35): A 48-bit beat word received whole is CRC-checked and sets the beat number, slot and site command. `t` is the mclk time at which the word has been fully received. -/
  | beatWord (t : Nat) (w : BitVec 48)
  /-- WORD_TIMEOUT (R35): A beat word not fully received by angle 0x1000, or by its free-running window, is discarded and counted in WORD_CRC. -/
  | wordTimeout
  /-- BEAT_WRAP (R37): At the end of a measured period the die wraps the angle to 0x0000 and advances the beat number. -/
  | beatWrap
  /-- MISSING_EDGE (R38): The acceptance window ends with no edge; the wrapped beat stands and three in a row set BEAT_LOST with a telemetry record. -/
  | missingEdge
  /-- SITE_NOP (R43): Site command 0 does nothing. -/
  | siteNop
  /-- SITE_HOLD (R43): Site command HOLD stops upward steps until RELEASE. -/
  | siteHold
  /-- SITE_RELEASE (R43): Site command RELEASE ends HOLD and clears a pending site LEAN. -/
  | siteRelease
  /-- SITE_CAP (R43): Site command CAP sets or removes the site power cap. -/
  | siteCap (arg : BitVec 8)
  /-- SITE_LEAN (R43): Site command LEAN enters lean state as on a supply warning. -/
  | siteLean
  /-- SLOT_START (R60): At the start of the load slot the module grants held upward steps in priority order within R41, R42, R55 and HOLD. -/
  | slotStart
  /-- OP_STEP_DONE (R44): An operating-point step of an A-die finishes its voltage and clock change. -/
  | opStepDone (die : Fin 4)
  /-- RETENTION_EXIT_DONE (R46): A die leaving retention becomes usable again and its stacks leave self-refresh. -/
  | retentionExitDone (die : Fin 4)
  /-- DOMAIN_READY (R50): A power domain switched ON becomes usable after its wake time. `die` 0 is the C-die, whose domains 0 to 5 are the clusters; 1 to 4 are A0 to A3. -/
  | domainReady (die : Fin 5) (dom : Fin 42)
  /-- TARGET_OP (R45): A write of TARGET_OP lowers the die at once or holds a raise as an upward request. -/
  | targetOp (die : Fin 4) (v : BitVec 3)
  /-- TARGET_RET (R48): A write of TARGET_RET puts the die in retention if nothing is in flight, or requests leaving it as an upward step. -/
  | targetRet (die : Fin 4) (v : Bool)
  /-- DOMAIN_CTL (R47): A write of DOMAIN_CTL switches a domain down at once, holds an ON request, or is refused. A write of `w` to DOMAIN_CTLr. -/
  | domainCtl (die : Fin 4) (r : Fin 6) (w : BitVec 32)
  /-- METER_SAMPLE (R52): The input meter samples voltage and current every 1 µs and updates the power averages. VIN and VBUS in 0.1 V, the input current in mA, and each A-die's power in 0.1 mW as its base tile meters it. -/
  | meterSample (vin vbus : BitVec 10) (cur : Nat) (p0 p1 p2 p3 : Nat)
  /-- ENFORCEMENT_STEP (R52): With the 1 ms average over the effective cap, hardware lowers an ENF_OP or halves OX_LIMIT. -/
  | enforcementStep
  /-- ENFORCEMENT_UNDO (R53): After 16 ms below cap less headroom the most recent enforcement step is held for undo as an upward step. -/
  | enforcementUndo
  /-- CAP_UNMET (R53): With every step taken and the cap still exceeded for 10 ms, CAP_UNMET is set. -/
  | capUnmet
  /-- FAST_LIMIT (R54): Input power above 1.15 times the cap for 50 µs holds every Ox's issue for 100 µs. -/
  | fastLimit
  /-- FAST_LIMIT_END (R54): The 100 µs fast-limit hold expires and Oxen may issue again. -/
  | fastLimitEnd
  /-- TOKEN_RETURN (R56): An Ox that has not issued for 256 fclk returns its issue token. -/
  | tokenReturn (o : OxId)
  /-- OP_STEP (R59): A due OP_STEP entry writes its argument to TARGET_OP. -/
  | opStep (die : Fin 4) (e : Fin 64)
  /-- DOMAIN (R59): A due DOMAIN entry switches a domain or cluster, holding an ON switch as an upward step. `die` 0 is the C-die's scheduler, 1 to 4 are A0 to A3. -/
  | domain (die : Fin 5) (e : Fin 64)
  /-- SCRUB_BURST (R62): A due SCRUB_BURST entry raises patrol scrub to full rate for its window. -/
  | scrubBurst (die : Fin 4) (e : Fin 64)
  /-- SCRUB_BURST_END (R62): A SCRUB_BURST window ends and scrub returns to its normal rate. -/
  | scrubBurstEnd (die : Fin 4) (e : Fin 64)
  /-- RAMP_PERMIT (R61): A due RAMP_PERMIT entry opens a window in which held Ox ramps may begin. -/
  | rampPermit (die : Fin 4) (e : Fin 64)
  /-- RAMP_PERMIT_END (R61): A RAMP_PERMIT window closes. -/
  | rampPermitEnd (die : Fin 4) (e : Fin 64)
  /-- SAVE_WINDOW (R63): A due SAVE_WINDOW entry starts a scheduled save of the save set. -/
  | saveWindow (e : Fin 64)
  /-- VIN_WARNING (R65): VIN below warning for at least 2 µs is detected and the module enters lean state. `vin` in 0.1 V, `dur` the excursion's length in mclk. -/
  | vinWarning (vin : BitVec 10) (dur : Nat)
  /-- INPUT_OPEN (R65): VIN above 62 V for 10 µs opens the input stage and enters lean state. -/
  | inputOpen (vin : BitVec 10) (dur : Nat)
  /-- INPUT_CLOSE (R65): The input stage closes again when VIN is between 40 V and 60 V. -/
  | inputClose (t : Nat) (vin : BitVec 10)
  /-- SUPPLY_CLEAR (R74): VIN rises above clear and, with the other conditions holding, the wait for leaving lean state begins. -/
  | supplyClear (t : Nat) (vin : BitVec 10)
  /-- LEAN_WAIT_END (R74): The lean-exit wait has lasted two measured beat periods. -/
  | leanWaitEnd (t : Nat)
  /-- SAVE_START (R69): Once every Ox and task Hen has stopped, the save engine starts copying the save set into the free slot. -/
  | saveStart
  /-- SAVE_COPY_DONE (R72): The save copy completes and the seal record is written. -/
  | saveCopyDone
  /-- VBUS_SEAL (R72): VBUS reaching 37.5 V stops the copy and writes an INCOMPLETE seal. `done` is how many of the regions the copy had completed. -/
  | vbusSeal (done : Fin 33)
  /-- SUPPLY_RESET (R73): VBUS reaching 36.0 V resets the module as MOD_RESET_N would. -/
  | supplyReset
  /-- OX_PROG_FETCH (R140): A fetched 64 B line of Ox program enters the Ox's instruction queue. -/
  | oxProgFetch (o : OxId)
  /-- OX_NOP (R160): Ox NOP issues and does nothing. -/
  | oxNop (o : OxId)
  /-- END (R157): END issues after every earlier instruction completes and the Ox item completes. -/
  | oxEnd (o : OxId)
  /-- LDW (R144): LDW issues and loads a weight tile, its scales and check weights into the back set. -/
  | oxLdw (o : OxId)
  /-- LDW_DONE (R144): The back weight set becomes valid after the LDW's last turn. -/
  | oxLdwDone (o : OxLines)
  /-- LDS (R145): LDS issues and writes activation scales into scale-store rows. -/
  | oxLds (o : OxId)
  /-- LDS_DONE (R145): The scale-store rows written by an LDS become valid. -/
  | oxLdsDone (o : OxLines)
  /-- SWP (R107): SWP issues and sends a wavefront exchanging front and back weight sets. -/
  | oxSwp (o : OxId)
  /-- SWP_DONE (R107): An SWP wavefront completes 34 fclk after it enters. -/
  | oxSwpDone (o : OxId)
  /-- MMA (R146): MMA issues with a fixed duration and streams activations through the arrays. -/
  | oxMma (o : OxId)
  /-- OX_REFUSED_RETURN (R158): After issued instructions complete, a refused item is returned failed and the Ox enters IDLE. -/
  | oxRefusedReturn (o : OxId)
  /-- MMA_PASS (R130): One pass of an MMA is checked against the check column and committed, or retried on a mismatch. `errs` are the hardware errors that occur in the pass (none in a fault-free pass). -/
  | oxMmaPass (o : OxId) (errs : List OxError)
  /-- DIAGNOSIS_DONE (R132): Ox diagnosis ends, remapping faulty cells to spares and returning to IDLE, or entering FAILED. `finds` are the faulty cells that the diagnosis and its repeated test find. -/
  | oxDiagnosisDone (o : OxId) (finds : OxFinds)
  /-- ZAC (R153): ZAC issues and zeroes accumulator pairs, clearing poison. -/
  | oxZac (o : OxId)
  /-- ZAC_DONE (R153): The rows zeroed by ZAC are zero. -/
  | oxZacDone (o : OxId)
  /-- DRN (R150): DRN issues and converts accumulator rows to flock memory in the named format. -/
  | oxDrn (o : OxId)
  /-- DRN_DONE (R150): A DRN has written all its lines. -/
  | oxDrnDone (o : OxLines)
  /-- DSET (R154): DSET writes a drain parameter set. -/
  | oxDset (o : OxId)
  /-- SWT (R155): SWT issues once its sync object reaches the threshold, as an acquire. -/
  | oxSwt (o : OxId)
  /-- SREL (R156): SREL adds to a sync object as a release after earlier flock-memory accesses complete. -/
  | oxSrel (o : OxId)
  /-- FENCE (R157): Ox FENCE issues once every earlier instruction has completed. -/
  | oxFence (o : OxId)
  /-- RAMP_UP_DONE (R124): An Ox activity ramp-up ends and the first pass of the MMA follows. -/
  | oxRampUpDone (o : OxId)
  /-- RAMP_DOWN_DONE (R125): An Ox ramp-down ends and the arrays fall idle. -/
  | oxRampDownDone (o : OxId)
  /-- OX_RUN (R137): OX_CTL.REQ = 0 returns a DISABLED Ox to IDLE. -/
  | oxRun (o : OxId)
  /-- OX_QUIESCE (R135): OX_CTL.REQ = 1 stops issue and lets issued instructions complete. -/
  | oxQuiesce (o : OxId)
  /-- OX_QUIESCE_DONE (R135): A quiescing Ox returns its items and enters DISABLED. -/
  | oxQuiesceDone (o : OxId)
  /-- OX_FORCE_DISABLE (R136): OX_CTL.REQ = 2 discards incomplete instructions and returns items raised. -/
  | oxForceDisable (o : OxId)
  /-- OX_DISABLE_DONE (R136): A force-disabled Ox enters DISABLED after any allowed DRN completes. -/
  | oxDisableDone (o : OxId)
  /-- DIAG (R132): Setting DIAG on a DISABLED Ox starts diagnosis. -/
  | oxDiag (o : OxId)
  /-- ADD (R208): Hen integer add. `w` is the instruction word the fetch returned. -/
  | henAdd (h : HenId) (w : BitVec 32)
  /-- SUB (R208): Hen integer subtract. `w` is the instruction word the fetch returned. -/
  | henSub (h : HenId) (w : BitVec 32)
  /-- AND (R208): Hen bitwise AND. `w` is the instruction word the fetch returned. -/
  | henAnd (h : HenId) (w : BitVec 32)
  /-- OR (R208): Hen bitwise OR. `w` is the instruction word the fetch returned. -/
  | henOr (h : HenId) (w : BitVec 32)
  /-- XOR (R208): Hen bitwise XOR. `w` is the instruction word the fetch returned. -/
  | henXor (h : HenId) (w : BitVec 32)
  /-- ANDN (R208): Hen AND with complement. `w` is the instruction word the fetch returned. -/
  | henAndn (h : HenId) (w : BitVec 32)
  /-- SLL (R208): Hen shift left. `w` is the instruction word the fetch returned. -/
  | henSll (h : HenId) (w : BitVec 32)
  /-- SRL (R208): Hen logical shift right. `w` is the instruction word the fetch returned. -/
  | henSrl (h : HenId) (w : BitVec 32)
  /-- SRA (R208): Hen arithmetic shift right. `w` is the instruction word the fetch returned. -/
  | henSra (h : HenId) (w : BitVec 32)
  /-- ROR (R208): Hen rotate right. `w` is the instruction word the fetch returned. -/
  | henRor (h : HenId) (w : BitVec 32)
  /-- SLT (R208): Hen signed set-less-than. `w` is the instruction word the fetch returned. -/
  | henSlt (h : HenId) (w : BitVec 32)
  /-- SLTU (R208): Hen unsigned set-less-than. `w` is the instruction word the fetch returned. -/
  | henSltu (h : HenId) (w : BitVec 32)
  /-- MIN (R208): Hen signed minimum. `w` is the instruction word the fetch returned. -/
  | henMin (h : HenId) (w : BitVec 32)
  /-- MAX (R208): Hen signed maximum. `w` is the instruction word the fetch returned. -/
  | henMax (h : HenId) (w : BitVec 32)
  /-- MINU (R208): Hen unsigned minimum. `w` is the instruction word the fetch returned. -/
  | henMinu (h : HenId) (w : BitVec 32)
  /-- MAXU (R208): Hen unsigned maximum. `w` is the instruction word the fetch returned. -/
  | henMaxu (h : HenId) (w : BitVec 32)
  /-- MUL (R208): Hen multiply, low 64 bits. `w` is the instruction word the fetch returned. -/
  | henMul (h : HenId) (w : BitVec 32)
  /-- MULH (R208): Hen signed multiply, high 64 bits. `w` is the instruction word the fetch returned. -/
  | henMulh (h : HenId) (w : BitVec 32)
  /-- MULHU (R208): Hen unsigned multiply, high 64 bits. `w` is the instruction word the fetch returned. -/
  | henMulhu (h : HenId) (w : BitVec 32)
  /-- MULHSU (R208): Hen signed by unsigned multiply, high 64 bits. `w` is the instruction word the fetch returned. -/
  | henMulhsu (h : HenId) (w : BitVec 32)
  /-- DIV (R209): Hen signed divide with defined division-by-zero and overflow results. `w` is the instruction word the fetch returned. -/
  | henDiv (h : HenId) (w : BitVec 32)
  /-- DIVU (R209): Hen unsigned divide. `w` is the instruction word the fetch returned. -/
  | henDivu (h : HenId) (w : BitVec 32)
  /-- REM (R209): Hen signed remainder. `w` is the instruction word the fetch returned. -/
  | henRem (h : HenId) (w : BitVec 32)
  /-- REMU (R209): Hen unsigned remainder. `w` is the instruction word the fetch returned. -/
  | henRemu (h : HenId) (w : BitVec 32)
  /-- CLZ (R208): Hen count of leading zeros. `w` is the instruction word the fetch returned. -/
  | henClz (h : HenId) (w : BitVec 32)
  /-- CTZ (R208): Hen count of trailing zeros. `w` is the instruction word the fetch returned. -/
  | henCtz (h : HenId) (w : BitVec 32)
  /-- POPC (R208): Hen count of set bits. `w` is the instruction word the fetch returned. -/
  | henPopc (h : HenId) (w : BitVec 32)
  /-- ADDI (R210): Hen add immediate. `w` is the instruction word the fetch returned. -/
  | henAddi (h : HenId) (w : BitVec 32)
  /-- ANDI (R210): Hen AND with zero-extended immediate. `w` is the instruction word the fetch returned. -/
  | henAndi (h : HenId) (w : BitVec 32)
  /-- ORI (R210): Hen OR with zero-extended immediate. `w` is the instruction word the fetch returned. -/
  | henOri (h : HenId) (w : BitVec 32)
  /-- XORI (R210): Hen XOR with zero-extended immediate. `w` is the instruction word the fetch returned. -/
  | henXori (h : HenId) (w : BitVec 32)
  /-- SLTI (R210): Hen signed set-less-than immediate. `w` is the instruction word the fetch returned. -/
  | henSlti (h : HenId) (w : BitVec 32)
  /-- SLTIU (R210): Hen unsigned set-less-than immediate. `w` is the instruction word the fetch returned. -/
  | henSltiu (h : HenId) (w : BitVec 32)
  /-- SHI (R210): Hen shift or rotate by immediate. `w` is the instruction word the fetch returned. -/
  | henShi (h : HenId) (w : BitVec 32)
  /-- IMZ (R211): Hen writes an immediate half-word into a zeroed register. `w` is the instruction word the fetch returned. -/
  | henImz (h : HenId) (w : BitVec 32)
  /-- IMK (R211): Hen writes an immediate half-word keeping the other bits. `w` is the instruction word the fetch returned. -/
  | henImk (h : HenId) (w : BitVec 32)
  /-- LB (R214): Hen load byte, sign-extended. `w` is the instruction word the fetch returned. -/
  | henLb (h : HenId) (w : BitVec 32)
  /-- LBU (R214): Hen load byte, zero-extended. `w` is the instruction word the fetch returned. -/
  | henLbu (h : HenId) (w : BitVec 32)
  /-- LH (R214): Hen load half-word, sign-extended. `w` is the instruction word the fetch returned. -/
  | henLh (h : HenId) (w : BitVec 32)
  /-- LHU (R214): Hen load half-word, zero-extended. `w` is the instruction word the fetch returned. -/
  | henLhu (h : HenId) (w : BitVec 32)
  /-- LW (R214): Hen load word, sign-extended. `w` is the instruction word the fetch returned. -/
  | henLw (h : HenId) (w : BitVec 32)
  /-- LWU (R214): Hen load word, zero-extended. `w` is the instruction word the fetch returned. -/
  | henLwu (h : HenId) (w : BitVec 32)
  /-- LD (R214): Hen load doubleword. `w` is the instruction word the fetch returned. -/
  | henLd (h : HenId) (w : BitVec 32)
  /-- SB (R214): Hen store byte. `w` is the instruction word the fetch returned. -/
  | henSb (h : HenId) (w : BitVec 32)
  /-- SH (R214): Hen store half-word. `w` is the instruction word the fetch returned. -/
  | henSh (h : HenId) (w : BitVec 32)
  /-- SW (R214): Hen store word. `w` is the instruction word the fetch returned. -/
  | henSw (h : HenId) (w : BitVec 32)
  /-- SD (R214): Hen store doubleword. `w` is the instruction word the fetch returned. -/
  | henSd (h : HenId) (w : BitVec 32)
  /-- STH (R216): Hen store with a write hint naming a target cache. `w` is the instruction word the fetch returned. -/
  | henSth (h : HenId) (w : BitVec 32)
  /-- LR (R331): Hen load-reserved sets a reservation on a granule. `w` is the instruction word the fetch returned. -/
  | henLr (h : HenId) (w : BitVec 32)
  /-- SC (R332): Hen store-conditional writes only while the reservation holds. `w` is the instruction word the fetch returned. -/
  | henSc (h : HenId) (w : BitVec 32)
  /-- SWAP (R217): Hen atomic swap at the home slice. `w` is the instruction word the fetch returned. -/
  | henSwap (h : HenId) (w : BitVec 32)
  /-- AADD (R217): Hen atomic add at the home slice. `w` is the instruction word the fetch returned. -/
  | henAadd (h : HenId) (w : BitVec 32)
  /-- AAND (R217): Hen atomic AND. `w` is the instruction word the fetch returned. -/
  | henAand (h : HenId) (w : BitVec 32)
  /-- AOR (R217): Hen atomic OR. `w` is the instruction word the fetch returned. -/
  | henAor (h : HenId) (w : BitVec 32)
  /-- AXOR (R217): Hen atomic XOR. `w` is the instruction word the fetch returned. -/
  | henAxor (h : HenId) (w : BitVec 32)
  /-- AMIN (R217): Hen atomic signed minimum. `w` is the instruction word the fetch returned. -/
  | henAmin (h : HenId) (w : BitVec 32)
  /-- AMAX (R217): Hen atomic signed maximum. `w` is the instruction word the fetch returned. -/
  | henAmax (h : HenId) (w : BitVec 32)
  /-- AMINU (R217): Hen atomic unsigned minimum. `w` is the instruction word the fetch returned. -/
  | henAminu (h : HenId) (w : BitVec 32)
  /-- AMAXU (R217): Hen atomic unsigned maximum. `w` is the instruction word the fetch returned. -/
  | henAmaxu (h : HenId) (w : BitVec 32)
  /-- CAS (R217): Hen atomic compare-and-swap. `w` is the instruction word the fetch returned. -/
  | henCas (h : HenId) (w : BitVec 32)
  /-- FADD (R217): Hen atomic FP32 add. `w` is the instruction word the fetch returned. -/
  | henFadd (h : HenId) (w : BitVec 32)
  /-- LVOL (R330): Hen volatile read at the point of coherence. `w` is the instruction word the fetch returned. -/
  | henLvol (h : HenId) (w : BitVec 32)
  /-- VLD (R222): Hen vector load of a 64 B line under predicate. `w` is the instruction word the fetch returned. -/
  | henVld (h : HenId) (w : BitVec 32)
  /-- VST (R222): Hen vector store of active bytes. `w` is the instruction word the fetch returned. -/
  | henVst (h : HenId) (w : BitVec 32)
  /-- VADD (R223): Hen vector FP add. `w` is the instruction word the fetch returned. -/
  | henVadd (h : HenId) (w : BitVec 32)
  /-- VSUB (R223): Hen vector FP subtract. `w` is the instruction word the fetch returned. -/
  | henVsub (h : HenId) (w : BitVec 32)
  /-- VMUL (R223): Hen vector FP multiply. `w` is the instruction word the fetch returned. -/
  | henVmul (h : HenId) (w : BitVec 32)
  /-- VFMA (R223): Hen vector fused multiply-add. `w` is the instruction word the fetch returned. -/
  | henVfma (h : HenId) (w : BitVec 32)
  /-- VFMS (R223): Hen vector fused multiply-subtract. `w` is the instruction word the fetch returned. -/
  | henVfms (h : HenId) (w : BitVec 32)
  /-- VMIN (R223): Hen vector FP minimum. `w` is the instruction word the fetch returned. -/
  | henVmin (h : HenId) (w : BitVec 32)
  /-- VMAX (R223): Hen vector FP maximum. `w` is the instruction word the fetch returned. -/
  | henVmax (h : HenId) (w : BitVec 32)
  /-- VABS (R223): Hen vector FP absolute value. `w` is the instruction word the fetch returned. -/
  | henVabs (h : HenId) (w : BitVec 32)
  /-- VNEG (R223): Hen vector FP negate. `w` is the instruction word the fetch returned. -/
  | henVneg (h : HenId) (w : BitVec 32)
  /-- VEXP2 (R194): Hen vector approximate base-2 exponential. `w` is the instruction word the fetch returned. -/
  | henVexp2 (h : HenId) (w : BitVec 32)
  /-- VRCP (R194): Hen vector approximate reciprocal. `w` is the instruction word the fetch returned. -/
  | henVrcp (h : HenId) (w : BitVec 32)
  /-- VRSQ (R194): Hen vector approximate reciprocal square root. `w` is the instruction word the fetch returned. -/
  | henVrsq (h : HenId) (w : BitVec 32)
  /-- VDOT8 (R224): Hen 8-bit FP dot product of groups of four into FP32 lanes. `w` is the instruction word the fetch returned. -/
  | henVdot8 (h : HenId) (w : BitVec 32)
  /-- VOPI_VADD (R225): Hen vector integer add. `w` is the instruction word the fetch returned. -/
  | henVopiVadd (h : HenId) (w : BitVec 32)
  /-- VOPI_VSUB (R225): Hen vector integer subtract. `w` is the instruction word the fetch returned. -/
  | henVopiVsub (h : HenId) (w : BitVec 32)
  /-- VOPI_VMUL (R225): Hen vector integer multiply, low bits. `w` is the instruction word the fetch returned. -/
  | henVopiVmul (h : HenId) (w : BitVec 32)
  /-- VOPI_VMIN (R225): Hen vector signed minimum. `w` is the instruction word the fetch returned. -/
  | henVopiVmin (h : HenId) (w : BitVec 32)
  /-- VOPI_VMAX (R225): Hen vector signed maximum. `w` is the instruction word the fetch returned. -/
  | henVopiVmax (h : HenId) (w : BitVec 32)
  /-- VMINU (R225): Hen vector unsigned minimum. `w` is the instruction word the fetch returned. -/
  | henVminu (h : HenId) (w : BitVec 32)
  /-- VMAXU (R225): Hen vector unsigned maximum. `w` is the instruction word the fetch returned. -/
  | henVmaxu (h : HenId) (w : BitVec 32)
  /-- VAND (R225): Hen vector AND. `w` is the instruction word the fetch returned. -/
  | henVand (h : HenId) (w : BitVec 32)
  /-- VOR (R225): Hen vector OR. `w` is the instruction word the fetch returned. -/
  | henVor (h : HenId) (w : BitVec 32)
  /-- VXOR (R225): Hen vector XOR. `w` is the instruction word the fetch returned. -/
  | henVxor (h : HenId) (w : BitVec 32)
  /-- VANDN (R225): Hen vector AND with complement. `w` is the instruction word the fetch returned. -/
  | henVandn (h : HenId) (w : BitVec 32)
  /-- VSLL (R225): Hen vector shift left. `w` is the instruction word the fetch returned. -/
  | henVsll (h : HenId) (w : BitVec 32)
  /-- VSRL (R225): Hen vector logical shift right. `w` is the instruction word the fetch returned. -/
  | henVsrl (h : HenId) (w : BitVec 32)
  /-- VSRA (R225): Hen vector arithmetic shift right. `w` is the instruction word the fetch returned. -/
  | henVsra (h : HenId) (w : BitVec 32)
  /-- VCMP (R226): Hen vector compare into a predicate. `w` is the instruction word the fetch returned. -/
  | henVcmp (h : HenId) (w : BitVec 32)
  /-- PAND (R227): Hen predicate AND. `w` is the instruction word the fetch returned. -/
  | henPand (h : HenId) (w : BitVec 32)
  /-- POR (R227): Hen predicate OR. `w` is the instruction word the fetch returned. -/
  | henPor (h : HenId) (w : BitVec 32)
  /-- PXOR (R227): Hen predicate XOR. `w` is the instruction word the fetch returned. -/
  | henPxor (h : HenId) (w : BitVec 32)
  /-- PANDN (R227): Hen predicate AND with complement. `w` is the instruction word the fetch returned. -/
  | henPandn (h : HenId) (w : BitVec 32)
  /-- PNOT (R227): Hen predicate inverse. `w` is the instruction word the fetch returned. -/
  | henPnot (h : HenId) (w : BitVec 32)
  /-- PMOVG (R227): Hen moves a general register into a predicate. `w` is the instruction word the fetch returned. -/
  | henPmovg (h : HenId) (w : BitVec 32)
  /-- GMOVP (R227): Hen moves a predicate into a general register. `w` is the instruction word the fetch returned. -/
  | henGmovp (h : HenId) (w : BitVec 32)
  /-- VPERMB (R228): Hen byte permute. `w` is the instruction word the fetch returned. -/
  | henVpermb (h : HenId) (w : BitVec 32)
  /-- VBCAST (R228): Hen broadcast of a general register to every element. `w` is the instruction word the fetch returned. -/
  | henVbcast (h : HenId) (w : BitVec 32)
  /-- VINS (R228): Hen insert of one element. `w` is the instruction word the fetch returned. -/
  | henVins (h : HenId) (w : BitVec 32)
  /-- VEXT (R228): Hen extract of one element to a general register. `w` is the instruction word the fetch returned. -/
  | henVext (h : HenId) (w : BitVec 32)
  /-- VZIPL (R228): Hen interleave of the lower halves. `w` is the instruction word the fetch returned. -/
  | henVzipl (h : HenId) (w : BitVec 32)
  /-- VZIPH (R228): Hen interleave of the upper halves. `w` is the instruction word the fetch returned. -/
  | henVziph (h : HenId) (w : BitVec 32)
  /-- VMOV (R228): Hen vector move. `w` is the instruction word the fetch returned. -/
  | henVmov (h : HenId) (w : BitVec 32)
  /-- VSEL (R228): Hen select by predicate. `w` is the instruction word the fetch returned. -/
  | henVsel (h : HenId) (w : BitVec 32)
  /-- VUNPK6 (R228): Hen unpack of packed 6-bit elements. `w` is the instruction word the fetch returned. -/
  | henVunpk6 (h : HenId) (w : BitVec 32)
  /-- VPK6 (R228): Hen pack of 6-bit elements. `w` is the instruction word the fetch returned. -/
  | henVpk6 (h : HenId) (w : BitVec 32)
  /-- RSUM (R229): Hen reduction sum across a vector register. `w` is the instruction word the fetch returned. -/
  | henRsum (h : HenId) (w : BitVec 32)
  /-- RMIN (R229): Hen reduction minimum. `w` is the instruction word the fetch returned. -/
  | henRmin (h : HenId) (w : BitVec 32)
  /-- RMAX (R229): Hen reduction maximum. `w` is the instruction word the fetch returned. -/
  | henRmax (h : HenId) (w : BitVec 32)
  /-- VCVT (R230): Hen vector format conversion. `w` is the instruction word the fetch returned. -/
  | henVcvt (h : HenId) (w : BitVec 32)
  /-- BEQ (R212): Hen branch if equal. `w` is the instruction word the fetch returned. -/
  | henBeq (h : HenId) (w : BitVec 32)
  /-- BNE (R212): Hen branch if not equal. `w` is the instruction word the fetch returned. -/
  | henBne (h : HenId) (w : BitVec 32)
  /-- BLT (R212): Hen branch if signed less. `w` is the instruction word the fetch returned. -/
  | henBlt (h : HenId) (w : BitVec 32)
  /-- BGE (R212): Hen branch if signed greater or equal. `w` is the instruction word the fetch returned. -/
  | henBge (h : HenId) (w : BitVec 32)
  /-- BLTU (R212): Hen branch if unsigned less. `w` is the instruction word the fetch returned. -/
  | henBltu (h : HenId) (w : BitVec 32)
  /-- BGEU (R212): Hen branch if unsigned greater or equal. `w` is the instruction word the fetch returned. -/
  | henBgeu (h : HenId) (w : BitVec 32)
  /-- J (R212): Hen jump. `w` is the instruction word the fetch returned. -/
  | henJ (h : HenId) (w : BitVec 32)
  /-- JAL (R212): Hen jump and link to g31. `w` is the instruction word the fetch returned. -/
  | henJal (h : HenId) (w : BitVec 32)
  /-- JALR (R213): Hen jump to register and link. `w` is the instruction word the fetch returned. -/
  | henJalr (h : HenId) (w : BitVec 32)
  /-- MPUSH (R232): Hen pushes a 64 B descriptor into a Mule queue. `w` is the instruction word the fetch returned. -/
  | henMpush (h : HenId) (w : BitVec 32)
  /-- CPUSH (R232): Hen pushes a 64 B work item to a Collie, which checks and queues it. `w` is the instruction word the fetch returned. -/
  | henCpush (h : HenId) (w : BitVec 32)
  /-- SADD (R234): Hen adds to a sync object as a release at a scope. `w` is the instruction word the fetch returned. -/
  | henSadd (h : HenId) (w : BitVec 32)
  /-- SWAIT (R234): Hen waits until a sync count reaches a threshold, then acquires. `w` is the instruction word the fetch returned. -/
  | henSwait (h : HenId) (w : BitVec 32)
  /-- SREAD (R234): Hen reads a sync count with no ordering. `w` is the instruction word the fetch returned. -/
  | henSread (h : HenId) (w : BitVec 32)
  /-- DC_CLEAN (R235): Hen writes back a dirty line and keeps it clean. `w` is the instruction word the fetch returned. -/
  | henDcClean (h : HenId) (w : BitVec 32)
  /-- DC_FLUSH (R235): Hen writes back and invalidates a line. `w` is the instruction word the fetch returned. -/
  | henDcFlush (h : HenId) (w : BitVec 32)
  /-- DC_INV (R238): Hen invalidates a line without write-back. `w` is the instruction word the fetch returned. -/
  | henDcInv (h : HenId) (w : BitVec 32)
  /-- DC_PF (R236): Hen prefetches a line under the pipeline mask. `w` is the instruction word the fetch returned. -/
  | henDcPf (h : HenId) (w : BitVec 32)
  /-- DC_CLEAN_SW (R237): Hen cleans a cache entry by set and way. `w` is the instruction word the fetch returned. -/
  | henDcCleanSw (h : HenId) (w : BitVec 32)
  /-- DC_FLUSH_SW (R237): Hen flushes a cache entry by set and way. `w` is the instruction word the fetch returned. -/
  | henDcFlushSw (h : HenId) (w : BitVec 32)
  /-- DC_INV_SW (R237): Hen invalidates a cache entry by set and way. `w` is the instruction word the fetch returned. -/
  | henDcInvSw (h : HenId) (w : BitVec 32)
  /-- IC_INV (R181): Hen drains its store buffer and invalidates the instruction cache. `w` is the instruction word the fetch returned. -/
  | henIcInv (h : HenId) (w : BitVec 32)
  /-- CRR (R240): Hen reads a control register. `w` is the instruction word the fetch returned. -/
  | henCrr (h : HenId) (w : BitVec 32)
  /-- CRW (R240): Hen writes a control register. `w` is the instruction word the fetch returned. -/
  | henCrw (h : HenId) (w : BitVec 32)
  /-- CRS (R240): Hen reads and sets bits of a control register. `w` is the instruction word the fetch returned. -/
  | henCrs (h : HenId) (w : BitVec 32)
  /-- CRC (R240): Hen reads and clears bits of a control register. `w` is the instruction word the fetch returned. -/
  | henCrc (h : HenId) (w : BitVec 32)
  /-- BAR (R324): Hen barrier waits for its earlier accesses to be performed and landed. `w` is the instruction word the fetch returned. -/
  | henBar (h : HenId) (w : BitVec 32)
  /-- TRAP (R239): Hen raises TRAP with its immediate. `w` is the instruction word the fetch returned. -/
  | henTrap (h : HenId) (w : BitVec 32)
  /-- BREAK (R239): Hen raises BREAK. `w` is the instruction word the fetch returned. -/
  | henBreak (h : HenId) (w : BitVec 32)
  /-- ERET (R196): Hen returns from an exception to EPC with the saved privilege. `w` is the instruction word the fetch returned. -/
  | henEret (h : HenId) (w : BitVec 32)
  /-- WFI (R239): Hen holds until an enabled interrupt source is pending. `w` is the instruction word the fetch returned. -/
  | henWfi (h : HenId) (w : BitVec 32)
  /-- SB_RETIRE (R177): A store-buffer entry is accepted by its cache line, home, arbiter or port and retires. -/
  | sbRetire (h : HenId) (i : Nat)
  /-- IMPRECISE_EXCEPTION (R197): A pending imprecise exception such as STORE_ADDR_ERROR or LOST_STORE is taken at an instruction boundary. -/
  | impreciseException (h : HenId)
  /-- INTERRUPT (R200): A pending enabled interrupt is taken at an instruction boundary, possibly restarting a load. -/
  | interrupt (h : HenId)
  /-- TIMER (R200): CYCLE reaches TIMECMP and TIMER becomes pending. -/
  | timer (h : HenId) (t : Nat)
  /-- SELFTEST_SLICE (R201): A Hen runs a self-test slice; a repeated failure fails the Hen. `ok` and `okAgain` say whether the slice and its repetition pass. -/
  | selftestSlice (h : HenId) (ok : Bool) (okAgain : Bool)
  /-- LR_HOLD_END (R333): An LR hold expires after 64 fclk and delayed snoops proceed. -/
  | lrHoldEnd (h : HenId)
  /-- HEN_RUN (R202): HEN_CTL.REQ = 0 returns a DISABLED Hen to RUNNING. -/
  | henRun (h : HenId)
  /-- HEN_QUIESCE (R202): HEN_CTL.REQ = 1 completes the instruction, drains, returns items and disables the Hen. -/
  | henQuiesce (h : HenId)
  /-- HEN_FORCE_DISABLE (R202): HEN_CTL.REQ = 2 abandons the instruction, returns the item raised and disables the Hen. -/
  | henForceDisable (h : HenId)
  /-- HEN_RESTART (R202): HEN_CTL.REQ = 3 cleans the caches, resets registers and restarts firmware. -/
  | henRestart (h : HenId)
  /-- IRQ (R200): Writing HEN_CTL.IRQ raises the MGMT interrupt. -/
  | irq (h : HenId)
  /-- COLLIE_DISPATCH (R256): The Collie fills an engine's current or next place with a chosen ready item. `hen` says whether an engine of kind Hen or Ox is filled. -/
  | collieDispatch (f : FlockId) (hen : Bool)
  /-- TAKE (R260): Firmware marks a delivered item taken. -/
  | itemTake (f : FlockId) (h : Fin 16)
  /-- DONE (R260): Firmware completes a taken item. -/
  | itemDone (f : FlockId) (h : Fin 16)
  /-- FAIL (R260): Firmware fails a taken item with FCAUSE. -/
  | itemFail (f : FlockId) (h : Fin 16) (fcause : BitVec 8)
  /-- ITEM_RETURN (R274): A returned or ended item is requeued, retried or failed under Table 8-5 with a failure record. -/
  | itemReturn (f : FlockId)
  /-- STEAL_SIB (R264): An idle engine takes the item from a sibling's next place. `unit` is the engine: 0 to 15 the Hens, 16 to 19 the Oxen. -/
  | stealSib (f : FlockId) (unit : Fin 20)
  /-- PROBE_ROUND (R265): After the backoff an idle engine's Collie probes other flocks or dies for work. -/
  | probeRound (f : FlockId) (hen : Bool)
  /-- PROBE (R266): A probed Collie gives an eligible item or answers no item. -/
  | probe (f : FlockId) (hen : Bool)
  /-- STEAL_COPY_DONE (R267): The copy-in of a stolen item completes and the item starts on the thief. `unit` is the engine: 0 to 15 the Hens, 16 to 19 the Oxen. -/
  | stealCopyDone (f : FlockId) (unit : Fin 20)
  /-- COPY_BACK_DONE (R268): The copy-back of a stolen item lands and its widened completion release is performed. `unit` is the engine: 0 to 15 the Hens, 16 to 19 the Oxen. -/
  | copyBackDone (f : FlockId) (unit : Fin 20)
  /-- COLLIE_RUN (R278): COL_CTL.REQ = 0 returns engines to service and resumes the Collie. -/
  | collieRun (f : FlockId)
  /-- COLLIE_QUIESCE (R278): COL_CTL.REQ = 1 stops delivery and stealing and quiesces every engine. -/
  | collieQuiesce (f : FlockId)
  /-- COLLIE_FORCE_QUIESCE (R278): COL_CTL.REQ = 2 force-disables every engine of the flock. -/
  | collieForceQuiesce (f : FlockId)
  /-- COLLIE_QUIESCE_DONE (R278): The Collie enters QUIESCED once engines are disabled and nothing is hosted or away. -/
  | collieQuiesceDone (f : FlockId)
  /-- EVICT (R279): EVICT pushes every native item to the COL_EVICT target in one pass. -/
  | collieEvict (f : FlockId)
  /-- WAIT_POLL (R281): A polled wait outside the wait table is re-evaluated every 64 clocks. -/
  | waitPoll (die : Fin 4)
  /-- SYNC_COUNT_WRITE (R282): A write of SYNC_COUNT sets a count, clears its release record and re-evaluates waits. -/
  | syncCountWrite (die : Fin 4) (i : Fin 4096) (v : BitVec 32)
  /-- MULE_DESC_START (R286): A Mule starts the oldest waiting descriptor of a queue and checks it. -/
  | muleDescStart (m : MuleId)
  /-- COPY (R291): Mule COPY moves each source byte of the shape to its destination. The active descriptor with start number `k` performs up to `n` further line requests. -/
  | muleCopy (m : MuleId) (k : Nat) (n : Nat)
  /-- TRANSPOSE (R291): Mule TRANSPOSE writes source rows as destination columns. The active descriptor with start number `k` performs up to `n` further line requests. -/
  | muleTranspose (m : MuleId) (k : Nat) (n : Nat)
  /-- GATHER (R293): Mule GATHER copies indexed table entries to a dense destination. The active descriptor with start number `k` performs up to `n` further line requests. -/
  | muleGather (m : MuleId) (k : Nat) (n : Nat)
  /-- SCATTER (R293): Mule SCATTER copies dense elements to indexed table entries. The active descriptor with start number `k` performs up to `n` further line requests. -/
  | muleScatter (m : MuleId) (k : Nat) (n : Nat)
  /-- FILL (R291): Mule FILL writes PATTERN over the destination shape. The active descriptor with start number `k` performs up to `n` further line requests. -/
  | muleFill (m : MuleId) (k : Nat) (n : Nat)
  /-- REDUCE (R292): Mule REDUCE combines source elements into destination lines at the home slice. The active descriptor with start number `k` performs up to `n` further line requests. -/
  | muleReduce (m : MuleId) (k : Nat) (n : Nat)
  /-- MULE_DESC_COMPLETE (R302): A descriptor whose reads and writes are done completes and releases DONE_OBJ. `k` is the descriptor's start number. -/
  | muleDescComplete (m : MuleId) (k : Nat)
  /-- MULE_DESC_ERROR (R304): A descriptor ending with an error writes its record after issued accesses finish and may halt queue 0. `k` is the descriptor's start number. -/
  | muleDescError (m : MuleId) (k : Nat)
  /-- MULE_RUN (R307): MULE_CTL.REQ = 0 returns the Mule to RUNNING. -/
  | muleRun (m : MuleId)
  /-- MULE_QUIESCE (R307): MULE_CTL.REQ = 1 stops starts and lets active descriptors finish. -/
  | muleQuiesce (m : MuleId)
  /-- MULE_ABORT (R307): MULE_CTL.REQ = 2 ends every active descriptor with ABORTED. -/
  | muleAbort (m : MuleId)
  /-- MULE_QUIESCE_DONE (R307): A Mule with no active descriptor enters QUIESCED. -/
  | muleQuiesceDone (m : MuleId)
  /-- RESUME0 (R306): RESUME0 clears a queue-0 halt and lets waiting descriptors complete. -/
  | resume0 (m : MuleId)
  /-- MULE_FLUSH (R307): FLUSH discards the queued descriptors of selected queues of a QUIESCED Mule. -/
  | muleFlush (m : MuleId) (qmask : BitVec 4)
  /-- RDS (R352): The home serves a shared read request under Table 11-3. `a` is the requester. -/
  | rds (a : BitVec 13) (pa : BitVec 56)
  /-- RDO (R352): The home serves an ownership read request. `a` is the requester. -/
  | rdo (a : BitVec 13) (pa : BitVec 56)
  /-- UPG (R352): The home serves an upgrade from S to ownership. `a` is the requester. -/
  | upg (a : BitVec 13) (pa : BitVec 56)
  /-- RDU (R352): The home serves an uncached read. `a` is the requester. -/
  | rdu (a : BitVec 13) (pa : BitVec 56)
  /-- WRL (R352): The home performs a whole-line uncached write. `a` is the requester, whose write is on its way. -/
  | wrl (a : BitVec 13) (pa : BitVec 56)
  /-- WRP (R352): The home merges a partial-line uncached write. `a` is the requester, whose write is on its way. -/
  | wrp (a : BitVec 13) (pa : BitVec 56)
  /-- WBD (R354): The home accepts or drops a dirty write-back. -/
  | wbd (a : BitVec 13) (pa : BitVec 56)
  /-- INVN (R352): The home takes notice of a discarded modified line. `a` is the requester. -/
  | invn (a : BitVec 13) (pa : BitVec 56)
  /-- ATM (R362): An atomic or reduction request is admitted into the slice's atomic queue. -/
  | atm (a : BitVec 13) (pa : BitVec 56)
  /-- ATM_LINE_OP (R364): The slice retires one atomic line operation, merging entries where allowed. -/
  | atmLineOp (sl : SliceId)
  /-- SNPSHR (R352): An owner receiving SnpShr forwards the line and keeps S. `a` is the agent the snoop reaches; `hd` is what the attached host holds of the line where `a` is the host. -/
  | snpshr (a : BitVec 13) (pa : BitVec 56) (hd : HostCopy)
  /-- SNPOWN (R353): An owner receiving SnpOwn forwards the line to the requester and invalidates. `a` is the agent the snoop reaches; `hd` is what the attached host holds of the line where `a` is the host. -/
  | snpown (a : BitVec 13) (pa : BitVec 56) (hd : HostCopy)
  /-- SNPOWNHOME (R352): An owner receiving SnpOwnHome writes the line back and invalidates. `a` is the agent the snoop reaches; `hd` is what the attached host holds of the line where `a` is the host. -/
  | snpownhome (a : BitVec 13) (pa : BitVec 56) (hd : HostCopy)
  /-- SNPDATA (R352): An owner receiving SnpData sends the line home and keeps S. `a` is the agent the snoop reaches; `hd` is what the attached host holds of the line where `a` is the host. -/
  | snpdata (a : BitVec 13) (pa : BitVec 56) (hd : HostCopy)
  /-- SNPINV (R352): A holder receiving SnpInv invalidates its copy. `a` is the agent the snoop reaches; `hd` is what the attached host holds of the line where `a` is the host. -/
  | snpinv (a : BitVec 13) (pa : BitVec 56) (hd : HostCopy)
  /-- HOME_RESET_SNOOP (R369): A caching agent receiving a home-reset snoop writes back M copies and invalidates others. `a` is the agent the snoop reaches; `hd` is what the attached host holds of the line where `a` is the host. -/
  | homeResetSnoop (a : BitVec 13) (pa : BitVec 56) (hd : HostCopy)
  /-- SNOOP_RESPONSE (R354): A snoop response or NP reaches the home and advances or ends the line's transaction. -/
  | snoopResponse (a : BitVec 13) (pa : BitVec 56)
  /-- GRANT (R352): A grant reaches a requester and sets its line state. -/
  | grant (a : BitVec 13) (pa : BitVec 56)
  /-- DAT (R352): Line data reaches a requester or home and completes a waiting access. -/
  | dat (a : BitVec 13) (pa : BitVec 56)
  /-- STASH (R359): The home sends a hinted line to a target Hen, which fills it or refuses it. -/
  | stash (a : BitVec 13) (pa : BitVec 56)
  /-- RETRY_NACK (R46): A retry-later NACK reaches a requester, which retries the request. -/
  | retryNack (a : BitVec 13) (pa : BitVec 56)
  /-- DEAD_WALK_DONE (R367): A slice finishes walking its tags and directory store for dead agents. -/
  | deadWalkDone (sl : SliceId)
  /-- SLICE_SCRUB (R546): A slice scrubs a line or directory entry in an idle cycle. -/
  | sliceScrub (sl : SliceId) (pa : BitVec 56)
  /-- SC_FLUSH (R371): SC_CTL.FLUSH starts writing every dirty line of the slice to HBM. -/
  | scFlush (sl : SliceId)
  /-- SC_FLUSH_DONE (R371): A slice flush completes. -/
  | scFlushDone (sl : SliceId)
  /-- HBM_READ_RETURN (R388): A stack read returns and errors are rechecked, corrected or poisoned before data goes back. The first read's finding `e1`, the second read's `e2` and the third read's `e3` (R388); `cls` is the class of Table 12-4. -/
  | hbmReadReturn (pa : BitVec 56) (cls : Fin 4) (e1 e2 e3 : ReadPair)
  /-- HBM_WRITE_GROUP (R382): A controller sends held writes to the stack in a group. -/
  | hbmWriteGroup (b : HbmId) (pc : Fin 32)
  /-- HBM_PARITY_ERROR (R394): An interface parity error repeats the command and on failure retrains the pseudo-channel. Whether the repeated command succeeds, and whether the request does after the retrain. -/
  | hbmParityError (pa : BitVec 56) (isWrite okRepeat okAfter : Bool)
  /-- HBM_REFRESH (R385): A per-bank refresh falls due. -/
  | hbmRefresh (b : HbmId) (pc : Fin 32)
  /-- HBM_TEMP_READ (R385): Every 1 ms the controller reads stack temperature and adjusts refresh, throttling and retrain due. -/
  | hbmTempRead (b : HbmId) (temp : Fin 256)
  /-- HBM_SCRUB_READ (R392): Patrol scrub reads the next line of each pseudo-channel. -/
  | hbmScrubRead (b : HbmId) (pc : Fin 32) (e1 e2 e3 : ReadPair)
  /-- RETRAIN_PERIOD (R395): PERIOD has passed since a pseudo-channel's last training and it becomes due. -/
  | retrainPeriod (b : HbmId) (pc : Fin 32)
  /-- RETRAIN_START (R396): A due pseudo-channel starts retraining outside the load slot with short queues. -/
  | retrainStart (b : HbmId) (pc : Fin 32)
  /-- RETRAIN_FORCED (R396): A retrain not started within 20 ms starts at the next access boundary. -/
  | retrainForced (b : HbmId) (pc : Fin 32)
  /-- RETRAIN_DONE (R397): A retrain ends, repeating once on failure and degrading the pseudo-channel if it fails again. -/
  | retrainDone (b : HbmId) (pc : Fin 32) (ok : Bool)
  /-- RETRAIN_ALL (R395): RETRAIN_ALL makes every pseudo-channel due. -/
  | retrainAll (b : HbmId)
  /-- CNT_CLR (R399): CNT_CLR clears the activity counters and frees shadow latches. -/
  | cntClr (b : HbmId)
  /-- PROMOTION_START (R408): A promotion takes a free frame or evicts a victim and begins reading sub-blocks from flash. -/
  | promotionStart
  /-- PROMOTE_HINT (R407): A promotion hint is queued or dropped under the heat test. -/
  | promoteHint (page : Nat) (mule : Bool)
  /-- FLASH_READ_DONE (R419): A flash unit read ends, climbing the retry ladder or poisoning, and valid sub-blocks release held accesses. Whether the unit's read at its present rung decodes; `chan` is its flash channel. -/
  | flashReadDone (page : Nat) (unit : Fin 128) (ok : Bool) (chan : Fin 32)
  /-- FLASH_WRITE_DONE (R415): A sub-block write-back to flash completes, charging the write budget. -/
  | flashWriteDone (page : Nat) (sub : Fin 32)
  /-- EVICTION_START (R414): The tier evicts a victim page to keep FREE_TARGET frames free. -/
  | evictionStart
  /-- HEAT_EPOCH (R405): Every EPOCH_BEATS beats all heat counters are halved. -/
  | heatEpoch
  /-- CLEAN_AHEAD (R416): The tier writes back a cold dirty sub-block while the flash is idle and budget remains. -/
  | cleanAhead (page : Nat) (sub : Fin 32)
  /-- BUDGET_TICK (R417): The write-budget account gains its per-second accrual. -/
  | budgetTick
  /-- STALL_LATE (R410): An access held 2 ms counts STALL_LATE and keeps waiting. `k` is the held access's place among those held, oldest first. -/
  | stallLate (k : Nat)
  /-- RETENTION_SCAN (R422): The tier scans a unit for retention and refreshes or levels wear. -/
  | retentionScan (page : Nat) (unit : Fin 128) (refresh : Bool)
  /-- FLASH_PROGRAM_FAIL (R423): A block that fails program or erase is retired, possibly entering READ_ONLY. `spareBlocks` is how many spare blocks are left, `low` whether they lie below 1 % of the usable capacity. -/
  | flashProgramFail (spareBlocks : Nat) (low : Bool)
  /-- TIER_FLUSH (R426): TIER_CTL.FLUSH starts writing back every dirty sub-block. -/
  | tierFlush
  /-- TIER_FLUSH_DONE (R426): A tier flush completes and UNCLEAN clears. -/
  | tierFlushDone
  /-- FLIT_IDLE (R436): An IDLE flit returns credits. -/
  | flitIdle (l : LinkId) (h : FlitHdr)
  /-- FLIT_MSG (R437): A MSG flit is accepted in sequence and its messages delivered, or discarded with a NAK. -/
  | flitMsg (l : LinkId) (h : FlitHdr) (m : FlitMsgs)
  /-- FLIT_NAK (R437): A NAK makes the sender replay from the flit after ACK. -/
  | flitNak (l : LinkId) (h : FlitHdr)
  /-- FLIT_DISC (R444): A DISC flit gives the peer's identity, die, revision, features and version. -/
  | flitDisc (l : LinkId) (h : FlitHdr) (p : BitVec 152)
  /-- FLIT_TOPO (R450): A newer TOPO record updates the topology table and is forwarded. -/
  | flitTopo (l : LinkId) (h : FlitHdr) (r : TopoRec)
  /-- FLIT_FAIL (R442): A FAIL flit from an A-die declares that die dead. -/
  | flitFail (l : LinkId) (h : FlitHdr)
  /-- IDLE_SEND (R436): A link end with nothing to send sends an IDLE flit once per µs. -/
  | idleSend (l : LinkId)
  /-- LANE_LOCK_LOSS (R438): A lane losing lock puts its link into TRAINING. -/
  | laneLockLoss (l : LinkId) (lane : Fin 34)
  /-- LINK_SILENCE (R438): No good flit for 100 µs puts the link into TRAINING. -/
  | linkSilence (l : LinkId)
  /-- TRAINING_DONE (R439): A training attempt ends, sparing lanes or narrowing width, and sending resumes. `failed` are the lanes that fail the test. -/
  | trainingDone (l : LinkId) (failed : BitVec 34)
  /-- TRAIN_TIMEOUT (R440): A link not up 300 µs after entering TRAINING goes DOWN. -/
  | trainTimeout (l : LinkId)
  /-- HERD_RETRY (R440): A DOWN herd port retries training every second. -/
  | herdRetry (p : Fin 16)
  /-- CABLE_PRESENT (R589): CBL_PRES_N changes, enabling or stopping training of a herd port. -/
  | cablePresent (p : Fin 16) (present : Bool)
  /-- LINK_RETRAIN (R438): LINK_CTL.RETRAIN starts training of the link. -/
  | linkRetrain (l : LinkId)
  /-- HOLD_DOWN (R440): LINK_CTL.HOLD_DOWN holds the link DOWN or releases it. -/
  | holdDown (l : LinkId) (hold : Bool)
  /-- TOPO_TIMER (R450): Every 100 ms a module floods its TOPO record. -/
  | topoTimer
  /-- ROUTE_COMPUTE (R451): A module recomputes routes after a topology change, possibly declaring modules dead or a new Bellwether. -/
  | routeCompute
  /-- HERD_REQUEST (R454): The herd ingress issues an arriving request in number order or resends a kept result. `k` is the message's place among those received and not served, oldest first. -/
  | herdRequest (k : Nat)
  /-- HERD_RESPONSE (R453): An answer or receipt for a herd request reaches its source. `k` is the message's place among those received and not served, oldest first. -/
  | herdResponse (k : Nat)
  /-- HERD_RESEND (R455): After 1 ms unanswered, the source resends every unanswered request to the destination. -/
  | herdResend (m : BitVec 9)
  /-- ATTACH (R447): HERD_CTL.ATTACH starts attach, where the Bellwether gives the module a number. `granted` is the number that another module's Bellwether gives; none where this module numbers itself or nobody answers. -/
  | attach (granted : Option (BitVec 9))
  /-- MCAST_RECEIVE (R461): Multicast data reaching a module is forwarded on the tree and written if the module is a member. -/
  | mcastReceive (p : Fin 16) (src : BitVec 9) (dst : BitVec 46) (group : Fin 16) (d : BitVec 512)
  /-- HOST_MEM_REQUEST (R467): A host CXL.mem request is performed at the home slice. `pa` is the module address that the HDM decoders map the request to (R466). -/
  | hostMemRequest (op : HostMemOp) (pa : BitVec 56) (d : BitVec 512) (mask : BitVec 64) (poison : Bool)
  /-- HOST_SNOOP (R503): A host CXL.cache snoop is answered by the system cache. `pa` lies in the host window. -/
  | hostSnoop (op : HostSnoop) (pa : BitVec 56)
  /-- HOST_COMPLETION (R468): A completion for a device-initiated host-window access returns. `k` is the request's number; `err` is the response of R27. -/
  | hostCompletion (k : Nat) (d : BitVec 512) (poison : Bool) (err : Bool)
  /-- PEER_READ (R471): A BAR4 read is served from the prefetch buffer or fetched with the following lines. `off` is the offset in BAR4. -/
  | peerRead (off : Nat)
  /-- PEER_WRITE (R471): A BAR4 write is performed at its point of coherence. `off` is the offset in BAR4 of the line written. -/
  | peerWrite (off : Nat) (d : BitVec 512) (mask : BitVec 64)
  /-- WINDOW_FENCE (R472): A read of WINDOW_FENCE invalidates the peer prefetch buffer. `a` is the reading agent. -/
  | windowFence (a : BitVec 13)
  /-- UIO_REQUEST (R473): An inbound UIO request to an HDM range is performed as an uncached host request. -/
  | uioRequest (write : Bool) (pa : BitVec 56) (d : BitVec 512) (mask : BitVec 64)
  /-- RING_DOORBELL (R478): A write of RING_DB announces slots up to the given SEQ. -/
  | ringDoorbell (r : Fin 64) (w : BitVec 32)
  /-- RING_SLOT_READ (R476): A ring slot read returns and executes if its tag is valid or starts polling. -/
  | ringSlotRead (r : Fin 64)
  /-- RING_POLL (R479): An early-doorbell slot is read again every 1 µs until valid or timed out. -/
  | ringPoll (r : Fin 64)
  /-- RING_NOP (R480): Ring command NOP completes at once. -/
  | ringNop (r : Fin 64)
  /-- RING_ITEM (R480): Ring command ITEM reads a work item and pushes it to a Collie. -/
  | ringItem (r : Fin 64)
  /-- RING_MULE (R480): Ring command MULE reads a descriptor and pushes it to a Mule. -/
  | ringMule (r : Fin 64)
  /-- RING_WRITE (R480): Ring command WRITE writes inline bytes within one line. -/
  | ringWrite (r : Fin 64)
  /-- RING_SADD (R481): Ring command SADD adds to a sync object as a release from the C-die. -/
  | ringSadd (r : Fin 64)
  /-- RING_SWAIT (R481): Ring command SWAIT waits for a sync count and acquires. -/
  | ringSwait (r : Fin 64)
  /-- RING_PUSH_RETRY (R480): A refused ring push is repeated every 1 µs. -/
  | ringPushRetry (r : Fin 64)
  /-- CQ_RECORD_WRITE (R484): A completion record is written as a TAIL write once the CQ has room. -/
  | cqRecordWrite (r : Fin 64)
  /-- CQ_HEAD_WRITE (R484): A write of CQ_HEAD frees CQ space for waiting records. -/
  | cqHeadWrite (r : Fin 64) (w : BitVec 32)
  /-- RING_ENABLE (R497): Setting EN enables a ring and resets HEAD and CQ position. -/
  | ringEnable (r : Fin 64)
  /-- RING_DISABLE (R497): Clearing EN lets started commands finish and stops the ring. -/
  | ringDisable (r : Fin 64)
  /-- RING_RESUME (R482): RESUME ends a ring halt and continues after the failed command. -/
  | ringResume (r : Fin 64)
  /-- BME_CLEAR (R488): Bus-master enable cleared stops device requests and halts the rings. -/
  | bmeClear
  /-- BME_SET (R488): Bus-master enable set writes held records to their queues. -/
  | bmeSet
  /-- HOST_PULSE (R489): A write of HOST_PULSE opens a new liveness window. -/
  | hostPulse (t : Nat) (w : BitVec 32)
  /-- PULSE_TIMEOUT (R489): No host pulse for PULSE_MS detaches the module. -/
  | pulseTimeout (t : Nat)
  /-- LINK_LAYER_DOWN (R489): The CXL data link layer going down detaches the module. -/
  | linkLayerDown
  /-- PERST (R489): PERST_N asserted detaches the module. -/
  | perst
  /-- DETACH (R491): HOST_CTL.DETACH writes back host lines and waits for outstanding requests. -/
  | detach
  /-- DETACH_DONE (R491): An orderly detach finishes its drain and the module becomes DETACHED. -/
  | detachDone
  /-- REPLAY_DONE (R495): Replay finishes and the module becomes ATTACHED with a new token. -/
  | replayDone
  /-- FRESH (R496): FRESH attaches without replay, discarding held records and failing held requests. -/
  | fresh
  /-- ACORE_LOAD (R500): An application-core load is performed by the type of its address. `size` is log2 of the bytes read. -/
  | acoreLoad (c : CoreIx) (pa : BitVec 56) (size : Fin 4) (ty : Pbmt)
  /-- ACORE_STORE (R505): An application-core store is performed by the type of its address. -/
  | acoreStore (c : CoreIx) (pa : BitVec 56) (size : Fin 4) (ty : Pbmt) (v : BitVec 64)
  /-- ACORE_IO_ACCESS (R501): An application-core IO access reaches a register block in program order. -/
  | acoreIoAccess (c : CoreIx) (pa : BitVec 56) (size : Fin 4) (ty : Pbmt) (write : Bool) (v : BitVec 64)
  /-- ACORE_AMO (R502): An application-core AMO is sent to the home, herd or system cache by address type. -/
  | acoreAmo (c : CoreIx) (pa : BitVec 56) (dword : Bool) (ty : Pbmt) (op : CoreAmo) (v : BitVec 64)
  /-- ACORE_LR (R502): An application-core LR reserves a cached line in L2. -/
  | acoreLr (c : CoreIx) (pa : BitVec 56) (dword : Bool) (ty : Pbmt)
  /-- ACORE_SC (R502): An application-core SC is performed in L2 on a cached line. -/
  | acoreSc (c : CoreIx) (pa : BitVec 56) (dword : Bool) (ty : Pbmt) (v : BitVec 64)
  /-- ACORE_FENCE (R506): An application-core FENCE orders paths as Table 16-3 gives. The sets hold i, o, r and w at bits 3, 2, 1 and 0. -/
  | acoreFence (c : CoreIx) (pred succ : BitVec 4)
  /-- CBO_CLEAN (R504): CBO.CLEAN writes back a line to its point of coherence. -/
  | cboClean (c : CoreIx) (pa : BitVec 56) (ty : Pbmt)
  /-- CBO_FLUSH (R504): CBO.FLUSH writes back and invalidates a line. -/
  | cboFlush (c : CoreIx) (pa : BitVec 56) (ty : Pbmt)
  /-- CBO_INVAL (R504): CBO.INVAL is performed as CBO.FLUSH. -/
  | cboInval (c : CoreIx) (pa : BitVec 56) (ty : Pbmt)
  /-- CBO_ZERO (R504): CBO.ZERO writes a whole line of zeros. -/
  | cboZero (c : CoreIx) (pa : BitVec 56) (ty : Pbmt)
  /-- STORE_ERR (R508): A retired NC or herd store receiving an address error raises local interrupt 16. -/
  | storeErr (c : CoreIx)
  /-- LOST_STORE (R508): A store to a destination declared dead raises local interrupt 17 on the core. -/
  | lostStore (c : CoreIx)
  /-- TARGET_CLK (R513): A write of TARGET_CLK lowers the core clock at once or requests a raise. -/
  | targetClk (v : BitVec 4)
  /-- CLUSTER (R515): A write of a CLUSTER field flushes and switches a cluster down, or requests ON. -/
  | cluster (c : Fin 6) (v : BitVec 2)
  /-- ACORE_CLK_DONE (R513): An application-core clock change completes. -/
  | acoreClkDone
  /-- POWER_ON_RESET (R516): VBUS rising from below 28 V resets the module. -/
  | powerOnReset (t : Nat)
  /-- EXTERNAL_RESET (R592): A valid MOD_RESET_N assertion puts the module in reset and ends a lean save unsealed. `low` is how many mclk cycles the pin stays low at least. -/
  | externalReset (t : Nat) (low : Nat)
  /-- MOD_RESET_RELEASE (R592): MOD_RESET_N deasserted begins the start, warm if R520 allows. -/
  | modResetRelease (t : Nat)
  /-- SW_RESET (R516): WARM_CTL.SW_RESET resets the module. -/
  | swReset (t : Nat)
  /-- KILL_TOKEN (R521): KILL_TOKEN clears the warm token. -/
  | killToken
  /-- STAGE_0 (R522): Stage 0 ends when the bank is charged and VIN is above clear. -/
  | stage0 (t : Nat) (vin vbus : BitVec 10)
  /-- STAGE_1 (R523): Stage 1 runs the boot ROM, votes the C-die fuses and loads the variant. `f` says how the C-die's fuse votes end. -/
  | stage1 (t : Nat) (f : FuseVotes)
  /-- STAGE_2 (R559): Stage 2 chooses and verifies a boot-area slot. -/
  | stage2 (t : Nat)
  /-- STAGE_3 (R522): Stage 3 brings up regulators and switches domains ON in slots. `bad` are the A-dies whose regulators or domains fail. -/
  | stage3 (t : Nat) (bad : BitVec 4)
  /-- STAGE_4 (R531): Stage 4 trains Kerly links, exchanges DISC and checks steppings. What training and DISC find on A0 to A3. -/
  | stage4 (t : Nat) (f0 f1 f2 f3 : DieFind)
  /-- STAGE_5 (R526): Stage 5 reconciles fuses with test, repairs units and sets FLOCK_MAP. What the fuse votes and start-up test find on A0 to A3. -/
  | stage5 (t : Nat) (f0 f1 f2 f3 : DieTest)
  /-- STAGE_6 (R530): Stage 6 trains, tests, repairs and zero-fills HBM. What bring-up finds on the stacks, in the order of controllers. -/
  | stage6 (t : Nat) (f : List StackFind)
  /-- STAGE_7 (R534): Stage 7 broadcasts firmware images to every Hen. -/
  | stage7 (t : Nat)
  /-- STAGE_8 (R538): Stage 8 mounts the deep tier and checks the newest seal. -/
  | stage8 (t : Nat)
  /-- STAGE_9 (R522): Stage 9 releases Oxen and Collies, starts cores and attaches host and herd. -/
  | stage9 (t : Nat)
  /-- FW_ROUND_END (R535): A firmware distribution round ends and missing chunks are resent by multicast or unicast. The recipients that miss chunks and the chunks each misses. -/
  | fwRoundEnd (missing : List FwMiss)
  /-- FW_SEND (R537): FW_UPD.SEND on the Bellwether sends the staged image set over herd multicast. -/
  | fwSend (a : BitVec 13)
  /-- RESTORE (R539): RESTORE copies the newest seal's regions back to their addresses. -/
  | restore
  /-- RESTORE_DONE (R539): Every restore write has landed and RESTORE reads 0. -/
  | restoreDone
  /-- QUIESCE_DIE (R540): Service step quiescing every Collie and die Mule of a die. The DIE and OPT fields of SVC_CMD. -/
  | quiesceDie (die : Fin 8) (opt : BitVec 2)
  /-- FLUSH_DIE (R540): Service step writing back every dirty Hen and slice line of a die. The DIE and OPT fields of SVC_CMD. -/
  | flushDie (die : Fin 8) (opt : BitVec 2)
  /-- RESET_DIE (R541): Service step putting an A-die into orderly or abrupt compute reset. The DIE and OPT fields of SVC_CMD. -/
  | resetDie (die : Fin 8) (opt : BitVec 2)
  /-- TEST_DIE (R540): Service step running stage 5 for a die. The DIE and OPT fields of SVC_CMD. -/
  | testDie (die : Fin 8) (opt : BitVec 2)
  /-- HBM_UP (R542): Service step bringing a die's stacks back up. The DIE and OPT fields of SVC_CMD. -/
  | hbmUp (die : Fin 8) (opt : BitVec 2)
  /-- LOAD_FW (R540): Service step loading firmware into a die's or flock's Hens. The DIE, FLOCK and OPT fields of SVC_CMD. -/
  | loadFw (die : Fin 8) (flock : Fin 32) (opt : BitVec 2)
  /-- REJOIN (R540): Service step sending home-reset snoops and removing the die from the dead sets. The DIE and OPT fields of SVC_CMD. -/
  | rejoin (die : Fin 8) (opt : BitVec 2)
  /-- RELEASE (R540): Service step setting REQ = 0 on the die's or flock's Collies. The DIE, FLOCK and OPT fields of SVC_CMD. -/
  | release (die : Fin 8) (flock : Fin 32) (opt : BitVec 2)
  /-- ADD_DIE (R540): Service step retraining an excluded or dead die's links and adding it. The DIE and OPT fields of SVC_CMD. -/
  | addDie (die : Fin 8) (opt : BitVec 2)
  /-- FLOCK_OFF (R540): Service step switching a quiesced flock OFF. The DIE, FLOCK and OPT fields of SVC_CMD. -/
  | flockOff (die : Fin 8) (flock : Fin 32) (opt : BitVec 2)
  /-- FLOCK_ON (R540): Service step switching a spare flock ON and testing it. The DIE, FLOCK and OPT fields of SVC_CMD. -/
  | flockOn (die : Fin 8) (flock : Fin 32) (opt : BitVec 2)
  /-- SVC_STEP_DONE (R540): A service step ends, passing or failing with a stage report. `f` is what the step finds. -/
  | svcStepDone (t : Nat) (f : SvcFind)
  /-- VOTE_SWEEP (R548): Every 10 ms each block votes its TV fields, correcting or failing them. Fields whose minority copy is corrected, by register, and fields whose vote fails. -/
  | voteSweep (corrected : List DevOff) (failed : List VoteField)
  /-- DIE_FATAL_FAULT (R549): A fault fatal to an A-die sends FAIL on every link. -/
  | dieFatalFault (die : Fin 4)
  /-- DIE_TEMP_LIMIT (R551): Above 105 °C a die's TARGET_OP is lowered one point every 1 ms. `temp` in °C. -/
  | dieTempLimit (die : Fin 4) (temp : Nat)
  /-- MCLK_LOSS (R552): The Goose detects mclk loss and holds a safety reset. -/
  | mclkLoss (t : Nat)
  /-- KERLY_REF_LOSS (R552): The Goose detects loss of the Kerly reference and holds a safety reset. -/
  | kerlyRefLoss (t : Nat)
  /-- METER_HEARTBEAT_MISS (R552): The governor meter heartbeat missing for 50 µs causes a safety reset. -/
  | meterHeartbeatMiss (t : Nat)
  /-- REGULATOR_FAULT (R552): A regulator fault reported to the C-die fails the A-die or resets the module. `die` 0 is the C-die, 1 to 4 are A0 to A3. -/
  | regulatorFault (t : Nat) (die : Fin 5)
  /-- CDIE_OVER_TEMP (R552): C-die junction above 115 °C causes a held safety reset. -/
  | cdieOverTemp (t : Nat)
  /-- GOOSE_RELEASE (R552): A held safety-reset condition clears and the Goose releases the reset. `cond` is the condition that clears. -/
  | gooseRelease (t : Nat) (cond : GooseHold)
  /-- HEARTBEAT_MISS (R553): A firmware heartbeat window expires, alerting on the first and resetting on the second. -/
  | heartbeatMiss (t : Nat)
  /-- GOOSE_PET (R553): A write of GOOSE_PET with the expected value opens a new heartbeat window. -/
  | goosePet (t : Nat) (w : BitVec 32)
  /-- GLITCH (R566): A glitch clears derived keys, advances the glitch fuse, may zeroise, and resets the module. -/
  | glitch (t : Nat)
  /-- ENTROPY_FAIL (R563): A failed entropy health test stops key generation. -/
  | entropyFail
  /-- RECOVERY_WRITE (R559): A TFTP recovery image set is checked, written to the failed slot and the module resets. The three images of the recovery set. -/
  | recoveryWrite (t : Nat) (s1 ah mh : Image)
  /-- ROLLBACK_COMMIT (R560): ROLLBACK_COMMIT advances anti-rollback counters to the running versions. -/
  | rollbackCommit
  /-- DEBUG_LOCK (R567): DEBUG_LOCK withdraws every debug scope from the next start. -/
  | debugLock
  /-- QUOTE_DONE (R565): A quote becomes ready and QUOTE_READY is set. -/
  | quoteDone
  /-- DROP_PACKET (R558): DROP_PACKET advances the read pointer to the next record start. -/
  | dropPacket (die : Fin 5)
  /-- MBX_READ (R580): MBX_CTL.GO with DIR = 0 starts a mailbox read of the value at MBX_ADDR. A write of `w` to MBX_CTL of block `b` (die number × 256 + BLK_ID[7:0]) by agent `a`. -/
  | mbxRead (a : BitVec 13) (b : Fin 1280) (w : BitVec 32)
  /-- MBX_WRITE (R580): MBX_CTL.GO with DIR = 1 starts a mailbox write of the value at MBX_ADDR. A write of `w` to MBX_CTL of block `b` (die number × 256 + BLK_ID[7:0]) by agent `a`. -/
  | mbxWrite (a : BitVec 13) (b : Fin 1280) (w : BitVec 32)
  /-- MBX_DONE (R580): A mailbox transfer ends with VALID or ERR. -/
  | mbxDone (b : Fin 1280)
  /-- CLAIM (R579): MBX_OWNER.CLAIM takes the mailbox if free. -/
  | claim (a : BitVec 13) (b : Fin 1280)
  /-- MBX_RELEASE (R579): MBX_OWNER.RELEASE frees the mailbox for permitted agents. -/
  | mbxRelease (a : BitVec 13) (b : Fin 1280)
  /-- SHADOW_LOW_READ (R584): A read of a shadow low word samples a 64-bit counter and latches its high word. -/
  | shadowLowRead (a : BitVec 13) (off : DevOff)
  /-- SHADOW_HIGH_READ (R584): A read of a shadow high word returns the latched word or the live one with SHADOW_MISS. -/
  | shadowHighRead (a : BitVec 13) (off : DevOff)
  /-- SW_ALERT (R585): ALERT_CTL.SW_ALERT asserts or releases ALERT_N. -/
  | swAlert (v : Bool)
  /-- COUNTER_CLEAR (R569): A write of ones to a W1C counter or status bit clears it. -/
  | counterClear (a : BitVec 13) (off : DevOff) (w : BitVec 32)
  /-- REG_WRITE (R574): A write to a register with no row of its own sets fields, refusing and counting bad values. -/
  | regWrite (a : BitVec 13) (off : DevOff) (w : BitVec 32)
  /-- VIN_BELOW_CLEAR (R74): VIN falls below the clear level while staying above warning, which restarts the wait for leaving lean state. -/
  | vinBelowClear (t : Nat) (vin : BitVec 10)
  /-- FLOCK_SCRUB_READ (R247): Patrol scrub reads the next populated line of an ON flock's memory in an unclaimed open slot, correcting or poisoning it. -/
  | flockScrubRead (f : FlockId)
  /-- MCAST_SEND_DONE (R460): The data of a multicast send has left on every tree port and MCAST_BUSY clears. -/
  | mcastSendDone
  /-- CXL_LINK_UP (R495): The CXL link trains and reaches L0 after PERST_N is released or the link recovers, setting LINK_UP. -/
  | cxlLinkUp (width : Fin 3) (rate : Bool)
  /-- ALWAYS_ON_POWER_LOSS (R517): VBUS falls below 28 V, the always-on domains lose power, and the beat state, site state, retained record and logs are lost. -/
  | alwaysOnPowerLoss (t : Nat)
  /-- LINK_LOCAL_TIMEOUT (R559): After 10 s without a DHCP answer, the boot ROM's management port takes an RFC 3927 link-local address for recovery. -/
  | linkLocalTimeout
deriving DecidableEq, Repr

end Sys2Proof
end

