-- ==== Sys2Proof/Machine/Bits.lean ====
section
/-!
DEFINITION. Bit-field, byte-order and check-code helpers: fields of words, little-endian bytes, CRC-8 (R35), CRC-32, CRC-64 and
the dither register's step (R598).
-/
namespace Sys2Proof
namespace Bits

/-- Field of a 32-bit register word: `w` bits from bit `lo`, as a number. -/
def field (v : BitVec 32) (lo w : Nat) : Nat := (v.toNat >>> lo) % 2 ^ w

/-- Field of a number: `w` bits from bit `lo`. -/
def nfield (v lo w : Nat) : Nat := (v >>> lo) % 2 ^ w

/-- Bit `i` of a number. -/
def nbit (v i : Nat) : Bool := (v >>> i) % 2 == 1

/-- A Bool as 0 or 1. -/
def ofBool (b : Bool) : Nat := if b then 1 else 0

/-- Replaces `w` bits from bit `lo` of a register word by `x`. -/
def setField (v : BitVec 32) (lo w : Nat) (x : Nat) : BitVec 32 :=
  let mask : BitVec 32 := BitVec.ofNat 32 ((2 ^ w - 1) <<< lo)
  (v &&& ~~~mask) ||| (BitVec.ofNat 32 ((x % 2 ^ w) <<< lo))

/-- A number's `n` little-endian bytes. -/
def bytesOf (v : Nat) : Nat → List Byte
  | 0 => []
  | n + 1 => BitVec.ofNat 8 v :: bytesOf (v / 256) n

/-- The little-endian value of a byte list. -/
def ofBytes : List Byte → Nat
  | [] => 0
  | b :: t => b.toNat + 256 * ofBytes t

/-- Sign extension of the low `w` bits of `v` to an integer. -/
def sext (v w : Nat) : Int :=
  if w = 0 then 0 else if v % 2 ^ w < 2 ^ (w - 1) then (v % 2 ^ w : Nat) else ((v % 2 ^ w : Nat) : Int) - (2 ^ w : Nat)

/-- One bit of a CRC that takes its input most significant bit first. -/
def crcBit (width poly : Nat) (crc : Nat) (bit : Bool) : Nat :=
  let top := nbit crc (width - 1)
  let sh := (crc * 2) % 2 ^ width
  if top != bit then sh ^^^ poly else sh

/-- One byte of such a CRC, bits 7 down to 0. -/
def crcByte (width poly crc : Nat) (b : Byte) : Nat :=
  [7, 6, 5, 4, 3, 2, 1, 0].foldl (fun c i => crcBit width poly c (nbit b.toNat i)) crc

/-- CRC-8 of R35: polynomial 0x07, initial value 0, no reflection, no final XOR. -/
def crc8 (bs : List Byte) : Nat := bs.foldl (crcByte 8 0x07) 0

/-- One bit of a reflected CRC. -/
def crcStepR (poly : Nat) (crc : Nat) : Nat := if nbit crc 0 then (crc / 2) ^^^ poly else crc / 2

/-- One byte of a reflected CRC. -/
def crcByteR (poly crc : Nat) (b : Byte) : Nat :=
  let c := crc ^^^ b.toNat
  crcStepR poly (crcStepR poly (crcStepR poly (crcStepR poly (crcStepR poly (crcStepR poly (crcStepR poly (crcStepR poly c)))))))

/-- One step of the dither register (R598). -/
def lfsrStep (s : BitVec 64) : BitVec 64 :=
  if s.getLsbD 0 then (s >>> 1) ^^^ 0xD800000000000000#64 else s >>> 1

/-- `n` steps of the dither register. -/
def lfsrSteps (s : BitVec 64) : Nat → BitVec 64
  | 0 => s
  | n + 1 => lfsrSteps (lfsrStep s) n

/-- Counts the ones of a number's low `w` bits. -/
def popCount (v : Nat) : Nat → Nat
  | 0 => 0
  | w + 1 => (v % 2) + popCount (v / 2) w

end Bits
end Sys2Proof
end

