-- ==== Sys2Proof/Machine/Operands.lean ====
section
/-!
DEFINITION. Number formats (chapter 03): the element formats of Tables 3-1 and 3-2, their values as exact dyadic numbers, the
rounding and overflow rules of R98 to R103 with Table 3-5, the exact block sum of R85 to R91 and R93, the accumulator updates
of R86, R87 and R95, and the packing of R82.
-/
namespace Sys2Proof

/-- The element formats of Table 3-1 (`mxint8` is INT8 under MX = 1). -/
inductive Fmt where
  | e4m3 | e5m2 | e3m2 | e2m3 | e2m1 | int8 | int4 | bf16 | f16 | f32 | mxint8
deriving DecidableEq, Repr

/-- A number of any format: `fin neg m e` is (−1)^neg × m × 2^e. -/
inductive Num where
  | nan
  | inf (neg : Bool)
  | fin (neg : Bool) (m : Nat) (e : Int)
deriving DecidableEq, Repr

/-- An exact signed dyadic number m × 2^e. -/
structure Dy where
  m : Int
  e : Int
deriving DecidableEq, Repr

/-- m × 2^(e − f) for f ≤ e. -/
def Dy.mantAt (x : Dy) (f : Int) : Int := x.m * ((2 ^ (x.e - f).toNat : Nat) : Int)

/-- Exact sum. -/
def Dy.add (x y : Dy) : Dy :=
  let f := if x.e ≤ y.e then x.e else y.e
  ⟨x.mantAt f + y.mantAt f, f⟩

/-- Exact product. -/
def Dy.mul (x y : Dy) : Dy := ⟨x.m * y.m, x.e + y.e⟩

/-- Negation. -/
def Dy.neg (x : Dy) : Dy := ⟨-x.m, x.e⟩

/-- Exact sum of a list; the empty sum is zero. -/
def Dy.sum (l : List Dy) : Dy := l.foldl Dy.add ⟨0, 0⟩

/-- x < y. -/
def Dy.lt (x y : Dy) : Bool :=
  let f := if x.e ≤ y.e then x.e else y.e
  decide (x.mantAt f < y.mantAt f)

/-- The magnitude. -/
def Dy.abs (x : Dy) : Dy := ⟨x.m.natAbs, x.e⟩

/-- floor(log2 |x|) of a nonzero number. -/
def Dy.log2 (x : Dy) : Int := (Nat.log2 x.m.natAbs : Int) + x.e

/-- The dyadic of a finite number; zero for a special value. -/
def Num.toDy : Num → Dy
  | .fin neg m e => ⟨if neg then -(m : Int) else m, e⟩
  | _ => ⟨0, 0⟩

def Num.isNan : Num → Bool
  | .nan => true
  | _ => false

def Num.isInf : Num → Bool
  | .inf _ => true
  | _ => false

def Num.isZero : Num → Bool
  | .fin _ m _ => m == 0
  | _ => false

def Num.sign : Num → Bool
  | .nan => false
  | .inf n => n
  | .fin n _ _ => n

namespace Fmt

/-- Element bits (Table 3-1). -/
def bits : Fmt → Nat
  | .e4m3 | .e5m2 | .int8 | .mxint8 => 8
  | .e3m2 | .e2m3 => 6
  | .e2m1 | .int4 => 4
  | .bf16 | .f16 => 16
  | .f32 => 32

/-- The format of a code of Table 3-1 with MX bit `mx`; none where R78 calls the pair illegal. -/
def ofSpec (code : Nat) (mx : Bool) : Option Fmt :=
  match code, mx with
  | 0, _ => some .e4m3
  | 1, _ => some .e5m2
  | 2, _ => some .e3m2
  | 3, _ => some .e2m3
  | 4, _ => some .e2m1
  | 5, false => some .int8
  | 5, true => some .mxint8
  | 6, false => some .int4
  | 7, false => some .bf16
  | 8, false => some .f16
  | 9, false => some .f32
  | _, _ => none

/-- Is an integer format. -/
def isInt : Fmt → Bool
  | .int8 | .int4 | .mxint8 => true
  | _ => false

/-- Mantissa bits of a floating-point format. -/
def man : Fmt → Nat
  | .e4m3 => 3 | .e5m2 => 2 | .e3m2 => 2 | .e2m3 => 3 | .e2m1 => 1 | .bf16 => 7 | .f16 => 10 | .f32 => 23
  | _ => 0

/-- Exponent bias. -/
def bias : Fmt → Nat
  | .e4m3 => 7 | .e5m2 => 15 | .e3m2 => 3 | .e2m3 => 1 | .e2m1 => 1 | .bf16 => 127 | .f16 => 15 | .f32 => 127
  | _ => 0

/-- Exponent bits. -/
def exp : Fmt → Nat
  | .e4m3 => 4 | .e5m2 => 5 | .e3m2 => 3 | .e2m3 => 2 | .e2m1 => 2 | .bf16 => 8 | .f16 => 5 | .f32 => 8
  | _ => 0

/-- Code of the largest finite magnitude (Table 3-2). -/
def maxCode : Fmt → Nat
  | .e4m3 => 0x7E | .e5m2 => 0x7B | .e3m2 => 0x1F | .e2m3 => 0x1F | .e2m1 => 0x7
  | .bf16 => 0x7F7F | .f16 => 0x7BFF | .f32 => 0x7F7FFFFF
  | .int8 => 127 | .mxint8 => 127 | .int4 => 7

/-- The emax column of Table 3-2, for MX scales. -/
def emax : Fmt → Int
  | .e4m3 => 8 | .e5m2 => 15 | .e3m2 => 4 | .e2m3 => 2 | .e2m1 => 2
  | _ => 0

/-- Has infinities. -/
def hasInf : Fmt → Bool
  | .e5m2 | .bf16 | .f16 | .f32 => true
  | _ => false

/-- The canonical NaN (R81); none where the format has no NaN. -/
def nanCode : Fmt → Option Nat
  | .e4m3 => some 0x7F
  | .e5m2 => some 0x7E
  | .bf16 => some 0x7FC0
  | .f16 => some 0x7E00
  | .f32 => some 0x7FC00000
  | _ => none

/-- The sign bit's weight. -/
def signBit (f : Fmt) : Nat := 2 ^ (f.bits - 1)

/-- The value of an element code (Table 3-2, R80). -/
def decode (f : Fmt) (code : Nat) : Num :=
  let c := code % 2 ^ f.bits
  match f with
  | .int8 => let v := Bits.sext c 8; .fin (decide (v < 0)) v.natAbs 0
  | .int4 => let v := Bits.sext c 4; .fin (decide (v < 0)) v.natAbs 0
  | .mxint8 => let v := Bits.sext c 8; .fin (decide (v < 0)) v.natAbs (-6)
  | _ =>
    let neg := decide (f.signBit ≤ c)
    let mag := c % f.signBit
    let e := mag / 2 ^ f.man
    let m := mag % 2 ^ f.man
    if f.hasInf && (e == 2 ^ f.exp - 1) then (if m = 0 then .inf neg else .nan)
    else if f == .e4m3 && mag == 0x7F then .nan
    else if e = 0 then .fin neg m (1 - (f.bias : Int) - f.man)
    else .fin neg (2 ^ f.man + m) ((e : Int) - f.bias - f.man)

end Fmt

/-- Rounding of a conversion: to nearest, ties to even, or stochastic with dither value `r` (R99, R100). -/
inductive Rnd where
  | rne
  | sr (r : Nat)
deriving DecidableEq, Repr

/-- |v| = m × 2^e rounded to a multiple of 2^qe, in units of 2^qe (R100 for SR). -/
def roundUnits (r : Rnd) (m : Nat) (e qe : Int) : Nat :=
  if qe ≤ e then m * 2 ^ (e - qe).toNat
  else
    let d := (qe - e).toNat
    let t := m >>> d
    let rem := m % 2 ^ d
    match r with
    | .rne =>
      let half := 2 ^ (d - 1)
      if rem < half then t else if half < rem then t + 1 else if t % 2 = 0 then t else t + 1
    | .sr dv => if dv < (rem <<< 16) >>> d then t + 1 else t

/-- The spacing exponent of floating-point format `f` at magnitude m × 2^e, m ≠ 0. -/
def quantum (f : Fmt) (m : Nat) (e : Int) : Int :=
  let l := (Nat.log2 m : Int) + e
  let emin := 1 - (f.bias : Int)
  (if l ≤ emin then emin else l) - f.man

/-- The result of a conversion: the code, whether it overflowed or took an infinity, whether it met a NaN. -/
structure Conv where
  code : Nat
  ovf : Bool
  nan : Bool
deriving DecidableEq, Repr

/-- What an overflow or infinity becomes (Table 3-5). -/
def overflowCode (f : Fmt) (sat neg : Bool) : Nat :=
  match f with
  | .int8 => if neg then 0x80 else 0x7F
  | .mxint8 => if neg then 0x81 else 0x7F
  | .int4 => if neg then 0x8 else 0x7
  | _ =>
    let s := if neg then f.signBit else 0
    if sat then s + f.maxCode
    else if f.hasInf then s + (2 ^ f.exp - 1) * 2 ^ f.man
    else match f.nanCode with
      | some c => c
      | none => s + f.maxCode

/-- Conversion of a number to a format (R98 to R102, Table 3-5). -/
def convert (f : Fmt) (sat : Bool) (r : Rnd) : Num → Conv
  | .nan => ⟨f.nanCode.getD 0, false, true⟩
  | .inf neg => ⟨overflowCode f sat neg, true, false⟩
  | .fin neg m e =>
    if f.isInt then
      let q : Int := if f == .mxint8 then -6 else 0
      let n := roundUnits r m e q
      let lim := if neg && f != .mxint8 then f.maxCode + 1 else f.maxCode
      if lim < n then ⟨overflowCode f sat neg, true, false⟩
      else ⟨if neg then (2 ^ f.bits - n) % 2 ^ f.bits else n, false, false⟩
    else
      let s := if neg then f.signBit else 0
      if m = 0 then ⟨s, false, false⟩
      else
        let qe := quantum f m e
        let n := roundUnits r m e qe
        let c := (qe - (1 - (f.bias : Int) - f.man)).toNat * 2 ^ f.man + n
        if f.maxCode < c then ⟨overflowCode f sat neg, true, false⟩ else ⟨s + c, false, false⟩

/-- FP32 of an exact number, rounded once to nearest even; an exact zero gives +0 (R86, R91). -/
def roundF32 (x : Dy) : BitVec 32 :=
  BitVec.ofNat 32 (convert .f32 false .rne (.fin (decide (x.m < 0)) x.m.natAbs x.e)).code

/-- The number an FP32 word holds. -/
def f32 (w : BitVec 32) : Num := Fmt.decode .f32 w.toNat

/-- The canonical FP32 NaN. -/
def f32NaN : BitVec 32 := 0x7FC00000#32

/-- FP32 infinity of a sign. -/
def f32Inf (neg : Bool) : BitVec 32 := if neg then 0xFF800000#32 else 0x7F800000#32

/-! ### IEEE arithmetic on numbers, each result exact before rounding -/

/-- Product; NaN for infinity times zero. -/
def Num.mul : Num → Num → Num
  | .nan, _ => .nan
  | _, .nan => .nan
  | .inf a, y => if y.isZero then .nan else .inf (a != y.sign)
  | x, .inf b => if x.isZero then .nan else .inf (x.sign != b)
  | .fin a m e, .fin b n f => .fin (a != b) (m * n) (e + f)

/-- Sum; NaN for infinities of both signs; an exact zero sum of unlike signs is +0. -/
def Num.add : Num → Num → Num
  | .nan, _ => .nan
  | _, .nan => .nan
  | .inf a, .inf b => if a = b then .inf a else .nan
  | .inf a, _ => .inf a
  | _, .inf b => .inf b
  | .fin a m e, .fin b n f =>
    if m = 0 && n = 0 then .fin (a && b) 0 0
    else
      let s := Dy.add (Num.toDy (.fin a m e)) (Num.toDy (.fin b n f))
      .fin (decide (s.m < 0)) s.m.natAbs s.e

def Num.neg : Num → Num
  | .nan => .nan
  | .inf a => .inf (!a)
  | .fin a m e => .fin (!a) m e

def Num.abs : Num → Num
  | .nan => .nan
  | .inf _ => .inf false
  | .fin _ m e => .fin false m e

/-- x < y, false where either is NaN; −0 equals +0. -/
def Num.lt : Num → Num → Bool
  | .nan, _ => false
  | _, .nan => false
  | .inf a, .inf b => a && !b
  | .inf a, _ => a
  | _, .inf b => !b
  | x, y => Dy.lt x.toDy y.toDy

/-- Equality of values, false where either is NaN. -/
def Num.eq (x y : Num) : Bool := !x.isNan && !y.isNan && !Num.lt x y && !Num.lt y x

/-! ### The block sum (R85 to R93) -/

/-- What a block gives to the accumulation (Table 3-3). -/
inductive BlockSum where
  | nan
  | inf (neg : Bool)
  | val (x : Dy)
deriving DecidableEq, Repr

/-- The exponent of two E8M0 scale codes: sa + sw − 254 (R86). -/
def scaleExp (sa sw : Byte) : Int := (sa.toNat : Int) + sw.toNat - 254

/-- R93: products truncated toward zero to multiples of 2^(E − 40) and summed. -/
def truncSum (ps : List Dy) : Dy :=
  let nz := ps.filter (fun p => p.m != 0)
  match nz with
  | [] => ⟨0, 0⟩
  | p :: t =>
    let top := t.foldl (fun b q => if b < q.log2 then q.log2 else b) p.log2
    let g := top - 40
    Dy.sum (nz.map (fun q => ⟨if g ≤ q.e then q.mantAt g else Int.tdiv q.m ((2 ^ (g - q.e).toNat : Nat) : Int), g⟩))

/-- The result of one block of activations against one block of weights (R86, R90, R93). -/
def blockSum (wide : Bool) (acts weights : List Num) (sa sw : Byte) : BlockSum :=
  let prods := List.zipWith Num.mul acts weights
  if sa = 0xFF || sw = 0xFF then .nan
  else if acts.any Num.isNan || weights.any Num.isNan || prods.any Num.isNan then .nan
  else
    let pos := prods.any (fun p => decide (p = .inf false))
    let neg := prods.any (fun p => decide (p = .inf true))
    if pos && neg then .nan
    else if pos then .inf false
    else if neg then .inf true
    else
      let ds := prods.map Num.toDy
      let b := if wide then truncSum ds else Dy.sum ds
      .val ⟨b.m, b.e + scaleExp sa sw⟩

/-- A block result as a number of the accumulation; a zero sum enters as +0 (R91). -/
def BlockSum.toNum : BlockSum → Num
  | .nan => .nan
  | .inf n => .inf n
  | .val x => .fin (decide (x.m < 0)) x.m.natAbs x.e

/-- The sum of numbers as R91 says, without error; used on an accumulator entry and its block results. -/
def accSum (xs : List Num) : Num :=
  if xs.any Num.isNan then .nan
  else
    let pos := xs.any (fun p => decide (p = .inf false))
    let neg := xs.any (fun p => decide (p = .inf true))
    if pos && neg then .nan
    else if pos then .inf false
    else if neg then .inf true
    else
      let s := Dy.sum (xs.map Num.toDy)
      .fin (decide (s.m < 0)) s.m.natAbs s.e

/-- FP32 of a number, RNE, overflow to infinity. -/
def toF32 (x : Num) : BitVec 32 := BitVec.ofNat 32 (convert .f32 false .rne x).code

/-- Plain update of an accumulator entry (R86, R87, R91, R94). -/
def accUpdate (acc : BitVec 32) (xs : List BlockSum) : BitVec 32 :=
  toF32 (accSum (f32 acc :: xs.map BlockSum.toNum))

/-- Compensated update of a pair (hi, lo) (R95). -/
def pairUpdate (hi lo : BitVec 32) (xs : List BlockSum) : BitVec 32 × BitVec 32 :=
  let t := accSum (f32 hi :: f32 lo :: xs.map BlockSum.toNum)
  let hi' := toF32 t
  match t, f32 hi' with
  | .fin _ _ _, .fin a m e => (hi', roundF32 (Dy.add t.toDy (Num.toDy (.fin (!a) m e))))
  | _, _ => (hi', 0)

/-! ### Packing (R82) and MX output (R103) -/

/-- Element `i` of width `w` of a packed byte list. -/
def unpackAt (w : Nat) (v : Nat) (i : Nat) : Nat := (v >>> (i * w)) % 2 ^ w

/-- The first `n` elements of width `w` packed in a byte list. -/
def unpack (w n : Nat) (bs : List Byte) : List Nat :=
  let v := Bits.ofBytes bs
  (List.range n).map (unpackAt w v)

/-- Elements of width `w` packed into bytes; the last byte is filled with zeros. -/
def packBits (w : Nat) : List Nat → Nat
  | [] => 0
  | c :: t => (c % 2 ^ w) + 2 ^ w * packBits w t

def pack (w : Nat) (cs : List Nat) : List Byte := Bits.bytesOf (packBits w cs) ((w * cs.length + 7) / 8)

/-- The scale exponent X of an MX block of finite values (R103 step 2). -/
def mxExp (f : Fmt) (vs : List Dy) : Int :=
  let m := vs.foldl (fun b v => if Dy.lt b v.abs then v.abs else b) ⟨0, 0⟩
  if m.m = 0 then 0
  else
    let x := m.log2 - f.emax
    if x < -127 then -127 else if 127 < x then 127 else x

/-- An MX block (R103): its scale byte, its element codes, and whether step 1 applied. `rs` gives one rounding per value. -/
def mxBlock (f : Fmt) (vs : List Num) (rs : List Rnd) : Byte × List Nat × Bool :=
  if vs.any (fun v => v.isNan || v.isInf) then (0xFF#8, vs.map (fun _ => 0), true)
  else
    let x := mxExp f (vs.map Num.toDy)
    let el (v : Num) (r : Rnd) : Nat :=
      match v with
      | .fin n m e => (convert f true r (.fin n m (e - x))).code
      | _ => 0
    (BitVec.ofInt 8 (x + 127), List.zipWith el vs rs, false)

end Sys2Proof
end

