-- ==== Sys2Proof/Machine/HenAlu.lean ====
section
/-!
DEFINITION. The Hen's computations as functions of operand values: the fields of an instruction word (R205), the integer
operations of Tables 7-3 and 7-5, the vector operations of Tables 7-6 to 7-8 and R224 to R230, with R169 and R221 for predicates.
-/
namespace Sys2Proof
namespace HenAlu

/-! ### Instruction fields (R205, R207) -/

def fld (w : BitVec 32) (lo n : Nat) : Nat := (w.toNat >>> lo) % 2 ^ n
def op (w : BitVec 32) : Nat := fld w 26 6
/-- bits [25:21] -/
def fA (w : BitVec 32) : Nat := fld w 21 5
/-- bits [20:16] -/
def fB (w : BitVec 32) : Nat := fld w 16 5
/-- bits [15:11] -/
def fC (w : BitVec 32) : Nat := fld w 11 5
/-- func of format R, bits [10:0] -/
def func (w : BitVec 32) : Nat := fld w 0 11
def imm16z (w : BitVec 32) : BitVec 64 := BitVec.ofNat 64 (fld w 0 16)
def imm16s (w : BitVec 32) : BitVec 64 := BitVec.ofInt 64 (Bits.sext (fld w 0 16) 16)
/-- off16 × 4 -/
def off16 (w : BitVec 32) : Int := Bits.sext (fld w 0 16) 16 * 4
/-- off26 × 4 -/
def off26 (w : BitVec 32) : Int := Bits.sext (fld w 0 26) 26 * 4
/-- off13 × 64 -/
def off13 (w : BitVec 32) : BitVec 64 := BitVec.ofInt 64 (Bits.sext (fld w 0 13) 13 * 64)

/-! ### Integer operations -/

/-- The integer operations of OP and its immediate forms. [log 72 DEDUCED] -/
inductive IntOp where
  | add | sub | and | or | xor | andn | sll | srl | sra | ror | slt | sltu | min | max | minu | maxu
  | mul | mulh | mulhu | mulhsu | div | divu | rem | remu | clz | ctz | popc
deriving DecidableEq, Repr

/-- func[5:0] of an OP operation (Table 7-3). -/
def IntOp.code : IntOp → Nat
  | .add => 0 | .sub => 1 | .and => 2 | .or => 3 | .xor => 4 | .andn => 5 | .sll => 6 | .srl => 7 | .sra => 8 | .ror => 9
  | .slt => 10 | .sltu => 11 | .min => 12 | .max => 13 | .minu => 14 | .maxu => 15 | .mul => 16 | .mulh => 17 | .mulhu => 18
  | .mulhsu => 19 | .div => 20 | .divu => 21 | .rem => 22 | .remu => 23 | .clz => 24 | .ctz => 25 | .popc => 26

/-- Operations with a 32-bit form (the W column of Table 7-3). -/
def IntOp.hasW : IntOp → Bool
  | .add | .sub | .sll | .srl | .sra | .ror | .mul | .div | .divu | .rem | .remu => true
  | _ => false

def bool64 (b : Bool) : BitVec 64 := if b then 1 else 0

/-- Leading zeros of the low `n` bits. -/
def clzN (a : Nat) (n : Nat) : Nat := if a = 0 then n else n - 1 - Nat.log2 a

/-- Trailing zeros, `n` for 0. -/
def ctzN (a : Nat) : Nat → Nat
  | 0 => 0
  | n + 1 => if a % 2 = 1 then 0 else 1 + ctzN (a / 2) n

/-- Division rounded toward zero with the results of R209. -/
def divS {n : Nat} (a b : BitVec n) : BitVec n := if b = 0 then BitVec.allOnes n else BitVec.ofInt n (Int.tdiv a.toInt b.toInt)
def remS {n : Nat} (a b : BitVec n) : BitVec n := if b = 0 then a else BitVec.ofInt n (Int.tmod a.toInt b.toInt)
def divU {n : Nat} (a b : BitVec n) : BitVec n := if b = 0 then BitVec.allOnes n else a / b
def remU {n : Nat} (a b : BitVec n) : BitVec n := if b = 0 then a else a % b

/-- Rotate right of an n-bit word. -/
def rorN {n : Nat} (a : BitVec n) (s : Nat) : BitVec n := (a >>> (s % n)) ||| (a <<< (n - s % n))

/-- The operations that have the same form at 64 and 32 bits. -/
def common {n : Nat} (o : IntOp) (a b : BitVec n) : BitVec n :=
  let s := b.toNat % n
  match o with
  | .add => a + b
  | .sub => a - b
  | .sll => a <<< s
  | .srl => a >>> s
  | .sra => a.sshiftRight s
  | .ror => rorN a s
  | .mul => a * b
  | .div => divS a b
  | .divu => divU a b
  | .rem => remS a b
  | .remu => remU a b
  | _ => a

/-- Result of an integer operation on 64-bit values (Table 7-3, R209). -/
def int64 (o : IntOp) (a b : BitVec 64) : BitVec 64 :=
  match o with
  | .and => a &&& b
  | .or => a ||| b
  | .xor => a ^^^ b
  | .andn => a &&& ~~~b
  | .slt => bool64 (BitVec.slt a b)
  | .sltu => bool64 (BitVec.ult a b)
  | .min => if BitVec.slt a b then a else b
  | .max => if BitVec.slt a b then b else a
  | .minu => if BitVec.ult a b then a else b
  | .maxu => if BitVec.ult a b then b else a
  | .mulh => BitVec.ofInt 64 ((a.toInt * b.toInt) >>> 64)
  | .mulhu => BitVec.ofNat 64 ((a.toNat * b.toNat) >>> 64)
  | .mulhsu => BitVec.ofInt 64 ((a.toInt * (b.toNat : Int)) >>> 64)
  | .clz => BitVec.ofNat 64 (clzN a.toNat 64)
  | .ctz => BitVec.ofNat 64 (ctzN a.toNat 64)
  | .popc => BitVec.ofNat 64 (Bits.popCount a.toNat 64)
  | o => common o a b

/-- Result of an operation with its W bit (R208). -/
def intOp (o : IntOp) (w32 : Bool) (a b : BitVec 64) : BitVec 64 :=
  if w32 then (common o (a.setWidth 32) (b.setWidth 32)).signExtend 64 else int64 o a b

/-- The comparisons of branches (R212). -/
inductive Cond where
  | eq | ne | lt | ge | ltu | geu
deriving DecidableEq, Repr

def Cond.holds : Cond → BitVec 64 → BitVec 64 → Bool
  | .eq, a, b => a == b
  | .ne, a, b => a != b
  | .lt, a, b => BitVec.slt a b
  | .ge, a, b => !BitVec.slt a b
  | .ltu, a, b => BitVec.ult a b
  | .geu, a, b => !BitVec.ult a b

/-! ### Atomic operations (Table 7-5) -/

inductive AmoOp where
  | swap | add | and | or | xor | min | max | minu | maxu | cas | fadd
deriving DecidableEq, Repr

/-- Memory after an atomic operation of `n` bits: memory value m, operand b, and the compare value c of CAS. -/
def amoW (n : Nat) (o : AmoOp) (m b c : BitVec n) : BitVec n :=
  match o with
  | .swap => b
  | .add => m + b
  | .and => m &&& b
  | .or => m ||| b
  | .xor => m ^^^ b
  | .min => if BitVec.slt m b then m else b
  | .max => if BitVec.slt m b then b else m
  | .minu => if BitVec.ult m b then m else b
  | .maxu => if BitVec.ult m b then b else m
  | .cas => if m = c then b else m
  | .fadd => (toF32 (Num.add (f32 (m.setWidth 32)) (f32 (b.setWidth 32)))).setWidth n

/-! ### Vector elements -/

/-- Element `i` of width `w` of a vector register. -/
def elem (v : BitVec 512) (w i : Nat) : Nat := (v.toNat >>> (w * i)) % 2 ^ w

/-- A vector register from its elements of width `w`. -/
def ofElems (w : Nat) (es : List Nat) : BitVec 512 := BitVec.ofNat 512 (packBits w es)

/-- The active elements (R169): the predicate bit of each element's lowest byte. -/
def active (p : BitVec 64) (w i : Nat) : Bool := Bits.nbit p.toNat (i * w / 8)

/-- Builds a destination: `f i` where element i is active, the old element elsewhere. -/
def mapActive (w : Nat) (p : BitVec 64) (old : BitVec 512) (f : Nat → Nat) : BitVec 512 :=
  ofElems w ((List.range (512 / w)).map (fun i => if active p w i then f i % 2 ^ w else elem old w i))

/-- FP type of a type field: 0 FP32, 1 BF16, 2 binary16. -/
def fpType : Nat → Option Fmt
  | 0 => some .f32
  | 1 => some .bf16
  | 2 => some .f16
  | _ => none

/-- Rounds a number to a type: nearest even, canonical NaN, overflow to infinity (R191). -/
def roundFp (f : Fmt) (x : Num) : Nat := (convert f false .rne x).code

inductive FpOp where
  | add | sub | mul | fma | fms | min | max | abs | neg
deriving DecidableEq, Repr

/-- The lesser of two numbers, −0 below +0, NaN if either is (Table 7-6). -/
def fpMin (x y : Num) : Num :=
  if x.isNan || y.isNan then .nan
  else if Num.lt x y then x else if Num.lt y x then y else if x.sign then x else y

def fpMax (x y : Num) : Num :=
  if x.isNan || y.isNan then .nan
  else if Num.lt x y then y else if Num.lt y x then x else if x.sign then y else x

/-- One element of a VOPF operation (Table 7-6): d the old destination, a and b the sources. -/
def fpElem (o : FpOp) (f : Fmt) (d a b : Nat) : Nat :=
  let x := f.decode a
  let y := f.decode b
  let z := f.decode d
  match o with
  | .add => roundFp f (Num.add x y)
  | .sub => roundFp f (Num.add x (Num.neg y))
  | .mul => roundFp f (Num.mul x y)
  | .fma => roundFp f (Num.add z (Num.mul x y))
  | .fms => roundFp f (Num.add z (Num.neg (Num.mul x y)))
  | .min => roundFp f (fpMin x y)
  | .max => roundFp f (fpMax x y)
  | .abs => roundFp f (Num.abs x)
  | .neg => roundFp f (Num.neg x)

/-- VOPF over a register. -/
def vopf (o : FpOp) (f : Fmt) (p : BitVec 64) (d a b : BitVec 512) : BitVec 512 :=
  mapActive f.bits p d (fun i => fpElem o f (elem d f.bits i) (elem a f.bits i) (elem b f.bits i))

/-- The three approximations, as free values of Config outside their special results (R194, Table 6-6). -/
inductive ApproxOp where
  | exp2 | rcp | rsq
deriving DecidableEq, Repr

/-- The largest r below 2^b with r × r ≤ n. -/
def isqrt (b n : Nat) : Nat := (List.range b).foldr (fun i r => if (r + 2 ^ i) * (r + 2 ^ i) ≤ n then r + 2 ^ i else r) 0

/-- 2^(f / 2^64) in units of 2^−80: each bit of `f` multiplies by the next square root of 2. -/
def exp2Frac (f : Nat) : Nat :=
  ((List.range 64).foldl (fun (p : Nat × Nat) i =>
    let c := isqrt 82 (p.1 * 2 ^ 80)
    (c, if f.testBit (63 - i) then p.2 * c / 2 ^ 80 else p.2)) (2 ^ 81, 2 ^ 80)).2

/-- The exact value that an approximation approximates, within a relative error of 2^−60, for a finite operand that is not zero, and
positive for VRSQ. [log 14 DESIGN CHOICE] -/
def approxExact (o : ApproxOp) (neg : Bool) (m : Nat) (e : Int) : Dy :=
  match o with
  | .exp2 =>
    let x : Int := if neg then -(m : Int) else m
    let u : Int := if 0 ≤ e + 64 then x * ((2 ^ (e + 64).toNat : Nat) : Int) else x / ((2 ^ (-(e + 64)).toNat : Nat) : Int)
    ⟨exp2Frac (u % ((2 ^ 64 : Nat) : Int)).toNat, u / ((2 ^ 64 : Nat) : Int) - 80⟩
  | .rcp => let q : Int := ((2 ^ 100 / m : Nat) : Int); ⟨if neg then -q else q, -100 - e⟩
  | .rsq => let odd := e % 2 == 1; ⟨isqrt 101 (2 ^ 200 / (if odd then 2 * m else m)), -100 - (if odd then e - 1 else e) / 2⟩

/-- R194's bound on an FP32 result `y` against the exact value `x`: the relative error of Table 6-6 where `x` is in the normal range,
2^−149 where it is subnormal; beyond the largest finite number any code whose NaN is the canonical one (R81). [log 14 DESIGN CHOICE] -/
def approxWithin (o : ApproxOp) (x : Dy) (code : BitVec 32) : Bool :=
  let y := f32 code
  let k : Int := match o with | .rcp => -23 | _ => -22
  let slack : Dy := ⟨1, -60⟩
  if Dy.lt (Num.toDy (Fmt.decode .f32 Fmt.f32.maxCode)) x.abs then !y.isNan || code == 0x7FC00000#32
  else if y.isNan || y.isInf then false
  else
    let tol := if Dy.lt x.abs ⟨1, -126⟩ then Dy.add ⟨1, -149⟩ (Dy.mul x.abs slack) else Dy.mul x.abs (Dy.add ⟨1, k⟩ slack)
    !Dy.lt tol (Dy.add y.toDy x.neg).abs

/-- The result of an approximation on FP32 code `a`: the special results of Table 6-6, else the free value `approx`, which R194 holds to
its bound: where a value of `approx` lies outside, the exact value rounded to nearest stands in its place. [log 14 DESIGN CHOICE] -/
def approxElem (o : ApproxOp) (approx : BitVec 32 → BitVec 32) (a : Nat) : Nat :=
  let free (x : Num) : Nat :=
    match x with
    | .fin neg m e =>
      let t := approxExact o neg m e
      let y := approx (BitVec.ofNat 32 a)
      if approxWithin o t y then y.toNat else (roundF32 t).toNat
    | _ => (approx (BitVec.ofNat 32 a)).toNat
  let x := Fmt.decode .f32 a
  match o, x with
  | _, .nan => 0x7FC00000
  | .exp2, .inf n => if n then 0 else 0x7F800000
  | .exp2, x =>
    if x.isZero then 0x3F800000
    else if !Num.lt x (.fin false 128 0) then 0x7F800000
    else if Num.lt x (.fin true 150 0) then 0
    else free x
  | .rcp, .inf n => if n then 0x80000000 else 0
  | .rcp, x => if x.isZero then (if x.sign then 0xFF800000 else 0x7F800000) else free x
  | .rsq, .inf n => if n then 0x7FC00000 else 0
  | .rsq, x =>
    if x.isZero then (if x.sign then 0xFF800000 else 0x7F800000)
    else if x.sign then 0x7FC00000
    else free x

def vapprox (o : ApproxOp) (approx : BitVec 32 → BitVec 32) (p : BitVec 64) (d a : BitVec 512) : BitVec 512 :=
  mapActive 32 p d (fun i => approxElem o approx (elem a 32 i))

/-- Operand formats of VDOT8 by its type field (R224). -/
def dotFmt : Nat → Fmt × Fmt
  | 0 => (.e4m3, .e4m3)
  | 1 => (.e5m2, .e5m2)
  | 2 => (.e4m3, .e5m2)
  | _ => (.e5m2, .e4m3)

/-- VDOT8 (R192, R224): four products and the lane's value summed exactly and rounded once. -/
def vdot8 (t : Nat) (p : BitVec 64) (d a b : BitVec 512) : BitVec 512 :=
  let fs := dotFmt t
  mapActive 32 p d (fun i =>
    let as := (List.range 4).map (fun k => fs.1.decode (elem a 8 (4 * i + k)))
    let bs := (List.range 4).map (fun k => fs.2.decode (elem b 8 (4 * i + k)))
    (accUpdate (BitVec.ofNat 32 (elem d 32 i)) [blockSum false as bs 0x7F 0x7F]).toNat)

inductive ViOp where
  | add | sub | mul | min | max | minu | maxu | and | or | xor | andn | sll | srl | sra
deriving DecidableEq, Repr

/-- Whether an operation ignores the width (R225). -/
def ViOp.logic : ViOp → Bool
  | .and | .or | .xor | .andn => true
  | _ => false

/-- One element of a VOPI operation at width w. [log 72 DEDUCED] -/
def viElem (o : ViOp) (w : Nat) (a b : Nat) : Nat :=
  let x := BitVec.ofNat w a
  let y := BitVec.ofNat w b
  (match o with
  | .add => x + y
  | .sub => x - y
  | .mul => x * y
  | .min => if BitVec.slt x y then x else y
  | .max => if BitVec.slt x y then y else x
  | .minu => if BitVec.ult x y then x else y
  | .maxu => if BitVec.ult x y then y else x
  | .and => x &&& y
  | .or => x ||| y
  | .xor => x ^^^ y
  | .andn => x &&& ~~~y
  | .sll => x <<< (b % w)
  | .srl => x >>> (b % w)
  | .sra => x.sshiftRight (b % w)).toNat

/-- VOPI over a register at width 8 × 2^t (R225). -/
def vopi (o : ViOp) (t : Nat) (p : BitVec 64) (d a b : BitVec 512) : BitVec 512 :=
  let w := 8 * 2 ^ t
  mapActive w p d (fun i => viElem o w (elem a w i) (elem b w i))

/-- Element width of a compare or reduction type (R226). -/
def cmpWidth : Nat → Nat
  | 0 => 32 | 1 => 16 | 2 => 16 | 3 => 8 | 4 => 16 | 5 => 32 | _ => 64

/-- A condition of VCMP on two elements (R226): conditions 0 EQ, 1 NE, 2 LT, 3 LE, 4 LTU, 5 LEU, 6 UNORD. -/
def vcmpElem (t c : Nat) (a b : Nat) : Bool :=
  match fpType t with
  | some f =>
    let x := f.decode a
    let y := f.decode b
    match c with
    | 0 => Num.eq x y
    | 1 => !Num.eq x y
    | 2 => Num.lt x y
    | 3 => Num.lt x y || Num.eq x y
    | _ => x.isNan || y.isNan
  | none =>
    let w := cmpWidth t
    let x := Bits.sext a w
    let y := Bits.sext b w
    match c with
    | 0 => a == b
    | 1 => a != b
    | 2 => decide (x < y)
    | 3 => decide (x ≤ y)
    | 4 => decide (a < b)
    | _ => decide (a ≤ b)

/-- VCMP (R169, R226): every byte lane of an active element takes the result, every other lane 0. -/
def vcmp (t c : Nat) (p : BitVec 64) (a b : BitVec 512) : BitVec 64 :=
  let w := cmpWidth t
  BitVec.ofNat 64 (packBits (w / 8) ((List.range (512 / w)).map (fun i =>
    if active p w i && vcmpElem t c (elem a w i) (elem b w i) then 2 ^ (w / 8) - 1 else 0)))

/-! ### Permutes (Table 7-8) -/

def vpermb (p : BitVec 64) (d a b : BitVec 512) : BitVec 512 :=
  mapActive 8 p d (fun i => elem a 8 (elem b 8 i % 64))

def vbcast (w : Nat) (p : BitVec 64) (d : BitVec 512) (x : BitVec 64) : BitVec 512 :=
  mapActive w p d (fun _ => x.toNat)

def vins (w : Nat) (d : BitVec 512) (x idx : BitVec 64) : BitVec 512 :=
  let k := idx.toNat % (512 / w)
  ofElems w ((List.range (512 / w)).map (fun i => if i = k then x.toNat % 2 ^ w else elem d w i))

def vext (w : Nat) (a : BitVec 512) (idx : BitVec 64) : BitVec 64 :=
  BitVec.ofNat 64 (elem a w (idx.toNat % (512 / w)))

/-- VZIPL (`half` 0) and VZIPH (`half` 1). -/
def vzip (half : Nat) (w : Nat) (p : BitVec 64) (d a b : BitVec 512) : BitVec 512 :=
  let n := 512 / w
  mapActive w p d (fun k => elem (if k % 2 = 0 then a else b) w (k / 2 + half * (n / 2)))

def vmov (w : Nat) (p : BitVec 64) (d a : BitVec 512) : BitVec 512 := mapActive w p d (elem a w)

/-- VSEL: from a where active, from b elsewhere (R221 makes it write every element). -/
def vsel (w : Nat) (p : BitVec 64) (a b : BitVec 512) : BitVec 512 := mapActive w p b (elem a w)

def vunpk6 (p : BitVec 64) (d a : BitVec 512) : BitVec 512 := mapActive 8 p d (fun i => elem a 6 i)

def vpk6 (p : BitVec 64) (d a : BitVec 512) : BitVec 512 :=
  let r := ofElems 6 ((List.range 64).map (fun i => elem a 8 i % 64))
  mapActive 8 p d (elem r 8)

/-! ### Reductions (R229) -/

/-- One level of the pairwise tree. -/
def pairLevel (f : Num → Num → Num) : List Num → List Num
  | a :: b :: t => f a b :: pairLevel f t
  | l => l

/-- The pairwise tree, at most `n` levels. -/
def pairTree (f : Num → Num → Num) : Nat → List Num → List Num
  | 0, l => l
  | n + 1, l => pairTree f n (pairLevel f l)

/-- VRED: RSUM (0), RMIN (1), RMAX (2) over the active elements of type t. -/
def vred (o t : Nat) (p : BitVec 64) (a : BitVec 512) : BitVec 64 :=
  let w := cmpWidth t
  let idx := List.range (512 / w)
  match fpType t with
  | some f =>
    let els := idx.map (fun i => if active p w i then f.decode (elem a w i)
      else match o with | 0 => .fin false 0 0 | 1 => .inf false | _ => .inf true)
    let out : Fmt := if o = 0 then .f32 else f
    if els.any Num.isNan then BitVec.ofNat 64 (out.nanCode.getD 0)
    else
      let comb (x y : Num) : Num := match o with
        | 0 => out.decode (roundFp out (Num.add x y))
        | 1 => fpMin x y
        | _ => fpMax x y
      match pairTree comb 6 els with
      | r :: _ => BitVec.ofNat 64 (roundFp out r)
      | [] => 0
  | none =>
    let els := (idx.filter (active p w)).map (fun i => Bits.sext (elem a w i) w)
    let big : Int := (2 ^ (w - 1) : Nat)
    match o with
    | 0 => BitVec.ofInt 64 (els.foldl (· + ·) 0)
    | 1 => BitVec.ofInt 64 (els.foldl (fun x y => if y < x then y else x) (big - 1))
    | _ => BitVec.ofInt 64 (els.foldl (fun x y => if x < y then y else x) (-big))

/-! ### Conversions (R193, R230) -/

/-- Element width of a conversion code. -/
def cvtWidth (code : Nat) : Nat :=
  match code with
  | 4 | 6 => 4
  | 7 | 8 => 16
  | 9 => 32
  | _ => 8

/-- Whether a VCVT's codes and PART are legal. -/
def cvtLegal (src dst part : Nat) : Bool :=
  let ws := cvtWidth src
  let wd := cvtWidth dst
  decide (src ≤ 9) && decide (dst ≤ 9) && decide (part < Nat.max ws wd / Nat.min ws wd)

/-- One converted element. -/
def cvtElem (src dst : Nat) (sat : Bool) (c : Nat) : Nat :=
  match Fmt.ofSpec src false, Fmt.ofSpec dst false with
  | some f, some g => (convert g sat .rne (f.decode c)).code
  | _, _ => 0

/-- VCVT (R230). -/
def vcvt (src dst part : Nat) (sat : Bool) (p : BitVec 64) (d a : BitVec 512) : BitVec 512 :=
  let ws := cvtWidth src
  let wd := cvtWidth dst
  let n := 512 / Nat.max ws wd
  if wd ≤ ws then
    mapActive wd p d (fun i => if part * n ≤ i ∧ i < part * n + n then cvtElem src dst sat (elem a ws (i - part * n)) else elem d wd i)
  else mapActive wd p d (fun i => cvtElem src dst sat (elem a ws (part * n + i)))

end HenAlu
end Sys2Proof
end

