-- ==== Sys2Proof/Config.lean ====
section
/-!
DEFINITION. What the spec fixes once for the part (capacities and rates of chapters 00 to 02) and the FREE VALUES: constants
with no body, so that no proof can see what they are. Each free value is named in the assumption log.
-/
namespace Sys2Proof
namespace Config

/-! ### Free values -/

/-- SHA-512 of a byte string (R72, R534, R562, R564): the spec names the function and does not define it. [log 12 DESIGN CHOICE] -/
opaque sha512 : List Byte → BitVec 512

/-- Whether an Ed25519 signature by key `k` over message `m` verifies (R561, R567): named by the spec, not defined in it. [log 12 DESIGN CHOICE] -/
opaque ed25519Ok : (k : BitVec 256) → (m : List Byte) → (sig : BitVec 512) → Bool

/-- The Ed25519 signature that the module's own key makes over a message (R565). [log 12 DESIGN CHOICE] -/
opaque ed25519Sign : (key : BitVec 256) → (m : List Byte) → BitVec 512

/-- The Ed25519 public key of a private scalar (R562). [log 12 DESIGN CHOICE] -/
opaque ed25519Public : (key : BitVec 256) → BitVec 256

/-- Whether the signature of a debug token verifies under the key whose SHA-512 digest is `d` (R567: the fuses hold digests). [log 12 DESIGN CHOICE, 166 DEDUCED] -/
opaque tokenSigned : (d : BitVec 512) → (m : List Byte) → (sig : BitVec 512) → Bool

/-- What a key command asks for (R561; its layout is not given), where its signature verifies and it names the IDENTITY and the nonce:
revoke or write, the slot, the digest, and the owner slot whose key signed it (none for the vendor key). [log 13 DESIGN CHOICE] -/
opaque keyCommand : (cmd : BitVec 512) → (identity : BitVec 64) → (nonce : BitVec 256) → Option (Bool × Fin 4 × BitVec 512 × Option (Fin 4))

/-- Whether MOD_RESET_N low for `n` mclk cycles, from 1 µs to less than the 10 µs that R592 asks for, resets the module. [log 17 DESIGN CHOICE] -/
opaque shortReset : (n : Nat) → Bool

/-- The image set that stands in memory from line 0 of `read` (R537; its layout in HBM is not given): stage-1, A-die Hen and management
Hen images. [log 13 DESIGN CHOICE] -/
opaque stagedSet : (read : Nat → BitVec 512) → Option (Image × Image × Image)

/-- The data bytes that a line written as the poison pattern has in a save slot, and in the digest over it (R71; R387 fixes its check
bits only). [log 185 DESIGN CHOICE] -/
opaque poisonPattern : BitVec 512

/-- The n-th 64-bit word drawn from the module's entropy source (R563). [log 16 DESIGN CHOICE] -/
opaque entropy : Nat → BitVec 64

/-- The n-th value that the spec leaves undefined, of width `w`. [log 11 DESIGN CHOICE] -/
opaque freeValue : (w : Nat) → Nat → BitVec w

/-- What a line of the range that the interleaved view gains holds after change `n` of TIER_SIZE (R402). [log 115 DEDUCED] -/
opaque gainedLine : (n line : Nat) → BitVec 512

/-- The approximation VEXP2 returns on FP32 operand `x` where R194 fixes only its error bound, which HenAlu.approxElem holds it to. [log 14 DESIGN CHOICE] -/
opaque vexp2 : BitVec 32 → BitVec 32

/-- The approximation VRCP returns on FP32 operand `x` where R194 fixes only its error bound, which HenAlu.approxElem holds it to. [log 14 DESIGN CHOICE] -/
opaque vrcp : BitVec 32 → BitVec 32

/-- The approximation VRSQ returns on FP32 operand `x` where R194 fixes only its error bound, which HenAlu.approxElem holds it to. [log 14 DESIGN CHOICE] -/
opaque vrsq : BitVec 32 → BitVec 32

/-- Which of several smallest covers of an array's faulty cells a test takes (R132 asks for a cover and names none). [log 195 DESIGN CHOICE] -/
opaque coverChoice : (cells : List (Nat × Nat)) → Nat

/-- The set of a shared-cache slice that a line maps to (R346 gives the ways and not the index function). -/
opaque sliceSet : (line : Nat) → Nat

/-- The set of a slice's directory store that a line maps to (R350 gives the ways and not the index function). -/
opaque storeSet : (line : Nat) → Nat

/-- Whether the n-th deep-window access sampled by a home is one that adds heat (R405: a chance, not a sequence). [log 15 DESIGN CHOICE] -/
opaque heatSample : Nat → Bool

/-- The bank [5:0] and row [23:6] that a line of a pseudo-channel lies in, as the error log reports them (Table 12-11 names the
fields; the spec gives no function from a line to them). [log 15 DESIGN CHOICE, 108 DEDUCED] -/
opaque hbmBankRow : (line : Nat) → BitVec 24

/-- The set of the system cache that a line maps to (chapter 16 gives its size and ways and not the index function). [log 15 DESIGN CHOICE] -/
opaque sysSet : (line : Nat) → Nat

/-- Slots of credit that a link end holds for each class after training (R436 gives no number). [log 15 DESIGN CHOICE] -/
opaque linkCredit : (cls : Nat) → Nat

/-- The highest link protocol version that the module supports (Table 14-5 gives no number). [log 15 DESIGN CHOICE] -/
opaque linkVersion : BitVec 8

/-- SPARE_PCT of the flash with `n` spare blocks left (R430 names a percentage; the spec gives no number of blocks). [log 15 DESIGN CHOICE] -/
opaque sparePct : (n : Nat) → BitVec 8

end Config
end Sys2Proof
end

