-- ==== Sys2Proof/Machine/FMap.lean ====
section
/-!
DEFINITION. The operations on sparse maps and on byte memory: read, write, and the canonical form (keys strictly rising, no
pair holding the default). A write of the default removes the pair, so that equal maps are equal data.
-/
namespace Sys2Proof

/-- The value of a sparse map at key `k`; `d` gives the value of an unlisted key. -/
def FMap.get {α : Type} (d : α) (m : FMap α) (k : Nat) : α :=
  match m with
  | [] => d
  | (j, v) :: t => if j = k then v else FMap.get d t k

/-- Removes key `k`. -/
def FMap.del {α : Type} (m : FMap α) (k : Nat) : FMap α :=
  match m with
  | [] => []
  | (j, v) :: t => if j = k then FMap.del t k else (j, v) :: FMap.del t k

/-- Lists `v` at key `k`, keeping the keys in rising order. -/
def FMap.put {α : Type} (m : FMap α) (k : Nat) (v : α) : FMap α :=
  match m with
  | [] => [(k, v)]
  | (j, w) :: t => if k < j then (k, v) :: (j, w) :: t else if k = j then (k, v) :: t else (j, w) :: FMap.put t k v

/-- Writes `v` at key `k`: the default removes the key, any other value is listed. -/
def FMap.set {α : Type} [DecidableEq α] (d : α) (m : FMap α) (k : Nat) (v : α) : FMap α :=
  if v = d then FMap.del m k else FMap.put m k v

/-- The keys rise strictly, each above `lo`. -/
def FMap.rising {α : Type} (lo : Nat) (m : FMap α) : Bool :=
  match m with
  | [] => true
  | (j, _) :: t => decide (lo ≤ j) && FMap.rising (j + 1) t

/-- The canonical form of a sparse map: keys strictly rising and no pair holding the default. -/
def FMap.wf {α : Type} [DecidableEq α] (d : α) (m : FMap α) : Bool :=
  FMap.rising 0 m && m.all (fun p => decide (p.2 ≠ d))

/-- Byte memory: an unlisted address reads 0x00. -/
abbrev Memory := FMap Byte

/-- One byte of memory. [log 6 DESIGN CHOICE] -/
def Memory.read (m : Memory) (a : Nat) : Byte := FMap.get 0#8 m a

/-- Writes one byte of memory. -/
def Memory.write (m : Memory) (a : Nat) (b : Byte) : Memory := FMap.set 0#8 m a b

/-- The canonical form of memory. -/
def Memory.wf (m : Memory) : Bool := FMap.wf 0#8 m

/-- `n` bytes from address `a`. -/
def Memory.readBytes (m : Memory) (a : Nat) : Nat → List Byte
  | 0 => []
  | n + 1 => Memory.read m a :: Memory.readBytes m (a + 1) n

/-- Writes a list of bytes from address `a`. -/
def Memory.writeBytes (m : Memory) (a : Nat) : List Byte → Memory
  | [] => m
  | b :: t => Memory.writeBytes (Memory.write m a b) (a + 1) t

end Sys2Proof
end

