-- ==== Sys2Proof/Machine/State.lean ====
section
/-!
DEFINITION. The state of the module: everything the spec gives it, unit by unit, as plain data, the reasons a step can stop, and
the state after reset. Units are kept in maps by agent ID (Table 1-6); a unit not listed holds its reset value. Times are in mclk
cycles.
-/
namespace Sys2Proof
namespace Machine

/-! ### The site beat (R34 to R43) -/

/-- The beat state of the always-on domains (R34 to R39, Tables 2-1 and 2-8). Times are in mclk cycles. -/
structure Beat where
  /-- current beat number -/
  number : BitVec 24 := 0
  /-- load slot in force, and the slot that takes effect from the next beat (R39) -/
  slot : BitVec 4 := 0
  nextSlot : BitVec 4 := 0
  /-- the time at which the angle was last set to 0x0000 (R37) -/
  zero : Nat := 0
  /-- the measured period; before the first lock the internal count at 100 beats/s (R42) -/
  period : Nat := 5000000
  locked : Bool := false
  /-- BEAT_LOST -/
  lost : Bool := false
  /-- the last edge, accepted or not, as R34 measures periods toward a lock -/
  lastEdge : Option Nat := none
  /-- the consecutive in-range periods toward a lock, newest first, at most four -/
  periods : List Nat := []
  /-- the last accepted edge, and the point the next window is measured from (R34, R38) -/
  lastAccepted : Option Nat := none
  ref : Nat := 0
  /-- consecutive missing edges (R38) -/
  missing : Nat := 0
  /-- a word is awaited since the last edge; the word of the last edge has been discarded as late, and has not arrived since -/
  wordDue : Bool := false
  wordLate : Bool := false
  /-- beats begun since the last upward step, for R42 (saturating at 16) -/
  sinceUp : Nat := 16
  /-- the slot of the current beat has started -/
  slotDone : Bool := false
deriving DecidableEq, Repr

/-- The site state of R43, kept with the beat state. -/
structure Site where
  hold : Bool := false
  /-- site cap in units of 5 W; 0 means none -/
  cap : BitVec 8 := 0
  /-- a site LEAN not yet followed by RELEASE -/
  lean : Bool := false
deriving DecidableEq, Repr

/-! ### The governor, the beat schedulers and lean state (R44 to R77) -/

/-- A power domain's state (Table 2-7's codes). -/
inductive DomState where
  | off | retention | on
deriving DecidableEq, Repr

/-- An upward step that is asked for and not yet made (R40, R60). -/
inductive UpReq where
  /-- switch domain `dom` of A-die `die` ON -/
  | domain (die : Fin 4) (dom : Fin 42)
  /-- leave retention -/
  | ret (die : Fin 4)
  /-- raise the operating point toward TARGET_OP -/
  | op (die : Fin 4)
  /-- switch an application-core cluster ON -/
  | cluster (c : Fin 6)
  /-- raise the application-core clock toward TARGET_CLK -/
  | clk
deriving DecidableEq, Repr

/-- One enforcement step still in force (R52, R53). -/
inductive EnfStep where
  /-- ENF_OP of A-die `die` was lowered to one point below the point held -/
  | die (die : Fin 4)
  /-- OX_LIMIT was halved -/
  | ox
deriving DecidableEq, Repr

/-- A register request for an upward step, held since the time it was written (R60). -/
structure UpAsk where
  since : Nat
  req : UpReq
deriving DecidableEq, Repr

/-- A due scheduler entry whose ON switch is held for a slot (R59). -/
structure HeldEntry where
  /-- when it fell due -/
  due : Nat
  /-- 0 the C-die's scheduler, 1 to 4 the A-dies' -/
  die : Fin 5
  entry : Fin 64
  req : UpReq
deriving DecidableEq, Repr

/-- Meters, caps and the hardware limits (R51 to R56). Powers are in 0.1 mW. -/
structure Gov where
  vin : BitVec 10 := 0
  vbus : BitVec 10 := 0
  /-- the input-power samples of the last 1 ms, newest first (R52, R586) -/
  samples : List Nat := []
  /-- the A-dies' samples of the last 1 ms (DIE_PWR) -/
  dieSamples : FMap (List Nat) := []
  /-- sum and count of the samples of the current beat, and the average over the last beat -/
  beatSum : Nat := 0
  beatCount : Nat := 0
  beatAvg : Nat := 0
  /-- input energy since the last module reset, in 0.1 nJ (R586) -/
  energy : Nat := 0
  /-- consecutive samples whose 1 ms average exceeds the cap, and that count at the last enforcement step -/
  overUs : Nat := 0
  stepAt : Option Nat := none
  /-- consecutive samples whose 1 ms average is at or below the cap less HEADROOM since the last undo (R53) -/
  calmUs : Nat := 0
  /-- samples over the cap since every step was taken (R53) -/
  spentUs : Nat := 0
  /-- consecutive samples above 1.15 times the cap (R54) -/
  fastUs : Nat := 0
  /-- enforcement steps in force, the most recent first -/
  steps : List EnfStep := []
  /-- an undo is held as an upward step (R53) -/
  undoHeld : Bool := false
  capUnmet : Bool := false
  /-- OX_LIMIT: 0 four Oxen per flock, 1 two, 2 one -/
  oxLimit : BitVec 2 := 0
  /-- the end of a fast-limit hold (R54) -/
  fastEnd : Option Nat := none
  /-- register requests for upward steps, oldest first, those of one mclk cycle by die number and domain number (R60) -/
  requests : List UpAsk := []
  /-- held scheduler entries, in the order in which they fell due, then by die number and entry index (R59, R60) -/
  held : List HeldEntry := []
  /-- entries held before the slot that is next, and so dropped if it cannot take them -/
  slotOps : List (Fin 4) := []
  /-- domains switched to ON in this slot (R41) -/
  slotDoms : Nat := 0
deriving DecidableEq, Repr

/-- Lean state (R66, R67, R74; LEAN_STATUS of Table 2-12). -/
structure Lean where
  /-- 0 normal, 1 lean, 2 waiting under R74, 3 stepping -/
  state : BitVec 2 := 0
  causeSupply : Bool := false
  causeSite : Bool := false
  /-- the input stage is open (R65) -/
  inputOpen : Bool := false
  /-- VIN is above clear -/
  clear : Bool := false
  /-- the time the wait of R74 began -/
  waitFrom : Nat := 0
  /-- the wait has lasted two measured beat periods -/
  waitDone : Bool := false
  /-- a lean save sealed during this lean state (R75) -/
  sealedHere : Bool := false
  /-- a lean save with its dirty map, complete or not, sealed during this lean state (R428) -/
  mapHere : Bool := false
  /-- a lean save is due in this lean state and has not started (R69) -/
  saveDue : Bool := false
deriving DecidableEq, Repr

/-- A region of a sealed save: base, length in 4 KiB units, tag, unreadable lines, digest and the bytes written (R72). [log 42 DEDUCED] -/
structure SavedRegion where
  /-- the number of the region's descriptor (R68) -/
  index : Nat
  desc : BitVec 128
  badLines : Nat
  /-- the lines that stand as the poison pattern, by number in the region -/
  bad : List Nat
  digest : BitVec 512
  /-- the saved bytes that are not zero, by offset in the region -/
  data : FMap Byte
deriving DecidableEq, Repr

/-- A seal record (R72) with the contents of its slot. -/
structure Seal where
  epoch : BitVec 16
  seq : Nat
  incomplete : Bool
  regionsDone : Nat
  descs : List (BitVec 128)
  regions : List SavedRegion
  /-- the tier's dirty map that a lean save writes first, and a scheduled save does not (R427) -/
  dirtyMap : Option (List Nat)
deriving DecidableEq, Repr

/-- Which save is copying (R63, R69). -/
inductive SaveKind where
  | lean | scheduled
deriving DecidableEq, Repr

/-- The save engine and its two slots (R68 to R76). -/
structure Save where
  /-- save-set descriptors (R68), 128 bits each, keyed 0 to 31 -/
  descs : FMap (BitVec 128) := []
  active : Option SaveKind := none
  /-- the slot being written -/
  slot : Fin 2 := 0
  /-- the newest save has been sealed since it began (SAVE_SEALED) -/
  sealed : Bool := false
  /-- regions copied in the current or last save -/
  regionsDone : BitVec 6 := 0
  dirtyMap : List Nat := []
  /-- the seals of slots 0 and 1 -/
  seal0 : Option Seal := none
  seal1 : Option Seal := none
deriving DecidableEq, Repr

/-- What one A-die holds beside its units (Tables 1-2, 2-7 and 2-13, R45 to R50). -/
structure Die where
  curOp : BitVec 3 := 0
  /-- in retention; and leaving it (R46) -/
  curRet : Bool := false
  leaving : Bool := false
  targetOp : BitVec 3 := 0
  targetRet : Bool := false
  resumeOp : BitVec 3 := 0
  /-- an operating-point step in progress: none, upward, downward -/
  stepUp : Bool := false
  stepDown : Bool := false
  enfOp : BitVec 3 := 7
  /-- elapsed fclk cycles, in fifths (R31, Table 2-3) -/
  fclk5 : Nat := 0
  /-- domain states by domain number; an unlisted domain is OFF -/
  domains : FMap DomState := []
  /-- domains switched ON and not yet usable (R50) -/
  waking : List Nat := []
  /-- FLOCK_MAP (Table 1-2) -/
  flockMap : BitVec 27 := 0
  /-- excluded at start (R524), and declared dead (R365) -/
  excluded : Bool := false
  dead : Bool := false
  /-- the temperature limit of R551 holds -/
  hot : Bool := false
  /-- under compute reset (R541) -/
  computeReset : Bool := false
  /-- Oxen that hold an issue token, in the order they took it (R56) -/
  tokens : List Nat := []
  /-- scrub bursts and ramp permit windows open, by entry (R61, R62) -/
  bursts : List (Fin 64) := []
  permits : List (Fin 64) := []
deriving DecidableEq, Repr

/-! ### The Ox (chapters 04 and 05) -/

/-- OX_STATUS.STATE (Table 4-7). -/
inductive OxState where
  | idle | running | quiescing | disabled | quarantined | failed
deriving DecidableEq, Repr

/-- The activity ramp (R124, R125). -/
inductive Ramp where
  | none | up | down
deriving DecidableEq, Repr

/-- One weight set with its tag and its column scale registers (R106 to R108, R144). -/
structure WSet where
  valid : Bool := false
  /-- format specifier of the tile: code [3:0], MX [4] -/
  spec : BitVec 5 := 0
  /-- element codes, one list of 32 columns per reduction row (64 rows for a full 4-bit tile) -/
  rows : List (List Nat) := []
  /-- check weights of R108, one per reduction row; none where an element is NaN or infinite -/
  check : List (Option Dy) := []
  /-- loaded from a line stored as poisoned (R149) -/
  poison : Bool := false
  scalesValid : Bool := false
  /-- 32 or 64 scale bytes -/
  scales : List Byte := []
deriving DecidableEq, Repr

/-- One byte of the scale store (R116, R142, R149). -/
structure ScaleByte where
  valid : Bool := false
  poison : Bool := false
  code : Byte := 0
deriving DecidableEq, Repr

/-- An instruction that has issued and not completed (R117 to R119). -/
structure OxFlight where
  /-- the instruction word, and its index from the program's entry -/
  word : BitVec 64
  idx : Nat
  /-- MMA: the next pass, whether the instruction runs again from a failing pass, and that pass (R130) -/
  pass : Nat := 0
  retry : Bool := false
  failedAt : Nat := 0
  /-- MMA: the weight set it reads (false: set 0) -/
  set1 : Bool := false
  /-- DRN: d and SPTR latched at issue (R154) -/
  d : BitVec 32 := 0
  sptr : Nat := 0
  /-- LDW, LDS: the flock-memory lines read so far with their poison, by line address; DRN: the lines written so far, by number (R163) -/
  seen : FMap (Option (BitVec 512 × Bool)) := []
  done : List Nat := []
deriving DecidableEq, Repr

/-- Why an Ox's running item is to be returned (R131, R135, R136, R158). -/
inductive OxReturn where
  | none | quiesce | force | lasting | refused (cause : Nat) (idx : Nat)
deriving DecidableEq, Repr

/-- An Ox. [log 9 DESIGN CHOICE, 47 DEDUCED] -/
structure Ox where
  state : OxState := .disabled
  ramp : Ramp := .none
  remapped : Bool := false
  /-- OX_FAULT (Table 4-8) -/
  fault : BitVec 32 := 0
  /-- the repair map of each array (bits [31:0] of the MB value) -/
  repair : FMap (BitVec 32) := []
  diagFail : Bool := false
  /-- diagnosis is owed before the Ox next leaves DISABLED (R134); diagnosis is running (R132) -/
  diagOwed : Bool := false
  diagRunning : Bool := false
  /-- the diagnosis holds its ramp under R61 -/
  diagHeld : Bool := false
  /-- a quiesce or forced disable, asked for during a retry or a diagnosis, follows it (R134) -/
  disableNext : Bool := false
  /-- dither register (R598; before the first work item loads it, the value that a zero seed gives), and DITHER_SEED (a mailbox value
  of R138) -/
  dither : BitVec 64 := 1
  /-- the item waits for a dither state from an entropy source that has failed its health test (R563) -/
  ditherDue : Bool := false
  seed : BitVec 64 := 1
  /-- the two weight sets, and which is the front one as of the last SWP issued -/
  w0 : WSet := {}
  w1 : WSet := {}
  front1 : Bool := false
  /-- scale store, keyed (1024 a + row) × 2 + byte -/
  scale : FMap ScaleByte := []
  /-- accumulator store, keyed (1024 a + row) × 32 + column -/
  acc : FMap (BitVec 32) := []
  /-- poisoned pairs, and pairs holding a latent single (1) or double (2) bit error, keyed (512 a + pair) × 32 + column (R120) -/
  accPoison : FMap Bool := []
  accUpset : FMap (BitVec 2) := []
  /-- the drain parameter sets (R154) -/
  d0 : BitVec 32 := 0x3F800000#32
  d1 : BitVec 32 := 0x3F800000#32
  sptr0 : Nat := 0
  sptr1 : Nat := 0
  /-- instruction queue, oldest first; instructions fetched so far; the fetch has met an error (cause 10) -/
  queue : List (BitVec 64) := []
  fetched : Nat := 0
  fetchStop : Bool := false
  /-- entry offset, and the index of the oldest unissued instruction -/
  entry : Nat := 0
  index : Nat := 0
  flight : List OxFlight := []
  /-- END has issued -/
  ret : OxReturn := .none
  /-- the item met poison (R120, R149); the run has left effects outside the Ox (R135) -/
  itemPoison : Bool := false
  effects : Bool := false
  /-- fclk count (in fifths) at the last pass, or at the end of the last ramp (R61) -/
  lastBusy : Nat := 0
  /-- a wait for an issue token has been counted (TOKEN_WAIT) -/
  tokenWait : Bool := false
deriving DecidableEq, Repr

/-! ### The Hen (chapters 06 and 07) -/

/-- HEN_STATUS.STATE (Table 6-10). -/
inductive HenState where
  | halted | running | quiescing | disabled | failed
deriving DecidableEq, Repr

/-- The state of a cached line (chapter 11). -/
inductive LineState where
  | m | e | s
deriving DecidableEq, Repr

/-- A line of a data cache or victim cache. `bad` marks a latent parity error (R186 to R188). -/
structure CacheLine where
  /-- line address: PA / 64 -/
  line : Nat
  st : LineState
  data : BitVec 512
  /-- line data is poisoned -/
  poison : Bool := false
  bad : Bool := false
deriving DecidableEq, Repr

/-- A set of the data cache: the four ways and the LRU order, most recently used first (R183). -/
structure CacheSet where
  w0 : Option CacheLine := none
  w1 : Option CacheLine := none
  w2 : Option CacheLine := none
  w3 : Option CacheLine := none
  lru : List (Fin 4) := []
deriving DecidableEq, Repr

/-- A store-buffer entry (R176): a line, a byte mask, the bytes, the hint of an STH, whether it has begun to retire. -/
structure SbEntry where
  line : Nat
  mask : BitVec 64
  data : BitVec 512
  /-- the access is performed UNCACHED -/
  uncached : Bool
  /-- target agent of a store hint (R180) -/
  hint : Option Nat := none
  /-- waits for its line in M or E, or for its home -/
  begun : Bool := false
  /-- the line by which the store that made the entry names it, where another view of HBM gives it `line` (R23) -/
  view : Option Nat := none
  /-- addresses of stores of another width than 4 B to device register space, which are not performed (R215) -/
  refused : List Nat := []
deriving DecidableEq, Repr

/-- A store that has retired at a Kerly port on its way to flock memory of another die (Table 10-2): its line, bytes and byte mask. -/
structure Crossing where
  line : Nat
  data : BitVec 512
  mask : BitVec 64
deriving DecidableEq, Repr

/-- What a Hen waits for with an instruction in flight. [log 58 DEDUCED] -/
inductive HenWait where
  | none
  /-- a load of `size` bytes at `addr` into g[rd] (or v[rd] under predicate mask `mask`) awaits its line or its home -/
  | load (rd : Nat) (addr : Nat) (size : Nat) (signed : Bool) (vec : Bool) (mask : BitVec 64) (lr : Bool) (cached : Bool)
  /-- an LVOL or an uncached access answered by DAT -/
  | amo (rd : Nat) (addr : Nat) (size : Nat)
  /-- an SC held at the home (UNCACHED reservation), or waiting for ownership -/
  | sc (rd : Nat) (addr : Nat) (size : Nat) (v : BitVec 64)
  /-- a fetch of the line at PC through the herd or the host window, by request key -/
  | fetch (addr key : Nat)
  /-- SWAIT, with bits [23:0] of the identifier it names (R443) -/
  | swait (rd : Nat) (id : BitVec 24) (die : Nat) (index : Nat) (thresh : BitVec 24) (scope : BitVec 2)
  /-- a sync operation on another module's object, or a herd-space access: answered by HERD_RESPONSE to the request with that key -/
  | herd (key : Nat) (rd : Nat) (addr : Nat) (size : Nat) (signed : Bool) (vec : Bool) (mask : BitVec 64)
  /-- a host-window read: answered by HOST_COMPLETION -/
  | host (key : Nat) (rd : Nat) (addr : Nat) (size : Nat) (signed : Bool) (vec : Bool) (mask : BitVec 64)
  | wfi
  /-- a precise exception that waits for the store buffer to drain (R196): code and ETVAL -/
  | raise (code : Nat) (tval : Nat)
  /-- a BAR in flight (R324, R325) -/
  | bar
  /-- the instruction is abandoned and nothing more issues; once the store buffer has drained the Hen stops (R187, R199, R201, R202):
  0 DISABLED by force, else the HALT_CAUSE -/
  | stop (cause : Nat)
deriving DecidableEq, Repr

/-- A pending imprecise exception (R198). -/
structure Imprecise where
  code : Nat
  addr : Nat
  overflow : Bool := false
deriving DecidableEq, Repr

/-- The reservation of LR (R331): its granule, held by the data cache or by the home. -/
structure Resv where
  /-- the storage lines of the granule -/
  lines : List Nat
  cached : Bool
deriving DecidableEq, Repr

/-- An LR hold (R333): instructions since the LR, and the fclk count (fifths) at which it began. [log 78 DEDUCED] -/
structure LrHold where
  count : Nat
  since : Nat
deriving DecidableEq, Repr

/-- A Hen (chapter 06): its registers, PC, control registers and region table, caches, store buffer, reservation and state. [log 7 DESIGN CHOICE, 61 DESIGN CHOICE] -/
structure Hen where
  state : HenState := .halted
  haltCause : BitVec 3 := 0
  haltAddr : BitVec 56 := 0
  haltPc : BitVec 56 := 0
  pc : BitVec 56 := 0
  g : FMap (BitVec 64) := []
  v : FMap (BitVec 512) := []
  p : FMap (BitVec 64) := []
  /-- STATUS.PRIV (true: firmware), STATUS.EXC_EN and STATUS.IE -/
  priv : Bool := true
  excEn : Bool := false
  ie : BitVec 3 := 0
  estPriv : Bool := false
  estExcEn : Bool := false
  epc : BitVec 56 := 0
  ecause : BitVec 10 := 0
  etval : BitVec 64 := 0
  vbase : BitVec 56 := 0
  /-- IPEND.COLLIE and IPEND.MGMT (TIMER is derived) -/
  ipCollie : Bool := false
  ipMgmt : Bool := false
  /-- the clock count at module reset or restart -/
  cycleBase : Nat := 0
  instret : BitVec 64 := 0
  timecmp : BitVec 64 := 0xFFFFFFFFFFFFFFFF#64
  arg0 : BitVec 64 := 0
  arg1 : BitVec 64 := 0
  arg2 : BitVec 64 := 0
  arg3 : BitVec 64 := 0
  dcEn : Bool := true
  wayMask : BitVec 12 := 0xFFF#12
  gran : BitVec 2 := 0
  scratch : FMap (BitVec 64) := []
  /-- region table (Table 6-3); an unlisted entry holds its reset value (Machine/HenCore.lean: rgnReset) -/
  rgnBase : FMap (Option (BitVec 64)) := []
  rgnLimit : FMap (Option (BitVec 64)) := []
  /-- store buffer, oldest entry first -/
  sb : List SbEntry := []
  /-- instruction cache: lines by line address -/
  ic : FMap (Option (BitVec 512)) := []
  /-- instruction-cache lines with a latent parity error -/
  icBad : List Nat := []
  /-- instruction-cache sets: lines in LRU order, most recent first -/
  icSets : FMap (List Nat) := []
  dc : FMap CacheSet := []
  /-- victim cache, most recently used first: each line with its entry's number (R237) -/
  vc : List (Fin 8 × CacheLine) := []
  dcStale : Bool := false
  imp : Option Imprecise := none
  resv : Option Resv := none
  hold : Option LrHold := none
  wait : HenWait := .none
  stallDeep : Bool := false
  stallSb : Bool := false
  /-- self-test slice counter (R201) -/
  slice : BitVec 12 := 0
  /-- writes that have retired and not landed: herd or host transactions (R321, R324), by request number -/
  unlanded : List Nat := []
  /-- stores to flock memory of other dies that have retired and not landed (R321), in program order -/
  crossing : List Crossing := []
  /-- the reset entry of R202 and the reset value of VBASE (R536) -/
  bootPc : BitVec 56 := 0
  bootVec : BitVec 56 := 0
  /-- firmware has been delivered -/
  fwLoaded : Bool := false
deriving DecidableEq, Repr

/-! ### Locations and sync objects (R15, R16, R280 to R282, R336 to R344) -/

/-- A location (R15): the innermost level with a scope code that contains an agent. `mod` is its module's number as this module
sees it (`none` for this module itself). -/
inductive Loc where
  | flock (die : Nat) (flock : Nat)
  | die (die : Nat)
  | module
  | herd (module : Nat)
deriving DecidableEq, Repr

/-- Who waits on a sync object (R281). -/
inductive Waiter where
  /-- a Hen's SWAIT, by agent ID -/
  | hen (agent : Nat)
  /-- an Ox's SWT, by agent ID -/
  | ox (agent : Nat)
  /-- a Collie's item that is not ready: the Collie's agent ID and the item's number -/
  | item (collie : Nat) (id : Nat)
  /-- a command ring's SWAIT -/
  | ring (r : Nat)
  /-- an agent of another module, by herd-wide agent ID -/
  | remote (agent : Nat) (req : Nat)
deriving DecidableEq, Repr

/-- A wait on an object of a die's sync unit (R280, R281). -/
structure Wait where
  index : Nat
  thresh : BitVec 24
  scope : BitVec 2
  who : Waiter
  /-- outside the table of 512 waits -/
  polled : Bool
deriving DecidableEq, Repr

/-- One sync object: its count and the most recent release (R342). -/
structure SyncObj where
  count : BitVec 24 := 0
  rel : Option (BitVec 2 × Loc) := none
deriving DecidableEq, Repr

/-- The sync unit of an A-die. -/
structure SyncUnit where
  /-- objects by index in the die -/
  objs : FMap SyncObj := []
  /-- waits, oldest first -/
  waits : List Wait := []
  shortInfo : BitVec 32 := 0
  shortAgent : BitVec 32 := 0
deriving DecidableEq, Repr

/-! ### The Collie (chapter 08) -/

/-- Where a native item is (R253, R256, R264, R266). -/
inductive Place where
  | queued
  /-- in the current or next place of a unit (0 to 15 Hens, 16 to 19 Oxen) -/
  | current (unit : Nat)
  | next (unit : Nat)
  /-- running in the flock with this key -/
  | away (thief : Nat)
  /-- ended, its return or completion being processed -/
  | ended
deriving DecidableEq, Repr

/-- An item of a Collie's pool. The list order of the pool is the queue order. -/
structure PoolItem where
  id : Nat
  /-- the 64 B item of Table 8-1 -/
  w : BitVec 512
  /-- 0 to 3 a priority queue, 4 the ordered lane -/
  queue : Nat
  place : Place := .queued
  /-- the number of its placing among those of its Collie (R264) -/
  placed : Nat := 0
  /-- agent ID of the engine that last ran it, 0 if none (Table 8-6) -/
  lastEngine : Nat := 0
  /-- taken from this flock by a thief: the thief's Collie (R276) -/
  thief : Nat := 0
deriving DecidableEq, Repr

/-- An item that a thief hosts (R266 to R268). -/
structure Hosted where
  /-- the flock key and the item's number at its own Collie -/
  victim : Nat
  id : Nat
  w : BitVec 512
  unit : Nat
  /-- copies still to complete, and whether one ended with an error -/
  copies : Nat := 0
  copyErr : Bool := false
  /-- started on the engine; copying back -/
  started : Bool := false
  back : Bool := false
  /-- agent ID of the engine that last ran it, 0 if none (Table 8-6) -/
  last : Nat := 0
deriving DecidableEq, Repr

/-- The events of Table 8-5. -/
inductive RetEvent where
  | plain
  | raised
  | refused (cause : Nat) (insn : Nat)
  | poison
  | failed (cause : Nat)
  | copyError
  | originLost
deriving DecidableEq, Repr

/-- A return waiting for the Collie that holds the item (R274). -/
structure ItemRet where
  id : Nat
  ev : RetEvent
  engine : Nat
  stolenBy : Nat
  /-- the item itself, where the Collie that held it is lost -/
  w : Option (BitVec 512) := none
deriving DecidableEq, Repr

/-- A probe round (R265, R272). -/
structure Round where
  /-- flocks still to be probed, by flock key -/
  targets : List Nat
  probes : Nat
  /-- probing neighbouring dies -/
  xdie : Bool
deriving DecidableEq, Repr

/-- COL_STATUS.STATE (Table 8-12). -/
inductive ColState where
  | running | quiescing | quiesced | evicting
deriving DecidableEq, Repr

/-- The Collie of a flock. -/
structure Collie where
  state : ColState := .quiesced
  pool : List PoolItem := []
  hosted : List Hosted := []
  nextId : Nat := 0
  /-- COL_HEN_h.SLOT by Hen: 0 empty, 1 delivered, 2 taken -/
  slots : FMap (BitVec 2) := []
  /-- places given to items so far (R264) -/
  placings : Nat := 0
  /-- failure FIFO, oldest first -/
  fails : List (BitVec 256) := []
  returns : List ItemRet := []
  /-- consecutive choices from a higher queue while a lower one held a ready item, by kind (R255) -/
  ageOx : Nat := 0
  ageHen : Nat := 0
  /-- probe rounds in progress by kind, and whether the last round inside the die ended without a steal -/
  roundOx : Option Round := none
  roundHen : Option Round := none
  missOx : Bool := false
  missHen : Bool := false
  /-- the next line patrol scrub reads (FM_SCRUB) -/
  scrub : BitVec 17 := 0
deriving DecidableEq, Repr

/-! ### Mules (chapter 09) -/

/-- Why an active descriptor makes no progress (R303). -/
inductive MuleStall where
  | none | deep | host | retention
  /-- waits for a herd or host read to be answered -/
  | remote
deriving DecidableEq, Repr

/-- MULE_STATUS.STATE (Table 9-10). -/
inductive MuleState where
  | running | quiescing | quiesced
deriving DecidableEq, Repr

/-- A destination line that a Mule's descriptor builds from consecutive elements and has not written (R310). [log 204 DEDUCED] -/
structure OutLine where
  /-- the first byte of the first element in it, and that element's index -/
  pa : Nat
  elem : Nat
  data : BitVec 512
  mask : BitVec 64
  /-- every element in it lies within one 32 B sector -/
  whole : Bool := false
  /-- the poisoned read that ends the descriptor: its address and element -/
  bad : Option (Nat × Nat) := none
deriving DecidableEq, Repr

/-- A descriptor of a Mule (R285 to R304). -/
structure Desc where
  /-- the 64 B descriptor -/
  w : BitVec 512
  queue : Nat
  /-- sequence number among the pushes to its queue -/
  seq : Nat
  /-- copy made by a Collie (R267, R268): the name of the hosted item -/
  collie : Option Nat := none
  /-- started, and its place in the order of starts -/
  started : Option Nat := none
  /-- line requests already performed, in element order -/
  progress : Nat := 0
  /-- transfers finished -/
  finished : Bool := false
  /-- error: code, address, element index -/
  err : Option (Nat × Nat × Nat) := none
  stall : MuleStall := .none
  /-- the source line and the line of the index list that it has read last: line address, data, poisoned (R300) -/
  fetched : Option (Nat × BitVec 512 × Bool) := none
  index : Option (Nat × BitVec 512 × Bool) := none
  /-- with VOLATILE: the byte in element order up to which the source line serves -/
  volEnd : Nat := 0
  /-- a read toward the host or another module is on its way: of the index list, or of the source -/
  asking : Option Bool := none
  /-- the destination line being built (R310) -/
  out : Option OutLine := none
  /-- writes issued and not yet landed: the key of the request, and the element index it writes -/
  unlanded : List (Nat × Nat) := []
  /-- tier pages already hinted (R301) -/
  hinted : List Nat := []
deriving DecidableEq, Repr

/-- A Mule. -/
structure Mule where
  state : MuleState := .running
  q0Halted : Bool := false
  /-- descriptors in the order pushed -/
  descs : List Desc := []
  /-- pushes to each queue since reset, modulo 2^32 -/
  pushes : FMap Nat := []
  starts : Nat := 0
  /-- the queue whose turn it is to start -/
  turn : Nat := 0
  /-- error FIFO, oldest first -/
  errors : List (BitVec 256) := []
  /-- a die Mule that start-up test found bad: held QUIESCED (R527) -/
  bad : Bool := false
deriving DecidableEq, Repr

/-! ### Coherence and the shared cache (chapter 11). Lines are named by their storage line: the per-stack or deep-window PA / 64. -/

/-- A directory entry (Table 11-2). -/
inductive DirState where
  | u | s | em
deriving DecidableEq, Repr

structure DirEntry where
  state : DirState := .u
  bcast : Bool := false
  /-- BSCOPE: module (true) or die -/
  bmodule : Bool := false
  host : Bool := false
  /-- PTR0 to PTR3; in EM the owner -/
  ptrs : List Nat := []
  /-- latent double-bit error of the entry's check bits (R370) -/
  bad : Bool := false
deriving DecidableEq, Repr

/-- A line resident in its home slice (R346). `upset` 1 is a latent single-bit error, 2 a double-bit error. -/
structure SliceLine where
  data : BitVec 512
  dirty : Bool := false
  poison : Bool := false
  upset : BitVec 2 := 0
deriving DecidableEq, Repr

/-- The requests of Table 11-3. -/
inductive ReqKind where
  | rds | rdo | upg | rdu | wrl | wrp | wbd (keep : Bool) | invn | atm
deriving DecidableEq, Repr

/-- A request at its home. -/
structure HomeReq where
  kind : ReqKind
  /-- requester -/
  agent : Nat
  line : Nat
  /-- bytes and byte mask of a write -/
  data : BitVec 512 := 0
  mask : BitVec 64 := 0
  poison : Bool := false
  /-- write hint (R359) -/
  hint : Option Nat := none
  /-- which requester of R182 fills the line: 0 pipeline, 1 stash, 2 Collie prefetch -/
  src : BitVec 2 := 0
  /-- a sector access (R379) -/
  sector : Bool := false
  /-- of the line's upper sector -/
  upper : Bool := false
  /-- a prefetch (R236, R257): class BULK, and a hint to the deep tier (R381, R407) -/
  prefetch : Bool := false
deriving DecidableEq, Repr

/-- The snoops of Table 11-4. -/
inductive SnpKind where
  | shr | own | ownHome | data | inv
deriving DecidableEq, Repr

/-- What an agent answers a snoop with. -/
inductive SnpAns where
  /-- not present -/
  | np
  /-- done, nothing carried home (data, if any, went to the requester) -/
  | done
  /-- the line, for the home: data, poisoned -/
  | line (d : BitVec 512) (poison : Bool)
deriving DecidableEq, Repr

/-- The transaction a home carries for a line (R354). -/
structure Txn where
  req : HomeReq
  /-- snoops sent and not yet received by their agents -/
  snoops : List (Nat × SnpKind) := []
  /-- answers on their way to the home -/
  answers : List (Nat × SnpAns) := []
  /-- data the answers brought home -/
  got : Option (BitVec 512 × Bool) := none
  /-- an owner answered NP; an owner forwarded to the requester -/
  np : Bool := false
  forwarded : Bool := false
  /-- the snoops are answered and the line is being read from the stack -/
  reading : Bool := false
  /-- the answers are in and its end waits for the deep tier's freeze (R412) -/
  frozen : Bool := false
  /-- the transaction is a broadcast: 0 none, 1 die, 2 module (R358) -/
  bcast : BitVec 2 := 0
  /-- the home first settles an entry whose check bits fail (R370), and then begins the request -/
  settle : Bool := false
deriving DecidableEq, Repr

/-- Line data or a grant on its way to a requester; `st` none for an uncached read's data. -/
structure DatMsg where
  agent : Nat
  line : Nat
  st : Option LineState
  data : BitVec 512
  poison : Bool
  /-- a grant without data (Upg) -/
  grantOnly : Bool := false
  /-- which requester of R182 fills the line: 0 pipeline, 1 stash, 2 Collie prefetch -/
  src : BitVec 2 := 0
deriving DecidableEq, Repr

/-- An entry of a slice's atomic queue (R362): the operation as its ATOM func[10:4] (op × 4 + SIZE) or, for REDUCE, 512 + its
RTYPE × 4 + ROP. -/
structure AqEntry where
  agent : Nat
  line : Nat
  code : Nat
  off : Nat
  /-- operand and CAS compare value, or the source elements of a REDUCE line with their byte mask -/
  arg : BitVec 512
  cmp : BitVec 64
  mask : BitVec 64
  /-- issue stamp (mclk) -/
  stamp : Nat
  /-- the Mule descriptor a REDUCE belongs to -/
  desc : Nat := 0
  /-- the address as a Mule's descriptor names it -/
  named : Nat := 0
  /-- a REDUCE line's write hint (R299) -/
  hint : Option Nat := none
deriving DecidableEq, Repr

/-- A shared-cache slice. -/
structure Slice where
  /-- resident lines, most recently used first -/
  lru : List Nat := []
  aq : List AqEntry := []
  /-- atomic requests waiting in REQ-A -/
  waiting : List AqEntry := []
  reclaiming : Bool := false
  homeReset : Bool := false
  flushing : Bool := false
deriving DecidableEq, Repr

/-- A write-back on its way to its home (R354, R355). -/
structure WriteBack where
  agent : Nat
  line : Nat
  data : BitVec 512
  poison : Bool
  keep : Bool
  /-- notice of a discarded line (InvN) instead of data -/
  invn : Bool := false
  /-- a snoop has been answered from it: the home will drop it -/
  stale : Bool := false
  /-- it has been counted as held for the freeze (R412) -/
  waited : Bool := false
deriving DecidableEq, Repr

/-- A stash waiting behind its write (R360). [log 98 DEDUCED] -/
structure Stash where
  agent : Nat
  line : Nat
deriving DecidableEq, Repr

/-- One entry of the dead set (Table 11-10). -/
structure DeadEntry where
  agent : BitVec 13
  mask : BitVec 13
deriving DecidableEq, Repr

/-- Everything the homes and the message channels hold. -/
structure Coh where
  dir : FMap DirEntry := []
  lines : FMap (Option SliceLine) := []
  slices : FMap Slice := []
  /-- lines that sector reads have brought and no requester has taken yet, with their poison (R380) -/
  fills : FMap (Option (BitVec 512 × Bool)) := []
  txns : List Txn := []
  /-- requests on their way to their home, oldest first -/
  reqs : List HomeReq := []
  /-- requests waiting behind a transaction, in the order they reached their home -/
  queue : List HomeReq := []
  dats : List DatMsg := []
  wbs : List WriteBack := []
  stashes : List Stash := []
  /-- requests that received a retry-later NACK (R46) -/
  nacked : List HomeReq := []
  /-- the dead set, the same in every slice -/
  dead : List DeadEntry := []
  /-- poison log of each die, oldest first -/
  logs : FMap (List (BitVec 128)) := []
deriving DecidableEq, Repr

/-! ### HBM (chapter 12) -/

/-- A read that waits in a class queue of a pseudo-channel (R382, R383). -/
structure PcRead where
  /-- the line as its home names it, and the storage line behind it -/
  line : Nat
  store : Nat
  /-- Table 12-4: 0 LC, 1 BULK, 2 TIER, 3 SCRUB -/
  cls : Nat
  /-- a sector access (R379): the sector -/
  sector : Option Nat := none
  /-- its arrival -/
  since : Nat
deriving DecidableEq, Repr

/-- A write held for the stack (R382). -/
structure HeldWrite where
  line : Nat
  data : BitVec 512
  poison : Bool
  cls : Nat := 1
  /-- a sector write (R379) -/
  part : Bool := false
deriving DecidableEq, Repr

/-- What a request comes to that is performed again after a retrain (R394). -/
structure AfterTrain where
  line : Nat
  isWrite : Bool
  cls : Nat
  sector : Nat
  ok : Bool
deriving DecidableEq, Repr

/-- A pseudo-channel (R382 to R384, R394 to R397). -/
structure Pc where
  due : Bool := false
  forced : Bool := false
  training : Bool := false
  /-- a training attempt has failed once -/
  failedOnce : Bool := false
  degraded : Bool := false
  /-- temperature and time at the last training -/
  lastTemp : Nat := 0
  lastTrained : Nat := 0
  dueSince : Nat := 0
  /-- held writes, oldest first: lines with their bytes and poison (R382, R390) -/
  writes : List HeldWrite := []
  /-- reads that wait, in the order of their arrival -/
  reads : List PcRead := []
  /-- the last accesses, newest first, fifteen at most: whether each was LC (R383) -/
  recent : List Bool := []
  /-- the class whose turn it is in the rotation, and the accesses it has taken in it (R384) -/
  turn : Nat := 1
  taken : Nat := 0
  /-- requests to perform again after the retrain under R394 -/
  after : List AfterTrain := []
  /-- the next row of the pseudo-channel to refresh -/
  refreshes : Nat := 0
deriving DecidableEq, Repr

/-- An HBM3 controller with its stack. -/
structure Hbm where
  /-- MODE: 0 line, 1 sector; and MODE_NEXT -/
  mode : Bool := false
  modeNext : Bool := false
  selfRefresh : Bool := false
  refresh2x : Bool := false
  throttled : Bool := false
  saveFirst : Bool := false
  temp : Nat := 0
  tempMax : Nat := 0
  pcs : FMap Pc := []
  /-- the next line of patrol scrub in each pseudo-channel, and completed passes -/
  scrubPos : BitVec 25 := 0
  scrubPasses : BitVec 7 := 0
  scrubBehind : Bool := false
  /-- the pseudo-channels that have read line POS already (R392) -/
  scrubMask : BitVec 32 := 0
  /-- the scrub schedule: time spent out of self-refresh up to a moment, that moment, and the lines read of each pseudo-channel (R393) -/
  scrubTime : Nat := 0
  scrubMark : Nat := 0
  scrubDone : Nat := 0
  /-- self-refresh waits for a retrain in progress; retrains on exit still run (R398) -/
  entering : Bool := false
  leaving : Bool := false
  /-- activity counters (Table 12-10) -/
  counters : FMap (BitVec 64) := []
  /-- error log, oldest first -/
  log : List (BitVec 128) := []
  /-- RETRAIN_PC: pseudo-channel of the current or last retrain -/
  retrainPc : BitVec 5 := 0
  /-- pseudo-channels due, in the order they became due (R395) -/
  dueList : List Nat := []
  /-- the stack has been brought up -/
  up : Bool := false
  /-- every location was written with the poison pattern (R542): the lines listed as poisoned are those not poisoned since -/
  poisonFill : Bool := false
deriving DecidableEq, Repr

/-! ### The deep tier (chapter 13) -/

/-- TIER_STATUS.STATE (Table 13-5). -/
inductive TierState where
  | unmounted | mounting | mounted | readOnly
deriving DecidableEq, Repr

/-- A tier page: heat, residence and the state of its 32 sub-blocks (R400 to R416). -/
structure TierPage where
  heat : Nat := 0
  /-- the frame that holds it -/
  frame : Option Nat := none
  valid : BitVec 32 := 0
  dirty : BitVec 32 := 0
  /-- the access count at its last access (R406) -/
  last : Nat := 0
  promoting : Bool := false
  evicting : Bool := false
  /-- sub-blocks in the order the promotion reads them (R408) -/
  order : List Nat := []
  /-- flash units of the promotion that have arrived, and the retry rung of the others (R419) -/
  arrived : BitVec 128 := 0
  rungs : FMap Nat := []
  /-- sub-blocks whose write-back is in flight: their data as it stood when it began (R415) -/
  writing : List Nat := []
  /-- the eviction's recalls are done (R414); the wanted page that it makes room for (R408) -/
  recalled : Bool := false
  wanted : Option Nat := none
  failed : Bool := false
  /-- flash units recorded as poisoned (R420, R421) -/
  lost : BitVec 128 := 0
deriving DecidableEq, Repr

/-- An access held at its home for a sub-block (R409). -/
structure Held where
  agent : Nat
  line : Nat
  since : Nat
  /-- counted in STALL_LATE -/
  late : Bool := false
  write : Bool := false
  req : Option HomeReq := none
deriving DecidableEq, Repr

/-- The deep tier. -/
structure Tier where
  state : TierState := .unmounted
  /-- TIER_SIZE, and SIZE_NEXT -/
  size : Nat := 0
  sizeNext : Nat := 0
  /-- the size that stage 6 fixed for the interleaved view (R530), and the size at the mount before this one -/
  viewSize : Nat := 0
  lastSize : Nat := 0
  /-- lines of the interleaved view that the mount made part of it: their contents are undefined until written (R402); which draw they
  are, and the storage lines written since -/
  gained : Option (Nat × Nat) := none
  gainDraw : Nat := 0
  gainWritten : FMap Bool := []
  unclean : Bool := false
  budgetSpent : Bool := false
  spareLow : Bool := false
  /-- FROZEN (R412) -/
  frozen : Bool := false
  flushing : Bool := false
  /-- pages by number -/
  pages : FMap TierPage := []
  /-- flash contents of the deep window, by offset in it -/
  flash : FMap Byte := []
  /-- data of write-backs in flight, by offset in the deep window -/
  inFlight : FMap (Option Byte) := []
  /-- pages wanted by demand misses, then by heat promotions and hints (marked true), each oldest first (R407) -/
  demand : List Nat := []
  hints : List (Nat × Bool) := []
  held : List Held := []
  /-- lines whose requester, turned away by R423, takes poison when it comes again -/
  flashStall : List Nat := []
  /-- deep-window accesses served, and accesses sampled (R405, R406) -/
  accesses : Nat := 0
  samples : Nat := 0
  /-- the beat at which the last heat epoch ended -/
  epochBeat : Nat := 0
  /-- the account of R417 in units of 1/86,400 byte -/
  account : Nat := 0
  overrun : Nat := 0
  written : Nat := 0
  internal : Nat := 0
  promotions : Nat := 0
  evictions : Nat := 0
  /-- failed-page log, oldest first -/
  log : List (BitVec 128) := []
  /-- flash units, as page × 128 + unit, whose blocks are queued for refresh (R419) -/
  refreshDue : List Nat := []
  /-- TIER_WEAR (R430), in % -/
  wearAvg : BitVec 8 := 0
  wearMax : BitVec 8 := 0
  sparePct : BitVec 8 := 100
  /-- the module was reset while the tier was mounted; the newest dirty map stands for that reset (R428) -/
  resetMounted : Bool := false
  mapDue : Bool := false
  /-- spare blocks are left -/
  spares : Nat := 1
deriving DecidableEq, Repr

/-! ### Kerly links and the herd (chapter 14) -/

/-- LINK_STATUS.STATE (Table 14-10). -/
inductive LinkState where
  | down | training | up | upDegraded
deriving DecidableEq, Repr

/-- What a sequenced flit carries, as the retry buffer keeps it (R437). -/
inductive FlitBody where
  | msg (m : FlitMsgs)
  | topo (r : TopoRec)
deriving DecidableEq, Repr

/-- A link end. -/
structure Link where
  state : LinkState := .down
  width : BitVec 6 := 0
  sparesUsed : BitVec 2 := 0
  /-- LINK_LANES and LINK_LANES_HI -/
  failedLanes : BitVec 34 := 0
  held : Bool := false
  /-- SEQ of the next sequenced flit sent, and of the next one expected -/
  txSeq : BitVec 12 := 0
  rxSeq : BitVec 12 := 0
  /-- discarding until the expected flit arrives good -/
  discarding : Bool := false
  /-- sequenced flits kept until acknowledged, oldest first -/
  retry : List (BitVec 12 × FlitBody) := []
  /-- flits waiting for room or credits -/
  txq : List FlitBody := []
  /-- slots sent beyond the credits returned, by class; slots received and drained whose credits are to be returned (R436) -/
  used : FMap Nat := []
  owed : FMap Nat := []
  /-- the ACK of the last NAK, and how many in a row have named it (R438) -/
  nakAck : BitVec 12 := 0
  nakRun : Nat := 0
  /-- time of the last flit with a good CRC -/
  lastGood : Nat := 0
  /-- the peer as its DISC flit gave it -/
  peer : Option Disc := none
  version : BitVec 8 := 0
  /-- the cable is present (CBL_PRES_N low); on-module links are always present -/
  cable : Bool := false
  /-- the port is looped to its own module and held DOWN (R445) -/
  looped : Bool := false
deriving DecidableEq, Repr

/-- A herd request sent and not answered (R453, R455). -/
structure OutReq where
  msg : HerdMsg
  tries : Nat := 1
  sentAt : Nat
  receipt : Bool := false
  /-- the Mule descriptor (start number) a Mule's request is for -/
  desc : Nat := 0
deriving DecidableEq, Repr

/-- The ingress record of a source module (R454). -/
structure Ingress where
  next : Nat := 0
  /-- the answers kept, by request number, newest first, at most 128 -/
  kept : List (Nat × HerdMsg) := []
deriving DecidableEq, Repr

/-- A topology table entry's record and standing (R450, R451, R462). -/
structure TopoEntry where
  record : Option TopoRec := none
  dead : Bool := false
  /-- the primary route's first port and the modules it crosses; first ports of equal primary routes; the alternate's first port -/
  route : Option (Nat × Nat) := none
  ports : List Nat := []
  alt : Option Nat := none
deriving DecidableEq, Repr

/-- The herd switch and ingress. [log 9 DESIGN CHOICE] -/
structure Herd where
  module : BitVec 9 := 511
  attached : Bool := false
  attaching : Bool := false
  bellwether : Bool := false
  bellModule : BitVec 9 := 511
  mcastBusy : Bool := false
  /-- lines of a multicast send not yet sent: source address and destination offset; its group and SELF -/
  mcast : List (Nat × Nat) := []
  mcastGroup : Nat := 0
  mcastSelf : Bool := false
  /-- bytes 0 to 7 of the identity digest (R444, R586) -/
  identity : BitVec 64 := 0
  topo : FMap TopoEntry := []
  recSeq : Nat := 0
  /-- request numbers by destination, unanswered requests and requests waiting for room, oldest first -/
  nums : FMap Nat := []
  unanswered : List OutReq := []
  waiting : List OutReq := []
  /-- messages for this module not yet served, and requests that the ingress has issued and that have not landed (R454) -/
  inbox : List HerdMsg := []
  issued : List HerdMsg := []
  ingress : FMap Ingress := []
deriving DecidableEq, Repr

/-! ### The host port and the command rings (chapter 15) -/

/-- HOST_STATUS.STATE (Table 15-9). -/
inductive HostState where
  | attached | detaching | detached | replaying
deriving DecidableEq, Repr

/-- Whom a request to the host window is for. -/
inductive HostWho where
  /-- a Hen's read; a Hen's write (its agent ID) -/
  | henRead (agent : Nat)
  | henWrite (agent : Nat)
  /-- a Mule's descriptor: the Mule's agent ID and the descriptor's start number -/
  | mule (agent : Nat) (desc : Nat)
  /-- ring r reads a slot, or the record or descriptor of its current command -/
  | slot (r : Nat)
  | body (r : Nat)
  /-- a WRITE of ring r by SEQ; a completion record of ring r, with MSI-X once it has landed -/
  | cmd (r : Nat) (seq : Nat)
  | record (r : Nat) (irq : Bool)
  /-- an application core's read, by core -/
  | coreRead (c : Nat)
  | coreWrite (c : Nat)
  /-- the system cache fetches a line for a core, or writes a line back -/
  | sysFill (c : Nat) (own : Bool)
  | sysBack
deriving DecidableEq, Repr

/-- The CXL.cache operations of the port's requester (R468). -/
inductive CxlOp where
  | rdCurr | itoMWr | woWrInv | rdShared | rdOwn | cleanEvict | dirtyEvict
deriving DecidableEq, Repr

/-- A device-initiated access to the host window (R468): a read of a line, or a write of the masked bytes. -/
structure HostReq where
  num : Nat
  who : HostWho
  line : Nat
  write : Bool
  data : BitVec 512 := 0
  mask : BitVec 64 := 0
  poison : Bool := false
  /-- sent through the port; not sent while detached, held or blocked -/
  sent : Bool := true
  /-- made while the module was not attached, so that it stalled before it was first sent (R492) -/
  stalled : Bool := false
  /-- a read sent before bus-master enable was cleared: its data is discarded (R488) -/
  discard : Bool := false
  /-- sent as UIO (R468) -/
  uio : Bool := false
deriving DecidableEq, Repr

/-- A command of a ring that has been read from its slot (R475 to R484). -/
structure RingCmd where
  w : BitVec 512
  seq : Nat
  started : Bool := false
  /-- ended: status and result; its record is written or not due -/
  done : Option (Nat × Nat) := none
  /-- a refused push is being repeated (R480) -/
  retry : Bool := false
  /-- the record or descriptor that the command pushes, once read -/
  body : Option (BitVec 512 × Bool) := none
  /-- a record is due even without CPL (R482) -/
  mustRecord : Bool := false
deriving DecidableEq, Repr

/-- A command ring (R474 to R485, Tables 15-7, 15-10 and 15-11). -/
structure Ring where
  en : Bool := false
  /-- CQ_LOG2 -/
  cqLog2 : BitVec 4 := 0
  base : BitVec 56 := 0
  cqBase : BitVec 56 := 0
  /-- slots read since EN was set -/
  head : Nat := 0
  /-- RING_DB -/
  db : BitVec 16 := 0
  /-- slots announced since EN was set -/
  upTo : Nat := 0
  cqHead : BitVec 16 := 0
  /-- completion records written since EN was set -/
  cqPos : Nat := 0
  haltCause : BitVec 2 := 0
  polling : Bool := false
  /-- rereads of the early slot; polling has timed out -/
  polls : Nat := 0
  timedOut : Bool := false
  waitCq : Bool := false
  waitHost : Bool := false
  waitHeld : Bool := false
  /-- a slot read through the herd or the host window that has returned: data, poisoned, and the status of Table 15-5 where it failed -/
  slot : Option (BitVec 512 × Bool × Nat) := none
  cmds : List RingCmd := []
deriving DecidableEq, Repr

/-- A line of the peer prefetch buffer (R471). -/
structure PeerLine where
  line : Nat
  data : BitVec 512
  poison : Bool
deriving DecidableEq, Repr

/-- The host port. -/
structure HostPort where
  state : HostState := .detached
  bme : Bool := false
  linkUp : Bool := false
  /-- WIDTH and RATE of Table 15-9 -/
  width : BitVec 2 := 0
  rate : Bool := false
  /-- records in the held-completion ring, oldest first: ring, IRQ and record (R493); their bytes stand in memory too -/
  held : List (Nat × Bool × BitVec 128) := []
  heldPos : Nat := 0
  /-- requests to the host window not completed, in the order issued -/
  reqs : List HostReq := []
  nextReq : Nat := 0
  /-- session token, and the entropy draws made -/
  token : BitVec 64 := 0
  /-- the liveness deadline of HOST_PULSE -/
  deadline : Option Nat := none
  /-- prefetch buffer, most recently used first -/
  prefetch : List PeerLine := []
  fences : BitVec 16 := 0
  rings : FMap Ring := []
  /-- LOST_LOG, oldest first, and the detach count -/
  lostLog : List (BitVec 128) := []
  detaches : Nat := 0
  peerBase : BitVec 64 := 0
  uioBase : FMap (BitVec 64) := []
  uioLimit : FMap (BitVec 64) := []
deriving DecidableEq, Repr

/-! ### The application cores and the system cache (chapter 16) -/

/-- A line of the system cache (agent 0x100): its state in the module's or the host's coherence, and the cores whose L2 holds it. [log 143 DEDUCED] -/
structure SysLine where
  st : LineState
  data : BitVec 512
  poison : Bool := false
  /-- M in the sense of R505: an L2 or the system cache has written it -/
  dirty : Bool := false
  /-- cores whose L2 holds the line -/
  holders : List Nat := []
  /-- locked in the system cache (the management window, R533) -/
  locked : Bool := false
deriving DecidableEq, Repr

/-- What an application core waits for. [log 136 DESIGN CHOICE] -/
inductive CoreWait where
  | none
  /-- a cached load of `size` bytes, a store of `v`, CBO.ZERO, LR, SC, and an AMO on a host line: they wait for their lines -/
  | load (pa : Nat) (size : Nat)
  | store (pa : Nat) (size : Nat) (v : BitVec 64)
  | zero (pa : Nat)
  | lr (pa : Nat) (size : Nat)
  | sc (pa : Nat) (size : Nat) (v : BitVec 64)
  | sysAmo (pa : Nat) (size : Nat) (code : Nat) (v : BitVec 64)
  /-- an AMO answered by its home -/
  | amo (pa : Nat) (size : Nat)
  /-- an uncached load through the herd or the host window, by request key, with the lines already read; a herd AMO -/
  | remote (pa : Nat) (size : Nat) (key : Nat) (got : List (Nat × BitVec 512))
  | remoteAmo (pa : Nat) (size : Nat) (key : Nat)
  /-- FENCE waits until the core's writes have landed; a cache-block operation until its line has landed -/
  | fence
  | cbo (line : Nat)
deriving DecidableEq, Repr

/-- The exception an access raises (R499, R500, R508). [log 136 DESIGN CHOICE] -/
inductive CoreFault where
  | loadAccess | storeAccess
deriving DecidableEq, Repr

/-- What the module holds of an application core beside the RISC-V state of R498. [log 136 DESIGN CHOICE] -/
structure Core where
  /-- the value that the last load, LR, SC or AMO returned to the core -/
  value : BitVec 64 := 0
  /-- the access fault last raised, with xtval -/
  fault : Option (CoreFault × Nat) := none
  wait : CoreWait := .none
  /-- the line reserved by LR in L2 -/
  resv : Option Nat := none
  /-- writes retired and not landed: herd and host request numbers (R314, R506) -/
  unlanded : List Nat := []
  /-- addresses of retired stores that received the response of R27, and of those lost -/
  errStores : List (BitVec 56) := []
  lostStores : List (BitVec 56) := []
  /-- local interrupts 16 and 17 -/
  int16 : Bool := false
  int17 : Bool := false
  errAddr : BitVec 56 := 0
deriving DecidableEq, Repr

/-- Clock, clusters, system cache and cores. -/
structure Acores where
  curClk : BitVec 4 := 0
  /-- the code a change in progress moves to -/
  stepTo : Option (BitVec 4) := none
  /-- cluster domains (Table 16-4): 0 OFF, 1 RETENTION, 2 ON; an unlisted cluster is ON, the reset value of CLUSTER -/
  clusters : FMap (BitVec 2) := []
  /-- clusters switched ON and not yet usable -/
  waking : List Nat := []
  sys : FMap (Option SysLine) := []
  /-- the lines of the system cache, most recently used first -/
  lru : List Nat := []
  cores : FMap Core := []
deriving DecidableEq, Repr

/-! ### Bring-up, fuses, the retained record and service (chapter 17) -/

/-- The fuse map of an A-die (R526): bad flocks, Oxen and Hens, and the repairs made at manufacture (as Ox repair maps keyed
16 f + 4 o + a), with REVISION and FEATURES of the die (R531). -/
structure DieFuse where
  badFlocks : BitVec 26 := 0
  badOxen : List Nat := []
  badHens : List Nat := []
  oxRepair : FMap (BitVec 32) := []
  revision : BitVec 2 := 0
  features : BitVec 32 := 0
deriving DecidableEq, Repr

/-- The C-die's fuses (R2, R559 to R562, R566, R586). [log 10 DESIGN CHOICE] -/
structure Fuses where
  /-- 0 A, 1 B, 2 C -/
  variant : BitVec 2 := 0
  dies : FMap DieFuse := []
  mac : BitVec 48 := 0
  serial : BitVec 64 := 0
  rootDigest : BitVec 512 := 0
  /-- owner slots: digest, ACTIVE, REVOKED -/
  ownerDigest : FMap (BitVec 512) := []
  ownerActive : BitVec 4 := 0
  ownerRevoked : BitVec 4 := 0
  ownerRequired : Bool := false
  /-- anti-rollback counters: stage-1, A-die Hen, management Hen -/
  rollback : FMap Nat := []
  glitches : Nat := 0
  zeroised : Bool := false
  /-- hardware unique key, and the identity key pair (fused at the first cold start) -/
  huk : BitVec 256 := 0
  idPublic : Option (BitVec 256) := none
  idPrivate : BitVec 256 := 0
deriving DecidableEq, Repr

/-- A boot-area slot's image set, and whether it has been marked failed since the last power-on. -/
structure BootSlot where
  stage1 : Option Image := none
  aHen : Option Image := none
  mHen : Option Image := none
  failed : Bool := false
deriving DecidableEq, Repr

/-- What the retained record holds beside the retained register fields, which stand in their units (R518). -/
structure Retained where
  /-- repair maps of the Oxen, keyed (die × 26 + flock) × 16 + 4 o + a -/
  oxRepair : FMap (BitVec 32) := []
  flockSet : FMap (BitVec 26) := []
  badOxen : List Nat := []
  badHens : List Nat := []
  /-- HBM training values present, by pseudo-channel, and the degraded sets by controller -/
  trained : List Nat := []
  degraded : FMap (BitVec 32) := []
  /-- rows pending post-package repair: controller, pseudo-channel, bank and row -/
  pending : List (Nat × Nat × Nat × Nat) := []
  dieIds : FMap (BitVec 2 × BitVec 32) := []
  /-- fields marked retained: FORCE_COLD, SIZE_NEXT, PREF_NUM; MODE_NEXT by controller -/
  forceCold : Bool := false
  sizeNext : Nat := 0
  prefNum : BitVec 9 := 511
  modeNext : FMap Bool := []
  /-- the warm token, which matches the record (R520, R521) -/
  token : Bool := false
  /-- WARM_WHY of a start that finds no token: 3, or 6 where a fuse vote cleared it -/
  tokenWhy : BitVec 4 := 3
  /-- the record votes (R519) -/
  voteOk : Bool := true
deriving DecidableEq, Repr

/-- The service step in progress (R540). -/
structure SvcStep where
  step : Nat
  die : Nat
  flock : Nat
  opt : BitVec 2
deriving DecidableEq, Repr

/-- The service state of an A-die: the steps ended since the last one that undoes them (Table 17-6's preconditions). -/
structure SvcDie where
  /-- the last step completed, SVC_STATE of Table 17-12 -/
  last : Nat := 0
  quiesced : Bool := false
  flushed : Bool := false
  inReset : Bool := false
  added : Bool := false
  tested : Bool := false
  hbmUp : Bool := false
  loaded : Bool := false
  rejoined : Bool := false
  /-- flocks for which FLOCK_ON passed, and then LOAD_FW ended -/
  flockOn : List Nat := []
  flockLoaded : List Nat := []
  /-- flocks good at the last test -/
  goodFlocks : BitVec 26 := 0
deriving DecidableEq, Repr

/-- Firmware distribution (R532 to R537). -/
structure FwDist where
  /-- recipients by agent ID with the chunks each still misses -/
  missing : FMap (List Nat) := []
  rounds : Nat := 0
  running : Bool := false
  digest : BitVec 512 := 0
deriving DecidableEq, Repr

/-- The bring-up block. -/
structure Boot where
  stage : Nat := 0
  ready : Bool := false
  warm : Bool := false
  /-- a fuse map or repair group has failed its vote (R523, R526) -/
  degraded : Bool := false
  fuseFault : Bool := false
  stopped : Bool := false
  /-- the input stage charges the bank; MOD_RESET_N low; the Goose's holds stand in Goose -/
  resetPin : Bool := false
  /-- the module is in reset; the always-on domains are powered (R517) -/
  inReset : Bool := false
  powered : Bool := true
  cause : BitVec 5 := 1#5
  warmWhy : BitVec 4 := 1#4
  warmTaken : Bool := false
  /-- the time the reset ended, and the stage began -/
  resetAt : Nat := 0
  stageAt : Nat := 0
  modRev : BitVec 2 := 0
  minRev : BitVec 2 := 0
  mixed : Bool := false
  linkVersion : BitVec 8 := 0
  features : BitVec 32 := 0
  dieFeatures : FMap (BitVec 32) := []
  dieRev : FMap (BitVec 2) := []
  dieFuseFault : FMap Bool := []
  svcBusy : Option SvcStep := none
  svcResult : BitVec 2 := 0
  svcLast : BitVec 4 := 0
  svcHeld : Bool := false
  svcDies : FMap SvcDie := []
  restoring : Bool := false
  restoreBad : BitVec 32 := 0
  restoreSkip : BitVec 32 := 0
  updFailed : Bool := false
  updDone : Bool := false
  /-- a SEND in progress: modules that still miss chunks -/
  sending : Option FwDist := none
  fwStage : BitVec 64 := 0
  /-- stage reports, newest first -/
  reports : List (BitVec 512) := []
  bootCount : BitVec 64 := 0
  /-- SAVE_INFO as stage 8 left it, with the sequence number of the seal it found and the regions whose digest failed (R538) -/
  saveInfo : BitVec 256 := 0
  sealFound : Option Nat := none
  digestBad : BitVec 32 := 0
  dist : FwDist := {}
  slots : FMap BootSlot := []
  /-- the slot stage 2 chose, and the preference of R554 for the other -/
  slot : Nat := 0
  preferOther : Bool := false
  retained : Retained := {}
  /-- rows repaired and other findings of stage 6, by stack -/
  mgmtStarted : Bool := false
  /-- the port takes a link-local address (R559) -/
  linkLocal : Bool := false
  /-- a recovery transfer is accepted -/
  recovery : Bool := false
  /-- the images the A-die Hens and the management Hen run -/
  runA : Option Image := none
  runM : Option Image := none
deriving DecidableEq, Repr

/-! ### The Goose, telemetry and security (chapter 18) -/

/-- The Goose. -/
structure Goose where
  cause : BitVec 4 := 0
  alert : Bool := false
  lockout : Bool := false
  armed : Bool := false
  /-- the next pet value expected is 0x5A -/
  expect5A : Bool := true
  /-- the end of the current heartbeat window, and windows missed in a row -/
  windowEnd : Nat := 0
  missed : Nat := 0
  /-- the times of the safety resets of the last 10 minutes (R554) -/
  resets : List Nat := []
  /-- conditions that hold the reset (R552): mclk, Kerly reference, C-die temperature -/
  heldMclk : Bool := false
  heldRef : Bool := false
  heldTemp : Bool := false
deriving DecidableEq, Repr

/-- A telemetry FIFO (R556 to R558): entries by word number modulo 512 with their start flags. [log 168 DEDUCED] -/
structure TelFifo where
  words : FMap (BitVec 64) := []
  starts : FMap Bool := []
  wr : BitVec 10 := 0
  rd : BitVec 10 := 0
  lastWord : BitVec 64 := 0
  underrun : Bool := false
deriving DecidableEq, Repr

/-- An entry of the measurement log. [log 163 DESIGN CHOICE] -/
structure MrEntry where
  digest : BitVec 512
  info : BitVec 512
deriving DecidableEq, Repr

/-- The security block. -/
structure Security where
  entropyFail : Bool := false
  /-- draws from the entropy source -/
  draws : Nat := 0
  /-- scopes in force (TRACE, HALT, ACORE), invasive scopes granted for the next start, and LAST_BOOT -/
  scopes : BitVec 3 := 0
  nextScopes : BitVec 3 := 0
  lastBoot : BitVec 64 := 0
  quoteReady : Bool := false
  /-- a quote in progress: its nonce -/
  quoteFor : Option (BitVec 256) := none
  quote : BitVec 512 := 0
  quoteHdr : BitVec 512 := 0
  /-- the next QUOTE read returns the header line -/
  quoteTurn : Bool := false
  mrs : FMap (BitVec 512) := []
  log : List MrEntry := []
  /-- the nonce last read and not used, and the key nonce -/
  debugNonce : Option (BitVec 256) := none
  keyNonce : BitVec 256 := 0
  token0 : BitVec 512 := 0
  /-- derived keys stand in the key registers -/
  keysLoaded : Bool := false
deriving DecidableEq, Repr

/-! ### Mailboxes and shadow windows (chapter 19) -/

/-- The mailbox of a register block (R578 to R582). [log 172 DEDUCED] -/
structure Mbx where
  addr : BitVec 12 := 0
  dir : Bool := false
  part : Bool := false
  arg : BitVec 8 := 0
  valid : Bool := false
  err : Bool := false
  busy : Bool := false
  /-- the agent whose transfer is in progress -/
  user : BitVec 13 := 0
  held : Bool := false
  owner : BitVec 13 := 0
  data : BitVec 256 := 0
  /-- bits [255:0] staged by a PART = 0 write: address, ARG, value -/
  staged : Option (BitVec 12 × BitVec 8 × BitVec 256) := none
  /-- snapshots of the last PART = 0 reads, by address × 8192 + agent -/
  snaps : FMap (Option (BitVec 512)) := []
deriving DecidableEq, Repr

/-- A shadow latch (R584): agent, offset S, bits [63:32]. [log 175 DEDUCED] -/
structure Latch where
  agent : BitVec 13
  off : Nat
  hi : BitVec 32
deriving DecidableEq, Repr

/-! ### The boundary -/

/-- An address-error response (R27): the agent that received it, and whether its cause is POWERED (R49). [log 211 DEDUCED] -/
structure ErrResp where
  agent : Nat
  powered : Bool
deriving DecidableEq, Repr

/-- What the module sends across its boundary in answer to the commands: read data and completions. [log 18 DESIGN CHOICE] -/
inductive Output where
  /-- a host CXL.mem read's data: line, data, poisoned -/
  | hostData (line : Nat) (d : BitVec 512) (poison : Bool)
  /-- an access ended with an error completion -/
  | hostError (addr : Nat)
  /-- the completion of a host write, which has landed -/
  | hostDone (line : Nat)
  /-- a back-invalidation snoop of a line (BISnp) -/
  | biSnoop (line : Nat)
  /-- a BAR4 read's data -/
  | peerData (off : Nat) (d : BitVec 512) (poison : Bool)
  /-- data returned to a register read -/
  | regData (agent : Nat) (w : BitVec 32)
  | msix (ring : Nat)
  /-- a request of the module to host memory: its number, its CXL.cache operation, and whether it goes as UIO through the switch (R468) -/
  | hostReq (num : Nat) (op : CxlOp) (uio : Bool)
  /-- the answer to a host CXL.cache snoop: line, data if it was dirty -/
  | snoopAnswer (line : Nat) (d : Option (BitVec 512))
  /-- a flit sent on a link end, with its header (Table 14-2) -/
  | flit (link : Nat) (h : BitVec 64) (b : FlitBody)
  | nak (link : Nat) (h : BitVec 64)
  | idle (link : Nat) (h : BitVec 64)
  | fail (link : Nat) (h : BitVec 64)
  /-- a DISC flit, with bytes 0 to 18 of its payload (Table 14-5) -/
  | disc (link : Nat) (h : BitVec 64) (p : BitVec 152)
  /-- ALERT_N -/
  | alert (asserted : Bool)
deriving DecidableEq, Repr

/-- Writes of fuses that a command has asked of the fuse bank (R560, R561, R562, R566). -/
inductive Blow where
  /-- advance anti-rollback counter i to at least v -/
  | rollback (i : Nat) (v : Nat)
  /-- write an owner slot's key digest and set ACTIVE -/
  | owner (slot : Fin 4) (digest : BitVec 512)
  | revoke (slot : Fin 4)
  | glitch
  /-- fuse the identity key pair generated at the first cold start -/
  | identity (pub priv : BitVec 256)
deriving DecidableEq, Repr

/-- The working state: everything that commands change beside the queue of commands and the fuse bank. -/
structure Mach where
  /-- time since the first power-on -/
  now : Nat := 0
  out : List Output := []
  /-- stored register fields and 16-bit W1C counters by device-space offset (R569, R574); an unlisted register holds the value of
  Machine/Ids.lean: regReset -/
  regs : FMap (BitVec 32) := []
  /-- VIN and VBUS as the input stage last saw them stand in gov -/
  beat : Beat := {}
  site : Site := {}
  gov : Gov := {}
  lean : Lean := {}
  save : Save := {}
  /-- beat scheduler entries, keyed 64 × die number + entry -/
  sched : FMap (BitVec 64) := []
  /-- A-dies A0 to A3, keyed 0 to 3 -/
  dies : FMap Die := []
  oxen : FMap Ox := []
  hens : FMap Hen := []
  collies : FMap Collie := []
  syncs : FMap SyncUnit := []
  mules : FMap Mule := []
  /-- flock memory by physical address; poisoned lines, and lines with a latent error (1 single-bit, 2 double-bit), by line -/
  fm : Memory := []
  fmPoison : FMap Bool := []
  fmUpset : FMap (BitVec 2) := []
  /-- HBM by per-stack physical address; poisoned lines -/
  hbm : Memory := []
  hbmPoison : FMap Bool := []
  hbms : FMap Hbm := []
  coh : Coh := {}
  tier : Tier := {}
  links : FMap Link := []
  herd : Herd := {}
  host : HostPort := {}
  acores : Acores := {}
  boot : Boot := {}
  goose : Goose := {}
  sec : Security := {}
  tels : FMap TelFifo := []
  mbx : FMap Mbx := []
  latches : FMap (List Latch) := []
  /-- fuse values in force: read and voted in stage 1 (R523, R561) -/
  fused : Fuses := {}
  /-- the temperature last read from each die's sensors, keyed by die number (R585) -/
  temps : FMap Nat := []
  /-- the last address-error response sent to an agent of the module (R27, R49) -/
  errResp : Option ErrResp := none
  /-- fuse writes asked for in the present command -/
  blows : List Blow := []
  /-- the model's own counter of free values drawn -/
  free : Nat := 0
deriving DecidableEq, Repr

/-- The state of the module. -/
structure State where
  /-- commands waiting, the first to run at the front -/
  pending : List Instr
  /-- the fuse bank -/
  fuses : Fuses
  m : Mach
deriving DecidableEq, Repr

/-- Why the module stops with a fault. No command does: every command the spec describes has an effect, and an event that cannot
occur in a state leaves it as it is. `halted` is declared so that the type has a value; nobody raises it. Safe. [log 3 DESIGN CHOICE] -/
inductive Fault where
  | halted
deriving DecidableEq, Repr

/-- Why a command has no meaning. [log 3 DESIGN CHOICE] -/
inductive Refusal where
  /-- the command is not modelled; raised by the arms of exec that say so, and by no meaning. Safe. -/
  | notModelled (mnemonic : String)
deriving DecidableEq, Repr

/-- The module right after reset: every field at the value its table gives (R599), memory with nothing listed. [log 7 DESIGN CHOICE, 9 DESIGN CHOICE, 10 DESIGN CHOICE, 61 DESIGN CHOICE] -/
def State.reset : State := { pending := [], fuses := {}, m := {} }

end Machine
end Sys2Proof
end

