-- ==== Sys2Proof/Machine/Ids.lean ====
section
/-!
DEFINITION. Agent identifiers and locations (Tables 1-4 to 1-7), block offsets in device register space (Table 19-1), and the
access to each unit's state by agent ID.
-/
namespace Sys2Proof

/-! ### Agent identifiers (Table 1-6) -/

/-- The agent ID with the given die number, flock or block, and unit. -/
def agentId (die blk unit : Nat) : Nat := die * 1024 + blk * 32 + unit

/-- DIE, FLOCK or BLOCK, and UNIT of an agent ID. -/
def agentDie (a : Nat) : Nat := a / 1024
def agentBlk (a : Nat) : Nat := (a / 32) % 32
def agentUnit (a : Nat) : Nat := a % 32

/-- The base of a flock's agent IDs: unit 0 of the flock. -/
def flockBase (die flock : Nat) : Nat := agentId (die + 1) flock 0
def FlockId.base (f : FlockId) : Nat := flockBase f.die.val f.flock.val
def OxId.base (o : OxId) : Nat := flockBase o.die.val o.flock.val
def OxId.agent (o : OxId) : Nat := o.base + 16 + o.ox.val
def HenId.agent : HenId → Nat
  | .flock d f h => flockBase d.val f.val + h.val
  | .mgmt h => agentId 0 2 h.val
def MuleId.agent : MuleId → Nat
  | .flock d f m => flockBase d.val f.val + 20 + m.val
  | .die d m => agentId (d.val + 1) 26 m.val
  | .cdie m => agentId 0 3 m.val
/-- The Collie of the flock with base `fb`. -/
def collieOf (fb : Nat) : Nat := fb + 22
/-- The base of the flock an agent belongs to. -/
def flockOf (a : Nat) : Nat := a - agentUnit a
/-- Agent ID of a shared-cache slice. -/
def SliceId.agent (s : SliceId) : Nat := agentId (s.die.val + 1) 27 s.slice.val
def HbmId.agent (b : HbmId) : Nat := agentId (b.die.val + 1) 28 b.ctl.val
/-- Key of a controller among the twelve: its stack's number. -/
def HbmId.key (b : HbmId) : Nat := b.die.val * 3 + b.ctl.val

/-- Link ends are keyed 0 to 11 (A-die ports, 3 × die + port), 12 to 15 (the C-die's ends), 16 to 31 (herd ports). -/
def LinkId.key : LinkId → Nat
  | .adie d p => d.val * 3 + p.val
  | .cdie d => 12 + d.val
  | .herd p => 16 + p.val
/-- The attached host, the CXL port's requester, the system cache (Table 1-7). -/
def hostAgent : Nat := 0xA0
def portAgent : Nat := 0xA1
def sysAgent : Nat := 0x100
/-- The management processor's save engine (Table 1-6, R69). -/
def saveAgent : Nat := agentId 0 6 0

/-- The agent is of an A-die flock. -/
def isFlockAgent (a : Nat) : Bool := 1 ≤ agentDie a && agentDie a ≤ 4 && agentBlk a < 26
/-- The agent is a Hen: of a flock, or a management Hen. -/
def isHen (a : Nat) : Bool := (isFlockAgent a && agentUnit a < 16) || (agentDie a == 0 && agentBlk a == 2 && agentUnit a < 8)
def isOx (a : Nat) : Bool := isFlockAgent a && 16 ≤ agentUnit a && agentUnit a < 20
def isMgmtHen (a : Nat) : Bool := agentDie a == 0 && agentBlk a == 2 && agentUnit a < 8
def isCollie (a : Nat) : Bool := isFlockAgent a && agentUnit a == 22
def isMule (a : Nat) : Bool :=
  (isFlockAgent a && (agentUnit a == 20 || agentUnit a == 21)) || (1 ≤ agentDie a && agentDie a ≤ 4 && agentBlk a == 26 && agentUnit a < 4)
    || (agentDie a == 0 && agentBlk a == 3 && agentUnit a < 4)
def isSlice (a : Nat) : Bool := 1 ≤ agentDie a && agentDie a ≤ 4 && agentBlk a == 27 && agentUnit a < 16
def isAcore (a : Nat) : Bool := agentDie a == 0 && agentBlk a < 2 && agentUnit a < 24
def coreAgent (c : Nat) : Nat := agentId 0 (c / 24) (c % 24)

/-- The agent ID is assigned by Tables 1-6 and 1-7 (R19: the module issues no traffic with a reserved one). [log 24 DEDUCED] -/
def agentAssigned (a : Nat) : Bool :=
  let b := agentBlk a; let u := agentUnit a
  match agentDie a with
  | 0 => (b < 2 && u < 24) || (b == 2 && u < 8) || (b == 3 && u < 4) || (b == 4 && u < 2) || (b == 5 && u < 2) || (b == 6 && u == 0)
          || (b == 7 && u < 16) || (b == 8 && u == 0)
  | d => d ≤ 4 && ((b < 26 && u < 23) || (b == 26 && u < 4) || (b == 27 && u < 16) || (b == 28 && u < 3) || (b == 29 && u < 3)
          || (b == 30 && u < 2) || (b == 31 && u == 0))

namespace Machine

/-! ### Locations and scopes (R15, R16, R337) -/

/-- The location of an agent of this module (Table 1-4). Die numbers. -/
def agentLoc (a : Nat) : Loc :=
  if a = hostAgent then .module
  else if isFlockAgent a then .flock (agentDie a) (agentBlk a) else .die (agentDie a)

/-- The scope code of a location's own level; an agent of another module has widened its scopes at home (R16). -/
def Loc.level : Loc → Nat
  | .flock _ _ => 0
  | .die _ => 1
  | .module => 2
  | .herd _ => 0

/-- A named scope widened to the location's own (R16). [log 201 DEDUCED] -/
def widenScope (l : Loc) (s : Nat) : Nat := max l.level s

/-- Location `x` lies inside the unit that scope `s` names at location `l` (R337). [log 201 DEDUCED] -/
def Loc.inside (x l : Loc) (s : Nat) : Bool :=
  match widenScope l s with
  | 0 => x == l
  | 1 => match l, x with
    | .flock d _, .flock e _ => d == e
    | .flock d _, .die e => d == e
    | .die d, .flock e _ => d == e
    | .die d, .die e => d == e
    | _, _ => x == l
  | 2 => match l, x with
    | .herd _, _ | _, .herd _ => x == l
    | _, _ => true
  | _ => true

/-! ### Device register space: offsets from 0x00_7F00_0000_0000 (R571, Table 19-1) -/

def dieBase (d : Nat) : Nat := d * 0x100000000
/-- Offset in the flock register block of the flock with base `fb`. -/
def flockReg (fb off : Nat) : Nat := dieBase (agentDie fb) + agentBlk fb * 0x10000 + off
/-- Die management block of A-die A`d`. -/
def mgmtReg (d off : Nat) : Nat := dieBase (d + 1) + 0x200000 + off
def syncReg (d off : Nat) : Nat := dieBase (d + 1) + 0x210000 + off
def scReg (d off : Nat) : Nat := dieBase (d + 1) + 0x220000 + off
def hbmReg (d off : Nat) : Nat := dieBase (d + 1) + 0x230000 + off
def kerlyReg (d off : Nat) : Nat := dieBase (d + 1) + 0x240000 + off
/-- Telemetry block of die number `d`. -/
def telReg (d off : Nat) : Nat := if d = 0 then 0xB0000 + off else dieBase d + 0x250000 + off
def modReg (off : Nat) : Nat := off
def pwrReg (off : Nat) : Nat := 0x10000 + off
def bootReg (off : Nat) : Nat := 0x20000 + off
def cKerlyReg (off : Nat) : Nat := 0x50000 + off
def herdReg (off : Nat) : Nat := 0x60000 + off
def hostReg (off : Nat) : Nat := 0x70000 + off
def tierReg (off : Nat) : Nat := 0x80000 + off
def gooseReg (off : Nat) : Nat := 0x90000 + off
def secReg (off : Nat) : Nat := 0xA0000 + off

/-- The register set of a Hen (R204), of an Ox (R138), of a Mule (R312), of a slice (R371), of a controller (R399), of a link end (R463). -/
def henReg (a off : Nat) : Nat :=
  if isMgmtHen a then 0x30000 + 0x800 + 0x40 * agentUnit a + off else flockReg (flockOf a) (0x800 + 0x40 * agentUnit a + off)
def oxReg (a off : Nat) : Nat := flockReg (flockOf a) (0x400 + 0x40 * (agentUnit a - 16) + off)
def muleReg (a off : Nat) : Nat :=
  if agentDie a = 0 then 0x40000 + 0x40 * agentUnit a + off
  else if agentBlk a = 26 then mgmtReg (agentDie a - 1) (0x400 + 0x40 * agentUnit a + off)
  else flockReg (flockOf a) (0xC00 + 0x40 * (agentUnit a - 20) + off)
def sliceReg (sl off : Nat) : Nat := scReg (sl / 16) (0x100 * (sl % 16) + off)
def hbmSet (k off : Nat) : Nat := hbmReg (k / 3) (0x200 * (k % 3) + off)
def linkReg (k off : Nat) : Nat :=
  if k < 12 then kerlyReg (k / 3) (0x40 * (k % 3) + off) else if k < 16 then cKerlyReg (0x40 * (k - 12) + off)
  else herdReg (0x40 * (k - 16) + off)

/-- The value a stored register leaves reset with (the tables of chapters 02 to 19), by device offset; FUSE_CAP and the fields
computed from the units are not here. [log 10 DESIGN CHOICE, 183 DESIGN CHOICE] -/
def regReset (off : Nat) : BitVec 32 :=
  let d := off / 0x100000000
  let blk := off % 0x100000000 / 0x10000
  let o := off % 0x10000
  if d = 0 then
    match blk with
    | 1 => match o with
      | 0x08 => 0x00007060#32
      | 0x10 => 1100#32 ||| (1100#32 <<< 11)
      | 0x18 => 0xA1#32
      | _ => 0#32
    | 6 => if o = 0x408 then 0xFFFF01FF#32 else 0#32
    | 8 => match o with
      | 0x00 => 0x40#32
      | 0x08 => 0x01008420#32
      | 0x0C => 0x00080100#32
      | 0x10 => 39000#32
      | _ => 0#32
    | 9 => if o = 4 then 100#32 else 0#32
    | _ => 0#32
  else if blk < 26 then
    match o with
    | 0x00 => 1#32
    | 0x08 => 0x0004104C#32
    | 0x0C => 0x0007FFE0#32
    | 0x10 => 0x7FF#32
    | _ => 0#32
  else match blk with
    | 0x20 => if o = 0x200 then 0xE9#32 else 0#32
    | 0x22 => if o % 0x100 = 0 ∧ o < 0x1000 then 1#32 else 0#32
    | 0x23 => match o % 0x200 with
      | 0x0C => if o < 0x600 then 0xC148#32 else 0#32
      | 0x10 => if o < 0x600 then 0x8528#32 else 0#32
      | _ => 0#32
    | _ => 0#32

/-- The register holds 16-bit saturating W1C counters (the TRB registers of every block, R569). [log 22 DEDUCED] -/
def counterReg (off : Nat) : Bool :=
  let o := off % 0x10000
  let within (lo hi : Nat) : Bool := decide (lo ≤ o ∧ o ≤ hi)
  let set (first step n lo hi : Nat) : Bool :=
    decide (first ≤ o ∧ o < first + step * n) && decide (lo ≤ (o - first) % step ∧ (o - first) % step ≤ hi)
  decide (o % 4 = 0) && (o == 0xFF0C || o == 0xFF30 ||
  (if off / 0x100000000 = 0 then
    match off / 0x10000 with
    | 0 => o == 0xC
    | 1 => within 0x30 0x44
    | 2 => within 0x30 0x38
    | 3 => set 0x800 0x40 8 8 0x1C
    | 4 => set 0 0x40 4 0x10 0x18
    | 5 => set 0 0x40 4 0x10 0x1C
    | 6 => set 0 0x40 16 0x10 0x1C || within 0x410 0x41C
    | 7 => within 0x20 0x34
    | 8 => within 0x20 0x34
    | 9 => o == 0xC
    | 0xA => o == 8
    | 0xB => o == 8
    | _ => false
  else
    match off % 0x100000000 / 0x10000 with
    | 0x20 => o == 0x50 || o == 0x108 || o == 0x10C || set 0x400 0x40 4 0x10 0x18
    | 0x21 => o == 0
    | 0x22 => set 0 0x100 16 8 0x18
    | 0x23 => set 0 0x200 3 0x20 0x38
    | 0x24 => set 0 0x40 3 0x10 0x1C
    | 0x25 => o == 8
    | b => decide (b < 26) && (within 0x20 0x30 || o == 0x100 || set 0x400 0x40 4 0x10 0x24 || set 0x800 0x40 16 8 0x1C || set 0xC00 0x40 2 0x10 0x18)))

/-! ### Access to the units -/

namespace Mach

/-- A stored register. -/
def reg (m : Mach) (off : Nat) : BitVec 32 := FMap.get (regReset off) m.regs off
def setReg (m : Mach) (off : Nat) (v : BitVec 32) : Mach := { m with regs := FMap.set (regReset off) m.regs off v }
/-- A field of a stored register, as a number; a bit of it. -/
def fld (m : Mach) (off lo w : Nat) : Nat := Bits.field (m.reg off) lo w
def bit (m : Mach) (off i : Nat) : Bool := Bits.field (m.reg off) i 1 == 1
def setFld (m : Mach) (off lo w x : Nat) : Mach := m.setReg off (Bits.setField (m.reg off) lo w x)

def die (m : Mach) (d : Nat) : Die := FMap.get {} m.dies d
def setDie (m : Mach) (d : Nat) (x : Die) : Mach := { m with dies := FMap.set {} m.dies d x }
def modDie (m : Mach) (d : Nat) (f : Die → Die) : Mach := m.setDie d (f (m.die d))
def ox (m : Mach) (a : Nat) : Ox := FMap.get {} m.oxen a
def setOx (m : Mach) (a : Nat) (x : Ox) : Mach := { m with oxen := FMap.set {} m.oxen a x }
def modOx (m : Mach) (a : Nat) (f : Ox → Ox) : Mach := m.setOx a (f (m.ox a))
def hen (m : Mach) (a : Nat) : Hen := FMap.get {} m.hens a
def setHen (m : Mach) (a : Nat) (x : Hen) : Mach := { m with hens := FMap.set {} m.hens a x }
def modHen (m : Mach) (a : Nat) (f : Hen → Hen) : Mach := m.setHen a (f (m.hen a))
def collie (m : Mach) (fb : Nat) : Collie := FMap.get {} m.collies fb
def setCollie (m : Mach) (fb : Nat) (x : Collie) : Mach := { m with collies := FMap.set {} m.collies fb x }
def modCollie (m : Mach) (fb : Nat) (f : Collie → Collie) : Mach := m.setCollie fb (f (m.collie fb))
def sync (m : Mach) (d : Nat) : SyncUnit := FMap.get {} m.syncs d
def setSync (m : Mach) (d : Nat) (x : SyncUnit) : Mach := { m with syncs := FMap.set {} m.syncs d x }
def modSync (m : Mach) (d : Nat) (f : SyncUnit → SyncUnit) : Mach := m.setSync d (f (m.sync d))
def mule (m : Mach) (a : Nat) : Mule := FMap.get {} m.mules a
def setMule (m : Mach) (a : Nat) (x : Mule) : Mach := { m with mules := FMap.set {} m.mules a x }
def modMule (m : Mach) (a : Nat) (f : Mule → Mule) : Mach := m.setMule a (f (m.mule a))
def hbmc (m : Mach) (k : Nat) : Hbm := FMap.get {} m.hbms k
def setHbmc (m : Mach) (k : Nat) (x : Hbm) : Mach := { m with hbms := FMap.set {} m.hbms k x }
def modHbmc (m : Mach) (k : Nat) (f : Hbm → Hbm) : Mach := m.setHbmc k (f (m.hbmc k))
def slice (m : Mach) (k : Nat) : Slice := FMap.get {} m.coh.slices k
def setSlice (m : Mach) (k : Nat) (x : Slice) : Mach := { m with coh := { m.coh with slices := FMap.set {} m.coh.slices k x } }
def modSlice (m : Mach) (k : Nat) (f : Slice → Slice) : Mach := m.setSlice k (f (m.slice k))
def link (m : Mach) (k : Nat) : Link := FMap.get {} m.links k
def setLink (m : Mach) (k : Nat) (x : Link) : Mach := { m with links := FMap.set {} m.links k x }
def modLink (m : Mach) (k : Nat) (f : Link → Link) : Mach := m.setLink k (f (m.link k))
def ring (m : Mach) (r : Nat) : Ring := FMap.get {} m.host.rings r
def setRing (m : Mach) (r : Nat) (x : Ring) : Mach := { m with host := { m.host with rings := FMap.set {} m.host.rings r x } }
def modRing (m : Mach) (r : Nat) (f : Ring → Ring) : Mach := m.setRing r (f (m.ring r))
def core (m : Mach) (c : Nat) : Core := FMap.get {} m.acores.cores c
def setCore (m : Mach) (c : Nat) (x : Core) : Mach := { m with acores := { m.acores with cores := FMap.set {} m.acores.cores c x } }
def modCore (m : Mach) (c : Nat) (f : Core → Core) : Mach := m.setCore c (f (m.core c))
def tel (m : Mach) (d : Nat) : TelFifo := FMap.get {} m.tels d
def setTel (m : Mach) (d : Nat) (x : TelFifo) : Mach := { m with tels := FMap.set {} m.tels d x }
def mailbox (m : Mach) (b : Nat) : Mbx := FMap.get {} m.mbx b
def setMailbox (m : Mach) (b : Nat) (x : Mbx) : Mach := { m with mbx := FMap.set {} m.mbx b x }
def pageOf (m : Mach) (p : Nat) : TierPage := FMap.get {} m.tier.pages p
def setPage (m : Mach) (p : Nat) (x : TierPage) : Mach := { m with tier := { m.tier with pages := FMap.set {} m.tier.pages p x } }
def modPage (m : Mach) (p : Nat) (f : TierPage → TierPage) : Mach := m.setPage p (f (m.pageOf p))
def modTier (m : Mach) (f : Tier → Tier) : Mach := { m with tier := f m.tier }
def modHost (m : Mach) (f : HostPort → HostPort) : Mach := { m with host := f m.host }
def modBoot (m : Mach) (f : Boot → Boot) : Mach := { m with boot := f m.boot }
/-- A change of the retained record. The warm token holds the CRC-32 of the record, so a change takes it away until the end of stage 6
writes one; after that stage each change writes a new one (R520, R521). [log 145 DEDUCED] -/
def retain (m : Mach) (f : Retained → Retained) : Mach :=
  m.modBoot fun b =>
    let r := f b.retained
    { b with retained := if r = b.retained then r else { r with token := decide (6 < b.stage), tokenWhy := if b.retained.token then 3 else b.retained.tokenWhy } }
def modCoh (m : Mach) (f : Coh → Coh) : Mach := { m with coh := f m.coh }
def modHerd (m : Mach) (f : Herd → Herd) : Mach := { m with herd := f m.herd }
def modGov (m : Mach) (f : Gov → Gov) : Mach := { m with gov := f m.gov }
def modAcores (m : Mach) (f : Acores → Acores) : Mach := { m with acores := f m.acores }
def modSec (m : Mach) (f : Security → Security) : Mach := { m with sec := f m.sec }
def modGoose (m : Mach) (f : Goose → Goose) : Mach := { m with goose := f m.goose }

/-- Applies a change for each element of a list, in order. -/
def forEach {α : Type} (m : Mach) (l : List α) (f : Mach → α → Mach) : Mach := l.foldl f m

/-- Sends something across the boundary. -/
def emit (m : Mach) (o : Output) : Mach := { m with out := m.out ++ [o] }

end Mach
end Machine
end Sys2Proof
end

