-- ==== Sys2Proof/Machine/Flags.lean ====
section
/-!
DEFINITION. Trouble counters and status flags: the 16-bit saturating W1C counters of R569, the BAD_WRITE rule of R574, masked writes
(R575), the beat angle, telemetry records (R555 to R557), the passage of time, and ALERT_N (R585).
-/
namespace Sys2Proof
namespace Machine

/-- fclk runs unless the die is in retention, under compute reset, excluded or dead. -/
def Die.running (d : Die) : Bool := !d.curRet && !d.computeReset && !d.excluded && !d.dead

namespace Mach

/-- Counts one event in a 16-bit saturating counter (R569): the low or the high half of the register at `off`. -/
def count (m : Mach) (off : Nat) (hi : Bool) : Mach :=
  let lo := if hi then 16 else 0
  let v := m.fld off lo 16
  m.setFld off lo 16 (min 0xFFFF (v + 1))

/-- Counts `n` events. -/
def countN (m : Mach) (off : Nat) (hi : Bool) (n : Nat) : Mach :=
  let lo := if hi then 16 else 0
  m.setFld off lo 16 (min 0xFFFF (m.fld off lo 16 + n))

/-- A write of `w` to a register of two W1C counters (R569): a field whose written bits are not all zero is cleared. [log 22 DEDUCED] -/
def clearCounters (m : Mach) (off : Nat) (w : BitVec 32) : Mach :=
  let v := m.reg off
  let lo := if Bits.field w 0 16 = 0 then Bits.field v 0 16 else 0
  let hi := if Bits.field w 16 16 = 0 then Bits.field v 16 16 else 0
  m.setReg off (BitVec.ofNat 32 (lo + hi * 65536))

/-- The base of the block that holds a register. -/
def blockBase (off : Nat) : Nat := off / 0x10000 * 0x10000

/-- Counts BAD_WRITE in the block of the register at `off` (R574, R578). -/
def badWrite (m : Mach) (off : Nat) : Mach := m.count (blockBase off + 0xFF0C) false

/-- Counts MBX_REFUSED in the block (R582). -/
def mbxRefused (m : Mach) (off : Nat) : Mach := m.count (blockBase off + 0xFF30) false

/-! ### Time (R31, R32, R37, Table 2-3) -/

/-- fclk cycles in fifths per mclk cycle at an operating point. [log 5 DEDUCED] -/
def opRate (op : BitVec 3) : Nat :=
  match op.toNat with
  | 0 => 8 | 1 => 11 | 2 => 14 | 3 => 16 | 4 => 19 | 5 => 22 | 6 => 25 | _ => 27

/-- Lets time pass until `t`. [log 4 DESIGN CHOICE, 5 DEDUCED] -/
def advance (m : Mach) (t : Nat) : Mach :=
  if t ≤ m.now then m
  else
    let dt := t - m.now
    let step (m : Mach) (d : Nat) : Mach := m.modDie d fun x => if Die.running x then { x with fclk5 := x.fclk5 + dt * opRate x.curOp } else x
    { step (step (step (step m 0) 1) 2) 3 with now := t }

/-- Whole fclk cycles elapsed on A-die A`d`. -/
def fclk (m : Mach) (d : Nat) : Nat := (m.die d).fclk5 / 5

/-- The beat angle (R37). -/
def angle (m : Mach) : Nat :=
  if m.beat.period = 0 then 0 else min 0xFFFF ((m.now - m.beat.zero) * 0x10000 / m.beat.period)

/-- The module is in lean state (R66, R67): STATE is 1 or 2. -/
def inLean (m : Mach) : Bool := m.lean.state == 1 || m.lean.state == 2

/-- An A-die is out of service: excluded or declared dead. -/
def dieOut (m : Mach) (d : Nat) : Bool := (m.die d).excluded || (m.die d).dead

/-- The state of a power domain. The always-on domain is ON. -/
def domain (m : Mach) (d dom : Nat) : DomState :=
  if dom = 41 then .on else FMap.get .off (m.die d).domains dom
def setDomain (m : Mach) (d dom : Nat) (s : DomState) : Mach :=
  m.modDie d fun x => { x with domains := FMap.set .off x.domains dom s }
/-- The flock with base `fb` is enabled (R13), and its domain is ON and usable (R50, R60). -/
def flockEnabled (m : Mach) (fb : Nat) : Bool := isFlockAgent fb && (m.die (agentDie fb - 1)).flockMap.getLsbD (agentBlk fb)
def flockOn (m : Mach) (fb : Nat) : Bool := m.flockEnabled fb && m.domain (agentDie fb - 1) (agentBlk fb) == .on
  && !(m.die (agentDie fb - 1)).waking.contains (agentBlk fb)

/-! ### Telemetry (R555 to R558) -/

/-- Writes one word at the write pointer; a full FIFO loses its oldest unread word, and LOST counts it (R557). -/
def telWord (d : Nat) (m : Mach) (w : BitVec 64) (start : Bool) : Mach :=
  let f := m.tel d
  let full := f.wr ^^^ f.rd == 0x200#10
  let e := f.wr.toNat % 512
  let f' := { f with words := FMap.set 0 f.words e w, starts := FMap.set false f.starts e start, wr := f.wr + 1,
                     rd := if full then f.rd + 1 else f.rd }
  let m := m.setTel d f'
  if full then m.count (telReg d 8) false else m

/-- Writes a record of the given type and payload into the FIFO of die number `d` (Table 18-4). [log 169 DEDUCED] -/
def telRecord (m : Mach) (d ty agent : Nat) (payload : List (BitVec 64)) : Mach :=
  let h := payload.length + ty * 8 + agent * 2048 + m.angle * 2 ^ 24 + m.beat.number.toNat * 2 ^ 40
  let m := telWord d m (BitVec.ofNat 64 h) true
  m.forEach payload fun m w => telWord d m w false

/-- The agent ID of a die's always-on logic (Table 18-4). -/
def dieAgent (d : Nat) : Nat := if d = 0 then agentId 0 4 0 else agentId d 31 0

/-! ### ALERT_N (R585, R595) -/

/-- ALERT_N is asserted: the Goose, a stopped start, or SW_ALERT. It is released during a reset unless LOCKOUT holds it. -/
def alert (m : Mach) : Bool :=
  if m.boot.inReset then m.goose.lockout else m.goose.alert || m.boot.stopped || m.bit (modReg 8) 0

/-- Emits ALERT_N where a change of state has moved it. -/
def showAlert (m m' : Mach) : Mach := if m.alert == m'.alert then m' else m'.emit (.alert m'.alert)

/-! ### Free values -/

/-- Draws a free value of `w` bits: the spec leaves the value undefined. [log 11 DESIGN CHOICE] -/
def drawFree (m : Mach) (w : Nat) : BitVec w × Mach := (Config.freeValue w m.free, { m with free := m.free + 1 })

/-- Draws a word from the entropy source (R563). [log 16 DESIGN CHOICE] -/
def drawEntropy (m : Mach) : BitVec 64 × Mach := (Config.entropy m.sec.draws, { m with sec := { m.sec with draws := m.sec.draws + 1 } })

end Mach

/-! ### The fuse bank -/

/-- A fuse write (R560, R561, R566): counters advance, revocation and zeroisation are permanent. -/
def blow (f : Fuses) : Blow → Fuses
  | .rollback i v => { f with rollback := FMap.set 0 f.rollback i (max (FMap.get 0 f.rollback i) (min v 63)) }
  | .owner s d => { f with ownerDigest := FMap.set 0 f.ownerDigest s.val d, ownerActive := f.ownerActive ||| (1#4 <<< s.val) }
  | .revoke s => { f with ownerRevoked := f.ownerRevoked ||| (1#4 <<< s.val) }
  | .glitch => if f.glitches < 4 then { f with glitches := f.glitches + 1, zeroised := f.zeroised || f.glitches == 3 } else f
  | .identity p k => match f.idPublic with
    | none => { f with idPublic := some p, idPrivate := k }
    | some _ => f

/-- Asks for a fuse write; the value in force follows it. -/
def Mach.askBlow (m : Mach) (b : Blow) : Mach := { m with blows := m.blows ++ [b], fused := blow m.fused b }

/-- Performs the fuse writes that a command has asked for. -/
def settleFuses (f : Fuses) (bs : List Blow) : Fuses := bs.foldl blow f

/-- A command's effect: a change of the working state, then the fuse writes it asked for. The queue is untouched. -/
def State.act (s : State) (f : Mach → Mach) : Host.Outcome State Fault Refusal :=
  let m := f s.m
  .next { s with fuses := settleFuses s.fuses m.blows, m := { m with blows := [] } }

/-- The same for a command that reads the fuse bank. -/
def State.actF (s : State) (f : Fuses → Mach → Mach) : Host.Outcome State Fault Refusal := s.act (f s.fuses)

end Machine
end Sys2Proof
end

