-- ==== Sys2Proof/Machine/Ops.lean ====
section
/-!
DEFINITION. The named operations that every family shares: the physical address map (chapter 01) with the HBM interleave (R374 to
R376) and the homes of lines (R345, R400), lines and byte masks, flock memory (R244 to R246), address errors (R27), the sending of
herd messages (R435, R452), and the sync units (R280 to R282, R342).
-/
namespace Sys2Proof
namespace Machine

/-! ### Lines and byte masks -/

/-- The 512-bit value whose byte i is all ones where mask bit i is set. -/
def maskBits (mask : BitVec 64) : BitVec 512 :=
  BitVec.ofNat 512 (Bits.ofBytes ((List.range 64).map fun i => if mask.getLsbD i then 0xFF#8 else 0#8))

/-- Puts the masked bytes of `new` into `old`. -/
def mergeLine (old new : BitVec 512) (mask : BitVec 64) : BitVec 512 :=
  (old &&& ~~~(maskBits mask)) ||| (new &&& maskBits mask)

def fullMask : BitVec 64 := BitVec.allOnes 64

/-- The mask of `n` bytes from byte `o` of a line. -/
def byteMask (o n : Nat) : BitVec 64 := BitVec.ofNat 64 ((2 ^ n - 1) <<< o)

/-- `n` bytes from byte `o` of a line, as a number. -/
def lineField (d : BitVec 512) (o n : Nat) : Nat := (d.toNat >>> (8 * o)) % 2 ^ (8 * n)

/-- A value placed at byte `o` of a line. -/
def placeField (v o : Nat) : BitVec 512 := BitVec.ofNat 512 (v <<< (8 * o))

/-- The line at line address `l` of a memory. -/
def Memory.line (mem : Memory) (l : Nat) : BitVec 512 := BitVec.ofNat 512 (Bits.ofBytes (Memory.readBytes mem (64 * l) 64))

/-- Writes a line. -/
def Memory.putLine (mem : Memory) (l : Nat) (d : BitVec 512) : Memory := Memory.writeBytes mem (64 * l) (Bits.bytesOf d.toNat 64)

/-! ### The address map (Tables 1-8a and 1-9) -/

/-- The die whose ADDR_ERROR counter an address that is not populated charges (R27), and whether the cause is POWERED (R49). -/
inductive Charge where
  /-- a range that names no die: the requester's die is charged -/
  | nowhere
  /-- an address in the range of die number `d` -/
  | die (d : Nat)
  /-- flock memory of an enabled flock on die number `d` that is not ON: cause POWERED -/
  | off (d : Nat)
deriving DecidableEq, Repr

/-- What a physical address names. -/
inductive Target where
  /-- a byte of the coherence domain by storage address: a per-stack or a deep-window PA (R23) -/
  | home (sa : Nat)
  /-- a byte of the flock memory of the flock with base `fb`, by its PA -/
  | flock (fb pa : Nat)
  /-- an offset in device register space -/
  | dev (off : Nat)
  /-- a host physical address -/
  | host (hpa : Nat)
  /-- an offset in a module of the herd -/
  | herd (module off : Nat)
  /-- reserved or unpopulated (R27) -/
  | bad (charge : Charge)
deriving DecidableEq, Repr

def hbmLines : Nat := 6750000000
def stackBytes : Nat := 36000000000
def stackBase (s : Nat) : Nat := 0x010000000000 + s * 0x1000000000
/-- [log 109 DEDUCED] -/
def deepBase : Nat := 0x200000000000
def deepEnd : Nat := 0x35C000000000

/-- A PA within the populated interleaved view or the range of the per-stack views (Table 1-9). -/
def hbmView (pa : Nat) : Bool := decide (pa < 64 * hbmLines) || (decide (0x0100_0000_0000 ≤ pa) && decide (pa < 0x01C0_0000_0000))

/-- The storage address of interleaved line n (R374, R375). -/
def interleave (n : Nat) : Nat :=
  let q := n / 384
  let g := (n % 384 + 97 * (q % 384)) % 384
  stackBase (g / 32) + 64 * (32 * q + g % 32)

/-- The stack of a per-stack address, and the interleaved line with the same storage. -/
def stackOf (sa : Nat) : Nat := (sa - 0x010000000000) / 0x1000000000
def uninterleave (sa : Nat) : Nat :=
  let ln := (sa - stackBase (stackOf sa)) / 64
  let q := ln / 32
  let g := stackOf sa * 32 + ln % 32
  384 * q + (g + 384 * 97 - 97 * (q % 384)) % 384

/-- Lines of the interleaved view that are populated (R376, R401). [log 115 DEDUCED] -/
def Mach.viewLines (m : Mach) : Nat := hbmLines - m.tier.viewSize * 0x10000000

/-- A storage address lies in the deep window. -/
def isDeep (sa : Nat) : Bool := decide (deepBase ≤ sa)

/-- The A-die and slice that home a storage address (R345, R400), as 16 × die + slice. -/
def homeSlice (sa : Nat) : Nat :=
  if isDeep sa then ((sa - deepBase) / 0x200000 % 4) * 16 + sa / 64 % 16
  else
    let s := stackOf sa
    let p := (sa - stackBase s) / 64 % 32
    (s / 3) * 16 + (32 * (s % 3) + p) % 16

/-- The A-die that homes a storage address. -/
def homeDie (sa : Nat) : Nat := homeSlice sa / 16

namespace Mach

/-- HBM storage, unless its line serves the tier cache or its die is excluded (R376, R524). -/
def hbmTarget (m : Mach) (sa : Nat) : Target :=
  if (m.die (stackOf sa / 3)).excluded then .bad (.die (stackOf sa / 3 + 1))
  else if uninterleave sa < m.viewLines then .home sa else .bad (.die (stackOf sa / 3 + 1))

/-- The deep tier is mounted with a tier cache (R403). -/
def tierUp (m : Mach) : Bool := m.tier.size ≠ 0 && (m.tier.state == .mounted || m.tier.state == .readOnly)

/-- What a physical address names. [log 24 DEDUCED] -/
def target (m : Mach) (pa : Nat) : Target :=
  if 2 ^ 55 ≤ pa % 2 ^ 56 then .herd (pa / 2 ^ 46 % 512) (pa % 2 ^ 46)
  else if 2 ^ 54 ≤ pa % 2 ^ 56 then .host (pa % 2 ^ 54)
  else if pa < 0x0100_0000_0000 then
    if pa / 64 < m.viewLines then m.hbmTarget (interleave (pa / 64) + pa % 64) else .bad .nowhere
  else if pa < 0x01C0_0000_0000 then
    if pa - stackBase (stackOf pa) < stackBytes then m.hbmTarget pa else .bad (.die (stackOf pa / 3 + 1))
  else if 0x0200_0000_0000 ≤ pa ∧ pa < 0x0201_4000_0000 then
    let d := (pa - 0x0200_0000_0000) / 0x4000_0000
    let f := (pa - 0x0200_0000_0000) % 0x4000_0000 / 0x100_0000
    if d ≠ 0 ∧ f < 26 ∧ pa % 0x100_0000 < 0x80_0000 then
      if m.flockOn (agentId d f 0) then .flock (agentId d f 0) pa
      else if m.flockEnabled (agentId d f 0) then .bad (.off d) else .bad (.die d)
    else .bad (.die d)
  else if deepBase ≤ pa ∧ pa < deepEnd then
    if m.tierUp then .home pa else .bad .nowhere
  else if 0x7F00_0000_0000 ≤ pa ∧ pa < 0x7F05_0000_0000 then .dev (pa - 0x7F00_0000_0000)
  else .bad .nowhere

/-- Where flock memory of a flock starts (R24). -/
def flockMemBase (fb : Nat) : Nat := 0x0200_0000_0000 + agentDie fb * 0x4000_0000 + agentBlk fb * 0x100_0000

/-- The die number charged for a request of agent `a` (R27). -/
def chargeDie (charge : Charge) (a : Nat) : Nat :=
  match charge with
  | .nowhere => agentDie a
  | .die d | .off d => d

/-- The address-error response to a request of agent `a` (R27, R49); ADDR_ERROR counts at the die that the address names, otherwise at
the requester's die. [log 211 DEDUCED] -/
def addrError (m : Mach) (charge : Charge) (a : Nat) : Mach :=
  let m := { m with errResp := some { agent := a, powered := match charge with | .off _ => true | _ => false } }
  match chargeDie charge a with
  | 0 => m.count (modReg 0xC) false
  | d + 1 => m.count (mgmtReg d 0x50) false

/-- The A-die that serves a target, if one does. -/
def targetDie (t : Target) : Option Nat :=
  match t with
  | .home sa => some (homeDie sa)
  | .flock fb _ => some (agentDie fb - 1)
  | .dev off => if off / 0x100000000 = 0 then none else some (off / 0x100000000 - 1)
  | _ => none

/-- The target's die has been declared dead (R442, R443). [log 24 DEDUCED] -/
def targetDead (m : Mach) (t : Target) : Bool :=
  match targetDie t with
  | some d => (m.die d).dead
  | none => false

/-- A request to the home or the flock memory of a die in retention or under compute reset is answered retry-later (R46, R369). -/
def targetHeld (m : Mach) (t : Target) : Bool :=
  match t with
  | .home sa => (m.die (homeDie sa)).curRet || (m.die (homeDie sa)).computeReset
  | .flock fb _ => (m.die (agentDie fb - 1)).curRet || (m.die (agentDie fb - 1)).computeReset
  | _ => false

/-! ### Flock memory (R244 to R246) -/

/-- Reads a line of flock memory: its data, whether it is poisoned, and the correction of latent errors. -/
def fmRead (m : Mach) (fb line : Nat) : (BitVec 512 × Bool) × Mach :=
  let d := Memory.line m.fm line
  let up := FMap.get 0 m.fmUpset line
  if up = 1 then ((d, FMap.get false m.fmPoison line), ({ m with fmUpset := FMap.set 0 m.fmUpset line 0 }).count (flockReg fb 0x100) false)
  else if up = 2 then
    ((d, true), ({ m with fmUpset := FMap.set 0 m.fmUpset line 0, fmPoison := FMap.set false m.fmPoison line true }).count (flockReg fb 0x100) true)
  else ((d, FMap.get false m.fmPoison line), m)

/-- Writes the masked bytes of a line of flock memory; `poison` stores the line as poisoned. A whole line clears its poison. -/
def fmWrite (m : Mach) (fb line : Nat) (d : BitVec 512) (mask : BitVec 64) (poison : Bool) : Mach :=
  if mask = fullMask then
    { m with fm := Memory.putLine m.fm line d, fmUpset := FMap.set 0 m.fmUpset line 0, fmPoison := FMap.set false m.fmPoison line poison }
  else
    let ((old, bad), m) := m.fmRead fb line
    { m with fm := Memory.putLine m.fm line (mergeLine old d mask), fmPoison := FMap.set false m.fmPoison line (bad || poison) }

/-- A line of flock memory without the effects of a read. -/
def fmPeek (m : Mach) (line : Nat) : BitVec 512 := Memory.line m.fm line

/-! ### Herd messages on their way out (R435, R436, R451, R452) -/

/-- Message slots by class that a herd message takes on a link (Table 14-3): REQ-O, REQ-A, RSP, DAT. -/
def msgSlots (h : HerdMsg) : List (Nat × Nat) :=
  let n := Bits.popCount h.mask.toNat 64
  let dat := if n = 64 then 5 else 1 + (n + 15) / 16
  match h.kind with
  | .read | .sadd | .swait | .sread => [(0, 1)]
  | .write | .multicast => [(0, 1), (4, dat)]
  | .amo => [(1, 1), (4, dat)]
  | .dataRsp | .result => [(4, dat)]
  | _ => [(3, 1)]

def flitSlots : FlitBody → List (Nat × Nat)
  | .msg (.herd ms) => (ms.map msgSlots).flatten
  | .msg (.slots c ws) => [(c.toNat, ws.length)]
  | .topo _ => []

/-- The link end has credit for the flit's messages (R436). -/
def creditOk (l : Link) (b : FlitBody) : Bool :=
  (flitSlots b).all fun (c, n) => decide (FMap.get 0 l.used c + n ≤ Config.linkCredit c)

/-- Sends a flit of TYPE `type` with sequence number `seq`: its header (Table 14-2) names the last flit accepted and returns credits of the
lowest class that is owed some (R433, R436). [log 116 DESIGN CHOICE] -/
def flitSend (m : Mach) (k type : Nat) (seq : BitVec 12) (out : BitVec 64 → Output) : Mach :=
  let l := m.link k
  let c := ([0, 1, 2, 3, 4].find? fun c => FMap.get 0 l.owed c ≠ 0).getD 5
  let n := min 63 (FMap.get 0 l.owed c)
  let h := BitVec.ofNat 64 (seq.toNat + (l.rxSeq - 1).toNat * 2 ^ 12 + c * 2 ^ 24 + n * 2 ^ 27 + type * 2 ^ 33)
  (m.modLink k fun l => { l with owed := FMap.set 0 l.owed c (FMap.get 0 l.owed c - n) }).emit (out h)

/-- Sends, or sends again, a sequenced flit. -/
def flitOut (m : Mach) (k : Nat) (seq : BitVec 12) (b : FlitBody) : Mach :=
  m.flitSend k (match b with | .msg _ => 1 | .topo _ => 4) seq fun h => .flit k h b

/-- Sends what waits on link end `k` while it is up, the retry buffer has room and credits are held (R436, R437). -/
def linkPump (m : Mach) (k : Nat) : Nat → Mach
  | 0 => m
  | n + 1 =>
    let l := m.link k
    match l.txq with
    | [] => m
    | b :: rest =>
      if (l.state == .up || l.state == .upDegraded) && l.peer.isSome && l.retry.length < 128 && creditOk l b then
        let used := (flitSlots b).foldl (fun u (c, n) => FMap.set 0 u c (FMap.get 0 u c + n)) l.used
        let m := m.setLink k { l with txq := rest, retry := l.retry ++ [(l.txSeq, b)], txSeq := l.txSeq + 1, used := used }
        linkPump (m.flitOut k l.txSeq b) k n
      else m

/-- Puts a flit in line on a link end; TOPO flits go ahead of MSG flits (R450). -/
def linkPush (m : Mach) (k : Nat) (b : FlitBody) : Mach :=
  let l := m.link k
  let q := match b with
    | .topo _ => l.txq.takeWhile (fun x => match x with | .topo _ => true | _ => false) ++ [b]
                  ++ l.txq.dropWhile (fun x => match x with | .topo _ => true | _ => false)
    | _ => l.txq ++ [b]
  (m.setLink k { l with txq := q }).linkPump k (q.length)

def topoOf (m : Mach) (n : Nat) : TopoEntry := FMap.get {} m.herd.topo n

/-- The first port that a message takes toward module `n`: where several first ports give equal routes, one chosen by PA[13:6] of its
address or by its sync identifier (R451). [log 121 DEDUCED] -/
def herdPort (m : Mach) (h : HerdMsg) : Option Nat :=
  let e := m.topoOf h.dst.toNat
  let key := match h.kind with
    | .sadd | .swait | .sread => h.addr.toNat
    | _ => h.addr.toNat / 64 % 256
  match e.ports with
  | [] => e.route.map (·.1)
  | p :: t => some ((p :: t).getD (key % (t.length + 1)) p)

/-- Sends a herd message toward its destination: this module's own ingress for a loopback (R30), else the port of the route. A
message with no route is dropped and counts NO_ROUTE (R452). -/
def herdSend (m : Mach) (h : HerdMsg) : Mach :=
  if h.dst = m.herd.module then { m with herd := { m.herd with inbox := m.herd.inbox ++ [h] } }
  else match m.herdPort h with
    | some p => m.linkPush (16 + p) (.msg (.herd [h]))
    | none => m.count (herdReg 0x414) false

/-- Keeps an answer in the ingress record of its requester's module: the last 128 (R454). -/
def keepAnswer (m : Mach) (h : HerdMsg) : Mach :=
  let g := FMap.get {} m.herd.ingress h.dst.toNat
  let g' : Ingress := { g with kept := ((h.num, h) :: g.kept.filter fun x => x.1 ≠ h.num).take 128 }
  { m with herd := { m.herd with ingress := FMap.set {} m.herd.ingress h.dst.toNat g' } }

/-! ### Sync units (R280 to R282, R342) -/

/-- Threshold `t` is satisfied by count `c` (R280). -/
def syncReached (c t : BitVec 24) : Bool := decide ((c - t).toNat < 2 ^ 23)

def syncObj (m : Mach) (d i : Nat) : SyncObj := FMap.get {} (m.sync d).objs i
def setSyncObj (m : Mach) (d i : Nat) (o : SyncObj) : Mach := m.modSync d fun u => { u with objs := FMap.set {} u.objs i o }

/-- The module number this module reports: its own, or 511 (R344). -/
def ownModule (m : Mach) : Nat := if m.herd.attached then m.herd.module.toNat else 511

/-- The scope check of an acquire that the sync unit satisfies (R342): the acquirer's location, scope and herd-wide agent ID. [log 201 DEDUCED] -/
def syncAcquire (m : Mach) (d i : Nat) (scope : Nat) (loc : Loc) (herdAgent : Nat) : Mach :=
  match (m.syncObj d i).rel with
  | none => m
  | some (rs, rl) =>
    let acqS := widenScope loc scope
    let acqOut := !loc.inside rl rs.toNat
    let relOut := !rl.inside loc acqS
    if acqOut || relOut then
      let info := i + rs.toNat * 0x1000 + acqS * 0x4000 + Bits.ofBool acqOut * 0x10000 + Bits.ofBool relOut * 0x20000
      let m := m.modSync d fun u => { u with shortInfo := BitVec.ofNat 32 info, shortAgent := BitVec.ofNat 32 (herdAgent % 2 ^ 22) }
      m.count (syncReg d 0) false
    else m

/-- The herd-wide ID of an agent of this module. -/
def herdWide (m : Mach) (a : Nat) : Nat := m.ownModule * 0x2000 + a

/-- Location and herd-wide ID of a waiter. -/
def waiterLoc (m : Mach) : Waiter → Loc × Nat
  | .hen a => (agentLoc a, m.herdWide a)
  | .ox a => (agentLoc a, m.herdWide a)
  | .item c _ => (agentLoc c, m.herdWide c)
  | .ring _ => (.die 0, m.herdWide portAgent)
  | .remote h _ => (.herd (h / 0x2000), h)

/-- Writes a general register of a Hen; g0 discards it (Table 6-2). -/
def setG (m : Mach) (a r : Nat) (v : BitVec 64) : Mach :=
  m.modHen a fun h => if r = 0 then h else { h with g := FMap.set 0 h.g r v }

/-- A Hen's instruction has completed: the PC moves on and INSTRET counts. -/
def henNext (m : Mach) (a : Nat) : Mach :=
  m.modHen a fun h => { h with pc := h.pc + 4, instret := h.instret + 1, wait := .none, stallDeep := false }

/-! ### Items of an engine (R274) -/

/-- The flock that holds an item cannot take it back: it is not ON, or its die is dead (Table 8-5). -/
def originLost (m : Mach) (fb : Nat) : Bool := !m.flockOn fb || (m.die (agentDie fb - 1)).dead

/-- An engine gives back its running item with event `ev`; with `all`, also the item in its next place, without change. -/
def engineGive (m : Mach) (a : Nat) (ev : RetEvent) (all : Bool) : Mach :=
  if !isFlockAgent a then m else
  let fb := flockOf a
  let u := agentUnit a
  let c := m.collie fb
  let nexts := if all then c.pool.filter fun i => i.place == .next u else []
  let nows := c.pool.filter fun i => i.place == .current u
  let ret (e : RetEvent) (i : PoolItem) : ItemRet := { id := i.id, ev := e, engine := i.lastEngine, stolenBy := 0 }
  let theirs := c.hosted.filter fun x => x.unit == u && !x.back
  let m := m.setCollie fb { c with
    pool := c.pool.map fun i => if i.place == .current u || (all && i.place == .next u) then { i with place := .ended } else i
    returns := c.returns ++ nexts.map (ret .plain) ++ nows.map (ret ev)
    hosted := c.hosted.filter fun x => !(x.unit == u && !x.back)
    slots := FMap.set 0 c.slots u 0 }
  m.forEach theirs fun m x =>
    let r : ItemRet := { id := x.id, ev := if x.started then ev else .plain, engine := x.last, stolenBy := collieOf fb }
    if m.originLost x.victim then m.modCollie fb fun v => { v with returns := v.returns ++ [{ r with ev := .originLost, w := some x.w }] }
    else m.modCollie x.victim fun v =>
      { v with returns := v.returns ++ [r], pool := v.pool.map fun i => if i.id == x.id then { i with place := .ended } else i }

/-- An engine leaves service or stops: it gives back its running item with event `ev`, and the item in its next place. -/
def engineReturn (m : Mach) (a : Nat) (ev : RetEvent) : Mach := m.engineGive a ev true

/-- The running item goes back plain while it has been delivered and not taken, raised after TAKE (R202). -/
def quiesceEvent (m : Mach) (a : Nat) : RetEvent :=
  if FMap.get 0 (m.collie (flockOf a)).slots (agentUnit a) = 1 then .plain else .raised

/-- A quiescing Hen between instructions with its store buffer drained returns its items and enters DISABLED (R202). [log 198 DEDUCED] -/
def henQuiet (m : Mach) (a : Nat) : Mach :=
  if (m.hen a).state == .quiescing && (m.hen a).sb.isEmpty then
    (m.engineReturn a (m.quiesceEvent a)).modHen a fun h => { h with state := .disabled, wait := .none, hold := none }
  else m

/-- A satisfied wait tells its waiter. -/
def wake (m : Mach) (w : Wait) (c : BitVec 24) : Mach :=
  match w.who with
  | .hen a => match (m.hen a).wait with
    | .swait rd _ _ _ _ _ => ((m.setG a rd (c.setWidth 64)).henNext a).henQuiet a
    | _ => m
  | .ring r => m.modRing r fun g =>
      { g with cmds := g.cmds.map fun x => if x.started && x.done.isNone then { x with done := some (0, c.toNat) } else x }
  | .remote h n =>
      let a : HerdMsg := { kind := .completion, src := m.herd.module, dst := BitVec.ofNat 9 (h / 0x2000), num := n, agent := BitVec.ofNat 13 h,
                           addr := BitVec.ofNat 46 w.index, code := 0, data := BitVec.ofNat 512 c.toNat, cmp := 0, mask := byteMask 0 8,
                           poison := false, tail := false, hops := 0 }
      (m.keepAnswer a).herdSend a
  | _ => m

/-- Freed entries of the wait table go to the oldest polled waits that are not yet satisfied (R281). -/
def syncHand (m : Mach) (d : Nat) : Mach :=
  let u := m.sync d
  let free := 512 - (u.waits.filter fun w => !w.polled).length
  let place (acc : List Wait × Nat) (w : Wait) : List Wait × Nat :=
    if w.polled && acc.2 ≠ 0 && !syncReached (m.syncObj d w.index).count w.thresh then (acc.1 ++ [{ w with polled := false }], acc.2 - 1)
    else (acc.1 ++ [w], acc.2)
  m.setSync d { u with waits := (u.waits.foldl place ([], free)).1 }

/-- Re-evaluates the waits of object `i` that the table holds, or every wait where `all` is set (a poll, R281), oldest first. [log 87 DEDUCED] -/
def syncSettle (m : Mach) (d i : Nat) (all : Bool) : Mach :=
  let u := m.sync d
  let hit (w : Wait) : Bool := (all || (w.index == i && !w.polled)) && syncReached (m.syncObj d w.index).count w.thresh
  let sat := u.waits.filter hit
  let m := m.setSync d { u with waits := u.waits.filter fun w => !hit w }
  let m := m.forEach sat fun m w =>
    let (loc, ha) := m.waiterLoc w.who
    match w.who with
    -- the acquire is the SWT's at its issue (R155), or the Collie's when it gives the item to an engine (R254)
    | .ox _ | .item _ _ => m
    | _ => (m.syncAcquire d w.index w.scope.toNat loc ha).wake w (m.syncObj d w.index).count
  m.syncHand d

/-- An addition to object `i` of A-die A`d` as a release at `scope` from location `loc` (R280, R342); the count before it. -/
def syncAdd (m : Mach) (d i : Nat) (amt : Nat) (scope : Nat) (loc : Loc) : BitVec 24 × Mach :=
  let o := m.syncObj d i
  let m := m.setSyncObj d i { count := o.count + BitVec.ofNat 24 amt, rel := some (BitVec.ofNat 2 (widenScope loc scope), loc) }
  (o.count, m.syncSettle d i false)

/-- A write of SYNC_COUNT_i (R282): neither a release nor an acquire; it clears the object's record (R342). -/
def syncWrite (m : Mach) (d i : Nat) (v : BitVec 24) : Mach :=
  (m.setSyncObj d i { count := v, rel := none }).syncSettle d i false

/-- Enters a wait (R281): into the table, or polled where the table is full, which counts WAIT_POLL. [log 87 DEDUCED] -/
def syncWait (m : Mach) (d i : Nat) (t : BitVec 24) (scope : BitVec 2) (who : Waiter) : Mach :=
  let u := m.sync d
  let full := decide (512 ≤ (u.waits.filter fun w => !w.polled).length)
  let m := m.setSync d { u with waits := u.waits ++ [{ index := i, thresh := t, scope := scope, who := who, polled := full }] }
  let m := if full then m.count (syncReg d 0) true else m
  m.syncSettle d i false

/-- Removes the waits of a waiter. -/
def syncForget (m : Mach) (who : Waiter) : Mach :=
  let drop (m : Mach) (d : Nat) : Mach := (m.modSync d fun u => { u with waits := u.waits.filter fun w => w.who ≠ who }).syncHand d
  drop (drop (drop (drop m 0) 1) 2) 3

/-- The object of an identifier of this module is homed on a die that is excluded or declared dead (R443, R524). [log 88 DEDUCED] -/
def objectDead (m : Mach) (obj : Nat) : Bool := decide (1 ≤ obj / 4096 ∧ obj / 4096 ≤ 4) && m.dieOut (obj / 4096 - 1)

/-- An addition by identifier on this module (R17); an identifier that names no A-die, or one homed on a dead die, adds nothing. [log 88 DEDUCED] -/
def syncAddId (m : Mach) (obj amt scope : Nat) (loc : Loc) : Mach :=
  if 1 ≤ obj / 4096 ∧ obj / 4096 ≤ 4 ∧ !m.dieOut (obj / 4096 - 1) then (m.syncAdd (obj / 4096 - 1) (obj % 4096) amt scope loc).2 else m

end Mach
end Machine
end Sys2Proof
end

