-- ==== Sys2Proof/Machine/Storage.lean ====
section
/-!
DEFINITION. What stands behind the home slices: the HBM controllers' write queues and storage with the poison pattern (R382, R387 to
R390), the tier cache's frames (R401, R404, R408), and the lines a slice holds (R346).
-/
namespace Sys2Proof
namespace Machine
namespace Mach

/-! ### HBM (R379 to R382, R389, R390) -/

/-- The controller, the pseudo-channel, and the line within the pseudo-channel of an HBM storage line. -/
def hbmCtl (line : Nat) : Nat := stackOf (64 * line)
def hbmPc (line : Nat) : Nat := (64 * line - stackBase (stackOf (64 * line))) / 64 % 32
def hbmQ (line : Nat) : Nat := (64 * line - stackBase (stackOf (64 * line))) / 64 / 32

def pcOf (m : Mach) (k p : Nat) : Pc := FMap.get {} (m.hbmc k).pcs p
def setPc (m : Mach) (k p : Nat) (x : Pc) : Mach := m.modHbmc k fun h => { h with pcs := FMap.set {} h.pcs p x }

/-- Weight W_k of class k in the rotation, for 1 BULK, 2 TIER, 3 SCRUB (R384). -/
def hbmWeight (m : Mach) (k cls : Nat) : Nat :=
  if cls = 3 ∧ (m.hbmc k).scrubBehind then 15 else m.fld (hbmSet k 0xC) (4 * (cls - 1)) 4

/-- The pseudo-channel has made `n` accesses of class `cls` (R383, R384). [log 105 DEDUCED] -/
def pcTook (m : Mach) (k p cls n : Nat) : Mach :=
  let x := m.pcOf k p
  let x := { x with recent := (List.replicate n (cls == 0) ++ x.recent).take 15 }
  m.setPc k p (if cls = 0 then x
    else if x.turn = cls ∧ x.taken < m.hbmWeight k cls then { x with taken := x.taken + n }
    else { x with turn := cls, taken := n })

/-- The class whose read the pseudo-channel sends next, among the waiting reads and a read of class `offer` (R383, R384). [log 105 DEDUCED] -/
def pcClass (m : Mach) (k p : Nat) (offer : Option Nat) : Option Nat :=
  let x := m.pcOf k p
  let waits (c : Nat) : Bool := offer == some c || x.reads.any fun r => r.cls == c
  let others := [1, 2, 3].filter waits
  if waits 0 && (others.isEmpty || decide ((x.recent.filter fun b => b).length < m.fld (hbmSet k 0xC) 12 4)) then some 0
  else if m.save.active.isSome && waits 2 then some 2
  else if waits x.turn && x.turn ≠ 0 && decide (x.taken < m.hbmWeight k x.turn) then some x.turn
  else ([x.turn + 1, x.turn + 2, x.turn + 3].map fun c => (c - 1) % 3 + 1).find? waits

/-- Adds to an activity counter of Table 12-10. -/
def hbmCount (m : Mach) (k i n : Nat) : Mach :=
  m.modHbmc k fun h => { h with counters := FMap.set 0 h.counters i (FMap.get 0 h.counters i + BitVec.ofNat 64 n) }

/-- A location of a stack holds the poison pattern; marks it so, or not. -/
def linePoison (m : Mach) (line : Nat) : Bool := FMap.get false m.hbmPoison line != (m.hbmc (hbmCtl line)).poisonFill
def markPoison (m : Mach) (line : Nat) (b : Bool) : Mach :=
  { m with hbmPoison := FMap.set false m.hbmPoison line (b != (m.hbmc (hbmCtl line)).poisonFill) }

/-- The contents of a line are undefined: the interleaved view gained it at the mount, and nothing has written it since (R402). [log 115 DEDUCED] -/
def hbmGained (m : Mach) (line : Nat) : Bool :=
  match m.tier.gained with
  | some (lo, hi) => decide (lo ≤ uninterleave (64 * line) ∧ uninterleave (64 * line) < hi) && !FMap.get false m.tier.gainWritten line
  | none => false

/-- The contents of a line of a stack. [log 115 DEDUCED] -/
def hbmLine (m : Mach) (line : Nat) : BitVec 512 :=
  if m.hbmGained line then Config.gainedLine m.tier.gainDraw line else Memory.line m.hbm line

/-- Puts a line into the stack: poisoned, or with its data. -/
def hbmStore (m : Mach) (line : Nat) (d : BitVec 512) (poison : Bool) : Mach :=
  let m := if m.hbmGained line then m.modTier fun t => { t with gainWritten := FMap.set false t.gainWritten line true } else m
  ({ m with hbm := Memory.putLine m.hbm line d }).markPoison line poison

/-- Accesses of an access to a line or to one sector of it (Table 12-2). -/
def hbmAccesses (m : Mach) (k : Nat) (sector : Bool) : Nat := if (m.hbmc k).mode && !sector then 2 else 1

/-- Sends the oldest held writes of a pseudo-channel until `keep` remain (R382). [log 104 DEDUCED] -/
def hbmDrain (m : Mach) (k p keep : Nat) : Mach :=
  let x := m.pcOf k p
  let n := x.writes.length - keep
  let m := m.setPc k p { x with writes := x.writes.drop n }
  m.forEach (x.writes.take n) fun m w => (((m.hbmStore w.line w.data w.poison).hbmCount k 4 (m.hbmAccesses k w.part))).pcTook k p w.cls (m.hbmAccesses k w.part)

/-- A group of held writes goes to the stack once 24 are held; none goes while the pseudo-channel retrains (R382, R396). [log 104 DEDUCED] -/
def hbmGroup (m : Mach) (k p : Nat) : Mach :=
  if 24 ≤ (m.pcOf k p).writes.length && !(m.pcOf k p).training then m.hbmDrain k p 8 else m

/-- The line as the controller would return it: from the write queue, else from the stack. [log 104 DEDUCED] -/
def hbmPeek (m : Mach) (line : Nat) : BitVec 512 × Bool :=
  match ((m.pcOf (hbmCtl line) (hbmPc line)).writes.filter fun w => w.line == line).getLast? with
  | some w => (w.data, w.poison)
  | none => (m.hbmLine line, m.linePoison line)

/-- The write queue holds bytes of the line (R382). [log 104 DEDUCED] -/
def hbmHeld (m : Mach) (line : Nat) : Bool := (m.pcOf (hbmCtl line) (hbmPc line)).writes.any fun w => w.line == line

/-- A read of class `cls` (Table 12-4) of a line, or of one sector of it: 0 LC, 1 BULK, 2 TIER, 3 SCRUB. Bytes in the write queue are
served from there; a poisoned location counts POISON_READ (R389). -/
def hbmRead (m : Mach) (line cls : Nat) (sector : Bool) : (BitVec 512 × Bool) × Mach :=
  let k := hbmCtl line
  let (d, b) := m.hbmPeek line
  if m.hbmHeld line then ((d, b), m)
  else
    let n := m.hbmAccesses k sector
    let m := (m.hbmCount k cls n).pcTook k (hbmPc line) cls n
    ((d, b), if b then m.count (hbmSet k 0x38) false else m)

/-- A write of the masked bytes in class `cls`: a line write clears poison, a sector write to a poisoned line leaves it (R390). It is held
in the write queue. A sector write in line mode is merged, which reads the line (Table 12-2). -/
def hbmWrite (m : Mach) (line : Nat) (d : BitVec 512) (mask : BitVec 64) (poison : Bool) (cls : Nat) : Mach :=
  let k := hbmCtl line
  let p := hbmPc line
  let (old, b) := m.hbmPeek line
  let part := mask ≠ fullMask
  let merge := part && !(m.hbmc k).mode
  let m := if merge then m.hbmCount k 5 1 else m
  let m := if merge && !m.hbmHeld line then (m.hbmCount k cls 1).pcTook k p cls 1 else m
  let x := m.pcOf k p
  (m.setPc k p { x with writes := x.writes ++ [{ line := line, data := mergeLine old d mask, poison := poison || (part && b), cls := cls, part := part }] }).hbmGroup k p

/-! ### The tier cache (R400 to R404) -/

/-- The page, the sub-block and the flash unit of a deep-window address, and the line within its page. -/
def deepPage (sa : Nat) : Nat := (sa - deepBase) / 0x200000
def deepSub (sa : Nat) : Nat := (sa - deepBase) % 0x200000 / 0x10000
def deepUnit (sa : Nat) : Nat := (sa - deepBase) % 0x200000 / 0x4000
def deepIdx (sa : Nat) : Nat := (sa - deepBase) % 0x200000 / 64

/-- The storage line that line `i` of frame `f` takes (R376, R401). [log 109 DEDUCED] -/
def frameLine (m : Mach) (f i : Nat) : Nat := interleave (m.viewLines + f * 32768 + i) / 64

/-- The sub-block of a deep-window address is valid in a frame of a page that is not being evicted. -/
def deepValid (m : Mach) (sa : Nat) : Bool :=
  let pg := m.pageOf (deepPage sa)
  pg.frame.isSome && pg.valid.getLsbD (deepSub sa) && !pg.evicting

/-- The storage line behind a line that a home serves: the line itself in HBM, its frame's line in the deep window. -/
def backing (m : Mach) (line : Nat) : Option Nat :=
  let sa := 64 * line
  if isDeep sa then
    match (m.pageOf (deepPage sa)).frame with
    | some f => if (m.pageOf (deepPage sa)).valid.getLsbD (deepSub sa) then some (m.frameLine f (deepIdx sa)) else none
    | none => none
  else some line

/-- A home performs a write to a deep-window line, or grants it in E or M: its sub-block becomes dirty (R404), and a write-back in
flight takes it up again later (R415). -/
def deepDirty (m : Mach) (line : Nat) : Mach :=
  let sa := 64 * line
  if isDeep sa then m.modPage (deepPage sa) fun pg => { pg with dirty := pg.dirty ||| (1#32 <<< deepSub sa) } else m

/-- A write that would dirty a clean sub-block while FROZEN is held (R412). -/
def deepFrozen (m : Mach) (line : Nat) : Bool :=
  let sa := 64 * line
  isDeep sa && m.tier.frozen && !(m.pageOf (deepPage sa)).dirty.getLsbD (deepSub sa)

/-! ### The lines of the slices (R346, R380) -/

/-- Drops a line from its slice without a write. -/
def sliceDrop (m : Mach) (line : Nat) : Mach :=
  let m := m.modSlice (homeSlice (64 * line)) fun s => { s with lru := s.lru.filter fun l => l ≠ line }
  m.modCoh fun c => { c with lines := FMap.set none c.lines line none }

/-- Writes a resident line to its storage, keeping it clean: poisoned as poisoned, with a latent error corrected or made poison (R346). -/
def sliceClean (m : Mach) (line : Nat) : Mach :=
  match FMap.get none m.coh.lines line, m.backing line with
  | some x, some b =>
    if x.dirty then
      let poison := x.poison || x.upset = 2
      let m := if x.upset = 0 then m else m.count (sliceReg (homeSlice (64 * line)) 8) (x.upset = 2)
      let m := m.hbmWrite b x.data fullMask poison 1
      m.modCoh fun c => { c with lines := FMap.set none c.lines line (some { x with dirty := false, poison := poison, upset := 0 }) }
    else m
  | _, _ => m

/-- The set of its slice that a line takes, one of 8,192 (R346). [log 15 DESIGN CHOICE] -/
def sliceSet (line : Nat) : Nat := Config.sliceSet line % 8192

/-- The least recently used line of the set that `line` would need, where its twelve ways are full. [log 97 DEDUCED] -/
def sliceVictim (m : Mach) (line : Nat) : Option Nat :=
  let same := (m.slice (homeSlice (64 * line))).lru.filter fun l => sliceSet l == sliceSet line
  if 12 ≤ same.length then same.getLast? else none

/-- A line that a sector read brought is taken, or has been overtaken. -/
def dropFill (m : Mach) (line : Nat) : Mach := m.modCoh fun c => { c with fills := FMap.set none c.fills line none }

/-- Places a line in its slice as most recently used. [log 97 DEDUCED] -/
def slicePut (m : Mach) (line : Nat) (x : SliceLine) : Mach :=
  let m := m.dropFill line
  let m := if (FMap.get none m.coh.lines line).isSome then m else
    match m.sliceVictim line with
    | some v => (m.sliceClean v).sliceDrop v
    | none => m
  let m := m.modSlice (homeSlice (64 * line)) fun s => { s with lru := line :: s.lru.filter fun l => l ≠ line }
  m.modCoh fun c => { c with lines := FMap.set none c.lines line (some x) }

/-- The home can take the line's data without a read of the stack: it is resident, has been read, or stands in a write queue. -/
def homeHas (m : Mach) (line : Nat) : Bool :=
  (FMap.get none m.coh.lines line).isSome || (FMap.get none m.coh.fills line).isSome ||
    match m.backing line with
    | some b => m.hbmHeld b
    | none => true

/-- Reads that wait at the controllers for lines that satisfy `gone` are dropped with the requests they were for. -/
def readsDrop (m : Mach) (gone : Nat → Bool) : Mach :=
  m.forEach (List.range 12) fun m k => m.forEach ((m.hbmc k).pcs.map fun p => p.1) fun m p =>
    m.setPc k p { m.pcOf k p with reads := (m.pcOf k p).reads.filter fun r => !gone r.line }

/-- The line's data and poison as its home would return them, without the effects of a read. -/
def homePeek (m : Mach) (line : Nat) : BitVec 512 × Bool :=
  match FMap.get none m.coh.lines line, m.backing line with
  | some x, _ => (x.data, x.poison || x.upset == 2)
  | none, some b => m.hbmPeek b
  | none, none => (0, true)

/-- A home asks its controller for a line, in class `cls`; a sector access names its sector (R381). [log 105 DEDUCED] -/
def hbmAsk (m : Mach) (line cls : Nat) (sector : Option Nat) : Mach :=
  match m.backing line with
  | none => m
  | some b =>
    let k := hbmCtl b
    let p := hbmPc b
    let x := m.pcOf k p
    if x.reads.any fun r => r.line == line then m
    else m.setPc k p { x with reads := x.reads ++ [{ line := line, store := b, cls := cls, sector := sector, since := m.now }] }

/-- The line as its home holds it: from the slice, correcting or poisoning latent errors (R346), else from storage in class `cls`,
allocating it unless the access is a sector access (R380). -/
def homeData (m : Mach) (line cls : Nat) (sector : Bool) : (BitVec 512 × Bool) × Mach :=
  match FMap.get none m.coh.lines line with
  | some x =>
    let sl := homeSlice (64 * line)
    if x.upset = 1 then ((x.data, x.poison), (m.slicePut line { x with upset := 0 }).count (sliceReg sl 8) false)
    else if x.upset = 2 then ((x.data, true), (m.slicePut line { x with upset := 0, poison := true, dirty := true }).count (sliceReg sl 8) true)
    else ((x.data, x.poison), m.slicePut line x)
  | none => match FMap.get none m.coh.fills line, m.backing line with
    | some (d, p), _ => ((d, p), if sector then m.dropFill line else m.slicePut line { data := d, poison := p })
    | none, some b =>
      let ((d, p), m) := m.hbmRead b cls sector
      ((d, p), if sector then m else m.slicePut line { data := d, poison := p })
    | none, none => ((0, true), m)

/-- The home writes the masked bytes of a line. A whole line clears its poison (R246, R368); `poison` stores it as poisoned. -/
def homeWrite (m : Mach) (line : Nat) (d : BitVec 512) (mask : BitVec 64) (poison sector : Bool) : Mach :=
  let m := (m.deepDirty line).dropFill line
  if mask = fullMask then m.slicePut line { data := d, dirty := true, poison := poison }
  else
    match FMap.get none m.coh.lines line, m.backing line with
    | none, some b =>
      if sector then m.hbmWrite b d mask poison 1
      else
        let ((old, p), m) := m.homeData line 1 false
        m.slicePut line { data := mergeLine old d mask, dirty := true, poison := p || poison }
    | _, _ =>
      let ((old, p), m) := m.homeData line 1 false
      m.slicePut line { data := mergeLine old d mask, dirty := true, poison := p || poison }

end Mach
end Machine
end Sys2Proof
end

