-- ==== Sys2Proof/Machine/Cache.lean ====
section
/-!
DEFINITION. The Hen's data cache and victim cache (R182 to R188), the halting of a Hen (R187, R199), the return of an engine's items
to its Collie (R274), and reservations (R331, R332).
-/
namespace Sys2Proof
namespace Machine

/-! ### Sets and ways -/

namespace CacheSet

def way (s : CacheSet) : Fin 4 → Option CacheLine
  | 0 => s.w0 | 1 => s.w1 | 2 => s.w2 | 3 => s.w3

def setWay (s : CacheSet) (i : Fin 4) (x : Option CacheLine) : CacheSet :=
  match i with
  | 0 => { s with w0 := x } | 1 => { s with w1 := x } | 2 => { s with w2 := x } | 3 => { s with w3 := x }

def ways : List (Fin 4) := [0, 1, 2, 3]

/-- The way that holds a line. -/
def find (s : CacheSet) (line : Nat) : Option (Fin 4) :=
  ways.find? fun i => match s.way i with | some x => x.line == line | none => false

/-- Makes a way most recently used (R183). -/
def touch (s : CacheSet) (i : Fin 4) : CacheSet := { s with lru := i :: s.lru.filter fun j => j ≠ i }

/-- The way a fill takes under a way mask (R183): the lowest invalid permitted way, else the least recently used permitted one. -/
def choose (s : CacheSet) (mask : Nat) : Option (Fin 4) :=
  let ok := ways.filter fun i => Bits.nbit mask i.val
  match ok.find? (fun i => (s.way i).isNone) with
  | some i => some i
  | none => match ok.find? (fun i => !s.lru.contains i) with
    | some i => some i
    | none => (s.lru.filter fun i => Bits.nbit mask i.val).getLast?

end CacheSet

namespace Hen

def set (h : Hen) (line : Nat) : CacheSet := FMap.get {} h.dc (line % 256)
def setSet (h : Hen) (line : Nat) (s : CacheSet) : Hen := { h with dc := FMap.set {} h.dc (line % 256) s }

/-- The victim cache's entry of a line. -/
def vcFind (h : Hen) (line : Nat) : Option (Fin 8 × CacheLine) := h.vc.find? fun z => z.2.line == line

/-- The victim-cache entry with number `i` (R237). -/
def vcEntry (h : Hen) (i : Nat) : Option CacheLine := (h.vc.find? fun z => z.1.val == i % 8).map fun z => z.2

/-- The number that a line entering the victim cache takes: the lowest free one, else that of the least recently used entry. [log 97 DEDUCED] -/
def vcNew (h : Hen) : Fin 8 :=
  match (List.finRange 8).find? fun i => !(h.vc.any fun z => z.1 == i) with
  | some i => i
  | none => match h.vc.getLast? with | some z => z.1 | none => 0

/-- The line as the data cache or the victim cache holds it. -/
def find (h : Hen) (line : Nat) : Option CacheLine :=
  match (h.set line).find line with
  | some i => (h.set line).way i
  | none => (h.vcFind line).map fun z => z.2

/-- Replaces a held line, or drops it. -/
def update (h : Hen) (line : Nat) (x : Option CacheLine) : Hen :=
  match (h.set line).find line with
  | some i =>
    let s := (h.set line).setWay i x
    h.setSet line (if x.isNone then { s with lru := s.lru.filter fun j => j ≠ i } else s)
  | none => match x with
    | some y => { h with vc := h.vc.map fun z => if z.2.line == line then (z.1, y) else z }
    | none => { h with vc := h.vc.filter fun z => z.2.line ≠ line }

/-- Every line the two caches hold. -/
def heldLines (h : Hen) : List CacheLine :=
  (h.dc.map fun p => CacheSet.ways.filterMap p.2.way).flatten ++ h.vc.map fun z => z.2

/-- The way mask of a requester (R182): 0 pipeline, 1 stash, 2 Collie prefetch. -/
def mask (h : Hen) (src : BitVec 2) : Nat := h.wayMask.toNat / 16 ^ src.toNat % 16

/-- Fills a line under a mask (R183, R185): the line evicted enters the victim cache, whose own least recently used line may leave. [log 97 DEDUCED] -/
def fill (h : Hen) (mask : Nat) (x : CacheLine) : Hen × Option CacheLine :=
  let s := h.set x.line
  match s.choose mask with
  | none => (h, none)
  | some i =>
    let old := s.way i
    let h := h.setSet x.line ((s.setWay i (some x)).touch i)
    match old with
    | none => (h, none)
    | some o => ({ h with vc := (h.vcNew, o) :: h.vc.take 7 }, ((h.vc.drop 7).head?).map fun z => z.2)

/-- A pipeline or requester hit: the line becomes most recently used; a line in the victim cache moves back (R185). -/
def hit (h : Hen) (line : Nat) (mask : Nat) : Hen × Option CacheLine :=
  match (h.set line).find line with
  | some i => (h.setSet line ((h.set line).touch i), none)
  | none => match h.vcFind line, (h.set line).choose mask with
    | some z, some _ => ({ h with vc := h.vc.filter fun y => y.2.line ≠ line }).fill mask z.2
    | _, _ => (h, none)

end Hen

namespace Mach

/-! ### Reservations (R332) -/

/-- A write to a line by an agent clears the reservation of every other Hen whose granule holds the line; `self` names the writer. -/
def clearResv (m : Mach) (self : Option Nat) (line : Nat) : Mach :=
  m.forEach m.hens fun m (a, h) =>
    match h.resv with
    | some r => if some a ≠ self && r.lines.contains line then m.setHen a { m.hen a with resv := none } else m
    | none => m

/-- A line has left both caches of a Hen: a NORMAL reservation in it is lost (R332). [log 65 DEDUCED] -/
def lineLeft (m : Mach) (a line : Nat) : Mach :=
  m.modHen a fun h => match h.resv with
    | some r => if r.cached && r.lines.contains line then { h with resv := none } else h
    | none => h

/-- The writer's own access other than the SC clears its reservation too (R332). -/
def clearOwnResv (m : Mach) (a line : Nat) : Mach :=
  m.modHen a fun h => match h.resv with
    | some r => if r.lines.contains line then { h with resv := none } else h
    | none => h

/-- A Hen's LR hold still stands (R333): at most 64 fclk after the LR. -/
def holdOn (m : Mach) (a : Nat) : Bool :=
  match (m.hen a).hold with
  | some x => isFlockAgent a && decide ((m.die (agentDie a - 1)).fclk5 < x.since + 320) || (!isFlockAgent a && decide (m.now < x.since + 64))
  | none => false


/-- A write to flock memory by an agent (none: the Collie) also takes reservations in the line (R332). -/
def flockWrite (m : Mach) (who : Option Nat) (fb line : Nat) (d : BitVec 512) (mask : BitVec 64) (poison : Bool) : Mach :=
  (m.fmWrite fb line d mask poison).clearResv who line

/-! ### Halting (R187, R199) and the status word -/

/-- HEN_STATUS (Table 6-10). -/
def henStatus (m : Mach) (a : Nat) : Nat :=
  let h := m.hen a
  let st := match h.state with | .halted => 0 | .running => 1 | .quiescing => 2 | .disabled => 3 | .failed => 4
  st + Bits.ofBool h.priv * 8 + Bits.ofBool (m.inLean && !h.priv && h.state == .running) * 16 + Bits.ofBool h.stallDeep * 32
    + Bits.ofBool h.stallSb * 64 + Bits.ofBool h.dcEn * 128 + Bits.ofBool h.dcStale * 256 + h.haltCause.toNat * 512

/-- The record of type 0x02. -/
def henTel (m : Mach) (a : Nat) : Mach :=
  let h := m.hen a
  m.telRecord (agentDie a) 2 a [BitVec.ofNat 64 (m.henStatus a), h.haltAddr.setWidth 64, h.haltPc.setWidth 64]

/-- The last steps of a stop, the store buffer drained (R187, R199, R201, R202, R536): the work item goes back, and the Hen enters
DISABLED (cause 0, by force), HALTED or FAILED with its PC recorded, its event counted and a telemetry record written. -/
def henHalt (m : Mach) (a cause : Nat) : Mach :=
  let m := m.engineReturn a .raised
  if cause = 0 then m.modHen a fun h => { h with state := .disabled, wait := .none }
  else
    let m := m.modHen a fun h => { h with state := if cause ≤ 2 then .halted else .failed, haltCause := BitVec.ofNat 3 cause, haltPc := h.pc, wait := .none }
    let m := if cause = 1 then m.count (henReg a 0xC) false else if cause = 2 then m.count (henReg a 0x10) true else m
    m.henTel a

/-- A Hen abandons its instruction and issues nothing more; it stops for `cause` once its store buffer has drained. [log 79 DEDUCED] -/
def henStop (m : Mach) (a cause : Nat) : Mach :=
  let m := (m.modHen a fun h => { h with wait := .stop cause, hold := none, stallDeep := false }).syncForget (.hen a)
  if (m.hen a).sb = [] then m.henHalt a cause else m

/-- The Hen runs or quiesces, and has not begun to stop. -/
def henUp (m : Mach) (a : Nat) : Bool :=
  ((m.hen a).state == .running || (m.hen a).state == .quiescing) && match (m.hen a).wait with | .stop _ => false | _ => true

/-- Puts a write-back on its way to its home. -/
def sendWb (m : Mach) (a : Nat) (x : CacheLine) (poison keep : Bool) : Mach :=
  m.modCoh fun c => { c with wbs := c.wbs ++ [{ agent := a, line := x.line, data := x.data, poison := x.poison || poison, keep := keep }] }

/-- A parity error in a dirty line (R187, R188): the line goes home poisoned, its store-buffer entries are discarded, and a Hen that
runs halts once the others have drained. A Hen that has stopped only counts PAR_DIRTY; one that is being disabled by force halts. [log 79 DEDUCED] -/
def dirtyParity (m : Mach) (a : Nat) (x : CacheLine) (writeBack : Bool) : Mach :=
  let m := if writeBack then m.sendWb a x true false else m
  let m := m.modHen a fun h => { h with sb := h.sb.filter fun e => e.line ≠ x.line }
  if m.henUp a || (m.hen a).wait == .stop 0 then
    (m.modHen a fun h => { h with haltAddr := BitVec.ofNat 56 (64 * x.line) }).henStop a 1
  else m.count (henReg a 0xC) false

/-- A line leaves the caches of a Hen: a dirty one is written back (R185), and a bad dirty one halts the Hen (R187). -/
def lineOut (m : Mach) (a : Nat) (x : CacheLine) : Mach :=
  let m := m.lineLeft a x.line
  match x.st with
  | .m => if x.bad then m.dirtyParity a x true else m.sendWb a x false false
  | _ => if x.bad then m.count (henReg a 8) false else m

/-- Fills a line into a Hen's data cache for requester `src`. -/
def henFill (m : Mach) (a : Nat) (src : BitVec 2) (x : CacheLine) : Mach :=
  let (h, out) := (m.hen a).fill ((m.hen a).mask src) x
  let m := m.setHen a h
  match out with
  | some o => m.lineOut a o
  | none => m

/-- A hit by requester `src` on a line the Hen holds. -/
def henHit (m : Mach) (a line : Nat) (src : BitVec 2) : Mach :=
  let (h, out) := (m.hen a).hit line ((m.hen a).mask src)
  let m := m.setHen a h
  match out with
  | some o => m.lineOut a o
  | none => m

/-- A hit in the victim cache by requester `src` (R185). -/
def henVictim (m : Mach) (a line : Nat) (src : BitVec 2) : Mach :=
  if ((m.hen a).vcFind line).isSome then m.henHit a line src else m

/-- The line for an access of the pipeline: a latent parity error in a clean line invalidates it and counts PAR_CLEAN_D; in a dirty
line it halts the Hen (R186, R187). -/
def henLook (m : Mach) (a line : Nat) : Option CacheLine × Mach :=
  match (m.hen a).find line with
  | none => (none, m)
  | some x =>
    if !x.bad then (some x, m)
    else if x.st = .m then (none, (m.modHen a fun h => h.update line none).dirtyParity a x true)
    else (none, (m.modHen a fun h => h.update line none).count (henReg a 8) false)

end Mach
end Machine
end Sys2Proof
end

