-- ==== Sys2Proof/Machine/Coh.lean ====
section
/-!
DEFINITION. Coherence (chapter 11): what an agent answers to a snoop (R351 to R355), the home's transactions (Table 11-3), dead agents
(R365 to R367), write hints (R359, R360) and the access of requesters that keep no copy (R347).
-/
namespace Sys2Proof
namespace Machine

/-- The owner of a line in EM. -/
def DirEntry.owner (e : DirEntry) : Nat := if e.host then hostAgent else e.ptrs.headD 0

/-- A snoop would take the line away from its holder. -/
def SnpKind.takes : SnpKind → Bool
  | .own | .ownHome | .inv => true
  | .shr | .data => false

/-- The request writes its line or takes it to be written (R412). -/
def HomeReq.writes (r : HomeReq) : Bool :=
  match r.kind with
  | .rdo | .upg | .wrl | .wrp | .atm => true
  | _ => false

/-- A request makes the sub-block of its line dirty, or may do so when its snoops are answered (R404, R412). [log 207 DEDUCED] -/
def HomeReq.dirties (r : HomeReq) (st : DirState) : Bool :=
  r.writes || match r.kind with
    | .rds => st ≠ .s
    | .rdu => st == .em
    | _ => false

/-- The class of the read that a request needs of the stack (Table 12-4). [log 105 DEDUCED] -/
def HomeReq.cls (r : HomeReq) : Nat :=
  match r.kind with
  | .wrl | .wrp | .atm => 1
  | _ =>
    if r.agent = saveAgent then 2
    else if !r.prefetch && r.src ≠ 2 && (isHen r.agent || isAcore r.agent || r.agent = sysAgent || r.agent = hostAgent) then 0
    else 1

/-- The sector that a request asks the controller for, where it is a sector access. -/
def HomeReq.half (r : HomeReq) : Option Nat := if r.sector then some (Bits.ofBool r.upper) else none

namespace Mach

/-! ### Dead agents and poison records (R365, R366, Tables 11-10 and 11-11) -/

/-- An agent lies in the dead set. -/
def deadAgent (m : Mach) (a : Nat) : Bool :=
  m.coh.dead.any fun e => BitVec.ofNat 13 a &&& e.mask == e.agent &&& e.mask

/-- The PA by which a log names a line: its interleaved address, or its deep-window address. -/
def logPA (line : Nat) : Nat := if isDeep (64 * line) then 64 * line else 64 * uninterleave (64 * line)

/-- Writes a poison record (Table 11-11) and counts DEAD_POISON where the cause is not a directory error. -/
def poisonLog (m : Mach) (line cause owner : Nat) (host : Bool) : Mach :=
  let k := homeSlice (64 * line)
  let d := k / 16
  let rec_ : BitVec 128 := BitVec.ofNat 128 (logPA line + 2 ^ 64 * (cause + owner * 4 + Bits.ofBool host * 0x8000 + (k % 16) * 0x10000))
  let l := FMap.get [] m.coh.logs d
  let m := if l.length < 32 then m else m.count (scReg d 0x1020) true
  let m := m.modCoh fun c => { c with logs := FMap.set [] c.logs d ((if l.length < 32 then l else l.drop 1) ++ [rec_]) }
  if cause = 2 then m else m.count (sliceReg k 0x18) true

/-- Poisons a line at its home. -/
def homePoison (m : Mach) (line : Nat) : Mach :=
  (m.slicePut line { data := (m.homePeek line).1, dirty := true, poison := true }).deepDirty line

def entry (m : Mach) (line : Nat) : DirEntry := FMap.get {} m.coh.dir line
def setEntry (m : Mach) (line : Nat) (e : DirEntry) : Mach := m.modCoh fun c => { c with dir := FMap.set {} c.dir line e }

/-- Applies R366 to the entry of a line: dead holders are dropped, a dead owner poisons the line. -/
def reapEntry (m : Mach) (line : Nat) : Mach :=
  let e := m.entry line
  match e.state with
  | .u => m
  | .s =>
    let e' := { e with ptrs := e.ptrs.filter fun a => !m.deadAgent a, host := e.host && !m.deadAgent hostAgent }
    m.setEntry line (if e'.ptrs = [] && !e'.host && !e'.bcast then {} else e')
  | .em =>
    if m.deadAgent e.owner then ((m.setEntry line {}).homePoison line).poisonLog line 0 (if e.host then 0 else e.owner) e.host else m

/-! ### Pointers and broadcast (R349, R358) -/

/-- The home A-die's number of a line. -/
def lineDie (line : Nat) : Nat := homeDie (64 * line) + 1

/-- The entry in S after agent `a` has joined it (R349). -/
def joinEntry (line : Nat) (e : DirEntry) (a : Nat) : DirEntry :=
  if a = hostAgent then { e with state := .s, host := true }
  else if e.bcast then { e with state := .s, bmodule := e.bmodule || agentDie a ≠ lineDie line }
  else if e.ptrs.contains a then { e with state := .s }
  else if e.ptrs.length < 4 then { e with state := .s, ptrs := e.ptrs ++ [a] }
  else { e with state := .s, bcast := true, ptrs := [], bmodule := agentDie a ≠ lineDie line || e.ptrs.any fun x => agentDie x ≠ lineDie line }

/-- The entry with one owner. -/
def ownEntry (a : Nat) : DirEntry := if a = hostAgent then { state := .em, host := true } else { state := .em, ptrs := [a] }

/-- The caching agents that a broadcast reaches and whose answer can be other than a plain NP (R358): those that hold the line, and
Hens with the data cache disabled (R189). -/
def bcastTargets (m : Mach) (line : Nat) (module : Bool) : List Nat :=
  let sends (a : Nat) : Bool := m.coh.wbs.any fun w => w.agent == a && w.line == line && !w.stale
  let hens := m.hens.filterMap fun (a, h) =>
    if (module || agentDie a == lineDie line) && ((h.find line).isSome || !h.dcEn || sends a) then some a else none
  if module && ((FMap.get none m.acores.sys line).isSome || sends sysAgent) then hens ++ [sysAgent] else hens

/-- The holders that a snoop of a line in S goes to, leaving out `r`. -/
def sharers (m : Mach) (line r : Nat) : List Nat :=
  let e := m.entry line
  let l := (if e.bcast then m.bcastTargets line e.bmodule else e.ptrs) ++ (if e.host then [hostAgent] else [])
  l.filter fun a => a ≠ r

/-! ### The agent's side (R351, R353, R355) -/

/-- A snoop to agent `a` must wait: it meets an LR hold in its granule's line (R333, R355). -/
def snoopWaits (m : Mach) (a line : Nat) (k : SnpKind) : Bool :=
  k.takes && m.holdOn a && match (m.hen a).resv with
    | some r => r.lines.contains line
    | none => false

/-- What a Hen does with a snoop: its answer for the home, the line it forwards to the requester, and its new state. [log 79 DEDUCED] -/
def snoopHen (m : Mach) (a line : Nat) (k : SnpKind) : SnpAns × Option (BitVec 512 × Bool × LineState) × Mach :=
  let h := m.hen a
  match h.find line with
  | none => (.np, none, if h.dcEn then m else m.setHen a { h with dcStale := true })
  | some x =>
    if !h.dcEn then (.np, none, m.setHen a { h with dcStale := true })
    else
      let dirty := x.st == .m
      if x.bad && !dirty then (.np, none, ((m.setHen a (h.update line none)).lineLeft a line).count (henReg a 8) false)
      else
        let poison := x.poison || x.bad
        let m := if x.bad then m.dirtyParity a x false else m
        let h := m.hen a
        let gone : Mach := (m.setHen a (h.update line none)).lineLeft a line
        let shared : Mach := m.setHen a (h.update line (some { x with st := .s, bad := false }))
        match k with
        | .shr => (if dirty then .line x.data poison else .done, some (x.data, poison, .s), if x.bad then gone else shared)
        | .own => (if x.bad then .line x.data true else .done, some (x.data, poison, if dirty then .m else .e), gone)
        | .ownHome => (if dirty then .line x.data poison else .done, none, gone)
        | .data => (if dirty then .line x.data poison else .done, none, if x.bad then gone else shared)
        | .inv => (if x.bad then .line x.data true else .done, none, gone)

def sysLine (m : Mach) (line : Nat) : Option SysLine := FMap.get none m.acores.sys line
def setSys (m : Mach) (line : Nat) (x : Option SysLine) : Mach :=
  m.modAcores fun c => { c with sys := FMap.set none c.sys line x, lru := if x.isNone then c.lru.filter fun l => l ≠ line else c.lru }

/-- Application cores lose the reservation of a line that leaves the L2s (R502). -/
def dropCoreResv (m : Mach) (line : Nat) : Mach :=
  m.forEach m.acores.cores fun m (c, x) => if x.resv = some line then m.setCore c { m.core c with resv := none } else m

/-- What the system cache does with a snoop, for all the L2s (R503). -/
def snoopSys (m : Mach) (line : Nat) (k : SnpKind) : SnpAns × Option (BitVec 512 × Bool × LineState) × Mach :=
  match m.sysLine line with
  | none => (.np, none, m)
  | some x =>
    let gone : Mach := (m.setSys line none).dropCoreResv line
    let shared : Mach := m.setSys line (some { x with st := .s, dirty := false })
    match k with
    | .shr => (if x.dirty then .line x.data x.poison else .done, some (x.data, x.poison, .s), shared)
    | .own => (.done, some (x.data, x.poison, if x.dirty then .m else .e), gone)
    | .ownHome => (if x.dirty then .line x.data x.poison else .done, none, gone)
    | .data => (if x.dirty then .line x.data x.poison else .done, none, shared)
    | .inv => (.done, none, gone)

/-- What the attached host answers: the data of a line it held in M, a clean copy, which is as the home holds it, or nothing. It keeps S
after a snoop that lets it. A line it modified clears the reservations in it (R332). [log 199 DEDUCED] -/
def snoopHost (m : Mach) (line : Nat) (k : SnpKind) (hd : HostCopy) : SnpAns × Option (BitVec 512 × Bool × LineState) × Mach :=
  match hd with
  | .gone => (.np, none, m)
  | .clean => match k with
    | .shr => let (d, p) := m.homePeek line; (.done, some (d, p, .s), m)
    | .own => let (d, p) := m.homePeek line; (.done, some (d, p, .e), m)
    | _ => (.done, none, m)
  | .dirty d =>
    let m := m.clearResv (some hostAgent) line
    match k with
    | .shr => (.line d false, some (d, false, .s), m)
    | .own => (.done, some (d, false, .m), m)
    | .ownHome | .data => (.line d false, none, m)
    | .inv => (.done, none, m)

/-- The agent holds the line in M. -/
def dirtyHere (m : Mach) (a line : Nat) : Bool :=
  if a = sysAgent then (m.sysLine line).any fun x => x.dirty else ((m.hen a).find line).any fun x => x.st == .m

/-- The agent's copy of the line goes to I. -/
def copyGone (m : Mach) (a line : Nat) : Mach :=
  if a = sysAgent then (m.setSys line none).dropCoreResv line else (m.modHen a fun h => h.update line none).lineLeft a line

/-- A snoop finds the agent's write-back `w` of the line in flight: it is answered from the write-back buffer as if the line were in M
(R355). -/
def snoopBuffer (m : Mach) (w : WriteBack) (k : SnpKind) : SnpAns × Option (BitVec 512 × Bool × LineState) × Mach :=
  match k with
  | .shr => (.line w.data w.poison, some (w.data, w.poison, .s), m)
  | .own => (.done, some (w.data, w.poison, .m), m)
  | .ownHome | .data => (.line w.data w.poison, none, m)
  | .inv => (.done, none, m)

/-- What a Hen or the system cache does with a snoop. -/
def snoopCache (m : Mach) (a line : Nat) (k : SnpKind) : SnpAns × Option (BitVec 512 × Bool × LineState) × Mach :=
  if a = sysAgent then m.snoopSys line k else m.snoopHen a line k

/-- A snoop reaches agent `a`. Its write-backs of the line that are in flight have then lost their race (R354, R355): the latest one
answers, unless the line has been modified again since a write-back that kept it. [log 200 DEDUCED] -/
def snoopAgent (m : Mach) (a line : Nat) (k : SnpKind) (hd : HostCopy) : SnpAns × Option (BitVec 512 × Bool × LineState) × Mach :=
  if m.deadAgent a then (.np, none, m)
  else if a = hostAgent then m.snoopHost line k hd
  else match (m.coh.wbs.filter fun w => w.agent == a && w.line == line && !w.invn && !w.stale).getLast? with
  | some w =>
    let m := m.modCoh fun c => { c with wbs := c.wbs.map fun x => if x.agent == a && x.line == line then { x with stale := true } else x }
    if m.dirtyHere a line then m.snoopCache a line k else (m.copyGone a line).snoopBuffer w k
  | none => m.snoopCache a line k

/-! ### The home's side (Table 11-3) -/

/-- The snoops that a request needs, and the broadcast it uses (0 none, 1 die, 2 module). -/
def snoopsFor (m : Mach) (r : HomeReq) : List (Nat × SnpKind) × BitVec 2 :=
  let e := m.entry r.line
  let b : BitVec 2 := if e.bcast then (if e.bmodule then 2 else 1) else 0
  let own (k : SnpKind) : List (Nat × SnpKind) := [(e.owner, k)]
  match e.state, r.kind with
  | .u, _ => ([], 0)
  | .s, .rdo | .s, .upg => ((m.sharers r.line r.agent).map fun a => (a, SnpKind.inv), b)
  | .s, .wrl | .s, .wrp | .s, .atm => ((m.sharers r.line 0x2000).map fun a => (a, SnpKind.inv), b)
  | .s, _ => ([], 0)
  | .em, .rds => if e.owner = r.agent then ([], 0) else (own .shr, 0)
  | .em, .rdo | .em, .upg => if e.owner = r.agent then ([], 0) else (own .own, 0)
  | .em, .rdu => (own .data, 0)
  | .em, .wrl => (own .inv, 0)
  | .em, .wrp | .em, .atm => (own .ownHome, 0)
  | .em, _ => ([], 0)

/-- The broadcast that settles an entry whose check bits fail (R370): SnpOwnHome to every agent of the module and to the host. An owner
that no agent answers for may have held E: `np`. [log 103 DEDUCED] -/
def settleTxn (m : Mach) (r : HomeReq) : Txn :=
  let e := m.entry r.line
  let targets := m.bcastTargets r.line true ++ if m.deadAgent hostAgent then [] else [hostAgent]
  { req := r, snoops := targets.map fun a => (a, SnpKind.ownHome), bcast := 2, settle := true,
    np := e.state == .em && !(targets.contains e.owner) }

/-- The end of such a broadcast: the data of the agent that held the line in M, else the home's own, poisoned where the owner answered
NP. The entry ends in U. [log 103 DEDUCED] -/
def settleEnd (m : Mach) (t : Txn) : Mach :=
  let m := m.setEntry t.req.line {}
  match t.got with
  | some (d, p) => m.homeWrite t.req.line d fullMask p false
  | none => if t.np then (m.homePoison t.req.line).poisonLog t.req.line 2 0 false else m

/-- The transaction ends with data that its home takes from the slice or from storage (Table 11-3). -/
def homeReads (m : Mach) (t : Txn) : Bool :=
  let r := t.req
  let e := m.entry r.line
  t.got.isNone && match r.kind with
  | .rds => e.state ≠ .em || t.np || e.owner == r.agent
  | .rdo => !t.forwarded
  | .upg => !t.forwarded && e.state ≠ .s
  | .rdu => true
  | .wrp => !r.sector
  | _ => false

/-- What the home returns for a request that has no outstanding snoop (the Result column of Table 11-3): the answer to the requester,
if it gets line data or a grant. -/
def homeFinish (m : Mach) (t : Txn) : Option DatMsg × Mach :=
  let r := t.req
  let e := m.entry r.line
  let m := match t.got with
    | some (d, p) => m.homeWrite r.line d fullMask p false
    | none => m
  let fromHome (m : Mach) (st : Option LineState) : Option DatMsg × Mach :=
    let ((d, p), m) := m.homeData r.line r.cls r.sector
    (some { agent := r.agent, line := r.line, st := st, data := d, poison := p, src := r.src }, m)
  let grantE (m : Mach) : Option DatMsg × Mach := fromHome ((m.setEntry r.line (ownEntry r.agent)).deepDirty r.line) (some .e)
  let ownerGone := e.state == .em && (t.np || e.owner == r.agent)
  match r.kind with
  | .rds =>
    if e.state == .u || ownerGone then grantE m
    else if e.state == .em then
      (none, m.setEntry r.line (joinEntry r.line (joinEntry r.line {} e.owner) r.agent))
    else fromHome (m.setEntry r.line (joinEntry r.line e r.agent)) (some .s)
  | .rdo =>
    if t.forwarded then (none, (m.setEntry r.line (ownEntry r.agent)).deepDirty r.line) else grantE m
  | .upg =>
    if t.forwarded then (none, (m.setEntry r.line (ownEntry r.agent)).deepDirty r.line)
    else if e.state == .s then
      (some { agent := r.agent, line := r.line, st := some .e, data := 0, poison := false, grantOnly := true },
        (m.setEntry r.line (ownEntry r.agent)).deepDirty r.line)
    else grantE m
  | .rdu =>
    let m := if e.state == .em then m.setEntry r.line (if t.np then {} else joinEntry r.line {} e.owner) else m
    fromHome m none
  | .wrl | .wrp =>
    let m := m.setEntry r.line {}
    (none, m.homeWrite r.line r.data (if r.kind == .wrl then fullMask else r.mask) r.poison r.sector)
  | .atm => (none, m.setEntry r.line {})
  | .wbd _ | .invn => (none, m)

/-- A write hint after its write (R359): a slice target makes the line most recently used in its home; a Hen target gets a stash. -/
def afterWrite (m : Mach) (r : HomeReq) : Mach :=
  match r.hint with
  | none => m
  | some h =>
    if isSlice h then (if (FMap.get none m.coh.lines r.line).isSome then (m.homeData r.line 1 false).2 else m)
    else if isHen h && isFlockAgent h then m.modCoh fun c => { c with stashes := c.stashes ++ [{ agent := h, line := r.line }] }
    else m

/-- A request for the line reaches the home: a stash that waits behind its write is dropped (R360). [log 98 DEDUCED] -/
def dropStash (m : Mach) (line : Nat) : Mach :=
  let n := (m.coh.stashes.filter fun s => s.line == line).length
  let m := m.modCoh fun c => { c with stashes := c.stashes.filter fun s => s.line ≠ line }
  m.countN (sliceReg (homeSlice (64 * line)) 0x18) false n

/-- A line has a transaction in progress at its home (R354). -/
def lineBusy (m : Mach) (line : Nat) : Bool := m.coh.txns.any fun t => t.req.line == line

/-- Broadcasts in flight at a slice (R358). -/
def bcastNow (m : Mach) (sl : Nat) : Nat := (m.coh.txns.filter fun t => homeSlice (64 * t.req.line) == sl && t.bcast ≠ 0).length

/-- Counts a broadcast. -/
def countBcast (m : Mach) (line : Nat) (b : BitVec 2) : Mach :=
  let off := sliceReg (homeSlice (64 * line)) 0x10
  if b = 1 then m.count off false else if b = 2 then m.count off true else m

/-- The home has taken an uncached store of a Hen: its store-buffer entry retires (R177). -/
def sbLanded (m : Mach) (r : HomeReq) : Mach :=
  if isHen r.agent then
    m.modHen r.agent fun h => { h with sb := h.sb.eraseP fun e => e.line == r.line && e.begun, stallSb := false }
  else m

/-- A write has landed: reservations in its bytes are lost, and its hint is acted on. -/
def landWrite (m : Mach) (r : HomeReq) : Mach :=
  match r.kind with
  | .wrl | .wrp =>
    let m := (((m.sbLanded r).clearResv (some r.agent) r.line).clearOwnResv r.agent r.line).afterWrite r
    if r.agent = hostAgent then m.emit (.hostDone r.line) else m
  | _ => m

/-- Finishes a transaction whose data is at hand: its answer goes on its way, and its effects on others take place. -/
def txnClose (m : Mach) (t : Txn) : Mach :=
  let (ans, m) := m.homeFinish t
  let m := match ans with
    | some d => m.modCoh fun c => { c with dats := c.dats ++ [d] }
    | none => m
  m.landWrite t.req

/-- A transaction whose snoops are answered ends, once the line has been read from the stack where it needs that (R380, R382). -/
def txnEnd (m : Mach) (t : Txn) : Mach :=
  if m.homeReads t && !m.homeHas t.req.line then
    (m.modCoh fun c => { c with txns := c.txns ++ [{ t with reading := true, bcast := 0, settle := false }] }).hbmAsk t.req.line t.req.cls t.req.half
  else m.txnClose t

/-! ### The deep tier at the home (R403, R405, R409 to R412) -/

/-- A heat promotion or (where `hint`) a hint asks for a page that is not resident (R407): at most 1,024 wait, a further one is dropped. [log 112 DEDUCED] -/
def tierAsk (m : Mach) (p : Nat) (hint : Bool) : Mach :=
  if (m.pageOf p).frame.isSome || (m.tier.hints.any fun x => x.1 == p) then m
  else if m.tier.hints.length < 1024 then m.modTier fun t => { t with hints := t.hints ++ [(p, hint)] }
  else m.count (tierReg 0x24) true

/-- Samples an access to the deep window (R405) and notes the page's last access (R406). -/
def deepAccess (m : Mach) (line : Nat) : Mach :=
  let sa := 64 * line
  if !isDeep sa then m
  else
    let m := m.modTier fun t => { t with accesses := t.accesses + 1 }
    let m := m.modPage (deepPage sa) fun pg => { pg with last := m.tier.accesses }
    if Config.heatSample m.tier.accesses then
      let pg := m.pageOf (deepPage sa)
      let heat := min 255 (pg.heat + 1)
      let m := (m.setPage (deepPage sa) { pg with heat := heat }).modTier fun t => { t with samples := t.samples + 1 }
      if decide (m.fld (tierReg 8) 0 8 ≤ heat) then m.tierAsk (deepPage sa) false else m
    else m

/-- An access must be held for its sub-block, or for the freeze (R409, R411, R412), unless R423 has ended it. -/
def deepHeld (m : Mach) (line : Nat) (write : Bool) : Bool :=
  isDeep (64 * line) && !(m.tier.flashStall.contains line) && (!m.deepValid (64 * line) || (write && m.deepFrozen line))

/-- Holds an access: it counts STALL_MISS (or FROZEN_WAIT) when it is first held, and its page is wanted (R407 to R410). -/
def deepHold (m : Mach) (agent line : Nat) (write : Bool) (req : Option HomeReq) : Mach :=
  let sa := 64 * line
  if m.tier.held.any fun x => x.agent == agent && x.line == line && x.req.isNone == req.isNone then m
  else
    let miss := !m.deepValid sa
    let m := m.modTier fun t => { t with held := t.held ++ [{ agent := agent, line := line, since := m.now, write := write, req := req }] }
    let m := if miss then m.count (tierReg 0x20) false else m.count (tierReg 0x34) false
    let m := if isHen agent && (m.hen agent).wait ≠ .none then m.modHen agent fun h => { h with stallDeep := true } else m
    let p := deepPage sa
    let m := if miss && !(m.tier.demand.contains p) && !(m.pageOf p).promoting then m.modTier fun t => { t with demand := t.demand ++ [p] } else m
    -- a demand miss on a promotion in flight moves its sub-block to the front of the order (R408)
    if miss && (m.pageOf p).promoting then m.modPage p fun pg => { pg with order := deepSub sa :: pg.order.filter fun s => s ≠ deepSub sa } else m

/-! ### Starting a request at its home (R354, R46) -/

/-- A transaction's snoops go out. -/
def txnOpen (m : Mach) (t : Txn) : Mach :=
  let m := if t.snoops.any fun x => x.1 == hostAgent then m.emit (.biSnoop t.req.line) else m
  (m.countBcast t.req.line t.bcast).modCoh fun c => { c with txns := c.txns ++ [t] }

/-- A request begins at the home with its entry sound: its snoops go out, or it is finished at once. -/
def homeBegin (m : Mach) (r : HomeReq) : Mach :=
  let m := m.reapEntry r.line
  let (snoops, b) := m.snoopsFor r
  let t : Txn := { req := r, snoops := snoops, bcast := b }
  if snoops = [] then (m.countBcast r.line b).txnEnd t else m.txnOpen t

/-- A request begins at the home: a stash that waits for the line is dropped (R360), and an entry whose check bits fail is settled first
(R370). [log 98 DEDUCED] -/
def homeStart (m : Mach) (r : HomeReq) : Mach :=
  let m := m.dropStash r.line
  if !(m.entry r.line).bad then m.homeBegin r
  else
    let m := m.count (sliceReg (homeSlice (64 * r.line)) 0xC) true
    let t := m.settleTxn r
    if t.snoops = [] then ((m.countBcast r.line 2).settleEnd t).homeBegin r else m.txnOpen t

/-- Transactions in progress at the slice of a line. -/
def txnsAt (m : Mach) (line : Nat) : Nat := (m.coh.txns.filter fun t => homeSlice (64 * t.req.line) == homeSlice (64 * line)).length

/-- The slice can begin the request: fewer than 256 transactions are in progress (R354), and fewer than four broadcasts are in flight
where it needs one (R358). -/
def homeCan (m : Mach) (r : HomeReq) : Bool :=
  decide (m.txnsAt r.line < 256) && (!((m.entry r.line).bad || (m.snoopsFor r).2 ≠ 0) || decide (m.bcastNow (homeSlice (64 * r.line)) < 4))

/-- A request takes its turn at the home of its line (R354). -/
def homeEnter (m : Mach) (r : HomeReq) : Mach :=
  if m.lineBusy r.line || (m.coh.queue.any fun q => q.line == r.line) || !m.homeCan r then m.modCoh fun c => { c with queue := c.queue ++ [r] }
  else m.homeStart r

/-- A request reaches its home (R354): it is answered retry-later where the die cannot serve, discarded from a dead agent (R366), held
for the deep tier, made to wait behind a transaction, or begun. A prefetch of a page that is not resident is a hint (R407). [log 112 DEDUCED] -/
def homeArrive (m : Mach) (r : HomeReq) : Mach :=
  let m := (m.dropStash r.line).deepAccess r.line
  if m.deadAgent r.agent then m
  else if m.targetHeld (.home (64 * r.line)) then m.modCoh fun c => { c with nacked := c.nacked ++ [r] }
  else
    let w := r.dirties (m.entry r.line).state
    if !m.deepHeld r.line w then m.homeEnter r
    else if r.prefetch && (m.pageOf (deepPage (64 * r.line))).frame.isNone then m.tierAsk (deepPage (64 * r.line)) true
    else m.deepHold r.agent r.line w (some r)

/-- The oldest request that waits for a line begins once the line is free and the slice can begin it. -/
def homeNext (m : Mach) (line : Nat) : Mach :=
  if m.lineBusy line then m
  else match m.coh.queue.find? fun r => r.line == line with
    | none => m
    | some r =>
      let n : Mach := m.modCoh fun c => { c with queue := c.queue.erase r }
      let w := r.dirties (m.entry r.line).state
      if m.deepHeld r.line w then n.deepHold r.agent r.line w (some r)
      else if m.homeCan r then n.homeStart r
      else m

/-- Requests waiting for a line begin one after another until one needs an agent's answer. -/
def homeRun (m : Mach) (line : Nat) : Nat → Mach
  | 0 => m
  | n + 1 =>
    if m.lineBusy line || !(m.coh.queue.any fun r => r.line == line) then m else homeRun (m.homeNext line) line n

/-- Waiting requests of a slice begin once a transaction for `line` has ended there: those for the line, and those that waited for the
limits of R354 and R358. -/
def homeKick (m : Mach) (line : Nat) : Mach :=
  let others := (m.coh.queue.map fun r => r.line).filter fun l => l ≠ line && homeSlice (64 * l) == homeSlice (64 * line)
  m.forEach (line :: others) fun m l => m.homeRun l (m.coh.queue.length + 1)

/-- The end of a transaction makes the sub-block of its line dirty (R404). -/
def txnDirties (m : Mach) (t : Txn) : Bool :=
  let e := m.entry t.req.line
  t.got.isSome || match t.req.kind with
    | .rdo | .upg | .wrl | .wrp => true
    | .rds => e.state == .u || (e.state == .em && (t.np || e.owner == t.req.agent))
    | _ => false

/-- The last answer of transaction `t`, taken off the list, is in: it ends, unless that must wait for the freeze of the deep tier (R412). [log 207 DEDUCED] -/
def txnAnswered (m : Mach) (t : Txn) : Mach :=
  if m.deepFrozen t.req.line && m.txnDirties t then
    let m := if t.frozen then m else m.count (tierReg 0x34) false
    m.modCoh fun c => { c with txns := c.txns ++ [{ t with frozen := true, bcast := 0 }] }
  else if t.settle then (m.settleEnd t).homeBegin t.req
  else m.txnEnd t

/-- The answer `ans` of agent `a` reaches the home: the transaction of the line takes it in, and ends with its last response. -/
def homeAnswer (m : Mach) (a line : Nat) (ans : SnpAns) : Mach :=
  match m.coh.txns.find? fun t => t.req.line == line with
  | none => m
  | some t =>
    let t' : Txn := { t with
      answers := t.answers.erase (a, ans)
      got := match ans with | .line d p => some (d, p) | _ => t.got
      np := t.np || (ans == .np && (m.entry line).state == .em && (m.entry line).owner == a) }
    let m := m.modCoh fun c => { c with txns := c.txns.map fun x => if x.req.line == line then t' else x }
    if t'.snoops = [] && t'.answers = [] then
      let m := m.modCoh fun c => { c with txns := c.txns.filter fun x => x.req.line ≠ line }
      (m.txnAnswered t').homeKick line
    else m

/-! ### The directory store (R350) -/

/-- Directory entries of lines of slice `k` that are not resident (R350). -/
def storeEntries (m : Mach) (k : Nat) : List Nat :=
  (m.coh.dir.map fun p => p.1).filter fun l => homeSlice (64 * l) == k && (FMap.get none m.coh.lines l).isNone

/-- The set of the directory store that a line's entry takes, one of 2,048 of sixteen ways. [log 99 DEDUCED, 99 DEDUCED] -/
def storeSet (line : Nat) : Nat := Config.storeSet line % 2048

/-- A set of the store holds more than its sixteen entries: one is given up, every holder first invalidated, and DIR_EVICT counts
(R350). [log 99 DEDUCED] -/
def dirEvict (m : Mach) (k : Nat) : Mach :=
  let es := m.storeEntries k
  if es.length ≤ 16 then m
  else
    let gives (l : Nat) : Bool := decide (16 < (es.filter fun x => storeSet x == storeSet l).length) && !m.lineBusy l
    match es.find? fun l => gives l && m.homeCan { kind := .atm, agent := 0x1FFF, line := l } with
    | some l => (m.homeStart { kind := .atm, agent := 0x1FFF, line := l }).count (sliceReg k 0xC) false
    | none => m

/-! ### Requesters that keep no copy (R347): one access performed at the home at once -/

/-- The deep tier holds an uncached access to the line (R409, R412): a read may bring home the data of an owner. [log 207 DEDUCED] -/
def homeHolds (m : Mach) (line : Nat) (write : Bool) : Bool := m.deepHeld line (write || (m.entry line).state == .em)

/-- The home can recall a line now: no transaction, no broadcast limit, no LR hold in the way, no line that the host may have modified.
[log 95 DESIGN CHOICE] -/
def recallFree (m : Mach) (line : Nat) (write : Bool) : Bool :=
  let e := m.entry line
  !m.targetHeld (.home (64 * line)) && !m.lineBusy line && !e.bad && decide (m.txnsAt line < 256)
    && !(e.state == .em && e.host && !m.deadAgent hostAgent)
    && !(e.bcast && decide (4 ≤ m.bcastNow (homeSlice (64 * line))))
    && !((if e.bcast then m.bcastTargets line e.bmodule else e.ptrs).any fun a => isHen a && m.snoopWaits a line (if write then .inv else .data))

/-- The home can begin an access to the line now: it could recall the line, and the deep tier has its sub-block. -/
def homeClear (m : Mach) (line : Nat) (write : Bool) : Bool := m.recallFree line write && !m.homeHolds line write

/-- The home can serve the line now: a read has its data at hand. [log 95 DESIGN CHOICE] -/
def homeFree (m : Mach) (line : Nat) (write : Bool) : Bool := m.homeClear line write && (write || m.homeHas line)

/-- The home can perform a write of the masked bytes now: one of part of the line, or an atomic, has the rest at hand, but for a sector
write. -/
def homeReady (m : Mach) (line : Nat) (mask : BitVec 64) (sector : Bool) : Bool :=
  m.homeClear line true && (mask == fullMask || sector || m.homeHas line)

/-- Performs a request at a free home with every snoop answered: the data it returns, and the new state. A recall (agent 0x1FFF) is no
access of R405. An access that R423 has ended takes poison and does nothing. [log 208 DEDUCED] -/
def homeNow (m : Mach) (r : HomeReq) : (BitVec 512 × Bool) × Mach :=
  if m.tier.flashStall.contains r.line then ((0, true), m.modTier fun t => { t with flashStall := t.flashStall.filter fun l => l ≠ r.line })
  else
  let m := m.dropStash r.line
  let m := (if r.agent = 0x1FFF then m else m.deepAccess r.line).reapEntry r.line
  let (snoops, b) := m.snoopsFor r
  let m := m.countBcast r.line b
  let (t, m) := snoops.foldl (fun (acc : Txn × Mach) (x : Nat × SnpKind) =>
    let (ans, _, m) := acc.2.snoopAgent x.1 r.line x.2 .gone
    let m := if x.1 = hostAgent then m.emit (.biSnoop r.line) else m
    ({ acc.1 with got := (match ans with | .line d p => some (d, p) | _ => acc.1.got),
                  np := acc.1.np || (ans == .np && (m.entry r.line).state == .em) }, m)) (({ req := r } : Txn), m)
  let (ans, m) := m.homeFinish t
  let m := (m.landWrite r).dirEvict (homeSlice (64 * r.line))
  match ans with
  | some d => ((d.data, d.poison), m)
  | none => ((0, false), m)

/-- Asks the home to recall a line that only its host owner can give back (BISnp), or whose entry must be settled (R370), leaving it in U. -/
def homeRecall (m : Mach) (line : Nat) : Mach :=
  let r : HomeReq := { kind := .atm, agent := 0x1FFF, line := line }
  if m.lineBusy line || m.targetHeld (.home (64 * line)) || !m.homeCan r then m else m.homeStart r

/-- An uncached read of a line by agent `a`, performed at its home. [log 95 DESIGN CHOICE] -/
def readNow (m : Mach) (a line : Nat) (sector : Bool) : (BitVec 512 × Bool) × Mach :=
  m.homeNow { kind := .rdu, agent := a, line := line, sector := sector }

/-- An uncached write of the masked bytes of a line by agent `a`. [log 95 DESIGN CHOICE] -/
def writeNow (m : Mach) (a line : Nat) (d : BitVec 512) (mask : BitVec 64) (poison : Bool) (hint : Option Nat) (sector : Bool) : Mach :=
  (m.homeNow { kind := if mask = fullMask then .wrl else .wrp, agent := a, line := line, data := d, mask := mask, poison := poison, hint := hint,
               sector := sector }).2

/-- Where an access cannot be performed now, what it leaves behind so that it can be later: a held access for the deep tier, a recall from
the host, or a read of the stack; `part` marks a write that needs the rest of its line. [log 95 DESIGN CHOICE] -/
def homeChase (m : Mach) (a line : Nat) (write : Bool) (part : Bool := false) (sector : Option Nat := none) : Mach :=
  if m.homeHolds line write then m.deepHold a line (write || (m.entry line).state == .em) none
  else if (m.entry line).bad || ((m.entry line).state == .em && (m.entry line).host) then m.homeRecall line
  else if (part || !write) && m.homeClear line write && !m.homeHas line then
    m.hbmAsk line (HomeReq.cls { kind := if write then .wrp else .rdu, agent := a, line := line }) sector
  else m

/-- The line has been read from the stack: it enters the slice, or for a sector access waits for its requester (R380), and a transaction
that waits for it ends. -/
def homeFilled (m : Mach) (line : Nat) (d : BitVec 512) (poison sector : Bool) : Mach :=
  let m :=
    if (FMap.get none m.coh.lines line).isSome then m
    else if sector then m.modCoh fun c => { c with fills := FMap.set none c.fills line (some (d, poison)) }
    else m.slicePut line { data := d, poison := poison }
  match m.coh.txns.find? fun t => t.req.line == line && t.reading with
  | some t => ((m.modCoh fun c => { c with txns := c.txns.filter fun x => x.req.line ≠ line }).txnAnswered t).homeKick line
  | none => m

end Mach
end Machine
end Sys2Proof
end

