-- ==== Sys2Proof/Machine/Remote.lean ====
section
/-!
DEFINITION. Requests that leave the module: herd requests with their numbers (R29, R453, R462) and device-initiated accesses to the
host window (R468, R488, R492).
-/
namespace Sys2Proof
namespace Machine

/-- What becomes of a request at the herd port or the CXL port. -/
inductive Asked where
  /-- the address-error response of R27 or R29 -/
  | addrError
  /-- the destination has been declared dead (R443) -/
  | dead
  /-- bus-master enable is clear (R488) -/
  | blocked
  /-- accepted; the key by which its requester knows it -/
  | sent (key : Nat) (m : Mach)

/-- The key of a herd request by destination and number, of a host request, and of a REDUCE line. -/
def herdKey (dst num : Nat) : Nat := (num * 512 + dst) * 4
def hostKey (num : Nat) : Nat := num * 4 + 1
def atmKey (line : Nat) : Nat := line * 4 + 2

namespace Mach

/-- Unanswered requests to module `d` (R453). -/
def unansweredTo (m : Mach) (d : BitVec 9) : Nat := (m.herd.unanswered.filter fun o => o.msg.dst == d).length

/-- Sends waiting requests to module `d` while fewer than 128 are unanswered (R453). -/
def herdRoom (m : Mach) (d : BitVec 9) : Nat → Mach
  | 0 => m
  | n + 1 =>
    if 128 ≤ m.unansweredTo d then m
    else match m.herd.waiting.find? fun o => o.msg.dst == d with
      | none => m
      | some o =>
        let m := m.modHerd fun h => { h with waiting := h.waiting.erase o, unanswered := h.unanswered ++ [{ o with sentAt := m.now }] }
        herdRoom (m.herdSend o.msg) d n

/-- A request of agent `a` to module `dst`: `desc` names the Mule descriptor or ring it is for. -/
def herdAsk (m : Mach) (a desc dst : Nat) (kind : HerdKind) (addr : BitVec 46) (code : BitVec 10) (data : BitVec 512) (cmp : BitVec 64)
    (mask : BitVec 64) (tail : Bool) (poison : Bool := false) : Asked :=
  if !m.herd.attached || dst = 511 then .addrError
  else if (m.topoOf dst).dead then .dead
  else if dst ≠ m.herd.module.toNat && (m.topoOf dst).record.isNone then .addrError
  else
    let num := FMap.get 0 m.herd.nums dst
    let msg : HerdMsg := { kind := kind, src := m.herd.module, dst := BitVec.ofNat 9 dst, num := num, agent := BitVec.ofNat 13 a, addr := addr,
                           code := code, data := data, cmp := cmp, mask := mask, poison := poison, tail := tail,
                           hops := 0 }
    let m := m.modHerd fun h => { h with nums := FMap.set 0 h.nums dst (num + 1),
                                         waiting := h.waiting ++ [{ msg := msg, sentAt := m.now, desc := desc }] }
    .sent (herdKey dst num) (m.herdRoom (BitVec.ofNat 9 dst) 1)

/-- An address lies in an enabled UIO range (R468). -/
def inUio (m : Mach) (hpa : Nat) : Bool :=
  [0, 1, 2, 3].any fun u => m.bit (hostReg 0x14) u &&
    decide ((FMap.get 0 m.host.uioBase u).toNat / 4096 % 2 ^ 42 ≤ hpa / 4096) &&
    decide (hpa / 4096 ≤ (FMap.get 0 m.host.uioLimit u).toNat / 4096 % 2 ^ 42)

/-- A write of Hen `a` to line `line` of host memory has not landed: its next access to the line waits for it (R314). [log 202 DEDUCED] -/
def hostOwes (m : Mach) (a line : Nat) : Bool := m.host.reqs.any fun q => q.who == .henWrite a && q.line == line

end Mach

/-- The CXL.cache operation of a device request (R468). -/
def HostReq.op (q : HostReq) : CxlOp :=
  match q.who with
  | .sysFill _ own => if own then .rdOwn else .rdShared
  | .sysBack => if q.write then .dirtyEvict else .cleanEvict
  | _ => if !q.write then .rdCurr else if q.mask == fullMask then .itoMWr else .woWrInv

namespace Mach

/-- Sends a device request through the port. -/
def hostOut (m : Mach) (q : HostReq) : Mach := m.emit (.hostReq q.num q.op q.uio)

/-- A device-initiated access to line `line` of host memory. -/
def hostAsk (m : Mach) (who : HostWho) (line : Nat) (write : Bool) (data : BitVec 512) (mask : BitVec 64)
    (poison : Bool := false) : Asked :=
  if m.host.state == .attached && !m.host.bme then .blocked
  else
    let go := m.host.state == .attached
    let n := m.host.nextReq
    let q : HostReq := { num := n, who := who, line := line, write := write, data := data, mask := mask, poison := poison, sent := go, stalled := !go,
                         uio := m.inUio (64 * line) }
    let m := m.modHost fun h => { h with reqs := h.reqs ++ [q], nextReq := n + 1 }
    .sent (hostKey n) (if go then m.hostOut q else m.count (hostReg 0x28) true)

/-- A host-window write that bus-master enable stops is dropped and counted (R488). -/
def bmeDrop (m : Mach) : Mach := m.count (hostReg 0x28) false

end Mach
end Machine
end Sys2Proof
end

