-- ==== Sys2Proof/Machine/HenCore.lean ====
section
/-!
DEFINITION. The Hen: the region table (R171 to R174), the instruction fetch (R181, R186), the store buffer and how its entries
retire (R176 to R179, Table 10-2), taking an exception or interrupt and the return from one (R195 to R200, R243), the selection of
instructions by word (R206, Table 7-2), and the operations of HEN_CTL (R202).
-/
namespace Sys2Proof
namespace Machine

/-! ### The selection of an instruction (R205, Table 7-2) -/

/-- The fields that select an instruction of its opcode, as one number: opcode × 64 + the selecting func, KIND or SUB field. -/
def henKey (w : BitVec 32) : Nat :=
  let o := HenAlu.op w
  o * 64 + match o with
    | 0x01 | 0x31 | 0x3C | 0x3D | 0x22 | 0x23 | 0x24 => HenAlu.fld w 0 6
    | 0x18 => HenAlu.fld w 6 5
    | 0x25 => HenAlu.fld w 0 5
    | 0x3E => HenAlu.fld w 6 2
    | 0x3F => HenAlu.fld w 20 6
    | _ => 0

/-- The selections that Tables 7-2 to 7-11 assign; every other word is reserved (R206). [log 59 DEDUCED] -/
def henAssigned (k : Nat) : Bool :=
  let o := k / 64
  let f := k % 64
  match o with
  | 0x01 => decide (f ≤ 26)
  | 0x18 => decide (f ≤ 12) || f == 16
  | 0x22 => decide (f ≤ 8) || (decide (16 ≤ f) && decide (f ≤ 18)) || f == 20
  | 0x23 => decide (f ≤ 6) || (decide (8 ≤ f) && decide (f ≤ 14))
  | 0x24 => decide (f ≤ 9)
  | 0x25 => decide (f ≤ 2)
  | 0x31 => decide (f ≤ 4) || f == 8 || f == 9
  | 0x3C => decide (f ≤ 4)
  | 0x3D => decide (f ≤ 6) || f == 8
  | 0x3E => true
  | 0x3F => decide (f ≤ 4)
  | o => (decide (2 ≤ o) && decide (o ≤ 0x0A)) || (decide (0x10 ≤ o) && decide (o ≤ 0x16)) || (decide (0x1A ≤ o) && decide (o ≤ 0x1E))
          || o == 0x20 || o == 0x21 || (decide (0x26 ≤ o) && decide (o ≤ 0x30))

namespace Mach

/-! ### Region table (R171 to R174, Table 6-3) -/

/-- The management window's base (R533). -/
def mgmtWindow (m : Mach) : Nat := 64 * m.viewLines - 0x900000

/-- Reset values of RGN_BASE_i and RGN_LIMIT_i. -/
def rgnReset (m : Mach) (a i : Nat) : BitVec 64 × BitVec 64 :=
  match i with
  | 0 =>
    let b := if isMgmtHen a then m.mgmtWindow else flockMemBase (flockOf a)
    (BitVec.ofNat 64 (2 ^ 63 + b + 0x1C), BitVec.ofNat 64 (b + 0x7FF000))
  | 1 =>
    let b := 0x7F00_0000_0000 + dieBase (agentDie a)
    (BitVec.ofNat 64 (2 ^ 63 + b + 0x0E), BitVec.ofNat 64 (b + 0xFFFF_F000))
  | _ => (0, 0)

def rgnBase (m : Mach) (a i : Nat) : BitVec 64 := (FMap.get none (m.hen a).rgnBase i).getD (m.rgnReset a i).1
def rgnLimit (m : Mach) (a i : Nat) : BitVec 64 := (FMap.get none (m.hen a).rgnLimit i).getD (m.rgnReset a i).2

/-- Entry i is valid, is not of TYPE 3 and contains the page of an address. -/
def rgnHolds (m : Mach) (a i addr : Nat) : Bool :=
  let b := (m.rgnBase a i).toNat
  let l := (m.rgnLimit a i).toNat
  Bits.nbit b 63 && b % 4 ≠ 3 && decide (Bits.nfield b 12 44 ≤ addr / 4096) && decide (addr / 4096 ≤ Bits.nfield l 12 44)

/-- The entry that decides an access: the lowest-numbered one that holds the page. -/
def rgnEntry (m : Mach) (a addr : Nat) : Option (BitVec 64) :=
  if 2 ^ 56 ≤ addr then none
  else ((List.range 16).find? fun i => m.rgnHolds a i addr).map fun i => m.rgnBase a i

/-- The kinds of access that have a permission bit. -/
def rgnBit (priv : Bool) (kind : Nat) : Nat := if priv then 2 + kind else 5 + kind

/-- TYPE of the region that allows an access of kind 0 read, 1 write, 2 fetch; none where it is an access fault (R171). -/
def rgnAllow (m : Mach) (a addr kind : Nat) : Option Nat :=
  match m.rgnEntry a addr with
  | none => none
  | some e => if e.getLsbD (rgnBit (m.hen a).priv kind) then some (e.toNat % 4) else none

/-! ### Clock, interrupts and status -/

/-- The clock of a Hen: fclk of its die, or mclk (R165). [log 80 DESIGN CHOICE] -/
def henClock (m : Mach) (a : Nat) : Nat := if isFlockAgent a then m.fclk (agentDie a - 1) else m.now

/-- CYCLE (R241). [log 80 DESIGN CHOICE] -/
def henCycle (m : Mach) (a : Nat) : Nat :=
  m.henClock a - (if isFlockAgent a then (m.hen a).cycleBase else max (m.hen a).cycleBase m.boot.resetAt)

/-- The sources pending, as IPEND (Table 7-15). -/
def henPending (m : Mach) (a : Nat) : BitVec 3 :=
  let h := m.hen a
  BitVec.ofNat 3 (Bits.ofBool (decide (h.timecmp.toNat ≤ m.henCycle a)) + 2 * Bits.ofBool h.ipCollie + 4 * Bits.ofBool h.ipMgmt)

/-- A Hen may issue: it runs, its clock runs, and lean state does not stop it (R66). -/
def henLive (m : Mach) (a : Nat) : Bool :=
  (m.hen a).state == .running && !m.boot.inReset
    && (if isFlockAgent a then m.flockOn (flockOf a) && Die.running (m.die (agentDie a - 1)) else true)
    && !(m.inLean && !(m.hen a).priv)

/-! ### Imprecise exceptions (R198) -/

def henImprecise (m : Mach) (a code addr : Nat) : Mach :=
  match (m.hen a).imp with
  | none => m.modHen a fun h => { h with imp := some { code := code, addr := addr } }
  | some x => (m.modHen a fun h => { h with imp := some { x with overflow := true } }).count (henReg a 0x10) false

/-! ### Requests of a Hen on their way to a home -/

/-- A request of the agent for the line is on its way, waits or is being answered. -/
def henAsked (m : Mach) (a line : Nat) : Bool :=
  let mine (r : HomeReq) : Bool := r.agent == a && r.line == line
  m.coh.reqs.any mine || m.coh.queue.any mine || m.coh.nacked.any mine || (m.coh.txns.any fun t => mine t.req)
    || (m.coh.dats.any fun d => d.agent == a && d.line == line)
    || (m.tier.held.any fun x => match x.req with | some r => mine r | none => false)

/-- Sends a request to the home of a line. -/
def henPost (m : Mach) (r : HomeReq) : Mach :=
  if m.henAsked r.agent r.line then m else m.modCoh fun c => { c with reqs := c.reqs ++ [r] }

/-! ### The store buffer (R176 to R179, R321) -/

/-- The name of a line that two views of HBM share (R315): its storage line, or the address's own line. -/
def lineOf (m : Mach) (pa : Nat) : Nat :=
  match m.target pa with
  | .home sa => sa / 64
  | _ => pa / 64

/-- Enters a store (R176): it merges into the youngest entry for its line that has not begun to retire, else takes a new entry. -/
def sbPut (m : Mach) (a : Nat) (e : SbEntry) : Mach :=
  m.modHen a fun h =>
    match (h.sb.filter fun x => x.line == e.line).getLast? with
    | some y =>
      if y.begun then { h with sb := h.sb ++ [e] }
      else
        let n : SbEntry := { y with mask := y.mask ||| e.mask, data := mergeLine y.data e.data e.mask, uncached := y.uncached || e.uncached,
                                    hint := (match e.hint with | some t => some t | none => y.hint), refused := y.refused ++ e.refused }
        { h with sb := h.sb.map fun x => if x == y then n else x }
    | none => { h with sb := h.sb ++ [e] }

/-- Every entry is in use and the store takes a new one. -/
def sbFull (m : Mach) (a line : Nat) : Bool :=
  let h := m.hen a
  decide (16 ≤ h.sb.length) && !(match (h.sb.filter fun x => x.line == line).getLast? with | some y => !y.begun | none => false)

/-- An entry has retired. -/
def sbDone (m : Mach) (a : Nat) (e : SbEntry) : Mach := m.modHen a fun h => { h with sb := h.sb.erase e, stallSb := false }

/-- An entry begins to retire. -/
def sbBegin (m : Mach) (a : Nat) (e : SbEntry) : Mach :=
  m.modHen a fun h => { h with sb := h.sb.map fun x => if x == e then { x with begun := true } else x }

/-- Bytes of a line written by Hen `a`: reservations in them are lost. -/
def henWrote (m : Mach) (a line : Nat) : Mach := (m.clearResv (some a) line).clearOwnResv a line

/-- The address of the first byte written by an entry, as the store that made the entry names its line. [log 197 DESIGN CHOICE] -/
def sbAddr (e : SbEntry) : Nat := 64 * e.view.getD e.line + ((List.range 64).find? fun i => e.mask.getLsbD i).getD 0

/-- An entry whose home or bank lies on a dead die is retired as lost (R326). -/
def sbLost (m : Mach) (a : Nat) (e : SbEntry) : Mach := (m.sbDone a e).henImprecise a 9 (sbAddr e)

/-- An entry that met the response of R27. -/
def sbBad (m : Mach) (a : Nat) (e : SbEntry) (charge : Charge) : Mach :=
  ((m.sbDone a e).addrError charge a).henImprecise a 8 (sbAddr e)

/-- The line or register that an entry is for lies on a dead die, and no line in M or E takes it here (R326). -/
def sbDies (m : Mach) (a : Nat) (e : SbEntry) : Bool :=
  let t := m.target (64 * e.line)
  let held := !e.uncached && (m.hen a).dcEn && e.hint.isNone && ((m.hen a).find e.line).any fun x => x.st ≠ .s
  m.targetDead t && match t with
    | .dev _ => e.refused.isEmpty
    | _ => !held

/-- Retires an entry into its data-cache line in M or E, or asks for the line (R177, R352). -/
def sbCache (m : Mach) (a : Nat) (e : SbEntry) : Mach :=
  match m.henLook a e.line with
  | (some x, m) =>
    if x.st = .s then (m.sbBegin a e).henPost { kind := .upg, agent := a, line := e.line }
    else
      let y : CacheLine := { x with st := .m, data := mergeLine x.data e.data e.mask, poison := x.poison && e.mask ≠ fullMask }
      let m := (m.henHit a e.line 0).modHen a fun h => h.update e.line (some y)
      (m.sbDone a e).henWrote a e.line
  | (none, m) =>
    if !(m.hen a).sb.contains e then m
    else if m.sbDies a e then m.sbLost a e
    else (m.sbBegin a e).henPost { kind := .rdo, agent := a, line := e.line }

/-- An entry tries to retire (R177, Table 10-2). A store for device register space stays until SB_RETIRE performs it, and one for flock
memory of another die is on its way once the Kerly port has it. -/
def sbTry (m : Mach) (a : Nat) (e : SbEntry) : Mach :=
  let t := m.target (64 * e.line)
  if m.sbDies a e then m.sbLost a e
  else match t with
  | .home _ =>
    if !e.uncached && (m.hen a).dcEn && e.hint.isNone then m.sbCache a e
    else if m.targetHeld t then m
    else (m.sbBegin a e).henPost { kind := if e.mask = fullMask then .wrl else .wrp, agent := a, line := e.line, data := e.data, mask := e.mask,
                                   sector := (e.uncached || !(m.hen a).dcEn) && (e.mask.toNat < 2 ^ 32 || e.mask.toNat % 2 ^ 32 == 0),
                                   hint := if e.uncached || !(m.hen a).dcEn then none else e.hint }
  | .flock fb _ =>
    if agentDie fb ≠ agentDie a then (m.sbDone a e).modHen a fun h => { h with crossing := h.crossing ++ [{ line := e.line, data := e.data, mask := e.mask }] }
    else if m.targetHeld t then m
    else ((m.sbDone a e).fmWrite fb e.line e.data e.mask false).henWrote a e.line
  | .host hpa => if m.hostOwes a (hpa / 64) then m else match m.hostAsk (.henWrite a) (hpa / 64) true e.data e.mask with
    | .sent k m => (m.sbDone a e).modHen a fun h => { h with unlanded := h.unlanded ++ [k] }
    | _ => ((m.bmeDrop.sbDone a e).henImprecise a 8 (sbAddr e))
  | .herd md off => match m.herdAsk a 0 md .write (BitVec.ofNat 46 off) 0 e.data 0 e.mask false with
    | .sent k m => (m.sbDone a e).modHen a fun h => { h with unlanded := h.unlanded ++ [k] }
    | .dead => m.sbLost a e
    | _ => m.sbBad a e .nowhere
  | .dev _ => m
  | .bad c => m.sbBad a e c

/-- Entries for one line retire in the order made (R177): entry `e` tries if it is the oldest for its line. -/
def sbOldest (m : Mach) (a : Nat) (e : SbEntry) : Mach :=
  if ((m.hen a).sb.find? fun x => x.line == e.line) = some e then m.sbTry a e else m

/-- Every entry tries to retire, oldest first. -/
def sbDrain (m : Mach) (a : Nat) : Mach := m.forEach (m.hen a).sb fun m e => m.sbOldest a e

/-- The store buffer has drained, and no parity error met on the way stops the Hen. -/
def sbEmpty (m : Mach) (a : Nat) : Bool := m.henUp a && (m.hen a).sb.isEmpty

/-- A store on its way to another die's flock memory reaches its bank: it lands, or meets the response of R27 or a dead die (R321, R326). [log 96 DEDUCED] -/
def crossLand (m : Mach) (a : Nat) (x : Crossing) : Mach :=
  let t := m.target (64 * x.line)
  let done : Mach := m.modHen a fun h => { h with crossing := h.crossing.erase x }
  let pa := 64 * x.line + ((List.range 64).find? fun i => x.mask.getLsbD i).getD 0
  if m.targetDead t then done.henImprecise a 9 pa
  else if m.targetHeld t then m
  else match t with
  | .flock fb _ => (done.fmWrite fb x.line x.data x.mask false).henWrote a x.line
  | .bad c => (done.addrError c a).henImprecise a 8 pa
  | _ => done

/-- The Hen's own stores to a line land before its read of the line at the same port (R314). [log 96 DEDUCED] -/
def crossFirst (m : Mach) (a line : Nat) : Mach := m.forEach ((m.hen a).crossing.filter fun x => x.line == line) fun m x => m.crossLand a x

/-! ### Taking an exception or interrupt, and the return from one (R196, R199) -/

/-- Entry, with the store buffer drained: EPC, ECAUSE and ETVAL are written, ESTATUS saves the privilege and EXC_EN, and the Hen
fetches from VBASE in firmware privilege with EXC_EN cleared. The reservation and any LR hold end (R332). -/
def henEnter (m : Mach) (a : Nat) (cause : BitVec 10) (tval : BitVec 64) : Mach :=
  m.modHen a fun h => { h with epc := h.pc, ecause := cause, etval := tval, estPriv := h.priv, estExcEn := h.excEn, priv := true,
                               excEn := false, pc := h.vbase, resv := none, hold := none, wait := .none, stallDeep := false }

/-- ERET (R196): privilege and EXC_EN from ESTATUS, and the Hen continues at EPC. -/
def henReturn (m : Mach) (a : Nat) : Mach :=
  m.modHen a fun h => { h with priv := h.estPriv, excEn := h.estExcEn, pc := h.epc, instret := h.instret + 1, wait := .none }

/-- A Hen that has begun to stop drains its store buffer, and stops once it is empty. -/
def henStopGo (m : Mach) (a : Nat) : Mach :=
  let m := m.sbDrain a
  match (m.hen a).wait with
  | .stop c => if (m.hen a).sb.isEmpty then m.henHalt a c else m
  | _ => m

/-- A double fault (R199). -/
def henDouble (m : Mach) (a : Nat) : Mach := (m.henStop a 2).henStopGo a

/-- A precise exception: entry once the store buffer has drained, or a double fault in firmware privilege with EXC_EN clear. -/
def henRaise (m : Mach) (a code tval : Nat) : Mach :=
  if (m.hen a).priv && !(m.hen a).excEn then m.henDouble a
  else
    let m := m.sbDrain a
    if m.sbEmpty a then m.henEnter a (BitVec.ofNat 10 code) (BitVec.ofNat 64 tval)
    else if m.henUp a then m.modHen a fun h => { h with wait := .raise code tval, hold := none }
    else m

/-- Imprecise exceptions and interrupts may be taken (R197, R200, R333). -/
def henOpen (m : Mach) (a : Nat) : Bool := (!(m.hen a).priv || (m.hen a).excEn) && !m.holdOn a

/-- A pending enabled interrupt. -/
def henIrqs (m : Mach) (a : Nat) : BitVec 3 := m.henPending a &&& (m.hen a).ie

/-- WFI is complete once an enabled source is pending (R239). -/
def henWfi (m : Mach) (a : Nat) : Mach := if (m.hen a).wait = .wfi && m.henIrqs a ≠ 0 then m.henNext a else m

/-- The Hen stands at an instruction boundary, or waits on a data-cache miss that it may abandon (R197). [log 70 DESIGN CHOICE] -/
def henBreakable (m : Mach) (a : Nat) : Bool :=
  match (m.hen a).wait with
  | .none => true
  | .load _ _ _ _ _ _ lr cached => cached && !lr
  | _ => false

/-- Abandons the load in flight; it runs again after ERET, and LOAD_RESTART counts. [log 70 DESIGN CHOICE] -/
def henAbandon (m : Mach) (a : Nat) : Mach :=
  match (m.hen a).wait with
  | .load .. => (m.modHen a fun h => { h with wait := .none, stallDeep := false }).count (henReg a 0x1C) false
  | _ => m

/-- Takes the pending imprecise exception once the store buffer has drained. -/
def henTakeImprecise (m : Mach) (a : Nat) (x : Imprecise) : Mach :=
  let m := (m.henAbandon a).sbDrain a
  if m.sbEmpty a then
    let x := (m.hen a).imp.getD x
    (m.modHen a fun h => { h with imp := none }).henEnter a (BitVec.ofNat 10 (x.code + 0x100 + Bits.ofBool x.overflow * 0x200)) (BitVec.ofNat 64 x.addr)
  else m

/-- Takes the enabled interrupts once the store buffer has drained. -/
def henTakeIrq (m : Mach) (a : Nat) : Mach :=
  let m := (m.henAbandon a).sbDrain a
  if m.sbEmpty a then m.henEnter a 12 ((m.henPending a).setWidth 64) else m

/-- BAR (R324, R325): it clears the reservation and completes once the store buffer has drained and every write has landed; until then
it is in flight, and nothing is taken in its place. -/
def henBarGo (m : Mach) (a : Nat) : Mach :=
  let m := m.sbDrain a
  if !m.henUp a then m
  else if (m.hen a).sb.isEmpty && (m.hen a).unlanded.isEmpty && (m.hen a).crossing.isEmpty then (m.modHen a fun h => { h with resv := none }).henNext a
  else m.modHen a fun h => { h with wait := .bar }

/-- The first two steps of R243, and what waits for the drain of the store buffer: what the Hen does before it issues, if anything. [log 198 DEDUCED] -/
def henBoundary (m : Mach) (a : Nat) : Option Mach :=
  match (m.hen a).wait with
  | .raise c v => some (m.henRaise a c v)
  | .bar => some (m.henBarGo a)
  | .stop _ => some (m.henStopGo a)
  | _ =>
    if m.henBreakable a && m.henOpen a then
      match (m.hen a).imp with
      | some x => some (m.henTakeImprecise a x)
      | none => if m.henIrqs a ≠ 0 then some (m.henTakeIrq a) else none
    else none

/-! ### Fetch (R173, R181, R186) -/

/-- What a fetch gives. -/
inductive Fetched where
  | word (w : BitVec 32) (m : Mach)
  | fault (code tval : Nat) (m : Mach)
  | wait (m : Mach)

/-- Fills a line into the instruction cache: 256 sets of two ways, indexed by PA[13:6], least recently used first out. [log 181 DEDUCED] -/
def icFill (m : Mach) (a line : Nat) (d : BitVec 512) : Mach :=
  m.modHen a fun h =>
    let s := FMap.get [] h.icSets (line % 256)
    let keep := (s.filter fun l => l ≠ line).take 1
    let out := (s.filter fun l => l ≠ line).drop 1
    { h with icSets := FMap.set [] h.icSets (line % 256) (line :: keep)
             ic := FMap.set none (out.foldl (fun c l => FMap.set none c l none) h.ic) line (some d)
             icBad := h.icBad.filter fun l => l ≠ line && !out.contains l }

/-- Removes a line from the instruction cache. [log 25 DESIGN CHOICE] -/
def icDrop (m : Mach) (a line : Nat) : Mach :=
  m.modHen a fun h =>
    { h with icSets := FMap.set [] h.icSets (line % 256) ((FMap.get [] h.icSets (line % 256)).filter fun l => l ≠ line)
             ic := FMap.set none h.ic line none, icBad := h.icBad.filter fun l => l ≠ line }

/-- The instruction at byte address `pa` of a line. -/
def wordAt (d : BitVec 512) (pa : Nat) : BitVec 32 := BitVec.ofNat 32 (lineField d (pa % 64 / 4 * 4) 4)

/-- A fetched line enters the cache and gives its word; poisoned data is a FETCH_FAULT (R242). -/
def fetchGot (m : Mach) (a pa line : Nat) (d : BitVec 512) (poison : Bool) : Fetched :=
  if poison then .fault 3 pa m else .word (wordAt d pa) (m.icFill a line d)

/-- An access that its home cannot serve yet: the Hen shows STALL_DEEP where it waits for the deep tier (R409, Table 6-10). [log 58 DEDUCED] -/
def henChase (m : Mach) (a line : Nat) (write part : Bool) : Mach :=
  let wait := m.homeHolds line write
  let m := m.homeChase a line write part
  if wait then m.modHen a fun h => { h with stallDeep := true } else m

/-- A fetch that misses the instruction cache. -/
def fetchMiss (m : Mach) (a pa : Nat) : Fetched :=
  let t := m.target pa
  if m.targetDead t then .fault 3 pa m
  else if m.targetHeld t then .wait m
  else match t with
  | .home sa =>
    if m.homeFree (sa / 64) false then
      let ((d, p), m) := m.readNow a (sa / 64) false
      m.fetchGot a pa (sa / 64) d p
    else .wait (m.henChase a (sa / 64) false false)
  | .flock fb _ =>
    let ((d, p), m) := m.fmRead fb (pa / 64)
    m.fetchGot a pa (pa / 64) d p
  | .host hpa => match m.hostAsk (.henRead a) (hpa / 64) false 0 0 with
    | .sent k m => .wait (m.modHen a fun h => { h with wait := .fetch pa k })
    | _ => .fault 6 pa m
  | .herd md off => match m.herdAsk a 0 md .read (BitVec.ofNat 46 (off / 64 * 64)) 64 0 0 fullMask false with
    | .sent k m => .wait (m.modHen a fun h => { h with wait := .fetch pa k })
    | .dead => .fault 3 pa m
    | _ => .fault 6 pa (m.addrError .nowhere a)
  | .dev off => .fault 6 pa (m.addrError (.die (off / 0x100000000)) a)
  | .bad c => .fault 6 pa (m.addrError c a)

/-- The fetch at PC. A line fetched from herd space serves one fetch only (R30). [log 25 DESIGN CHOICE] -/
def henFetch (m : Mach) (a : Nat) : Fetched :=
  let pa := (m.hen a).pc.toNat
  match m.rgnAllow a pa 2 with
  | some 0 =>
    let line := m.lineOf pa
    match FMap.get none (m.hen a).ic line with
    | some d =>
      if (m.hen a).icBad.contains line then ((m.icDrop a line).count (henReg a 8) true).fetchMiss a pa
      else .word (wordAt d pa) (if 2 ^ 55 ≤ pa then m.icDrop a line else m.icFill a line d)
    | none => m.fetchMiss a pa
  | _ => .fault 3 pa m

/-! ### Issue -/

/-- The instructions that continue an LR hold (R333), by word. [log 78 DEDUCED] -/
def holdKeeps (w : BitVec 32) : Bool :=
  match HenAlu.op w with
  | 0x01 => let f := HenAlu.fld w 0 6; decide (f < 16) || (decide (24 ≤ f) && decide (f ≤ 26))
  | 0x02 | 0x03 | 0x04 | 0x05 | 0x06 | 0x07 | 0x08 | 0x09 | 0x0A => true
  | 0x28 | 0x29 | 0x2A | 0x2B | 0x2C | 0x2D => decide (0 < HenAlu.off16 w)
  | _ => false

/-- The next SC ends the hold itself, after it has succeeded. -/
def isSc (w : BitVec 32) : Bool := HenAlu.op w == 0x18 && HenAlu.fld w 6 5 == 1

/-- An instruction issues during an LR hold: the hold counts it, or ends. -/
def henHold (m : Mach) (a : Nat) (w : BitVec 32) : Mach :=
  m.modHen a fun h => match h.hold with
    | none => h
    | some x => if isSc w then h else if holdKeeps w && decide (x.count + 1 < 16) then { h with hold := some { x with count := x.count + 1 } }
                else { h with hold := none }

/-- The Hen stands ready for its next instruction. -/
def henIdle (m : Mach) (a : Nat) : Bool := m.henLive a && (m.hen a).wait == .none

/-- One instruction of Hen `a` with selection `key`, whose word the fetch returned as `w`: what R243 has the Hen do first, the fetch, an
illegal word (R206), or the instruction. A word of another instruction, or another word than the fetch returns, is no occurrence. [log 3 DESIGN CHOICE, 23 DESIGN CHOICE, 58 DEDUCED, 59 DEDUCED] -/
def henStep (m : Mach) (a : Nat) (w : BitVec 32) (key : Nat) (body : Mach → Mach) : Mach :=
  let m := m.henWfi a
  if !m.henLive a then m
  else match m.henBoundary a with
  | some m' => m'
  | none =>
    if (m.hen a).wait ≠ .none then m
    else match m.henFetch a with
    | .wait m' => m'
    | .fault c v m' => m'.henRaise a c v
    | .word x m' =>
      if x ≠ w then m
      else if !henAssigned (henKey w) then (m'.henHold a w).henRaise a 1 w.toNat
      else if henKey w ≠ key then m
      else body (m'.henHold a w)

/-- The instruction word is illegal (R206). [log 59 DEDUCED] -/
def henIllegal (m : Mach) (a : Nat) (w : BitVec 32) : Mach := m.henRaise a 1 w.toNat

/-- The instruction needs firmware privilege (R170). -/
def henPrivilege (m : Mach) (a : Nat) (w : BitVec 32) : Mach := m.henRaise a 2 w.toNat

def g (m : Mach) (a r : Nat) : BitVec 64 := FMap.get 0 (m.hen a).g r
def v (m : Mach) (a r : Nat) : BitVec 512 := FMap.get 0 (m.hen a).v r
/-- p0 reads all ones. -/
def p (m : Mach) (a r : Nat) : BitVec 64 := if r = 0 then BitVec.allOnes 64 else FMap.get 0 (m.hen a).p r
def setV (m : Mach) (a r : Nat) (x : BitVec 512) : Mach := m.modHen a fun h => { h with v := FMap.set 0 h.v r x }
/-- A write to p0 is discarded (R227). -/
def setP (m : Mach) (a r : Nat) (x : BitVec 64) : Mach := if r = 0 then m else m.modHen a fun h => { h with p := FMap.set 0 h.p r x }

/-! ### Loads -/

/-- The register value of `size` bytes read. -/
def loadValue (size : Nat) (signed : Bool) (raw : Nat) : BitVec 64 :=
  if signed then BitVec.ofInt 64 (Bits.sext raw (8 * size)) else BitVec.ofNat 64 raw

/-- A load gets its line: the bytes at `addr`, into g[rd], or the active bytes of the line into v[rd]; it is complete. -/
def henLoaded (m : Mach) (a rd addr size : Nat) (signed vec : Bool) (mask : BitVec 64) (d : BitVec 512) : Mach :=
  if vec then (m.setV a rd (mergeLine (m.v a rd) d mask)).henNext a
  else (m.setG a rd (loadValue size signed (lineField d (addr % 64) size))).henNext a

/-! ### Writing back and invalidating (R189, R202, R235) -/

/-- Writes a dirty line back and keeps it clean: its owner keeps E (Table 11-3, KEEP). A parity error in it is fatal (R187). -/
def cleanLine (m : Mach) (a line : Nat) : Mach :=
  match (m.hen a).find line with
  | some x =>
    if x.st = .m then
      if x.bad then (m.modHen a fun h => h.update line none).dirtyParity a x true
      else (m.sendWb a x false true).modHen a fun h => h.update line (some { x with st := .e })
    else m
  | none => m

/-- Writes a dirty line back and gives it up, or drops a clean one. -/
def flushLine (m : Mach) (a line : Nat) : Mach :=
  match (m.hen a).find line with
  | some x => (m.modHen a fun h => h.update line none).lineOut a x
  | none => m

/-- Discards a line without write-back; the home is told where it was dirty (R238). -/
def invLine (m : Mach) (a line : Nat) : Mach :=
  match (m.hen a).find line with
  | some x =>
    let m := (m.modHen a fun h => h.update line none).lineLeft a line
    if x.st = .m then m.modCoh fun c => { c with wbs := c.wbs ++ [{ agent := a, line := line, data := 0, poison := false, keep := false, invn := true }] }
    else m
  | none => m

def allLines (m : Mach) (a : Nat) (f : Mach → Nat → Mach) : Mach := m.forEach ((m.hen a).heldLines.map fun x => x.line) f

/-! ### HEN_CTL (R202) -/

/-- What waits for the drain of the store buffer is tried again, and a quiescing Hen whose instruction has completed drains its store
buffer, returns its items and enters DISABLED. [log 198 DEDUCED] -/
def henPoke (m : Mach) (a : Nat) : Mach :=
  let m := match (m.hen a).wait with
    | .raise c v => m.henRaise a c v
    | .bar => m.henBarGo a
    | .stop _ => m.henStopGo a
    | _ => m
  if (m.hen a).state == .quiescing && ((m.hen a).wait == .none || (m.hen a).wait == .wfi) then
    let m := m.sbDrain a
    if m.henUp a then m.henQuiet a else m
  else m

/-- REQ = 0. [log 60 DESIGN CHOICE] -/
def henRunOp (m : Mach) (a : Nat) : Mach :=
  match (m.hen a).state with
  | .disabled => (m.modHen a fun h => { h with state := .running }).setFld (henReg a 0) 0 2 0
  | .running => m.setFld (henReg a 0) 0 2 0
  | _ => m.badWrite (henReg a 0)

/-- REQ = 1. -/
def henQuiesceOp (m : Mach) (a : Nat) : Mach :=
  match (m.hen a).state with
  | .running => ((m.modHen a fun h => { h with state := .quiescing }).setFld (henReg a 0) 0 2 1).henPoke a
  | .quiescing | .disabled => m.setFld (henReg a 0) 0 2 1
  | _ => m.badWrite (henReg a 0)

/-- What a forced disable abandons: the instruction in flight and its request (R202, R203). -/
def henForget (m : Mach) (a : Nat) : Mach :=
  let m := (m.modHen a fun h => { h with wait := .none, hold := none, stallDeep := false }).syncForget (.hen a)
  let stores (l : Nat) : Bool := (m.hen a).sb.any fun e => e.line == l
  let m := m.modTier fun t => { t with held := t.held.filter fun h => h.agent ≠ a || stores h.line }
  m.modCoh fun c => { c with reqs := c.reqs.filter fun r => !(r.agent == a && r.kind == .rdu)
                             dats := c.dats.filter fun d => !(d.agent == a && d.st.isNone && !d.grantOnly) }

/-- REQ = 2. A Hen that already stops for a cause of its own goes on with that. [log 79 DEDUCED] -/
def henForceOp (m : Mach) (a : Nat) : Mach :=
  match (m.hen a).state with
  | .running | .quiescing =>
    let m := m.setFld (henReg a 0) 0 2 2
    if m.henUp a then (((m.henForget a).modHen a fun h => { h with state := .quiescing }).henStop a 0).henStopGo a else m
  | .disabled => m.setFld (henReg a 0) 0 2 2
  | _ => m.badWrite (henReg a 0)

/-- REQ = 3: every dirty line goes home, the caches are invalidated, the region table and the control registers take their reset
values, and firmware starts at the reset entry. [log 181 DEDUCED] -/
def henRestartOp (m : Mach) (a : Nat) : Mach :=
  if (m.hen a).state == .halted || (m.hen a).state == .disabled then
    let m := m.allLines a fun m l => m.flushLine a l
    let m := m.modHen a fun h =>
      { ({} : Hen) with state := .running, pc := h.bootPc, g := h.g, v := h.v, p := h.p, vbase := h.bootVec, cycleBase := m.henClock a, sb := h.sb,
                        haltAddr := h.haltAddr, haltPc := h.haltPc, slice := h.slice, unlanded := h.unlanded, crossing := h.crossing,
                        bootPc := h.bootPc, bootVec := h.bootVec,
                        fwLoaded := h.fwLoaded }
    m.setFld (henReg a 0) 0 2 3
  else m.badWrite (henReg a 0)

/-- IRQ = 1 raises MGMT (R200). -/
def henIrqOp (m : Mach) (a : Nat) : Mach := (m.modHen a fun h => { h with ipMgmt := true }).henWfi a

/-- A write to HEN_CTL (Table 6-9), with its mask applied. [log 76 DEDUCED] -/
def henCtlWrite (m : Mach) (a : Nat) (w : BitVec 32) : Mach :=
  let mask := Bits.field w 16 16
  let m := if Bits.nbit mask 2 && w.getLsbD 2 then m.henIrqOp a else m
  if mask % 4 = 0 then m
  else
    let old := m.fld (henReg a 0) 0 2
    match (w.toNat % 4 &&& mask) ||| (old &&& (3 - mask % 4)) with
    | 0 => m.henRunOp a
    | 1 => m.henQuiesceOp a
    | 2 => m.henForceOp a
    | _ => m.henRestartOp a

end Mach
end Machine
end Sys2Proof
end

