-- ==== Sys2Proof/Machine/CohOps.lean ====
section
/-!
DEFINITION. Coherence at the Hens (what arriving data, grants and stashes do: R183, R331, R355, R359, R360), the atomic queues
(R361 to R364) with REDUCE (R292), the write-backs at their home (R354), and the upkeep of the slices (R350, R366, R367, R369).
-/
namespace Sys2Proof
namespace Machine

/-! ### Atomic operations on a line (Table 7-5, R292) -/

/-- The operation of ATOM func[10:6]. -/
def amoOf (op : Nat) : HenAlu.AmoOp :=
  match op with
  | 2 => .swap | 3 => .add | 4 => .and | 5 => .or | 6 => .xor | 7 => .min | 8 => .max | 9 => .minu | 10 => .maxu | 11 => .cas | _ => .fadd

/-- One AMO on an element of a line: the old element, and the line after it. `code` is func[10:4]: operation × 4 + SIZE. -/
def amoLine (d : BitVec 512) (code off : Nat) (arg cmp : BitVec 64) : Nat × BitVec 512 :=
  let n := 2 ^ (code % 4)
  let old := lineField d off n
  let new := HenAlu.amoW (8 * n) (amoOf (code / 4)) (BitVec.ofNat _ old) (arg.setWidth _) (cmp.setWidth _)
  (old, mergeLine d (placeField new.toNat off) (byteMask off n))

/-- SWAP and CAS never merge (R363). -/
def amoMerges (code : Nat) : Bool := code / 4 ≠ 2 && code / 4 ≠ 11

/-- Element types of REDUCE (Table 9-3): its width, and its format where it is a floating-point type. -/
def reduceType (t : Nat) : Nat × Option Fmt :=
  match t with
  | 0 => (32, some .f32) | 1 => (16, some .bf16) | 2 => (16, some .f16) | 3 => (32, none) | _ => (64, none)

/-- One element of a REDUCE (R292): destination a, source b. -/
def reduceElem (t rop a b : Nat) : Nat :=
  let (w, f) := reduceType t
  match f with
  | some f =>
    let x := f.decode a
    let y := f.decode b
    HenAlu.roundFp f (match rop with | 0 => Num.add x y | 1 => HenAlu.fpMin x y | _ => HenAlu.fpMax x y)
  | none =>
    match rop with
    | 0 => (a + b) % 2 ^ w
    | 1 => if Bits.sext a w ≤ Bits.sext b w then a else b
    | _ => if Bits.sext a w ≤ Bits.sext b w then b else a

/-- A REDUCE of the masked elements of a line. -/
def reduceLine (d s : BitVec 512) (mask : BitVec 64) (t rop : Nat) : BitVec 512 :=
  let w := (reduceType t).1
  HenAlu.ofElems w ((List.range (512 / w)).map fun i =>
    if mask.getLsbD (i * w / 8) then reduceElem t rop (HenAlu.elem d w i) (HenAlu.elem s w i) else HenAlu.elem d w i)

/-- What an entry of an atomic queue does to the line, with the element it returns. -/
def aqApply (d : BitVec 512) (e : AqEntry) : Nat × BitVec 512 :=
  if 512 ≤ e.code then (0, reduceLine d e.arg e.mask ((e.code - 512) / 4) (e.code % 4))
  else amoLine d e.code e.off (e.arg.setWidth 64) e.cmp

namespace Mach

/-! ### Data and grants at a Hen -/

/-- The reserved granule of an LR at `pa` (R331): the storage lines of its aligned 64 × 2^GRAN bytes. -/
def granule (m : Mach) (a pa : Nat) : List Nat :=
  let n := 2 ^ (m.hen a).gran.toNat
  let b := pa / (64 * n) * n
  (List.range n).map fun i => m.lineOf (64 * (b + i))

/-- The clock stamp at which an LR hold begins: fclk fifths, or mclk. -/
def holdStamp (m : Mach) (a : Nat) : Nat := if isFlockAgent a then (m.die (agentDie a - 1)).fclk5 else m.now

/-- LR completes with its line (R331, R333): the reservation is made, and a hold where GRAN is 0 and the data cache has the line in E or M. -/
def henLr (m : Mach) (a rd pa size : Nat) (cached owned : Bool) (d : BitVec 512) : Mach :=
  let m := m.henLoaded a rd pa size true false 0 d
  let gr := m.granule a pa
  let hold : Option LrHold := if cached && owned && (m.hen a).gran = 0 then some { count := 0, since := m.holdStamp a } else none
  m.modHen a fun h => { h with resv := some { lines := gr, cached := cached }, hold := hold }

/-- The Hen holds a reservation whose granule contains the line (R332). [log 65 DEDUCED] -/
def resvOn (m : Mach) (a line : Nat) : Bool := match (m.hen a).resv with | some r => r.lines.contains line | none => false

/-- SC with its line in E or M (R332): it writes only while the Hen holds a reservation that contains the line. [log 65 DEDUCED] -/
def scNow (m : Mach) (a rd pa size : Nat) (v : BitVec 64) : Mach :=
  let line := m.lineOf pa
  let ok := m.resvOn a line
  let m := m.modHen a fun h => { h with resv := none, hold := none }
  if ok then
    match (m.hen a).find line with
    | some x =>
      let y : CacheLine := { x with st := .m, data := mergeLine x.data (placeField (v.toNat % 2 ^ (8 * size)) (pa % 64)) (byteMask (pa % 64) size) }
      let m := ((m.henHit a line 0).modHen a fun h => h.update line (some y)).clearResv (some a) line
      (m.setG a rd 0).henNext a
    | none => (m.setG a rd 1).henNext a
  else (m.setG a rd 1).henNext a

/-- A line has arrived at a Hen whose instruction may wait for it. -/
def henArrived (m : Mach) (a line : Nat) (st : Option LineState) (d : BitVec 512) (poison : Bool) : Mach :=
  match (m.hen a).wait with
  | .load rd addr size sg vec mask lr cached =>
    if m.lineOf addr = line && cached == st.isSome then
      if poison then (m.modHen a fun h => { h with wait := .none }).henRaise a 7 addr
      else if lr then m.henLr a rd addr size cached (st ≠ some .s) d
      else m.henLoaded a rd addr size sg vec mask d
    else m
  | .amo rd addr size =>
    if m.lineOf addr = line && st.isNone then
      if poison then (m.modHen a fun h => { h with wait := .none }).henRaise a 7 addr
      else m.henLoaded a rd addr size true false 0 d
    else m
  | .sc rd addr size v => if m.lineOf addr = line && st ≠ none && st ≠ some .s then m.scNow a rd addr size v else m
  | _ => m

/-- DAT at a Hen (R183): a line with a state fills the data cache under its requester's mask, and the waiting access completes. -/
def henDat (m : Mach) (d : DatMsg) : Mach :=
  match d.st with
  | none => (m.henArrived d.agent d.line none d.data d.poison).henPoke d.agent
  | some st =>
    let x : CacheLine := { line := d.line, st := st, data := d.data, poison := d.poison }
    let m :=
      if !(m.hen d.agent).dcEn || (m.hen d.agent).mask d.src = 0 then (if st = .m then m.sendWb d.agent x false false else m)
      else if ((m.hen d.agent).find d.line).isSome then (m.modHen d.agent fun h => h.update d.line (some x)).henHit d.agent d.line d.src
      else m.henFill d.agent d.src x
    (m.henArrived d.agent d.line (some st) d.data d.poison).henPoke d.agent

/-- A grant without data: the line that the Hen holds in S moves to E. -/
def henGrant (m : Mach) (a line : Nat) : Mach :=
  match (m.hen a).find line with
  | some x => ((m.modHen a fun h => h.update line (some { x with st := .e })).henArrived a line (some .e) x.data x.poison).henPoke a
  | none => m

/-! ### Write-backs at their home (Table 11-3, R354) -/

/-- A write-back reaches its home. -/
def wbArrive (m : Mach) (w : WriteBack) : Mach :=
  let e := m.entry w.line
  let m := m.modCoh fun c => { c with wbs := c.wbs.erase w }
  if w.stale || !(e.state == .em && e.owner == w.agent) then m
  else if w.invn then m.setEntry w.line {}
  else
    let m := if w.agent = hostAgent then m.clearResv (some hostAgent) w.line else m
    let m := m.homeWrite w.line w.data fullMask w.poison false
    if w.keep then m else m.setEntry w.line {}

/-- An agent's write-back or notice of the line is still on its way; a later request of the agent for the line does not pass it. -/
def wbAhead (m : Mach) (a line : Nat) : Bool := m.coh.wbs.any fun w => w.agent == a && w.line == line && !w.stale

/-! ### Stashes (R359, R360) -/

/-- The held LR line of a Hen lies in the set that a fill would take (R333). -/
def holdBlocks (m : Mach) (a line : Nat) : Bool :=
  m.holdOn a && match (m.hen a).resv with
    | some r => r.lines.any fun l => l % 256 == line % 256
    | none => false

/-- The Hen's instruction in flight, or a store in its buffer, is what the line is for. -/
def henWants (m : Mach) (a line : Nat) : Bool :=
  ((m.hen a).sb.any fun e => e.line == line) || match (m.hen a).wait with
    | .load _ pa _ _ _ _ _ _ | .amo _ pa _ | .sc _ pa _ _ => m.lineOf pa == line
    | _ => false

/-- A fill that an LR hold keeps out: one of a prefetch that could evict the held line (R333). [log 200 DEDUCED] -/
def fillWaits (m : Mach) (d : DatMsg) : Bool :=
  isHen d.agent && d.st.isSome && (d.src ≠ 0 || !m.henWants d.agent d.line) && m.holdBlocks d.agent d.line

/-- A stash transaction at the home of its line: dropped, refused by the Hen, or filled in state E. [log 98 DEDUCED, 207 DEDUCED] -/
def stashRun (m : Mach) (s : Stash) : Mach :=
  let ask := m
  let m := m.modCoh fun c => { c with stashes := c.stashes.erase s }
  let off := sliceReg (homeSlice (64 * s.line)) 0x18
  if (m.hen s.agent).state ≠ .running || !m.flockOn (flockOf s.agent) || (m.entry s.line).state ≠ .u || (m.entry s.line).bad then m.count off false
  else if (m.hen s.agent).mask 1 = 0 || !(m.hen s.agent).dcEn then m.count (henReg s.agent 0x18) true
  else if m.deepHeld s.line true then ask
  else if !m.homeHas s.line then ask.hbmAsk s.line 1 none
  else
    let ((d, p), m) := m.homeData s.line 1 false
    let m := (m.setEntry s.line (ownEntry s.agent)).deepDirty s.line
    m.henDat { agent := s.agent, line := s.line, st := some .e, data := d, poison := p, src := 1 }

/-! ### Atomic queues (R361 to R364) -/

/-- An atomic request leaves its requester (R362): it waits in REQ-A of the home slice with its issue stamp. -/
def atmPost (m : Mach) (e : AqEntry) : Mach :=
  m.modSlice (homeSlice (64 * e.line)) fun s => { s with waiting := s.waiting ++ [{ e with stamp := m.now % 0x10000 }] }

/-- The earliest issue stamp, compared modulo 2^16. -/
def stampBefore (x y : AqEntry) : Bool := x.stamp ≠ y.stamp && decide ((y.stamp + 0x10000 - x.stamp) % 0x10000 < 0x8000)

/-- Admits the waiting request of agent `a` for `line`, if none waiting has an earlier stamp; a full queue counts AQ_FULL. -/
def atmAdmit (m : Mach) (a line : Nat) : Mach :=
  let k := homeSlice (64 * line)
  match (m.slice k).waiting.find? fun e => e.agent == a && e.line == line with
  | none => m
  | some e =>
    if m.deadAgent a then m.modSlice k fun s => { s with waiting := s.waiting.erase e }
    else if m.targetHeld (.home (64 * line)) || ((m.slice k).waiting.any fun x => stampBefore x e) then m
    else if 64 ≤ (m.slice k).aq.length then m.count (sliceReg k 0x14) false
    else m.modSlice k fun s => { s with waiting := s.waiting.erase e, aq := s.aq ++ [e] }

/-- The value returned to the requester of an atomic: data on its way to a Hen or a core, or the end of a Mule's line request; poison
ends the Mule's descriptor (R361). -/
def atmAnswer (m : Mach) (e : AqEntry) (old : Nat) (poison : Bool) : Mach :=
  if isMule e.agent then
    let answer (x : Desc) : Desc :=
      if x.started = some e.desc then
        { x with unlanded := x.unlanded.eraseP fun p => p.1 == atmKey e.line && p.2 == e.cmp.toNat
                 stall := if x.stall == .deep && x.finished then .none else x.stall
                 err := if poison && x.err.isNone then some (3, e.named, e.cmp.toNat) else x.err }
      else x
    m.modMule e.agent fun u => { u with descs := u.descs.map answer }
  else m.modCoh fun c => { c with dats := c.dats ++ [{ agent := e.agent, line := e.line, st := none, data := placeField old e.off, poison := poison }] }

/-- Applies merged entries to the line in order of admission. -/
def aqFold : BitVec 512 → List AqEntry → BitVec 512 × List (AqEntry × Nat)
  | d, [] => (d, [])
  | d, e :: t =>
    let (old, d') := aqApply d e
    let (dn, rs) := aqFold d' t
    (dn, (e, old) :: rs)

/-- Recalls every copy of a line and performs the entries of a line operation on it (R361): the entry ends in U; a poisoned line is
not written and its requesters get poison. [log 94 DEDUCED, 101 DEDUCED, 208 DEDUCED] -/
def atmPerform (m : Mach) (line : Nat) (es : List AqEntry) : Mach :=
  let ended := m.tier.flashStall.contains line
  let (_, m) := (m.deepAccess line).homeNow { kind := .atm, agent := 0x1FFF, line := line }
  let ((d, p), m) := m.homeData line 1 false
  if p || ended then m.forEach es fun m e => m.atmAnswer e 0 true
  else
    let (d', rs) := aqFold d es
    let m := m.homeWrite line d' fullMask false false
    let m := m.forEach es fun m e => (m.clearResv (some e.agent) line).clearOwnResv e.agent line
    let m := match (es.filterMap fun e => e.hint).getLast? with
      | some h => m.afterWrite { kind := .wrp, agent := 0x1FFF, line := line, hint := some h }
      | none => m
    m.forEach rs fun m r => m.atmAnswer r.1 r.2 false

/-- The entries that one line operation merges (R363): up to 16 for the line with the same operation. [log 101 DEDUCED] -/
def aqMerge (m : Mach) (k : Nat) (e : AqEntry) : List AqEntry :=
  if m.bit (sliceReg k 0) 0 && (512 ≤ e.code || amoMerges e.code) then
    (((m.slice k).aq.filter fun x => x.line == e.line).takeWhile fun x => x.code == e.code).take 16
  else [e]

/-- The first entry of the queue that no earlier one for its line precedes and whose line the home can serve now. [log 101 DEDUCED] -/
def aqNext (m : Mach) (aq : List AqEntry) : Option AqEntry :=
  aq.find? fun e => (aq.find? fun x => x.line == e.line) == some e && m.homeReady e.line 0 false

/-- A REDUCE line that its slice holds for the deep tier stalls its descriptor (R303). -/
def aqStalls (m : Mach) (e : AqEntry) : Mach :=
  let mine (x : Desc) : Bool := x.started == some e.desc && x.err.isNone && x.stall ≠ .deep
  if isMule e.agent && m.homeHolds e.line true && (m.mule e.agent).descs.any mine then
    (m.modMule e.agent fun u => { u with descs := u.descs.map fun x => if mine x then { x with stall := .deep } else x }).count (muleReg e.agent 0x18) true
  else m

/-- A slice retires one line operation (R364). [log 101 DEDUCED] -/
def aqRun (m : Mach) (k : Nat) : Mach :=
  match m.aqNext (m.slice k).aq with
  | some e =>
    let es := m.aqMerge k e
    let m := m.modSlice k fun s => { s with aq := s.aq.filter fun x => !es.contains x }
    let m := if 2 ≤ es.length then m.count (sliceReg k 0x14) true else m
    m.atmPerform e.line (es.filter fun x => !m.deadAgent x.agent)
  | none => match (m.slice k).aq with
    | e :: _ => (m.homeChase e.agent e.line true true).aqStalls e
    | [] => m

/-! ### Upkeep of the slices -/


/-- Snoops outstanding to dead agents are answered on their behalf (R366): NP, with the line poisoned where it is in EM. -/
def reapTxns (m : Mach) : Mach :=
  m.forEach m.coh.txns fun m t =>
    let deadOnes := t.snoops.filter fun s => m.deadAgent s.1
    m.forEach deadOnes fun m s =>
      let e := m.entry t.req.line
      let m := if e.state == .em then (m.homePoison t.req.line).poisonLog t.req.line 0 (if e.host then 0 else e.owner) e.host else m
      let m := m.modCoh fun c => { c with txns := c.txns.map fun x => if x.req.line == t.req.line then { x with snoops := x.snoops.erase s } else x }
      m.homeAnswer s.1 t.req.line .np

/-- Enters a declaration in every slice's dead set (R365): requests of the dead are discarded, snoops to them answered, and every slice
begins its walk. Mailboxes that they own are free (R579). [log 102 DEDUCED] -/
def declareDead (m : Mach) (agent mask : Nat) : Mach :=
  let e : DeadEntry := { agent := BitVec.ofNat 13 agent, mask := BitVec.ofNat 13 mask }
  if m.coh.dead.contains e then m
  else
    let m := m.modCoh fun c => { c with dead := c.dead ++ [e] }
    let m := m.modCoh fun c => { c with reqs := c.reqs.filter (fun r => !m.deadAgent r.agent), queue := c.queue.filter (fun r => !m.deadAgent r.agent),
                                        nacked := c.nacked.filter (fun r => !m.deadAgent r.agent), wbs := c.wbs.filter (fun w => !m.deadAgent w.agent),
                                        dats := c.dats.filter (fun d => !m.deadAgent d.agent) }
    let m := { m with mbx := m.mbx.map fun (p : Nat × Mbx) => if p.2.held && m.deadAgent p.2.owner.toNat then (p.1, { p.2 with held := false, owner := 0 }) else p }
    (m.forEach (List.range 64) fun m k => m.modSlice k fun s => { s with reclaiming := true }).reapTxns

/-- Life again through bring-up clears the entry (R365). -/
def undeclareDead (m : Mach) (agent mask : Nat) : Mach :=
  m.modCoh fun c => { c with dead := c.dead.filter fun e => !(e.agent.toNat == agent && e.mask.toNat == mask) }

/-- An entry names a dead agent. -/
def namesDead (m : Mach) (line : Nat) : Bool :=
  let e := m.entry line
  (e.state ≠ .u) && ((e.ptrs.any fun a => m.deadAgent a) || (e.host && m.deadAgent hostAgent))

/-- The walk of a slice's tags and store (R367): it ends once no entry names a dead agent, an entry whose line has a transaction being
left to it. [log 100 DEDUCED] -/
def walkSlice (m : Mach) (k : Nat) : Mach :=
  let ls := (m.coh.dir.map fun p => p.1).filter fun l => homeSlice (64 * l) == k
  let m := m.forEach (ls.filter fun l => !m.lineBusy l) fun m l => m.reapEntry l
  if ls.any fun l => m.namesDead l then m else m.modSlice k fun s => { s with reclaiming := false }

/-- Resident lines of a slice. -/
def sliceLines (m : Mach) (k : Nat) : List Nat := (m.coh.lines.map fun p => p.1).filter fun l => homeSlice (64 * l) == k

/-- Every dirty line of a slice is written to HBM and kept clean. -/
def sliceFlush (m : Mach) (k : Nat) : Mach := m.forEach (m.sliceLines k) fun m l => m.sliceClean l

end Mach
end Machine
end Sys2Proof
end

