-- ==== Sys2Proof/Machine/AcoreOps.lean ====
section
/-!
DEFINITION. The application cores' accesses (chapter 16): address types (R500), the system cache with the L2s it includes (R503), loads
and stores (R499, R505, R508), atomics (R502), FENCE (R506) and the cache-block operations (R504). The system cache keeps one copy of
each line for all the L2s that hold it; a host line is named by its address in the host window.
-/
namespace Sys2Proof
namespace Machine

/-- The types of Table 16-2; `vacant` is an address that no range of the table takes in. -/
inductive CoreType where
  | cached | nc | io | fault | vacant
deriving DecidableEq, Repr

/-- Table 16-2. -/
def coreType (pa : Nat) (ty : Pbmt) : CoreType :=
  let mem (c : CoreType) : CoreType := match ty with | .pma => c | .nc => .nc | .io => .fault
  if 2 ^ 55 ≤ pa then mem .nc
  else if 2 ^ 54 ≤ pa then mem .cached
  else if pa < 0x01C0_0000_0000 then mem .cached
  else if 0x0200_0000_0000 ≤ pa ∧ pa < 0x0201_4000_0000 then mem .nc
  else if deepBase ≤ pa ∧ pa < deepEnd then mem .cached
  else if 0x7F00_0000_0000 ≤ pa ∧ pa < 0x7F05_0000_0000 then (match ty with | .nc => .fault | _ => .io)
  else .vacant

/-- The lines that `n` bytes from `pa` touch. -/
def paLines (pa n : Nat) : List Nat := (List.range ((pa % 64 + n + 63) / 64)).map fun i => pa / 64 + i

/-- The `n` bytes from `pa`, given the lines. -/
def gatherBytes (f : Nat → BitVec 512) (pa n : Nat) : Nat :=
  ((f (pa / 64)).toNat + (if pa % 64 + n ≤ 64 then 0 else (f (pa / 64 + 1)).toNat * 2 ^ 512)) >>> (8 * (pa % 64)) % 2 ^ (8 * n)

/-- The bytes of `v` that fall in line `l`, placed, with their mask. [log 138 DEDUCED] -/
def scatterBytes (v pa n l : Nat) : BitVec 512 × BitVec 64 :=
  let i := l - pa / 64
  (BitVec.ofNat 512 (((v % 2 ^ (8 * n)) <<< (8 * (pa % 64))) >>> (512 * i)), BitVec.ofNat 64 (((2 ^ n - 1) <<< (pa % 64)) >>> (64 * i)))

/-- The first byte written under a mask, as an offset in the line. -/
def firstByte (mask : BitVec 64) : Nat := ((List.range 64).find? fun i => mask.getLsbD i).getD 0

/-- A line named in the host window. -/
def isHostLine (line : Nat) : Bool := decide (2 ^ 48 ≤ line)

namespace Mach

def clusterState (m : Mach) (k : Nat) : BitVec 2 := FMap.get 2 m.acores.clusters k

/-- Core `c` executes: the module has started (stage 9) and its cluster is ON and usable. -/
def coreLive (m : Mach) (c : Nat) : Bool :=
  m.boot.ready && !m.boot.inReset && m.clusterState (c / 8) == 2 && !m.acores.waking.contains (c / 8)

/-! ### The system cache (R503) -/

/-- Counts and sends the write-back of a dirty line: to its home, or to the host (DirtyEvict). -/
def sysWriteBack (m : Mach) (line : Nat) (x : SysLine) (keep : Bool) : Mach :=
  if isHostLine line then
    match m.hostAsk .sysBack (line - 2 ^ 48) true x.data fullMask x.poison with
    | .sent _ m => m
    | _ => m
  else m.modCoh fun c => { c with wbs := c.wbs ++ [{ agent := sysAgent, line := line, data := x.data, poison := x.poison, keep := keep }] }

/-- The host hears that the system cache drops a clean host line (CleanEvict, R468). -/
def sysClean (m : Mach) (line : Nat) : Mach :=
  if isHostLine line && m.host.state == .attached && !m.inUio (64 * (line - 2 ^ 48)) then
    match m.hostAsk .sysBack (line - 2 ^ 48) false 0 0 with
    | .sent _ m => m
    | _ => m
  else m

/-- A line leaves every L2 and the system cache; a dirty one is written back. [log 142 DESIGN CHOICE] -/
def sysEvict (m : Mach) (line : Nat) : Mach :=
  match m.sysLine line with
  | none => m
  | some x =>
    let m := (m.setSys line none).dropCoreResv line
    if x.dirty then m.sysWriteBack line x false else m.sysClean line

/-- A line of the management window, which stage 7 locks into the system cache (R533). [log 156 DEDUCED] -/
def inMgmtWindow (m : Mach) (line : Nat) : Bool :=
  let pa := 64 * uninterleave (64 * line)
  !isHostLine line && !isDeep (64 * line) && decide (m.mgmtWindow ≤ pa ∧ pa < m.mgmtWindow + 0x800000)

/-- A line may be chosen as a victim: it is not locked (R533), and is no dirty host line while bus-master enable is clear (R488). [log 142 DESIGN CHOICE] -/
def sysVictimOk (m : Mach) (line : Nat) : Bool :=
  match m.sysLine line with
  | some x => !(x.locked || m.inMgmtWindow line) && !(x.dirty && isHostLine line && !m.host.bme)
  | none => false

/-- Places a line as most recently used; a full set of sixteen gives up its least recently used line that it may. [log 142 DESIGN CHOICE] -/
def sysPut (m : Mach) (line : Nat) (x : SysLine) : Mach :=
  let same := m.acores.lru.filter fun l => Config.sysSet l % 65536 == Config.sysSet line % 65536
  let m := if (m.sysLine line).isSome || decide (same.length < 16) then m else
    match (same.filter fun l => m.sysVictimOk l).getLast? with
    | some v => m.sysEvict v
    | none => m
  m.modAcores fun c => { c with sys := FMap.set none c.sys line (some x), lru := line :: c.lru.filter fun l => l ≠ line }

/-- Core `c` reads a line that the system cache holds: its L2 holds it too. -/
def sysTouch (m : Mach) (c line : Nat) : Mach :=
  match m.sysLine line with
  | some x => m.sysPut line { x with holders := if x.holders.contains c then x.holders else x.holders ++ [c] }
  | none => m

/-- Cores other than `c` lose the reservation of a line that `c` writes, and so do Hens (R332, R502). [log 143 DEDUCED] -/
def coreWrote (m : Mach) (c line : Nat) : Mach :=
  let m := m.forEach m.acores.cores fun m (k, x) => if k ≠ c && x.resv = some line then m.setCore k { m.core k with resv := none } else m
  m.clearResv (some (coreAgent c)) line

/-- Core `c` writes the masked bytes of a line held in M or E: no other L2 keeps it. [log 143 DEDUCED] -/
def sysWrite (m : Mach) (c line : Nat) (d : BitVec 512) (mask : BitVec 64) : Mach :=
  match m.sysLine line with
  | some x =>
    (m.sysPut line { x with st := .m, dirty := true, data := mergeLine x.data d mask, poison := x.poison && mask ≠ fullMask, holders := [c] }).coreWrote c line
  | none => m

/-- The line is there in a state that serves the access. -/
def sysHas (m : Mach) (line : Nat) (own : Bool) : Bool :=
  match m.sysLine line with
  | some x => !(own && x.st == .s)
  | none => false

/-- The system cache asks for a line, or for its ownership (R352, R468). None: bus-master enable is clear. -/
def sysAsk (m : Mach) (c line : Nat) (own : Bool) : Option Mach :=
  if isHostLine line then
    let mine (q : HostReq) : Bool := q.line == line - 2 ^ 48 && (match q.who with | .sysFill .. => true | _ => false)
    if m.host.reqs.any mine then some m
    else match m.hostAsk (.sysFill c own) (line - 2 ^ 48) false 0 0 with
      | .sent _ m => some m
      | _ => none
  else some (m.henPost { kind := if own then (if (m.sysLine line).isSome then .upg else .rdo) else .rds, agent := sysAgent, line := line })

/-! ### Faults and landings (R508) -/

/-- Raises an access fault with its address. [log 140 DEDUCED] -/
def coreFault (m : Mach) (c : Nat) (k : CoreFault) (pa : Nat) : Mach := m.modCore c fun x => { x with fault := some (k, pa), wait := .none }

/-- The access completes with a value. -/
def coreDone (m : Mach) (c v : Nat) : Mach := m.modCore c fun x => { x with value := BitVec.ofNat 64 v, wait := .none }

/-- A retired store met the response of R27, or is lost. [log 140 DEDUCED] -/
def coreStoreBad (m : Mach) (c pa : Nat) (lost : Bool) : Mach :=
  m.modCore c fun x => if lost then { x with lostStores := x.lostStores ++ [BitVec.ofNat 56 pa] } else { x with errStores := x.errStores ++ [BitVec.ofNat 56 pa] }

/-- What a cached access of a core comes to: its lines are there, it waits, or it meets a fault. -/
inductive CoreRes where
  | ok (m : Mach)
  | wait (m : Mach)
  | bad (m : Mach)

/-- The lines of a cached access: the first that is missing is asked for. [log 138 DEDUCED] -/
def coreLines (m : Mach) (c : Nat) (ls : List Nat) (own : Bool) : CoreRes :=
  match ls.find? fun l => !m.sysHas (m.lineOf (64 * l)) own with
  | none => .ok m
  | some l =>
    match m.target (64 * l) with
    | .home _ | .host _ =>
      if m.targetDead (m.target (64 * l)) then .bad m
      else match m.sysAsk c (m.lineOf (64 * l)) own with
        | some m => .wait m
        | none => .bad m
    | .bad ch => .bad (m.addrError ch (coreAgent c))
    | _ => .bad m

/-- Data of the system cache by line of physical addresses; one of the lines is poisoned. -/
def coreData (m : Mach) (l : Nat) : BitVec 512 := match m.sysLine (m.lineOf (64 * l)) with | some x => x.data | none => 0
def corePoison (m : Mach) (ls : List Nat) : Bool :=
  ls.any fun l => match m.sysLine (m.lineOf (64 * l)) with | some x => x.poison | none => false

/-! ### Cached accesses -/

def coreSetWait (m : Mach) (c : Nat) (w : CoreWait) : Mach := m.modCore c fun x => { x with wait := w }

def cachedLoad (m : Mach) (c pa n : Nat) : Mach :=
  let ls := paLines pa n
  match m.coreLines c ls false with
  | .wait m => m.coreSetWait c (.load pa n)
  | .bad m => m.coreFault c .loadAccess pa
  | .ok m =>
    let m := m.forEach ls fun m l => m.sysTouch c (m.lineOf (64 * l))
    if m.corePoison ls then m.coreFault c .loadAccess pa else m.coreDone c (gatherBytes m.coreData pa n)

/-- Writes `v` to lines held in M or E. -/
def cachedPut (m : Mach) (c pa n v : Nat) : Mach :=
  m.forEach (paLines pa n) fun m l =>
    let (d, k) := scatterBytes v pa n l
    m.sysWrite c (m.lineOf (64 * l)) d k

def cachedStore (m : Mach) (c pa n : Nat) (v : BitVec 64) : Mach :=
  match m.coreLines c (paLines pa n) true with
  | .wait m => m.coreSetWait c (.store pa n v)
  | .bad m => m.coreFault c .storeAccess pa
  | .ok m => (m.cachedPut c pa n v.toNat).coreSetWait c .none

/-- CBO.ZERO (R504). -/
def cachedZero (m : Mach) (c pa : Nat) : Mach :=
  match m.coreLines c [pa / 64] true with
  | .wait m => m.coreSetWait c (.zero pa)
  | .bad m => m.coreFault c .storeAccess pa
  | .ok m => (m.sysWrite c (m.lineOf pa) 0 fullMask).coreSetWait c .none

def cachedLr (m : Mach) (c pa n : Nat) : Mach :=
  match m.coreLines c [pa / 64] false with
  | .wait m => m.coreSetWait c (.lr pa n)
  | .bad m => m.coreFault c .loadAccess pa
  | .ok m =>
    let m := m.sysTouch c (m.lineOf pa)
    if m.corePoison [pa / 64] then m.coreFault c .loadAccess pa
    else (m.modCore c fun x => { x with resv := some (m.lineOf pa) }).coreDone c (gatherBytes m.coreData pa n)

/-- SC writes only while the core's reservation of the line stands; it returns 0 where it has written and 1 where it has not. [log 139 PRESUMED] -/
def cachedSc (m : Mach) (c pa n : Nat) (v : BitVec 64) : Mach :=
  if (m.core c).resv ≠ some (m.lineOf pa) then (m.modCore c fun x => { x with resv := none }).coreDone c 1
  else match m.coreLines c [pa / 64] true with
    | .wait m => m.coreSetWait c (.sc pa n v)
    | .bad m => m.coreFault c .storeAccess pa
    | .ok m => ((m.cachedPut c pa n v.toNat).modCore c fun x => { x with resv := none }).coreDone c 0

/-- An AMO on a host line held in M by the system cache. -/
def sysAmo (m : Mach) (c pa n code : Nat) (v : BitVec 64) : Mach :=
  match m.coreLines c [pa / 64] true with
  | .wait m => m.coreSetWait c (.sysAmo pa n code v)
  | .bad m => m.coreFault c .storeAccess pa
  | .ok m =>
    if m.corePoison [pa / 64] then m.coreFault c .storeAccess pa
    else
      let (old, d) := amoLine (m.coreData (pa / 64)) code (pa % 64) v 0
      (m.sysWrite c (m.lineOf pa) d (byteMask (pa % 64) n)).coreDone c old

/-! ### What ends a wait -/

/-- The write-back of a line has not landed. -/
def sysBackBusy (m : Mach) (line : Nat) : Bool :=
  (m.coh.wbs.any fun w => w.agent == sysAgent && w.line == line && !w.stale)
    || (m.host.reqs.any fun q => q.who == .sysBack && q.write && q.line + 2 ^ 48 == line)

/-- Core `c` tries its waiting access again. -/
def coreRetry (m : Mach) (c : Nat) : Mach :=
  match (m.core c).wait with
  | .load pa n => m.cachedLoad c pa n
  | .store pa n v => m.cachedStore c pa n v
  | .zero pa => m.cachedZero c pa
  | .lr pa n => m.cachedLr c pa n
  | .sc pa n v => m.cachedSc c pa n v
  | .sysAmo pa n code v => m.sysAmo c pa n code v
  | .fence => if (m.core c).unlanded = [] then m.coreSetWait c .none else m
  | .cbo line => if m.sysBackBusy line then m else m.coreSetWait c .none
  | _ => m

/-- Every core that waits tries again. -/
def coresPoke (m : Mach) : Mach := m.forEach m.acores.cores fun m (c, _) => m.coreRetry c

/-- Line data or a grant reaches the system cache. -/
def sysDat (m : Mach) (d : DatMsg) : Mach :=
  if d.grantOnly then
    match m.sysLine d.line with
    | some x => (m.sysPut d.line { x with st := .e }).coresPoke
    | none => m
  else match d.st with
    | some st =>
      let old := m.sysLine d.line
      (m.sysPut d.line { st := st, data := d.data, poison := d.poison, dirty := st == .m, holders := (old.map (·.holders)).getD [],
                         locked := (old.map (·.locked)).getD false }).coresPoke
    | none => m

/-- The answer to an AMO reaches its core (R508: poison is an access fault). -/
def coreAtm (m : Mach) (c line : Nat) (d : BitVec 512) (poison : Bool) : Mach :=
  match (m.core c).wait with
  | .amo pa n =>
    if m.lineOf pa ≠ line then m
    else if poison then m.coreFault c .storeAccess pa
    else m.coreDone c (lineField d (pa % 64) n)
  | _ => m

/-- A host line fetched for the system cache arrives. -/
def sysFilled (m : Mach) (c hline : Nat) (own : Bool) (d : BitVec 512) (poison err : Bool) : Mach :=
  let line := hline + 2 ^ 48
  if err then
    match (m.core c).wait with
    | .load pa _ | .lr pa _ => m.coreFault c .loadAccess pa
    | .store pa _ _ | .zero pa | .sc pa _ _ | .sysAmo pa _ _ _ => m.coreFault c .storeAccess pa
    | _ => m
  else m.sysDat { agent := sysAgent, line := line, st := some (if own then .e else .s), data := d, poison := poison }

/-! ### Uncached accesses -/

/-- One line of an uncached load is asked for across the herd or the host window. -/
def coreAskLine (m : Mach) (c pa n l : Nat) (got : List (Nat × BitVec 512)) : Mach :=
  match m.target (64 * l) with
  | .herd md off => match m.herdAsk (coreAgent c) 0 md .read (BitVec.ofNat 46 off) 64 0 0 fullMask false with
    | .sent k m => m.coreSetWait c (.remote pa n k got)
    | .dead => m.coreFault c .loadAccess pa
    | _ => (m.addrError .nowhere (coreAgent c)).coreFault c .loadAccess pa
  | .host hpa => match m.hostAsk (.coreRead c) (hpa / 64) false 0 0 with
    | .sent k m => m.coreSetWait c (.remote pa n k got)
    | _ => m.coreFault c .loadAccess pa
  | _ => m.coreFault c .loadAccess pa

/-- A line that a core waits for across the herd or the host window arrives; poison, the response of R27 or R443 is a fault. -/
def coreRemote (m : Mach) (c key : Nat) (d : BitVec 512) (bad : Bool) : Mach :=
  match (m.core c).wait with
  | .remote pa n k got =>
    if k ≠ key then m
    else if bad then m.coreFault c .loadAccess pa
    else
      let got := got ++ [(pa / 64 + got.length, d)]
      match (paLines pa n).drop got.length with
      | [] => m.coreDone c (gatherBytes (fun l => FMap.get 0 got l) pa n)
      | l :: _ => m.coreAskLine c pa n l got
  | .remoteAmo pa n k =>
    if k ≠ key then m
    else if bad then m.coreFault c .storeAccess pa
    else m.coreDone c (lineField d (pa % 64) n)
  | _ => m

/-- A write of a core across the herd or the host window lands, meets the response of R27, or is lost. [log 96 DEDUCED] -/
def coreLanded (m : Mach) (c key pa : Nat) (err lost : Bool) : Mach :=
  let m := m.modCore c fun x => { x with unlanded := x.unlanded.erase key }
  let m := if err || lost then m.coreStoreBad c pa lost else m
  m.coreRetry c

/-- Every line of an uncached access can be performed now: its home is free, its die answers. A write changes the masked bytes. -/
def coreFree (m : Mach) (ls : List Nat) (write : Bool) (mask : BitVec 64 := 0) : Bool :=
  ls.all fun l => match m.target (64 * l) with
    | .home sa => if write then m.homeReady (sa / 64) mask false else m.homeFree (sa / 64) false
    | t => !m.targetHeld t

/-- What an uncached access that cannot be performed now leaves behind. -/
def coreChase (m : Mach) (c : Nat) (ls : List Nat) (write part : Bool) : Mach :=
  m.forEach ls fun m l => match m.target (64 * l) with
    | .home sa => m.homeChase (coreAgent c) (sa / 64) write part
    | _ => m

/-- The lines of an uncached load that this module holds, read one by one: the lines so far, and whether one is bad. -/
def coreReadLines (m : Mach) (c : Nat) : List Nat → List (Nat × BitVec 512) × Bool × Mach
  | [] => ([], false, m)
  | l :: t =>
    let ((d, p), m) := match m.target (64 * l) with
      | .home sa => if m.targetDead (.home sa) then ((0, true), m) else m.readNow (coreAgent c) (sa / 64) false
      | .flock fb pa => if m.targetDead (.flock fb pa) then ((0, true), m) else m.fmRead fb l
      | .bad ch => ((0, true), m.addrError ch (coreAgent c))
      | _ => ((0, true), m)
    let (ds, q, m) := coreReadLines m c t
    ((l, d) :: ds, p || q, m)

/-- [log 137 DEDUCED] -/
def ncLoad (m : Mach) (c pa n : Nat) : Mach :=
  let ls := paLines pa n
  match m.target pa with
  | .herd .. | .host _ => m.coreAskLine c pa n (pa / 64) []
  | _ =>
    if !m.coreFree ls false then m.coreChase c ls false false
    else
      let (ds, bad, m) := m.coreReadLines c ls
      if bad then m.coreFault c .loadAccess pa else m.coreDone c (gatherBytes (fun l => FMap.get 0 ds l) pa n)

/-- One line of an uncached store. [log 137 DEDUCED] -/
def ncPut (m : Mach) (c l : Nat) (d : BitVec 512) (mask : BitVec 64) : Mach :=
  let pa := 64 * l + firstByte mask
  let owe (m : Mach) (k : Nat) : Mach := m.modCore c fun x => { x with unlanded := x.unlanded ++ [k] }
  let t := m.target (64 * l)
  if m.targetDead t then m.coreStoreBad c pa true
  else match t with
  | .home sa => (m.writeNow (coreAgent c) (sa / 64) d mask false none false)
  | .flock fb _ => m.flockWrite (some (coreAgent c)) fb l d mask false
  | .herd md off => match m.herdAsk (coreAgent c) 0 md .write (BitVec.ofNat 46 off) 0 d 0 mask false with
    | .sent k m => owe m k
    | .dead => m.coreStoreBad c pa true
    | _ => (m.addrError .nowhere (coreAgent c)).coreStoreBad c pa false
  | .host hpa => match m.hostAsk (.coreWrite c) (hpa / 64) true d mask with
    | .sent k m => owe m k
    | _ => m.bmeDrop.coreStoreBad c pa false
  | .bad ch => (m.addrError ch (coreAgent c)).coreStoreBad c pa false
  | .dev _ => m

/-- [log 137 DEDUCED] -/
def ncStore (m : Mach) (c pa n v : Nat) : Mach :=
  let ls := paLines pa n
  let mask := if n = 64 ∧ pa % 64 = 0 then fullMask else 0
  if !m.coreFree ls true mask then m.coreChase c ls true (mask ≠ fullMask)
  else m.forEach ls fun m l =>
    let (d, k) := scatterBytes v pa n l
    m.ncPut c l d k

/-! ### The commands' operations -/

/-- The core stands ready for an access. -/
def coreReady (m : Mach) (c : Nat) : Bool := m.coreLive c && (m.core c).wait == .none

/-- A load of `n` bytes at an address that is not in device register space (R499, R500). -/
def coreLoadOp (m : Mach) (c pa n : Nat) (ty : Pbmt) : Mach :=
  if !m.coreReady c then m
  else match coreType pa ty with
    | .cached => m.cachedLoad c pa n
    | .nc => m.ncLoad c pa n
    | .vacant => (m.addrError .nowhere (coreAgent c)).coreFault c .loadAccess pa
    | _ => m.coreFault c .loadAccess pa

def coreStoreOp (m : Mach) (c pa n : Nat) (ty : Pbmt) (v : BitVec 64) : Mach :=
  if !m.coreReady c then m
  else match coreType pa ty with
    | .cached => m.cachedStore c pa n v
    | .nc => m.ncStore c pa n v.toNat
    | .vacant => (m.addrError .nowhere (coreAgent c)).coreFault c .storeAccess pa
    | _ => m.coreFault c .storeAccess pa

/-- ATOM func[10:4] of an AMO: operation × 4 + SIZE. -/
def coreAmoCode (op : CoreAmo) (dword : Bool) : Nat :=
  (match op with | .swap => 2 | .add => 3 | .and => 4 | .or => 5 | .xor => 6 | .min => 7 | .max => 8 | .minu => 9 | .maxu => 10) * 4
    + (if dword then 3 else 2)

/-- An AMO by the type of its address (R502). -/
def coreAmoOp (m : Mach) (c pa : Nat) (dword : Bool) (ty : Pbmt) (op : CoreAmo) (v : BitVec 64) : Mach :=
  let n := if dword then 8 else 4
  let code := coreAmoCode op dword
  if !m.coreReady c then m
  else if pa % n ≠ 0 then m.coreFault c .storeAccess pa
  else
    let t := coreType pa ty
    if t == .vacant then (m.addrError .nowhere (coreAgent c)).coreFault c .storeAccess pa
    else if t ≠ .cached && t ≠ .nc then m.coreFault c .storeAccess pa
    else match m.target pa with
    | .home sa =>
      if m.targetDead (.home sa) then m.coreFault c .storeAccess pa
      else (m.atmPost { agent := coreAgent c, line := sa / 64, code := code, off := pa % 64, arg := v.setWidth 512, cmp := 0, mask := 0,
                        stamp := 0 }).coreSetWait c (.amo pa n)
    | .herd md off => match m.herdAsk (coreAgent c) 0 md .amo (BitVec.ofNat 46 off) (BitVec.ofNat 10 code) (v.setWidth 512) 0 (byteMask (pa % 64) n) false with
      | .sent k m => m.coreSetWait c (.remoteAmo pa n k)
      | .dead => m.coreFault c .storeAccess pa
      | _ => (m.addrError .nowhere (coreAgent c)).coreFault c .storeAccess pa
    | .host _ => if t == .cached then m.sysAmo c pa n code v else m.coreFault c .storeAccess pa
    | .bad ch => (m.addrError ch (coreAgent c)).coreFault c .storeAccess pa
    | _ => m.coreFault c .storeAccess pa

def coreLrOp (m : Mach) (c pa : Nat) (dword : Bool) (ty : Pbmt) : Mach :=
  let n := if dword then 8 else 4
  if !m.coreReady c then m
  else if pa % n ≠ 0 then m.coreFault c .loadAccess pa
  else match coreType pa ty with
    | .cached => m.cachedLr c pa n
    | .vacant => (m.addrError .nowhere (coreAgent c)).coreFault c .loadAccess pa
    | _ => m.coreFault c .loadAccess pa

def coreScOp (m : Mach) (c pa : Nat) (dword : Bool) (ty : Pbmt) (v : BitVec 64) : Mach :=
  let n := if dword then 8 else 4
  if !m.coreReady c then m
  else if pa % n ≠ 0 then m.coreFault c .storeAccess pa
  else match coreType pa ty with
    | .cached => m.cachedSc c pa n v
    | .vacant => (m.addrError .nowhere (coreAgent c)).coreFault c .storeAccess pa
    | _ => m.coreFault c .storeAccess pa

/-- FENCE by the first row of Table 16-3 that matches: the first two wait until every earlier write of the core has landed; loads and
IO accesses have been performed by then. [log 141 DEDUCED] -/
def coreFenceOp (m : Mach) (c : Nat) (pred succ : BitVec 4) : Mach :=
  if !m.coreReady c then m
  else
    let rw (s : BitVec 4) : Bool := s.getLsbD 0 && s.getLsbD 1
    let bar := rw pred && rw succ
    let toIo := (pred.getLsbD 0 || pred.getLsbD 2) && succ.getLsbD 2
    if bar || toIo then (m.coreSetWait c .fence).coreRetry c else m

/-- CBO.CLEAN and CBO.FLUSH (R504): the core waits until the line written back has landed. A host line is given up with its write-back. [log 139 PRESUMED, 205 DESIGN CHOICE] -/
def coreCboOp (m : Mach) (c pa : Nat) (ty : Pbmt) (flush : Bool) : Mach :=
  if !m.coreReady c then m
  else match coreType pa ty with
    | .cached | .nc =>
      let line := m.lineOf pa
      match m.sysLine line with
      | none => (m.coreSetWait c (.cbo line)).coreRetry c
      | some x =>
        let m := if flush || isHostLine line then m.sysEvict line
                 else if x.dirty then (m.sysWriteBack line x true).sysPut line { x with dirty := false, st := .e } else m
        (m.coreSetWait c (.cbo line)).coreRetry c
    | .vacant => (m.addrError .nowhere (coreAgent c)).coreFault c .storeAccess pa
    | _ => m.coreFault c .storeAccess pa

def coreZeroOp (m : Mach) (c pa : Nat) (ty : Pbmt) : Mach :=
  let pa := pa / 64 * 64
  if !m.coreReady c then m
  else match coreType pa ty with
    | .cached => m.cachedZero c pa
    | .nc => m.ncStore c pa 64 0
    | .vacant => (m.addrError .nowhere (coreAgent c)).coreFault c .storeAccess pa
    | _ => m.coreFault c .storeAccess pa

/-- STORE_ERR and LOST_STORE (R508). -/
def storeErrOp (m : Mach) (c : Nat) : Mach :=
  match (m.core c).errStores with
  | [] => m
  | a :: t => m.modCore c fun x => { x with errStores := t, int16 := true, errAddr := a }
def lostStoreOp (m : Mach) (c : Nat) : Mach :=
  match (m.core c).lostStores with
  | [] => m
  | a :: t => m.modCore c fun x => { x with lostStores := t, int17 := true, errAddr := a }

/-! ### Host snoops and clusters -/

/-- A host snoop of a line of the host window (R503, R488): what the port answers; a dirty line's data goes with it. -/
def hostSnoopOp (m : Mach) (op : HostSnoop) (pa : Nat) : Mach :=
  let line := pa / 64
  match m.sysLine line with
  | none => m.emit (.snoopAnswer line none)
  | some x =>
    let d := if x.dirty then some x.data else none
    let m := match op with
      | .data => m.setSys line (some { x with st := .s, dirty := false })
      | .cur => m
      | .inv => (m.setSys line none).dropCoreResv line
    m.emit (.snoopAnswer line d)

/-- The system cache writes back and invalidates every line that the L2s of cluster `k` hold (R515). -/
def clusterFlush (m : Mach) (k : Nat) : Mach :=
  let ls := m.acores.sys.filterMap fun (l, x) => match x with
    | some y => if y.holders.any fun c => c / 8 == k then some l else none
    | none => none
  m.forEach ls fun m l => m.sysEvict l

/-- The cores of a cluster switched OFF lose their state. -/
def clusterLose (m : Mach) (k : Nat) : Mach := m.forEach (List.range 8) fun m i => m.setCore (8 * k + i) {}

end Mach
end Machine
end Sys2Proof
end

