-- ==== Sys2Proof/Machine/MuleOps.lean ====
section
/-!
DEFINITION. Mules (chapter 09): the descriptor's fields and checks (R288 to R295), its line requests in element order, and what ends it.
-/
namespace Sys2Proof
namespace Machine

/-! ### Descriptor fields (Tables 9-2 to 9-4) -/

/-- `n` bits from bit `lo` of word `i` of a 64 B record. -/
def wordFld (w : BitVec 512) (i lo n : Nat) : Nat := Bits.nfield w.toNat (64 * i + lo) n

namespace Desc

def op (w : BitVec 512) : Nat := wordFld w 0 0 4
def isTail (w : BitVec 512) : Bool := wordFld w 0 4 1 == 1
def isVolatile (w : BitVec 512) : Bool := wordFld w 0 5 1 == 1
def isPromote (w : BitVec 512) : Bool := wordFld w 0 6 1 == 1
def isOrdered (w : BitVec 512) : Bool := wordFld w 0 7 1 == 1
def src (w : BitVec 512) : Nat := wordFld w 1 0 64
def dst (w : BitVec 512) : Nat := wordFld w 2 0 56
def xlen (w : BitVec 512) : Nat := wordFld w 3 0 24 + 1
def ycnt (w : BitVec 512) : Nat := wordFld w 3 24 16 + 1
def zcnt (w : BitVec 512) : Nat := wordFld w 3 40 12 + 1
def wcnt (w : BitVec 512) : Nat := wordFld w 3 52 12 + 1
/-- A signed stride: word 4 y, 5 z, 6 w; the low half for the source, the high half for the destination. -/
def stride (w : BitVec 512) (word : Nat) (dstSide : Bool) : Int := Bits.sext (wordFld w word (if dstSide then 32 else 0) 32) 32
/-- Element size of REDUCE (by RTYPE) and of TRANSPOSE (by ESZ). -/
def rsize (w : BitVec 512) : Nat := (reduceType (wordFld w 7 0 3)).1 / 8
def esz (w : BitVec 512) : Nat := 2 ^ wordFld w 7 8 2
/-- GATHER and SCATTER: COUNT, the element size in bytes, PITCH and IDX. -/
def count (w : BitVec 512) : Nat := wordFld w 4 0 24 + 1
def esize (w : BitVec 512) : Nat := (wordFld w 4 24 12 + 1) * 4
def pitch (w : BitVec 512) : Nat := wordFld w 5 0 40
def idx (w : BitVec 512) : Nat := wordFld w 3 0 56

/-- A dimension's strides are multiples of n, or the dimension is not in use. -/
def strideOk (w : BitVec 512) (word cnt n : Nat) : Bool :=
  cnt == 1 || (Int.emod (stride w word false) n == 0 && Int.emod (stride w word true) n == 0)

/-- The checks of R295: reserved bits and values, ORDERED outside queue 0, alignment, and DONE_OBJ. [log 20 DESIGN CHOICE, 20 DESIGN CHOICE, 127 DEDUCED] -/
def bad (w : BitVec 512) (queue : Nat) : Bool :=
  let o := op w
  let shape := o == 1 || o == 2 || o == 5 || o == 6
  o == 0 || decide (7 ≤ o) || wordFld w 0 46 18 ≠ 0 || wordFld w 2 56 8 ≠ 0 || (o ≠ 5 && wordFld w 1 56 8 ≠ 0)
    || (isOrdered w && queue ≠ 0)
    || (wordFld w 0 9 1 == 1 && (wordFld w 0 24 3 == 0 || decide (4 < wordFld w 0 24 3)))
    || (shape && (wordFld w 7 10 54 ≠ 0 || wordFld w 7 6 2 ≠ 0 || wordFld w 7 3 1 ≠ 0
        || (if o == 6 then decide (5 ≤ wordFld w 7 0 3) || wordFld w 7 4 2 == 3
              || xlen w % rsize w ≠ 0 || src w % rsize w ≠ 0 || dst w % rsize w ≠ 0
              || !strideOk w 4 (ycnt w) (rsize w) || !strideOk w 5 (zcnt w) (rsize w) || !strideOk w 6 (wcnt w) (rsize w)
            else wordFld w 7 0 3 ≠ 0 || wordFld w 7 4 2 ≠ 0)
        || (if o == 2 then wordFld w 7 8 2 == 3 || xlen w % esz w ≠ 0 else wordFld w 7 8 2 ≠ 0)))
    || (!shape && (wordFld w 3 56 8 ≠ 0 || wordFld w 4 36 28 ≠ 0 || wordFld w 5 40 24 ≠ 0 || wordFld w 6 0 64 ≠ 0 || wordFld w 7 0 64 ≠ 0
        || idx w % 4 ≠ 0 || src w % 4 ≠ 0 || dst w % 4 ≠ 0 || pitch w % 4 ≠ 0))

/-- Bytes that the descriptor moves. -/
def total (w : BitVec 512) : Nat := if op w = 3 ∨ op w = 4 then count w * esize w else xlen w * ycnt w * zcnt w * wcnt w

/-- A 64-bit address. -/
def addr (base : Nat) (off : Int) : Nat := (BitVec.ofInt 64 ((base : Int) + off)).toNat

/-- The offset of row r on one side: w × WSTRIDE + z × ZSTRIDE, and y × YSTRIDE where `y` is asked for. -/
def rowOff (w : BitVec 512) (r : Nat) (dstSide y : Bool) : Int :=
  let yi := r % ycnt w
  let zi := r / ycnt w % zcnt w
  let wi := r / ycnt w / zcnt w
  (wi : Int) * stride w 6 dstSide + (zi : Int) * stride w 5 dstSide + (if y then (yi : Int) * stride w 4 dstSide else 0)

/-- Bytes left in the line of an address. -/
def lineRoom (a : Nat) : Nat := 64 - a % 64

end Desc

/-- Bytes left in the 2 MiB tier page of an address. -/
def pageRoom (a : Nat) : Nat := 0x200000 - a % 0x200000

/-- The bytes of an element that one source line and one destination line hold: source and destination byte, how many, how many of them
and of what follows the source line serves, the index of the element, and the place in its row (for FILL). -/
structure Chunk where
  src : Nat
  dst : Nat
  len : Nat
  reach : Nat
  elem : Nat
  x : Nat

/-- The place at byte p of a descriptor in element order (R290, R291, R293, R310); `i` is the index read for GATHER and SCATTER. [log 89 DEDUCED] -/
def chunkAt (w : BitVec 512) (p i : Nat) : Chunk :=
  match Desc.op w with
  | 2 =>
    let e := Desc.esz w
    let q := p / e
    let per := Desc.xlen w / e
    let r := q / per
    let s := Desc.addr (Desc.src w) (Desc.rowOff w r false true + ((q % per * e + p % e : Nat) : Int))
    let d := Desc.addr (Desc.dst w) (Desc.rowOff w r true false + ((q % per : Nat) : Int) * Desc.stride w 4 true + ((r % Desc.ycnt w * e + p % e : Nat) : Int))
    let reach := min (e - p % e) (Desc.lineRoom s)
    { src := s, dst := d, len := min reach (Desc.lineRoom d), reach := reach, elem := q, x := 0 }
  | 3 | 4 =>
    let e := Desc.esize w
    let dense := (p / e * e + p % e : Nat)
    let table := (i * Desc.pitch w + p % e : Nat)
    let s := Desc.addr (Desc.src w) (if Desc.op w = 3 then table else dense : Nat)
    let d := Desc.addr (Desc.dst w) (if Desc.op w = 3 then dense else table : Nat)
    let reach := min (e - p % e) (Desc.lineRoom s)
    { src := s, dst := d, len := min reach (Desc.lineRoom d), reach := reach, elem := p / e, x := 0 }
  | o =>
    let xl := Desc.xlen w
    let r := p / xl
    let s := Desc.addr (Desc.src w) (Desc.rowOff w r false true + ((p % xl : Nat) : Int))
    let d := Desc.addr (Desc.dst w) (Desc.rowOff w r true true + ((p % xl : Nat) : Int))
    let unit := if Desc.isVolatile w && o ≠ 5 then (if o = 6 then Desc.rsize w else 1) else xl
    let reach := min (min (xl - p % xl) unit) (if o = 5 then Desc.lineRoom d else Desc.lineRoom s)
    { src := s, dst := d, len := min reach (Desc.lineRoom d), reach := reach, elem := if o = 6 then p / Desc.rsize w else p, x := p % xl }

/-- Addresses that a shape touches from byte p on in element order, one on each side for each run within a tier page. [log 94 DEDUCED] -/
def Desc.ahead (w : BitVec 512) : Nat → Nat → List Nat
  | _, 0 => []
  | p, n + 1 =>
    if total w ≤ p then []
    else
      let c := chunkAt w p 0
      let step := if op w = 2 then esz w else min (xlen w - p % xlen w) (min (if op w = 5 then pageRoom c.dst else pageRoom c.src) (pageRoom c.dst))
      (if op w = 5 then [c.dst] else [c.src, c.dst]) ++ ahead w (p + step) n

/-- The first and last byte that a descriptor may write, before addresses wrap. [log 93 DEDUCED] -/
def Desc.dstSpan (w : BitVec 512) : Int × Int :=
  let base : Int := dst w
  if op w = 3 then (base, base + ((count w * esize w - 1 : Nat) : Int))
  else if op w = 4 then (base, base + (((2 ^ 32 - 1) * pitch w + esize w - 1 : Nat) : Int))
  else
    let far (n word : Nat) : Int := ((n - 1 : Nat) : Int) * stride w word true
    let ys := if op w = 2 then far (xlen w / esz w) 4 else far (ycnt w) 4
    let parts := [ys, far (zcnt w) 5, far (wcnt w) 6]
    let row : Int := ((if op w = 2 then ycnt w * esz w else xlen w : Nat) : Int) - 1
    (base + (parts.map fun x => min 0 x).sum, base + (parts.map fun x => max 0 x).sum + row)

/-- REDUCE destinations: the HBM views and the populated deep window, as offsets of a module (R292). [log 203 DEDUCED] -/
def redRange (pa : Nat) : Bool := hbmView pa || (decide (deepBase ≤ pa) && decide (pa < deepEnd))

namespace Mach

/-! ### Places and pushes (R285, R307) -/

def descOf (m : Mach) (a k : Nat) : Option Desc := (m.mule a).descs.find? fun x => x.started == some k
def modDesc (m : Mach) (a k : Nat) (f : Desc → Desc) : Mach :=
  m.modMule a fun u => { u with descs := u.descs.map fun x => if x.started == some k then f x else x }

/-- The Mule's domain is ON and its die runs. -/
def muleOn (m : Mach) (a : Nat) : Bool :=
  if agentDie a = 0 then !m.boot.inReset
  else Die.running (m.die (agentDie a - 1)) && (if agentBlk a = 26 then m.domain (agentDie a - 1) 40 == .on else m.flockOn (flockOf a))

/-- Queue 3 of flock Mule 1 belongs to the Collie while STEAL_EN is 1 (R267, R285). -/
def collieQueue (m : Mach) (a : Nat) : Bool := isFlockAgent a && agentUnit a == 21 && m.bit (flockReg (flockOf a) 8) 0

/-- Appends a descriptor; its sequence number counts the pushes to its queue. -/
def muleAppend (m : Mach) (a q : Nat) (w : BitVec 512) (collie : Option Nat) : Mach :=
  m.modMule a fun u => { u with descs := u.descs ++ [{ w := w, queue := q, seq := FMap.get 0 u.pushes q % 2 ^ 32, collie := collie }],
                                pushes := FMap.set 0 u.pushes q (FMap.get 0 u.pushes q + 1) }

/-- A push of descriptor `w` to queue `q` (R232, R285): result code 0, 1 or 2. -/
def mulePush (m : Mach) (a q : Nat) (w : BitVec 512) : Nat × Mach :=
  if (m.mule a).state ≠ .running || !m.muleOn a then (2, m)
  else if q = 3 && m.collieQueue a then (1, m)
  else if 64 ≤ ((m.mule a).descs.filter fun x => x.queue == q).length then (1, m)
  else (0, m.muleAppend a q w none)

/-- Active descriptors. -/
def muleActive (m : Mach) (a : Nat) : List Desc := (m.mule a).descs.filter fun x => x.started.isSome

/-- The oldest waiting descriptor of a queue, if the queue's rules let it start (R286, R287, R306). [log 93 DEDUCED] -/
def muleReady (m : Mach) (a q : Nat) : Option Desc :=
  let u := m.mule a
  match u.descs.find? fun x => x.queue == q && x.started.isNone with
  | none => none
  | some d =>
    if 4 ≤ ((m.muleActive a).filter fun x => x.queue == q).length then none
    else if q = 0 && (u.q0Halted || (Desc.isOrdered d.w && (u.descs.find? fun x => x.queue == 0) ≠ some d)) then none
    else some d

/-- Starts the next descriptor in turn, queue 0 first, and checks it (R286, R295, R309). -/
def muleStart (m : Mach) (a : Nat) : Mach :=
  let u := m.mule a
  if u.state ≠ .running || !m.muleOn a || m.inLean || 8 ≤ (m.muleActive a).length then m
  else match ([0, 1, 2, 3].map fun i => (u.turn + i) % 4).find? fun q => (m.muleReady a q).isSome with
  | none => m
  | some q => match m.muleReady a q with
    | none => m
    | some d =>
      let d' : Desc := { d with started := some u.starts, err := if Desc.bad d.w q then some (1, 0, 0) else none }
      m.setMule a { u with descs := u.descs.map (fun x => if x == d then d' else x), starts := u.starts + 1, turn := (q + 1) % 4 }

/-! ### Accesses of a descriptor -/

/-- What an access comes to: performed, stalled, or the cause that ends the descriptor. -/
inductive MuleRes where
  | data (d : BitVec 512) (poison : Bool) (m : Mach)
  | stall (why : MuleStall) (m : Mach)
  | fail (code : Nat) (m : Mach)

/-- Keeps a line that descriptor `d` has read: the index line, or the source line, which with VOLATILE serves one element only (R300). -/
def keepLine (d : Desc) (index : Bool) (line : Nat) (v : BitVec 512) (p : Bool) : Desc :=
  if index then { d with index := some (line, v, p) } else { d with fetched := some (line, v, p) }

/-- The line that descriptor `d` has kept for the byte at `pa`, if it may serve it (R300). -/
def keptLine (d : Desc) (index : Bool) (pa : Nat) : Option (BitVec 512 × Bool) :=
  let x := if index then d.index else if Desc.isVolatile d.w && d.volEnd ≤ d.progress then none else d.fetched
  match x with
  | some (l, v, p) => if l = pa / 64 then some (v, p) else none
  | none => none

/-- A read toward another module or the host is on its way. -/
def muleAsks (m : Mach) (a k : Nat) (index : Bool) (vend : Nat) : Mach :=
  m.modDesc a k fun d => if index then { d with asking := some true } else { d with asking := some false, fetched := none, volEnd := vend }

/-- Reads the line that holds byte `pa` for descriptor `d` of Mule `a`, started as `k`: a line of the index list, or a source line that
serves the descriptor up to byte `vend`. -/
def muleRead (m : Mach) (a k : Nat) (d : Desc) (pa : Nat) (index : Bool) (vend : Nat) (sector : Bool) : MuleRes :=
  let t := m.target pa
  let line := pa / 64
  let got (v : BitVec 512) (p : Bool) (m : Mach) : MuleRes :=
    .data v p (m.modDesc a k fun d => let x := keepLine d index line v p; if index then x else { x with volEnd := vend })
  if 2 ^ 56 ≤ pa then .fail 2 m
  else match keptLine d index pa with
  | some (v, p) => .data v p m
  | none =>
    if d.asking.isSome then .stall d.stall m
    else if m.targetDead t then .fail 5 m
    else if m.targetHeld t then .stall .retention m
    else match t with
    | .home sa =>
      if m.homeFree (sa / 64) false then
        let ((v, p), m) := m.readNow a (sa / 64) sector
        got v p m
      else .stall (if m.homeHolds (sa / 64) false then .deep else .none)
        (m.homeChase a (sa / 64) false false (if sector then some (pa / 32 % 2) else none))
    | .flock fb _ =>
      let ((v, p), m) := m.fmRead fb line
      got v p m
    | .host hpa => match m.hostAsk (.mule a k) (hpa / 64) false 0 0 with
      | .sent _ m' => .stall (if m.host.state == .attached then .remote else .host) (m'.muleAsks a k index vend)
      | _ => .fail 6 m
    | .herd md off => match m.herdAsk a k md .read (BitVec.ofNat 46 (off / 64 * 64)) 64 0 0 fullMask false with
      | .sent _ m' => .stall .remote (m'.muleAsks a k index vend)
      | .dead => .fail 5 m
      | _ => .fail 2 (m.addrError .nowhere a)
    | .dev _ => .fail 4 m
    | .bad c => .fail 2 (m.addrError c a)

/-- The hint of a descriptor, where it is in use and names a Hen of an enabled flock or a slice (R299). [log 94 DEDUCED] -/
def muleHint (m : Mach) (w : BitVec 512) : Option Nat :=
  let h := wordFld w 0 27 13
  if wordFld w 0 8 1 = 1 && ((isFlockAgent h && agentUnit h < 16 && m.flockEnabled (flockOf h)) || isSlice h) then some h else none

/-- Descriptor `k` has a host-window access that stalls because the module is not attached (R303, R492). [log 90 DEDUCED] -/
def hostStalled (m : Mach) (a k : Nat) : Bool := m.host.reqs.any fun q => q.who == .mule a k && !q.sent

/-- Adds an outstanding write to a descriptor. -/
def muleOwes (m : Mach) (a k key elem : Nat) : Mach := m.modDesc a k fun d => { d with unlanded := d.unlanded ++ [(key, elem)] }

/-- Writes (or, for REDUCE, combines) a line that the descriptor has built. [log 203 DEDUCED, 208 DEDUCED] -/
def muleWrite (m : Mach) (a k : Nat) (w : BitVec 512) (o : OutLine) (sector : Bool) : MuleRes :=
  let pa := o.pa
  let poison := o.bad.isSome
  let t := m.target pa
  let red := Desc.op w == 6
  let code := 512 + wordFld w 7 0 3 * 4 + wordFld w 7 4 2
  if 2 ^ 56 ≤ pa then .fail 2 m
  else if red && !(redRange (match t with | .herd _ off => off | _ => pa)) then .fail 4 m
  else if m.targetDead t then .fail 5 m
  else if m.targetHeld t then .stall .retention m
  else match t with
  | .home sa =>
    if m.tier.flashStall.contains (sa / 64) then .fail 3 (m.modTier fun t => { t with flashStall := t.flashStall.filter fun l => l ≠ sa / 64 })
    else if red && !poison && !m.deepHeld (sa / 64) true then
      .data 0 false ((m.atmPost { agent := a, line := sa / 64, code := code, off := 0, arg := o.data, cmp := BitVec.ofNat 64 o.elem, mask := o.mask, stamp := 0,
                                  desc := k, named := pa, hint := m.muleHint w }).muleOwes a k (atmKey (sa / 64)) o.elem)
    else if m.homeReady (sa / 64) o.mask sector then .data 0 false (m.writeNow a (sa / 64) o.data o.mask poison (m.muleHint w) sector)
    else .stall (if m.deepHeld (sa / 64) true then .deep else .none) (m.homeChase a (sa / 64) true (!sector))
  | .flock fb _ => .data 0 false ((m.flockWrite none fb (pa / 64) o.data o.mask poison))
  | .host hpa =>
    match m.hostAsk (.mule a k) (hpa / 64) true o.data o.mask poison with
    | .sent key m =>
      let m := m.muleOwes a k key o.elem
      .data 0 false (if m.host.state == .attached then m else (m.modDesc a k fun x => { x with stall := .host }).count (muleReg a 0x18) false)
    | _ => .fail 6 m.bmeDrop
  | .herd md off =>
    match m.herdAsk a k md (if red then .amo else .write) (BitVec.ofNat 46 (off / 64 * 64)) (if red then BitVec.ofNat 10 code else 0) o.data
            (BitVec.ofNat 64 o.elem) o.mask (Desc.isTail w) poison with
    | .sent key m => .data 0 false (m.muleOwes a k key o.elem)
    | .dead => .fail 5 m
    | _ => .fail 2 (m.addrError .nowhere a)
  | .dev _ => .fail 4 m
  | .bad c => .fail 2 (m.addrError c a)

/-- The module of a destination byte, none for the Mule's own (R297): herd space that names the Mule's own module is its own. [log 93 DEDUCED] -/
def muleModule (m : Mach) (pa : Nat) : Option Nat :=
  match m.target pa with
  | .herd md _ => if m.herd.attached && md == m.herd.module.toNat then none else some md
  | _ => none

/-- A descriptor may write at module `md`, none for the Mule's own. [log 93 DEDUCED] -/
def mayReach (m : Mach) (w : BitVec 512) (md : Option Nat) : Bool :=
  let (lo, hi) := Desc.dstSpan w
  let meets (n : Nat) : Bool := decide (lo < ((2 ^ 55 + (n + 1) * 2 ^ 46 : Nat) : Int)) && decide (((2 ^ 55 + n * 2 ^ 46 : Nat) : Int) ≤ hi)
  if lo < 0 ∨ ((2 ^ 64 : Nat) : Int) ≤ hi then true
  else match md with
    | some n => meets n
    | none => decide (lo < ((2 ^ 55 : Nat) : Int)) || (m.herd.attached && meets m.herd.module.toNat)

/-- A TAIL descriptor may write the line at `pa` (R298, R456): every earlier-started descriptor of its stream has landed its writes to
that module, or, toward another module, has issued them. [log 93 DEDUCED] -/
def muleTailOk (m : Mach) (a k : Nat) (w : BitVec 512) (pa : Nat) : Bool :=
  let md := m.muleModule pa
  let own (key : Nat) : Bool := key % 4 ≠ 0 || (m.herd.attached && key / 4 % 512 == m.herd.module.toNat)
  !Desc.isTail w || (m.muleActive a).all fun x =>
    match x.started with
    | some s => !(decide (s < k) && wordFld x.w 0 40 6 == wordFld w 0 40 6)
                  || ((x.finished || x.err.isSome || !m.mayReach x.w md) && (md.isSome || !(x.unlanded.any fun y => own y.1)))
    | none => true

/-- Notes a stall: the counters take it when it begins (R303). [log 90 DEDUCED] -/
def muleStalled (m : Mach) (a k : Nat) (d : Desc) (why : MuleStall) : Mach :=
  let m := if why == .deep && d.stall ≠ .deep then m.count (muleReg a 0x18) true else m
  let m := if why == .host && d.stall ≠ .host then m.count (muleReg a 0x18) false else m
  m.modDesc a k fun x => { x with stall := why }

/-- The descriptor meets its first error (R304): what it has built and not written is dropped. [log 204 DEDUCED] -/
def muleFail (m : Mach) (a k code addr elem : Nat) : Mach :=
  m.modDesc a k fun x => if x.err.isSome then x else { x with err := some (code, addr % 2 ^ 56, elem), stall := .none, out := none }

/-- A PROMOTE hint for the page of an address in the deep window that is not resident (R301). [log 94 DEDUCED] -/
def mulePromote (m : Mach) (a k pa : Nat) : Mach :=
  if deepBase ≤ pa && pa < deepEnd && m.tierUp then
    let p := deepPage pa
    match m.descOf a k with
    | some d =>
      if d.hinted.contains p || (m.pageOf p).frame.isSome then m
      else ((m.modDesc a k fun x => { x with hinted := p :: x.hinted }).count (muleReg a 0x14) true).tierAsk p true
    | none => m
  else m

/-- Hints for the pages that the descriptor touches from its place in element order on, sixteen at most; `idxs` are the indices that the
Mule holds from the element in progress on (R301). [log 94 DEDUCED] -/
def muleHints (m : Mach) (a k : Nat) (d : Desc) (idxs : List Nat) : Mach :=
  if !Desc.isPromote d.w then m
  else
    let w := d.w
    let e := Desc.esize w
    let at_ (j i : Nat) : List Nat :=
      let c := chunkAt w (((d.progress / e) + j) * e) i
      [c.src, c.src + e - 1, c.dst, c.dst + e - 1]
    let pas := if Desc.op w = 3 ∨ Desc.op w = 4 then ((List.range idxs.length).map fun j => at_ j (idxs.getD j 0)).flatten
               else Desc.ahead w d.progress 32
    let deep := pas.filter fun pa => decide (deepBase ≤ pa) && decide (pa < deepEnd)
    let firsts := deep.foldl (fun (l : List Nat) pa => if l.any fun x => deepPage x == deepPage pa then l else l ++ [pa]) []
    m.forEach (firsts.take 16) fun m pa => m.mulePromote a k pa

/-- The line bytes of a chunk: those of the source line moved to their place in the destination line, or the pattern of FILL. -/
def chunkData (w : BitVec 512) (c : Chunk) (s : BitVec 512) : BitVec 512 :=
  if Desc.op w = 5 then
    let pat := wordFld w 1 0 64
    placeField (Bits.ofBytes ((List.range c.len).map fun i => BitVec.ofNat 8 (pat >>> (8 * ((c.x + i) % 8))))) (c.dst % 64)
  else placeField (lineField s (c.src % 64) c.len) (c.dst % 64)

/-- A read for an element is a sector access (R311): an element of GATHER or SCATTER within one 32 B sector, where no element after it
shares the line beyond that sector (R300). `pas` are the addresses of the element and of those that follow it. -/
def readSector (w : BitVec 512) (pas : List Nat) : Bool :=
  let e := Desc.esize w
  let pas := if Desc.isVolatile w then pas.take 1 else pas
  match pas with
  | [] => false
  | a :: _ => (pas.takeWhile fun x => x / 64 == a / 64).all fun x => x / 32 == a / 32 && decide (x % 32 + e ≤ 32)

/-- A write request is a sector access (R311). -/
def writeSector (w : BitVec 512) (o : OutLine) : Bool :=
  (Desc.op w == 3 || Desc.op w == 4) && o.whole && (o.mask.toNat < 2 ^ 32 || o.mask.toNat % 2 ^ 32 == 0)

/-- The descriptor writes the line it has built; a line with poison then ends it (R304). [log 89 DEDUCED, 204 DEDUCED] -/
def muleEmit (m : Mach) (a k : Nat) (d : Desc) (o : OutLine) : Mach :=
  if !m.muleTailOk a k d.w o.pa then m
  else match m.muleWrite a k d.w o (writeSector d.w o) with
  | .stall why m => m.muleStalled a k d why
  | .fail code m => m.muleFail a k code o.pa o.elem
  | .data _ _ m =>
    let kept (x : Desc) : MuleStall := if x.stall == .host && m.host.state ≠ .attached then .host else .none
    let m := m.modDesc a k fun x => { x with out := none, stall := kept x, finished := decide (Desc.total d.w ≤ d.progress) }
    match o.bad with
    | some (pa, e) => m.muleFail a k 3 pa e
    | none => m

/-- Bytes of the destination line at `pa` join the line being built (R294, R310). [log 89 DEDUCED] -/
def outJoin (out : Option OutLine) (c : Chunk) (v : BitVec 512) (whole : Bool) (bad : Option (Nat × Nat)) : OutLine :=
  let mask := byteMask (c.dst % 64) c.len
  match out with
  | some o => { o with data := mergeLine o.data v mask, mask := o.mask ||| mask, whole := o.whole && whole, bad := bad }
  | none => { pa := c.dst, data := v, mask := mask, elem := c.elem, whole := whole, bad := bad }

/-- The line being built can take the chunk: the same line, and for REDUCE other elements of it. [log 89 DEDUCED] -/
def outTakes (w : BitVec 512) (o : OutLine) (c : Chunk) : Bool :=
  o.pa / 64 == c.dst / 64 && (Desc.op w ≠ 6 || o.mask &&& byteMask (c.dst % 64) c.len == 0)

/-- The chunk `c` is read and joins the line being built, which is written where the descriptor has reached its end. `pas` are the source
addresses of its element and of those after it. [log 89 DEDUCED] -/
def muleTake (m : Mach) (a k : Nat) (d : Desc) (c : Chunk) (pas : List Nat) : Mach :=
  let w := d.w
  match (if Desc.op w = 5 then .data 0 false m else m.muleRead a k d c.src false (d.progress + c.reach) (readSector w pas)) with
  | .stall why m => m.muleStalled a k d why
  | .fail code m => m.muleFail a k code c.src c.elem
  | .data s poison m =>
    let e := Desc.esize w
    let start := c.dst + 2 ^ 64 - d.progress % e
    let o := outJoin d.out c (chunkData w c s) (decide (start % 32 + e ≤ 32)) (if poison then some (c.src, c.elem) else none)
    let d' : Desc := { (m.descOf a k).getD d with progress := d.progress + c.len, out := some o, stall := .none }
    let m := m.modDesc a k fun _ => d'
    if poison || decide (Desc.total w ≤ d'.progress) then m.muleEmit a k d' o else m

/-- One step of the active descriptor `k` in element order: what it has built and the next element cannot join is written, and the next
bytes are read (R290 to R294, R298, R300, R310, R311). [log 89 DEDUCED] -/
def muleRequest (m : Mach) (a k : Nat) (d : Desc) : Mach :=
  let w := d.w
  let gs := Desc.op w == 3 || Desc.op w == 4
  let e := Desc.esize w
  let n := d.progress / e
  let ipa := Desc.addr (Desc.idx w) ((n * 4 : Nat) : Int)
  match d.out with
  | some o => if o.bad.isSome || decide (Desc.total w ≤ d.progress) then m.muleEmit a k d o else go m w gs e n ipa
  | none => go m w gs e n ipa
where
  go (m : Mach) (w : BitVec 512) (gs : Bool) (e n ipa : Nat) : Mach :=
    match (if gs then m.muleRead a k d ipa true 0 false else .data 0 false m) with
    | .stall why m => m.muleStalled a k d why
    | .fail code m => m.muleFail a k code ipa n
    | .data _ true m => m.muleFail a k 3 ipa n
    | .data ix false m =>
      let idxs := if gs then ((List.range ((64 - ipa % 64) / 4)).map fun j => lineField ix (ipa % 64 + 4 * j) 4).take (Desc.count w - n) else []
      let c := chunkAt w d.progress (idxs.headD 0)
      let m := m.muleHints a k d idxs
      if 2 ^ 56 ≤ c.dst then m.muleFail a k 2 c.dst c.elem
      else
        let m := match d.out with
          | some o => if outTakes w o c then m else m.muleEmit a k d o
          | none => m
        match m.descOf a k with
        | none => m
        | some d' =>
          if d'.err.isSome || (d'.out.any fun o => !outTakes w o c) then m
          else
            let pas := (List.range 16).filterMap fun j =>
              if n + j < Desc.count w && (Desc.op w = 4 || j < idxs.length) then some (chunkAt w ((n + j) * e) (idxs.getD j 0)).src else none
            m.muleTake a k d' c (if gs then pas else [])

/-- Up to `n` steps of the active descriptor `k`, while it gets on. -/
def muleRequests (m : Mach) (a k : Nat) : Nat → Mach
  | 0 => m
  | n + 1 =>
    match m.descOf a k with
    | some d =>
      if d.finished || d.err.isSome || (d.stall == .host && d.unlanded ≠ [] && m.hostStalled a k) then m
      else
        let m := m.muleRequest a k d
        if m.descOf a k == some d then m else muleRequests m a k n
    | none => m

/-- Line requests of an active descriptor whose OP is `op`. [log 89 DEDUCED] -/
def muleMove (m : Mach) (a k n op : Nat) : Mach :=
  match m.descOf a k with
  | some d => if Desc.op d.w = op && m.muleOn a then m.muleRequests a k n else m
  | none => m

/-! ### How a descriptor ends (R302, R304 to R306) -/

/-- The name of a hosted item that its copies carry (R267, R268). -/
def hostedTag (x : Hosted) : Nat := x.victim * 2 ^ 32 + x.id

/-- A copy of a Collie's hosted item has ended. -/
def collieCopyEnd (m : Mach) (fb tag : Nat) (bad : Bool) : Mach :=
  let one (x : Hosted) : Hosted := if hostedTag x == tag then { x with copies := x.copies - 1, copyErr := x.copyErr || bad } else x
  m.modCollie fb fun c => { c with hosted := c.hosted.map one }

/-- Removes a descriptor from its queue. -/
def muleRemove (m : Mach) (a k : Nat) : Mach := m.modMule a fun u => { u with descs := u.descs.filter fun x => x.started ≠ some k }

/-- A release toward a dead die ends the descriptor with DEAD (R443); the spec states neither the address nor the element index that its
record then holds: free values. [log 91 DEDUCED] -/
def muleReleaseDead (m : Mach) (a k : Nat) : Mach :=
  let (x, m) := m.drawFree 56
  let (e, m) := m.drawFree 24
  m.muleFail a k 5 x.toNat e.toNat

/-- Completion with its release. [log 89 DEDUCED] -/
def muleComplete (m : Mach) (a k : Nat) : Mach :=
  match m.descOf a k with
  | none => m
  | some d =>
    let first := (m.mule a).descs.find? fun x => x.queue == 0
    if !d.finished || d.err.isSome || d.unlanded ≠ [] || (d.queue = 0 && ((m.mule a).q0Halted || first ≠ some d)) then m
    else if wordFld d.w 0 9 1 = 1 && m.objectDead (wordFld d.w 0 12 15) then m.muleReleaseDead a k
    else
      let m := if wordFld d.w 0 9 1 = 1 then m.syncAddId (wordFld d.w 0 12 15) 1 (wordFld d.w 0 10 2) (agentLoc a) else m
      let m := match d.collie with | some u => m.collieCopyEnd (flockOf a) u false | none => m
      m.muleRemove a k

/-- The error record (Table 9-6). [log 91 DEDUCED] -/
def muleRecord (d : Desc) (code addr elem : Nat) : BitVec 256 :=
  BitVec.ofNat 256 (wordFld d.w 0 0 64 + addr * 2 ^ 64
    + (code + d.queue * 0x100 + Bits.ofBool d.collie.isSome * 0x400 + elem % 2 ^ 24 * 0x800) * 2 ^ 128 + d.seq % 2 ^ 32 * 2 ^ 192)

/-- An ending with an error, once every access already issued has come back: its record, ERR_OBJ, and the halt of queue 0. -/
def muleErrorEnd (m : Mach) (a k : Nat) : Mach :=
  match m.descOf a k with
  | none => m
  | some d => match d.err with
    | none => m
    | some (code, addr, elem) =>
      if d.unlanded ≠ [] || d.asking.isSome then m
      else
        let u := m.mule a
        let m := m.count (muleReg a 0x10) false
        let m := if u.errors.length < 16 then m else m.count (muleReg a 0x10) true
        let m := m.setMule a { u with errors := (if u.errors.length < 16 then u.errors else u.errors.drop 1) ++ [muleRecord d code addr elem],
                                      q0Halted := u.q0Halted || d.queue == 0 }
        let m := if m.bit (muleReg a 0xC) 15 then m.syncAddId (m.fld (muleReg a 0xC) 0 15) 1 1 (agentLoc a) else m
        let m := match d.collie with | some x => m.collieCopyEnd (flockOf a) x true | none => m
        m.muleRemove a k

/-! ### MULE_CTL (R306, R307) -/

def muleRunOp (m : Mach) (a : Nat) : Mach :=
  (m.modMule a fun u => { u with state := if u.bad then .quiesced else .running }).setFld (muleReg a 0) 0 2 0

/-- A quiescing Mule whose active descriptors have run to their end enters QUIESCED; one that has finished behind the halt of queue 0
waits on, for RESUME0 or a FLUSH (R306, R307). [log 92 DEDUCED] -/
def muleSettle (m : Mach) (a : Nat) : Mach :=
  let waits (x : Desc) : Bool := x.queue == 0 && (m.mule a).q0Halted && x.finished && x.err.isNone && x.unlanded.isEmpty
  if (m.mule a).state == .quiescing && (m.muleActive a).all waits then m.modMule a fun u => { u with state := .quiesced } else m

/-- [log 92 DEDUCED] -/
def muleQuiesceOp (m : Mach) (a : Nat) : Mach :=
  let m := m.setFld (muleReg a 0) 0 2 1
  if (m.mule a).state == .running then m.modMule a fun u => { u with state := .quiescing } else m

/-- Drops the accesses of Mule `a` that stalled before they were sent (R303, R307). -/
def muleUnstall (m : Mach) (a : Nat) : Mach :=
  let mine (q : HostReq) : Bool := q.stalled && !q.sent && (match q.who with | .mule b _ => b == a | _ => false)
  let gone := m.host.reqs.filter mine
  let reads (x : Desc) : Bool := gone.any fun q => !q.write && (match q.who with | .mule _ k => x.started == some k | _ => false)
  let keys := gone.map fun q => hostKey q.num
  (m.modHost fun h => { h with reqs := h.reqs.filter fun q => !mine q }).modMule a fun u =>
    { u with descs := u.descs.map fun x => { x with unlanded := x.unlanded.filter fun p => !keys.contains p.1, asking := if reads x then none else x.asking } }

/-- [log 90 DEDUCED] -/
def muleAbortOp (m : Mach) (a : Nat) : Mach :=
  let m := m.setFld (muleReg a 0) 0 2 2
  let stop (x : Desc) : Desc :=
    if x.started.isSome && x.err.isNone then { x with err := some (7, 0, (chunkAt x.w x.progress 0).elem), stall := .none, out := none } else x
  (m.modMule a fun u => { u with state := if u.state == .quiesced then .quiesced else .quiescing, descs := u.descs.map stop }).muleUnstall a

def muleResume0Op (m : Mach) (a : Nat) : Mach := m.modMule a fun u => { u with q0Halted := false }

/-- FLUSH: the queued descriptors of the selected queues, and with queue 0 those that a halt keeps waiting, go and count in FLUSHED. -/
def muleFlushOp (m : Mach) (a : Nat) (qmask : BitVec 4) : Mach :=
  let u := m.mule a
  if u.state ≠ .quiesced then m.badWrite (muleReg a 0)
  else
    let gone (x : Desc) : Bool := qmask.getLsbD x.queue && !(x.queue == 3 && m.collieQueue a)
      && (x.started.isNone || (x.queue == 0 && u.q0Halted && x.finished))
    (m.setMule a { u with descs := u.descs.filter fun x => !gone x }).countN (muleReg a 0x14) false (u.descs.filter gone).length

/-- A write to MULE_CTL (Table 9-9), with its mask applied. -/
def muleCtlWrite (m : Mach) (a : Nat) (w : BitVec 32) : Mach :=
  let mask := Bits.field w 16 16
  let v := w.toNat &&& mask
  let m := if Bits.nbit v 2 then m.muleResume0Op a else m
  let q := (v >>> 4) % 16 ||| (m.fld (muleReg a 0) 4 4 &&& (15 - (mask >>> 4) % 16))
  let m := m.setFld (muleReg a 0) 4 4 q
  let m := if Bits.nbit v 3 then m.muleFlushOp a (BitVec.ofNat 4 q) else m
  if mask % 4 = 0 then m
  else match v % 4 ||| (m.fld (muleReg a 0) 0 2 &&& (3 - mask % 4)) with
    | 0 => m.muleRunOp a
    | 1 => m.muleQuiesceOp a
    | 2 => m.muleAbortOp a
    | _ => m.badWrite (muleReg a 0)

/-- MULE_STATUS and MULE_DEPTH (Tables 9-8, 9-10). -/
def muleStatus (m : Mach) (a : Nat) : Nat :=
  let u := m.mule a
  (match u.state with | .running => 0 | .quiescing => 1 | .quiesced => 2) + Bits.ofBool u.q0Halted * 4 + Bits.ofBool m.inLean * 8
    + Bits.ofBool ((m.muleActive a).any fun d => d.stall == .deep) * 16 + Bits.ofBool ((m.muleActive a).any fun d => d.started.any fun k => m.hostStalled a k) * 32
    + Bits.ofBool (m.collieQueue a) * 64 + (m.muleActive a).length * 128
def muleDepth (m : Mach) (a : Nat) : Nat :=
  let n (q : Nat) : Nat := ((m.mule a).descs.filter fun x => x.queue == q).length
  n 0 + n 1 * 0x100 + n 2 * 0x10000 + n 3 * 0x1000000

end Mach
end Machine
end Sys2Proof
end

