-- ==== Sys2Proof/Machine/OxOps.lean ====
section
/-!
DEFINITION. The Ox (chapters 04 and 05): the fields of its instruction words, the checks of Table 5-9, the issue rule (R117 to R119,
R56, R61, R159, R162), the effects of its instructions, the pass check with retry and lasting faults (R127 to R131), diagnosis
(R132, R133), quiesce and disable (R134 to R137).
-/
namespace Sys2Proof
namespace Machine
namespace Mach

/-! ### Instruction words (R143, Tables 5-1 to 5-8) -/

/-- `n` bits of an instruction word from bit `lo`. -/
def oxf (w : BitVec 64) (lo n : Nat) : Nat := Bits.nfield w.toNat lo n
def oxOpc (w : BitVec 64) : Nat := oxf w 58 6

/-- The bits that the encoding reserves (R143, Tables 5-2 to 5-8), as a number that must be zero. -/
def oxReserved (w : BitVec 64) : Nat :=
  match oxOpc w with
  | 0x01 | 0x02 | 0x06 | 0x12 => oxf w 0 58
  | 0x04 | 0x05 => oxf w 0 17
  | 0x08 => oxf w 0 2
  | 0x09 => oxf w 0 36
  | 0x0C => 0
  | 0x0D => oxf w 55 2
  | 0x10 => oxf w 0 17
  | 0x11 => oxf w 0 25
  | _ => 0

/-- Opcodes that Table 5-1 assigns. -/
def oxAssigned (w : BitVec 64) : Bool := [1, 2, 4, 5, 6, 8, 9, 0xC, 0xD, 0x10, 0x11, 0x12].contains (oxOpc w)

/-- The element format of a specifier, for an Ox operand (R78: CODE 9 names no operand). -/
def opFmt (spec : Nat) : Option Fmt :=
  match Fmt.ofSpec (spec % 16) (decide (16 ≤ spec)) with
  | some .f32 => none
  | x => x

/-- Rows of a reduction and their width in bytes, for a tile (R144). -/
def tileRows (f : Fmt) (h32 : Bool) : Nat := if f.bits = 4 ∧ !h32 then 64 else 32
def tileWidth (f : Fmt) : Nat := 32 * f.bits / 8

/-- A pair of operand formats that R89 allows. -/
def pairOk (a w : Fmt) : Bool :=
  if a.bits = 16 ∨ w.bits = 16 then a == w else a.isInt == w.isInt

/-- Reduction indices of a pass (Table 3-4). -/
def passLen (a w : Fmt) : Nat := if a.bits = 4 ∧ w.bits = 4 then 64 else 32

/-- The pitch of activation rows (R146). -/
def actPitch (a : Fmt) : Nat := if a.bits = 16 then 64 else 32

/-- The pitch of output rows of a DRN, in bytes (Table 5-5). -/
def drnPitch (w : BitVec 64) : Nat := 32 * (if oxf w 0 9 = 0 then 512 else oxf w 0 9)

/-- The stream bases of an MMA conform (R114). -/
def conforms (w : BitVec 64) : Bool :=
  let na := oxf w 29 2
  let base (a : Nat) : Nat := (oxf w 41 17 * 64 + a * oxf w 31 10 * 512) % 2048
  decide (na ≤ 1) || ((List.range (na + 1)).map base).Nodup

def flockBytes : Nat := 0x800000

/-- Where a stream of `n` rows of `len` bytes at the MMA's pitch would end. -/
def mmaEnd (w : BitVec 64) (p len : Nat) : Nat := oxf w 41 17 * 64 + oxf w 29 2 * oxf w 31 10 * 512 + oxf w 19 10 * p + len

/-- The first accumulator row and the number of rows an instruction touches: pairs count as two rows. -/
def oxRows (w : BitVec 64) : Nat × Nat :=
  match oxOpc w with
  | 0x08 => if oxf w 3 1 = 1 then (2 * oxf w 9 9, 2 * (oxf w 19 10 + 1)) else (oxf w 9 10, oxf w 19 10 + 1)
  | 0x0C => if oxf w 9 1 = 1 then (2 * oxf w 31 10, 2 * (oxf w 21 10 + 1)) else (oxf w 31 10, oxf w 21 10 + 1)
  | 0x09 => (oxf w 48 10, oxf w 38 10 + 1)
  | _ => (0, 0)

def overlap (x y : Nat × Nat) : Bool := decide (x.1 < y.1 + y.2 ∧ y.1 < x.1 + x.2)

/-- The scale-store rows an LDS writes, or an MMA with MX activations reads. -/
def scaleRows (w : BitVec 64) : Nat × Nat :=
  match oxOpc w with
  | 0x05 => (oxf w 28 10, oxf w 18 10 + 1)
  | 0x08 => if oxf w 8 1 = 1 then (oxf w 9 10, oxf w 19 10 + 1) else (0, 0)
  | _ => (0, 0)

/-! ### The checks of Table 5-9 -/

/-- The front weight set, as of the last SWP issued. -/
def frontSet (x : Ox) : WSet := if x.front1 then x.w1 else x.w0

/-- The scale byte `j` of row `r` of array `a`. -/
def scaleByte (x : Ox) (a r j : Nat) : ScaleByte := FMap.get {} x.scale ((1024 * a + r) * 2 + j)

/-- Every scale-store byte that an MMA needs is valid (R147). -/
def scalesReady (x : Ox) (w : BitVec 64) (len : Nat) : Bool :=
  let (r, n) := scaleRows w
  (List.range (oxf w 29 2 + 1)).all fun a => (List.range n).all fun i =>
    (scaleByte x a (r + i) 0).valid && (len ≠ 64 || (scaleByte x a (r + i) 1).valid)

/-- Causes of Table 5-9 that an MMA meets: 3, 4, 5 and 7. -/
def mmaCauses (x : Ox) (strict : Bool) (w : BitVec 64) : List Nat :=
  let np := oxf w 19 10 + 1
  let past := if decide ((if oxf w 3 1 = 1 then 512 else 1024) < oxf w 9 10 + np) then [4] else []
  let f := frontSet x
  match opFmt (oxf w 4 5) with
  | none => [3]
  | some a =>
    let wf := if f.valid then opFmt f.spec.toNat else none
    let len := match wf with | some v => passLen a v | none => 32
    let far := if flockBytes < mmaEnd w (actPitch a) (len * a.bits / 8) then [4] else []
    let tile := match wf with
      | none => [5]
      | some v => (if pairOk a v then [] else [3]) ++ (if f.spec.getLsbD 4 && !f.scalesValid then [5] else []) ++ (if f.rows.length ≠ len then [5] else [])
                    ++ (if scalesReady x w len then [] else [5])
    past ++ far ++ tile ++ (if strict && !conforms w then [7] else [])

/-- The causes of Table 5-9 that apply to an instruction, but for 9 and 10. -/
def oxCauses (x : Ox) (strict : Bool) (w : BitVec 64) : List Nat :=
  (if oxAssigned w then [] else [1]) ++ (if oxReserved w = 0 then [] else [2]) ++
  match oxOpc w with
  | 0x04 =>
    match opFmt (oxf w 18 5) with
    | none => [3]
    | some f =>
      let h32 := oxf w 17 1 == 1
      let mx := oxf w 22 1 == 1
      (if h32 && f.bits ≠ 4 then [3] else [])
        ++ (if flockBytes < oxf w 41 17 * 64 + tileRows f h32 * tileWidth f
              || (mx && decide (flockBytes < oxf w 23 18 * 32 + tileRows f h32)) then [4] else [])
  | 0x05 =>
    let n := oxf w 18 10 + 1
    if 1024 < oxf w 28 10 + n ∨ flockBytes < oxf w 40 18 * 32 + (oxf w 38 2 + 1) * n * (oxf w 17 1 + 1) then [4] else []
  | 0x08 => mmaCauses x strict w
  | 0x09 =>
    (if 1024 < oxf w 48 10 + oxf w 38 10 + 1 then [4] else []) ++ (if oxf w 48 10 % 2 = 1 ∨ oxf w 38 10 % 2 = 0 then [6] else [])
  | 0x0C =>
    let nr := oxf w 21 10 + 1
    let n := (oxf w 19 2 + 1) * nr
    let tr := oxf w 13 1 == 1
    let mx := oxf w 18 1 == 1
    match Fmt.ofSpec (oxf w 14 4) mx with
    | none => [3]
    | some f =>
      let rows := if tr then 32 else n
      let len := ((if tr then n else 32) * f.bits + 7) / 8
      (if decide ((if oxf w 9 1 = 1 then 512 else 1024) < oxf w 31 10 + nr) || decide (flockBytes < oxf w 41 17 * 64 + (rows - 1) * drnPitch w + len)
            || (mx && decide (flockBytes < (if oxf w 10 1 = 1 then x.sptr1 else x.sptr0) + n)) then [4] else [])
        ++ (if tr && (oxf w 31 10 % 32 ≠ 0 || nr % 32 ≠ 0) then [6] else []) ++ (if drnPitch w < len then [11] else [])
  | 0x10 | 0x11 => if 1 ≤ oxf w 53 3 ∧ oxf w 53 3 ≤ 4 then [] else [8]
  | _ => []

/-- The lowest code among the causes that apply (R158). -/
def lowest (l : List Nat) : Option Nat := l.min?

/-! ### Flock memory as an Ox reads and writes it -/

/-- `n` bytes from offset `off` of the Ox's own flock memory, and whether a line read was stored as poisoned. -/
def oxBytes (m : Mach) (fb off n : Nat) : (List Byte × Bool) × Mach :=
  let l0 := (flockMemBase fb + off) / 64
  let l1 := (flockMemBase fb + off + n - 1) / 64
  let one (acc : (List Byte × Bool) × Mach) (l : Nat) : (List Byte × Bool) × Mach :=
    let ((d, p), m) := acc.2.fmRead fb l
    ((acc.1.1 ++ Bits.bytesOf d.toNat 64, acc.1.2 || p), m)
  if n = 0 then (([], false), m)
  else
    let ((bs, p), m) := ((List.range (l1 + 1 - l0)).map (· + l0)).foldl one (([], false), m)
    (((bs.drop (off % 64)).take n, p), m)

/-- Lines `l0` to `l1` of flock memory that hold `n` bytes from offset `off`. -/
def oxLines (fb off n : Nat) : List Nat :=
  if n = 0 then [] else (List.range ((off + n - 1) / 64 + 1 - off / 64)).map (· + (flockMemBase fb + off) / 64)

/-- `n` bytes from offset `off` as a load in flight takes them, each with the poison of its line: lines that it has read already as
they stood then, the others as they stand (R163). -/
def oxTaken (m : Mach) (fb : Nat) (seen : FMap (Option (BitVec 512 × Bool))) (off n : Nat) : List (Byte × Bool) × Mach :=
  let one (acc : List (Byte × Bool) × Mach) (l : Nat) : List (Byte × Bool) × Mach :=
    let ((d, p), m) := match FMap.get none seen l with
      | some x => (x, acc.2)
      | none => acc.2.fmRead fb l
    (acc.1 ++ (Bits.bytesOf d.toNat 64).map fun b => (b, p), m)
  let (bs, m) := (oxLines fb off n).foldl one ([], m)
  ((bs.drop (off % 64)).take n, m)

/-- What an output of an Ox writes to one line. -/
structure LinePut where
  line : Nat
  data : BitVec 512
  mask : BitVec 64
  poison : Bool

/-- Adds a run of bytes within one line to the lines gathered so far, last first: bytes for the same line go in the same write. -/
def gatherLine (acc : List LinePut) (p : LinePut) : List LinePut :=
  match acc with
  | q :: rest => if q.line = p.line then { p with data := mergeLine q.data p.data p.mask, mask := q.mask ||| p.mask, poison := q.poison || p.poison } :: rest
                 else p :: acc
  | [] => [p]

/-- Gathers bytes from offset `off`, each with the mark of a poisoned value: a line that takes a marked byte is stored as poisoned
(R120). `fuel` bounds the number of lines. [log 138 DEDUCED] -/
def gatherBytes (fb off : Nat) (bs : List (Byte × Bool)) (acc : List LinePut) : Nat → List LinePut
  | 0 => acc
  | fuel + 1 =>
    if bs.isEmpty then acc
    else
      let o := off % 64
      let now := bs.take (64 - o)
      let d := BitVec.ofNat 512 (Bits.ofBytes (List.replicate o 0 ++ now.map Prod.fst))
      gatherBytes fb (off + now.length) (bs.drop (64 - o))
        (gatherLine acc ⟨(flockMemBase fb + off) / 64, d, byteMask o now.length, now.any Prod.snd⟩) fuel

/-! ### The state of issue (R56, R61, R112, R117, R118) -/

/-- Oxen per flock that may issue (R53). -/
def oxAllowed (m : Mach) : Nat := match m.gov.oxLimit.toNat with | 0 => 4 | 1 => 2 | _ => 1

/-- Enforcement step 2 bars the Ox: enough lower-numbered Oxen of its flock are IDLE or RUNNING (R53). -/
def oxBarred (m : Mach) (a : Nat) : Bool :=
  let o := agentUnit a - 16
  let busy (i : Nat) : Bool := let s := (m.ox (flockOf a + 16 + i)).state; s == .idle || s == .running
  decide (m.oxAllowed ≤ ((List.range o).filter busy).length)

/-- Issue tokens of a die (R56). -/
def tokenLimit (m : Mach) (d : Nat) : Nat := match (m.die d).curOp.toNat with | 7 => 48 | 6 => 72 | _ => 96
def hasToken (m : Mach) (a : Nat) : Bool := (m.die (agentDie a - 1)).tokens.contains a

/-- The slot of the beat in force is open (R39). -/
def inSlot (m : Mach) : Bool := m.angle / 0x1000 == m.beat.slot.toNat

/-- The ramp of an Ox idle for 1,024 fclk is held (R61). [log 46 DEDUCED] -/
def rampHeld (m : Mach) (a : Nat) : Bool :=
  let d := m.die (agentDie a - 1)
  m.bit (pwrReg 0x18) 4 && decide ((m.ox a).lastBusy + 5 * 1024 ≤ d.fclk5) && !m.inSlot && d.permits.isEmpty

/-- R118's holds other than the token and the ramp, and the stop of fclk or of the flock's domain. -/
def oxHeld (m : Mach) (a : Nat) : Bool :=
  m.inLean || m.gov.fastEnd.isSome || m.oxBarred a || !(m.die (agentDie a - 1)).running || !m.flockOn (flockOf a)

/-- Gives back an Ox's issue token. -/
def dropToken (m : Mach) (a : Nat) : Mach :=
  (m.modDie (agentDie a - 1) fun d => { d with tokens := d.tokens.filter fun x => x ≠ a }).modOx a fun x => { x with tokenWait := false }

/-- Takes an issue token, where the Ox holds none and the die has one left; a wait for one counts once (R138). -/
def takeToken (m : Mach) (a : Nat) : Bool × Mach :=
  if m.hasToken a then (true, m)
  else if (m.die (agentDie a - 1)).tokens.length < m.tokenLimit (agentDie a - 1) then
    (true, (m.modDie (agentDie a - 1) fun d => { d with tokens := d.tokens ++ [a] }).modOx a fun x => { x with tokenWait := false })
  else if (m.ox a).tokenWait then (false, m)
  else (false, (m.modOx a fun x => { x with tokenWait := true }).count (oxReg a 0x24) true)

/-- Marks the Ox's arrays active now (R61): a pass, or the end of a ramp. -/
def oxBusy (m : Mach) (a : Nat) : Mach := m.modOx a fun x => { x with lastBusy := (m.die (agentDie a - 1)).fclk5 }

/-- In-flight instructions of the given opcodes. -/
def flying (x : Ox) (ops : List Nat) : List OxFlight := x.flight.filter fun f => ops.contains (oxOpc f.word)

/-- Accumulator rows of an instruction meet those of an earlier one in flight of the given opcodes. -/
def rowsMeet (x : Ox) (ops : List Nat) (w : BitVec 64) : Bool := (flying x ops).any fun f => overlap (oxRows f.word) (oxRows w)

/-- Conditions 2 and 3 of R117 with the hazards of R162, the port rule of R159 and the waits of R157. -/
def oxReady (x : Ox) (w : BitVec 64) : Bool :=
  match oxOpc w with
  | 0x02 | 0x12 => x.flight.isEmpty
  | 0x04 => (flying x [6]).isEmpty && decide ((flying x [4, 5]).length < 2)
  | 0x05 => decide ((flying x [4, 5]).length < 2) && !((flying x [8]).any fun f => overlap (scaleRows f.word) (scaleRows w))
  | 0x06 => (flying x [4]).isEmpty
  | 0x08 => decide ((flying x [8]).length < 2) && !((flying x [5]).any fun f => overlap (scaleRows f.word) (scaleRows w)) && !rowsMeet x [9, 0xC] w
  | 0x09 => !rowsMeet x [8, 9, 0xC] w
  | 0x0C => decide ((flying x [0xC]).length < 2) && !rowsMeet x [8, 9] w
  | _ => true

/-! ### The return of an item and the end of a quiesce (R131, R135, R136, R158) -/

/-- The item ended without completing: it goes back with event `ev`, with the queued items unless the Ox stays in service; the queue
empties, and the Ox enters state `st`. -/
def oxGiveBack (m : Mach) (a : Nat) (ev : RetEvent) (st : OxState) : Mach :=
  let m := (m.engineGive a ev (st ≠ .idle)).syncForget (.ox a)
  let m := m.modOx a fun x => { x with state := st, queue := [], flight := [], ret := .none, itemPoison := false }
  if st == .idle then m else m.dropToken a

/-- Array activity ends (R125, R126): the Ox ramps down, but for lean state and a fast limit that holds issue. -/
def oxRampDown (m : Mach) (a : Nat) : Mach :=
  m.modOx a fun x => { x with ramp := if m.inLean || m.gov.fastEnd.isSome then .none else .down }

/-- No Ox runs ramp-down ballast any more: lean state or a fast limit begins (R126). -/
def oxBallastEnd (m : Mach) : Mach :=
  m.forEach (m.oxen.map fun p => p.1) fun m a => m.modOx a fun x => { x with ramp := if x.ramp = .down then .none else x.ramp }

/-- A diagnosis that waits for its ramp begins it, where R61 lets it. [log 54 DEDUCED] -/
def oxDiagGo (m : Mach) (a : Nat) : Mach :=
  if (m.ox a).diagHeld && !m.rampHeld a then (m.modOx a fun x => { x with diagHeld := false, ramp := .up }).count (oxReg a 0x24) false else m

/-- The slot, a permit window or RAMP_GATE lets held diagnoses begin. -/
def oxDiagWake (m : Mach) : Mach := m.forEach (m.oxen.map fun p => p.1) oxDiagGo

/-- Diagnosis starts (R132); it ramps like an MMA, and so holds that ramp under R61. [log 54 DEDUCED] -/
def oxDiagnose (m : Mach) (a : Nat) : Mach :=
  if (m.ox a).diagRunning then m else (m.modOx a fun x => { x with diagRunning := true, diagHeld := true }).oxDiagGo a

/-- Performs the releases whose earlier flock-memory accesses have completed (R123, R156), oldest first. `fuel` bounds them. -/
def oxReleases (m : Mach) (a : Nat) : Nat → Mach
  | 0 => m
  | n + 1 =>
    let x := m.ox a
    let front := x.flight.takeWhile fun f => !(([4, 5, 8, 0xC] : List Nat).contains (oxOpc f.word))
    match front.find? fun f => oxOpc f.word == 0x11 with
    | none => m
    | some f =>
      let m := m.setOx a { x with flight := x.flight.filter (fun g => g.idx ≠ f.idx), effects := true }
      oxReleases (m.syncAddId (oxf f.word 41 15) (oxf f.word 25 16) (oxf f.word 56 2) (agentLoc a)) a n

/-- After an instruction in flight has ended: releases are performed, and a lasting fault's return follows the DRN it waited for. -/
def oxSettle (m : Mach) (a : Nat) : Mach :=
  let m := m.oxReleases a (m.ox a).flight.length
  let x := m.ox a
  if x.ret = .lasting ∧ x.flight.isEmpty then
    ((m.oxGiveBack a .raised .quarantined).oxDiagnose a)
  else m

/-- An instruction in flight has ended. -/
def oxEnded (m : Mach) (a idx : Nat) : Mach := (m.modOx a fun x => { x with flight := x.flight.filter fun f => f.idx ≠ idx }).oxSettle a

/-! ### Issue -/

/-- Takes the oldest unissued instruction off the queue as issued; `keep` leaves it in flight. [log 23 DESIGN CHOICE] -/
def oxTake (m : Mach) (a : Nat) (f : Option OxFlight) : Mach :=
  m.modOx a fun x => { x with queue := x.queue.drop 1, index := x.index + 1, flight := x.flight ++ f.toList }

/-- The issue rule for an instruction of opcode `op` at the head of a running Ox's queue: the holds, readiness, the checks of
Table 5-9, the token; then `perform` with the Ox and the word. [log 210 DEDUCED] -/
def oxIssue (m : Mach) (a op : Nat) (perform : Mach → Ox → BitVec 64 → Mach) : Mach :=
  let x := m.ox a
  match x.queue with
  | [] => m
  | w :: _ =>
    if oxOpc w ≠ op || x.state ≠ .running || x.ret ≠ .none || x.ditherDue || m.oxHeld a || !oxReady x w then m
    else match lowest (oxCauses x (m.bit (mgmtReg (agentDie a - 1) 0x200) 16) w) with
      | some c => m.setOx a { x with ret := .refused c (x.index % 65536) }
      | none =>
        let (ok, m) := m.takeToken a
        if ok then perform m (m.ox a) w else m

/-- An instruction in flight as its word and place in the program. -/
def fly (x : Ox) (w : BitVec 64) : OxFlight := { word := w, idx := x.index }

/-- NOP, FENCE: nothing beyond the issue. -/
def oxNopOp (m : Mach) (a op : Nat) : Mach := m.oxIssue a op fun m _ _ => m.oxTake a none

/-- LDW, LDS, ZAC, SREL: the instruction goes into flight. -/
def oxFlyOp (m : Mach) (a op : Nat) : Mach := m.oxIssue a op fun m x w => m.oxTake a (some (fly x w))

/-- SWP: later passes use the other set (R107). -/
def oxSwpOp (m : Mach) (a : Nat) : Mach :=
  m.oxIssue a 6 fun m x w => (m.oxTake a (some (fly x w))).modOx a fun x => { x with front1 := !x.front1 }

/-- MMA (R114, R124, R125): it latches the front set; where no MMA streams, the Ox ramps up. -/
def oxMmaOp (m : Mach) (a : Nat) : Mach :=
  if (flying (m.ox a) [8]).isEmpty && m.rampHeld a then m
  else m.oxIssue a 8 fun m x w =>
    let first := (flying x [8]).isEmpty
    let m := m.oxTake a (some { fly x w with set1 := x.front1 })
    let m := if conforms w then m else m.count (oxReg a 0x1C) false
    if first then (m.modOx a fun x => { x with ramp := .up }).count (oxReg a 0x24) false else m

/-- DRN: d and SPTR are latched and SPTR advances (R152, R154). [log 48 DEDUCED] -/
def oxDrnOp (m : Mach) (a : Nat) : Mach :=
  m.oxIssue a 0xC fun m x w =>
    let s1 := oxf w 10 1 == 1
    let p := if s1 then x.sptr1 else x.sptr0
    let n := (p + (oxf w 19 2 + 1) * (oxf w 21 10 + 1)) % 2 ^ 23
    let m := m.oxTake a (some { fly x w with d := if s1 then x.d1 else x.d0, sptr := p })
    m.modOx a fun x => if s1 then { x with sptr1 := n } else { x with sptr0 := n }

/-- DSET (R154). -/
def oxDsetOp (m : Mach) (a : Nat) : Mach :=
  m.oxIssue a 0xD fun m _ w =>
    let d := BitVec.ofNat 32 (oxf w 23 32)
    let p := oxf w 0 23
    (m.oxTake a none).modOx a fun x => if oxf w 57 1 = 1 then { x with d1 := d, sptr1 := p } else { x with d0 := d, sptr0 := p }

/-- SREL: it waits for the flock-memory accesses before it, and is performed at once where none is in flight (R156). -/
def oxSrelOp (m : Mach) (a : Nat) : Mach :=
  m.oxIssue a 0x11 fun m x w => (m.oxTake a (some (fly x w))).oxSettle a

/-- SWT (R155): it issues once the object has reached the threshold, as an acquire; until then the sync unit holds the wait. -/
def oxSwtOp (m : Mach) (a : Nat) : Mach :=
  m.oxIssue a 0x10 fun m _ w =>
    let d := oxf w 53 3 - 1
    let i := oxf w 41 12
    let t := BitVec.ofNat 24 (oxf w 17 24)
    if syncReached (m.syncObj d i).count t then
      ((m.syncForget (.ox a)).syncAcquire d i (oxf w 56 2) (agentLoc a) (m.herdWide a)).oxTake a none
    else if (m.sync d).waits.any fun x => x.who == .ox a then m
    else m.syncWait d i t (BitVec.ofNat 2 (oxf w 56 2)) (.ox a)

/-- A line of the program enters the queue (R140); an address error or a poisoned line ends the fetch with cause 10. -/
def oxFetchOp (m : Mach) (a : Nat) : Mach :=
  let x := m.ox a
  let fb := flockOf a
  let off := x.entry + 8 * x.fetched
  let n := min (8 - off % 64 / 8) (65536 - x.fetched)
  if x.state ≠ .running || x.ret ≠ .none || x.fetchStop || n = 0 || 256 < x.queue.length + n || !m.flockOn fb || !(m.die (agentDie a - 1)).running then m
  else if flockBytes ≤ off then (m.addrError (.die (agentDie a)) (collieOf fb)).modOx a fun x => { x with fetchStop := true }
  else
    let ((bs, bad), m) := m.oxBytes fb off (8 * n)
    if bad then m.modOx a fun x => { x with fetchStop := true }
    else
      let ws := (List.range n).map fun i => BitVec.ofNat 64 (Bits.ofBytes ((bs.drop (8 * i)).take 8))
      m.modOx a fun x => { x with queue := x.queue ++ ws, fetched := x.fetched + n }

/-- The cause that ends a program with no issue row of its own: a reserved opcode (1), no END (9), a fetch error (10). -/
def oxStuck (x : Ox) : Option Nat :=
  match x.queue with
  | w :: _ => if oxAssigned w then none else some 1
  | [] => if x.fetchStop then some 10 else if 65536 ≤ x.fetched then some 9 else none

/-- A refused item goes back once the issued instructions have completed (R158). -/
def oxRefusedReturnOp (m : Mach) (a : Nat) : Mach :=
  let x := m.ox a
  let ret : OxReturn := match oxStuck x with
    | some c => if x.ret = .none ∧ x.state = .running ∧ !m.oxHeld a then .refused c (x.index % 65536) else x.ret
    | none => x.ret
  match ret with
  | .refused c i =>
    let m := m.setOx a { x with ret := ret }
    if x.flight.isEmpty && x.state == .running then m.oxGiveBack a (.refused c i) .idle else m
  | _ => m

/-! ### The effects of instructions in flight -/

/-- The oldest instruction in flight on a port, where it has the given opcode. -/
def portHead (x : Ox) (port : List Nat) (op : Nat) : Option OxFlight :=
  match (flying x port).head? with
  | some f => if oxOpc f.word = op then some f else none
  | none => none

/-- Lines of a load in flight enter the weight lane: those of `lines` that `part` names, and that it has not read yet (R163). [log 55 DEDUCED] -/
def oxLoadPart (m : Mach) (a : Nat) (f : OxFlight) (lines part : List Nat) : Mach :=
  let one (acc : FMap (Option (BitVec 512 × Bool)) × Mach) (l : Nat) : FMap (Option (BitVec 512 × Bool)) × Mach :=
    if (FMap.get none acc.1 l).isSome then acc
    else
      let (x, m) := acc.2.fmRead (flockOf a) l
      (FMap.set none acc.1 l (some x), m)
  let (seen, m) := (part.filterMap fun i => lines[i]?).foldl one (f.seen, m)
  m.modOx a fun x => { x with flight := x.flight.map fun g => if g.idx == f.idx then { g with seen := seen } else g }

/-- LDW completes (R106, R108, R144): the back set is valid. With `part`, those of its lines, tile and then scales, enter before. [log 55 DEDUCED] -/
def oxLdwDoneOp (m : Mach) (a : Nat) (part : Option (List Nat)) : Mach :=
  match portHead (m.ox a) [4, 5] 4 with
  | none => m
  | some f =>
    let w := f.word
    match opFmt (oxf w 18 5), part with
    | none, _ => m
    | some ft, some ps =>
      let n := tileRows ft (oxf w 17 1 == 1)
      m.oxLoadPart a f (oxLines (flockOf a) (oxf w 41 17 * 64) (n * tileWidth ft)
        ++ oxLines (flockOf a) (oxf w 23 18 * 32) (if oxf w 22 1 = 1 then n else 0)) ps
    | some ft, none =>
      let n := tileRows ft (oxf w 17 1 == 1)
      let wd := tileWidth ft
      let (ts, m) := m.oxTaken (flockOf a) f.seen (oxf w 41 17 * 64) (n * wd)
      let bs := ts.map Prod.fst
      let p := ts.any Prod.snd
      let rows := (List.range n).map fun r => unpack ft.bits 32 ((bs.drop (r * wd)).take wd)
      let check (row : List Nat) : Option Dy :=
        let vs := row.map ft.decode
        if vs.any fun v => v.isNan || v.isInf then none else some (Dy.sum (vs.map Num.toDy))
      let x := m.ox a
      let old := if x.front1 then x.w0 else x.w1
      let new := { old with valid := true, spec := BitVec.ofNat 5 (oxf w 18 5), rows := rows, check := rows.map check, poison := p }
      let mx := oxf w 22 1 == 1
      let (ss, m) := if mx then m.oxTaken (flockOf a) f.seen (oxf w 23 18 * 32) n else ([], m)
      let new := if mx then { new with scales := ss.map Prod.fst, scalesValid := true, poison := p || ss.any Prod.snd } else new
      (m.modOx a fun x => if x.front1 then { x with w0 := new } else { x with w1 := new }).oxEnded a f.idx

/-- LDS completes (R145, R149): each byte is valid, and marked where its line was stored as poisoned. With `part`, those of its lines
enter before. [log 55 DEDUCED] -/
def oxLdsDoneOp (m : Mach) (a : Nat) (part : Option (List Nat)) : Mach :=
  match portHead (m.ox a) [4, 5] 5 with
  | none => m
  | some f =>
    let w := f.word
    let n := oxf w 18 10 + 1
    let k := oxf w 17 1 + 1
    let len := (oxf w 38 2 + 1) * n * k
    match part with
    | some ps => m.oxLoadPart a f (oxLines (flockOf a) (oxf w 40 18 * 32) len) ps
    | none =>
      let (ts, m) := m.oxTaken (flockOf a) f.seen (oxf w 40 18 * 32) len
      let byte (s : FMap ScaleByte) (x : Nat × Byte × Bool) : FMap ScaleByte :=
        let row := 1024 * (x.1 / k / n) + oxf w 28 10 + x.1 / k % n
        FMap.set {} s (row * 2 + x.1 % k) { valid := true, poison := x.2.2, code := x.2.1 }
      (m.modOx a fun x => { x with scale := (List.zip (List.range len) ts).foldl byte x.scale }).oxEnded a f.idx

/-- An SWP's wavefront completes; every earlier MMA has ended (R107, R161). -/
def oxSwpDoneOp (m : Mach) (a : Nat) : Mach :=
  match portHead (m.ox a) [6, 8] 6 with
  | none => m
  | some f => m.oxEnded a f.idx

/-- Zeroes a row of an array with its pair's poison (R153). -/
def accZero (x : Ox) (a r : Nat) : Ox :=
  (List.range 32).foldl (fun x c =>
    { x with acc := FMap.set 0 x.acc ((1024 * a + r) * 32 + c) 0, accPoison := FMap.set false x.accPoison ((512 * a + r / 2) * 32 + c) false,
             accUpset := FMap.set 0 x.accUpset ((512 * a + r / 2) * 32 + c) 0 }) x

/-- ZAC completes. -/
def oxZacDoneOp (m : Mach) (a : Nat) : Mach :=
  match (flying (m.ox a) [9]).head? with
  | none => m
  | some f =>
    let (r, n) := oxRows f.word
    let arr (x : Ox) (b : Nat) : Ox := (List.range n).foldl (fun x i => accZero x b (r + i)) x
    (m.modOx a fun x => (List.range (oxf f.word 36 2 + 1)).foldl arr x).oxEnded a f.idx

/-- Reads the 32 pairs that hold row `r` of array `b` (R120): a latent single-bit error is corrected, a double-bit error poisons. -/
def accTouch (m : Mach) (a b r : Nat) : Mach :=
  m.forEach (List.range 32) fun m c =>
    let k := (512 * b + r / 2) * 32 + c
    match (FMap.get 0 (m.ox a).accUpset k).toNat with
    | 0 => m
    | 1 => (m.modOx a fun x => { x with accUpset := FMap.set 0 x.accUpset k 0 }).count (oxReg a 0x20) false
    | _ => (m.modOx a fun x => { x with accUpset := FMap.set 0 x.accUpset k 0, accPoison := FMap.set false x.accPoison k true }).count (oxReg a 0x20) true

def accEntry (x : Ox) (b r c : Nat) : BitVec 32 := FMap.get 0 x.acc ((1024 * b + r) * 32 + c)
/-- [log 49 DEDUCED] -/
def pairPoison (x : Ox) (b r c : Nat) : Bool := FMap.get false x.accPoison ((512 * b + r / 2) * 32 + c)

/-! ### The repair map (R132, R133, R138) -/

/-- The repair map of array `b`, and entry `i` of a map: 0 and 1 rows, 2 and 3 columns. -/
def repairOf (x : Ox) (b : Nat) : BitVec 32 := FMap.get 0 x.repair b
def repairEntry (v : BitVec 32) (i : Nat) : Nat := Bits.field v (8 * i) 8


/-- OX_REPAIR. -/
def oxRepairWord (x : Ox) : Nat :=
  let used (b k : Nat) : Nat := ([k, k + 1].filter fun i => decide (0x80 ≤ repairEntry (repairOf x b) i)).length
  ((List.range 4).map fun b => used b 0 * 4 ^ b + used b 2 * 256 * 4 ^ b).sum + Bits.ofBool x.diagFail * 0x10000

/-- The record of type 0x01 (Table 18-5). -/
def oxTel (m : Mach) (a : Nat) : Mach :=
  m.telRecord (agentDie a) 1 a [(m.ox a).fault.setWidth 64, BitVec.ofNat 64 (oxRepairWord (m.ox a))]

/-! ### A pass (R127 to R131, R146 to R149) -/

/-- What an array computes in a pass: the block results of each column, and the check weights' side of the comparison. [log 56 DESIGN CHOICE] -/
structure ArrayPass where
  cols : List (List BlockSum)
  /-- Table 3-3 decides a column by a row other than the last (R129) -/
  special : Bool
  /-- the array's check fails -/
  mismatch : Bool

/-- The check of an array (R127, R128) from the exact products of its columns, the errors of its data columns and its check column. [log 56 DESIGN CHOICE] -/
def passMismatch (wide : Bool) (acts : List Num) (ws : List (List Num)) (check : List (Option Dy)) (errs : List OxError) (tol8 shift : Nat) : Bool :=
  let e := Dy.sum (errs.map fun x => ⟨if x.col.val = 32 then -x.m else x.m, x.e⟩)
  if wide then
    let prods := ws.map fun col => (List.zipWith Num.mul acts col).map Num.toDy
    let data := Dy.sum (prods.map truncSum)
    let chk := truncSum (List.zipWith (fun x (k : Option Dy) => Dy.mul x.toDy (k.getD ⟨0, 0⟩)) acts check)
    let diff := (Dy.add (Dy.add data chk.neg) e).abs
    match ((prods.flatten.filter fun p => p.m ≠ 0).map Dy.log2).max? with
    | none => diff.m ≠ 0
    | some top => Dy.lt ⟨1, top - shift⟩ diff
  else Dy.lt ⟨tol8, -32⟩ e.abs

/-- One array's part of a pass. `sa` are the activation scale bytes. [log 56 DESIGN CHOICE] -/
def arrayPass (s : WSet) (af wf : Fmt) (acts : List Nat) (sa : List Byte) (errs : List OxError) (tol8 shift : Nat) : ArrayPass :=
  let wide := af.bits == 16
  let as := acts.map af.decode
  let col (c : Nat) : List Num := s.rows.map fun r => wf.decode (r.getD c 0)
  let sw (blk c : Nat) : Byte := if s.spec.getLsbD 4 then s.scales.getD (32 * blk + c) 0 else 0x7F
  let nb := as.length / 32
  let errs := errs.filter fun x => decide (x.blk.val < nb)
  let err (c blk : Nat) : Dy := Dy.sum ((errs.filter fun x => x.col.val == c && x.blk.val == blk).map fun x => ⟨x.m, x.e⟩)
  let block (c blk : Nat) : BlockSum :=
    let ws := ((col c).drop (32 * blk)).take 32
    match blockSum wide ((as.drop (32 * blk)).take 32) ws (sa.getD blk 0x7F) (sw blk c) with
    | .val v => .val (Dy.add v ⟨(err c blk).m, (err c blk).e + scaleExp (sa.getD blk 0x7F) (sw blk c)⟩)
    | b => b
  let cols := (List.range 32).map fun c => (List.range nb).map (block c)
  let special := cols.any fun bs => bs.any fun b => match b with | .val _ => false | _ => true
  ⟨cols, special, !special && passMismatch wide as ((List.range 32).map col) s.check errs tol8 shift⟩

/-- Updates row or pair `r` of array `b` with the column results of a pass. -/
def accCommit (x : Ox) (b r : Nat) (cmp zero : Bool) (cols : List (List BlockSum)) : Ox :=
  (List.zip (List.range 32) cols).foldl (fun x (c, bs) =>
    if cmp then
      let hi := if zero then 0 else accEntry x b (2 * r) c
      let lo := if zero then 0 else accEntry x b (2 * r + 1) c
      let (h, l) := pairUpdate hi lo bs
      { x with acc := FMap.set 0 (FMap.set 0 x.acc ((1024 * b + 2 * r) * 32 + c) h) ((1024 * b + 2 * r + 1) * 32 + c) l }
    else
      let v := accUpdate (if zero then 0 else accEntry x b r c) bs
      { x with acc := FMap.set 0 x.acc ((1024 * b + r) * 32 + c) v }) x

/-- Poisons every pair an MMA updates (R149). [log 49 DEDUCED] -/
def accPoisonAll (x : Ox) (w : BitVec 64) : Ox :=
  let (r, n) := oxRows w
  let arr (x : Ox) (b : Nat) : Ox :=
    (List.range n).foldl (fun x i => (List.range 32).foldl (fun x c =>
      { x with accPoison := FMap.set false x.accPoison ((512 * b + (r + i) / 2) * 32 + c) true }) x) x
  { (List.range (oxf w 29 2 + 1)).foldl arr x with itemPoison := true }

/-- OX_FAULT for instruction `idx` and pass `p` (Table 4-8). -/
def faultWord (arrays p idx : Nat) (unresolved : Bool) : BitVec 32 :=
  BitVec.ofNat 32 (arrays + p * 16 + Bits.ofBool unresolved * 0x4000 + idx % 65536 * 0x10000)

/-- The instructions in flight that a lasting fault or a forced disable does not discard: a DRN that has written a line (R131, R136). [log 57 DEDUCED] -/
def oxKept (x : Ox) : List OxFlight := (flying x [0xC]).filter fun f => f.done ≠ []

/-- A lasting fault (R131): the instructions in flight are discarded, but for a DRN that has written a line; the item's return and
QUARANTINED follow that DRN. A quiesce that came before follows the diagnosis (R134). [log 53 DEDUCED] -/
def oxLasting (m : Mach) (a arrays : Nat) (f : OxFlight) : Mach :=
  let m := (m.count (oxReg a 0x10) true).oxRampDown a
  let m := m.modOx a fun x =>
    { x with fault := faultWord arrays f.pass f.idx false, ret := .lasting, disableNext := x.disableNext || x.state == .quiescing, flight := oxKept x }
  (m.oxTel a).oxSettle a

/-- One pass of the oldest MMA in flight, with the hardware errors `errs` that occur in it. [log 49 DEDUCED, 50 DEDUCED, 55 DEDUCED] -/
def oxPassOp (m : Mach) (a : Nat) (errs : List OxError) : Mach :=
  let x := m.ox a
  match portHead x [8] 8 with
  | none => m
  | some f =>
    if x.ramp = .up then m else
    let w := f.word
    let s := if f.set1 then x.w1 else x.w0
    match opFmt (oxf w 4 5), opFmt s.spec.toNat with
    | some af, some wf =>
      let n := passLen af wf
      let row := oxf w 9 10 + f.pass
      let cfg := m.reg (mgmtReg (agentDie a - 1) 0x200)
      let mx := oxf w 8 1 == 1
      let one (acc : List ArrayPass × Bool × Mach) (b : Nat) : List ArrayPass × Bool × Mach :=
        let (l, bad, m) := acc
        let ((bs, p), m) := m.oxBytes (flockOf a) (oxf w 41 17 * 64 + b * oxf w 31 10 * 512 + f.pass * actPitch af) (n * af.bits / 8)
        let sc := if mx then (List.range (n / 32)).map (scaleByte x b row) else []
        let r := arrayPass s af wf (unpack af.bits n bs) (sc.map (·.code)) (errs.filter fun e => e.array.val == b) (Bits.field cfg 8 8) (Bits.field cfg 3 5)
        (l ++ [r], bad || p || sc.any (·.poison), m)
      let (rs, bad, m) := (List.range (oxf w 29 2 + 1)).foldl one ([], s.poison, m)
      let arrays := (List.zip (List.range 4) rs).foldl (fun t (b, r) => if r.mismatch then t + 2 ^ b else t) 0
      let m := m.oxBusy a
      let m := if rs.any (·.special) && !(f.retry && f.pass == f.failedAt) then m.count (oxReg a 0x18) true else m
      if arrays ≠ 0 then
        if f.retry then m.oxLasting a arrays f
        else m.modOx a fun x => { x with flight := x.flight.map fun g => if g.idx == f.idx then { g with retry := true, failedAt := f.pass } else g }
      else
        let cmp := oxf w 3 1 == 1
        let m := m.forEach (List.range rs.length) fun m b => m.accTouch a b (if cmp then 2 * row else row)
        let m := m.modOx a fun x => (List.zip (List.range 4) rs).foldl (fun x (b, r) => accCommit x b row cmp (oxf w 2 1 == 1) r.cols) x
        let m := if bad then m.modOx a fun x => accPoisonAll x w else m
        if f.pass < oxf w 19 10 then
          m.modOx a fun x => { x with flight := x.flight.map fun g => if g.idx == f.idx then { g with pass := g.pass + 1 } else g }
        else
          let m := if f.retry then m.count (oxReg a 0x10) false else m
          let last := (flying (m.ox a) [8]).length == 1
          let m := if last then m.oxRampDown a else m
          m.oxEnded a f.idx
    | _, _ => m

/-! ### The drain (R98 to R103, R120 to R122, R150 to R152) -/

/-- An entry as the drain takes it: v, its rounding, and whether its pair is poisoned. -/
structure DrainEl where
  v : Num
  r : Rnd
  bad : Bool

/-- The 32 entries of row or pair `r` of array `b` in column order, each with the next dither value where RND is 1 (R598). [log 47 DEDUCED] -/
def drainRow (x : Ox) (b r : Nat) (cmp sr : Bool) (d : Num) (s : BitVec 64) : List DrainEl × BitVec 64 :=
  (List.range 32).foldl (fun (l, s) c =>
    let e := if cmp then Num.add (f32 (accEntry x b (2 * r) c)) (f32 (accEntry x b (2 * r + 1) c)) else f32 (accEntry x b r c)
    let s := if sr then Bits.lfsrSteps s 16 else s
    (l ++ [⟨Num.mul e d, if sr then .sr (s.toNat % 65536) else .rne, pairPoison x b (if cmp then 2 * r else r) c⟩], s)) ([], s)

/-- Counts of a drain: NAN_PRODUCED, SAT_EVENTS, LOST_NAN. [log 51 DEDUCED] -/
structure DrainCnt where
  nan : Nat := 0
  sat : Nat := 0
  lost : Nat := 0

def DrainCnt.add (x y : DrainCnt) : DrainCnt := ⟨x.nan + y.nan, x.sat + y.sat, x.lost + y.lost⟩

/-- One element of a non-MX output with its counts (R122). [log 51 DEDUCED] -/
def drainOne (f : Fmt) (sat : Bool) (e : DrainEl) : Nat × DrainCnt :=
  let c := convert f sat e.r e.v
  let isNan := f.nanCode == some c.code
  let isInf := f.hasInf && c.code % f.signBit == (2 ^ f.exp - 1) * 2 ^ f.man
  (c.code, { nan := Bits.ofBool isNan, sat := Bits.ofBool (c.ovf && !isNan && !isInf), lost := Bits.ofBool (c.nan && f.nanCode.isNone) })

/-- The elements of one output row: codes, scale bytes with their marks, counts. [log 47 DEDUCED] -/
def drainElems (f : Fmt) (mx sat : Bool) (els : List DrainEl) : List Nat × List (Byte × Bool) × DrainCnt :=
  if mx then
    (List.range (els.length / 32)).foldl (fun ((cs, ss, k) : List Nat × List (Byte × Bool) × DrainCnt) g =>
      let blk := (els.drop (32 * g)).take 32
      let (s, c, nan) := mxBlock f (blk.map (·.v)) (blk.map (·.r))
      (cs ++ c, ss ++ [(s, blk.any (·.bad))], k.add { nan := Bits.ofBool nan })) ([], [], {})
  else
    let xs := els.map (drainOne f sat)
    (xs.map Prod.fst, [], xs.foldl (fun (k : DrainCnt) x => k.add x.2) {})

/-- Packs a row's codes into bytes, each marked where an element in it is from a poisoned pair. -/
def drainPack (f : Fmt) (codes : List Nat) (bad : List Bool) : List (Byte × Bool) :=
  let bs := pack f.bits codes
  let mark (j : Nat) : Bool := (List.range ((8 * j + 7) / f.bits + 1 - 8 * j / f.bits)).any fun i => bad.getD (8 * j / f.bits + i) false
  List.zip bs ((List.range bs.length).map mark)

/-- The rows or pairs that a DRN reads, array by array. -/
def drnRows (w : BitVec 64) : List (Nat × Nat) :=
  ((List.range (oxf w 19 2 + 1)).map fun b => (List.range (oxf w 21 10 + 1)).map fun i => (b, oxf w 31 10 + i)).flatten

/-- What a DRN makes of the accumulators: the lines it writes, data first and then scale bytes, its counts, the dither state after it,
and whether it takes a poisoned value. -/
structure DrnOut where
  lines : List LinePut
  cnt : DrainCnt
  dither : BitVec 64
  poison : Bool

/-- The output of DRN `f` of an Ox with base `fb`'s flock memory, in format `ft` (R150 to R152). -/
def drnOut (x : Ox) (fb : Nat) (f : OxFlight) (ft : Fmt) : DrnOut :=
  let w := f.word
  let cmp := oxf w 9 1 == 1
  let (qs, s) := (drnRows w).foldl (fun (l, s) (b, r) =>
    let (els, s) := drainRow x b r cmp (oxf w 12 1 == 1) (Num.mul (.fin false 1 0) (f32 f.d)) s
    (l ++ [els], s)) ([], x.dither)
  let outs := if oxf w 13 1 = 1 then (List.range 32).map fun c => qs.filterMap fun els => els[c]? else qs
  let ds := outs.map fun els => (drainElems ft (oxf w 18 1 == 1) (oxf w 11 1 == 1) els, els.map (·.bad))
  let row (acc : List LinePut) (y : Nat × (List Nat × List (Byte × Bool) × DrainCnt) × List Bool) : List LinePut :=
    let bs := drainPack ft y.2.1.1 y.2.2
    gatherBytes fb (oxf w 41 17 * 64 + y.1 * drnPitch w) bs acc (bs.length + 1)
  let ss := (ds.map fun y => y.1.2.1).flatten
  { lines := ((List.zip (List.range ds.length) ds).foldl row []).reverse ++ (gatherBytes fb f.sptr ss [] (ss.length + 1)).reverse,
    cnt := ds.foldl (fun (k : DrainCnt) y => k.add y.1.2.2) {}, dither := s, poison := ds.any fun y => y.2.any id }

/-- Writes lines of a DRN's output. -/
def drnPut (m : Mach) (fb : Nat) (ls : List LinePut) : Mach :=
  m.forEach ls fun m p => m.flockWrite none fb p.line p.data p.mask p.poison

/-- DRN completes: it has written all its lines. With `part`, those of its lines are written before (R163). [log 55 DEDUCED] -/
def oxDrnDoneOp (m : Mach) (a : Nat) (part : Option (List Nat)) : Mach :=
  match portHead (m.ox a) [0xC] 0xC with
  | none => m
  | some f =>
    let w := f.word
    match Fmt.ofSpec (oxf w 14 4) (oxf w 18 1 == 1) with
    | none => m
    | some ft =>
      let m := m.forEach (drnRows w) fun m (b, r) => m.accTouch a b (if oxf w 9 1 == 1 then 2 * r else r)
      let o := drnOut (m.ox a) (flockOf a) f ft
      match part with
      | some ps =>
        let new := (ps.filter fun i => decide (i < o.lines.length) && !f.done.contains i).eraseDups
        let m := m.modOx a fun x =>
          { x with effects := x.effects || !new.isEmpty,
                   flight := x.flight.map fun g => if g.idx == f.idx then { g with done := g.done ++ new } else g }
        m.drnPut (flockOf a) (new.filterMap fun i => o.lines[i]?)
      | none =>
        let m := m.drnPut (flockOf a) ((List.zip (List.range o.lines.length) o.lines).filterMap fun (i, p) => if f.done.contains i then none else some p)
        let m := ((m.countN (oxReg a 0x14) false o.cnt.nan).countN (oxReg a 0x14) true o.cnt.sat).countN (oxReg a 0x18) false o.cnt.lost
        let m := m.modOx a fun x => { x with dither := o.dither, effects := true, itemPoison := x.itemPoison || o.poison }
        m.oxEnded a f.idx

/-! ### The start and the end of an item -/

/-- The start of a work item (R101, R142); where the entropy source has failed, the item waits for its dither state (R563). [log 210 DEDUCED] -/
def oxBegin (m : Mach) (a entry : Nat) : Mach :=
  let fixed := m.bit (oxReg a 0) 2
  let waits := !fixed && m.sec.entropyFail
  let (e, m) := if fixed || waits then ((m.ox a).seed, m) else m.drawEntropy
  m.modOx a fun x =>
    { x with state := .running, dither := if waits then x.dither else if e = 0 then 1 else e, ditherDue := waits,
             w0 := { x.w0 with valid := false, scalesValid := false }, w1 := { x.w1 with valid := false, scalesValid := false },
             scale := [], d0 := 0x3F800000#32, d1 := 0x3F800000#32, sptr0 := 0, sptr1 := 0,
             queue := [], fetched := 0, fetchStop := false, entry := entry, index := 0, flight := [], ret := .none,
             itemPoison := false, effects := false }

/-- END issues (R157): the Ox is idle; whether the item met poison. The Collie takes the item from there. -/
def oxEndOp (m : Mach) (a : Nat) : Option Bool × Mach :=
  let m' := m.oxIssue a 2 fun m x w => m.oxTake a (some (fly x w))
  if (flying (m'.ox a) [2]).isEmpty then (none, m')
  else
    (some (m'.ox a).itemPoison,
      m'.modOx a fun x => { x with state := .idle, queue := [], flight := [], fetchStop := false, fetched := 0, index := 0, itemPoison := false })

/-! ### Ramps, quiesce, disable and diagnosis -/

def oxRampUpDoneOp (m : Mach) (a : Nat) : Mach := if (m.ox a).ramp = .up then (m.modOx a fun x => { x with ramp := .none }).oxBusy a else m
def oxRampDownDoneOp (m : Mach) (a : Nat) : Mach := if (m.ox a).ramp = .down then (m.modOx a fun x => { x with ramp := .none }).oxBusy a else m

/-- The Ox is out of service: REQ writes are refused (R137). -/
def oxOut (x : Ox) : Bool := x.state == .quarantined || x.state == .failed

/-- REQ = 1 (R135). [log 53 DEDUCED] -/
def oxQuiesceOp (m : Mach) (a : Nat) : Mach :=
  let x := m.ox a
  if oxOut x then m.badWrite (oxReg a 0)
  else
    let m := m.setFld (oxReg a 0) 0 2 1
    if x.state == .idle || x.state == .running then m.modOx a fun x => { x with state := .quiescing, ret := if x.ret = .none then .quiesce else x.ret,
                                                                                disableNext := x.disableNext || x.ret == .lasting }
    else m.modOx a fun x => { x with disableNext := x.disableNext || x.diagRunning }

/-- A quiescing Ox whose issued instructions have completed returns its items and enters DISABLED. -/
def oxQuiesceDoneOp (m : Mach) (a : Nat) : Mach :=
  let x := m.ox a
  if x.state == .quiescing && x.flight.isEmpty then
    match x.ret with
    | .force => m
    | .refused c i => m.oxGiveBack a (.refused c i) .disabled
    | _ => m.oxGiveBack a (if x.effects then .raised else .plain) .disabled
  else m

/-- The accumulator rows an instruction touches hold undefined values (R136). [log 52 DESIGN CHOICE, 57 DEDUCED] -/
def accLose (m : Mach) (a : Nat) (w : BitVec 64) : Mach :=
  let na := match oxOpc w with | 8 => oxf w 29 2 | 0xC => oxf w 19 2 | _ => oxf w 36 2
  let (r, n) := oxRows w
  m.forEach (List.range (na + 1)) fun m b => m.forEach (List.range n) fun m i => m.forEach (List.range 32) fun m c =>
    let (v, m) := m.drawFree 32
    m.modOx a fun x => { x with acc := FMap.set 0 x.acc ((1024 * b + r + i) * 32 + c) v }

/-- REQ = 2 (R134, R136): what is issued and not complete is discarded, but for a DRN that writes; the items go back raised. [log 52 DESIGN CHOICE, 53 DEDUCED, 57 DEDUCED] -/
def oxForceOp (m : Mach) (a : Nat) : Mach :=
  let x := m.ox a
  if oxOut x then m.badWrite (oxReg a 0)
  else
    let m := m.setFld (oxReg a 0) 0 2 2
    if x.state == .disabled then m.modOx a fun x => { x with disableNext := x.disableNext || x.diagRunning }
    else
      let m := match (flying x [8]).find? fun f => f.retry with
        | some f => (m.count (oxReg a 0x1C) true).modOx a fun x => { x with fault := faultWord 0 f.pass f.idx true, diagOwed := true }
        | none => m.modOx a fun x => { x with diagOwed := x.diagOwed || x.ret == OxReturn.lasting }
      let keep := oxKept x
      let m := if (flying x [8]).isEmpty then m else m.oxRampDown a
      let m := m.forEach (x.flight.filter fun f => !keep.contains f) fun m f => m.accLose a f.word
      let m := (m.engineReturn a .raised).syncForget (.ox a)
      (m.modOx a fun x => { x with state := .quiescing, ret := .force, queue := [], flight := keep, disableNext := false, itemPoison := false }).dropToken a

/-- A force-disabled Ox enters DISABLED, after the DRN allowed to complete. -/
def oxDisableDoneOp (m : Mach) (a : Nat) : Mach :=
  let x := m.ox a
  if x.state == .quiescing && x.ret = .force && x.flight.isEmpty then m.setOx a { x with state := .disabled, ret := .none } else m

/-- REQ = 0 (R134, R137): a DISABLED Ox returns to IDLE, after the diagnosis it owes. -/
def oxRunOp (m : Mach) (a : Nat) : Mach :=
  let x := m.ox a
  if oxOut x then m.badWrite (oxReg a 0)
  else
    let m := (m.setFld (oxReg a 0) 0 2 0).modOx a fun x => { x with disableNext := false }
    if x.state == .disabled && !x.diagRunning then
      if x.diagOwed then m.oxDiagnose a else m.modOx a fun x => { x with state := .idle }
    else m

/-- DIAG = 1 on a DISABLED Ox starts diagnosis; on any other Ox the bit stays 0 and nothing happens. [log 54 DEDUCED] -/
def oxDiagOp (m : Mach) (a : Nat) : Mach :=
  if (m.ox a).state == .disabled then (m.setFld (oxReg a 0) 3 1 1).oxDiagnose a else m

/-- A write of OX_CTL (Table 4-6), with its mask applied. -/
def oxCtlWrite (m : Mach) (a : Nat) (w : BitVec 32) : Mach :=
  let mask := Bits.field w 16 16
  let m := if Bits.nbit mask 2 then m.setFld (oxReg a 0) 2 1 (Bits.field w 2 1) else m
  let m := if Bits.nbit mask 3 && w.getLsbD 3 then m.oxDiagOp a else m
  if mask % 4 = 0 then m
  else match (w.toNat % 4 &&& mask) ||| (m.fld (oxReg a 0) 0 2 &&& (3 - mask % 4)) with
    | 0 => m.oxRunOp a
    | 1 => m.oxQuiesceOp a
    | 2 => m.oxForceOp a
    | _ => m.badWrite (oxReg a 0)

/-! ### The end of diagnosis (R132, R133) -/

/-- The lines that the two spare rows, or the two spare columns, stand in for. -/
def spareLines (v : BitVec 32) (col : Bool) : List (Option Nat) :=
  (if col then [2, 3] else [0, 1]).map fun i => if 0x80 ≤ repairEntry v i then some (repairEntry v i % 0x40) else none

/-- The lists of at most `n` of the numbers in `l`, for `n` up to 2. -/
def picks (n : Nat) (l : List Nat) : List (List Nat) :=
  [] :: (if 1 ≤ n then l.map fun x => [x] else []) ++ (if 2 ≤ n then (l.map fun x => (l.filter fun y => decide (x < y)).map fun y => [x, y]).flatten else [])

/-- The covers of faulty cells by at most two rows and two columns out of use, those that the map has replaced among them (R132). A spare
out of use counts like any other row or column. [log 195 DESIGN CHOICE] -/
def covers (rows cols : List Nat) (cells : List (Nat × Nat)) : List (List Nat × List Nat) :=
  let more (l : List Nat) (xs : List Nat) : List (List Nat) := (picks (2 - l.length) (xs.eraseDups.filter fun x => !l.contains x)).map (l ++ ·)
  ((more rows (cells.map Prod.fst)).map fun r => (more cols (cells.map Prod.snd)).map fun c => (r, c)).flatten.filter fun x =>
    cells.all fun p => x.1.contains p.1 || x.2.contains p.2

/-- A smallest cover; which one, where there are several, is free. [log 195 DESIGN CHOICE] -/
def coverOf (rows cols : List Nat) (cells : List (Nat × Nat)) : Option (List Nat × List Nat) :=
  let size (x : List Nat × List Nat) : Nat := x.1.length + x.2.length
  let cs := covers rows cols cells
  let best := cs.filter fun x => cs.all fun y => decide (size x ≤ size y)
  match best with
  | [] => none
  | [x] => some x
  | x :: xs => some ((x :: xs).getD (Config.coverChoice cells % (xs.length + 1)) x)

/-- The spares that stand in for the lines out of use `gone`; spare `i` is line `base + i`. A spare in use keeps its line unless it is
out of use itself. [log 195 DESIGN CHOICE] -/
def assignSpares (base : Nat) (old : List (Option Nat)) (gone : List Nat) : List (Option Nat) :=
  let keep := (List.zip [0, 1] old).map fun (i, o) => if gone.contains (base + i) then none else o
  let need := gone.filter fun x => decide (x < base) && !keep.contains (some x)
  ((List.zip [0, 1] keep).foldl (fun ((l, need) : List (Option Nat) × List Nat) (i, o) =>
    match o, need with
    | none, x :: rest => if gone.contains (base + i) then (l ++ [none], need) else (l ++ [some x], rest)
    | o, need => (l ++ [o], need)) ([], need)).1

/-- An array's map as its four entries give it: rows, then columns (R138). -/
def repairWord (rows cols : List (Option Nat)) : BitVec 32 :=
  let entry (col : Bool) (o : Option Nat) : Nat := match o with | some i => 0x80 + 0x40 * Bits.ofBool col + i | none => 0
  BitVec.ofNat 32 (((List.zip [0, 1, 2, 3] ((rows.map (entry false)) ++ cols.map (entry true))).map fun (i, e) => e * 256 ^ i).sum)

/-- An array's repair map after its faulty cells are covered; none where the spares do not suffice. [log 195 DESIGN CHOICE] -/
def repairArray (v : BitVec 32) (cells : List (Nat × Nat)) : Option (BitVec 32) :=
  if cells.isEmpty then some v
  else
    let rows := spareLines v false
    let cols := spareLines v true
    (coverOf (rows.filterMap id) (cols.filterMap id) cells).map fun x => repairWord (assignSpares 32 rows x.1) (assignSpares 33 cols x.2)

/-- The cells found faulty in array `b`. -/
def cellsOf (cells : List OxCell) (b : Nat) : List (Nat × Nat) := (cells.filter fun c => c.array.val == b).map fun c => (c.row.val, c.col.val)

/-- The repair maps after the faulty cells are covered; none where the spares of an array do not suffice. -/
def repairAll (r : FMap (BitVec 32)) (cells : List OxCell) : Option (FMap (BitVec 32)) :=
  [0, 1, 2, 3].foldl (fun (acc : Option (FMap (BitVec 32))) b => acc.bind fun r =>
    (repairArray (FMap.get 0 r b) (cellsOf cells b)).map fun v => FMap.set 0 r b v) (some r)

/-- The cell is in use under a map: its row and its column are not replaced, and are no spare that stands idle. [log 195 DESIGN CHOICE] -/
def cellUsed (r : FMap (BitVec 32)) (c : OxCell) : Bool :=
  let used (base i : Nat) (s : List (Option Nat)) : Bool := if i < base then !s.contains (some i) else (s.getD (i - base) none).isSome
  let v := FMap.get 0 r c.array.val
  used 32 c.row.val (spareLines v false) && used 33 c.col.val (spareLines v true)

/-- The key of an Ox's maps in the retained record. -/
def retainedKey (a b : Nat) : Nat := ((agentDie a - 1) * 26 + agentBlk a) * 16 + 4 * (agentUnit a - 16) + b

/-- Diagnosis ends (R132, R133): spares cover what it found, the repeated test finds no cell in use faulty, and the Ox is IDLE, or
DISABLED where a quiesce or disable came meanwhile (R134); otherwise it is FAILED. Its arrays ramp down as after an MMA. [log 53 DEDUCED] -/
def oxDiagnosisDoneOp (m : Mach) (a : Nat) (faults again : List OxCell) : Mach :=
  let x := m.ox a
  if !x.diagRunning || x.diagHeld || x.ramp = .up then m
  else
    let m := (m.setFld (oxReg a 0) 3 1 0).oxRampDown a
    match (repairAll x.repair faults).filter fun r => !again.any (cellUsed r) with
    | none =>
      oxTel (a := a) <| m.modOx a fun x =>
        { x with state := .failed, diagRunning := false, diagOwed := false, diagFail := true, disableNext := false, ret := .none }
    | some r =>
      let m := m.modOx a fun x =>
        { x with state := if x.disableNext then .disabled else .idle, diagRunning := false, diagOwed := false, diagFail := false, disableNext := false,
                 ret := .none, repair := r, remapped := x.remapped || r ≠ x.repair }
      let m := m.retain fun t => { t with oxRepair := [0, 1, 2, 3].foldl (fun o i => FMap.set 0 o (retainedKey a i) (FMap.get 0 r i)) t.oxRepair }
      m.oxTel a

/-- TOKEN_RETURN (R56): an Ox that has not issued for 256 fclk gives back its token. -/
def oxTokenReturnOp (m : Mach) (a : Nat) : Mach :=
  if m.hasToken a && (flying (m.ox a) [8]).isEmpty then m.dropToken a else m

/-- The flock's domain loses power (R50): the Ox's stores read zero after OFF. -/
def oxPowerOff (m : Mach) (a : Nat) : Mach :=
  m.modOx a fun x => { x with acc := [], accPoison := [], accUpset := [], w0 := {}, w1 := {}, scale := [], queue := [], flight := [] }

/-! ### Registers (Tables 4-7, 4-9, R138) -/

def oxStateCode : OxState → Nat
  | .idle => 0 | .running => 1 | .quiescing => 2 | .disabled => 3 | .quarantined => 4 | .failed => 5

/-- OX_STATUS. -/
def oxStatus (m : Mach) (a : Nat) : Nat :=
  let x := m.ox a
  let live := x.state == .running || x.state == .idle
  let ramping := x.ramp ≠ .none
  oxStateCode x.state + Bits.ofBool ramping * 8 + Bits.ofBool (live && m.inLean) * 16 + Bits.ofBool (live && m.gov.fastEnd.isSome) * 32
    + Bits.ofBool (live && m.oxBarred a) * 64 + Bits.ofBool x.tokenWait * 128
    + Bits.ofBool (live && (x.queue.head?.map oxOpc == some 8) && (flying x [8]).isEmpty && m.rampHeld a) * 256
    + Bits.ofBool (m.hasToken a) * 512 + Bits.ofBool x.remapped * 1024

/-- OX_OUT0 to OX_OUT3: register `i` covers flocks 8i to 8i + 7. -/
def oxOutWord (m : Mach) (d i : Nat) : Nat :=
  ((List.range 32).map fun k =>
    if 8 * i + k / 4 < 26 ∧ oxOut (m.ox (flockBase d (8 * i + k / 4) + 16 + k % 4)) then 2 ^ k else 0).sum

end Mach
end Machine
end Sys2Proof
end

