-- ==== Sys2Proof/Machine/CollieOps.lean ====
section
/-!
DEFINITION. The Collie (chapter 08): the check of an item, pushes, readiness and choice (R252 to R256), delivery and completion (R257 to
R262), stealing (R263 to R273), returns and failure records (R274 to R277), the quiesce of a flock and eviction (R278, R279), and the
patrol scrub of flock memory (R247). Collies are named by the base of their flock's agent IDs.
-/
namespace Sys2Proof
namespace Machine

/-! ### Item fields (Tables 8-1 and 8-2) -/

namespace Item

def hen (w : BitVec 512) : Bool := wordFld w 0 0 1 == 1
def portable (w : BitVec 512) : Bool := wordFld w 0 1 1 == 1
def idem (w : BitVec 512) : Bool := wordFld w 0 2 1 == 1
def pin (w : BitVec 512) : Bool := wordFld w 0 3 1 == 1
def xdie (w : BitVec 512) : Bool := wordFld w 0 4 1 == 1
def waits (w : BitVec 512) : Bool := wordFld w 0 5 1 == 1
def doneValid (w : BitVec 512) : Bool := wordFld w 0 6 1 == 1
def doneObj (w : BitVec 512) : Nat := wordFld w 0 8 15
def waitObj (w : BitVec 512) : Nat := wordFld w 0 23 15
def thresh (w : BitVec 512) : Nat := wordFld w 0 38 24
def doneScope (w : BitVec 512) : Nat := wordFld w 0 62 2
def entry (w : BitVec 512) : Nat := wordFld w 1 0 56
def waitScope (w : BitVec 512) : Nat := wordFld w 1 56 2
def retry (w : BitVec 512) : Nat := wordFld w 1 58 3
def retryMax (w : BitVec 512) : Nat := wordFld w 1 61 3
/-- RETRY raised by one. -/
def raise (w : BitVec 512) : BitVec 512 := w + BitVec.ofNat 512 (2 ^ (64 + 58))
/-- Tile entries 0 to 3. -/
def tiles (w : BitVec 512) : List Nat := [4, 5, 6, 7].map fun i => wordFld w i 0 64

end Item

namespace Tile

def kind (t : Nat) : Nat := t % 4
def isIn (t : Nat) : Bool := Bits.nbit t 2
def isOut (t : Nat) : Bool := Bits.nbit t 3
/-- A flock tile's first line and number of lines. -/
def base (t : Nat) : Nat := Bits.nfield t 6 17
def lines (t : Nat) : Nat := Bits.nfield t 23 17 + 1
/-- A memory tile's address and number of lines. -/
def addr (t : Nat) : Nat := Bits.nfield t 6 50 * 64
def memLines (t : Nat) : Nat := Bits.nfield t 56 8 + 1
def flocks (w : BitVec 512) : List Nat := (Item.tiles w).filter fun t => kind t == 1

/-- Two flock tiles share a line. -/
def meet (s t : Nat) : Bool := decide (base s < base t + lines t ∧ base t < base s + lines s)

/-- Reserved bits of an entry (Table 8-2). -/
def reserved (t : Nat) : Bool :=
  match kind t with
  | 0 => t ≠ 0
  | 1 => Bits.nfield t 4 2 ≠ 0 || Bits.nfield t 40 24 ≠ 0
  | 2 => Bits.nfield t 3 3 ≠ 0
  | _ => true

end Tile

/-- Two items share a line of their flock tiles. -/
def itemsMeet (v w : BitVec 512) : Bool := (Tile.flocks v).any fun s => (Tile.flocks w).any fun t => Tile.meet s t

/-- Bytes that a steal copies in and back (R266). -/
def copyCost (w : BitVec 512) : Nat :=
  ((Tile.flocks w).map fun t => 64 * Tile.lines t * (Bits.ofBool (Tile.isIn t) + Bits.ofBool (Tile.isOut t))).sum

/-- The descriptor of a Collie's copy: `n` lines from one address to another (R267, R268). [log 84 DEDUCED] -/
def copyDesc (src dst n : Nat) : BitVec 512 :=
  BitVec.ofNat 512 (1 + src * 2 ^ 64 + dst * 2 ^ 128 + (64 * n - 1) * 2 ^ 192)

namespace Mach

/-! ### Failures (R276, R277) -/

/-- The record of Table 8-6. -/
def failRecord (w : BitVec 512) (cause engine insn stolenBy : Nat) : BitVec 256 :=
  BitVec.ofNat 256 (w.toNat % 2 ^ 192
    + (cause + engine * 0x100 + insn % 65536 * 2 ^ 21 + Bits.ofBool (stolenBy ≠ 0) * 2 ^ 37 + stolenBy * 2 ^ 38) * 2 ^ 192)

/-- An item has failed (R276). -/
def itemFails (m : Mach) (fb : Nat) (w : BitVec 512) (cause engine insn stolenBy : Nat) : Mach :=
  let r := failRecord w cause engine insn stolenBy
  let m := if 32 ≤ (m.collie fb).fails.length then m.count (flockReg fb 0x2C) false else m
  let m := m.modCollie fb fun c => { c with fails := (if 32 ≤ c.fails.length then c.fails.drop 1 else c.fails) ++ [r] }
  let m := m.count (flockReg fb 0x28) true
  let m := m.telRecord (agentDie fb) 3 (collieOf fb) ((List.range 4).map fun i => BitVec.ofNat 64 (Bits.nfield r.toNat (64 * i) 64))
  if m.bit (flockReg fb 0x18) 15 then m.syncAddId (m.fld (flockReg fb 0x18) 0 15) 1 1 (agentLoc (collieOf fb)) else m

/-! ### Pushes (R252, R253) -/

/-- The checks of R252. -/
def badItem (m : Mach) (w : BitVec 512) : Bool :=
  let obj (o : Nat) : Bool := 1 ≤ o / 4096 && o / 4096 ≤ 4
  let homed (pa : Nat) : Bool := match m.target pa with | .home _ => true | _ => false
  wordFld w 0 7 1 == 1 || (Item.tiles w).any Tile.reserved || decide (Item.retryMax w < Item.retry w)
    || (Item.xdie w && (!Item.hen w || !Item.portable w))
    || (Item.waits w && !obj (Item.waitObj w)) || (Item.doneValid w && !obj (Item.doneObj w))
    || (if Item.hen w then Item.entry w % 4 ≠ 0 || decide (2 ^ 47 ≤ Item.entry w) else Item.entry w % 8 ≠ 0 || decide (flockBytes ≤ Item.entry w))
    || (Tile.flocks w).any (fun t => decide (2 ^ 17 < Tile.base t + Tile.lines t))
    || (Item.tiles w).any fun t => Tile.kind t == 2 && (List.range (Tile.memLines t)).any fun i => !homed (Tile.addr t + 64 * i)

/-- The wait of an item is satisfied (R254, R280). -/
def itemReady (m : Mach) (w : BitVec 512) : Bool :=
  !Item.waits w || syncReached (m.syncObj (Item.waitObj w / 4096 - 1) (Item.waitObj w % 4096)).count (BitVec.ofNat 24 (Item.thresh w))

/-- An item that is not ready waits at the sync unit (R254, R281). -/
def itemWaits (m : Mach) (fb : Nat) (i : PoolItem) : Mach :=
  if m.itemReady i.w then m
  else m.syncWait (Item.waitObj i.w / 4096 - 1) (Item.waitObj i.w % 4096) (BitVec.ofNat 24 (Item.thresh i.w)) (BitVec.ofNat 2 (Item.waitScope i.w))
    (.item (collieOf fb) i.id)

/-- The readiness check of the Collie of flock `fb` as an acquire on behalf of engine `a` (R254, R342); the sync unit records the Collie
(Table 10-9). -/
def itemAcquire (m : Mach) (fb : Nat) (w : BitVec 512) (a : Nat) : Mach :=
  if Item.waits w then
    m.syncAcquire (Item.waitObj w / 4096 - 1) (Item.waitObj w % 4096) (Item.waitScope w) (agentLoc a) (m.herdWide (collieOf fb))
  else m

/-- A push of item `w` to priority queue `q`, or with `ord` to the ordered lane: the result code of R232 and the effect. [log 71 DEDUCED] -/
def colliePush (m : Mach) (fb q : Nat) (ord : Bool) (w : BitVec 512) : Nat × Mach :=
  let c := m.collie fb
  if c.state ≠ .running || !m.flockOn fb || (m.die (agentDie fb - 1)).dead then (2, m)
  else if 1024 ≤ c.pool.length ∨ (ord ∧ 64 ≤ (c.pool.filter fun i => i.queue == 4).length) then (1, m.count (flockReg fb 0x30) false)
  else if m.badItem w then (0, m.itemFails fb w 1 0 0 0)
  else
    let i : PoolItem := { id := c.nextId, w := w, queue := if ord then 4 else q }
    (0, (m.setCollie fb { c with pool := c.pool ++ [i], nextId := c.nextId + 1 }).itemWaits fb i)

/-! ### Engines and the choice of an item (R255, R256, R263, R269) -/

/-- The engine takes items: an Ox IDLE or RUNNING, a Hen RUNNING. -/
def unitUp (m : Mach) (fb u : Nat) : Bool :=
  if u < 16 then (m.hen (fb + u)).state == .running
  else let s := (m.ox (fb + u)).state; s == .idle || s == .running

def unitsOf (hen : Bool) : List Nat := if hen then List.range 16 else [16, 17, 18, 19]

/-- What fills the engine's current place: an item of the pool or a hosted item. -/
def curItem (c : Collie) (u : Nat) : Option PoolItem := c.pool.find? fun i => i.place == .current u
def curHosted (c : Collie) (u : Nat) : Option Hosted := c.hosted.find? fun x => x.unit == u && !x.back
def curEmpty (c : Collie) (u : Nat) : Bool := (curItem c u).isNone && (curHosted c u).isNone
def nextItem (c : Collie) (u : Nat) : Option PoolItem := c.pool.find? fun i => i.place == .next u

/-- The Collie may act: it is RUNNING, its flock is ON, its die runs, and lean state does not hold it (R66). -/
def collieActs (m : Mach) (fb : Nat) : Bool :=
  (m.collie fb).state == .running && m.flockOn fb && (m.die (agentDie fb - 1)).running && !m.inLean

/-- An item of the pool may be given to an engine of its kind: queued, ready, and clear of the hosted items (R254, R269). -/
def givable (m : Mach) (c : Collie) (hen : Bool) (i : PoolItem) : Bool :=
  i.place == .queued && Item.hen i.w == hen && m.itemReady i.w && !(c.hosted.any fun x => itemsMeet x.w i.w)

/-- Chooses an item for an engine kind (R255), with the new ageing count. [log 85 DEDUCED] -/
def collieChoose (m : Mach) (fb : Nat) (hen : Bool) : Option (PoolItem × Nat) :=
  let c := m.collie fb
  let age := if hen then c.ageHen else c.ageOx
  let limit := m.fld (flockReg fb 0xC) 0 6
  let lane := (c.pool.find? fun i => i.queue == 4).filter (m.givable c hen)
  match lane with
  | some i => some (i, age)
  | none =>
    let ready (q : Nat) : Option PoolItem := c.pool.find? fun i => i.queue == q && m.givable c hen i
    let full := [0, 1, 2, 3].filter fun q => (ready q).isSome
    match full.head?, full.getLast? with
    | some hi, some lo =>
      if limit ≠ 0 ∧ limit ≤ age ∧ hi ≠ lo then (ready lo).map fun i => (i, 0)
      else (ready hi).map fun i => (i, if hi = lo then 0 else age + 1)
    | _, _ => none

/-! ### Starting an item (R142, R256 to R259) -/

def setPlace (m : Mach) (fb id : Nat) (p : Place) (a : Nat) : Mach :=
  let last (i : PoolItem) : Nat := match p with | .current _ => a | _ => i.lastEngine
  let n := (m.collie fb).placings
  let one (i : PoolItem) : PoolItem := if i.id == id then { i with place := p, placed := n, lastEngine := last i } else i
  m.modCollie fb fun c => { c with pool := c.pool.map one, placings := n + 1 }

/-- Starts item `w` on unit `u`: an Ox begins its program; a Hen item is delivered (R258, R259). `holder` is the Collie that holds the
item in its pool. -/
def itemStart (m : Mach) (fb u : Nat) (w : BitVec 512) (holder : Nat) (stolen : Bool) : Mach :=
  let a := fb + u
  if u < 16 then
    let line := (flockMemBase fb + m.fld (flockReg fb 0xC) 6 13 * 1024 + 64 * u) / 64
    let m := m.flockWrite none fb line w fullMask false
    let arg3 := holder + Bits.ofBool stolen * 0x2000 + Item.retry w * 0x4000
    let m := m.modHen a fun h => { h with arg0 := BitVec.ofNat 64 (wordFld w 2 0 64), arg1 := BitVec.ofNat 64 (wordFld w 3 0 64),
                                          arg2 := BitVec.ofNat 64 (flockMemBase fb), arg3 := BitVec.ofNat 64 arg3, ipCollie := true }
    (m.modCollie fb fun c => { c with slots := FMap.set 0 c.slots u 1 }).henWfi a
  else m.oxBegin a (Item.entry w)

/-- Prefetch of a Hen item's memory tiles with IN set, under the Collie prefetch mask (R182, R184, R257). -/
def colliePrefetch (m : Mach) (a : Nat) (w : BitVec 512) : Mach :=
  if (m.hen a).mask 2 = 0 || !(m.hen a).dcEn then m
  else m.forEach ((Item.tiles w).filter fun t => Tile.kind t == 2 && Tile.isIn t) fun m t =>
    m.forEach (List.range (Tile.memLines t)) fun m i => match m.target (Tile.addr t + 64 * i) with
      | .home sa => if ((m.hen a).find (sa / 64)).isSome then m.henVictim a (sa / 64) 2 else m.henPost { kind := .rds, agent := a, line := sa / 64, src := 2, prefetch := true }
      | _ => m

/-- An engine whose current place has emptied takes the item of its next place. -/
def collieAdvance (m : Mach) (fb u : Nat) : Mach :=
  let c := m.collie fb
  match nextItem c u with
  | some i => if curEmpty c u && m.unitUp fb u && m.collieActs fb then (m.setPlace fb i.id (.current u) (fb + u)).itemStart fb u i.w (collieOf fb) false else m
  | none => m

/-- COLLIE_DISPATCH: an empty current place before an empty next place, the lowest unit among equals (R256). [log 85 DEDUCED] -/
def collieDispatchOp (m : Mach) (fb : Nat) (hen : Bool) : Mach :=
  if !m.collieActs fb then m else
  let c := m.collie fb
  let us := (unitsOf hen).filter (m.unitUp fb)
  match us.find? fun u => curEmpty c u && (nextItem c u).isSome with
  | some u => m.collieAdvance fb u
  | none => match m.collieChoose fb hen with
    | none => m
    | some (i, age) =>
      let place := match us.find? fun u => curEmpty c u with
        | some u => some (u, true)
        | none => (us.find? fun u => (nextItem c u).isNone).map fun u => (u, false)
      match place with
      | none => m
      | some (u, now) =>
        let m := m.modCollie fb fun c => if hen then { c with ageHen := age } else { c with ageOx := age }
        let m := (m.itemAcquire fb i.w (fb + u)).syncForget (.item (collieOf fb) i.id)
        if now then (m.setPlace fb i.id (.current u) (fb + u)).itemStart fb u i.w (collieOf fb) false
        else
          let m := m.setPlace fb i.id (.next u) (fb + u)
          if hen then m.colliePrefetch (fb + u) i.w else m

/-! ### Completion (R262, R268) -/

/-- The completion release at `scope` from the flock of Collie `fb`. -/
def itemRelease (m : Mach) (fb : Nat) (w : BitVec 512) (scope : Nat) : Mach :=
  if Item.doneValid w then m.syncAddId (Item.doneObj w) 1 scope (agentLoc (collieOf fb)) else m

/-- Removes an item from a pool. -/
def poolDrop (m : Mach) (fb id : Nat) : Mach :=
  (m.modCollie fb fun c => { c with pool := c.pool.filter fun i => i.id ≠ id }).syncForget (.item (collieOf fb) id)

/-- Pushes the Collie's copies of the tiles `ts` from one flock to another on queue 3 of flock Mule 1. [log 84 DEDUCED] -/
def collieCopies (m : Mach) (fb src dst tag : Nat) (ts : List Nat) : Mach :=
  m.forEach ts fun m t =>
    m.muleAppend (fb + 21) 3 (copyDesc (flockMemBase src + 64 * Tile.base t) (flockMemBase dst + 64 * Tile.base t) (Tile.lines t)) (some tag)

def modHosted (m : Mach) (fb tag : Nat) (f : Hosted → Hosted) : Mach :=
  let one (x : Hosted) : Hosted := if hostedTag x == tag then f x else x
  m.modCollie fb fun c => { c with hosted := c.hosted.map one }

/-- The running item of a unit has completed (R262): a native item is released and leaves the pool; a stolen one is copied back. -/
def collieComplete (m : Mach) (fb u : Nat) : Mach :=
  let c := m.collie fb
  let m := m.modCollie fb fun c => { c with slots := FMap.set 0 c.slots u 0 }
  match curItem c u, curHosted c u with
  | some i, _ => ((m.itemRelease fb i.w (Item.doneScope i.w)).poolDrop fb i.id).collieAdvance fb u
  | none, some x =>
    let outs := (Tile.flocks x.w).filter Tile.isOut
    let m := m.modHosted fb (hostedTag x) fun x => { x with back := true, copies := outs.length }
    m.collieCopies fb fb x.victim (hostedTag x) outs
  | none, none => m

/-- The running item of a unit has ended without completing, and the engine stays in service. -/
def collieEnds (m : Mach) (fb u : Nat) (ev : RetEvent) : Mach := (m.engineGive (fb + u) ev false).collieAdvance fb u

/-- END of an Ox program (R157, R258): the item completes, or fails where it met poison. -/
def oxItemEnd (m : Mach) (a : Nat) : Mach :=
  match m.oxEndOp a with
  | (none, m) => m
  | (some true, m) => m.collieEnds (flockOf a) (agentUnit a) .poison
  | (some false, m) => m.collieComplete (flockOf a) (agentUnit a)

/-- The copy-back has landed (R268): the release at die scope at least (module scope across dies), and the item leaves its pool. [log 84 DEDUCED] -/
def collieBackDone (m : Mach) (fb u : Nat) : Mach :=
  match (m.collie fb).hosted.find? fun x => x.unit == u && x.back && x.copies == 0 with
  | none => m
  | some x =>
    let m := m.modCollie fb fun c => { c with hosted := c.hosted.filter fun y => hostedTag y ≠ hostedTag x }
    let r : ItemRet := { id := x.id, ev := .copyError, engine := x.last, stolenBy := collieOf fb }
    if m.originLost x.victim then m.modCollie fb fun c => { c with returns := c.returns ++ [{ r with ev := .originLost, w := some x.w }] }
    else if x.copyErr then
      let one (i : PoolItem) : PoolItem := if i.id == x.id then { i with place := .ended } else i
      m.modCollie x.victim fun c => { c with returns := c.returns ++ [r], pool := c.pool.map one }
    else
      let wide := if agentDie fb = agentDie x.victim then 1 else 2
      (m.itemRelease fb x.w (max (Item.doneScope x.w) wide)).poolDrop x.victim x.id

/-! ### COL_HEN (R260) -/

def badReport (m : Mach) (fb : Nat) : Mach := m.count (flockReg fb 0x2C) true
def slotOf (m : Mach) (fb h : Nat) : BitVec 2 := FMap.get 0 (m.collie fb).slots h

def takeOp (m : Mach) (fb h : Nat) : Mach :=
  if m.slotOf fb h = 1 then
    (m.modCollie fb fun c => { c with slots := FMap.set 0 c.slots h 2 }).modHen (fb + h) fun x => { x with ipCollie := false }
  else m.badReport fb

def doneOp (m : Mach) (fb h : Nat) : Mach := if m.slotOf fb h = 2 then m.collieComplete fb h else m.badReport fb

def failOp (m : Mach) (fb h : Nat) (fcause : BitVec 8) : Mach :=
  let m := m.setFld (flockReg fb (0x40 + 4 * h)) 8 8 fcause.toNat
  if m.slotOf fb h = 2 ∧ 0x80 ≤ fcause.toNat then m.collieEnds fb h (.failed fcause.toNat) else m.badReport fb

/-- A write of COL_HEN_h (Table 8-17). -/
def colHenWrite (m : Mach) (fb h : Nat) (w : BitVec 32) : Mach :=
  let m := m.setFld (flockReg fb (0x40 + 4 * h)) 8 8 (Bits.field w 8 8)
  match Bits.field w 0 2 with
  | 1 => m.takeOp fb h
  | 2 => m.doneOp fb h
  | 3 => m.failOp fb h (BitVec.ofNat 8 (Bits.field w 8 8))
  | _ => m

/-! ### Returns (R274, R275) -/

/-- Puts an item back at the head of its queue or lane. -/
def requeue (m : Mach) (fb : Nat) (i : PoolItem) (w : BitVec 512) : Mach :=
  let i := { i with w := w, place := .queued, thief := 0 }
  (m.modCollie fb fun c => { c with pool := i :: c.pool.filter fun j => j.id ≠ i.id }).itemWaits fb i

/-- ITEM_RETURN: the Collie decides on the oldest returned or ended item under Table 8-5. -/
def itemReturnOp (m : Mach) (fb : Nat) : Mach :=
  match (m.collie fb).returns with
  | [] => m
  | r :: rest =>
    let m := m.modCollie fb fun c => { c with returns := rest }
    match r.w, (m.collie fb).pool.find? fun i => i.id == r.id with
    | some w, _ => m.itemFails fb w 6 r.engine 0 r.stolenBy
    | none, none => m
    | none, some i =>
      let fail (m : Mach) (cause insn : Nat) : Mach := (m.poolDrop fb i.id).itemFails fb i.w cause r.engine insn r.stolenBy
      match r.ev with
      | .plain => m.requeue fb i i.w
      | .raised =>
        if !Item.idem i.w then fail m 2 0
        else if Item.retry i.w < Item.retryMax i.w then (m.requeue fb i (Item.raise i.w)).count (flockReg fb 0x28) false
        else fail m 3 0
      | .refused c insn => fail m (0x20 + c) insn
      | .poison => fail m 4 0
      | .failed c => fail m c 0
      | .copyError => (fail m 5 0).count (flockReg fb 0x30) true
      | .originLost => fail m 6 0

/-! ### Stealing (R263 to R273) -/

/-- The engine's kind needs an item and it is idle for stealing (R263). -/
def stealIdle (m : Mach) (fb u : Nat) : Bool :=
  let c := m.collie fb
  let hen := decide (u < 16)
  m.unitUp fb u && curEmpty c u && (nextItem c u).isNone && (m.collieChoose fb hen).isNone
    && (hen || (!(m.ox (fb + u)).tokenWait && !m.oxBarred (fb + u) && !m.rampHeld (fb + u)))

/-- The sibling item that an idle engine takes: the one placed earliest (R264). -/
def sibItem (c : Collie) (u : Nat) : Option PoolItem :=
  let mine (i : PoolItem) : Bool := match i.place with
    | .next v => v ≠ u && decide (v < 16) == decide (u < 16) && !Item.pin i.w && i.queue ≠ 4
    | _ => false
  (c.pool.filter mine).foldl (fun b i => match b with
    | none => some i
    | some j => if i.placed < j.placed then some i else some j) none

/-- [log 85 DEDUCED] -/
def stealSibOp (m : Mach) (fb u : Nat) : Mach :=
  if !m.collieActs fb || !m.stealIdle fb u then m
  else match sibItem (m.collie fb) u with
    | none => m
    | some i => ((m.setPlace fb i.id (.current u) (fb + u)).count (flockReg fb 0x20) false).itemStart fb u i.w (collieOf fb) false

/-- Flocks in the order of R265 from physical flock `f`: f + d, then f − d, modulo 26, for d from 1 to 13. -/
def ringOrder (f : Nat) : List Nat :=
  (((List.range 13).map fun d => [(f + d + 1) % 26, (f + 26 - (d + 1)) % 26]).flatten).eraseDups

/-- The targets of a round: PROBES + 1 enabled flocks of the die, or of each neighbouring die. -/
def roundTargets (m : Mach) (fb : Nat) (xdie : Bool) : List Nat :=
  let n := m.fld (flockReg fb 8) 2 3 + 1
  let d := agentDie fb - 1
  let f := agentBlk fb
  let on (e : Nat) (l : List Nat) : List Nat := ((l.map fun g => flockBase e g).filter fun b => m.flockEnabled b && !(m.dieOut e)).take n
  if xdie then on ((d + 1) % 4) (f :: ringOrder f) ++ on ((d + 3) % 4) (f :: ringOrder f) else on d (ringOrder f)

def roundOf (c : Collie) (hen : Bool) : Option Round := if hen then c.roundHen else c.roundOx
def setRound (c : Collie) (hen : Bool) (r : Option Round) : Collie := if hen then { c with roundHen := r } else { c with roundOx := r }
/-- [log 83 DEDUCED] -/
def missOf (c : Collie) (hen : Bool) : Bool := if hen then c.missHen else c.missOx
def setMiss (c : Collie) (hen : Bool) (b : Bool) : Collie := if hen then { c with missHen := b } else { c with missOx := b }

/-- PROBE_ROUND: a round begins, inside the die or, after one without a steal, on the neighbouring dies (R265, R272). [log 83 DEDUCED] -/
def probeRoundOp (m : Mach) (fb : Nat) (hen : Bool) : Mach :=
  let c := m.collie fb
  let idle := (unitsOf hen).find? (m.stealIdle fb)
  if !m.collieActs fb || !m.bit (flockReg fb 8) 0 || (roundOf c hen).isSome || 8 ≤ c.hosted.length then m
  else match idle with
    | none => m
    | some u =>
      if (sibItem c u).isSome then m
      else
        let x := hen && missOf c hen && m.bit (flockReg fb 8) 1
        m.setCollie fb (setMiss (setRound c hen (some { targets := m.roundTargets fb x, probes := 0, xdie := x })) hen false)

/-- The item a victim gives to a thief of the given kind, if any (R266, R272, R273). -/
def stealable (m : Mach) (thief victim : Nat) (hen x : Bool) : Option PoolItem :=
  let v := m.collie victim
  let t := m.collie thief
  let lo := m.fld (flockReg thief 0x10) 0 11
  let hi := m.fld (flockReg thief 0x10) 16 11
  let own := v.pool.filter fun i => match i.place with | .queued | .next _ => true | _ => false
  let held : List (BitVec 512) := t.pool.map (·.w) ++ t.hosted.map (·.w)
  let ok (i : PoolItem) : Bool :=
    i.place == .queued && i.queue ≠ 4 && Item.hen i.w == hen && m.itemReady i.w && Item.portable i.w && !Item.pin i.w
      && (!x || (Item.hen i.w && Item.xdie i.w))
      && (!Item.waits i.w || decide ((if x then 2 else 1) ≤ Item.waitScope i.w))
      && decide (copyCost i.w ≤ m.fld (flockReg thief 8) 8 8 * 4096)
      && ((Tile.flocks i.w).all fun s => decide (lo * 64 ≤ Tile.base s ∧ Tile.base s + Tile.lines s ≤ (hi + 1) * 64))
      && !(held.any fun y => itemsMeet y i.w)
  if !m.collieActs victim || !m.bit (flockReg victim 8) 0 || !m.bit (flockReg thief 8) 0 || (x && !m.bit (flockReg victim 8) 1) then none
  else if own.length ≤ m.fld (flockReg victim 8) 5 3 then none
  else ([0, 1, 2, 3].filterMap fun q => v.pool.find? fun i => i.queue == q && ok i).head?

/-- PROBE: the next flock of the round gives an item, which ends the round, or answers no item, which counts PROBE_MISS. A flock that
hosts eight stolen items does not probe (R266). [log 83 DEDUCED] -/
def probeOp (m : Mach) (fb : Nat) (hen : Bool) : Mach :=
  let c := m.collie fb
  match roundOf c hen with
  | none => m
  | some r => match r.targets, (unitsOf hen).find? (m.stealIdle fb) with
    | [], _ => m.setCollie fb (setMiss (setRound c hen none) hen (!r.xdie))
    | _, none => m.setCollie fb (setRound c hen none)
    | v :: rest, some u =>
      if !m.collieActs fb then m
      else if 8 ≤ c.hosted.length then m.setCollie fb (setRound c hen none)
      else match m.stealable fb v hen r.xdie with
        | none =>
          let m := m.count (flockReg fb 0x24) true
          let c := m.collie fb
          if rest.isEmpty then m.setCollie fb (setMiss (setRound c hen none) hen (!r.xdie))
          else m.setCollie fb (setRound c hen (some { r with targets := rest, probes := r.probes + 1 }))
        | some i =>
          let m := m.setCollie fb (setRound c hen none)
          let one (j : PoolItem) : PoolItem := if j.id == i.id then { j with place := .away fb, thief := collieOf fb } else j
          let m := m.modCollie v fun c => { c with pool := c.pool.map one }
          let m := (m.itemAcquire v i.w (fb + u)).syncForget (.item (collieOf v) i.id)
          let ins := (Tile.flocks i.w).filter Tile.isIn
          let x : Hosted := { victim := v, id := i.id, w := i.w, unit := u, copies := ins.length, last := i.lastEngine }
          let m := m.modCollie fb fun c => { c with hosted := c.hosted ++ [x] }
          let m := if r.xdie then m.count (flockReg fb 0x24) false else m.count (flockReg fb 0x20) true
          m.collieCopies fb v fb (hostedTag x) ins

/-- STEAL_COPY_DONE: the last copy-in has completed and the item starts on the thief's engine; a copy error sends it back (R267, R273,
R274). [log 84 DEDUCED] -/
def stealCopyDoneOp (m : Mach) (fb u : Nat) : Mach :=
  match (m.collie fb).hosted.find? fun x => x.unit == u && !x.started && !x.back && x.copies == 0 with
  | none => m
  | some x =>
    if x.copyErr then
      let m := m.modCollie fb fun c => { c with hosted := c.hosted.filter fun y => hostedTag y ≠ hostedTag x }
      let r : ItemRet := { id := x.id, ev := .copyError, engine := x.last, stolenBy := collieOf fb }
      if m.originLost x.victim then m.modCollie fb fun c => { c with returns := c.returns ++ [{ r with ev := .originLost, w := some x.w }] }
      else
        let one (i : PoolItem) : PoolItem := if i.id == x.id then { i with place := .ended } else i
        m.modCollie x.victim fun c => { c with returns := c.returns ++ [r], pool := c.pool.map one }
    else if !m.collieActs fb || !m.unitUp fb u then m
    else
      let one (i : PoolItem) : PoolItem := if i.id == x.id then { i with lastEngine := fb + u } else i
      let m := m.modCollie x.victim fun c => { c with pool := c.pool.map one }
      (m.modHosted fb (hostedTag x) fun x => { x with started := true, last := fb + u }).itemStart fb u x.w (collieOf x.victim) true

/-! ### The quiesce of a flock and eviction (R278, R279) -/

/-- Hosted items that have not started go back to their Collies with event `ev`. -/
def hostedBack (m : Mach) (fb : Nat) (ev : RetEvent) : Mach :=
  let xs := (m.collie fb).hosted.filter fun x => !x.started
  let m := m.modCollie fb fun c => { c with hosted := c.hosted.filter fun x => x.started }
  m.forEach xs fun m x =>
    let r : ItemRet := { id := x.id, ev := ev, engine := x.last, stolenBy := collieOf fb }
    if m.originLost x.victim then m.modCollie fb fun c => { c with returns := c.returns ++ [{ r with ev := .originLost, w := some x.w }] }
    else
      let one (i : PoolItem) : PoolItem := if i.id == x.id then { i with place := .ended } else i
      m.modCollie x.victim fun c => { c with returns := c.returns ++ [r], pool := c.pool.map one }

def henInService (m : Mach) (a : Nat) : Bool := let s := (m.hen a).state; s == .running || s == .quiescing

/-- Stops the flock: the Collie stops delivering and stealing, the hosted items go back, and every engine in service is quiesced, or
disabled by force. -/
def collieStop (m : Mach) (fb : Nat) (force : Bool) : Mach :=
  let m := m.setFld (flockReg fb 0) 0 2 (if force then 2 else 1)
  let m := m.modCollie fb fun c =>
    { c with state := if c.state == .quiesced then .quiesced else .quiescing, roundOx := none, roundHen := none }
  let m := m.hostedBack fb (if force then .raised else .plain)
  let m := m.forEach [16, 17, 18, 19] fun m u => if oxOut (m.ox (fb + u)) then m else if force then m.oxForceOp (fb + u) else m.oxQuiesceOp (fb + u)
  m.forEach (List.range 16) fun m u =>
    if !m.henInService (fb + u) then m else if force then m.henForceOp (fb + u) else m.henQuiesceOp (fb + u)

def collieQuiesceOp (m : Mach) (fb : Nat) : Mach := m.collieStop fb false
def collieForceOp (m : Mach) (fb : Nat) : Mach := m.collieStop fb true

/-- A Collie of the die is released: QUIESCE_DIE and FLUSH_DIE no longer stand (Table 17-6). -/
def svcReleased (m : Mach) (d : Nat) : Mach :=
  m.modBoot fun b =>
    let x := FMap.get {} b.svcDies d
    { b with svcDies := FMap.set {} b.svcDies d { x with quiesced := false, flushed := false } }

/-- REQ = 0: every DISABLED engine returns to service and the Collie resumes. -/
def collieRunOp (m : Mach) (fb : Nat) : Mach :=
  let m := m.setFld (flockReg fb 0) 0 2 0
  let m := (m.modCollie fb fun c => { c with state := .running }).svcReleased (agentDie fb - 1)
  let m := m.forEach [16, 17, 18, 19] fun m u => if (m.ox (fb + u)).state == .disabled then m.oxRunOp (fb + u) else m
  m.forEach (List.range 16) fun m u => if (m.hen (fb + u)).state == .disabled then m.henRunOp (fb + u) else m

/-- The Collie has nothing left in motion. [log 82 DEDUCED] -/
def collieQuiet (m : Mach) (fb : Nat) : Bool :=
  let c := m.collie fb
  let away (i : PoolItem) : Bool := match i.place with | .away _ | .current _ => true | _ => false
  ([16, 17, 18, 19].all fun u => let x := m.ox (fb + u); x.state == .disabled || oxOut x)
    && ((List.range 16).all fun u => !m.henInService (fb + u)) && c.hosted.isEmpty && !(c.pool.any away) && c.returns.isEmpty
    && !((m.mule (fb + 21)).descs.any fun d => d.collie.isSome)

def collieQuiesceDoneOp (m : Mach) (fb : Nat) : Mach :=
  if (m.collie fb).state == .quiescing && m.collieQuiet fb then m.modCollie fb fun c => { c with state := .quiesced } else m

/-- EVICT: one pass over the native items in queue order (R279). -/
def collieEvictOp (m : Mach) (fb : Nat) : Mach :=
  let tgt := m.fld (flockReg fb 0x14) 0 13
  let c := m.collie fb
  if c.state ≠ .quiesced || !isCollie tgt || !m.flockEnabled (flockOf tgt) then m.badWrite (flockReg fb 0)
  else
    let items := ([0, 1, 2, 3, 4].map fun q => c.pool.filter fun i => i.queue == q && i.place == .queued).flatten
    m.forEach items fun m i =>
      let (code, m) := m.colliePush (flockOf tgt) (if i.queue = 4 then 0 else i.queue) (i.queue == 4) i.w
      if code = 0 then m.poolDrop fb i.id else m

/-- A write of COL_CTL (Table 8-11), with its mask applied. -/
def colCtlWrite (m : Mach) (fb : Nat) (w : BitVec 32) : Mach :=
  let mask := Bits.field w 16 16
  let m := if Bits.nbit mask 2 && w.getLsbD 2 then m.collieEvictOp fb else m
  if mask % 4 = 0 then m
  else match (w.toNat % 4 &&& mask) ||| (m.fld (flockReg fb 0) 0 2 &&& (3 - mask % 4)) with
    | 0 => m.collieRunOp fb
    | 1 => m.collieQuiesceOp fb
    | 2 => m.collieForceOp fb
    | _ => m.badWrite (flockReg fb 0)

/-- COL_STATUS (Table 8-12). -/
def colStatus (m : Mach) (fb : Nat) : Nat :=
  let c := m.collie fb
  let away (i : PoolItem) : Bool := match i.place with | .away _ => true | _ => false
  (match c.state with | .running => 0 | .quiescing => 1 | .quiesced => 2 | .evicting => 3) + c.pool.length * 4 + c.hosted.length * 0x2000
    + min 1023 (c.pool.filter away).length * 0x20000 + Bits.ofBool (!c.fails.isEmpty) * 0x8000000

/-- Pops the oldest failure record, zeros where there is none (R277). -/
def failPop (m : Mach) (fb : Nat) : BitVec 256 × Mach :=
  ((m.collie fb).fails.headD 0, m.modCollie fb fun c => { c with fails := c.fails.drop 1 })

/-- FLOCK_SCRUB_READ (R245, R247). [log 86 DEDUCED] -/
def flockScrubOp (m : Mach) (fb : Nat) : Mach :=
  if !m.flockOn fb then m
  else
    let l := (m.collie fb).scrub
    (m.fmRead fb (flockMemBase fb / 64 + l.toNat)).2.modCollie fb fun c => { c with scrub := c.scrub + 1 }

/-- WAIT_POLL: the polled waits of a sync unit are evaluated again (R281). [log 87 DEDUCED] -/
def waitPollOp (m : Mach) (d : Nat) : Mach := m.syncSettle d 0 true

end Mach
end Machine
end Sys2Proof
end

