-- ==== Sys2Proof/Machine/HbmOps.lean ====
section
/-!
DEFINITION. The HBM controllers (chapter 12): what a read that finds an error does (R388 to R390), held writes (R382), interface errors
and retraining (R394 to R397), refresh and temperature (R385, R386), patrol scrub (R392), self-refresh (R398), and the register words.
Controllers are named 0 to 11 by their stack.
-/
namespace Sys2Proof
namespace Machine
namespace Mach

/-- The HBM storage line behind a physical address: the line itself, or the frame line of a valid deep-window sub-block. -/
def hbmLineOf (m : Mach) (pa : Nat) : Option Nat :=
  match m.target pa with
  | .home sa => m.backing (sa / 64)
  | _ => none

/-- The stack is in service: brought up, and neither in self-refresh nor on its way into it (R398). -/
def stackRuns (m : Mach) (k : Nat) : Bool := !(m.hbmc k).selfRefresh && !(m.hbmc k).entering && !m.dieOut (k / 3)

/-- The stack serves requests: it is in service, and the retrains on leaving self-refresh have ended (R398). -/
def stackServes (m : Mach) (k : Nat) : Bool := m.stackRuns k && !(m.hbmc k).leaving

/-! ### The error log (Table 12-11) -/

/-- Logs an event at a storage line: KIND 0 CE_LASTING, 1 UE, 2 IF_LASTING. [log 108 DEDUCED] -/
def hbmLog (m : Mach) (line kind sector cls : Nat) (scrub : Bool) : Mach :=
  let k := hbmCtl line
  let a := 64 * uninterleave (64 * line) + (if (m.hbmc k).mode then 32 * sector else 0)
  let b := hbmPc line + (Config.hbmBankRow line).toNat * 0x20 + kind * 0x20000000 + Bits.ofBool scrub * 0x80000000 + cls * 0x100000000
  let full := decide (16 ≤ (m.hbmc k).log.length)
  let m := if full then m.count (hbmSet k 0x30) true else m
  m.modHbmc k fun h => { h with log := (if full then h.log.drop 1 else h.log) ++ [BitVec.ofNat 128 (a + b * 2 ^ 64)] }

/-- HBM_STATUS (Table 12-7). -/
def hbmStatus (m : Mach) (k : Nat) : Nat :=
  let h := m.hbmc k
  Bits.ofBool h.mode + Bits.ofBool h.selfRefresh * 2 + Bits.ofBool h.refresh2x * 4 + Bits.ofBool h.throttled * 8 + Bits.ofBool h.scrubBehind * 16
    + Bits.ofBool (h.pcs.any fun p => p.2.training) * 32 + h.retrainPc.toNat * 64 + Bits.ofBool m.save.active.isSome * 2048 + h.log.length * 4096

/-- HBM_DEGRADED. -/
def hbmDegraded (m : Mach) (k : Nat) : Nat := ((List.range 32).map fun p => if (m.pcOf k p).degraded then 2 ^ p else 0).sum

/-- The record of type 0x05 (Table 18-5). -/
def hbmTel (m : Mach) (k : Nat) : Mach :=
  m.telRecord (k / 3 + 1) 5 (agentId (k / 3 + 1) 28 (k % 3)) [BitVec.ofNat 64 (m.hbmStatus k), BitVec.ofNat 64 (m.hbmDegraded k)]

/-! ### Reads and writes (R382, R388 to R390) -/

/-- An uncorrectable read: the whole line holds the poison pattern; UE counts and the event is logged (R389). -/
def hbmUncorrectable (m : Mach) (line sector cls : Nat) (scrub : Bool) : Mach :=
  let k := hbmCtl line
  let m := m.markPoison line true
  (m.count (hbmSet k 0x24) true).hbmLog line 1 sector cls scrub

/-- The row of a line's cell is logged for repair at the next start (R388). -/
def hbmRepair (m : Mach) (line : Nat) : Mach :=
  let x := (hbmCtl line, hbmPc line, (Config.hbmBankRow line).toNat % 64, (Config.hbmBankRow line).toNat / 64)
  m.retain fun r => { r with pending := if r.pending.contains x then r.pending else r.pending ++ [x] }

/-- What a read of one sector, or of a line in line mode, does by the outcomes of its tries (R388). A poisoned location is neither corrected
nor logged (R389). Each try and the write-back is an access. [log 106 DEDUCED] -/
def hbmCheck (m : Mach) (line sector cls : Nat) (scrub : Bool) (t : ReadTry) : Mach :=
  let k := hbmCtl line
  let p := hbmPc line
  let tries (m : Mach) (n : Nat) : Mach := (m.hbmCount k cls n).pcTook k p cls n
  if m.linePoison line || t.first == .clean then m
  else match t.second, t.third with
    | .clean, _ => (tries m 1).count (hbmSet k 0x20) false
    | .ce, .clean => ((tries m 2).hbmCount k 4 1).count (hbmSet k 0x20) true
    | .ce, _ => ((((tries m 2).hbmCount k 4 1).count (hbmSet k 0x24) false).hbmLog line 0 sector cls scrub).hbmRepair line
    | .ue, _ => (tries m 1).hbmUncorrectable line sector cls scrub

/-- A read of a line of the stack, or of one sector of it, with the outcome of each sector in sector mode (R388): its data and poison. A
location that holds the poison pattern counts POISON_READ (R389). [log 106 DEDUCED] -/
def hbmSend (m : Mach) (line cls : Nat) (sector : Option Nat) (scrub : Bool) (t u : ReadTry) : (BitVec 512 × Bool) × Mach :=
  let (_, m) := m.hbmRead line cls sector.isSome
  let m := match (m.hbmc (hbmCtl line)).mode, sector with
    | true, some i => m.hbmCheck line i cls scrub t
    | true, none => (m.hbmCheck line 0 cls scrub t).hbmCheck line 1 cls scrub u
    | false, i => m.hbmCheck line (i.getD 0) cls scrub t
  (m.hbmPeek line, m)

/-- The read that the pseudo-channel sends next: the oldest of the class whose turn it is (R383, R384); none while it retrains (R396). [log 105 DEDUCED] -/
def pcRead (m : Mach) (k p : Nat) : Option PcRead :=
  if !m.stackServes k || (m.pcOf k p).training then none
  else match m.pcClass k p none with
    | some c => (m.pcOf k p).reads.find? fun r => r.cls == c
    | none => none

/-- A read of class LC has taken longer than 250 ns (R383). [log 105 DEDUCED] -/
def lcLate (m : Mach) (r : PcRead) : Bool := r.cls == 0 && decide (125 < m.now - r.since)

/-- HBM_READ_RETURN: the read that its pseudo-channel has sent returns to the home, bytes in the write queue from there (R382, R388,
R389). Where no read of the line waits, the row is the merge read of a held sector write (R390). [log 106 DEDUCED] -/
def hbmReadReturnOp (m : Mach) (pa cls : Nat) (t u : ReadTry) : Mach :=
  match m.hbmLineOf pa with
  | none => m
  | some l =>
    let k := hbmCtl l
    let p := hbmPc l
    let x := m.pcOf k p
    match m.pcRead k p with
    | some r =>
      if r.store ≠ l ∨ r.cls ≠ cls then m
      else
        let m := m.setPc k p { x with reads := x.reads.erase r }
        let m := if m.lcLate r then m.count (hbmSet k 0x30) false else m
        let ((d, b), m) := if m.hbmHeld l then (m.hbmPeek l, m) else m.hbmSend l cls r.sector false t u
        m.homeFilled r.line d b r.sector.isSome
    | none =>
      let merges (w : HeldWrite) : Bool := w.line == l && w.part
      if !m.stackServes k || x.training || (m.hbmc k).mode || !(x.writes.any merges) || m.linePoison l then m
      else
        let m := m.hbmCheck l (pa / 32 % 2) cls false t
        if !m.linePoison l then m
        else m.setPc k p { m.pcOf k p with writes := (m.pcOf k p).writes.map fun w => if merges w then { w with poison := true } else w }

/-- HBM_WRITE_GROUP: no read waits, and held writes go to the stack until 8 remain; none while the pseudo-channel retrains. [log 104 DEDUCED] -/
def hbmWriteGroupOp (m : Mach) (k p : Nat) : Mach :=
  let x := m.pcOf k p
  if m.stackServes k && !x.training && decide (8 < x.writes.length) && (x.reads.isEmpty || decide (24 ≤ x.writes.length)) then m.hbmDrain k p 8 else m

/-! ### Retraining (R394 to R397) -/

/-- A retrain is in progress on the stack. -/
def retraining (m : Mach) (k : Nat) : Bool := (m.hbmc k).pcs.any fun p => p.2.training

/-- A pseudo-channel becomes due (R395); those due under R394 go first, in the order they became due. [log 107 DEDUCED] -/
def pcDue (m : Mach) (k p : Nat) (first : Bool) : Mach :=
  let x := m.pcOf k p
  let m := m.setPc k p { x with due := true, forced := x.forced || first, dueSince := if x.due then x.dueSince else m.now }
  m.modHbmc k fun h =>
    let rest := h.dueList.filter fun q => q ≠ p
    let urgent (q : Nat) : Bool := (m.pcOf k q).forced
    { h with dueList := if first && !x.forced then rest.filter urgent ++ [p] ++ rest.filter (fun q => !urgent q)
                        else if h.dueList.contains p then h.dueList else h.dueList ++ [p] }

/-- A pseudo-channel starts its retrain. -/
def pcStart (m : Mach) (k p : Nat) : Mach :=
  let m := m.setPc k p { m.pcOf k p with due := false, forced := false, training := true, failedOnce := false }
  m.modHbmc k fun h => { h with dueList := h.dueList.filter (fun q => q ≠ p), retrainPc := BitVec.ofNat 5 p }

/-- The pseudo-channel is the next to retrain: first among those due, and none of the stack retrains. -/
def pcNext (m : Mach) (k p : Nat) : Bool := m.stackRuns k && !m.retraining k && (m.hbmc k).dueList.head? == some p

/-- RETRAIN_START: outside the module's slot and with short queues, but for one due under R394 (R396). -/
def retrainStartOp (m : Mach) (k p : Nat) : Mach :=
  let x := m.pcOf k p
  let slot := m.angle / 0x1000 == m.beat.slot.toNat
  if m.pcNext k p && (x.forced || (!slot && decide (x.writes.length + x.reads.length ≤ m.fld (hbmSet k 0x10) 13 3))) then m.pcStart k p else m

/-- RETRAIN_FORCED: 20 ms after it became due (R396). -/
def retrainForcedOp (m : Mach) (k p : Nat) : Mach :=
  if m.pcNext k p && decide ((m.pcOf k p).dueSince + 10000000 ≤ m.now) then (m.pcStart k p).count (hbmSet k 0x2C) false else m

/-- RETRAIN_PERIOD: PERIOD, in units of 100 ms, after its last training (R395). -/
def retrainPeriodOp (m : Mach) (k p : Nat) : Mach :=
  let x := m.pcOf k p
  if m.stackRuns k && !x.training && decide (x.lastTrained + m.fld (hbmSet k 0x10) 0 8 * 50000000 ≤ m.now) then m.pcDue k p false else m

/-- RETRAIN_ALL. -/
def retrainAllOp (m : Mach) (k : Nat) : Mach := m.forEach (List.range 32) fun m p => m.pcDue k p false

/-- The requests that a retrain under R394 interrupted are performed again: an error then ends a read under R389, and a write is stored
with the poison pattern. [log 107 DEDUCED] -/
def pcAgain (m : Mach) (k p : Nat) : Mach :=
  let xs := (m.pcOf k p).after.filter fun y => !y.ok
  let m := m.setPc k p { m.pcOf k p with after := [] }
  m.forEach xs fun m y =>
    if !y.isWrite then m.hbmUncorrectable y.line y.sector y.cls (y.cls == 3)
    else
      let x := m.pcOf k p
      if x.writes.any fun w => w.line == y.line then
        m.setPc k p { x with writes := x.writes.map fun w => if w.line == y.line then { w with poison := true } else w }
      else m.markPoison y.line true

/-- The stack enters self-refresh: held writes have gone to it (R398). -/
def selfRefreshNow (m : Mach) (k : Nat) : Mach :=
  (m.forEach (List.range 32) fun m p => m.hbmDrain k p 0).modHbmc k fun h => { h with selfRefresh := true, entering := false }

/-- The end of a retrain: waiting requests go on, self-refresh that waited for it begins, and the last retrain on leaving it lets the stack
serve again (R396, R398). -/
def pcRetrained (m : Mach) (k p : Nat) : Mach :=
  let m := ((m.modHbmc k fun h => { h with dueList := h.dueList.filter fun q => q ≠ p }).pcAgain k p).hbmGroup k p
  if m.retraining k then m
  else if (m.hbmc k).entering then m.selfRefreshNow k
  else m.modHbmc k fun h => { h with leaving := false }

/-- A retrain that ended well: temperature and time of the training. [log 107 DEDUCED] -/
def pcTrained (m : Mach) (k p : Nat) : Mach :=
  (m.setPc k p { m.pcOf k p with training := false, failedOnce := false, due := false, forced := false, lastTemp := (m.hbmc k).temp, lastTrained := m.now }).pcRetrained k p

/-- RETRAIN_DONE (R397): a failed retrain runs again once; a second failure degrades the pseudo-channel. -/
def retrainDoneOp (m : Mach) (k p : Nat) (ok : Bool) : Mach :=
  let x := m.pcOf k p
  if !x.training then m
  else if ok then m.pcTrained k p
  else if !x.failedOnce then m.setPc k p { x with failedOnce := true }
  else
    let m := m.setPc k p { x with training := false, failedOnce := false, degraded := true, lastTrained := m.now }
    let m := m.retain fun r => { r with degraded := FMap.set 0 r.degraded k (BitVec.ofNat 32 (m.hbmDegraded k)) }
    ((m.count (hbmSet k 0x2C) true).hbmTel k).pcRetrained k p

/-- The class of the command at a storage line that meets a parity error: that of the held write or of the waiting read; else patrol
scrub's where it is the line that scrub reads next, else the tier's. [log 107 DEDUCED] -/
def parityClass (m : Mach) (line : Nat) (isWrite : Bool) : Nat :=
  let x := m.pcOf (hbmCtl line) (hbmPc line)
  if isWrite then ((x.writes.find? fun w => w.line == line).map fun w => w.cls).getD 2
  else match x.reads.find? fun r => r.store == line with
    | some r => r.cls
    | none => if hbmQ line = (m.hbmc (hbmCtl line)).scrubPos.toNat then 3 else 2

/-- HBM_PARITY_ERROR (R394): the command is repeated once; a lasting error retrains the pseudo-channel at once, and the request runs
again at the retrain's end. [log 107 DEDUCED] -/
def hbmParityOp (m : Mach) (pa : Nat) (isWrite okRepeat okAfter : Bool) : Mach :=
  match m.hbmLineOf pa with
  | none => m
  | some l =>
    let k := hbmCtl l
    let p := hbmPc l
    if !m.stackServes k || (m.pcOf k p).training then m
    else if okRepeat then m.count (hbmSet k 0x28) false
    else
      let cls := m.parityClass l isWrite
      let m := (m.count (hbmSet k 0x28) true).hbmLog l 2 (pa / 32 % 2) cls (cls == 3)
      let x := m.pcOf k p
      let m := m.setPc k p { x with after := x.after ++ [{ line := l, isWrite := isWrite, cls := cls, sector := pa / 32 % 2, ok := okAfter }] }
      let m := m.pcDue k p true
      if m.pcNext k p then m.pcStart k p else m

/-! ### Refresh, temperature and scrub (R385, R386, R392) -/

/-- HBM_REFRESH. -/
def hbmRefreshOp (m : Mach) (k p : Nat) : Mach :=
  if m.stackRuns k then m.setPc k p { m.pcOf k p with refreshes := (m.pcOf k p).refreshes + 1 } else m

/-- A pseudo-channel's temperature has drifted from its last training (R395). -/
def pcDrift (m : Mach) (k p : Nat) : Bool :=
  let x := m.pcOf k p
  let t := (m.hbmc k).temp
  decide (m.fld (hbmSet k 0x10) 8 5 ≤ (max t x.lastTemp) - (min t x.lastTemp))

/-- Lines per pseudo-channel (Table 12-1). -/
def pcLines : Nat := 17578125

/-- Time out of self-refresh that the scrub schedule has seen, and whether the pass lags it by more than 1 % of a pass: one line of each
pseudo-channel every 2 ms (R392, R393). [log 105 DEDUCED] -/
def scrubClock (m : Mach) (k : Nat) : Mach :=
  let h := m.hbmc k
  let time := if m.stackRuns k then h.scrubTime + (m.now - h.scrubMark) else h.scrubTime
  let due := time / 1000000
  let late := decide (h.scrubDone + pcLines / 100 < due)
  let behind := late || (h.scrubBehind && decide (h.scrubDone < due))
  let m := m.setHbmc k { h with scrubTime := time, scrubMark := m.now, scrubBehind := behind }
  if late && !h.scrubBehind then m.count (hbmSet k 0x34) false else m

/-- HBM_TEMP_READ. -/
def hbmTempOp (m : Mach) (k temp : Nat) : Mach :=
  let h := m.hbmc k
  let hot := decide (100 < temp) && !h.throttled
  let m := m.setHbmc k { h with
    temp := temp
    tempMax := max h.tempMax temp
    refresh2x := if 85 < temp then true else if temp < 82 then false else h.refresh2x
    throttled := if 100 < temp then true else if temp < 95 then false else h.throttled }
  let m := (if hot then (m.count (hbmSet k 0x34) true).hbmTel k else m).scrubClock k
  if m.stackRuns k then m.forEach (List.range 32) fun m p => if m.pcDrift k p && !(m.pcOf k p).training then m.pcDue k p false else m else m

/-- HBM_SCRUB_READ: line POS of one pseudo-channel, once it is scrub's turn there; POS moves on once every pseudo-channel of the stack has
read it (R384, R392). -/
def hbmScrubOp (m : Mach) (k p : Nat) (t u : ReadTry) : Mach :=
  let h := m.hbmc k
  if !m.stackServes k || (m.pcOf k p).training || h.scrubMask.getLsbD p || m.pcClass k p (some 3) ≠ some 3 then m
  else
    let q := h.scrubPos.toNat
    let l := stackBase k / 64 + 32 * q + p
    let m := if m.hbmHeld l then m else (m.hbmSend l 3 none true t u).2
    let mask := h.scrubMask ||| (1#32 <<< p)
    let m := if mask ≠ BitVec.allOnes 32 then m.modHbmc k fun h => { h with scrubMask := mask }
      else m.modHbmc k fun h =>
        let h := { h with scrubMask := 0, scrubDone := h.scrubDone + 1 }
        if q + 1 < pcLines then { h with scrubPos := h.scrubPos + 1 } else { h with scrubPos := 0, scrubPasses := h.scrubPasses + 1 }
    m.scrubClock k

/-- CNT_CLR: the activity counters are cleared and every shadow latch of the block is freed (R399, R584). -/
def cntClrOp (m : Mach) (k : Nat) : Mach :=
  { m.modHbmc k fun h => { h with counters := [] } with latches := FMap.set [] m.latches ((k / 3 + 1) * 256 + 0x23) [] }

/-! ### Self-refresh (R398) -/

/-- The stacks of A-die A`d` enter self-refresh: a retrain in progress completes first (R398). -/
def selfRefreshIn (m : Mach) (d : Nat) : Mach :=
  m.forEach [0, 1, 2] fun m i =>
    let k := 3 * d + i
    let m := m.scrubClock k
    if m.retraining k then m.modHbmc k fun h => { h with entering := true } else m.selfRefreshNow k

/-- They leave it: every pseudo-channel whose temperature has drifted is retrained at once, all in parallel (R398). -/
def selfRefreshOut (m : Mach) (d : Nat) : Mach :=
  m.forEach [0, 1, 2] fun m i =>
    let k := 3 * d + i
    let m := m.modHbmc k fun h => { h with scrubMark := m.now, selfRefresh := false, entering := false }
    let ps := (List.range 32).filter fun p => m.pcDrift k p
    (m.modHbmc k fun h => { h with leaving := !ps.isEmpty || h.pcs.any fun p => p.2.training }).forEach ps fun m p => m.pcStart k p

/-- Pops the oldest record of the error log, zeros where there is none. -/
def hbmLogPop (m : Mach) (k : Nat) : BitVec 128 × Mach := ((m.hbmc k).log.headD 0, m.modHbmc k fun h => { h with log := h.log.drop 1 })

end Mach
end Machine
end Sys2Proof
end

