-- ==== Sys2Proof/Machine/TierOps.lean ====
section
/-!
DEFINITION. The deep tier (chapter 13): victims and promotions (R406 to R408), the reads of flash units with their retry ladder (R419 to
R421), evictions and write-backs (R414 to R416), the write budget (R417, R418), held accesses (R409, R410), flush, upkeep and the dirty
map (R422 to R428), and the register words.
-/
namespace Sys2Proof
namespace Machine
namespace Mach

/-- Pages of the deep window. -/
def tierPages : Nat := 11403264

/-- The tier may start promotions, evictions and clean-ahead: mounted, not in lean state, and no A-die under compute reset (R412, R429). -/
def tierMoves (m : Mach) : Bool :=
  m.tierUp && !m.inLean && !([0, 1, 2, 3].any fun d => (m.die d).computeReset)

def readOnly (m : Mach) : Bool := m.tier.state == .readOnly

/-! ### Frames and victims (R401, R406) -/

/-- Frames that hold pages: numbers 48 to TIER_SIZE × 8,192 − 1. -/
def frameCount (m : Mach) : Nat := m.tier.size * 8192
def usedFrames (m : Mach) : List Nat := m.tier.pages.filterMap fun p => p.2.frame
def freeFrames (m : Mach) : Nat := m.frameCount - 48 - m.usedFrames.length

/-- The lowest frame number from `f` on that is not in use. -/
def lowestFree (used : List Nat) (f : Nat) : Nat → Nat
  | 0 => f
  | n + 1 => if used.contains f then lowestFree used (f + 1) n else f

/-- A free frame, if there is one. -/
def freeFrame (m : Mach) : Option Nat := if m.freeFrames = 0 then none else some (lowestFree m.usedFrames 48 m.usedFrames.length)

/-- `x` is a better victim than `y`: less heat, or equal heat and a last access further back. [log 111 DEDUCED] -/
def colder (x y : Nat × TierPage) : Bool := decide (x.2.heat < y.2.heat) || (x.2.heat == y.2.heat && decide (x.2.last < y.2.last))

/-- The victim of R406; in READ_ONLY never a page with dirty sub-blocks (R423). [log 111 DEDUCED] -/
def victim (m : Mach) : Option (Nat × TierPage) :=
  let ok (p : Nat × TierPage) : Bool := p.2.frame.isSome && !p.2.promoting && !p.2.evicting && !(m.readOnly && p.2.dirty ≠ 0)
  (m.tier.pages.filter ok).foldl (fun b p => match b with
    | none => some p
    | some q => if colder p q then some p else some q) none

/-- The heat test of R407 for a page of heat `h`. [log 112 DEDUCED] -/
def heatTest (m : Mach) (h : Nat) : Bool :=
  m.freeFrames ≠ 0 || match m.victim with
    | some v => decide (v.2.heat + m.fld (tierReg 8) 8 4 ≤ h)
    | none => false

/-! ### The failed-page log (Table 13-7) -/

/-- Logs an event at a flash unit of the deep window. -/
def tierLog (m : Mach) (page unit kind units chan : Nat) : Mach :=
  let r := BitVec.ofNat 128 (deepBase + page * 0x200000 + unit * 0x4000 + (kind + (units - 1) * 4 + chan * 0x400) * 2 ^ 64)
  let full := decide (32 ≤ m.tier.log.length)
  let m := if full then m.count (tierReg 0x34) true else m
  m.modTier fun t => { t with log := (if full then t.log.drop 1 else t.log) ++ [r] }

/-! ### Held accesses (R409 to R411, R421, R423) -/

/-- An access that waited for the tier goes on at its home. -/
def heldGo (m : Mach) (h : Held) : Mach :=
  match h.req with
  | none => m
  | some r => m.homeEnter r

/-- Releases the held accesses that the tier no longer holds, oldest first. -/
def tierRelease (m : Mach) : Mach :=
  let go := m.tier.held.filter fun h => !m.deepHeld h.line h.write
  let m := m.modTier fun t => { t with held := t.held.filter fun h => !go.contains h }
  m.forEach go heldGo

/-- A held access ends with poison: a Hen's load takes POISON, a store is lost, another requester gets poisoned data, now or, where the
requester itself comes back to the home, then. [log 208 DEDUCED] -/
def poisonEnd (m : Mach) (h : Held) : Mach :=
  match h.req with
  | none => m.modTier fun t => { t with flashStall := t.flashStall ++ [h.line] }
  | some r =>
    if isHen r.agent then
      let waits := match (m.hen r.agent).wait with
        | .load _ addr _ _ _ _ _ _ | .amo _ addr _ | .sc _ addr _ _ => m.lineOf addr == r.line
        | _ => false
      if waits && !r.writes then
        match (m.hen r.agent).wait with
        | .load _ addr _ _ _ _ _ _ | .amo _ addr _ => (m.modHen r.agent fun x => { x with wait := .none }).henRaise r.agent 7 addr
        | _ => m
      else match (m.hen r.agent).sb.find? fun e => e.line == r.line && e.begun with
        | some e => m.sbLost r.agent e
        | none => m
    else m.modCoh fun c => { c with dats := c.dats ++ [{ agent := r.agent, line := r.line, st := none, data := 0, poison := true, src := r.src }] }

/-! ### Write-backs (R414 to R418, R421) -/

/-- Takes bytes from the account (R417, R418). [log 110 DEDUCED] -/
def charge (m : Mach) (bytes : Nat) : Mach :=
  let t := m.tier
  let need := bytes * 86400
  let m := m.modTier fun t => { t with account := t.account - need, written := t.written + bytes, overrun := t.overrun + (need - t.account) / 86400 }
  if 0 < need ∧ t.account ≤ need ∧ (0 < t.account ∨ !t.budgetSpent) then (m.modTier fun t => { t with budgetSpent := true }).count (tierReg 0x30) true else m

/-- The lines of sub-block `s` of page `p`. -/
def subLines (p s : Nat) : List Nat := (List.range 1024).map fun i => (deepBase + p * 0x200000 + s * 0x10000) / 64 + i

/-- Begins the write-back of a sub-block: the home slices write its dirty lines to the frame, its data is taken as it stands, its dirty
bit clears, and each of its units is recorded as poisoned while a line of it is. -/
def wbStart (m : Mach) (p s : Nat) : Mach :=
  let m := m.forEach (subLines p s) sliceClean
  let (bad, m) := (List.zip (List.range 1024) (subLines p s)).foldl (fun (acc : List Nat × Mach) (i, l) =>
    match acc.2.backing l with
    | none => acc
    | some b =>
      let ((d, q), m) := acc.2.hbmRead b 2 false
      let off := p * 0x200000 + s * 0x10000 + 64 * i
      let put (f : FMap (Option Byte)) (j : Nat) : FMap (Option Byte) :=
        let v := BitVec.ofNat 8 (lineField d j 1)
        FMap.set none f (off + j) (if v = 0 then none else some v)
      let m := m.modTier fun t => { t with inFlight := (List.range 64).foldl put t.inFlight }
      (if q then (s * 4 + i / 256) :: acc.1 else acc.1, m)) ([], m)
  m.modPage p fun pg =>
    let lost := (List.range 4).foldl (fun (b : BitVec 128) j =>
      let u := s * 4 + j
      if bad.contains u then b ||| (1#128 <<< u) else b &&& ~~~(1#128 <<< u)) pg.lost
    { pg with dirty := pg.dirty &&& ~~~(1#32 <<< s), writing := pg.writing ++ [s], lost := lost, failed := pg.failed && lost ≠ 0 }

/-- Dirty sub-blocks of a page whose write-back is not in flight. -/
def dirtySubs (pg : TierPage) : List Nat := (List.range 32).filter fun s => pg.dirty.getLsbD s && !pg.writing.contains s

/-- A line lies in page `p` of the deep window. -/
def inPage (p line : Nat) : Bool := isDeep (64 * line) && deepPage (64 * line) == p

/-- A page that is being evicted and has nothing left to recall or to write gives up its frame (R414). -/
def frameFree (m : Mach) (p : Nat) : Mach :=
  let pg := m.pageOf p
  if pg.evicting && pg.recalled && pg.writing.isEmpty && pg.dirty = 0 then
    let m := m.setPage p { pg with frame := none, valid := 0, evicting := false, recalled := false, wanted := none, order := [] }
    let m := (m.modCoh fun c => { c with fills := c.fills.filter fun f => !inPage p f.1 }).readsDrop (inPage p)
    m.modTier fun t => { t with evictions := t.evictions + 1 }
  else m

/-- The lines of a page that its homes or any cache may hold, or have a transaction for. -/
def pageHeld (m : Mach) (p : Nat) : List Nat :=
  (((m.coh.dir.map Prod.fst) ++ (m.coh.lines.map Prod.fst) ++ (m.coh.txns.map fun t => t.req.line)).filter (inPage p)).eraseDups

/-- Starts the write-back of a sub-block for an eviction, but for READ_ONLY, which starts none (R423). [log 111 DEDUCED] -/
def evictSubs (m : Mach) (p : Nat) (subs : List Nat) : Mach := if m.readOnly then m else m.forEach subs fun m s => m.wbStart p s

/-- The eviction of a page goes on (R414): every cached copy is recalled and the homes give up its lines, then each dirty sub-block goes
to flash. It waits for a line that cannot be recalled yet. [log 111 DEDUCED] -/
def evictMore (m : Mach) (p : Nat) : Mach :=
  let ls := m.pageHeld p
  if (m.pageOf p).recalled then m
  else if ls.any fun l => !m.recallFree l true then
    m.forEach ls fun m l =>
      if (m.entry l).bad || ((m.entry l).state == .em && (m.entry l).host) then m.homeRecall l else m
  else
    let m := m.forEach ls fun m l => (m.homeNow { kind := .atm, agent := 0x1FFF, line := l }).2
    let m := m.evictSubs p (dirtySubs (m.pageOf p))
    let m := m.forEach ls fun m l => (m.sliceClean l).sliceDrop l
    (m.modPage p fun pg => { pg with recalled := true }).frameFree p

/-- The eviction of a page begins: the page becomes EVICTING (R414); `w` is the wanted page that it makes room for. -/
def evict (m : Mach) (p : Nat) (w : Option Nat) : Mach :=
  (m.modPage p fun pg => { pg with evicting := true, recalled := false, wanted := w }).evictMore p

/-! ### Promotions (R407, R408) -/

def promoting (m : Mach) : Nat := (m.tier.pages.filter fun p => p.2.promoting).length

/-- The sub-blocks of a page in the order a promotion reads them: from `s` upward, wrapping. -/
def promoOrder (s : Nat) : List Nat := (List.range 32).map fun i => (s + i) % 32

/-- A promotion takes frame `f` for page `p` and begins with sub-block `s`. -/
def promote (m : Mach) (p f s : Nat) : Mach :=
  let m := m.modPage p fun pg =>
    { pg with frame := some f, promoting := true, evicting := false, valid := 0, dirty := 0, arrived := 0, rungs := [], order := promoOrder s }
  m.modTier fun t => { t with promotions := t.promotions + 1, flashStall := t.flashStall.filter fun l => !inPage p l }

/-- The sub-block that the oldest held access of a page needs. -/
def wantedSub (m : Mach) (p : Nat) : Nat :=
  match m.tier.held.find? fun h => deepPage (64 * h.line) == p with
  | some h => deepSub (64 * h.line)
  | none => 0

/-- A demand miss that finds neither a free frame nor a clean victim in READ_ONLY ends at once with poison (R423). -/
def stallFlash (m : Mach) (p : Nat) : Mach :=
  let hs := m.tier.held.filter fun h => deepPage (64 * h.line) == p
  let m := m.modTier fun t => { t with held := t.held.filter (fun h => !hs.contains h), demand := t.demand.filter fun q => q ≠ p }
  let m := m.countN (tierReg 0x24) false hs.length
  let m := m.forEach (hs.take 1) fun m h => m.tierLog p (deepUnit (64 * h.line)) 2 1 0
  m.forEach hs poisonEnd

/-- Starts the promotion of a wanted page: with a free frame, or after a victim has freed one. One victim is evicted for it (R408). [log 111 DEDUCED] -/
def promoteOrEvict (m : Mach) (p s : Nat) (wanted : Mach → Mach) : Mach :=
  let m :=
    if m.freeFrame.isSome then m
    else match m.tier.pages.find? fun q => q.2.evicting && q.2.wanted == some p with
      | some q => m.evictMore q.1
      | none => match m.victim with
        | none => m
        | some v => m.evict v.1 (some p)
  match m.freeFrame with
  | some f => (wanted m).promote p f s
  | none => m

/-- A resident page whose sub-blocks were lost with an A-die is read again into its frame (R429). -/
def rereadPage (m : Mach) (p : Nat) : Mach :=
  m.modPage p fun pg => { pg with promoting := true, arrived := 0, rungs := [], order := promoOrder (m.wantedSub p) }

/-- PROMOTION_START: demand misses first, then heat promotions and hints, each oldest first. [log 111 DEDUCED, 112 DEDUCED] -/
def promotionStartOp (m : Mach) : Mach :=
  if !m.tierMoves || decide (256 ≤ m.promoting) then m
  else match m.tier.demand with
    | p :: rest =>
      let off (m : Mach) : Mach := m.modTier fun t => { t with demand := t.demand.drop 1 }
      if (m.pageOf p).evicting then (m.modTier fun t => { t with demand := rest ++ [p] }).evictMore p
      else if (m.pageOf p).frame.isSome then
        if !(m.pageOf p).promoting && !(m.pageOf p).order.isEmpty then (off m).rereadPage p else off m
      else if m.readOnly && m.freeFrame.isNone && m.victim.isNone then m.stallFlash p
      else m.promoteOrEvict p (m.wantedSub p) off
    | [] => match m.tier.hints with
      | [] => m
      | (p, hint) :: _ =>
        let off (m : Mach) : Mach := m.modTier fun t => { t with hints := t.hints.drop 1 }
        let pg := m.pageOf p
        if pg.frame.isSome then off m
        else if !m.heatTest (if hint then max pg.heat (m.fld (tierReg 8) 12 8) else pg.heat) then (off m).count (tierReg 0x24) true
        else m.promoteOrEvict p 0 off

/-- PROMOTE_HINT (R407): the hint is queued, or dropped where it fails the heat test. [log 112 DEDUCED] -/
def promoteHintOp (m : Mach) (p : Nat) : Mach :=
  if !m.tierUp || decide (tierPages ≤ p) || (m.pageOf p).frame.isSome then m
  else if m.heatTest (max (m.pageOf p).heat (m.fld (tierReg 8) 12 8)) then m.tierAsk p true
  else m.count (tierReg 0x24) true

/-- The unit's sub-block is next in the promotion's order: every earlier one waits only for units on the retry ladder. -/
def unitNext (pg : TierPage) (unit : Nat) : Bool :=
  let ahead := pg.order.takeWhile fun s => s ≠ unit / 4
  pg.order.contains (unit / 4) && ahead.all fun s => (List.range 4).all fun j => pg.arrived.getLsbD (4 * s + j) || FMap.get 0 pg.rungs (4 * s + j) ≠ 0

/-- Writes a unit into the frame: its data from flash, or the poison pattern in every line. -/
def unitArrives (m : Mach) (p unit : Nat) (poison : Bool) : Mach :=
  let lines := (List.range 256).map fun i => unit * 256 + i
  let m := match (m.pageOf p).frame with
    | none => m
    | some f => m.forEach lines fun m i =>
        m.hbmWrite (m.frameLine f i) (Memory.line m.tier.flash (p * 32768 + i)) fullMask poison 2
  let m := m.modPage p fun pg => { pg with arrived := pg.arrived ||| (1#128 <<< unit), rungs := FMap.set 0 pg.rungs unit 0 }
  let s := unit / 4
  let pg := m.pageOf p
  if (List.range 4).all fun j => pg.arrived.getLsbD (4 * s + j) then
    let order := pg.order.filter fun x => x ≠ s
    (m.setPage p { pg with valid := pg.valid ||| (1#32 <<< s), order := order, promoting := !order.isEmpty }).tierRelease
  else m

/-- The block of a unit that a rung of the ladder has rescued is queued for refresh (R419). -/
def refreshLater (m : Mach) (p unit : Nat) : Mach :=
  let k := 128 * p + unit
  m.modTier fun t => { t with refreshDue := if t.refreshDue.contains k then t.refreshDue else t.refreshDue ++ [k] }

/-- FLASH_READ_DONE (R419 to R421): the unit decodes, climbs a rung of the ladder, or is uncorrectable. -/
def flashReadOp (m : Mach) (p unit : Nat) (ok : Bool) (chan : Nat) : Mach :=
  let pg := m.pageOf p
  if m.inLean || !pg.promoting || pg.arrived.getLsbD unit || !unitNext pg unit then m
  else if pg.lost.getLsbD unit then m.unitArrives p unit true
  else
    let r := FMap.get 0 pg.rungs unit
    if ok then
      let m := match r with
        | 0 => m
        | 1 => m.count (tierReg 0x28) false
        | 2 => m.count (tierReg 0x28) true
        | _ => m.count (tierReg 0x2C) false
      (if r = 0 then m else m.refreshLater p unit).unitArrives p unit false
    else if r < 3 then m.setPage p { pg with rungs := FMap.set 0 pg.rungs unit (r + 1) }
    else
      let m := (m.count (tierReg 0x2C) true).tierLog p unit 0 1 chan
      (m.modPage p fun pg => { pg with lost := pg.lost ||| (1#128 <<< unit), failed := true }).unitArrives p unit true

/-! ### What ends a write-back, clean-ahead, eviction, flush (R414 to R416, R426) -/

/-- Starts the write-back of every dirty sub-block for a flush in progress. -/
def flushMore (m : Mach) : Mach :=
  if !m.tier.flushing || m.inLean || m.readOnly then m
  else m.forEach m.tier.pages fun m p =>
    if p.2.evicting then m else m.forEach (dirtySubs (m.pageOf p.1)) fun m s => m.wbStart p.1 s

/-- FLASH_WRITE_DONE: the flash holds the sub-block's data as the write-back took it, and the account is charged. -/
def flashWriteOp (m : Mach) (p s : Nat) : Mach :=
  let pg := m.pageOf p
  if m.inLean || !pg.writing.contains s then m
  else
    let lo := p * 0x200000 + s * 0x10000
    let mine (a : Nat) : Bool := decide (lo ≤ a ∧ a < lo + 0x10000)
    let put (f : FMap Byte) (x : Nat × Option Byte) : FMap Byte := FMap.set 0 f x.1 (x.2.getD 0)
    let now := m.tier.inFlight.filter fun x => mine x.1
    let m := m.modTier fun t => { t with flash := now.foldl put (t.flash.filter fun x => !mine x.1), inFlight := t.inFlight.filter fun x => !mine x.1 }
    let m := (m.modPage p fun pg => { pg with writing := pg.writing.filter fun x => x ≠ s }).charge 0x10000
    -- a sub-block of a page being evicted that a write made dirty again is written again (R415)
    let pg := m.pageOf p
    let m := if pg.evicting && pg.recalled && pg.dirty.getLsbD s then m.evictSubs p [s] else m
    (m.frameFree p).flushMore

/-- FREE_TARGET frames are free, or are being freed (R406). [log 111 DEDUCED] -/
def freeKept (m : Mach) : Bool :=
  decide (8 * m.fld (tierReg 0xC) 16 8 ≤ m.freeFrames + (m.tier.pages.filter fun p => p.2.evicting && p.2.wanted.isNone).length)

/-- EVICTION_START: an eviction that waits for its recalls goes on; else the tier keeps FREE_TARGET frames free (R406). -/
def evictionStartOp (m : Mach) : Mach :=
  if !m.tierMoves then m
  else match m.tier.pages.find? fun p => p.2.evicting && !p.2.recalled with
    | some p => m.evictMore p.1
    | none =>
      if m.freeKept then m
      else match m.victim with
        | some v => m.evict v.1 none
        | none => m

/-- CLEAN_AHEAD: a dirty sub-block of the coldest page below CLEAN_THRESH, while the flash has nothing better to do (R416). -/
def cleanAheadOp (m : Mach) (p s : Nat) : Mach :=
  let pg := m.pageOf p
  let cold (x : TierPage) : Bool := x.frame.isSome && !x.evicting && !(dirtySubs x).isEmpty && decide (x.heat < m.fld (tierReg 8) 20 8)
  let idle := m.promoting = 0 && m.tier.demand.isEmpty && m.tier.hints.isEmpty && m.save.active.isNone && m.freeKept
    && m.tier.pages.all fun x => x.2.writing.isEmpty && !x.2.evicting
  if m.tierMoves && !m.readOnly && m.bit (tierReg 0) 6 && !m.tier.budgetSpent && idle && cold pg && (dirtySubs pg).contains s
      && m.tier.pages.all (fun x => !cold x.2 || decide (pg.heat ≤ x.2.heat)) then m.wbStart p s
  else m

/-- TIER_FLUSH. -/
def tierFlushOp (m : Mach) : Mach := if m.tierUp then (m.modTier fun t => { t with flushing := true }).flushMore else m

/-- TIER_FLUSH_DONE: no sub-block is dirty or being written. -/
def tierFlushDoneOp (m : Mach) : Mach :=
  if m.tier.flushing && !m.inLean && m.tier.pages.all (fun p => p.2.dirty = 0 && p.2.writing.isEmpty) then
    m.modTier fun t => { t with flushing := false, unclean := false }
  else m

/-! ### Epochs, budget, upkeep (R405, R410, R417, R422, R423) -/

/-- HEAT_EPOCH: EPOCH_BEATS beats after the last one, every heat counter is halved. A beat number that has gone back begins an epoch
anew. [log 111 DEDUCED] -/
def heatEpochOp (m : Mach) : Mach :=
  let n := m.beat.number.toNat
  let len := m.fld (tierReg 0xC) 0 16
  let gone := (n + 2 ^ 24 - m.tier.epochBeat) % 2 ^ 24
  if 2 ^ 23 ≤ gone then m.modTier fun t => { t with epochBeat := n }
  else if gone < len then m
  else m.modTier fun t =>
    { t with epochBeat := (t.epochBeat + len) % 2 ^ 24,
             pages := t.pages.foldl (fun acc p => FMap.set {} acc p.1 { p.2 with heat := p.2.heat / 2 }) [] }

/-- BUDGET_TICK: one second's gain, up to one day's budget, while the module is powered; clean-ahead resumes with an hour's budget. [log 110 DEDUCED] -/
def budgetTickOp (m : Mach) : Mach :=
  let b := m.fld (tierReg 0x10) 0 16 * 1000000000
  if !m.boot.powered then m
  else m.modTier fun t =>
    let acc := min (t.account + b) (b * 86400)
    { t with account := acc, budgetSpent := t.budgetSpent && decide (acc < b * 3600) }

/-- STALL_LATE: a held access has waited 2 ms (R410). -/
def stallLateOp (m : Mach) (k : Nat) : Mach :=
  match m.tier.held[k]? with
  | some h =>
    if h.late || decide (m.now < h.since + 1000000) then m
    else (m.modTier fun t => { t with held := t.held.set k { h with late := true } }).count (tierReg 0x20) true
  | none => m

/-- The tier has rewritten a block for its own upkeep: INTERNAL_WRITTEN gains the block's bytes, which the spec does not give (R418). [log 113 DESIGN CHOICE] -/
def rewriteBlock (m : Mach) : Mach :=
  let (v, m) := m.drawFree 64
  m.modTier fun t => { t with internal := t.internal + v.toNat }

/-- RETENTION_SCAN: a unit is read; its block is written elsewhere where it must be, or where it is queued for that (R419, R422). -/
def retentionScanOp (m : Mach) (p unit : Nat) (refresh : Bool) : Mach :=
  let k := 128 * p + unit
  if m.inLean || !m.tierUp || !(refresh || m.tier.refreshDue.contains k) then m
  else m.rewriteBlock.modTier fun t => { t with refreshDue := t.refreshDue.filter fun x => x ≠ k }

/-- TIER_WEAR. -/
def tierWear (m : Mach) : Nat := m.tier.wearAvg.toNat + m.tier.wearMax.toNat * 0x100 + m.tier.sparePct.toNat * 0x10000

/-- FLASH_PROGRAM_FAIL: a block is retired; few spares set SPARE_LOW, none make the tier READ_ONLY. -/
def programFailOp (m : Mach) (spares : Nat) (low : Bool) : Mach :=
  let m := (m.count (tierReg 0x30) false).rewriteBlock
  let fresh := low && !m.tier.spareLow
  let m := m.modTier fun t => { t with spares := spares, sparePct := Config.sparePct spares, spareLow := t.spareLow || low }
  let m := if fresh then m.telRecord 0 7 (agentId 0 6 0) [BitVec.ofNat 64 m.tierWear] else m
  if spares = 0 ∧ m.tier.state = .mounted then m.modTier fun t => { t with state := .readOnly } else m

/-! ### The dirty map, the freeze, mounting, a dead die (R402, R412, R427 to R429) -/

/-- The dirty map: page × 32 + sub-block of every dirty sub-block, with those being written. -/
def dirtyMap (m : Mach) : List Nat :=
  (m.tier.pages.map fun p => ((List.range 32).filter fun s => p.2.dirty.getLsbD s || p.2.writing.contains s).map fun s => p.1 * 32 + s).flatten

/-- Records the units of lost sub-blocks as poisoned, with one LOST record for each page (R428). -/
def markLost (m : Mach) (subs : List Nat) : Mach :=
  let pages := (subs.map fun x => x / 32).eraseDups
  m.forEach pages fun m p =>
    let ss := (subs.filter fun x => x / 32 == p).map fun x => x % 32
    let m := m.modPage p fun pg =>
      { pg with failed := true, lost := ss.foldl (fun (b : BitVec 128) s => b ||| (0xF#128 <<< (4 * s))) pg.lost }
    m.tierLog p (4 * ss.headD 0) 1 (4 * ss.length) 0

/-- TIER_SIZE takes the size that stage 6 fixed for the interleaved view (R402, R530); the range that the view gains with a smaller
tier cache has undefined contents. [log 115 DEDUCED] -/
def tierSize (m : Mach) : Mach :=
  let gains := decide (m.tier.viewSize < m.tier.lastSize)
  let (n, m) := if gains then (m.free, { m with free := m.free + 1 }) else (m.tier.gainDraw, m)
  m.modTier fun t =>
    { t with size := t.viewSize, lastSize := t.viewSize, gainDraw := n, gainWritten := [],
             gained := if gains then some (hbmLines - t.lastSize * 0x10000000, m.viewLines) else none }

/-- The tier is mounted (R402, R425, R428): `lost` is the newest dirty map, `unclean` says that the module was reset while the tier was
mounted and without one. -/
def tierMount (m : Mach) (lost : List Nat) (unclean : Bool) : Mach :=
  let m := m.tierSize.modTier fun t => { t with state := if t.spares = 0 then .readOnly else .mounted, unclean := t.unclean || unclean }
  (m.modTier fun t => { t with resetMounted := false, mapDue := false }).markLost lost

/-- What a module reset leaves of the tier: the flash with its records, the heat counters' frames being lost (R426). -/
def tierReset (t : Tier) : Tier :=
  let keep (p : TierPage) : TierPage := { failed := p.failed, lost := p.lost }
  { state := .unmounted, size := 0, resetMounted := t.resetMounted || t.state == .mounted || t.state == .readOnly, mapDue := t.mapDue,
    sizeNext := t.sizeNext, lastSize := t.lastSize, unclean := t.unclean, budgetSpent := t.budgetSpent, spareLow := t.spareLow,
    pages := t.pages.foldl (fun acc p => FMap.set {} acc p.1 (keep p.2)) [], flash := t.flash, account := t.account, overrun := t.overrun,
    written := t.written, internal := t.internal, promotions := t.promotions, evictions := t.evictions, log := [],
    wearAvg := t.wearAvg, wearMax := t.wearMax, sparePct := t.sparePct, spares := t.spares, refreshDue := t.refreshDue }

/-- Lean state ends, or a die leaves compute reset: the tier goes on, and so do the transactions that waited for the freeze (R412). [log 207 DEDUCED] -/
def tierResume (m : Mach) : Mach :=
  let m := m.modTier fun t => { t with frozen := false }
  let ts := m.coh.txns.filter fun t => t.frozen
  let m := m.modCoh fun c => { c with txns := c.txns.filter fun t => !t.frozen }
  let m := m.forEach ts fun m t => (m.txnAnswered { t with frozen := false }).homeKick t.req.line
  m.tierRelease.flushMore

/-- An A-die is declared dead (R429): dirty sub-blocks, each with lines in its stacks, are lost, and clean ones are read again, as the
demand misses are. -/
def tierDieDead (m : Mach) : Mach :=
  let m := m.markLost (m.tier.pages.map fun p => ((List.range 32).filter fun s => p.2.dirty.getLsbD s).map fun s => p.1 * 32 + s).flatten
  let kept := (m.tier.pages.filter fun p => p.2.frame.isSome && !p.2.evicting).map fun p => p.1
  let again (p : TierPage) : TierPage :=
    if !p.frame.isSome then p
    else if p.evicting then { p with dirty := 0 }
    else { p with valid := 0, dirty := 0, arrived := 0, rungs := [], order := promoOrder 0 }
  let m := m.modTier fun t => { t with pages := t.pages.foldl (fun acc p => FMap.set {} acc p.1 (again p.2)) [] }
  let more := kept.filter fun p => !(m.pageOf p).promoting && !(m.tier.demand.contains p)
  (m.modTier fun t => { t with demand := t.demand ++ more }).forEach (m.tier.pages.map fun p => p.1) frameFree

/-! ### Registers (Tables 13-4, 13-5, R430) -/

/-- TIER_STATUS. -/
def tierStatus (m : Mach) : Nat :=
  let t := m.tier
  (match t.state with | .unmounted => 0 | .mounting => 1 | .mounted => 2 | .readOnly => 3) + t.size * 4 + Bits.ofBool t.unclean * 0x80
    + Bits.ofBool t.budgetSpent * 0x100 + Bits.ofBool t.spareLow * 0x200 + Bits.ofBool t.frozen * 0x400 + m.promoting * 0x800

/-- PAGE_INFO. -/
def pageInfo (m : Mach) (p : Nat) : Nat :=
  let pg := m.pageOf p
  pg.heat + Bits.ofBool pg.frame.isSome * 0x100 + Bits.ofBool pg.failed * 0x200 + Bits.ofBool pg.promoting * 0x400 + Bits.ofBool pg.evicting * 0x800
    + Bits.popCount pg.dirty.toNat 32 * 0x1000

/-- A write of TIER_CTL (Table 13-4), with its mask applied: a SIZE_NEXT above 20 leaves the register unchanged (R430). [log 114 DEDUCED] -/
def tierCtlWrite (m : Mach) (w : BitVec 32) : Mach :=
  let mask := Bits.field w 16 16
  let size := (w.toNat % 32 &&& mask) ||| (m.tier.sizeNext &&& (31 - mask % 32))
  if mask % 32 ≠ 0 ∧ 20 < size then m.badWrite (tierReg 0)
  else
    let m := (m.modTier fun t => { t with sizeNext := size }).retain fun r => { r with sizeNext := size }
    let m := if Bits.nbit mask 6 then m.setFld (tierReg 0) 6 1 (Bits.field w 6 1) else m
    if Bits.nbit mask 5 && w.getLsbD 5 then m.tierFlushOp else m

/-- Pops the oldest record of the failed-page log, zeros where there is none. -/
def tierLogPop (m : Mach) : BitVec 128 × Mach := (m.tier.log.headD 0, m.modTier fun t => { t with log := t.log.drop 1 })

end Mach
end Machine
end Sys2Proof
end

