-- ==== Sys2Proof/Machine/HostOps.lean ====
section
/-!
DEFINITION. The host port (chapter 15): what requests of the module to the host window and the herd bring back, the host's CXL.mem
requests (R466, R467), the peer window (R471 to R473), the command rings (R474 to R485), bus-master enable (R488), and detach, replay
and attach (R489 to R496).
-/
namespace Sys2Proof
namespace Machine

/-- The host-window address of a host line. -/
def hostPa (line : Nat) : Nat := 2 ^ 54 + 64 * line

namespace Mach

/-! ### Answers at a Hen, a Mule and a ring -/

/-- A remote read of Hen `a` with request key `key` is answered: with data, or with the exception code of Table 6-7. -/
def henRemote (m : Mach) (a key : Nat) (d : BitVec 512) (poison : Bool) (bad : Option Nat) : Mach :=
  match (m.hen a).wait with
  | .host k rd pa size sg vec mask | .herd k rd pa size sg vec mask =>
    if k ≠ key then m
    else match bad with
      | some code => ((m.modHen a fun h => { h with wait := .none }).henRaise a code pa).henPoke a
      | none =>
        (if poison then (m.modHen a fun h => { h with wait := .none }).henRaise a 7 pa
        else m.henLoaded a rd pa size sg vec mask d).henPoke a
  | .fetch pa k =>
    if k ≠ key then m
    else
      let m := m.modHen a fun h => { h with wait := .none }
      (match bad with
      | some code => m.henRaise a (if code = 7 then 3 else code) pa
      | none => if poison then m.henRaise a 3 pa else m.icFill a (m.lineOf pa) d).henPoke a
  | _ => m

/-- A remote write of Hen `a` lands, or meets the imprecise exception of R198; a DEVICE write that waits for it completes (R179). [log 96 DEDUCED] -/
def henLanded (m : Mach) (a key pa : Nat) (bad : Option Nat) : Mach :=
  let m := m.modHen a fun h => { h with unlanded := h.unlanded.erase key }
  let m := match bad with
    | some code => m.henImprecise a code pa
    | none => m
  match (m.hen a).wait with
  | .host k .. | .herd k .. => if k = key then (m.henNext a).henPoke a else m
  | _ => m.henPoke a

/-- A remote read of a Mule's descriptor is answered; `line` is the line of physical addresses. -/
def muleRemote (m : Mach) (a k line : Nat) (d : BitVec 512) (poison : Bool) (bad : Option Nat) : Mach :=
  match bad with
  | some code =>
    let m := m.modDesc a k fun x => { x with asking := none, stall := .none }
    m.muleFail a k code (64 * line) (((m.descOf a k).map fun x => (chunkAt x.w x.progress 0).elem).getD 0)
  | none => m.modDesc a k fun x => { keepLine x (x.asking == some true) line d poison with asking := none, stall := .none }

/-- A remote write of a Mule's descriptor lands, or fails. [log 96 DEDUCED] -/
def muleLanded (m : Mach) (a k key pa : Nat) (bad : Option Nat) : Mach :=
  let e := ((m.descOf a k).bind fun x => (x.unlanded.find? fun p => p.1 == key).map fun p => p.2).getD 0
  let m := m.modDesc a k fun x => { x with unlanded := x.unlanded.eraseP fun p => p.1 == key,
                                           stall := if x.stall == .host && !(m.host.reqs.any fun q => q.who == .mule a k && q.stalled) then .none else x.stall }
  match bad with
  | some code => m.muleFail a k code pa e
  | none => m

/-! ### Slots and commands of a ring (Tables 15-2 and 15-3) -/

end Mach

namespace Slot

def word (w : BitVec 512) (i : Nat) : Nat := Bits.nfield w.toNat (32 * i) 32
def op (w : BitVec 512) : Nat := word w 0 % 256
def cpl (w : BitVec 512) : Bool := Bits.nbit (word w 0) 8
def after (w : BitVec 512) : Bool := Bits.nbit (word w 0) 9 || op w == 4 || op w == 5
def scope (w : BitVec 512) : Nat := Bits.nfield (word w 0) 10 2
def irq (w : BitVec 512) : Bool := Bits.nbit (word w 0) 12
def tag (w : BitVec 512) : Nat := word w 0 / 65536
def addr (w : BitVec 512) : Nat := word w 1 + word w 2 % 2 ^ 24 * 2 ^ 32
def len (w : BitVec 512) : Nat := Bits.nfield (word w 2) 24 6 + 1
/-- The tag of slot `seq` (R476): SEQ and the lap's PHASE. -/
def tagOk (w : BitVec 512) (seq : Nat) : Bool :=
  Bits.nfield (word w 15) 1 16 == seq % 65536 && (Bits.nbit (word w 15) 0 == (seq / 4096 % 2 == 0))

/-- The bits of ARGS words 3 and 4 that an operation uses; a WRITE uses the words its bytes fill. -/
def used (w : BitVec 512) (i : Nat) : Nat :=
  match op w, i with
  | 1, 3 => 0xFFFF
  | 2, 3 => 0x7FFF
  | 3, i => if i < 3 + (len w + 3) / 4 then 0xFFFFFFFF else 0
  | 4, 3 | 5, 3 => 0xFFFFFF
  | 4, 4 => 0xFFFF
  | 5, 4 => 0xFFFFFF
  | _, _ => 0

/-- BAD_CMD by the slot alone (R475, R480, Table 15-5): reserved bits and operations, unused words, alignment, and a WRITE that is too
long or crosses a line. -/
def bad (w : BitVec 512) : Bool :=
  decide (5 < op w) || Bits.nfield (word w 0) 13 3 ≠ 0 || Bits.nfield (word w 2) 30 2 ≠ 0 || Bits.nfield (word w 15) 17 15 ≠ 0
    || (op w ≠ 3 && len w ≠ 1) || (op w == 3 && (decide (48 < len w) || decide (64 < addr w % 64 + len w)))
    || ((op w == 1 || op w == 2) && addr w % 64 ≠ 0)
    || (op w == 1 && Bits.nbit (word w 3) 15 && Bits.nfield (word w 3) 13 2 ≠ 0)
    || (List.range 12).any fun i => word w (3 + i) &&& used w (3 + i) ≠ word w (3 + i)

end Slot

/-- The completion record (Table 15-4). -/
def cplRecord (tag seq status r res : Nat) (phase held : Bool) : BitVec 128 :=
  BitVec.ofNat 128 (tag + seq % 65536 * 2 ^ 16 + status * 2 ^ 32 + (Bits.ofBool phase + r * 2 + Bits.ofBool held * 128) * 2 ^ 40 + res % 2 ^ 64 * 2 ^ 64)

/-- A record is due for a command that has ended. -/
def RingCmd.due (c : RingCmd) : Bool := c.mustRecord || Slot.cpl c.w

/-- Drops ended commands from the front until one's record is due. -/
def dropEnded : List RingCmd → List RingCmd
  | [] => []
  | c :: t => if c.done.isSome && !c.due then dropEnded t else c :: t

/-- The name by which a ring's herd requests are known to their answers: ring and SEQ. -/
def ringDesc (r seq : Nat) : Nat := r + 64 * seq

namespace Mach

/-- Changes command `seq` of ring `r`. -/
def modCmd (m : Mach) (r seq : Nat) (f : RingCmd → RingCmd) : Mach :=
  m.modRing r fun g => { g with cmds := g.cmds.map fun c => if c.seq == seq then f c else c }

def ringSettle (m : Mach) (r : Nat) : Mach := m.modRing r fun g => { g with cmds := dropEnded g.cmds }

/-- A command ends with STATUS 0 and its result. -/
def ringDone (m : Mach) (r seq res : Nat) : Mach :=
  (m.modCmd r seq fun c => { c with started := true, retry := false, done := some (0, res) }).ringSettle r

/-- A command ends with an error (R482): the ring halts with cause 1, CMD_ERR counts, and its record is due. [log 135 DEDUCED] -/
def ringFail (m : Mach) (r seq status res : Nat) : Mach :=
  let m := m.modCmd r seq fun c => { c with started := true, retry := false, done := some (status, res), mustRecord := true }
  (m.modRing r fun g => { g with haltCause := 1 }).count (hostReg 0x24) true

/-- BAD_CMD and TARGET: RESULT is that of Table 15-3, which states none for a sync operation that is not performed: a free value. [log 128 DEDUCED] -/
def ringRefuse (m : Mach) (r : Nat) (c : RingCmd) (status : Nat) : Mach :=
  if Slot.op c.w = 4 ∨ Slot.op c.w = 5 then
    let (v, m) := m.drawFree 64
    m.ringFail r c.seq status v.toNat
  else m.ringFail r c.seq status 0

/-- An answer for ring `r`'s command `seq`: the record or descriptor it reads, or its completion with a result; or its end with a status. -/
def ringAnswer (m : Mach) (r seq : Nat) (d : BitVec 512) (poison : Bool) (bad : Option (Nat × Nat)) : Mach :=
  match (m.ring r).cmds.find? fun c => c.seq == seq && c.started && c.done.isNone with
  | none => m
  | some c => match bad with
    | some (status, res) => m.ringFail r seq status res
    | none =>
      if Slot.op c.w = 1 ∨ Slot.op c.w = 2 then
        (if poison then m.ringFail r seq 3 (Slot.addr c.w) else m.modCmd r seq fun c => { c with body := some (d, false) })
      else m.ringDone r seq (d.toNat % 2 ^ 64)

/-! ### Requests to the host window come back (R468, R469, R488, R496) -/

/-- MSI-X vector `r`, unless the port may not send it (R488, R492). -/
def msix (m : Mach) (r : Nat) : Mach := if m.host.state == .attached && m.host.bme then m.emit (.msix r) else m

/-- A record write that meets the response of R27 (Table 15-5): the ring halts as R482 says; its command has already ended. [log 135 DEDUCED] -/
def cqBad (m : Mach) (r : Nat) : Mach := (m.modRing r fun g => { g with haltCause := 1 }).count (hostReg 0x24) true

/-- A request ends with the response of R27, or is ended under bus-master disable (`blocked`). -/
def hostBad (m : Mach) (q : HostReq) (blocked : Bool) : Mach :=
  let pa := hostPa q.line + (if q.write then firstByte q.mask else 0)
  let key := hostKey q.num
  let status := if blocked then 5 else 2
  match q.who with
  | .henRead a => m.henRemote a key 0 false (some 6)
  | .henWrite a => m.henLanded a key pa (some 8)
  | .mule a k => if q.write then m.muleLanded a k key pa (some (if blocked then 6 else 2))
                 else m.muleRemote a k (pa / 64) 0 false (some (if blocked then 6 else 2))
  | .slot r => m.modRing r fun g => { g with slot := some (0, false, status), waitHost := false }
  | .body r => match (m.ring r).cmds.find? fun c => c.started && c.done.isNone && c.body.isNone with
    | some c => (m.ringFail r c.seq status (Slot.addr c.w)).modRing r fun g => { g with waitHost := false }
    | none => m
  | .cmd r seq => (m.ringAnswer r seq 0 false (some (status, pa))).modRing r fun g => { g with waitHost := false }
  | .record r _ => if blocked then m else m.cqBad r
  | .coreRead c => m.coreRemote c key 0 true
  | .coreWrite c => m.coreLanded c key pa true false
  | .sysFill c own => m.sysFilled c q.line own 0 false true
  | .sysBack => m.coresPoke

/-- A request completes. -/
def hostGood (m : Mach) (q : HostReq) (d : BitVec 512) (poison : Bool) : Mach :=
  let pa := hostPa q.line
  let key := hostKey q.num
  match q.who with
  | .henRead a => m.henRemote a key d poison none
  | .henWrite a => m.henLanded a key pa none
  | .mule a k => if q.write then m.muleLanded a k key pa none else m.muleRemote a k (pa / 64) d poison none
  | .slot r => m.modRing r fun g => { g with slot := some (d, poison, 0), waitHost := false }
  | .body r => match (m.ring r).cmds.find? fun c => c.started && c.done.isNone && c.body.isNone with
    | some c => (m.ringAnswer r c.seq d poison none).modRing r fun g => { g with waitHost := false }
    | none => m
  | .cmd r seq => (m.ringAnswer r seq 0 false none).modRing r fun g => { g with waitHost := false }
  | .record r irq => if irq then m.msix r else m
  | .coreRead c => m.coreRemote c key d poison
  | .coreWrite c => m.coreLanded c key pa false false
  | .sysFill c own => m.sysFilled c q.line own d poison false
  | .sysBack => m.coresPoke

/-- HOST_COMPLETION: the completion for request `k` returns. The data of a read that bus-master enable overtook is discarded (R488). [log 96 DEDUCED] -/
def hostCompletionOp (m : Mach) (k : Nat) (d : BitVec 512) (poison err : Bool) : Mach :=
  match m.host.reqs.find? fun q => q.num == k && q.sent with
  | none => m
  | some q =>
    let m := m.modHost fun h => { h with reqs := h.reqs.filter fun x => x.num ≠ k }
    if err || q.discard then m.hostBad q (q.discard && !err) else m.hostGood q d poison

/-! ### The host's requests (R466, R467, R473) -/

/-- The address lies in HDM decoder 0 or 1 (R466). -/
def inHdm (m : Mach) (pa : Nat) : Bool := decide (pa < 64 * m.viewLines / 0x10000000 * 0x10000000) || (decide (deepBase ≤ pa) && decide (pa < deepEnd))

/-- A request of the host on its way to the home slice. -/
def hostPost (m : Mach) (r : HomeReq) : Mach := m.modCoh fun c => { c with reqs := c.reqs ++ [r] }

/-- A CXL.mem request (R467), or where `plain` an inbound UIO request (R473), refused while the module is not attached (R492). [log 134 DEDUCED, 178 DEDUCED] -/
def hostMemOp (m : Mach) (op : HostMemOp) (pa : Nat) (d : BitVec 512) (mask : BitVec 64) (poison : Bool) : Mach :=
  if m.host.state == .detached || m.host.state == .replaying then
    (m.count (hostReg 0x34) true).emit (match op with | .rdShared | .rdOwn | .rdCurr => .hostData (pa / 64) 0 true | _ => .hostError pa)
  else if !m.inHdm pa then m.emit (.hostError pa)
  else match m.target pa with
    | .home sa =>
      if m.targetDead (.home sa) then m.emit (.hostError pa)
      else
        let r (k : ReqKind) : HomeReq := { kind := k, agent := hostAgent, line := sa / 64, data := d, mask := mask, poison := poison }
        match op with
        | .rdShared => m.hostPost (r .rds)
        | .rdOwn => m.hostPost (r .rdo)
        | .rdCurr => m.hostPost (r .rdu)
        | .wrLine => m.hostPost { r .wrl with mask := fullMask }
        | .wrPartial => m.hostPost (r .wrp)
        | .wrBack | .wrBackKeep | .evict =>
          m.modCoh fun c => { c with wbs := c.wbs ++ [{ agent := hostAgent, line := sa / 64, data := d, poison := poison, keep := op == .wrBackKeep,
                                                         invn := op == .evict }] }
    | .bad ch => (m.addrError ch hostAgent).emit (.hostError pa)
    | _ => m.emit (.hostError pa)

/-! ### The peer window (R471, R472) -/

/-- The local address of an offset in BAR4, where the window takes it in. -/
def peerAddr (m : Mach) (off : Nat) : Option Nat :=
  let ctl := m.reg (hostReg 0xC)
  if Bits.field ctl 0 1 = 1 && decide (off < 2 ^ (Bits.field ctl 1 3 + 30)) then some (m.host.peerBase.toNat + off) else none

/-- A line of the coherence domain or of flock memory that the port can reach. -/
def peerLine (m : Mach) (l : Nat) : Bool :=
  match m.target (64 * l) with
  | .home sa => !m.targetDead (.home sa)
  | .flock fb pa => !m.targetDead (.flock fb pa)
  | _ => false

/-- The port reads a line by RdU, or from flock memory. -/
def portLine (m : Mach) (l : Nat) : (BitVec 512 × Bool) × Mach :=
  match m.target (64 * l) with
  | .home sa => m.readNow portAgent (sa / 64) false
  | .flock fb _ => m.fmRead fb l
  | _ => ((0, true), m)

/-- Places a line in the prefetch buffer of 64 as most recently used. -/
def peerKeep (m : Mach) (x : PeerLine) : Mach := m.modHost fun h => { h with prefetch := (x :: h.prefetch.filter fun y => y.line ≠ x.line).take 64 }

/-- PEER_READ. [log 206 DESIGN CHOICE, 212 DEDUCED] -/
def peerReadOp (m : Mach) (off : Nat) : Mach :=
  match m.peerAddr off with
  | none => m.emit (.hostError off)
  | some pa =>
    match m.host.prefetch.find? fun x => x.line == pa / 64 with
    | some x => (m.peerKeep x).emit (.peerData off x.data x.poison)
    | none =>
      if !m.peerLine (pa / 64) then
        (match m.target pa with | .bad ch => m.addrError ch portAgent | _ => m).emit (.hostError off)
      else
        let ls := ([0, 1, 2, 3].map fun i => pa / 64 + i).filter fun l => m.peerLine l
        if !m.coreFree ls false then
          m.forEach ls fun m l => match m.target (64 * l) with
            | .home sa => if m.homeFree (sa / 64) false then m else m.homeChase portAgent (sa / 64) false
            | _ => m
        else
          let m := m.forEach ls.reverse fun m l =>
            let ((d, p), m) := m.portLine l
            m.peerKeep { line := l, data := d, poison := p }
          match m.host.prefetch.find? fun x => x.line == pa / 64 with
          | some x => m.emit (.peerData off x.data x.poison)
          | none => m

/-- PEER_WRITE. -/
def peerWriteOp (m : Mach) (off : Nat) (d : BitVec 512) (mask : BitVec 64) : Mach :=
  match m.peerAddr off with
  | none => m.emit (.hostError off)
  | some pa =>
    let l := pa / 64
    if !m.peerLine l then (match m.target pa with | .bad ch => m.addrError ch portAgent | _ => m).emit (.hostError off)
    else if !m.coreFree [l] true mask then
      (match m.target pa with | .home sa => m.homeChase portAgent (sa / 64) true (mask ≠ fullMask) | _ => m)
    else
      let m := m.modHost fun h => { h with prefetch := h.prefetch.filter fun y => y.line ≠ l }
      match m.target (64 * l) with
      | .home sa => m.writeNow portAgent (sa / 64) d mask false none false
      | .flock fb _ => m.flockWrite none fb l d mask false
      | _ => m

/-- A read of WINDOW_FENCE invalidates the prefetch buffer. [log 133 DEDUCED] -/
def windowFence (m : Mach) : Mach := m.modHost fun h => { h with prefetch := [], fences := h.fences + 1 }
/-- [log 133 DEDUCED] -/
def windowFenceOp (m : Mach) (a : Nat) : Mach :=
  let m := m.windowFence
  m.emit (.regData a (m.host.fences.setWidth 32))

/-! ### Reading slots (R474, R476 to R479) -/

/-- What a read by the command processor comes to. -/
inductive PortRes where
  | data (d : BitVec 512) (poison : Bool) (m : Mach)
  /-- asked for elsewhere, or not possible now -/
  | wait (sent : Bool) (m : Mach)
  | bad (status : Nat) (m : Mach)

/-- Reads the 64 B at `pa` for ring `r`. [log 212 DEDUCED] -/
def portRead (m : Mach) (r seq : Nat) (who : HostWho) (pa : Nat) : PortRes :=
  let t := m.target pa
  if m.targetDead t then .bad 4 m
  else if m.targetHeld t then .wait false m
  else match t with
  | .home sa =>
    if m.homeFree (sa / 64) false then
      let ((d, p), m) := m.readNow portAgent (sa / 64) false
      .data d p m
    else .wait false (m.homeChase portAgent (sa / 64) false)
  | .flock fb _ =>
    let ((d, p), m) := m.fmRead fb (pa / 64)
    .data d p m
  | .host hpa =>
    -- a ring in the host window stops while detached (R492)
    if m.host.state ≠ .attached then .wait false (m.modRing r fun g => { g with waitHost := true })
    else match m.hostAsk who (hpa / 64) false 0 0 with
      | .sent _ m => .wait true (m.modRing r fun g => { g with waitHost := true })
      | _ => .bad 5 m
  | .herd md off => match m.herdAsk portAgent (ringDesc r seq) md .read (BitVec.ofNat 46 (off / 64 * 64)) 64 0 0 fullMask false with
    | .sent _ m => .wait true m
    | .dead => .bad 4 m
    | _ => .bad 2 (m.addrError .nowhere portAgent)
  | .dev off => .bad 2 (m.addrError (.die (off / 0x100000000)) portAgent)
  | .bad c => .bad 2 (m.addrError c portAgent)

/-- A command starts only after the one before it, never past a push being repeated or an SWAIT in progress, and with AFTER only once
every earlier one has completed (R480, R481). [log 126 DEDUCED] -/
def ringMayStart (g : Ring) (c : RingCmd) : Bool :=
  let before := g.cmds.takeWhile fun x => x.seq ≠ c.seq
  g.en && g.haltCause == 0 && before.all fun x => x.started && !x.retry && !(Slot.op x.w == 5 && x.done.isNone) && (!Slot.after c.w || x.done.isSome)

/-- Ends a command with a reserved operation once it may start. [log 127 DEDUCED] -/
def ringReserved (m : Mach) (r : Nat) (c : RingCmd) : Mach :=
  if decide (5 < Slot.op c.w) && ringMayStart (m.ring r) c then m.ringRefuse r c 6 else m

/-- The slot at HEAD has been read: an error ends its command, a valid tag makes it the next command, and any other tag is an early
doorbell (R479). [log 126 DEDUCED] -/
def slotTake (m : Mach) (r : Nat) (d : BitVec 512) (poison : Bool) (status : Nat) : Mach :=
  let g := m.ring r
  let pa := g.base.toNat + 64 * (g.head % 4096)
  let next (m : Mach) (w : BitVec 512) (started : Bool) : Mach :=
    m.modRing r fun g => { g with cmds := g.cmds ++ [{ w := w, seq := g.head, started := started }], head := g.head + 1, polling := false, polls := 0,
                                  slot := none }
  if status ≠ 0 || poison then
    -- the TAG of a slot that could not be read is not stated: a free value
    let (t, m) := m.drawFree 16
    (next m (t.setWidth 512 <<< 16) true).ringFail r g.head (if status ≠ 0 then status else 3) pa
  else if Slot.tagOk d g.head then
    let m := next m d false
    m.ringReserved r { w := d, seq := g.head }
  else if g.polling then
    if 1000 ≤ g.polls then (m.setRing r { g with polling := false, timedOut := true, slot := none }).count (hostReg 0x20) true
    else m.setRing r { g with polls := g.polls + 1, slot := none }
  else
    let m := m.setRing r { g with polling := true, polls := 1, slot := none }
    if g.polls = 0 then m.count (hostReg 0x20) false else m

/-- A read of the slot is on its way. -/
def slotAsked (m : Mach) (r : Nat) : Bool :=
  (m.host.reqs.any fun q => q.who == .slot r) ||
    ((m.herd.unanswered ++ m.herd.waiting).any fun o => o.msg.agent.toNat == portAgent && o.desc == ringDesc r (m.ring r).head)

/-- Reads the slot at HEAD, or takes in one that has come back. [log 128 DEDUCED, 129 DEDUCED] -/
def slotRead (m : Mach) (r : Nat) : Mach :=
  match (m.ring r).slot with
  | some (d, p, st) => m.slotTake r d p st
  | none =>
    if m.slotAsked r then m
    else match m.portRead r (m.ring r).head (.slot r) ((m.ring r).base.toNat + 64 * ((m.ring r).head % 4096)) with
      | .data d p m => m.slotTake r d p 0
      | .wait _ m => m
      | .bad st m => m.slotTake r 0 false st

/-- RING_SLOT_READ: the next announced slot is read once every command read before it has started. [log 126 DEDUCED] -/
def ringSlotReadOp (m : Mach) (r : Nat) : Mach :=
  let g := m.ring r
  match g.cmds.find? fun c => !c.started with
  | some c => m.ringReserved r c
  | none =>
    if !g.en || g.haltCause ≠ 0 || g.polling || g.timedOut || decide (g.upTo ≤ g.head) || (g.cmds.any fun c => c.retry) then m
    else m.slotRead r

/-- RING_POLL: the early slot is read again. [log 129 DEDUCED] -/
def ringPollOp (m : Mach) (r : Nat) : Mach :=
  let g := m.ring r
  if g.en && g.polling && g.haltCause == 0 then m.slotRead r else m

/-- RING_DOORBELL (R478). -/
def ringDoorbellOp (m : Mach) (r : Nat) (w : BitVec 32) : Mach :=
  let g := m.ring r
  let n := (w.toNat % 65536 + 65536 - g.head % 65536) % 65536
  if 4096 < n then m.count (hostReg 0x24) false
  else m.setRing r { g with db := w.setWidth 16, upTo := g.head + n, timedOut := false }

/-! ### The commands (R480 to R482) -/

/-- Command `c` of ring `r` meets the outcome `x` of its first access. -/
def ringBegin (m : Mach) (r : Nat) (op : Nat) (body : Mach → RingCmd → Mach) : Mach :=
  let m := m.ringSettle r
  match (m.ring r).cmds.find? fun c => !c.started with
  | some c =>
    if Slot.op c.w ≠ op || !ringMayStart (m.ring r) c then m
    else if Slot.bad c.w then m.ringRefuse r c 6
    else body m c
  | none => m

/-- RING_NOP. -/
def ringNopOp (m : Mach) (r : Nat) : Mach := m.ringBegin r 0 fun m c => m.ringDone r c.seq 0

/-- The target of a push is one that R232 lets a push name. -/
def pushTarget (m : Mach) (op a : Nat) : Bool := if op = 1 then isCollie a && m.flockEnabled (flockOf a) else isMule a

/-- Pushes the body of an ITEM or MULE: a refusal with 1 is repeated (R480). -/
def ringPush (m : Mach) (r : Nat) (c : RingCmd) (b : BitVec 512) : Mach :=
  let a3 := Slot.word c.w 3
  let (code, m) := if Slot.op c.w = 1 then m.colliePush (flockOf (a3 % 8192)) (Bits.nfield a3 13 2) (Bits.nbit a3 15) b
                   else m.mulePush (a3 % 8192) (Bits.nfield a3 13 2) b
  match code with
  | 0 => m.ringDone r c.seq 0
  | 1 => m.modCmd r c.seq fun x => { x with retry := true }
  | _ => m.ringRefuse r c 1

/-- ITEM and MULE: reads the record or descriptor, then pushes it. -/
def ringPushOp (m : Mach) (r op : Nat) : Mach :=
  let m := m.ringSettle r
  match (m.ring r).cmds.find? fun c => c.started && c.done.isNone && Slot.op c.w == op && !c.retry with
  | some c => match c.body with
    | some (b, _) => m.ringPush r c b
    | none => m
  | none => m.ringBegin r op fun m c =>
      if !m.pushTarget op (Slot.word c.w 3 % 8192) then m.ringRefuse r c 1
      else match m.portRead r c.seq (.body r) (Slot.addr c.w) with
        | .data d p m => if p then m.ringFail r c.seq 3 (Slot.addr c.w)
                         else (m.modCmd r c.seq fun x => { x with started := true, body := some (d, false) }).ringPush r c d
        | .wait sent m => if sent then m.modCmd r c.seq fun x => { x with started := true } else m
        | .bad st m => m.ringFail r c.seq st (Slot.addr c.w)

/-- RING_PUSH_RETRY. -/
def ringPushRetryOp (m : Mach) (r : Nat) : Mach :=
  match (m.ring r).cmds.find? fun c => c.retry with
  | some c => match c.body with
    | some (b, _) => m.ringPush r c b
    | none => m
  | none => m

/-- RING_WRITE: its bytes and their place. A 4 B write in device register space is handed to `dev`, which has none where no register block
holds the offset (R27). -/
def ringWriteOp (m : Mach) (r : Nat) (dev : Mach → Nat → BitVec 32 → Option Mach) : Mach :=
  m.ringBegin r 3 fun m c =>
    let pa := Slot.addr c.w
    let n := Slot.len c.w
    let v := c.w.toNat >>> 96 % 2 ^ (8 * n)
    let d := placeField v (pa % 64)
    let mask := byteMask (pa % 64) n
    let begun (m : Mach) : Mach := m.modCmd r c.seq fun x => { x with started := true }
    let t := m.target pa
    if m.targetDead t then m.ringFail r c.seq 4 pa
    else if m.targetHeld t then m
    else match t with
    | .home sa =>
      if m.homeReady (sa / 64) mask false then (m.writeNow portAgent (sa / 64) d mask false none false).ringDone r c.seq 0
      else m.homeChase portAgent (sa / 64) true true
    | .flock fb _ => (m.flockWrite none fb (pa / 64) d mask false).ringDone r c.seq 0
    | .host hpa => match m.hostAsk (.cmd r c.seq) (hpa / 64) true d mask with
      | .sent _ m => (begun m).modRing r fun g => { g with waitHost := true }
      | _ => m.bmeDrop.ringFail r c.seq 5 pa
    | .herd md off => match m.herdAsk portAgent (ringDesc r c.seq) md .write (BitVec.ofNat 46 (off / 64 * 64)) 0 d 0 mask false with
      | .sent _ m => begun m
      | .dead => m.ringFail r c.seq 4 pa
      | _ => (m.addrError .nowhere portAgent).ringFail r c.seq 2 pa
    | .dev off =>
      match if n = 4 then dev m off (BitVec.ofNat 32 v) else none with
      | some m => m.ringDone r c.seq 0
      | none => (m.addrError (.die (off / 0x100000000)) portAgent).ringFail r c.seq 2 pa
    | .bad ch => (m.addrError ch portAgent).ringFail r c.seq 2 pa

/-- The module that a sync identifier names, as this module knows it: none where it is bad (R233). -/
def syncModule (m : Mach) (id : Nat) : Option Nat :=
  let md := Bits.nfield id 15 9
  if Bits.nfield id 12 3 = 0 ∨ 4 < Bits.nfield id 12 3 then none
  else if md = 511 ∨ (m.herd.attached ∧ md = m.herd.module.toNat) then some 511
  else if (m.topoOf md).record.isSome || (m.topoOf md).dead then some md
  else none

/-- RING_SADD: a release at SCOPE from the C-die. [log 135 DEDUCED] -/
def ringSaddOp (m : Mach) (r : Nat) : Mach :=
  m.ringBegin r 4 fun m c =>
    let id := Slot.word c.w 3
    let amt := Slot.word c.w 4
    match m.syncModule id with
    | none => m.ringRefuse r c 6
    | some 511 =>
      let d := Bits.nfield id 12 3 - 1
      if m.dieOut d then m.ringFail r c.seq 4 id
      else
        let (old, m) := m.syncAdd d (id % 4096) amt (Slot.scope c.w) (.die 0)
        m.ringDone r c.seq old.toNat
    | some md => match m.herdAsk portAgent (ringDesc r c.seq) md .sadd (BitVec.ofNat 46 (id % 0x8000)) (BitVec.ofNat 10 (widenScope (.die 0) (Slot.scope c.w)))
                          (BitVec.ofNat 512 amt) 0 0 false with
      | .sent _ m => m.modCmd r c.seq fun x => { x with started := true }
      | _ => m.ringFail r c.seq 4 id

/-- RING_SWAIT: an acquire at SCOPE. -/
def ringSwaitOp (m : Mach) (r : Nat) : Mach :=
  m.ringBegin r 5 fun m c =>
    let id := Slot.word c.w 3
    let th := Slot.word c.w 4
    match m.syncModule id with
    | none => m.ringRefuse r c 6
    | some 511 =>
      let d := Bits.nfield id 12 3 - 1
      if m.dieOut d then m.ringFail r c.seq 4 id
      else ((m.modCmd r c.seq fun x => { x with started := true }).syncWait d (id % 4096) (BitVec.ofNat 24 th) (BitVec.ofNat 2 (Slot.scope c.w)) (.ring r)).ringSettle r
    | some md => match m.herdAsk portAgent (ringDesc r c.seq) md .swait (BitVec.ofNat 46 (id % 0x8000)) (BitVec.ofNat 10 (widenScope (.die 0) (Slot.scope c.w)))
                          (BitVec.ofNat 512 th) 0 0 false with
      | .sent _ m => m.modCmd r c.seq fun x => { x with started := true }
      | _ => m.ringFail r c.seq 4 id

/-! ### Completion records (R484, R485, R493) -/

/-- The port may write records to host memory. -/
def hostOpen (m : Mach) : Bool := (m.host.state == .attached || m.host.state == .replaying) && m.host.bme

def cqSize (g : Ring) : Nat := 64 * 2 ^ g.cqLog2.toNat

/-- The queue has no room: size records lie beyond CQ_HEAD. -/
def cqFull (g : Ring) : Bool := decide (cqSize g ≤ (g.cqPos % 65536 + 65536 - g.cqHead.toNat) % 65536)

/-- Writes a record at the next place of the queue as it stands, with its PHASE; false where its home cannot take it now. [log 212 DEDUCED] -/
def cqPlace (m : Mach) (r : Nat) (rec_ : BitVec 128) (irq held : Bool) : Bool × Mach :=
  let g := m.ring r
  let pa := g.cqBase.toNat + 16 * (g.cqPos % cqSize g)
  let w := rec_.toNat + (Bits.ofBool (g.cqPos / cqSize g % 2 == 0) + Bits.ofBool held * 128) * 2 ^ 40
  let d := placeField w (pa % 64)
  let mask := byteMask (pa % 64) 16
  let step (m : Mach) : Mach := m.modRing r fun g => { g with cqPos := g.cqPos + 1 }
  let t := m.target pa
  if m.targetDead t then (true, (step m).cqBad r)
  else if m.targetHeld t then (false, m)
  else match t with
  | .home sa =>
    if m.homeReady (sa / 64) mask false then
      let m := step (m.writeNow portAgent (sa / 64) d mask false none false)
      (true, if irq then m.msix r else m)
    else (false, m.homeChase portAgent (sa / 64) true true)
  | .host hpa =>
    let n := m.host.nextReq
    let q : HostReq := { num := n, who := .record r irq, line := hpa / 64, write := true, data := d, mask := mask, uio := m.inUio hpa }
    (true, step ((m.modHost fun h => { h with reqs := h.reqs ++ [q], nextReq := n + 1 }).hostOut q))
  | .bad ch => (true, (step (m.addrError ch portAgent)).cqBad r)
  | _ => (true, (step (m.addrError .nowhere portAgent)).cqBad r)

/-- Where the held-completion ring starts: the last 1 MiB of the populated view (R466). -/
def heldBase (m : Mach) : Nat := 64 * m.viewLines - 0x100000

/-- Keeps a record in the held-completion ring; false where its home cannot take it now. [log 131 DEDUCED] -/
def heldPut (m : Mach) (r : Nat) (rec_ : BitVec 128) (irq : Bool) : Bool × Mach :=
  let pa := m.heldBase + 16 * (m.host.heldPos % 65536)
  match m.target pa with
  | .home sa =>
    if m.homeReady (sa / 64) 0 false then
      (true, (m.writeNow portAgent (sa / 64) (placeField rec_.toNat (pa % 64)) (byteMask (pa % 64) 16) false none false).modHost fun h =>
        { h with held := h.held ++ [(r, irq, rec_)], heldPos := h.heldPos + 1 })
    else (false, m.homeChase portAgent (sa / 64) true true)
  | _ => (false, m)

/-- Held records go to their queues in order, while the port may write and the queue has room (R488, R495). [log 131 DEDUCED] -/
def heldFlush (m : Mach) : Nat → Mach
  | 0 => m
  | n + 1 =>
    if !m.hostOpen then m
    else match m.host.held with
      | [] => m
      | (r, irq, x) :: t =>
        if cqFull (m.ring r) then m
        else match m.cqPlace r x irq (m.host.state == .replaying) with
          | (true, m) => heldFlush (m.modHost fun h => { h with held := t }) n
          | (false, m) => m

/-- The queue of a ring lies in the host window. [log 131 DEDUCED] -/
def cqInHost (m : Mach) (r : Nat) : Bool := match m.target (m.ring r).cqBase.toNat with | .host _ => true | _ => false

/-- CQ_RECORD_WRITE: held records first; then the record of the oldest command that has ended. [log 131 DEDUCED] -/
def cqRecordOp (m : Mach) (r : Nat) : Mach :=
  let m := (m.ringSettle r).heldFlush (m.host.held.length + 1)
  if m.host.held.any (fun x => x.1 == r) && m.hostOpen then m
  else match (m.ring r).cmds with
  | [] => m
  | c :: t => match c.done with
    | none => m
    | some (status, res) =>
      let irq := Slot.cpl c.w && Slot.irq c.w
      let x := cplRecord (Slot.tag c.w) c.seq status r res false false
      let gone (m : Mach) : Mach := (m.modRing r fun g => { g with cmds := t, waitCq := false, waitHeld := false }).ringSettle r
      if m.cqInHost r && !(m.host.state == .attached && m.host.bme) then
        if 65536 ≤ m.host.held.length then
          let m' := m.modRing r fun g => { g with waitHeld := true }
          if (m.ring r).waitHeld then m' else m'.count (hostReg 0x30) true
        else match m.heldPut r x irq with
          | (true, m) => gone m
          | (false, m) => m
      else if cqFull (m.ring r) then
        let m' := m.modRing r fun g => { g with waitCq := true }
        if (m.ring r).waitCq then m' else m'.count (hostReg 0x34) false
      else match m.cqPlace r x irq false with
        | (true, m) => gone m
        | (false, m) => m

/-- CQ_HEAD_WRITE: room for waiting records. -/
def cqHeadOp (m : Mach) (r : Nat) (w : BitVec 32) : Mach :=
  m.modRing r fun g =>
    let g' := { g with cqHead := w.setWidth 16 }
    { g' with waitCq := g.waitCq && cqFull g' }

/-! ### RING_CTL (Table 15-10) and RING_STATUS (Table 15-11) -/

/-- Setting EN: HEAD and the CQ position become 0. -/
def ringEnableOp (m : Mach) (r : Nat) : Mach :=
  m.modRing r fun g => if g.en then g else
    { g with en := true, head := 0, upTo := 0, cqPos := 0, polling := false, polls := 0, timedOut := false, slot := none }

/-- Clearing EN: started commands finish, and the ring stops. -/
def ringDisableOp (m : Mach) (r : Nat) : Mach :=
  m.modRing r fun g => { g with en := false, polling := false, slot := none, cmds := g.cmds.filter fun c => c.started }

/-- RESUME ends a halt, but not while bus-master enable is clear (R488). [log 130 DEDUCED] -/
def ringResumeOp (m : Mach) (r : Nat) : Mach :=
  m.modRing r fun g => if g.haltCause = 2 ∧ m.host.state = .attached ∧ !m.host.bme then g else { g with haltCause := 0 }

/-- A write to RING_CTL_r with its mask. [log 130 DEDUCED] -/
def ringCtlWrite (m : Mach) (r : Nat) (w : BitVec 32) : Mach :=
  let mask := Bits.field w 16 16
  let g := m.ring r
  if Bits.nfield mask 2 4 ≠ 0 then
    let v := (Bits.field w 2 4 &&& Bits.nfield mask 2 4) ||| (g.cqLog2.toNat &&& (15 - Bits.nfield mask 2 4))
    if 10 < v ∨ g.en then m.badWrite (hostReg 0)
    else
      let m := m.setRing r { g with cqLog2 := BitVec.ofNat 4 v }
      let m := if Bits.nbit mask 0 then (if w.getLsbD 0 then m.ringEnableOp r else m.ringDisableOp r) else m
      if Bits.nbit mask 1 && w.getLsbD 1 then m.ringResumeOp r else m
  else
    let m := if Bits.nbit mask 0 then (if w.getLsbD 0 then m.ringEnableOp r else m.ringDisableOp r) else m
    if Bits.nbit mask 1 && w.getLsbD 1 then m.ringResumeOp r else m

/-- HALTED: a halt by bus-master disable shows once the started commands have finished. [log 130 DEDUCED] -/
def ringHalted (g : Ring) : Bool := g.haltCause == 1 || (g.haltCause == 2 && g.cmds.all fun c => !c.started || c.done.isSome)

def ringStatus (m : Mach) (r : Nat) : Nat :=
  let g := m.ring r
  g.head % 65536 + Bits.ofBool (ringHalted g) * 2 ^ 16 + (if ringHalted g then g.haltCause.toNat * 2 ^ 17 else 0) + Bits.ofBool g.polling * 2 ^ 19
    + Bits.ofBool g.waitCq * 2 ^ 20 + Bits.ofBool g.waitHost * 2 ^ 21

/-! ### Bus-master enable (R488) -/

/-- BME_CLEAR. -/
def bmeClearOp (m : Mach) : Mach :=
  if !m.host.bme then m
  else
    let m := m.modHost fun h => { h with bme := false, reqs := h.reqs.map fun q => if q.sent && !q.write then { q with discard := true } else q }
    m.forEach m.host.rings fun m (r, g) => if g.en then m.modRing r fun g => { g with haltCause := 2 } else m

/-- BME_SET. -/
def bmeSetOp (m : Mach) : Mach :=
  let m := m.modHost fun h => { h with bme := true }
  m.heldFlush (m.host.held.length)

/-! ### Detach and attach (R489 to R496) -/

/-- A pulse opens a new window of PULSE_MS. -/
def hostPulseOp (m : Mach) (t : Nat) (w : BitVec 32) : Mach :=
  let m := (m.advance t).setFld (hostReg 8) 0 16 (w.toNat % 65536)
  m.modHost fun h => { h with deadline := if w.toNat % 65536 = 0 then none else some (m.now + w.toNat % 65536 * 500000) }

/-- A host line of the system cache is lost with its data (R490). -/
def lostLine (m : Mach) (line : Nat) : Mach :=
  let m := m.count (hostReg 0x2C) true
  let x : BitVec 128 := BitVec.ofNat 128 (64 * (line - 2 ^ 48) + m.host.detaches * 2 ^ 64)
  m.modHost fun h => { h with lostLog := (if h.lostLog.length < 64 then h.lostLog else h.lostLog.drop 1) ++ [x] }

/-- Detach (R490): the host is declared dead for coherence, the system cache drops its host lines, and requests in flight are held. [log 132 DEDUCED] -/
def hostDetach (m : Mach) : Mach :=
  if m.host.state == .detached then m
  else
    let m := (m.modHost fun h => { h with state := .detached, detaches := h.detaches + 1 }).count (hostReg 0x2C) false
    let m := m.declareDead hostAgent 0x1FFF
    let ls := m.acores.sys.filterMap fun (l, x) => match x with | some y => if isHostLine l then some (l, y.dirty) else none | none => none
    let m := m.forEach ls fun m (l, dirty) =>
      let m := (m.setSys l none).dropCoreResv l
      if dirty then m.lostLine l else m
    m.modHost fun h => { h with reqs := h.reqs.map fun q => { q with sent := false } }

/-- PULSE_TIMEOUT. -/
def pulseTimeoutOp (m : Mach) (t : Nat) : Mach :=
  let m := m.advance t
  match m.host.deadline with
  | some d => if d ≤ m.now then (m.modHost fun h => { h with deadline := none }).hostDetach else m
  | none => m

/-- LINK_LAYER_DOWN, and PERST_N. -/
def linkLayerDownOp (m : Mach) : Mach := (m.modHost fun h => { h with linkUp := false }).hostDetach
def perstOp (m : Mach) : Mach := (m.modHost fun h => { h with linkUp := false }).hostDetach

/-- The CXL link reaches L0 (R464). -/
def cxlLinkUpOp (m : Mach) (width : Nat) (rate : Bool) : Mach :=
  m.modHost fun h => { h with linkUp := true, width := BitVec.ofNat 2 width, rate := rate }

/-- DETACH (R491): dirty host lines go back, and the port waits. -/
def detachOp (m : Mach) : Mach :=
  if m.host.state ≠ .attached then m
  else
    let ls := m.acores.sys.filterMap fun (l, x) => match x with | some y => if isHostLine l && y.dirty then some l else none | none => none
    let m := m.forEach ls fun m l => m.sysEvict l
    m.modHost fun h => { h with state := .detaching }

/-- DETACH_DONE. -/
def detachDoneOp (m : Mach) : Mach :=
  if m.host.state == .detaching && !(m.host.reqs.any fun q => q.sent) then m.hostDetach else m

/-- A new session token (R494), and the host back in coherence. The attach waits for its token where the entropy source has failed (R563). [log 210 DEDUCED] -/
def hostAttach (m : Mach) : Mach :=
  let (t, m') := m.drawEntropy
  let m' := m'.undeclareDead hostAgent 0x1FFF
  let ms := m.fld (hostReg 8) 0 16
  if m.sec.entropyFail then m
  else m'.modHost fun h => { h with state := .attached, token := t, deadline := if ms = 0 then none else some (m.now + ms * 500000) }

/-- The requests held are sent, in their original order (R495). -/
def hostResend (m : Mach) : Mach :=
  let m := m.forEach m.host.reqs fun m q => if q.sent then m else m.hostOut q
  m.modHost fun h => { h with reqs := h.reqs.map fun q => { q with sent := true } }

/-- REATTACH with token `t` (R495). [log 132 DEDUCED] -/
def reattachOp (m : Mach) (t : BitVec 64) : Mach :=
  if m.host.state ≠ .detached || !m.host.linkUp then m
  else if t ≠ m.host.token then m.count (hostReg 0x30) false
  else
    let m := m.modHost fun h => { h with state := .replaying }
    m.heldFlush m.host.held.length

/-- REPLAY_DONE: the held records have been written; the held requests are sent again and the module is attached. -/
def replayDoneOp (m : Mach) : Mach :=
  if m.host.state ≠ .replaying then m
  else
    let m := m.heldFlush m.host.held.length
    if m.host.held = [] then m.hostResend.hostAttach else m

/-- Attach without replay (R496, and stage 9): held records are discarded, and held requests end as under bus-master disable. -/
def attachFresh (m : Mach) : Mach :=
  let qs := m.host.reqs
  let m := m.modHost fun h => { h with held := [], reqs := [] }
  (m.forEach qs fun m q => m.hostBad q true).hostAttach

/-- FRESH. -/
def freshOp (m : Mach) : Mach := if m.host.state == .detached && m.host.linkUp then m.attachFresh else m

/-- HOST_CTL (Table 15-8) and HOST_STATUS (Table 15-9). [log 134 DEDUCED] -/
def hostCtlWrite (m : Mach) (w : BitVec 32) : Mach :=
  let m := if w.getLsbD 16 && w.getLsbD 0 then m.detachOp else m
  if w.getLsbD 17 && w.getLsbD 1 then m.freshOp else m
def hostStatus (m : Mach) : Nat :=
  (match m.host.state with | .attached => 0 | .detaching => 1 | .detached => 2 | .replaying => 3) + Bits.ofBool m.host.bme * 4
    + Bits.ofBool m.host.linkUp * 8 + m.host.width.toNat * 16 + Bits.ofBool m.host.rate * 64 + m.host.held.length * 128

/-- A read of LOST_LOG pops the oldest record. -/
def lostPop (m : Mach) : BitVec 128 × Mach := (m.host.lostLog.headD 0, m.modHost fun h => { h with lostLog := h.lostLog.drop 1 })

end Mach
end Machine
end Sys2Proof
end

