-- ==== Sys2Proof/Machine/LinkOps.lean ====
section
/-!
DEFINITION. Kerly links (R431 to R445): flits, retry, training, sparing and DOWN; dead dies (R442, R443); the herd (R446 to R462): topology
records, routes and the Bellwether, requests served and answered, resending, dead modules, attach and multicast.
-/
namespace Sys2Proof

/-- The fields of a flit's header (Table 14-2). -/
def FlitHdr.seq (h : FlitHdr) : BitVec 12 := h.word.extractLsb' 0 12
def FlitHdr.ack (h : FlitHdr) : BitVec 12 := h.word.extractLsb' 12 12
def FlitHdr.crvc (h : FlitHdr) : BitVec 3 := h.word.extractLsb' 24 3
def FlitHdr.crcnt (h : FlitHdr) : BitVec 6 := h.word.extractLsb' 27 6
def FlitHdr.type (h : FlitHdr) : BitVec 4 := h.word.extractLsb' 33 4

/-- A port of a TOPO record is UP or UP_DEGRADED. -/
def TopoPort.up (p : TopoPort) : Bool := p.state == 2 || p.state == 3

/-- The TYPE is reserved; or a reserved bit of the header is set (R434). -/
def FlitHdr.unknown (h : FlitHdr) : Bool := decide (6 ≤ h.type.toNat)
def FlitHdr.reserved (h : FlitHdr) : Bool := h.unknown || decide (h.word.extractLsb' 37 27 ≠ 0)

namespace Machine

/-- A DISC payload's fields (Table 14-5), and the bytes of a payload with them. -/
def discOf (p : BitVec 152) : Disc :=
  { identity := p.extractLsb' 0 64, die := p.extractLsb' 64 3, revision := p.extractLsb' 72 8, features := p.extractLsb' 80 32,
    version := p.extractLsb' 112 8, port := p.extractLsb' 120 8, module := p.extractLsb' 128 9, bellCand := p.getLsbD 144,
    bellwether := p.getLsbD 145, lr := p.getLsbD 146 }
def discWord (d : Disc) : BitVec 152 :=
  BitVec.ofNat 152 (d.identity.toNat + d.die.toNat * 2 ^ 64 + d.revision.toNat * 2 ^ 72 + d.features.toNat * 2 ^ 80 + d.version.toNat * 2 ^ 112
    + d.port.toNat * 2 ^ 120 + d.module.toNat * 2 ^ 128 + Bits.ofBool d.bellCand * 2 ^ 144 + Bits.ofBool d.bellwether * 2 ^ 145 + Bits.ofBool d.lr * 2 ^ 146)

/-! ### Link ends -/

/-- Full width and spares of a link end (Table 14-1). -/
def linkLanes (k : Nat) : Nat × Nat := if k < 12 then (if k % 3 = 0 then (32, 2) else (16, 1)) else if k < 16 then (32, 2) else (4, 1)
/-- Widths of Table 14-4. -/
def linkWidths (k : Nat) : List Nat := let w := (linkLanes k).1; [w, w / 2, w / 4]
def isHerdLink (k : Nat) : Bool := decide (16 ≤ k)
/-- The other end of an on-module link (Table 1-7). [log 117 DEDUCED] -/
def linkMate (k : Nat) : Option Nat :=
  if k < 12 then
    match k % 3 with
    | 0 => some (12 + k / 3)
    | 1 => some (3 * ((k / 3 + 3) % 4) + 2)
    | _ => some (3 * ((k / 3 + 1) % 4) + 1)
  else if k < 16 then some (3 * (k - 12)) else none
/-- The A-die that is declared dead when an on-module link goes DOWN (R442). -/
def linkVictim (k : Nat) : Option Nat :=
  if k < 12 then
    match k % 3 with
    | 0 => some (k / 3)
    | 1 => some (max (k / 3) ((k / 3 + 3) % 4))
    | _ => some (max (k / 3) ((k / 3 + 1) % 4))
  else if k < 16 then some (k - 12) else none
/-- The link ends that touch A-die `d`. -/
def dieLinks (d : Nat) : List Nat := [3 * d, 3 * d + 1, 3 * d + 2, 12 + d, 3 * ((d + 3) % 4) + 2, 3 * ((d + 1) % 4) + 1]

def Link.isUp (l : Link) : Bool := l.state == .up || l.state == .upDegraded

/-- STATE as LINK_STATUS gives it (Table 14-10). -/
def LinkState.code : LinkState → Nat
  | .down => 0
  | .training => 1
  | .up => 2
  | .upDegraded => 3

/-- The requester of herd ingress accesses: the herd port block of the C-die. [log 122 DEDUCED] -/
def ingressAgent : Nat := agentId 0 7 0

namespace Mach

/-- LINK_STATUS (Table 14-10). -/
def linkStatus (m : Mach) (k : Nat) : Nat :=
  let l := m.link k
  l.state.code + l.width.toNat * 8 + l.sparesUsed.toNat * 0x200
    + Bits.ofBool (isHerdLink k) * 0x800 + Bits.ofBool l.held * 0x1000

/-- LINK_PEER. -/
def linkPeer (m : Mach) (k : Nat) : Nat :=
  match (m.link k).peer with
  | some d => d.die.toNat + d.module.toNat * 8 + d.port.toNat % 16 * 0x1000 + (m.link k).version.toNat * 0x10000
  | none => 511 * 8

/-- The agent ID of a link end. -/
def linkAgent (k : Nat) : Nat := if k < 12 then agentId (k / 3 + 1) 29 (k % 3) else if k < 16 then agentId 0 4 0 else agentId 0 7 (k - 16)

/-- The record of type 0x06. -/
def linkTel (m : Mach) (k : Nat) : Mach :=
  m.telRecord (if k < 12 then k / 3 + 1 else 0) 6 (linkAgent k)
    [BitVec.ofNat 64 (m.linkStatus k), BitVec.ofNat 64 ((m.link k).failedLanes.toNat % 2 ^ 32)]

/-! ### The module's own DISC and topology record (Table 14-5, R450) -/

/-- BELL_CAND of HERD_CTL. -/
def bellCand (m : Mach) : Bool := m.bit (herdReg 0x400) 0
/-- Herd port `p` is enabled in PORT_EN. [log 179 DEDUCED] -/
def portEnabled (m : Mach) (p : Nat) : Bool := m.bit (herdReg 0x408) (16 + p)
/-- Groups joined: group 0 always (R459). -/
def mcGroups (m : Mach) : BitVec 16 := (m.reg (herdReg 0x40C)).setWidth 16 ||| 1

def ownDisc (m : Mach) (k : Nat) : Disc :=
  let herd := isHerdLink k
  { identity := if herd then m.herd.identity else 0, die := BitVec.ofNat 3 (if k < 12 then k / 3 + 1 else 0),
    revision := if k < 12 then (FMap.get 0 m.boot.dieRev (k / 3)).setWidth 8 else m.boot.modRev.setWidth 8,
    features := if k < 12 then FMap.get 0 m.boot.dieFeatures (k / 3) else m.boot.features, version := Config.linkVersion,
    port := BitVec.ofNat 8 (if k < 12 then k % 3 else if k < 16 then k - 12 else k - 16),
    module := if m.herd.attached then m.herd.module else 511, bellCand := m.bellCand, bellwether := m.herd.bellwether, lr := herd }

def ownRecord (m : Mach) : TopoRec :=
  { module := if m.herd.attached then m.herd.module else 511, seq := m.herd.recSeq,
    ports := (List.range 16).map fun p =>
      let l := m.link (16 + p)
      { state := BitVec.ofNat 3 l.state.code, peer := match l.peer with | some d => d.module | none => 511, width := l.width },
    groups := m.mcGroups, identity := m.herd.identity, bellCand := m.bellCand, bellwether := m.herd.bellwether }

/-- Sends a record on every UP herd port but one. -/
def floodRecord (m : Mach) (r : TopoRec) (but : Option Nat) : Mach :=
  m.forEach (List.range 16) fun m p => if some p ≠ but && (m.link (16 + p)).isUp then m.linkPush (16 + p) (.topo r) else m

/-- Floods the module's own record with a new sequence number (R450). -/
def floodTopo (m : Mach) : Mach :=
  let m := m.modHerd fun h => { h with recSeq := h.recSeq + 1 }
  m.floodRecord m.ownRecord none

/-- The key of a record in the topology table; an unattached module is known by its IDENTITY alone. [log 120 DEDUCED] -/
def topoKey (r : TopoRec) : Nat := if r.module = 511 then 512 + r.identity.toNat else r.module.toNat

/-- [log 120 DEDUCED] -/
def setTopo (m : Mach) (n : Nat) (e : TopoEntry) : Mach := m.modHerd fun h => { h with topo := FMap.set {} h.topo n e }

/-! ### Training and DOWN (R438 to R440) -/

/-- A link end enters TRAINING, and the other end of an on-module link with it; RETRAIN counts. [log 117 DEDUCED] -/
def trainEnd (m : Mach) (k : Nat) : Mach :=
  if (m.link k).state == .training then m
  else (m.modLink k fun l => { l with state := .training, peer := none, nakRun := 0, discarding := false }).count (linkReg k 0x14) false
/-- A link enters TRAINING; a herd port's new state is flooded (R438, R450). [log 117 DEDUCED] -/
def linkTrain (m : Mach) (k : Nat) : Mach :=
  let was := (m.link k).state
  let m := m.trainEnd k
  match linkMate k with
  | some j => m.trainEnd j
  | none => if isHerdLink k && was ≠ .training then m.floodTopo else m

/-- A link may train: it is not held DOWN, its dies are alive, and a herd port is enabled with its cable in place. -/
def linkFree (m : Mach) (k : Nat) : Bool :=
  let l := m.link k
  !l.held && !l.looped && (!isHerdLink k || (m.portEnabled (k - 16) && l.cable))
    && (List.range 4).all fun d => !((dieLinks d).contains k && (m.die d).dead)

/-- A link end goes DOWN; what it was carrying is lost (R442). [log 118 DEDUCED] -/
def downEnd (m : Mach) (k : Nat) : Mach :=
  if (m.link k).state == .down then m
  else
    let m := m.modLink k fun l => { l with state := .down, width := 0, peer := none, txSeq := 0, rxSeq := 0, discarding := false, retry := [], txq := [],
                                           used := [], owed := [], nakRun := 0 }
    (m.count (linkReg k 0x1C) false).linkTel k

/-! ### Outstanding requests toward a die that dies (R326, R443) -/

/-- A core's access to a line whose home is dead ends: a load or an atomic with an access fault, a store as lost. [log 125 DEDUCED] -/
def coreDead (m : Mach) (line : Nat) : Mach :=
  m.forEach m.acores.cores fun m (c, x) =>
    match x.wait with
    | .load pa n => if (paLines pa n).any fun l => m.lineOf (64 * l) == line then m.coreFault c .loadAccess pa else m
    | .lr pa _ => if m.lineOf pa = line then m.coreFault c .loadAccess pa else m
    | .sc pa _ _ | .sysAmo pa _ _ _ | .amo pa _ => if m.lineOf pa = line then m.coreFault c .storeAccess pa else m
    | .store pa n _ => if (paLines pa n).any fun l => m.lineOf (64 * l) == line then (m.coreStoreBad c pa true).coreSetWait c .none else m
    | .zero pa => if m.lineOf pa = line then (m.coreStoreBad c pa true).coreSetWait c .none else m
    | _ => m

/-- A request to a dead home ends. [log 125 DEDUCED] -/
def deadEnd (m : Mach) (r : HomeReq) : Mach :=
  if r.agent = sysAgent then m.coreDead r.line
  else if isHen r.agent then
    match (m.hen r.agent).wait with
    | .sc _ addr _ _ =>
      if m.lineOf addr = r.line && r.writes then (m.modHen r.agent fun x => { x with wait := .none }).henRaise r.agent 7 addr
      else m.poisonEnd { agent := r.agent, line := r.line, since := 0, req := some r }
    | _ => m.poisonEnd { agent := r.agent, line := r.line, since := 0, req := some r }
  else if r.agent = hostAgent then m.emit (if r.writes then .hostError (64 * r.line) else .hostData r.line 0 true)
  else m

/-- An atomic at a dead home ends. [log 125 DEDUCED] -/
def deadAtomic (m : Mach) (e : AqEntry) : Mach :=
  if isHen e.agent then
    match (m.hen e.agent).wait with
    | .amo _ addr _ => (m.modHen e.agent fun x => { x with wait := .none }).henRaise e.agent 7 addr
    | _ => m
  else if isMule e.agent then m.muleLanded e.agent e.desc (atmKey e.line) e.named (some 5)
  else m.coreDead e.line

/-- A wait on an object of a dead die ends (R443). [log 125 DEDUCED] -/
def deadWait (m : Mach) (w : Wait) (id : Nat) : Mach :=
  match w.who with
  | .hen a => match (m.hen a).wait with
    | .swait _ id .. => ((m.modHen a fun h => { h with wait := .none }).henRaise a 7 id.toNat).henPoke a
    | _ => m
  | .ring r => match (m.ring r).cmds.find? fun c => c.started && c.done.isNone with
    | some c => m.ringFail r c.seq 4 id
    | none => m
  | .remote h n => m.herdSend { kind := .dead, src := m.herd.module, dst := BitVec.ofNat 9 (h / 0x2000), num := n, agent := BitVec.ofNat 13 h,
                                addr := BitVec.ofNat 46 id, code := 0, data := 0, cmp := 0, mask := 0, poison := false, tail := false, hops := 0 }
  | _ => m

/-- An A-die is declared dead (R442, R443, R365, R429). -/
def dieDead (m : Mach) (d : Nat) : Mach :=
  if (m.die d).dead then m
  else
    let m := m.modDie d fun x => { x with dead := true }
    let m := m.forEach (dieLinks d) downEnd
    let m := m.declareDead ((d + 1) * 1024) 0x1C00
    let homed (l : Nat) : Bool := homeDie (64 * l) == d
    let rs := (m.coh.reqs ++ m.coh.queue ++ m.coh.nacked ++ m.coh.txns.map fun t => t.req).filter fun r => homed r.line
    let hs := m.tier.held.filter fun h => homed h.line
    let m := m.modCoh fun c => { c with reqs := c.reqs.filter (fun r => !homed r.line), queue := c.queue.filter (fun r => !homed r.line),
                                        nacked := c.nacked.filter (fun r => !homed r.line), txns := c.txns.filter (fun t => !homed t.req.line),
                                        wbs := c.wbs.filter (fun w => !homed w.line), stashes := c.stashes.filter (fun s => !homed s.line),
                                        fills := c.fills.filter (fun f => !homed f.1) }
    let m := (m.modTier fun t => { t with held := t.held.filter fun h => !homed h.line }).readsDrop homed
    let m := m.forEach (rs ++ hs.filterMap fun h => h.req) deadEnd
    let m := m.forEach (List.range 16) fun m s =>
      let k := 16 * d + s
      let es := (m.slice k).aq ++ (m.slice k).waiting
      (m.modSlice k fun x => { x with aq := [], waiting := [] }).forEach es deadAtomic
    let ws := (m.sync d).waits
    let m := (m.modSync d fun u => { u with waits := [] }).forEach ws fun m w => m.deadWait w ((d + 1) * 4096 + w.index)
    let m := m.forEach m.hens fun m (a, h) =>
      let m := m.forEach (h.sb.filter fun e => m.sbDies a e) fun m e => m.sbLost a e
      (m.forEach (h.crossing.filter fun x => m.targetDead (m.target (64 * x.line))) fun m x => m.crossLand a x).henPoke a
    if m.tierUp then m.tierDieDead else m

/-! ### Answers to herd requests (R453, R443, R326) -/

/-- The physical address that a request names at its source. -/
def herdPa (o : HerdMsg) : Nat :=
  2 ^ 55 + o.dst.toNat * 2 ^ 46 + (if o.kind == .write then o.addr.toNat / 64 * 64 + firstByte o.mask else o.addr.toNat)

/-- The answer `k` (with data) to request `o` reaches its requester. -/
def herdDeliver (m : Mach) (o : OutReq) (k : HerdKind) (d : BitVec 512) (poison : Bool) : Mach :=
  let a := o.msg.agent.toNat
  let key := herdKey o.msg.dst.toNat o.msg.num
  let pa := herdPa o.msg
  let sync := o.msg.kind == .sadd || o.msg.kind == .sread || o.msg.kind == .swait
  let bad := k == .addrError || k == .dead || k == .poison
  if isHen a then
    if o.msg.kind == .write then m.henLanded a key pa (if k == .addrError then some 8 else if k == .dead then some 9 else none)
    else if sync && !bad then
      match (m.hen a).wait with
      | .herd n rd .. => if n = key then ((m.setG a rd (BitVec.ofNat 64 (d.toNat % 2 ^ 24))).henNext a).henPoke a else m
      | _ => m
    else m.henRemote a key d poison (if k == .addrError then some 6 else if bad then some 7 else none)
  else if isMule a then
    let code := if k == .addrError then some 2 else if k == .dead then some 5 else if k == .poison then some 3 else none
    if o.msg.kind == .read then m.muleRemote a o.desc (pa / 64) d poison code else m.muleLanded a o.desc key pa code
  else if a = portAgent then
    let status := if k == .addrError then some 2 else if k == .dead then some 4 else if k == .poison then some 3 else none
    let r := o.desc % 64
    let seq := o.desc / 64
    if (m.ring r).cmds.any fun c => c.seq == seq then
      let addr := match (m.ring r).cmds.find? fun c => c.seq == seq with
        | some c => if sync then Slot.word c.w 3 else Slot.addr c.w
        | none => pa
      m.ringAnswer r seq d poison (status.map fun s => (s, addr))
    else m.modRing r fun g => { g with slot := some (d, poison, status.getD 0) }
  else if isAcore a then
    let c := agentBlk a * 24 + agentUnit a
    if o.msg.kind == .write then m.coreLanded c key pa (k == .addrError) (k == .dead) else m.coreRemote c key d (bad || poison)
  else m

/-- Module `n` is declared dead (R462): writes to it are lost, other requests end with the dead response, its messages and waits go, and
requests to it are numbered anew. [log 124 DEDUCED] -/
def moduleDead (m : Mach) (n : Nat) : Mach :=
  if (m.topoOf n).dead then m
  else
    let m := (m.setTopo n { m.topoOf n with dead := true, route := none, ports := [], alt := none }).count (herdReg 0x410) true
    let mine (o : OutReq) : Bool := o.msg.dst.toNat == n
    let os := m.herd.unanswered.filter mine ++ m.herd.waiting.filter mine
    let m := m.modHerd fun h => { h with unanswered := h.unanswered.filter (fun o => !mine o), waiting := h.waiting.filter (fun o => !mine o),
                                         inbox := h.inbox.filter (fun x => x.src.toNat ≠ n), issued := h.issued.filter (fun x => x.src.toNat ≠ n),
                                         ingress := FMap.set {} h.ingress n {}, nums := FMap.set 0 h.nums n 0 }
    let gone (w : Wait) : Bool := match w.who with | .remote h _ => h / 0x2000 == n | _ => false
    let m := m.forEach (List.range 4) fun m d => (m.modSync d fun u => { u with waits := u.waits.filter fun w => !gone w }).syncHand d
    m.forEach os fun m o => m.herdDeliver o .dead 0 false

/-- Every unanswered request to module `n` is sent again in number order (R455); after three sendings the module is declared dead. -/
def herdResend (m : Mach) (n : Nat) : Mach :=
  let mine := m.herd.unanswered.filter fun o => o.msg.dst.toNat == n
  if mine = [] then m
  else if mine.any fun o => !o.receipt && decide (3 ≤ o.tries) then m.moduleDead n
  else
    let up (o : OutReq) : OutReq := if o.msg.dst.toNat == n then { o with tries := if o.receipt then o.tries else o.tries + 1, sentAt := m.now } else o
    let m := (m.modHerd fun h => { h with unanswered := h.unanswered.map up }).countN (herdReg 0x414) true mine.length
    m.forEach mine fun m o => m.herdSend o.msg

/-- The first port of a route has gone DOWN: its destinations take their other routes, and requests are sent again (R455). -/
def portLost (m : Mach) (p : Nat) : Mach :=
  m.forEach m.herd.topo fun m (n, e) =>
    if (e.route.map (·.1)) = some p ∨ e.ports.contains p then
      let ports := e.ports.filter fun q => q ≠ p
      let route := match ports with
        | q :: _ => e.route.map fun r => (q, r.2)
        | [] => e.alt.map fun q => (q, (e.route.map (·.2)).getD 0)
      let m := (m.setTopo n { e with route := route, ports := ports, alt := if e.alt = some p ∨ ports = [] then none else e.alt }).count (herdReg 0x410) false
      m.herdResend n
    else m

/-- A link goes DOWN (R440, R442). -/
def linkDown (m : Mach) (k : Nat) : Mach :=
  if (m.link k).state == .down then m
  else if isHerdLink k then ((m.downEnd k).portLost (k - 16)).floodTopo
  else match linkVictim k with
    | some d => ((m.downEnd k).dieDead d)
    | none => m

/-! ### Receiving a flit (R433 to R438) -/

/-- Drops the flits of the retry buffer that an ACK covers. -/
def ackTo (l : Link) (ack : BitVec 12) : Link :=
  if l.retry.any fun x => x.1 == ack then { l with retry := (l.retry.dropWhile fun x => x.1 ≠ ack).drop 1 } else l

/-- What every flit with a good CRC brings: its ACK, and returned credits. -/
def flitGood (m : Mach) (k : Nat) (h : FlitHdr) : Mach :=
  let give (u : FMap Nat) : FMap Nat := if h.crvc.toNat < 5 then FMap.set 0 u h.crvc.toNat (FMap.get 0 u h.crvc.toNat - h.crcnt.toNat) else u
  let m := m.modLink k fun l => { ackTo l h.ack with lastGood := m.now, used := give l.used }
  m.linkPump k (m.link k).txq.length

/-- The counts and checks that every received flit goes through: FEC, BAD_FLIT; whether it is good. [log 213 DESIGN CHOICE] -/
def flitCheck (m : Mach) (k : Nat) (h : FlitHdr) : Bool × Mach :=
  let m := if isHerdLink k then (m.countN (linkReg k 0x18) false h.fecCorr).countN (linkReg k 0x18) true h.fecUncorr else m
  let crc := h.crcOk && !(isHerdLink k && decide (0 < h.fecUncorr))
  let m := if crc && h.reserved then m.count (linkReg k 0x1C) true else m
  (crc && !h.reserved, if crc && !h.reserved then m.flitGood k h else m)

/-- A flit that is not sequenced: its content counts only when it is good. -/
def flitPlain (m : Mach) (k : Nat) (h : FlitHdr) (body : Mach → Mach) : Mach :=
  if !(m.link k).isUp then m
  else
    let (ok, m) := m.flitCheck k h
    if ok then body m else m

/-- A sequenced flit: accepted in order, else discarded with a NAK at the first discard (R437). -/
def flitSeq (m : Mach) (k : Nat) (h : FlitHdr) (body : Mach → Mach) : Mach :=
  if !(m.link k).isUp then m
  else
    let (ok, m) := m.flitCheck k h
    if ok && h.seq == (m.link k).rxSeq then body (m.modLink k fun l => { l with rxSeq := l.rxSeq + 1, discarding := false })
    else if (m.link k).discarding || (h.crcOk && h.unknown) then m
    else ((m.modLink k fun l => { l with discarding := true }).count (linkReg k 0x10) false).flitSend k 2 (m.link k).txSeq (.nak k)

/-- FLIT_IDLE. -/
def flitIdleOp (m : Mach) (k : Nat) (h : FlitHdr) : Mach := m.flitPlain k h id

/-- FLIT_NAK: the flits after its ACK are sent again, and REPLAY counts; the eighth NAK in a row with one ACK starts training. -/
def flitNakOp (m : Mach) (k : Nat) (h : FlitHdr) : Mach :=
  m.flitPlain k h fun m =>
    let l := m.link k
    let run := if l.nakRun ≠ 0 ∧ l.nakAck = h.ack then l.nakRun + 1 else 1
    let m := (m.setLink k { l with nakAck := h.ack, nakRun := run }).count (linkReg k 0x10) true
    if 8 ≤ run then m.linkTrain k else m.forEach l.retry fun m x => m.flitOut k x.1 x.2

/-- FLIT_FAIL (R442): the A-die behind the link is declared dead. -/
def flitFailOp (m : Mach) (k : Nat) (h : FlitHdr) : Mach :=
  m.flitPlain k h fun m =>
    match linkMate k with
    | some j => if j < 12 then m.dieDead (j / 3) else m
    | none => m

/-- FLIT_DISC (R444, R445): the peer and the version in force; sending resumes from the SEQ after the peer's ACK. [log 119 DEDUCED] -/
def flitDiscOp (m : Mach) (k : Nat) (h : FlitHdr) (d : Disc) : Mach :=
  m.flitPlain k h fun m =>
    if isHerdLink k && d.identity == m.herd.identity then
      ((m.modLink k fun l => { l with looped := true }).count (herdReg 0x41C) false).linkDown k
    else
      let first := (m.link k).peer.isNone
      let v := if d.version.toNat ≤ Config.linkVersion.toNat then d.version else Config.linkVersion
      let m := m.modLink k fun l => { l with peer := some d, version := if isHerdLink k then v else (if m.boot.linkVersion = 0 then v else m.boot.linkVersion) }
      let m := if first then m.forEach (m.link k).retry fun m x => m.flitOut k x.1 x.2 else m
      let m := m.linkPump k (m.link k).txq.length
      if isHerdLink k && first then m.floodTopo else m

/-! ### Topology, routes, Bellwether (R446 to R451) -/

/-- The record of module `n` where it is alive: this module's own, or the table's. -/
def liveRec (m : Mach) (n : Nat) : Option TopoRec :=
  if m.herd.attached && n == m.herd.module.toNat then some m.ownRecord
  else if (m.topoOf n).dead then none else (m.topoOf n).record

/-- The neighbours of a module, by its own record. -/
def neighbours (m : Mach) (n : Nat) : List Nat :=
  match m.liveRec n with
  | some r => ((r.ports.filter fun p => p.up && p.peer ≠ 511).map fun p => p.peer.toNat).filter fun v => (m.liveRec v).isSome
  | none => []

/-- Breadth-first distances: the nodes of `front` lie at distance `d`. -/
def bfs (nb : Nat → List Nat) (front : List Nat) (dist : FMap (Option Nat)) (d : Nat) : Nat → FMap (Option Nat)
  | 0 => dist
  | n + 1 =>
    let new := front.filter fun x => (FMap.get none dist x).isNone
    if new = [] then dist
    else bfs nb (new.map nb).flatten.eraseDups (new.foldl (fun acc x => FMap.set none acc x (some d)) dist) (d + 1) n

/-- The modules that this one reaches, and the level of each below the live module with the lowest number (R451). -/
def treeLevels (m : Mach) : FMap (Option Nat) :=
  let reach := bfs m.neighbours [m.herd.module.toNat] [] 0 1024
  match reach with
  | (root, _) :: _ => bfs m.neighbours [root] [] 0 1024
  | [] => []

/-- A hop climbs toward the root: to a lower level, or within a level to a lower number. -/
def climbs (lev : FMap (Option Nat)) (u v : Nat) : Bool :=
  match FMap.get none lev u, FMap.get none lev v with
  | some x, some y => decide (y < x) || (x == y && decide (v < u))
  | _, _ => false

/-- Hops of the shortest legal route to each module when the first hop leads to `v`: nodes carry whether the route still climbs (2 n)
or descends (2 n + 1). -/
def legalFrom (m : Mach) (lev : FMap (Option Nat)) (v : Nat) : FMap (Option Nat) :=
  let own := m.herd.module.toNat
  let nb (s : Nat) : List Nat :=
    (m.neighbours (s / 2)).filterMap fun x => if climbs lev (s / 2) x then (if s % 2 = 0 then some (2 * x) else none) else some (2 * x + 1)
  bfs nb [if climbs lev own v then 2 * v else 2 * v + 1] [] 1 2048

def hopsTo (f : FMap (Option Nat)) (n : Nat) : Option Nat :=
  match FMap.get none f (2 * n), FMap.get none f (2 * n + 1) with
  | some x, some y => some (min x y)
  | some x, none => some x
  | none, y => y

/-- UP herd ports with the module at their other end. -/
def upPorts (m : Mach) : List (Nat × Nat) :=
  (List.range 16).filterMap fun p =>
    let l := m.link (16 + p)
    match l.peer with
    | some d => if l.isUp && d.module ≠ 511 && (m.liveRec d.module.toNat).isSome then some (p, d.module.toNat) else none
    | none => none

/-- The routes to module `n` (R451): primary with the modules it crosses, equal first ports, alternate. [log 121 DEDUCED] -/
def routesTo (hops : List (Nat × Nat)) : Option (Nat × Nat) × List Nat × Option Nat :=
  match (hops.map (·.2)).min? with
  | none => (none, [], none)
  | some best =>
    let eq := (hops.filter fun x => x.2 == best).map (·.1)
    let p := eq.headD 0
    let rest := hops.filter fun x => x.1 ≠ p
    let alt := match (rest.map (·.2)).min? with
      | some b => (rest.find? fun x => x.2 == b).map (·.1)
      | none => none
    (some (p, best - 1), eq, alt)

/-- Lowest IDENTITY among candidates: this module's own, and those of live records (R446, R448). [log 121 DEDUCED] -/
def elect (m : Mach) : Mach :=
  let others := m.herd.topo.filterMap fun (n, e) => match e.record with
    | some r => if !e.dead && r.bellCand then some (r.identity.toNat, if n < 511 then n else 511) else none
    | none => none
  let ports := (List.range 16).filterMap fun p => match (m.link (16 + p)).peer with
    | some d => if (m.link (16 + p)).isUp && d.bellCand then some (d.identity.toNat, d.module.toNat) else none
    | none => none
  let all := others ++ ports
  let low := (all.map (·.1)).min?
  let mine := m.bellCand && (match low with | some x => decide (m.herd.identity.toNat ≤ x) | none => true)
  let num := if mine then (if m.herd.attached then m.herd.module.toNat else 511)
             else match low with
               | some x => (((all.filter fun y => y.1 == x).map (·.2)).min?).getD 511
               | none => 511
  m.modHerd fun h => { h with bellwether := mine, bellModule := BitVec.ofNat 9 num }

/-- ROUTE_COMPUTE (R451, R462, R448). -/
def routeComputeOp (m : Mach) : Mach :=
  let m := m.elect
  if !m.herd.attached then m
  else
    let lev := m.treeLevels
    let ways := m.upPorts.map fun (p, v) => (p, m.legalFrom lev v)
    let m := m.forEach (m.herd.topo.filter fun x => decide (x.1 < 511)) fun m (n, e) =>
      if e.dead || e.record.isNone || n == m.herd.module.toNat then m
      else
        let hops := ways.filterMap fun (p, f) => (hopsTo f n).map fun h => (p, h)
        let (route, ports, alt) := routesTo hops
        let m' := m.setTopo n { e with route := route, ports := ports, alt := alt }
        let m' := if e.route ≠ route && route.isSome then m'.count (herdReg 0x410) false else m'
        if route.isNone then m'.moduleDead n else m'
    m.elect

/-- The IDENTITY of the Bellwether of this module's set, and of the set that a record comes from where it is another one. [log 209 DEDUCED] -/
def setBells (m : Mach) (r : TopoRec) : Option Nat × Option Nat :=
  let ours := if m.herd.bellwether then some m.herd.identity.toNat else ((m.topoOf m.herd.bellModule.toNat).record.map fun x => x.identity.toNat)
  let theirs := if r.bellwether then some r.identity.toNat else
    (m.herd.topo.filterMap fun (_, e) => match e.record with
      | some x => if x.bellwether && some x.identity.toNat ≠ ours then some x.identity.toNat else none
      | none => none).min?
  (ours, theirs)

/-- A module of a set whose Bellwether has a lower IDENTITY holds this module's number (R449). [log 209 DEDUCED] -/
def numberTaken (m : Mach) (r : TopoRec) : Bool :=
  m.herd.attached && r.module == m.herd.module && r.identity ≠ m.herd.identity &&
    (match m.setBells r with | (some x, some y) => decide (y < x) | (none, some _) => true | (_, none) => false)

/-- A record of the other set names a number that a module of this set holds, and this set prevails (R449). [log 209 DEDUCED] -/
def numberLost (m : Mach) (r : TopoRec) : Bool :=
  let e := m.topoOf r.module.toNat
  r.module ≠ 511 && !e.dead && (match e.record with | some x => x.identity ≠ r.identity | none => false) &&
    (match m.setBells r with | (some x, some y) => decide (x < y) | _ => false)

/-- FLIT_TOPO (R450, R446, R449). [log 120 DEDUCED] -/
def flitTopoOp (m : Mach) (k : Nat) (h : FlitHdr) (r : TopoRec) : Mach :=
  m.flitSeq k h fun m =>
    if r.identity = m.herd.identity ∨ m.numberLost r then m
    else
      let e := m.topoOf (topoKey r)
      let newer := match e.record with | some x => decide (x.seq < r.seq) || x.identity ≠ r.identity | none => true
      if !newer then m
      else
        let m := if m.numberTaken r then
            (m.modHerd fun h => { h with module := 511, attached := false }).count (herdReg 0x41C) true
          else m
        let m := m.setTopo (topoKey r) { e with record := some r, dead := false }
        let m := if r.module ≠ 511 then m.setTopo (512 + r.identity.toNat) {} else m
        m.floodRecord r (if isHerdLink k then some (k - 16) else none)

/-- TOPO_TIMER. -/
def topoTimerOp (m : Mach) : Mach := m.floodTopo

/-! ### Multicast (R459 to R461) -/

/-- The tree parent of a module: its neighbour of the level above with the lowest number. -/
def treeParent (m : Mach) (lev : FMap (Option Nat)) (n : Nat) : Option Nat :=
  match FMap.get none lev n with
  | some (x + 1) => ((m.neighbours n).filter fun v => FMap.get none lev v == some x).min?
  | _ => none

/-- The herd ports to this module's tree neighbours. -/
def treePorts (m : Mach) : List (Nat × Nat) :=
  let lev := m.treeLevels
  let own := m.herd.module.toNat
  let nbs := ((m.neighbours own).eraseDups).filter fun v => m.treeParent lev own == some v || m.treeParent lev v == some own
  nbs.filterMap fun v => (m.upPorts.find? fun x => x.2 == v)

/-- The module is a member of a multicast group. -/
def mcMember (m : Mach) (g : Nat) : Bool := m.herd.attached && m.mcGroups.getLsbD g

/-- A multicast line for this member: written at DST, or dropped where DST is unpopulated or not ON; false where its home is busy. -/
def mcWrite (m : Mach) (dst : Nat) (d : BitVec 512) (poison : Bool) : Bool × Mach :=
  match m.target dst with
  | .home sa =>
    if m.targetDead (.home sa) then (true, m.count (herdReg 0x418) true)
    else if m.homeFree (sa / 64) true then (true, m.writeNow ingressAgent (sa / 64) d fullMask poison none false)
    else (false, m.homeChase ingressAgent (sa / 64) true)
  | .flock fb pa =>
    if m.targetDead (.flock fb pa) then (true, m.count (herdReg 0x418) true)
    else if m.targetHeld (.flock fb pa) then (false, m)
    else (true, m.flockWrite none fb (dst / 64) d fullMask poison)
  | _ => (true, m.count (herdReg 0x418) true)

/-- The message that carries a multicast line. -/
def mcMsg (src : BitVec 9) (dst : Nat) (group : Nat) (d : BitVec 512) (poison : Bool) : HerdMsg :=
  { kind := .multicast, src := src, dst := 511, num := 0, agent := 0, addr := BitVec.ofNat 46 dst, code := BitVec.ofNat 10 group, data := d, cmp := 0,
    mask := fullMask, poison := poison, tail := false, hops := 0 }

/-- Multicast data reaches the module: it goes on along the tree, and a member writes it after earlier data of the same source. [log 124 DEDUCED] -/
def mcastReceiveOp (m : Mach) (p : Nat) (src : BitVec 9) (dst group : Nat) (d : BitVec 512) (poison : Bool) : Mach :=
  let msg := mcMsg src dst group d poison
  let m := m.forEach m.treePorts fun m (q, _) => if q = p then m else m.linkPush (16 + q) (.msg (.herd [msg]))
  if !m.mcMember group then m
  else if m.herd.inbox.any fun x => x.kind == .multicast && x.src == src then m.modHerd fun h => { h with inbox := h.inbox ++ [msg] }
  else
    let (ok, m) := m.mcWrite dst d poison
    if ok then m else m.modHerd fun h => { h with inbox := h.inbox ++ [msg] }

/-- Sends the lines of a multicast that have not left, while their homes are free; a sending member writes them too. -/
def mcPump (m : Mach) : Nat → Mach
  | 0 => m
  | n + 1 =>
    match m.herd.mcast with
    | [] => m
    | (s, t) :: rest =>
      match m.target s with
      | .home sa =>
        if !m.homeFree (sa / 64) false then m.homeChase ingressAgent (sa / 64) false
        else
          let ((d, p), m) := m.readNow ingressAgent (sa / 64) false
          let msg := mcMsg m.herd.module t m.herd.mcastGroup d p
          let m := m.forEach m.treePorts fun m (q, _) => m.linkPush (16 + q) (.msg (.herd [msg]))
          let m := m.modHerd fun h => { h with mcast := rest }
          let m := if m.herd.mcastSelf && m.mcMember m.herd.mcastGroup then
              (if (m.mcWrite t d p).1 then (m.mcWrite t d p).2 else m.modHerd fun h => { h with inbox := h.inbox ++ [msg] })
            else m
          mcPump m n
      | _ => mcPump (m.modHerd fun h => { h with mcast := rest }) n

/-- A write of MCAST_SEND (Table 14-7): refused, counting BAD_WRITE, or begun. -/
def mcastSendWrite (m : Mach) (v : BitVec 256) : Mach :=
  let w (i : Nat) : Nat := Bits.nfield v.toNat (64 * i) 64
  let src := w 0
  let dst := w 1
  let n := w 2 % 128 + 1
  let inHbm (i : Nat) : Bool := match m.target (src + 64 * i) with | .home sa => !isDeep sa | _ => false
  if m.herd.mcastBusy || src ≥ 2 ^ 56 || dst ≥ 2 ^ 46 || Bits.nfield (w 2) 7 1 ≠ 0 || Bits.nfield (w 2) 13 51 ≠ 0 || w 3 ≠ 0 || src % 64 ≠ 0 || dst % 64 ≠ 0
      || !((List.range n).all inHbm) then m.badWrite (herdReg 0)
  else (m.modHerd fun h => { h with mcastBusy := true, mcast := (List.range n).map fun i => (src + 64 * i, dst + 64 * i),
                                    mcastGroup := Bits.nfield (w 2) 8 4, mcastSelf := Bits.nbit (w 2) 12 }).mcPump n

/-- MCAST_SEND_DONE: the last line has left on every tree port. -/
def mcastSendDoneOp (m : Mach) : Mach :=
  let m := m.mcPump (m.herd.mcast.length + 1)
  if m.herd.mcast = [] then m.modHerd fun h => { h with mcastBusy := false } else m

/-! ### Messages of MSG flits (R437, R452) -/

/-- A herd message arrives at a herd port: for this module, or to be forwarded. [log 116 DESIGN CHOICE] -/
def herdArrive (m : Mach) (p : Nat) (h : HerdMsg) : Mach :=
  if (m.topoOf h.src.toNat).dead then m
  else if h.kind = .multicast then m.mcastReceiveOp p h.src h.addr.toNat (h.code.toNat % 16) h.data h.poison
  else if m.herd.attached && h.dst == m.herd.module then m.modHerd fun x => { x with inbox := x.inbox ++ [h] }
  else if 15 ≤ h.hops then m.count (herdReg 0x418) false
  else m.herdSend { h with hops := h.hops + 1 }

/-- FLIT_MSG. [log 116 DESIGN CHOICE] -/
def flitMsgOp (m : Mach) (k : Nat) (h : FlitHdr) (b : FlitMsgs) : Mach :=
  m.flitSeq k h fun m =>
    let owe (u : FMap Nat) : FMap Nat := (flitSlots (.msg b)).foldl (fun u (c, n) => FMap.set 0 u c (FMap.get 0 u c + n)) u
    let m := m.modLink k fun l => { l with owed := owe l.owed }
    match b with
    | .herd ms => if isHerdLink k then m.forEach ms fun m x => m.herdArrive (k - 16) x else m
    | .slots _ _ => m

/-- IDLE_SEND. -/
def idleSendOp (m : Mach) (k : Nat) : Mach := if (m.link k).isUp && (m.link k).txq.isEmpty then m.flitSend k 0 (m.link k).txSeq (.idle k) else m

/-! ### Training events (R438 to R440, R589) -/

def laneLockLossOp (m : Mach) (k : Nat) (lane : Nat) : Mach :=
  if (m.link k).isUp && decide (lane < (linkLanes k).1 + (linkLanes k).2) then m.linkTrain k else m
/-- No flit with a good CRC has arrived for 100 µs. -/
def linkSilenceOp (m : Mach) (k : Nat) : Mach := if (m.link k).isUp && decide ((m.link k).lastGood + 50000 ≤ m.now) then m.linkTrain k else m

/-- RETRAIN of LINK_CTL: a DOWN on-module link trains only during a host-stepped procedure (R440). [log 118 DEDUCED] -/
def linkRetrainOp (m : Mach) (k : Nat) : Mach :=
  let l := m.link k
  if l.isUp then m.linkTrain k
  else if l.state == .down && m.linkFree k && (isHerdLink k || m.boot.svcBusy.isSome) then m.linkTrain k
  else m

/-- HOLD_DOWN of LINK_CTL. -/
def holdDownOp (m : Mach) (k : Nat) (hold : Bool) : Mach :=
  let m := m.modLink k fun l => { l with held := hold, looped := l.looped && hold }
  if hold then m.linkDown k else m

/-- TRAINING_DONE (R439): spares take failed lanes, lowest first; too few good lanes narrow the link; fewer than its least width take it
DOWN. -/
def trainingDoneOp (m : Mach) (k : Nat) (failed : BitVec 34) : Mach :=
  if (m.link k).state ≠ .training then m
  else
    let (w, s) := linkLanes k
    let bad (lo n : Nat) : Nat := ((List.range n).filter fun i => failed.getLsbD (lo + i)).length
    let spares := s - bad w s
    let used := min spares (bad 0 w)
    let good := w - bad 0 w + used
    let old := (m.link k).sparesUsed.toNat
    let m := m.modLink k fun l => { l with failedLanes := failed &&& BitVec.ofNat 34 (2 ^ (w + s) - 1), sparesUsed := BitVec.ofNat 2 used }
    let m := m.countN (linkReg k 0x14) true (used - old)
    match (linkWidths k).find? fun x => decide (x ≤ good) with
    | none => m.linkDown k
    | some x =>
      let m := m.modLink k fun l => { l with state := if x = w then .up else .upDegraded, width := BitVec.ofNat 6 x, lastGood := m.now }
      let m := if x = w then m else m.linkTel k
      let m := m.flitSend k 3 (m.link k).txSeq fun h => .disc k h (discWord (m.ownDisc k))
      if isHerdLink k then m.floodTopo else m

/-- TRAIN_TIMEOUT. -/
def trainTimeoutOp (m : Mach) (k : Nat) : Mach := if (m.link k).state == .training then m.linkDown k else m

/-- HERD_RETRY. -/
def herdRetryOp (m : Mach) (p : Nat) : Mach := if (m.link (16 + p)).state == .down && m.linkFree (16 + p) then m.linkTrain (16 + p) else m

/-- CABLE_PRESENT (R589). [log 119 DEDUCED] -/
def cablePresentOp (m : Mach) (p : Nat) (present : Bool) : Mach :=
  let m := m.modLink (16 + p) fun l => { l with cable := present, looped := l.looped && present == l.cable }
  if present then m.herdRetryOp p else m.linkDown (16 + p)

/-! ### The herd ingress (R453, R454, R457, R458) -/

/-- An atomic of the ingress, performed at its home: the element's old value, or none where the line is poisoned. [log 123 DEDUCED] -/
def atmNow (m : Mach) (e : AqEntry) : Option Nat × Mach :=
  let (_, m) := m.homeNow { kind := .atm, agent := e.agent, line := e.line }
  let ((d, p), m) := m.homeData e.line 1 false
  if p then (none, m)
  else
    let (old, d') := aqApply d e
    (some old, (m.homeWrite e.line d' fullMask false false).clearResv (some e.agent) e.line)

/-- An answer to a request, with data. -/
def answerOf (m : Mach) (h : HerdMsg) (k : HerdKind) (d : BitVec 512) (poison : Bool) : HerdMsg :=
  { kind := k, src := m.herd.module, dst := h.src, num := h.num, agent := h.agent, addr := h.addr, code := 0, data := d, cmp := 0,
    mask := if k == .dataRsp then fullMask else if k == .result then byteMask 0 8 else 0, poison := poison, tail := false, hops := 0 }

/-- Performs request `h`: the kind, data and poison of its answer, or none where its home cannot serve it now. [log 123 DEDUCED] -/
def ingressDo (m : Mach) (h : HerdMsg) : Option (HerdKind × BitVec 512 × Bool) × Mach :=
  let pa := h.addr.toNat
  let line := pa / 64
  let loc : Loc := .herd h.src.toNat
  let obj := h.addr.toNat % 0x8000
  let d := obj / 4096 - 1
  let who : Nat := h.src.toNat * 0x2000 + h.agent.toNat
  let local_ (f : Target → Option (HerdKind × BitVec 512 × Bool) × Mach) : Option (HerdKind × BitVec 512 × Bool) × Mach :=
    let t := m.target pa
    if m.targetDead t then (some (.dead, 0, false), m)
    else if m.targetHeld t then (none, m)
    else match t with
      | .home sa =>
        if (if h.kind = .read then m.homeFree (sa / 64) false else m.homeReady (sa / 64) (if h.kind = .amo then 0 else h.mask) false) then f t
        else (none, m.homeChase ingressAgent (sa / 64) (h.kind ≠ .read) true)
      | .flock _ _ => f t
      | .bad c => (some (.addrError, 0, false), m.addrError c ingressAgent)
      | _ => (some (.addrError, 0, false), m.addrError .nowhere ingressAgent)
  match h.kind with
  | .read => local_ fun t => match t with
    | .home sa => let ((v, p), m) := m.readNow ingressAgent (sa / 64) false; (some (.dataRsp, v, p), m)
    | .flock fb _ => let ((v, p), m) := m.fmRead fb line; (some (.dataRsp, v, p), m)
    | _ => (some (.addrError, 0, false), m)
  | .write => local_ fun t => match t with
    | .home sa => (some (.completion, 0, false), m.writeNow ingressAgent (sa / 64) h.data h.mask h.poison none false)
    | .flock fb _ => (some (.completion, 0, false), m.flockWrite none fb line h.data h.mask h.poison)
    | _ => (some (.addrError, 0, false), m)
  | .amo => local_ fun t => match t with
    | .home sa =>
      if h.poison then (some (.result, 0, false), m.writeNow ingressAgent (sa / 64) h.data h.mask true none false) else
      let (old, m) := m.atmNow { agent := ingressAgent, line := sa / 64, code := h.code.toNat, off := pa % 64, arg := h.data, cmp := h.cmp, mask := h.mask, stamp := 0 }
      (match old with
        | some x => (some (.result, placeField x (pa % 64), false), m)
        | none => (some (.poison, 0, false), m))
    | _ => (some (.addrError, 0, false), m.addrError .nowhere ingressAgent)
  | .sadd | .sread | .swait =>
    if obj / 4096 = 0 ∨ 4 < obj / 4096 then (some (.addrError, 0, false), m)
    else if m.dieOut d then (some (.dead, 0, false), m)
    else match h.kind with
      | .sadd =>
        let (old, m) := m.syncAdd d (obj % 4096) (h.data.toNat % 65536) (h.code.toNat % 4) loc
        (some (.result, BitVec.ofNat 512 old.toNat, false), m)
      | .sread => (some (.result, BitVec.ofNat 512 (m.syncObj d (obj % 4096)).count.toNat, false), m)
      | _ =>
        let m := m.herdSend (m.answerOf h .receipt 0 false)
        (some (.receipt, 0, false), m.syncWait d (obj % 4096) (BitVec.ofNat 24 h.data.toNat) (BitVec.ofNat 2 h.code.toNat) (.remote who h.num))
  | _ => (none, m)

/-- Sends again the answer of a request that has been issued: a read is performed again, and other results are those kept (R454). -/
def ingressAgain (m : Mach) (h : HerdMsg) : Mach :=
  let drop (m : Mach) : Mach := m.modHerd fun x => { x with inbox := x.inbox.erase h }
  if h.kind = .read then
    match m.ingressDo h with
    | (some (k, d, p), m) => (drop m).herdSend (m.answerOf h k d p)
    | (none, m) => m
  else match (FMap.get {} m.herd.ingress h.src.toNat).kept.find? fun x => x.1 == h.num with
    | some (_, a) => (drop m).herdSend a
    | none => drop m

/-- A request that has been issued lands: its answer is kept, but for a read's data, and sent. -/
def ingressReply (m : Mach) (h : HerdMsg) (kind : HerdKind) (d : BitVec 512) (p : Bool) : Mach :=
  let a := m.answerOf h kind d p
  if h.kind = .read then m.herdSend a else (m.keepAnswer a).herdSend a

/-- Request `h` waits for earlier ones of its source among `es`: for one to its line, and as a TAIL write for every write (R314, R456). -/
def ingressWaits (es : List HerdMsg) (h : HerdMsg) : Bool :=
  let mem := h.kind == .read || h.kind == .write || h.kind == .amo
  mem && es.any fun e => e.src == h.src && (e.addr.toNat / 64 == h.addr.toNat / 64 || (h.tail && e.kind ≠ .read))

/-- The `j`-th request that was issued and has not landed is tried again (R454). [log 124 DEDUCED] -/
def issuedRun (m : Mach) (j : Nat) : Mach :=
  match m.herd.issued[j]? with
  | none => m
  | some h =>
    if ingressWaits (m.herd.issued.take j) h then m
    else match m.ingressDo h with
      | (none, m) => m
      | (some (kind, d, p), m) => (m.modHerd fun x => { x with issued := x.issued.eraseIdx j }).ingressReply h kind d p

/-- HERD_REQUEST: serves the `k`-th message received: issued in number order for each source module, once (R454); those after the messages
received are the requests that have been issued and have not landed. [log 124 DEDUCED] -/
def herdRequestOp (m : Mach) (k : Nat) : Mach :=
  match m.herd.inbox[k]? with
  | none => m.issuedRun (k - m.herd.inbox.length)
  | some h =>
    let drop (m : Mach) : Mach := m.modHerd fun x => { x with inbox := x.inbox.eraseIdx k }
    let src := h.src.toNat
    match h.kind with
    | .multicast =>
      if (m.herd.inbox.take k).any fun x => x.kind == .multicast && x.src == h.src then m
      else
        let (ok, m) := m.mcWrite h.addr.toNat h.data h.poison
        if ok then drop m else m
    | .read | .write | .amo | .sadd | .sread | .swait =>
      let g := FMap.get {} m.herd.ingress src
      if h.num < g.next then m.ingressAgain h
      else if g.next < h.num then m
      else
        let advance (m : Mach) : Mach := m.modHerd fun x =>
          { x with ingress := FMap.set {} x.ingress src { FMap.get {} x.ingress src with next := h.num + 1 } }
        -- the number is entered first: a wait satisfied at once then replaces the receipt that is kept
        let early := if h.kind = .swait then m.keepAnswer (m.answerOf h .receipt 0 false) else m
        let issue (m : Mach) : Mach := (drop (advance m)).modHerd fun x => { x with issued := x.issued ++ [h] }
        if ingressWaits m.herd.issued h then issue m
        else match early.ingressDo h with
          | (none, m) => issue m
          | (some (kind, d, p), m) =>
            let m := drop (advance m)
            if h.kind = .swait && kind == .receipt then m else m.ingressReply h kind d p
    | _ => m

/-- HERD_RESPONSE: an answer or receipt reaches its source. [log 96 DEDUCED] -/
def herdResponseOp (m : Mach) (k : Nat) : Mach :=
  match m.herd.inbox[k]? with
  | none => m
  | some h =>
    match h.kind with
    | .dataRsp | .completion | .result | .receipt | .addrError | .poison | .dead =>
      let m := m.modHerd fun x => { x with inbox := x.inbox.eraseIdx k }
      let hit (o : OutReq) : Bool := o.msg.dst == h.src && o.msg.num == h.num
      match m.herd.unanswered.find? hit with
      | none => m
      | some o =>
        if h.kind = .receipt then m.modHerd fun x => { x with unanswered := x.unanswered.map fun y => if hit y then { y with receipt := true } else y }
        else
          let m := m.modHerd fun x => { x with unanswered := x.unanswered.filter fun y => !hit y }
          (m.herdDeliver o h.kind h.data h.poison).herdRoom h.src 128
    | _ => m

/-- HERD_RESEND: a request has waited 1 ms without an answer or receipt (R455). -/
def herdResendOp (m : Mach) (n : Nat) : Mach :=
  if m.herd.unanswered.any fun o => o.msg.dst.toNat == n && !o.receipt && decide (o.sentAt + 500000 ≤ m.now) then m.herdResend n else m

/-! ### Attach (R446, R447) -/

/-- The number that the Bellwether gives itself: PREF_NUM if it is free, else the lowest free one. -/
def ownNumber (m : Mach) : Nat :=
  let pref := m.fld (herdReg 0x408) 0 9
  let taken (n : Nat) : Bool := (m.topoOf n).record.isSome && !(m.topoOf n).dead
  if pref ≠ 511 && !taken pref then pref else ((List.range 511).find? fun n => !taken n).getD 511

/-- ATTACH, and the attach of stage 9: the module takes the number that its Bellwether gives it, or remains unattached. [log 179 DEDUCED] -/
def attachOp (m : Mach) (granted : Option (BitVec 9)) : Mach :=
  let m := m.elect
  if m.herd.attached then m
  else
    let n := if m.herd.bellwether then some (BitVec.ofNat 9 m.ownNumber) else if m.herd.bellModule = 511 && granted.isNone then none else granted
    match n with
    | some x =>
      if x = 511 then m.modHerd fun h => { h with attaching := true }
      else
        let m := m.modHerd fun h => { h with module := x, attached := true, attaching := false }
        m.elect.floodTopo
    | none => m.modHerd fun h => { h with attaching := true }

/-- HERD_STATUS (Table 14-13). -/
def herdStatus (m : Mach) : Nat :=
  let h := m.herd
  (if h.attached then h.module.toNat else 511) + Bits.ofBool h.attached * 0x200 + Bits.ofBool h.bellwether * 0x400 + h.bellModule.toNat * 0x800
    + Bits.ofBool h.mcastBusy * 0x100000

/-- The topology entry for module `n`. -/
def topoWord (m : Mach) (n : Nat) : Nat :=
  let e := if m.herd.attached && n == m.herd.module.toNat then { record := some m.ownRecord } else m.topoOf n
  let r := e.record
  Bits.ofBool r.isSome + Bits.ofBool e.dead * 2 + Bits.ofBool e.route.isSome * 4 + (e.route.map (·.1)).getD 0 * 8 + e.alt.getD 0 * 0x80
    + Bits.ofBool e.alt.isSome * 0x800 + (e.route.map (·.2)).getD 0 * 0x1000 + (r.map fun x => x.groups.toNat).getD 0 * 0x10000
    + (r.map fun x => x.identity.toNat % 2 ^ 32).getD 0 * 2 ^ 32

/-- LINK_CTL (Table 14-9). [log 118 DEDUCED] -/
def linkCtlWrite (m : Mach) (k : Nat) (w : BitVec 32) : Mach :=
  let m := if w.getLsbD 17 then m.holdDownOp k (w.getLsbD 1) else m
  if w.getLsbD 16 && w.getLsbD 0 then m.linkRetrainOp k else m

end Mach
end Machine
end Sys2Proof
end

