-- ==== Sys2Proof/Machine/PowerOps.lean ====
section
/-!
DEFINITION. The site beat (R34 to R43), operating points, retention and power domains (R44 to R50), the governor (R51 to R55), the
grant of upward steps at the load slot (R40 to R42, R60), lean state (R64 to R67, R74) and the save engine (R63, R68 to R76).
-/
namespace Sys2Proof
namespace Machine

/-! ### Entries (Table 2-5) -/

namespace Sched

def beat (w : BitVec 64) : Nat := Bits.nfield w.toNat 0 24
def angle (w : BitVec 64) : Nat := Bits.nfield w.toNat 24 16
def action (w : BitVec 64) : Nat := Bits.nfield w.toNat 40 4
def arg (w : BitVec 64) : Nat := Bits.nfield w.toNat 44 12
def rep (w : BitVec 64) : Nat := Bits.nfield w.toNat 56 4
def valid (w : BitVec 64) : Bool := w.getLsbD 63

/-- The entry's time is reached at beat number `b` and angle `x` (R57). -/
def reached (w : BitVec 64) (b x : Nat) : Bool := decide ((b * 65536 + x + 2 ^ 40 - (beat w * 65536 + angle w)) % 2 ^ 40 < 2 ^ 39)

/-- The order of entries by their times, seen at beat position `p` (beat number × 65536 + angle): a time less than 2^23 beats behind comes
before those ahead (R57). -/
def order (w : BitVec 64) (p : Nat) : Nat := (beat w * 65536 + angle w + 2 ^ 40 + 2 ^ 39 - p % 2 ^ 40) % 2 ^ 40

/-- The entry after it has run at beat number `b` and angle `x`: a once entry clears VALID; a repeating one goes on from its first
occurrence that the beat has not reached (R36, R57). -/
def after (w : BitVec 64) (b x : Nat) : BitVec 64 :=
  if rep w = 0 then w &&& ~~~(1#64 <<< 63)
  else
    let p := 2 ^ (rep w - 1)
    let gone := (b + 2 ^ 24 - beat w) % 2 ^ 24
    let k := if p ≤ gone ∧ gone % p = 0 ∧ x < angle w then gone / p else gone / p + 1
    let next := (beat w + k * p) % 2 ^ 24
    (w &&& ~~~(0xFFFFFF#64)) ||| BitVec.ofNat 64 next

end Sched

namespace Mach

/-! ### Limits of the variant, and the caps (Table 0-1, R51) -/

/-- The variant's highest operating point. -/
def variantTop (m : Mach) : Nat := match m.fused.variant.toNat with | 0 => 7 | 1 => 5 | _ => 3

/-- The variant's power cap in W. -/
def variantCap (v : Nat) : Nat := match v with | 0 => 1100 | 1 => 850 | _ => 600

/-- The effective cap, in 0.1 mW. -/
def effCap (m : Mach) : Nat :=
  let c := min (m.fld (pwrReg 0x10) 0 11) (m.fld (pwrReg 0x10) 11 11)
  10000 * (if m.site.cap = 0 then c else min c (m.site.cap.toNat * 5))

/-- The 1 ms average of input power, and of an A-die's power, in 0.1 mW. [log 33 DESIGN CHOICE] -/
def avgMs (m : Mach) : Nat := m.gov.samples.sum / 1000
def dieAvgMs (m : Mach) (d : Nat) : Nat := (FMap.get [] m.gov.dieSamples d).sum / 1000

/-- The 1 ms average is at or below the effective cap less HEADROOM (R55). -/
def headroomOk (m : Mach) : Bool := decide (m.avgMs * 100 ≤ m.effCap * (100 - m.fld (pwrReg 0x18) 5 5))

/-! ### The beat (R34 to R39) -/

/-- Entries of action 0 whose time has been reached have run (R57). -/
def idleEntries (m : Mach) (b : Nat) : Mach :=
  { m with sched := m.sched.foldl (fun f p =>
      if Sched.valid p.2 && Sched.action p.2 = 0 && Sched.reached p.2 b 0 then FMap.set 0 f p.1 (Sched.after p.2 b 0) else f) m.sched }

/-- A new beat begins: the number advances, the slot received in the last word takes effect (R39), and the beat's average power is
taken (PWR_NOW). -/
def newBeat (m : Mach) : Mach :=
  let m := m.modGov fun g => { g with beatAvg := g.beatSum / g.beatCount, beatSum := 0, beatCount := 0 }
  let m := m.idleEntries ((m.beat.number + 1).toNat)
  { m with beat := { m.beat with number := m.beat.number + 1, slot := m.beat.nextSlot, slotDone := false,
                                 sinceUp := min 16 (m.beat.sinceUp + 1) } }

/-- BEAT_WRAP: the end of the measured period. -/
def beatWrapOp (m : Mach) : Mach :=
  let z := m.beat.zero + m.beat.period
  let m := (m.advance z).newBeat
  { m with beat := { m.beat with zero := z } }

/-- A period that R34 accepts: 80 to 140 beats/s. -/
def periodOk (p : Nat) : Bool := decide (3571429 ≤ p ∧ p ≤ 6250000)

/-- Periods that agree within 2 % of one another. -/
def agree (ps : List Nat) : Bool := ps.all fun p => ps.all fun q => decide (p * 100 ≤ q * 102)

/-- Puts `x` into a list before the first element that `p` marks. -/
def insertBefore {α : Type} (p : α → Bool) (x : α) (l : List α) : List α := l.takeWhile (fun y => !p y) ++ x :: l.dropWhile fun y => !p y

/-- BEAT_EDGE at time `t`, its pulse high for `high` cycles (R34, R37, R591). [log 26 DEDUCED] -/
def beatEdgeOp (m : Mach) (t high : Nat) : Mach :=
  let m := m.advance t
  let b := m.beat
  if high < 1000 then m
  else if b.locked then
    let d := t - b.ref
    if 8 * d < 7 * b.period ∨ 9 * b.period < 8 * d then { m with beat := { b with lastEdge := some t } }.count (pwrReg 0x34) true
    else
      let p := match b.lastAccepted with
        | some e => if periodOk (t - e) then t - e else b.period
        | none => b.period
      let m := if b.zero = b.ref then m.newBeat else m
      { m with beat := { m.beat with zero := t, ref := t, lastAccepted := some t, lastEdge := some t, period := p, missing := 0, wordDue := true, wordLate := false } }
  else
    let ps := match b.lastEdge with
      | some e => if periodOk (t - e) then (t - e) :: b.periods.take 3 else []
      | none => []
    if ps.length = 4 ∧ agree ps then
      let m := m.newBeat
      { m with beat := { m.beat with locked := true, lost := false, zero := t, ref := t, lastAccepted := some t, lastEdge := some t,
                                     period := ps.headD 0, periods := [], missing := 0, wordDue := true,
                                     wordLate := false } }
    else { m with beat := { b with lastEdge := some t, periods := ps, wordDue := true, wordLate := false } }

/-- MISSING_EDGE: the window of R34 ends with no edge accepted (R38). [log 27 DEDUCED] -/
def missingEdgeOp (m : Mach) : Mach :=
  if !m.beat.locked then m
  else
    let stop := m.beat.ref + m.beat.period * 9 / 8
    let m := if m.beat.zero = m.beat.ref then m.beatWrapOp else m
    let m := m.advance stop
    let b := m.beat
    let m := { m with beat := { b with ref := b.zero, missing := b.missing + 1 } }
    if b.missing + 1 < 3 then m
    else
      let m := { m with beat := { m.beat with locked := false, lost := true, periods := [], missing := 0 } }
      (m.count (pwrReg 0x30) false).telRecord 0 4 (dieAgent 0) [BitVec.ofNat 64 m.beat.period]

/-- WORD_TIMEOUT (R35). -/
def wordTimeoutOp (m : Mach) : Mach :=
  if !m.beat.wordDue then m
  else
    let from_ := if m.beat.locked then m.beat.zero else m.beat.lastEdge.getD m.now
    let m := m.advance (from_ + m.beat.period / 16)
    { m with beat := { m.beat with wordDue := false, wordLate := true } }.count (pwrReg 0x34) false

/-! ### Steps of the operating point (R44, R45) -/

/-- The die holds an operating point (R53). -/
def holdsPoint (m : Mach) (d : Nat) : Bool := Die.running (m.die d)

/-- The point the die moves toward (R45, R66). -/
def opGoal (m : Mach) (d : Nat) : Nat :=
  if m.inLean then 0 else min (m.die d).targetOp.toNat (min (m.die d).enfOp.toNat m.variantTop)

/-- A die above its goal falls one point, at once, unless a step is in progress. [log 28 DEDUCED] -/
def opSettle (m : Mach) (d : Nat) : Mach :=
  let x := m.die d
  if m.holdsPoint d && !x.stepUp && !x.stepDown && decide (m.opGoal d < x.curOp.toNat) then m.setDie d { x with curOp := x.curOp - 1, stepDown := true }
  else m

/-- The place of a step among requests written in the same mclk cycle: die number, then domain number; a step of a whole die, or of the
application-core clock, goes before the domains of its die (R60). [log 186 DESIGN CHOICE] -/
def upRank : UpReq → Nat
  | .clk => 0
  | .cluster c => 3 + c.val
  | .ret d => 64 * (d.val + 1) + 1
  | .op d => 64 * (d.val + 1) + 2
  | .domain d dom => 64 * (d.val + 1) + 3 + dom.val

/-- The request is held. -/
def asked (m : Mach) (r : UpReq) : Bool := m.gov.requests.any fun q => q.req == r

/-- Adds a request for an upward step, unless it is held already (R60). [log 186 DESIGN CHOICE] -/
def askUp (m : Mach) (r : UpReq) : Mach :=
  if m.asked r then m
  else m.modGov fun g =>
    { g with requests := insertBefore (fun q => q.since == m.now && decide (upRank r < upRank q.req)) { since := m.now, req := r } g.requests }

/-- Cancels a held request, and a held scheduler entry for the same step (R57, R60). [log 35 DEDUCED, 182 DEDUCED] -/
def dropUp (m : Mach) (r : UpReq) : Mach :=
  m.modGov fun g => { g with requests := g.requests.filter fun x => x.req ≠ r, held := g.held.filter fun x => x.req ≠ r }

/-- A write of TARGET_OP (R45, R60): a raise is held, a lowering takes effect at once. [log 39 DESIGN CHOICE] -/
def targetOpOp (m : Mach) (d : Fin 4) (v : Nat) : Mach :=
  if (m.die d.val).dead then m
  else if m.variantTop < v then m.badWrite (mgmtReg d.val 0x100)
  else
    let m := m.modDie d.val fun x => { x with targetOp := BitVec.ofNat 3 v }
    if (m.die d.val).curOp.toNat < v then m.askUp (.op d) else (m.dropUp (.op d)).opSettle d.val

/-! ### The end of lean state's steps (R74, R514) -/

/-- The point that the resume steps take a die to. -/
def resumeGoal (m : Mach) (d : Nat) : Nat := min (m.die d).resumeOp.toNat (min (m.die d).targetOp.toNat (m.die d).enfOp.toNat)

/-- The die has a point to rise in the resume steps. -/
def resumes (m : Mach) (d : Nat) : Bool := m.holdsPoint d && decide ((m.die d).curOp.toNat < m.resumeGoal d)

/-- TARGET_CLK. -/
def targetClk (m : Mach) : Nat := m.fld (pwrReg 0x60) 0 4

/-- The resume steps have ended: STATE returns to normal. -/
def leanSettle (m : Mach) : Mach :=
  let busy (d : Nat) : Bool := m.resumes d || (m.die d).stepUp
  if m.lean.state = 3 && !([0, 1, 2, 3].any busy) && decide (m.targetClk ≤ m.acores.curClk.toNat) && m.acores.stepTo.isNone then
    { m with lean := { m.lean with state := 0 } }
  else m

/-- OP_STEP_DONE (R44): a raise takes effect; a die still above its goal falls again. Issue tokens follow the new point (R56): where more
are held than it allows, the Oxen that have held theirs longest keep them, and instructions already issued run on. [log 28 DEDUCED, 188 DESIGN CHOICE] -/
def opStepDoneOp (m : Mach) (d : Nat) : Mach :=
  let x := m.die d
  if x.stepUp then
    let m := m.setDie d { x with stepUp := false, curOp := x.curOp + 1 }
    ((m.modDie d fun x => { x with tokens := x.tokens.take (m.tokenLimit d) }).opSettle d).leanSettle
  else if x.stepDown then ((m.setDie d { x with stepDown := false }).opSettle d).leanSettle
  else m

/-! ### Retention (R46, R48) -/

/-- A region lies on A-die A`d` (R48): every die for the interleaved view, else the die that holds its storage. -/
def regionOn (base d : Nat) : Bool :=
  if base < 0x0100_0000_0000 then true
  else if base < 0x01C0_0000_0000 then stackOf base / 3 == d
  else (base - 0x0200_0000_0000) / 0x4000_0000 == d + 1

def Save.valid (s : Save) : List (BitVec 128) := (s.descs.map fun p => p.2).filter fun v => v.getLsbD 127
def descBase (v : BitVec 128) : Nat := Bits.nfield v.toNat 0 56
def descLines (v : BitVec 128) : Nat := Bits.nfield v.toNat 56 17 * 64

/-- Retention of the die is refused (R48); `copying` is the region that the save engine is copying. -/
def dieBusy (m : Mach) (d : Nat) (copying : Option (BitVec 128)) : Bool :=
  ((List.range 26).any fun f =>
    let fb := flockBase d f
    let c := m.collie fb
    (m.domain d f == .on && c.state ≠ .quiesced) || !c.pool.isEmpty || !(m.mule (fb + 20)).descs.isEmpty || !(m.mule (fb + 21)).descs.isEmpty)
    || ((List.range 4).any fun i => !(m.mule (agentId (d + 1) 26 i)).descs.isEmpty)
    || copying.any fun v => regionOn (descBase v) d

/-- The region that the save engine is copying now: how far a copy has come is a matter of timing, and so free. [log 187 DESIGN CHOICE] -/
def saveCopying (m : Mach) : Option (BitVec 128) × Mach :=
  match m.save.active, Save.valid m.save with
  | some _, v :: vs =>
    let (n, m) := m.drawFree 5
    (some ((v :: vs).getD (n.toNat % (vs.length + 1)) v), m)
  | _, _ => (none, m)

/-- A write of TARGET_RET. [log 187 DESIGN CHOICE] -/
def targetRetOp (m : Mach) (d : Fin 4) (v : Bool) : Mach :=
  if (m.die d.val).dead then m
  else if v then
    let (c, m) := m.saveCopying
    let x := m.die d.val
    if m.dieBusy d.val c then m.count (mgmtReg d.val 0x10C) false
    else if x.curRet then (m.setDie d.val { x with targetRet := true, leaving := false }).dropUp (.ret d)
    else (m.setDie d.val { x with targetRet := true, curRet := true, stepUp := false, stepDown := false }).selfRefreshIn d.val
  else
    let x := m.die d.val
    let m := m.setDie d.val { x with targetRet := false }
    if x.curRet && !x.leaving then m.askUp (.ret d) else m

/-- RETENTION_EXIT_DONE. -/
def retentionExitDoneOp (m : Mach) (d : Nat) : Mach :=
  let x := m.die d
  if !x.leaving then m
  else
    let m := m.setDie d { x with leaving := false, curRet := false, curOp := if m.inLean then 0 else x.curOp }
    ((m.selfRefreshOut d).opSettle d).leanSettle

/-! ### Power domains (Table 2-4, R47, R50, R308, R515) -/

/-- The states that the governor may set for a domain; 0 OFF, 1 RETENTION, 2 ON. -/
def domAllowed (dom st : Nat) : Bool :=
  if dom < 26 then decide (st < 3) else if dom < 40 then st == 2 else dom == 40 && (st == 1 || st == 2)

def domState : Nat → DomState
  | 0 => .off | 1 => .retention | _ => .on
def domCode : DomState → Nat
  | .off => 0 | .retention => 1 | .on => 2

/-- The flock holds work: R47's refusal, with chapter 08's condition that its Collie is QUIESCED. [log 38 DEDUCED] -/
def flockBusy (m : Mach) (fb : Nat) : Bool :=
  let c := m.collie fb
  c.state ≠ .quiesced || !c.pool.isEmpty || !c.hosted.isEmpty || !(m.muleActive (fb + 20)).isEmpty || !(m.muleActive (fb + 21)).isEmpty

/-- Keys of a map that lie outside a range. -/
def outside {α : Type} (f : FMap α) (lo hi : Nat) : FMap α := f.filter fun p => !(decide (lo ≤ p.1 ∧ p.1 < hi))

/-- Fields of a block in a range of offsets take their reset values; trouble counters keep their counts (R573). -/
def regsReset (m : Mach) (lo hi : Nat) : Mach := { m with regs := m.regs.filter fun p => counterReg p.1 || !(decide (lo ≤ p.1 ∧ p.1 < hi)) }

/-- A flock goes OFF: its memory, its Hens' caches and its accumulator stores read zero afterwards (R50), and its registers read their
reset values (R573). Units that are out of service stay so. [log 38 DEDUCED] -/
def flockLose (m : Mach) (fb : Nat) : Mach :=
  let lo := flockMemBase fb
  let m := { m with fm := outside m.fm lo (lo + 0x80_0000), fmPoison := outside m.fmPoison (lo / 64) (lo / 64 + 0x2_0000),
                    fmUpset := outside m.fmUpset (lo / 64) (lo / 64 + 0x2_0000) }
  let m := m.forEach (List.range 16) fun m h => m.modHen (fb + h) fun x =>
    { ({} : Hen) with state := if x.state == .failed then .failed else .halted, haltCause := if x.state == .failed then x.haltCause else 0,
                      bootPc := x.bootPc, bootVec := x.bootVec }
  let m := m.forEach [16, 17, 18, 19] fun m u => m.modOx (fb + u) fun x =>
    { ({} : Ox) with state := if x.state == .failed then .failed else .disabled, repair := x.repair, remapped := x.remapped, diagFail := x.diagFail,
                     diagOwed := x.diagOwed }
  let m := ((m.setMule (fb + 20) {}).setMule (fb + 21) {}).setCollie fb {}
  m.regsReset (flockReg fb 0) (flockReg fb 0x1000)

/-- A domain leaves ON, or moves between RETENTION and OFF: at once (R40). -/
def domainDown (m : Mach) (d : Fin 4) (dom : Fin 42) (st : DomState) : Mach :=
  let m := (m.dropUp (.domain d dom)).modDie d.val fun x => { x with waking := x.waking.filter fun y => y ≠ dom.val }
  let lost := st == .off && decide (dom.val < 26) && m.domain d.val dom.val ≠ .off
  let m := m.setDomain d.val dom.val st
  if lost then m.flockLose (flockBase d.val dom.val) else m

/-- A domain switches to ON; it is usable after its wake time (R50, R60). -/
def domainUp (m : Mach) (d : Fin 4) (dom : Fin 42) : Mach :=
  (m.setDomain d.val dom.val .on).modDie d.val fun x => { x with waking := x.waking ++ [dom.val] }

/-- A request for state `st` of a domain: a refusal that counts BAD_WRITE, one that counts DOMAIN_BUSY, and the effect. [log 189 DEDUCED] -/
def domainAsk (m : Mach) (d : Fin 4) (dom : Fin 42) (st : Nat) : Bool × Bool × Mach :=
  let cur := m.domain d.val dom.val
  if !domAllowed dom.val st then (true, false, m)
  else if st = 2 then (false, false, if cur == .on then m else m.askUp (.domain d dom))
  else if (decide (dom.val < 26) && m.flockBusy (flockBase d.val dom.val))
      || (decide (dom.val = 40) && (List.range 4).any fun i => !(m.mule (agentId (d.val + 1) 26 i)).descs.isEmpty) then (false, true, m)
  else (false, false, if domState st == cur then m.dropUp (.domain d dom) else m.domainDown d dom (domState st))

/-- A write of `w` to DOMAIN_CTLr: each field whose mask bits are set, lowest domain first; each counter counts once (R574). [log 38 DEDUCED] -/
def domainCtlOp (m : Mach) (d : Fin 4) (r : Nat) (w : BitVec 32) : Mach :=
  if (m.die d.val).dead then m
  else
    let one (acc : Bool × Bool × Mach) (i : Nat) : Bool × Bool × Mach :=
      let (bad, busy, m) := acc
      let k := Bits.field w (16 + 2 * i) 2
      if h : 8 * r + i < 42 then
        let st := (Bits.field w (2 * i) 2 &&& k) ||| (domCode (m.domain d.val (8 * r + i)) &&& (3 - k))
        if k = 0 ∨ st = 3 then acc
        else
          let (x, y, m) := m.domainAsk d ⟨8 * r + i, h⟩ st
          (bad || x, busy || y, m)
      else acc
    let (bad, busy, m) := (List.range 8).foldl one (false, false, m)
    let m := if bad then m.badWrite (mgmtReg d.val 0) else m
    if busy then m.count (mgmtReg d.val 0x10C) false else m

/-- A cluster leaves ON: its lines are written back and invalidated first; OFF loses its cores' state (R515). -/
def clusterDown (m : Mach) (c : Fin 6) (st : BitVec 2) : Mach :=
  let m := (m.dropUp (.cluster c)).clusterFlush c.val
  let m := m.modAcores fun a => { a with clusters := FMap.set 2 a.clusters c.val st, waking := a.waking.filter fun y => y ≠ c.val }
  if st = 0 then m.clusterLose c.val else m

/-- A write of a CLUSTER field: 3 is ignored. -/
def clusterAsk (m : Mach) (c : Fin 6) (st : BitVec 2) : Mach :=
  if st = 3 then m
  else if st = 2 then (if m.clusterState c.val = 2 then m else m.askUp (.cluster c))
  else if st = m.clusterState c.val then m.dropUp (.cluster c) else m.clusterDown c st

/-- DOMAIN_READY: the wake time has passed. Die number 0 is the C-die, with its clusters. -/
def domainReadyOp (m : Mach) (die dom : Nat) : Mach :=
  if die = 0 then m.modAcores fun a => { a with waking := a.waking.filter fun y => y ≠ dom }
  else m.modDie (die - 1) fun x => { x with waking := x.waking.filter fun y => y ≠ dom }

/-! ### The application-core clock (R513, R514) -/

/-- The clock moves to code `v`; the new code stands at ACORE_CLK_DONE. -/
def clkMove (m : Mach) (v : BitVec 4) : Mach :=
  m.modAcores fun a => { a with stepTo := if a.curClk = v && a.stepTo.isNone then none else some v }

/-- A write of TARGET_CLK. -/
def targetClkOp (m : Mach) (v : BitVec 4) : Mach :=
  if 12 < v.toNat then m.badWrite (pwrReg 0x60)
  else
    let m := m.setFld (pwrReg 0x60) 0 4 v.toNat
    let cur := (m.acores.stepTo.getD m.acores.curClk).toNat
    if cur < v.toNat then m.askUp .clk
    else
      let m := m.dropUp .clk
      if v.toNat < cur ∧ !m.inLean then m.clkMove v else m

/-- ACORE_CLK_DONE. -/
def acoreClkDoneOp (m : Mach) : Mach :=
  match m.acores.stepTo with
  | some v => (m.modAcores fun a => { a with curClk := v, stepTo := none }).leanSettle
  | none => m

/-- ACORE_STATUS. -/
def acoreStatus (m : Mach) : Nat :=
  let pend : List Nat := m.gov.requests.filterMap fun (q : UpAsk) => match q.req with | .cluster c => some (2 ^ (5 + c.val)) | _ => none
  m.acores.curClk.toNat + Bits.ofBool m.acores.stepTo.isSome * 16 + pend.sum

/-! ### Upward steps (R40 to R42, R55, R60) -/

/-- HOLD and the rule for an unlocked beat allow a step now (R42, R43). -/
def upWindow (m : Mach) : Bool := !m.site.hold && (m.beat.locked || decide (16 ≤ m.beat.sinceUp))

/-- The domain is one of those that slots switch, and that count toward the eight of R41. The others change state only in bring-up and in
the service steps. [log 189 DEDUCED] -/
def domCounts (dom : Nat) : Bool := decide (dom < 26) || dom == 40

/-- The step can be taken in this slot, R55 apart (R41, R42, HOLD). [log 189 DEDUCED] -/
def upCan (m : Mach) (r : UpReq) : Bool :=
  m.upWindow && match r with
  | .op d =>
      let x := m.die d.val
      m.holdsPoint d.val && !x.stepUp && !x.stepDown && !m.gov.slotOps.contains d && decide (x.curOp.toNat < m.opGoal d.val)
  | .ret d => (m.die d.val).curRet && !(m.die d.val).leaving && !m.dieOut d.val && !m.gov.slotOps.contains d
  | .domain d dom => !m.dieOut d.val && m.domain d.val dom.val ≠ .on && domCounts dom.val && decide (m.gov.slotDoms < 8)
  | .cluster c => m.clusterState c.val ≠ 2 && decide (m.gov.slotDoms < 8)
  | .clk => m.acores.stepTo.isNone && decide (m.acores.curClk.toNat < m.targetClk)

/-- The request asks for nothing any more. -/
def upMet (m : Mach) (r : UpReq) : Bool :=
  match r with
  | .op d => decide ((m.die d.val).targetOp.toNat ≤ (m.die d.val).curOp.toNat) || m.dieOut d.val
  | .ret d => !(m.die d.val).curRet || (m.die d.val).leaving || m.dieOut d.val
  | .domain d dom => m.domain d.val dom.val == .on || m.dieOut d.val
  | .cluster c => m.clusterState c.val == 2
  | .clk => decide (m.targetClk ≤ (m.acores.stepTo.getD m.acores.curClk).toNat)

/-- Makes an upward step. -/
def upTake (m : Mach) (r : UpReq) : Mach :=
  let m := { m with beat := { m.beat with sinceUp := 0 } }
  match r with
  | .op d => (m.modDie d.val fun x => { x with stepUp := true }).modGov fun g => { g with slotOps := d :: g.slotOps }
  | .ret d => (m.modDie d.val fun x => { x with leaving := true }).modGov fun g => { g with slotOps := d :: g.slotOps }
  | .domain d dom => (m.domainUp d dom).modGov fun g => { g with slotDoms := g.slotDoms + Bits.ofBool (domCounts dom.val) }
  | .cluster c =>
      let m := m.modAcores fun a => { a with clusters := FMap.set 2 a.clusters c.val 2, waking := a.waking ++ [c.val] }
      m.modGov fun g => { g with slotDoms := g.slotDoms + 1 }
  | .clk => m.clkMove (m.acores.curClk + 1)

def stepRefused (m : Mach) : Mach := m.count (pwrReg 0x38) true

/-- The angle has passed the slot (R39). -/
def slotGone (m : Mach) : Bool := decide (m.beat.period * (m.beat.slot.toNat + 1) ≤ 16 * (m.now - m.beat.zero))

/-- Lean state ends: engines, the tier and a held start or service step go on (R74, R75). -/
def leanExit (m : Mach) : Mach :=
  let m := if m.lean.sealedHere then m.count (pwrReg 0x3C) true else m
  let m := { m with lean := { m.lean with state := 3, sealedHere := false, mapHere := false, saveDue := false, waitDone := false } }
  (m.modBoot fun b => { b with svcHeld := false }).tierResume

/-- The resume steps of a slot (R74, R514). -/
def resumeSteps (m : Mach) : Mach :=
  if m.lean.state ≠ 3 then m
  else
    let m := m.forEach ([0, 1, 2, 3] : List (Fin 4)) fun m d =>
      if m.resumes d.val && m.upCan (.op d) && m.headroomOk then m.upTake (.op d) else m
    if m.upCan .clk && m.headroomOk then m.upTake .clk else m

/-- Held scheduler entries: each is taken or dropped (R59). -/
def grantHeld (m : Mach) : Mach :=
  let hs := m.gov.held
  let m := m.modGov fun g => { g with held := [] }
  m.forEach hs fun m h =>
    if m.upMet h.req then m
    else if !m.inLean && m.upCan h.req && m.headroomOk then m.upTake h.req else m.stepRefused

/-- Register requests, oldest first: a request that the slot cannot take stays (R60); a die below its goal moves toward it (R45). -/
def grantRequests (m : Mach) : Mach :=
  let rise (m : Mach) (d : Fin 4) : Mach :=
    if m.holdsPoint d.val && decide ((m.die d.val).curOp.toNat < m.opGoal d.val) then m.askUp (.op d) else m
  let m := m.forEach [0, 1, 2, 3] rise
  let m := if m.acores.curClk.toNat < m.targetClk ∧ !m.inLean then m.askUp .clk else m
  m.forEach (m.gov.requests.map fun q => q.req) fun m r =>
    if m.upMet r then m.dropUp r
    else if m.inLean || !m.upCan r then m
    else if !m.headroomOk then m.stepRefused
    else
      let m := m.upTake r
      match r with
      | .op _ | .clk => m
      | _ => m.dropUp r

/-- The enforcement undo of R53: the most recent step still in force is undone. [log 31 DESIGN CHOICE] -/
def grantUndo (m : Mach) : Mach :=
  if !m.gov.undoHeld || m.inLean || !m.upWindow then m
  else
    match m.gov.steps with
    | [] => m.modGov fun g => { g with undoHeld := false }
    | .die d :: rest =>
      if m.gov.slotOps.contains d then m
      else if !m.headroomOk then m.stepRefused
      else
        let m := m.modDie d.val fun x => { x with enfOp := BitVec.ofNat 3 (min m.variantTop (x.enfOp.toNat + 1)) }
        let m := { m with beat := { m.beat with sinceUp := 0 } }
        m.modGov fun g => { g with steps := rest, undoHeld := false, calmUs := 0, slotOps := d :: g.slotOps }
    | .ox :: rest =>
      if !m.headroomOk then m.stepRefused
      else
        let m := { m with beat := { m.beat with sinceUp := 0 } }
        m.modGov fun g => { g with steps := rest, undoHeld := false, calmUs := 0, oxLimit := g.oxLimit - 1 }

/-- SLOT_START: the start of the load slot, once in a beat (R39, R60, R74). [log 30 DEDUCED, 31 DESIGN CHOICE, 32 DEDUCED, 34 DESIGN CHOICE, 35 DEDUCED, 40 DEDUCED] -/
def slotStartOp (m : Mach) : Mach :=
  if m.beat.slotDone || m.slotGone then m
  else
    let m := m.advance (m.beat.zero + (m.beat.period * m.beat.slot.toNat + 15) / 16)
    let m := { m with beat := { m.beat with slotDone := true } }
    if m.boot.inReset then m
    else
      let m := m.oxDiagWake.modGov fun g => { g with slotOps := [], slotDoms := 0 }
      let m := if m.lean.state = 2 && m.lean.waitDone && !m.site.hold then m.leanExit else m
      m.resumeSteps.grantHeld.grantRequests.grantUndo.leanSettle

/-! ### The governor (R51 to R54) -/

/-- METER_SAMPLE: VIN and VBUS in 0.1 V, the current in mA, the dies' power in 0.1 mW. [log 33 DESIGN CHOICE] -/
def meterSampleOp (m : Mach) (vin vbus : BitVec 10) (cur : Nat) (dies : List Nat) : Mach :=
  let p := vin.toNat * cur
  let m := m.modGov fun g =>
    let ds := (List.zip [0, 1, 2, 3] dies).foldl (fun (f : FMap (List Nat)) (x : Nat × Nat) =>
      FMap.set [] f x.1 ((x.2 :: FMap.get [] f x.1).take 1000)) g.dieSamples
    { g with vin := vin, vbus := vbus, samples := (p :: g.samples).take 1000, dieSamples := ds, beatSum := g.beatSum + p,
             beatCount := g.beatCount + 1, energy := g.energy + p }
  let excess := decide (m.effCap < m.avgMs)
  let spent := m.gov.oxLimit = 2 && ([0, 1, 2, 3].all fun d => !m.holdsPoint d || (m.die d).curOp = 0)
  m.modGov fun g =>
    { g with overUs := if excess then g.overUs + 1 else 0
             stepAt := if excess then g.stepAt else none
             calmUs := if m.headroomOk && !g.undoHeld then g.calmUs + 1 else 0
             spentUs := if excess && spent then g.spentUs + 1 else 0
             fastUs := if m.effCap * 115 < p * 100 then g.fastUs + 1 else 0
             capUnmet := g.capUnmet && excess }

/-- The A-die that step 1 or 3 of R52 acts on: the highest point above `floor`, the lowest number among equals. -/
def enfDie (m : Mach) (floor : Nat) : Option (Fin 4) :=
  let pick (best : Option (Fin 4)) (d : Fin 4) : Option (Fin 4) :=
    if m.holdsPoint d.val && decide (floor < (m.die d.val).curOp.toNat) then
      match best with
      | some b => if (m.die b.val).curOp.toNat < (m.die d.val).curOp.toNat then some d else best
      | none => some d
    else best
  ([0, 1, 2, 3] : List (Fin 4)).foldl pick none

/-- Lowers ENF_OP of a die one point below the point it holds. -/
def enfLower (m : Mach) (d : Fin 4) : Mach :=
  let m := m.modDie d.val fun x => { x with enfOp := x.curOp - 1 }
  (m.modGov fun g => { g with steps := .die d :: g.steps }).opSettle d.val

/-- Halves the Oxen per flock that may issue. -/
def enfOx (m : Mach) : Mach := m.modGov fun g => { g with steps := .ox :: g.steps, oxLimit := g.oxLimit + 1 }

/-- ENFORCEMENT_STEP: one step of R52, in the order of POLICY. -/
def enforcementStepOp (m : Mach) : Mach :=
  let g := m.gov
  let due := decide (0 < g.overUs) && (match g.stepAt with | none => true | some u => decide (u + 1000 ≤ g.overUs))
  if !due then m
  else
    let floor := m.fld (pwrReg 0x18) 0 3
    let m := m.modGov fun g => { g with stepAt := some g.overUs }
    let ox := decide (g.oxLimit.toNat < 2)
    match m.enfDie floor, m.bit (pwrReg 0x18) 3, ox with
    | some d, false, _ => m.enfLower d
    | _, _, true => m.enfOx
    | some d, true, false => m.enfLower d
    | none, _, false => match m.enfDie 0 with
      | some d => m.enfLower d
      | none => m

/-- ENFORCEMENT_UNDO: 16 ms of calm hold an undo for the next slot. -/
def enforcementUndoOp (m : Mach) : Mach :=
  if 16000 ≤ m.gov.calmUs ∧ m.gov.steps ≠ [] then m.modGov fun g => { g with undoHeld := true, calmUs := 0 } else m

/-- CAP_UNMET: every step taken and the cap exceeded for a further 10 ms. -/
def capUnmetOp (m : Mach) : Mach := if 10000 ≤ m.gov.spentUs then m.modGov fun g => { g with capUnmet := true } else m

/-- FAST_LIMIT: 50 µs above 1.15 times the cap hold every Ox's issue for 100 µs (R54). -/
def fastLimitOp (m : Mach) : Mach :=
  if 50 ≤ m.gov.fastUs ∧ m.gov.fastEnd.isNone then
    ((m.modGov fun g => { g with fastEnd := some (m.now + 50000), fastUs := 0 }).oxBallastEnd).count (pwrReg 0x3C) false
  else m

/-- FAST_LIMIT_END. -/
def fastLimitEndOp (m : Mach) : Mach :=
  match m.gov.fastEnd with
  | some t => (m.advance t).modGov fun g => { g with fastEnd := none }
  | none => m

/-! ### Lean state (R64 to R67, R74) -/

/-- A voltage in 0.1 V lies above, or below, a level code of Table 2-9. -/
def vAbove (v : BitVec 10) (code : Nat) : Bool := decide (2400 + 10 * code < v.toNat * 8)
def vBelow (v : BitVec 10) (code : Nat) : Bool := decide (v.toNat * 8 < 2400 + 10 * code)
def warnCode (m : Mach) : Nat := m.fld (pwrReg 8) 0 8
def clearCode (m : Mach) : Nat := m.fld (pwrReg 8) 8 8

/-- The deep tier is mounted, whatever its cache size. -/
def tierMounted (m : Mach) : Bool := m.tier.state == .mounted || m.tier.state == .readOnly

/-- The wait of R74 begins where its conditions hold, and ends where one stops holding. -/
def leanWait (m : Mach) : Mach :=
  let ok := m.lean.clear && !m.lean.inputOpen && !m.site.lean
  if m.lean.state = 1 && ok then { m with lean := { m.lean with state := 2, waitFrom := m.now, waitDone := false } }
  else if m.lean.state = 2 && !ok then { m with lean := { m.lean with state := 1, waitDone := false } }
  else m

/-- Entry to lean state (R66, R69, R76). While the module is in lean state already, only the cause is added and the wait starts again. A
save that is copying is abandoned, also where no save follows it because ARM is clear. [log 28 DEDUCED, 40 DEDUCED, 190 DESIGN CHOICE] -/
def leanEnter (m : Mach) (supply : Bool) : Mach :=
  if m.inLean then
    let l := m.lean
    ({ m with lean := { l with state := 1, waitDone := false, causeSupply := l.causeSupply || supply,
                               causeSite := l.causeSite || !supply } }).leanWait
  else
    let l := m.lean
    let arm := m.bit (pwrReg 0x20) 16 && m.tierMounted
    let m := { m with lean := { l with state := 1, waitDone := false, causeSupply := supply, causeSite := !supply, sealedHere := false,
                                       mapHere := false, saveDue := arm },
                      save := { m.save with active := none } }
    let m := if arm then m else m.count (pwrReg 0x40) false
    let fall (m : Mach) (d : Nat) : Mach :=
      if m.dieOut d || (m.die d).curRet then m
      else m.modDie d fun x => { x with resumeOp := x.curOp, curOp := 0, stepUp := false, stepDown := x.curOp ≠ 0 || x.stepUp || x.stepDown }
    let m := m.oxBallastEnd
    let m := ((((m.modBoot fun b => { b with svcHeld := b.svcBusy.isSome }).forEach [0, 1, 2, 3] fall).clkMove 0))
    let m := m.forEach (m.hens.map fun p => p.1) fun m a => if !(m.hen a).priv then m.sbDrain a else m
    m.leanWait

/-- VIN_WARNING: an excursion below warning of 2 µs or longer (R65). In reset the level is noted, and no lean state begins. -/
def vinWarningOp (m : Mach) (vin : BitVec 10) (dur : Nat) : Mach :=
  if !vBelow vin m.warnCode || decide (dur < 1000) then m
  else
    let m := { m with lean := { m.lean with clear := false } }
    if m.boot.inReset then m.leanWait else m.leanEnter true

/-- INPUT_OPEN: VIN above 62 V for 10 µs. In reset the input stage opens, and no lean state begins. -/
def inputOpenOp (m : Mach) (vin : BitVec 10) (dur : Nat) : Mach :=
  if vin.toNat ≤ 620 ∨ dur < 5000 then m
  else
    let m := { m with lean := { m.lean with inputOpen := true } }
    if m.boot.inReset then m.leanWait else m.leanEnter true

/-- INPUT_CLOSE: VIN between 40 V and 60 V. -/
def inputCloseOp (m : Mach) (t : Nat) (vin : BitVec 10) : Mach :=
  if !m.lean.inputOpen || decide (vin.toNat < 400) || decide (600 < vin.toNat) then m
  else
    let m := m.advance t
    ({ m with lean := { m.lean with inputOpen := false, clear := vAbove vin m.clearCode } }).leanWait

/-- SUPPLY_CLEAR: VIN rises above clear. -/
def supplyClearOp (m : Mach) (t : Nat) (vin : BitVec 10) : Mach :=
  if !vAbove vin m.clearCode then m
  else
    let m := m.advance t
    ({ m with lean := { m.lean with clear := true } }).leanWait

/-- VIN_BELOW_CLEAR: VIN falls to clear or below and stays at warning or above. -/
def vinBelowClearOp (m : Mach) (t : Nat) (vin : BitVec 10) : Mach :=
  if vAbove vin m.clearCode || vBelow vin m.warnCode then m
  else
    let m := m.advance t
    ({ m with lean := { m.lean with clear := false } }).leanWait

/-- LEAN_WAIT_END: the wait has lasted two measured beat periods. -/
def leanWaitEndOp (m : Mach) (t : Nat) : Mach :=
  if m.lean.state ≠ 2 ∨ t < m.lean.waitFrom + 2 * m.beat.period then m
  else
    let m := m.advance t
    { m with lean := { m.lean with waitDone := true } }

/-! ### Site commands (R43) -/

def siteNopOp (m : Mach) : Mach := m
def siteHoldOp (m : Mach) : Mach := { m with site := { m.site with hold := true } }
def siteReleaseOp (m : Mach) : Mach := ({ m with site := { m.site with hold := false, lean := false } }).leanWait
def siteCapOp (m : Mach) (arg : BitVec 8) : Mach := { m with site := { m.site with cap := arg } }
/-- In reset nothing runs: the lean state that LEAN begins stands when the module leaves reset (R43, R599). [log 191 DEDUCED] -/
def siteLeanOp (m : Mach) : Mach :=
  let m := { m with site := { m.site with lean := true } }
  if m.boot.inReset then { m with lean := { m.lean with state := 1, waitDone := false, causeSite := true } } else m.leanEnter false

/-! ### The save engine (R63, R69 to R76) -/

/-- The slot that holds the newest seal. -/
def newestSlot (m : Mach) : Option (Fin 2) :=
  match m.save.seal0, m.save.seal1 with
  | none, none => none
  | some _, none => some 0
  | none, some _ => some 1
  | some x, some y => if y.seq < x.seq then some 0 else some 1

def newestSeal (m : Mach) : Option Seal :=
  match m.newestSlot with
  | some 0 => m.save.seal0
  | some _ => m.save.seal1
  | none => none

/-- A save begins into the slot that does not hold the newest seal. -/
def saveBegin (m : Mach) (k : SaveKind) (map : List Nat) : Mach :=
  let s := m.save
  let slot : Fin 2 := if m.newestSlot = some 0 then 1 else 0
  let s := if slot = 0 then { s with seal0 := none } else { s with seal1 := none }
  { m with save := { s with active := some k, slot := slot, sealed := false, regionsDone := 0, dirtyMap := map } }

/-- A Hen that lean state stops has stopped (R66, R69): at an instruction boundary, or in an instruction that cannot go on. -/
def henStopped (m : Mach) (a : Nat) : Bool :=
  let h := m.hen a
  h.priv || ((!(h.state == .running || h.state == .quiescing) || h.wait == .none || m.henBreakable a || h.stallDeep) && (h.sb.isEmpty || h.stallSb))

/-- SAVE_START: every Ox and task Hen has stopped. The dirty map comes first, and freezes the clean sub-blocks (R412, R427). [log 41 DEDUCED] -/
def saveStartOp (m : Mach) : Mach :=
  if m.lean.saveDue && m.inLean && (m.oxen.all fun p => p.2.flight.isEmpty) && (m.hens.all fun p => m.henStopped p.1) then
    let m := { m with lean := { m.lean with saveDue := false } }
    (m.saveBegin .lean m.dirtyMap).modTier fun t => { t with frozen := true }
  else m

/-- The save engine reads a line: its data, or none for a line that it writes as the poison pattern (R71). -/
def saveLine (m : Mach) (pa : Nat) : Option (BitVec 512) × Mach :=
  let t := m.target pa
  if m.targetDead t || m.targetHeld t then (none, m)
  else match t with
    | .home sa =>
      let ((d, p), m) := if m.homeClear (sa / 64) false then m.readNow saveAgent (sa / 64) false else m.homeData (sa / 64) 2 false
      (if p then none else some d, m)
    | .flock fb _ =>
      let ((d, p), m) := m.fmRead fb (pa / 64)
      (if p then none else some d, m)
    | .bad c => (none, m.addrError c saveAgent)
    | _ => (none, m)

/-- Copies the region of descriptor `i` (R70, R71): its bytes that are not zero by offset, and its digest over the data as written, the
poison pattern included. [log 185 DESIGN CHOICE] -/
def saveRegion (m : Mach) (i : Nat) (v : BitVec 128) : SavedRegion × Mach :=
  let base := descBase v
  let n := descLines v
  let one (acc : (FMap Byte × List Nat) × Mach) (i : Nat) : (FMap Byte × List Nat) × Mach :=
    let ((data, bad), m) := acc
    match m.saveLine (base + 64 * i) with
    | (some d, m) => ((Memory.putLine data i d, bad), m)
    | (none, m) => ((Memory.putLine data i Config.poisonPattern, bad ++ [i]), m)
  let ((data, bad), m) := (List.range n).foldl one (([], []), m)
  ({ index := i, desc := v, badLines := bad.length, bad := bad, digest := Config.sha512 (Memory.readBytes data 0 (64 * n)), data := data }, m)

/-- Writes the seal of the save in progress over its first `n` regions (R72), and charges the write budget (R417). [log 42 DEDUCED] -/
def saveSeal (m : Mach) (n : Nat) (incomplete : Bool) : Mach :=
  let old := m.save
  let lean := old.active = some .lean
  let vs := (old.descs.filter fun p => p.2.getLsbD 127).take n
  let epoch := BitVec.ofNat 16 (m.fld (pwrReg 0x20) 0 16)
  let (rs, m) := vs.foldl (fun (acc : List SavedRegion × Mach) p =>
    let (r, m) := acc.2.saveRegion p.1 p.2
    (acc.1 ++ [r], m)) ([], m)
  let seq := 1 + max ((old.seal0.map fun x => x.seq).getD 0) ((old.seal1.map fun x => x.seq).getD 0)
  let sl : Seal := { epoch := epoch, seq := seq, incomplete := incomplete, regionsDone := n, descs := (List.range 32).map fun i => FMap.get 0 old.descs i,
                       regions := rs, dirtyMap := if lean then some old.dirtyMap else none }
  let s := { old with active := none, sealed := true, regionsDone := BitVec.ofNat 6 n }
  let m := { m with save := if old.slot = 0 then { s with seal0 := some sl } else { s with seal1 := some sl } }
  let m := m.charge ((vs.map fun p => descLines p.2).sum * 64 + if lean then 8 * m.frameCount else 0)
  let m := if lean then { m with lean := { m.lean with mapHere := m.inLean } } else m
  if incomplete then m.count (pwrReg 0x40) true
  else if !lean then m
  else if m.inLean then { m with lean := { m.lean with sealedHere := true } }
  else m.count (pwrReg 0x3C) true

/-- SAVE_COPY_DONE. [log 42 DEDUCED] -/
def saveCopyDoneOp (m : Mach) : Mach := if m.save.active.isSome then m.saveSeal (Save.valid m.save).length false else m

/-- VBUS_SEAL: VBUS reaches 37.5 V while a copy is in progress. -/
def vbusSealOp (m : Mach) (n : Nat) : Mach :=
  if m.save.active.isSome && decide (n ≤ (Save.valid m.save).length) then m.saveSeal n true else m

/-- A SAVE_WINDOW entry runs (R63). -/
def saveWindow (m : Mach) : Mach :=
  if m.save.active.isSome || m.inLean then m
  else if !m.tierMounted then m.count (pwrReg 0x40) false
  else m.saveBegin .scheduled []

/-- Every line of a region is populated HBM, or flock memory of an enabled flock (R68). -/
def regionPopulated (m : Mach) (v : BitVec 128) : Bool :=
  (List.range (descLines v)).all fun i => match m.target (descBase v + 64 * i) with
    | .home sa => !isDeep sa
    | .flock _ _ | .bad (.off _) => true
    | _ => false

/-- SAVE_DESC_WRITE: a write of descriptor `i`; none where R68 refuses it. Bits that Table 2-4's text does not name are dropped. [log 43 DESIGN CHOICE] -/
def saveDescWrite (m : Mach) (i : Nat) (v : BitVec 128) : Option Mach :=
  let v := v &&& BitVec.ofNat 128 (2 ^ 89 - 1 + 2 ^ 127)
  let others := (m.save.descs.filter fun p => p.1 ≠ i && p.2.getLsbD 127).map fun p => descLines p.2
  let bad := !m.regionPopulated v
    || (v.getLsbD 127 && (decide (descBase v % 4096 ≠ 0) || decide (descLines v = 0) || decide (4194304 < others.sum + descLines v)))
  if bad then none else some { m with save := { m.save with descs := FMap.set 0 m.save.descs i v } }

/-- LEAN_STATUS (Table 2-12). [log 44 DESIGN CHOICE] -/
def leanStatus (m : Mach) : Nat :=
  let s := m.save
  let sl := if m.tierMounted then m.newestSeal else none
  m.lean.state.toNat + Bits.ofBool s.active.isSome * 4 + Bits.ofBool s.sealed * 8 + Bits.ofBool ((sl.map fun x => x.incomplete).getD false) * 16
    + (if m.tierMounted then (m.newestSlot.map fun x => x.val).getD 0 else 0) * 32 + s.regionsDone.toNat * 64 + Bits.ofBool m.lean.causeSupply * 4096
    + Bits.ofBool m.lean.causeSite * 8192

end Mach
end Machine
end Sys2Proof
end

