-- ==== Sys2Proof/Machine/SchedOps.lean ====
section
/-!
DEFINITION. The beat schedulers (R57 to R59, R61 to R63, Table 2-5) and the beat word (R35, R36, Tables 2-1 and 2-2).
-/
namespace Sys2Proof
namespace Machine

/-! ### Entries (Table 2-5) -/

namespace Sched

/-- The rules of an entry on scheduler `s` (0 the C-die's, 1 to 4 the A-dies'). -/
def ok (s : Nat) (w : BitVec 64) : Bool :=
  if s = 0 then
    match action w with
    | 0 | 5 => true
    | 2 => decide (arg w % 64 < 6) && decide (arg w / 64 % 4 < 3)
    | _ => false
  else
    match action w with
    | 0 | 1 | 3 | 4 => true
    | 2 => decide (arg w % 64 < 42) && domAllowedEntry (arg w % 64) (arg w / 64 % 4)
    | _ => false
where
  domAllowedEntry (dom st : Nat) : Bool := decide (st < 3) && Mach.domAllowed dom st

end Sched

namespace Mach

def schedKey (s e : Nat) : Nat := 64 * s + e
/-- An entry as it stands. One of action 0 does nothing else when it falls due than to run, which shows here. [log 36 DESIGN CHOICE] -/
def schedEntry (m : Mach) (s e : Nat) : BitVec 64 :=
  let w := FMap.get 0 m.sched (schedKey s e)
  if Sched.valid w && Sched.action w = 0 && Sched.reached w m.beat.number.toNat m.angle then Sched.after w m.beat.number.toNat m.angle else w
def setSched (m : Mach) (s e : Nat) (w : BitVec 64) : Mach := { m with sched := FMap.set 0 m.sched (schedKey s e) w }

/-- LATE_ENTRY and BSCHED_FULL of scheduler `s`; the base of its block. -/
def schedTrb (s : Nat) : Nat := if s = 0 then pwrReg 0x44 else mgmtReg (s - 1) 0x108
def schedBlock (s : Nat) : Nat := if s = 0 then pwrReg 0 else mgmtReg (s - 1) 0

/-- The time of the entry is now, or can be later in this beat, to which time then moves; none where it lies in a later beat. -/
def schedTime (m : Mach) (w : BitVec 64) : Option Mach :=
  if Sched.reached w m.beat.number.toNat m.angle then some m
  else if Sched.beat w = m.beat.number.toNat then some (m.advance (m.beat.zero + (Sched.angle w * m.beat.period + 65535) / 65536))
  else none

/-- A DOMAIN entry's switch to ON (R59): at once inside the slot where the rules of a step allow it, else held for the next slot. -/
def entryUp (m : Mach) (s : Fin 5) (e : Fin 64) (r : UpReq) : Mach :=
  if m.upMet r then m
  else if m.inSlot && m.upCan r && m.headroomOk && !m.inLean then m.upTake r
  else
    let later (x : HeldEntry) : Bool := decide (m.now < x.due) || (x.due == m.now && decide (64 * s.val + e.val < 64 * x.die.val + x.entry.val))
    m.modGov fun g => { g with held := insertBefore later { due := m.now, die := s, entry := e, req := r } g.held }

/-- A DOMAIN entry runs. -/
def entryDomain (m : Mach) (s : Fin 5) (e : Fin 64) (a : Nat) : Mach :=
  let st := a / 64 % 4
  if s.val = 0 then
    if h : a % 64 < 6 then
      if st = 2 then m.entryUp s e (.cluster ⟨a % 64, h⟩) else m.clusterAsk ⟨a % 64, h⟩ (BitVec.ofNat 2 st)
    else m
  else if h : a % 64 < 42 then
    let d : Fin 4 := Fin.ofNat 4 (s.val - 1)
    if st = 2 then m.entryUp s e (.domain d ⟨a % 64, h⟩)
    else
      let (bad, busy, m) := m.domainAsk d ⟨a % 64, h⟩ st
      let m := if bad then m.badWrite (mgmtReg d.val 0) else m
      if busy then m.count (mgmtReg d.val 0x10C) false else m
  else m

/-- An entry runs (R57 to R63). [log 37 DEDUCED, 39 DESIGN CHOICE] -/
def entryRun (m : Mach) (s : Fin 5) (e : Fin 64) : Mach :=
  let w := FMap.get 0 m.sched (schedKey s.val e.val)
  let m := m.setSched s.val e.val (Sched.after w m.beat.number.toNat m.angle)
  let d : Fin 4 := Fin.ofNat 4 (s.val - 1)
  match Sched.action w with
  | 1 => m.targetOpOp d (Sched.arg w % 8)
  | 2 => m.entryDomain s e (Sched.arg w)
  | 3 => m.modDie d.val fun x => { x with bursts := e :: x.bursts.filter fun y => y ≠ e }
  | 4 => (m.modDie d.val fun x => { x with permits := e :: x.permits.filter fun y => y ≠ e }).oxDiagWake
  | 5 => m.saveWindow
  | _ => m

/-- No other armed entry of the scheduler falls due before entry `e`, or with it at a lower index (R57). -/
def schedFirst (m : Mach) (s e : Nat) : Bool :=
  let at_ (i : Nat) : Nat := Sched.order (m.schedEntry s i) (m.beat.number.toNat * 65536 + m.angle)
  (List.range 64).all fun i => i == e || !Sched.valid (m.schedEntry s i) || Sched.action (m.schedEntry s i) == 0
    || decide (at_ e < at_ i) || (at_ e == at_ i && decide (e < i))

/-- A due entry of the given action runs, once those due before it, and those due with it at lower indexes, have run (R57). [log 36 DESIGN CHOICE] -/
def entryDueOp (m : Mach) (s : Fin 5) (e : Fin 64) (act : Nat) : Mach :=
  let w := m.schedEntry s.val e.val
  if !Sched.valid w || Sched.action w ≠ act || m.boot.inReset || !m.schedFirst s.val e.val then m
  else match m.schedTime w with
    | some m => m.entryRun s e
    | none => m

/-- SCRUB_BURST_END and RAMP_PERMIT_END: a window closes. -/
def burstEndOp (m : Mach) (d : Nat) (e : Fin 64) : Mach := m.modDie d fun x => { x with bursts := x.bursts.filter fun y => y ≠ e }
def permitEndOp (m : Mach) (d : Nat) (e : Fin 64) : Mach := m.modDie d fun x => { x with permits := x.permits.filter fun y => y ≠ e }

/-- Every entry of a scheduler is valid. -/
def schedFull (m : Mach) (s : Nat) : Bool := (List.range 64).all fun e => Sched.valid (m.schedEntry s e)

/-- BSCHED_WRITE (R58): a write of entry `e` of scheduler `s`. False where it is refused, the refusal counted. [log 36 DESIGN CHOICE, 37 DEDUCED] -/
def schedWrite (m : Mach) (s : Fin 5) (e : Fin 64) (w : BitVec 64) : Bool × Mach :=
  let w := w &&& ~~~(7#64 <<< 60)
  let ok := Sched.ok s.val w
  if Sched.valid (m.schedEntry s.val e.val) && m.schedFull s.val then
    let m := m.count (schedTrb s.val) true
    (false, if ok then m else m.badWrite (schedBlock s.val))
  else if !ok then (false, m.badWrite (schedBlock s.val))
  else
    let m := m.setSched s.val e.val w
    if Sched.valid w && Sched.reached w m.beat.number.toNat m.angle then (true, (m.count (schedTrb s.val) false).entryRun s e)
    else (true, m)

/-! ### The beat word (R35, R36) -/

/-- CRC of a beat word over its bits [39:0]. -/
def wordCrc (w : BitVec 48) : Nat := Bits.crc8 (Bits.bytesOf (w.toNat % 2 ^ 40) 5)

/-- Entries whose times a jump from beat number `old` skips run late, in order of die and index (R36). -/
def lateEntries (m : Mach) (old : Nat) : Mach :=
  let x := m.angle
  m.forEach ([0, 1, 2, 3, 4] : List (Fin 5)) fun m s =>
    m.forEach (List.finRange 64) fun m e =>
      let w := FMap.get 0 m.sched (schedKey s.val e.val)
      if Sched.valid w && !Sched.reached w old x && Sched.reached w m.beat.number.toNat x then
        (m.count (schedTrb s.val) false).entryRun s e
      else m

/-- A site command (Table 2-2). -/
def siteCommand (m : Mach) (cmd : Nat) (arg : BitVec 8) : Mach :=
  match cmd with
  | 0 => m.siteNopOp
  | 1 => m.siteHoldOp
  | 2 => m.siteReleaseOp
  | 3 => m.siteCapOp arg
  | 4 => m.siteLeanOp
  | _ => m.count (pwrReg 0x38) false

/-- BEAT_WORD: a word has been fully received at time `t`. Where its number jumps, the entries it skips run before its slot and command
take effect. [log 192 DESIGN CHOICE] -/
def beatWordOp (m : Mach) (t : Nat) (w : BitVec 48) : Mach :=
  if m.beat.wordLate then ({ m with beat := { m.beat with wordLate := false } }).advance t
  else if m.beat.lastEdge.isNone then m
  else
    let m := m.advance t
    let from_ := if m.beat.locked then m.beat.zero else m.beat.lastEdge.getD t
    let m := { m with beat := { m.beat with wordDue := false } }
    if m.beat.period < 16 * (t - from_) ∨ wordCrc w ≠ w.toNat / 2 ^ 40 then m.count (pwrReg 0x34) false
    else
      let old := m.beat.number
      let n := BitVec.ofNat 24 w.toNat
      let m :=
        if n = old then m
        else
          let m := { m with beat := { m.beat with number := n } }
          (if m.beat.locked then m.count (pwrReg 0x30) true else m).lateEntries old.toNat
      let m := { m with beat := { m.beat with nextSlot := BitVec.ofNat 4 (w.toNat / 2 ^ 24) } }
      m.siteCommand (w.toNat / 2 ^ 28 % 16) (BitVec.ofNat 8 (w.toNat / 2 ^ 32))

end Mach
end Machine
end Sys2Proof
end

