-- ==== Sys2Proof/Machine/SecOps.lean ====
section
/-!
DEFINITION. The security block (R559 to R567): the acceptance of images, measurements, quotes, owner slots, debug tokens and entropy;
and the reading of the telemetry FIFOs (R556 to R558).
-/
namespace Sys2Proof
namespace Machine

/-- The 64 bytes of a 512-bit value, and the bytes of other widths. -/
def bytes512 (v : BitVec 512) : List Byte := Bits.bytesOf v.toNat 64
def bytes256 (v : BitVec 256) : List Byte := Bits.bytesOf v.toNat 32

/-! ### Images (R532, R534, R559, R560) -/

/-- The signed fields of the header, in the order of R532. [log 151 DESIGN CHOICE] -/
def imageHeader (i : Image) (kind : Nat) : List Byte :=
  Bits.bytesOf kind 4 ++ Bits.bytesOf i.version.toNat 4 ++ Bits.bytesOf i.minRev.toNat 4 ++ Bits.bytesOf i.chunks 4 ++ Bits.bytesOf i.entry 4
    ++ Bits.bytesOf i.vector 4 ++ bytes512 i.digest ++ bytes256 i.key ++ Bits.bytesOf i.secVersion 4

/-- The bytes of the chunks after the header. [log 151 DESIGN CHOICE] -/
def imageBody (i : Image) : List Byte := Memory.readBytes (i.data.filter fun p => decide (512 ≤ p.1)) 512 (i.chunks * 4096 - 512)

/-- A line of the image. -/
def imageLine (i : Image) (n : Nat) : BitVec 512 := Memory.line i.data n

/-- The chunks an image of a kind may have: 0 stage-1 (no bound given), 1 A-die Hen, 2 management Hen (R532). -/
def chunksOk (kind n : Nat) : Bool := match kind with | 1 => decide (n ≤ 60) | 2 => decide (n ≤ 2048) | _ => true

namespace Mach

/-- Owner slots whose key counts: ACTIVE and not REVOKED. -/
def ownerOk (m : Mach) (s : Fin 4) : Bool := m.fused.ownerActive.getLsbD s.val && !m.fused.ownerRevoked.getLsbD s.val
def ownerDigest (m : Mach) (s : Fin 4) : BitVec 512 := FMap.get 0 m.fused.ownerDigest s.val
def ownerSlots : List (Fin 4) := [0, 1, 2, 3]

/-- The acceptance rule of R559 for an image of kind 0 (stage-1), 1 (A-die Hen) or 2 (management Hen). [log 151 DESIGN CHOICE] -/
def imageOk (m : Mach) (kind : Nat) (i : Image) : Bool :=
  let d := Config.sha512 (bytes256 i.key)
  let owner := ownerSlots.any fun s => m.ownerOk s && m.ownerDigest s == d
  Config.ed25519Ok i.key (imageHeader i kind) i.sig && ((d == m.fused.rootDigest && !m.fused.ownerRequired) || owner)
    && decide (FMap.get 0 m.fused.rollback kind ≤ i.secVersion) && Config.sha512 (imageBody i) == i.digest && chunksOk kind i.chunks

/-! ### Measurement (R564) -/

def mr (m : Mach) (i : Nat) : BitVec 512 := FMap.get 0 m.sec.mrs i

/-- Extends MR_i by digest `d`, with a log entry of register, source stage and image version; a full log refuses it. [log 163 DESIGN CHOICE] -/
def mrExtend (m : Mach) (i : Nat) (d : BitVec 512) (stage version : Nat) : Bool × Mach :=
  if 256 ≤ m.sec.log.length then (false, m.count (secReg 8) true)
  else
    let v := Config.sha512 (bytes512 (m.mr i) ++ bytes512 d)
    let e : MrEntry := { digest := d, info := BitVec.ofNat 512 (i + stage * 2 ^ 8 + version * 2 ^ 32) }
    (true, m.modSec fun s => { s with mrs := FMap.set 0 s.mrs i v, log := s.log ++ [e] })

/-- [log 163 DESIGN CHOICE] -/
def measure (m : Mach) (i : Nat) (d : BitVec 512) (stage version : Nat) : Mach := (m.mrExtend i d stage version).2

/-- MR_EXTEND (R564, R581): firmware extends MR6 or MR7, named by ARG. None where the write is refused without a counter of its own. -/
def mrExtendWrite (m : Mach) (arg : Nat) (d : BitVec 512) : Bool × Mach :=
  if arg = 6 ∨ arg = 7 then m.mrExtend arg d 0 0 else (false, m.badWrite (secReg 0))

/-! ### Identity, entropy and quotes (R444, R562, R563, R565) -/

/-- IDENTITY: the first eight bytes of the digest of the identity public key. -/
def identityOf (pub : Option (BitVec 256)) : BitVec 64 :=
  match pub with
  | some p => (Config.sha512 (bytes256 p)).setWidth 64
  | none => 0

/-- Draws 256 bits of entropy. -/
def draw256 (m : Mach) : BitVec 256 × Mach :=
  let (a, m) := m.drawEntropy
  let (b, m) := m.drawEntropy
  let (c, m) := m.drawEntropy
  let (d, m) := m.drawEntropy
  (BitVec.ofNat 256 (a.toNat + b.toNat * 2 ^ 64 + c.toNat * 2 ^ 128 + d.toNat * 2 ^ 192), m)

/-- Invasive debug is in force (R567). -/
def invasive (m : Mach) : Bool := m.sec.scopes.getLsbD 1 || m.sec.scopes.getLsbD 2

def entropyFailOp (m : Mach) : Mach := m.modSec fun s => { s with entropyFail := true }

/-- The image in the chosen boot-area slot. -/
def bootSlot (m : Mach) : BootSlot := FMap.get {} m.boot.slots m.boot.slot

/-- The quote header: IDENTITY, BOOT_COUNT and the version of the stage-1 image. [log 164 DESIGN CHOICE] -/
def quoteHeader (m : Mach) : BitVec 512 :=
  let v := (m.bootSlot.stage1.map fun i => i.version.toNat).getD 0
  BitVec.ofNat 512 (m.herd.identity.toNat + m.boot.bootCount.toNat * 2 ^ 64 + v * 2 ^ 128)

/-- A write of QUOTE_NONCE: false where it is refused, which counts BAD_WRITE. [log 164 DESIGN CHOICE] -/
def quoteNonceWrite (m : Mach) (n : BitVec 256) : Bool × Mach :=
  if m.sec.quoteFor.isSome || m.invasive || m.fused.zeroised then (false, m.badWrite (secReg 0))
  else (true, m.modSec fun s => { s with quoteFor := some n, quoteReady := false })

/-- QUOTE_DONE. -/
def quoteDoneOp (m : Mach) : Mach :=
  match m.sec.quoteFor with
  | none => m
  | some n =>
    let h := m.quoteHeader
    let log := (m.sec.log.map fun e => bytes512 e.digest ++ bytes512 e.info).flatten
    let msg := Bits.bytesOf h.toNat 20 ++ bytes256 n ++ ((List.range 8).map fun i => bytes512 (m.mr i)).flatten ++ bytes512 (Config.sha512 log)
    m.modSec fun s => { s with quoteFor := none, quoteReady := true, quote := Config.ed25519Sign m.fused.idPrivate msg, quoteHdr := h, quoteTurn := false }

/-- A read of QUOTE: the signature, then the quote header, in turn. None before QUOTE_READY. [log 164 DESIGN CHOICE] -/
def quoteRead (m : Mach) : Option (BitVec 512 × Mach) :=
  if !m.sec.quoteReady then none
  else some (if m.sec.quoteTurn then m.sec.quoteHdr else m.sec.quote, m.modSec fun s => { s with quoteTurn := !s.quoteTurn })

/-! ### Owner slots and anti-rollback (R560, R561) -/

/-- KEY_COMMAND: a write or revocation of an owner slot; false where it is refused. [log 13 DESIGN CHOICE, 165 DEDUCED] -/
def keyCommandWrite (m : Mach) (cmd : BitVec 512) : Bool × Mach :=
  match Config.keyCommand cmd m.herd.identity m.sec.keyNonce with
  | none => (false, m.badWrite (secReg 0))
  | some (revoke, slot, digest, signer) =>
    if (match signer with | some s => m.ownerOk s | none => true) then
      let m := m.askBlow (if revoke then .revoke slot else .owner slot digest)
      let (n, m) := m.draw256
      (true, m.modSec fun s => { s with keyNonce := n })
    else (false, m.badWrite (secReg 0))

/-- ROLLBACK_COMMIT: each counter takes the SECURITY_VERSION of the running image of its kind, if that is higher. -/
def rollbackCommitOp (m : Mach) : Mach :=
  let b := m.bootSlot
  m.forEach ([(0, if m.boot.stage < 3 then none else b.stage1), (1, m.boot.runA), (2, m.boot.runM)] : List (Nat × Option Image)) fun m (k, i) =>
    match i with
    | some x => if FMap.get 0 m.fused.rollback k < x.secVersion then m.askBlow (.rollback k x.secVersion) else m
    | none => m

/-! ### Debug (R567) -/

/-- A read of DEBUG_NONCE: a fresh nonce. -/
def debugNonceRead (m : Mach) : BitVec 256 × Mach :=
  let (n, m) := m.draw256
  (n, m.modSec fun s => { s with debugNonce := some n })

/-- The check of a debug token, written as two values: false where it fails, which counts BAD_TOKEN. A nonce serves one attempt. [log 166 DEDUCED] -/
def debugTokenWrite (m : Mach) (t1 : BitVec 512) : Bool × Mach :=
  let t0 := m.sec.token0
  let f (lo w : Nat) : Nat := Bits.nfield t0.toNat (8 * lo) (8 * w)
  let scope : BitVec 3 := BitVec.ofNat 3 (f 40 4)
  let sigOk := Config.tokenSigned m.fused.rootDigest (bytes512 t0) t1
    || ownerSlots.any fun s => m.ownerOk s && Config.tokenSigned (m.ownerDigest s) (bytes512 t0) t1
  let good := f 0 8 == m.herd.identity.toNat && (m.sec.debugNonce.map fun n => n.toNat) == some (f 8 32) && f 40 4 < 8 && f 52 12 == 0 && sigOk
    && !m.fused.zeroised
  let m := m.modSec fun s => { s with debugNonce := none }
  if good then
    let m := m.modSec fun s => { s with scopes := s.scopes ||| (scope &&& 1) }
    (true, if scope &&& 6 = 0 then m else m.modSec fun s => { s with nextScopes := scope &&& 6, lastBoot := BitVec.ofNat 64 (f 44 8) })
  else (false, m.count (secReg 8) false)

def debugToken0Write (m : Mach) (t0 : BitVec 512) : Mach := m.modSec fun s => { s with token0 := t0 }

/-- DEBUG_LOCK: no scope is in force from the next start. -/
def debugLockOp (m : Mach) : Mach := m.modSec fun s => { s with nextScopes := 0 }

/-- SEC_STATUS (Table 18-9). -/
def secStatus (m : Mach) : Nat :=
  let f := m.fused
  Bits.ofBool f.zeroised + Bits.ofBool m.sec.entropyFail * 2 + m.sec.scopes.toNat * 4 + Bits.ofBool f.ownerRequired * 0x20 + f.ownerActive.toNat * 0x40
    + f.ownerRevoked.toNat * 0x400 + f.glitches * 0x4000 + Bits.ofBool m.sec.quoteReady * 0x20000

/-- A write of SEC_CTL with its mask applied. -/
def secCtlWrite (m : Mach) (w : BitVec 32) : Mach :=
  let m := if w.getLsbD 16 && w.getLsbD 0 then m.rollbackCommitOp else m
  if w.getLsbD 17 && w.getLsbD 1 then m.debugLockOp else m

/-! ### Telemetry FIFOs (R556 to R558) -/

/-- [log 168 DEDUCED] -/
def telCount (f : TelFifo) : Nat := (f.wr - f.rd).toNat

/-- A read of TEL_WORD of die number `d`. -/
def telRead (m : Mach) (d : Nat) : BitVec 64 × Mach :=
  let f := m.tel d
  if f.wr = f.rd then (f.lastWord, m.setTel d { f with underrun := true })
  else
    let w := FMap.get 0 f.words (f.rd.toNat % 512)
    (w, m.setTel d { f with rd := f.rd + 1, lastWord := w })

/-- The read pointer moved to the next entry with a start flag, or to the write pointer; at least one entry is passed. -/
def telSkip (f : TelFifo) (rd : BitVec 10) : Nat → BitVec 10
  | 0 => f.wr
  | n + 1 => if rd = f.wr then f.wr else if FMap.get false f.starts (rd.toNat % 512) then rd else telSkip f (rd + 1) n

/-- DROP_PACKET. -/
def dropPacketOp (m : Mach) (d : Nat) : Mach :=
  let f := m.tel d
  if f.wr = f.rd then m else m.setTel d { f with rd := telSkip f (f.rd + 1) 512 }

/-- TEL_STATUS. [log 168 DEDUCED] -/
def telStatus (m : Mach) (d : Nat) : Nat :=
  let f := m.tel d
  min 512 (telCount f) + Bits.ofBool (f.wr ≠ f.rd && FMap.get false f.starts (f.rd.toNat % 512)) * 0x400 + Bits.ofBool f.underrun * 0x800

end Mach
end Machine
end Sys2Proof
end

