-- ==== Sys2Proof/Machine/ResetOps.lean ====
section
/-!
DEFINITION. Module resets (R516, R517, R592, R593, R599): what each leaves, what holds the module in reset, and the choice between
the warm and the cold path (R520). The Goose's safety resets (R552, R554) and its status.
-/
namespace Sys2Proof
namespace Machine
namespace Mach

/-! ### What a reset leaves (R517, R599) -/

/-- Bring-up state that reports the reset's cause and path, and that the always-on domains or the flash keep. [log 147 DEDUCED] -/
def bootKeep (b : Boot) (cause : BitVec 5) (power : Bool) : Boot :=
  let slots := if power then b.slots.map fun p => (p.1, { p.2 with failed := false }) else b.slots
  { cause := cause, retained := if power then { voteOk := false } else b.retained, reports := if power then [] else b.reports,
    bootCount := b.bootCount, slots := slots, slot := b.slot, preferOther := b.preferOther, powered := b.powered, resetPin := b.resetPin }

/-- Registers that a reset does not set to their reset values: the Goose's counters; and those whose value the fuses or the
retained record give: the caps and PREF_NUM. -/
def regsKeep (m : Mach) (r : Retained) (power : Bool) : FMap (BitVec 32) :=
  let cap := variantCap m.fused.variant.toNat
  let put (f : FMap (BitVec 32)) (off : Nat) (v : BitVec 32) : FMap (BitVec 32) := FMap.set (regReset off) f off v
  let f := put [] (pwrReg 0x10) (BitVec.ofNat 32 (cap + cap * 2 ^ 11))
  let f := put f (herdReg 0x408) (Bits.setField (regReset (herdReg 0x408)) 0 9 r.prefNum.toNat)
  if power then f else put f (gooseReg 0xC) (m.reg (gooseReg 0xC))

/-- The module at a reset. With `power`, the always-on domains have lost power too, and with them the beat state, the site state, the
retained record and the logs (R517). [log 147 DEDUCED, 150 DEDUCED, 191 DEDUCED] -/
def resetTo (m : Mach) (cause : BitVec 5) (power : Bool) : Mach :=
  let b := bootKeep m.boot cause power
  let site : Site := if power then {} else m.site
  let tier := tierReset m.tier
  let top := BitVec.ofNat 3 m.variantTop
  { now := m.now, out := m.out, free := m.free, blows := m.blows, fused := m.fused, boot := b, site := site,
    beat := if power then { zero := m.now, ref := m.now } else m.beat,
    gov := { vin := m.gov.vin, vbus := m.gov.vbus },
    lean := { state := if site.lean then 1 else 0, causeSite := site.lean, clear := m.lean.clear, inputOpen := m.lean.inputOpen },
    save := { seal0 := m.save.seal0, seal1 := m.save.seal1 },
    sched := if power then [] else m.sched.foldl (fun f p => FMap.set 0 f p.1 (p.2 &&& ~~~(1#64 <<< 63))) [],
    dies := [0, 1, 2, 3].foldl (fun f d => FMap.set ({} : Die) f d { enfOp := top }) [],
    hbms := b.retained.modeNext.foldl (fun f p => FMap.set ({} : Hbm) f p.1 { modeNext := p.2 }) [],
    tier := { tier with sizeNext := b.retained.sizeNext, mapDue := if m.tierMounted then m.lean.mapHere else tier.mapDue },
    links := m.links.foldl (fun f p => FMap.set ({} : Link) f p.1 { cable := p.2.cable }) [],
    herd := { identity := m.herd.identity },
    goose := if power then {} else { cause := m.goose.cause, alert := m.goose.lockout, lockout := m.goose.lockout, resets := m.goose.resets,
                                     heldMclk := m.goose.heldMclk, heldRef := m.goose.heldRef, heldTemp := m.goose.heldTemp },
    sec := { draws := m.sec.draws, nextScopes := if power then 0 else m.sec.nextScopes, lastBoot := if power then 0 else m.sec.lastBoot },
    tels := if power then [] else m.tels.foldl (fun f p => FMap.set ({} : TelFifo) f p.1 { p.2 with lastWord := 0, underrun := false }) [],
    regs := m.regsKeep b.retained power }

/-! ### Start, warm or cold (R520) -/

/-- WARM_WHY for a start: 0 where R520's conditions hold so far. [log 145 DEDUCED] -/
def warmWhyNow (b : Boot) : BitVec 4 :=
  if b.cause = 1 then 1 else if b.retained.forceCold then 2 else if !b.retained.token then (if b.retained.tokenWhy = 0 then 3 else b.retained.tokenWhy)
  else if !b.retained.voteOk then 4 else 0

/-- A start at stage 0. [log 145 DEDUCED] -/
def startAt (m : Mach) (why : BitVec 4) : Mach :=
  let m := m.modBoot fun b => { b with stage := 0, warm := why == 0, warmTaken := why == 0, warmWhy := why, stageAt := m.now }
  if 1 < why.toNat then m.count (bootReg 0x38) true else m

/-- Something holds the module in reset (R552, R554, R592). -/
def resetHeld (m : Mach) : Bool :=
  m.boot.resetPin || !m.boot.powered || m.goose.heldMclk || m.goose.heldRef || m.goose.heldTemp || m.goose.lockout

/-- The module leaves reset and starts, unless something holds it, or a stopped start is to stay stopped (R554). [log 148 DEDUCED] -/
def leaveReset (m : Mach) : Mach :=
  if m.resetHeld then m.modBoot fun b => { b with inReset := true }
  else
    let m := m.modBoot fun b => { b with inReset := false, resetAt := m.now }
    if m.boot.stopped then m
    else (m.modBoot fun b => { b with bootCount := b.bootCount + 1 }).startAt (warmWhyNow m.boot)

/-- A condition that held the module in reset may have gone. -/
def resetGo (m : Mach) : Mach := if m.boot.inReset then m.showAlert m.leaveReset else m

/-- A reset for the cause of RESET_CAUSE bit `bit`. -/
def moduleReset (m : Mach) (bit : Nat) : Mach := m.showAlert (m.resetTo (1#5 <<< bit) false).leaveReset

/-! ### The commands of R516, R517 and R592 -/

/-- ALWAYS_ON_POWER_LOSS. -/
def alwaysOnLossOp (m : Mach) (t : Nat) : Mach :=
  if !m.boot.powered then m
  else
    let m := m.advance t
    m.showAlert ((m.resetTo 1 true).modBoot fun b => { b with powered := false, inReset := true })

/-- POWER_ON_RESET. A start that had stopped goes on with the other slot (R554). -/
def powerOnOp (m : Mach) (t : Nat) : Mach :=
  let m := (m.alwaysOnLossOp t).advance t
  (m.modBoot fun b => { b with powered := true, cause := 1 }).resetGo

/-- EXTERNAL_RESET: MOD_RESET_N low for at least `low` mclk cycles (R592). It ends a lockout and a stop (R554). [log 17 DESIGN CHOICE, 149 DEDUCED] -/
def externalResetOp (m : Mach) (t low : Nat) : Mach :=
  if !m.boot.powered || decide (low < 500) || (decide (low < 5000) && !Config.shortReset low) then m
  else
    let m := m.advance t
    let x := (m.modBoot fun b => { b with resetPin := true }).modGoose fun g => { g with lockout := false }
    m.showAlert (x.resetTo 2 false).leaveReset

/-- MOD_RESET_RELEASE. -/
def resetReleaseOp (m : Mach) (t : Nat) : Mach :=
  if !m.boot.resetPin then m else ((m.advance t).modBoot fun b => { b with resetPin := false }).resetGo

/-- SUPPLY_RESET: VBUS reaches 36.0 V (R73). -/
def supplyResetOp (m : Mach) : Mach := if m.boot.powered then m.moduleReset 2 else m

/-- SW_RESET. A stopped module stays stopped (R554). [log 148 DEDUCED] -/
def swResetOp (m : Mach) (t : Nat) : Mach := if m.boot.inReset || m.boot.stopped then m else (m.advance t).moduleReset 4

/-- KILL_TOKEN (R521). -/
def killTokenOp (m : Mach) : Mach := m.modBoot fun b => { b with retained := { b.retained with token := false, tokenWhy := 3 } }

/-- The warm token goes because a fuse vote failed (R521). -/
def voteKillsToken (m : Mach) : Mach := m.modBoot fun b => { b with retained := { b.retained with token := false, tokenWhy := 6 } }

/-! ### The Goose's actions (R552, R554) -/

/-- GOOSE_STATUS (Table 18-8). -/
def gooseStatus (m : Mach) : Nat :=
  let g := m.goose
  g.cause.toNat + Bits.ofBool g.alert * 0x10 + Bits.ofBool g.lockout * 0x20 + Bits.ofBool g.armed * 0x40

/-- "Alert": ALERT_N, CAUSE and the record of type 0x12. [log 149 DEDUCED, 169 DEDUCED] -/
def gooseAlert (m : Mach) (cause : BitVec 4) : Mach :=
  let x := m.modGoose fun g => { g with cause := cause, alert := true }
  m.showAlert (x.telRecord 0 0x12 (dieAgent 0) [BitVec.ofNat 64 x.gooseStatus])

/-- Ten minutes of mclk. -/
def tenMinutes : Nat := 300000000000

/-- "Safety reset": the third within ten minutes locks the module out (R554). A start that had stopped stays stopped. [log 149 DEDUCED] -/
def safetyReset (m : Mach) (cause : BitVec 4) : Mach :=
  if !m.boot.powered then m else
  let rs := m.now :: m.goose.resets.filter fun x => decide (m.now ≤ x + tenMinutes)
  let x := (m.gooseAlert cause).count (gooseReg 0xC) false
  let x := x.modGoose fun g => { g with resets := rs, lockout := g.lockout || decide (3 ≤ rs.length) }
  let stop := x.boot.stopped
  let at_ := x.boot.stage
  x.showAlert ((x.resetTo 8 false).modBoot fun b => { b with stopped := stop, stage := if stop then at_ else 0 }).leaveReset

end Mach
end Machine
end Sys2Proof
end

