-- ==== Sys2Proof/Machine/BootOps.lean ====
section
/-!
DEFINITION. The start (R522 to R536): the ten stages with their reports (R525), the reconciliation of fuses with test (R526 to R529),
mixed steppings (R531), firmware distribution (R532 to R536) and the recovery of a stopped start (R559).
-/
namespace Sys2Proof
namespace Machine
namespace Mach

/-! ### Stage reports (Tables 17-3 and 17-4) -/

/-- CRC-32 of IEEE 802.3. -/
def crc32 (bs : List Byte) : Nat := bs.foldl (Bits.crcByteR 0xEDB88320) 0xFFFFFFFF ^^^ 0xFFFFFFFF

/-- Writes a stage report; `detail` holds the bytes from 16 on, up to 32 of them. -/
def report (m : Mach) (stage result : Nat) (service : Bool) (die : Nat) (detail : List Byte) : Mach :=
  let b := m.boot
  let body := Bits.bytesOf stage 1 ++ Bits.bytesOf result 1 ++ Bits.bytesOf (Bits.ofBool b.warm + Bits.ofBool service * 2) 1 ++ Bits.bytesOf die 1
    ++ Bits.bytesOf ((m.now - b.stageAt) / 500) 4 ++ Bits.bytesOf (m.now - b.resetAt) 8 ++ (detail ++ List.replicate 32 0).take 32
    ++ Bits.bytesOf b.bootCount.toNat 8 ++ Bits.bytesOf 0 4
  let r := BitVec.ofNat 512 (Bits.ofBytes (body ++ Bits.bytesOf (crc32 body) 4))
  m.modBoot fun b => { b with reports := (r :: b.reports).take 64 }

/-- Enabled flocks of an A-die. -/
def flockCount (m : Mach) (d : Nat) : Nat := Bits.popCount (m.die d).flockMap.toNat 26

/-- BOOT_STATUS.DEGRADED: an A-die excluded (R524), a fuse fault (R526), fewer than 24 flocks on a die after stage 5 (R12). [log 154 DEDUCED] -/
def degradedNow (m : Mach) : Bool :=
  m.boot.degraded || [0, 1, 2, 3].any fun d => (m.die d).excluded || (decide (5 < m.boot.stage) && decide (m.flockCount d < 24))

/-- The stage in progress is `n`, and may end: the start is not stopped, and lean state does not hold it (R524). -/
def inStage (m : Mach) (n : Nat) : Bool := m.boot.stage == n && !m.boot.ready && !m.boot.stopped && !m.boot.inReset && !m.inLean

/-- A stage ends, with its report for the module, and the next one begins. -/
def stageEnd (m : Mach) (n result : Nat) (detail : List Byte) : Mach :=
  let m := m.report n result false 0 detail
  m.modBoot fun b => { b with stage := n + 1, stageAt := m.now }

def stageResult (m : Mach) : Nat := if m.degradedNow then 1 else 0

/-- The start stops with RESULT = 2 (R554). -/
def stageStop (m : Mach) (n : Nat) (detail : List Byte) : Mach :=
  let m := m.report n 2 false 0 detail
  m.modBoot fun b => { b with stopped := true, preferOther := b.preferOther || n ≠ 1, recovery := n ≠ 1, linkLocal := false }

/-- The module restarts at stage 0 as a cold start (R520): everything a reset clears is cleared, and the reason stands in WARM_WHY. [log 145 DEDUCED, 146 DEDUCED] -/
def restartCold (m : Mach) (why : BitVec 4) : Mach :=
  let x := m.resetTo m.boot.cause false
  m.showAlert ((x.modBoot fun b => { b with resetAt := m.boot.resetAt }).startAt why)

/-! ### Stages 0 to 3 -/

/-- STAGE_0: VBUS is within 1 V of VIN, and VIN above clear. [log 144 DESIGN CHOICE] -/
def stage0Op (m : Mach) (t : Nat) (vin vbus : BitVec 10) : Mach :=
  let near := decide (vin.toNat ≤ vbus.toNat + 10 ∧ vbus.toNat ≤ vin.toNat + 10)
  if !m.inStage 0 || !near || !vAbove vin m.clearCode || m.lean.inputOpen then m
  else
    let m := (m.advance t).modGov fun g => { g with vin := vin, vbus := vbus }
    ({ m with lean := { m.lean with clear := true } }).stageEnd 0 0 (Bits.bytesOf vin.toNat 2 ++ Bits.bytesOf vbus.toNat 2)

/-- The fuse values in force (R523, R561): failed groups take what their rule gives. -/
def votedFuses (f : Fuses) (v : FuseVotes) : Fuses :=
  { f with variant := if v.variantOk then f.variant else 2, ownerRevoked := f.ownerRevoked ||| v.ownerBad,
           rollback := v.rollbackBad.foldl (fun (r : FMap Nat) x => FMap.set 0 r x.1.val (min x.2 63)) f.rollback }

/-- The limits of the variant, once it is loaded (R2, R45, R51). -/
def loadVariant (m : Mach) : Mach :=
  let c := variantCap m.fused.variant.toNat
  let m := m.setReg (pwrReg 0x10) (BitVec.ofNat 32 (c + c * 2 ^ 11))
  m.forEach [0, 1, 2, 3] fun m d => m.modDie d fun x => { x with enfOp := BitVec.ofNat 3 m.variantTop }

/-- The identity key is generated at the first cold start (R562); IDENTITY follows the key. [log 167 DEDUCED] -/
def loadIdentity (m : Mach) : Mach :=
  let m := match m.fused.idPublic with
    | some _ => m
    | none =>
      if m.sec.entropyFail || m.fused.zeroised then m
      else
        let (k, m) := m.draw256
        m.askBlow (.identity (Config.ed25519Public k) k)
  m.modHerd fun h => { h with identity := identityOf m.fused.idPublic }

/-- The lifecycle word that MR0 measures (Table 18-6). [log 163 DESIGN CHOICE] -/
def lifecycle (m : Mach) : Nat :=
  Bits.ofBool m.fused.ownerRequired + m.fused.ownerActive.toNat * 2 + m.sec.scopes.toNat * 0x20 + m.fused.variant.toNat * 0x100

/-- STAGE_1: the boot ROM, the C-die fuse votes, the variant (R523), and the security block's start (R561, R562, R564, R567). [log 21 DESIGN CHOICE, 145 DEDUCED] -/
def stage1Op (fuses : Fuses) (m : Mach) (t : Nat) (v : FuseVotes) : Mach :=
  if !m.inStage 1 then m
  else
    let m := m.advance t
    let m := { m with fused := votedFuses fuses v }
    let bad := !v.repairOk || !v.variantOk
    let any := bad || !v.rootOk || v.ownerBad ≠ 0 || !v.rollbackBad.isEmpty
    let m := (m.countN (bootReg 0x30) false v.corrected).countN (bootReg 0x30) true v.recordCorrected
    let m := m.modBoot fun b => { b with degraded := b.degraded || bad, fuseFault := b.fuseFault || bad }
    let m := if any then m.voteKillsToken else m
    let m := if v.recordOk then m else m.modBoot fun b => { b with retained := { b.retained with voteOk := false } }
    let m := if (any || !v.recordOk) && m.boot.warm then
        (m.modBoot fun b => { b with warm := false, warmTaken := false, warmWhy := if any then 6 else 4 }).count (bootReg 0x38) true else m
    let m := m.loadVariant.loadIdentity
    let m := m.modSec fun s => { s with scopes := if m.boot.bootCount.toNat ≤ s.lastBoot.toNat then s.nextScopes else 0 }
    let m := m.modSec fun s => { s with keysLoaded := !m.fused.zeroised && !m.invasive }
    let (n, m) := m.draw256
    let m := m.modSec fun s => { s with keyNonce := n }
    let m := m.measure 0 (Config.sha512 (Bits.bytesOf m.lifecycle 4)) 1 0
    let detail := Bits.bytesOf m.fused.variant.toNat 1 ++ Bits.bytesOf (min 255 v.corrected) 1
    if v.rootOk then m.stageEnd 1 m.stageResult detail else m.showAlert (m.stageStop 1 detail)

/-- The order in which stage 2 tries the boot-area slots (R559). -/
def slotOrder (b : Boot) : List Nat :=
  let ver (k : Nat) : Nat := ((FMap.get ({} : BootSlot) b.slots k).stage1.map fun i => i.version.toNat + 1).getD 0
  let order := if b.preferOther then [1 - b.slot, b.slot] else if ver 0 < ver 1 then [1, 0] else [0, 1]
  order.filter fun k => !(FMap.get ({} : BootSlot) b.slots k).failed

/-- Tries slots in order: those that fail are marked, and the first that holds an acceptable stage-1 image is chosen. [log 151 DESIGN CHOICE] -/
def trySlots (m : Mach) : List Nat → Option (Nat × Image) × Mach
  | [] => (none, m)
  | k :: rest =>
    let s := FMap.get ({} : BootSlot) m.boot.slots k
    match s.stage1.filter fun i => m.imageOk 0 i with
    | some i => (some (k, i), m)
    | none => trySlots (m.modBoot fun b => { b with slots := FMap.set {} b.slots k { s with failed := true } }) rest

/-- STAGE_2: the boot-area slot and its stage-1 image (R559, R564). [log 149 DEDUCED] -/
def stage2Op (m : Mach) (t : Nat) : Mach :=
  if !m.inStage 2 then m
  else
    let m := m.advance t
    match m.trySlots (slotOrder m.boot) with
    | (none, m) => (m.stageStop 2 []).gooseAlert 8
    | (some (k, i), m) =>
      let m := m.modBoot fun b => { b with slot := k, minRev := i.minRev, preferOther := false }
      let m := m.measure 1 i.digest 2 i.version.toNat
      let rb := (List.range 3).map fun j => BitVec.ofNat 8 (FMap.get 0 m.fused.rollback j)
      let m := m.measure 5 (Config.sha512 rb) 2 0
      m.stageEnd 2 m.stageResult (Bits.bytesOf k 1 ++ Bits.bytesOf i.version.toNat 4)

/-- An A-die is excluded (R524): declared dead, its links held DOWN, its domains OFF. [log 153 DEDUCED] -/
def exclude (m : Mach) (d : Nat) : Mach :=
  if (m.die d).excluded then m
  else
    let m := m.dieDead d
    let m := m.forEach (dieLinks d) fun m k => m.modLink k fun l => { l with held := true }
    m.modDie d fun x => { x with excluded := true, domains := [], waking := [], flockMap := 0 }

/-- The A-dies that the module uses. -/
def liveDies (m : Mach) : List Nat := [0, 1, 2, 3].filter fun d => !m.dieOut d

/-- The fuse map of an A-die in force: nothing where its vote has failed (R526). -/
def fuseOf (m : Mach) (d : Nat) (voted : Bool) : DieFuse := if voted then FMap.get {} m.fused.dies d else {}

/-- The domains of an A-die switched ON by bring-up, but for the flocks that the fuses mark bad (R526). [log 153 DEDUCED] -/
def dieUp (m : Mach) (d : Nat) : Mach :=
  let bad := (m.fuseOf d true).badFlocks
  m.forEach ((List.range 41).filter fun i => !(decide (i < 26) && bad.getLsbD i)) fun m i => m.setDomain d i .on

/-- STAGE_3: regulators and domains; `bad` are the A-dies whose regulators or domains fail. [log 153 DEDUCED] -/
def stage3Op (m : Mach) (t : Nat) (bad : BitVec 4) : Mach :=
  if !m.inStage 3 then m
  else
    let m := m.advance t
    let m := m.forEach [0, 1, 2, 3] fun m d => if bad.getLsbD d then m.exclude d else m.dieUp d
    m.stageEnd 3 m.stageResult []

/-! ### Stage 4 (R438, R439, R444, R531) -/

/-- A link end comes up at the given width, with its peer's DISC. -/
def linkUp (m : Mach) (k : Nat) (w : BitVec 6) (version : BitVec 8) : Mach :=
  let peer := (linkMate k).map fun j => m.ownDisc j
  m.modLink k fun l => { l with state := if w.toNat = (linkLanes k).1 then .up else .upDegraded, width := w, peer := peer, version := version,
                                lastGood := m.now, held := false }

/-- The on-module links of the live dies come up. -/
def linksUp (m : Mach) (width : Nat → BitVec 6) (version : BitVec 8) : Mach :=
  m.forEach m.liveDies fun m d =>
    let m := (m.linkUp (3 * d) (width d) version).linkUp (12 + d) (width d) version
    let m := if m.dieOut ((d + 3) % 4) then m else m.linkUp (3 * d + 1) 16 version
    if m.dieOut ((d + 1) % 4) then m else m.linkUp (3 * d + 2) 16 version

/-- What R531 fixes from the dies that remain: the AND of the feature words, the lowest REVISION and VERSION, and whether they differ. -/
def steppings (m : Mach) (f : Nat → DieFind) : Mach :=
  let ds := m.liveDies
  let feat := ds.foldl (fun (a : BitVec 32) d => a &&& (f d).features) (if ds = [] then 0 else BitVec.allOnes 32)
  let low (g : DieFind → Nat) : Nat := ((ds.map fun d => g (f d)).min?).getD 0
  let rev := low fun x => x.revision.toNat
  m.modBoot fun b =>
    { b with features := feat, modRev := BitVec.ofNat 2 rev, mixed := ds.any fun d => (f d).revision.toNat ≠ rev,
             linkVersion := BitVec.ofNat 8 (low fun x => x.version.toNat),
             dieFeatures := ds.foldl (fun (a : FMap (BitVec 32)) d => FMap.set 0 a d feat) [],
             dieRev := [0, 1, 2, 3].foldl (fun (a : FMap (BitVec 2)) d => FMap.set 0 a d (f d).revision) [] }

/-- STAGE_4. [log 145 DEDUCED] -/
def stage4Op (m : Mach) (t : Nat) (f : Nat → DieFind) : Mach :=
  if !m.inStage 4 then m
  else
    let m := m.advance t
    let ids : FMap (BitVec 2 × BitVec 32) := [0, 1, 2, 3].foldl (fun a d => FMap.set (0, 0) a d ((f d).revision, (f d).features)) []
    if m.boot.warm && ids ≠ m.boot.retained.dieIds then m.restartCold 5
    else
      let m := m.forEach m.liveDies fun m d => if !(f d).trained || decide ((f d).revision.toNat < m.boot.minRev.toNat) then m.exclude d else m
      let m := (m.steppings f).retain fun r => { r with dieIds := ids }
      let m := m.linksUp (fun d => (f d).width) m.boot.linkVersion
      let m := m.forEach (List.range 16) fun m p => m.herdRetryOp p
      let words := ([0, 1, 2, 3].map fun d => Bits.bytesOf (f d).revision.toNat 1 ++ Bits.bytesOf (f d).features.toNat 4).flatten
      let m := m.measure 4 (Config.sha512 (words ++ Bits.bytesOf m.boot.features.toNat 4)) 4 0
      let one (d : Nat) : List Byte := Bits.bytesOf (f d).revision.toNat 1 ++ Bits.bytesOf (f d).width.toNat 1 ++ Bits.bytesOf (f d).version.toNat 1
        ++ Bits.bytesOf (Bits.ofBool (m.die d).excluded) 1
      m.stageEnd 4 m.stageResult ([0, 1, 2, 3].map one).flatten

/-! ### Stage 5: fuses against test (R526 to R529) -/

/-- The repair maps that the fuses give an Ox, and the faulty lines that test finds in it. -/
def fuseRepair (x : DieFuse) (f o : Nat) : FMap (BitVec 32) :=
  [0, 1, 2, 3].foldl (fun r a => FMap.set 0 r a (FMap.get 0 x.oxRepair (16 * f + 4 * o + a))) []
def testCells (t : DieTest) (f o : Nat) : List OxCell := (t.oxCells.filter fun c => c.1.val == f && c.2.1.val == o).map fun c => c.2.2

/-- The maps of a good Ox after test; none for a bad Ox. -/
def oxTested (x : DieFuse) (t : DieTest) (f o : Nat) : Option (FMap (BitVec 32)) :=
  if x.badOxen.contains (4 * f + o) then none else repairAll (fuseRepair x f o) (testCells t f o)

/-- Spares that repair maps use. -/
def sparesUsed (r : FMap (BitVec 32)) : Nat := (r.map fun p => ((List.range 4).filter fun i => decide (0x80 ≤ repairEntry p.2 i)).length).sum

/-- Good units of a flock. -/
def goodOxen (ox : Nat → Nat → Option (FMap (BitVec 32))) (f : Nat) : Nat := ((List.range 4).filter fun o => (ox f o).isSome).length
def goodHens (henBad : Nat → Nat → Bool) (f : Nat) : Nat := ((List.range 16).filter fun h => !henBad f h).length

/-- Flock `x` is left out before flock `y` (R528). [log 154 DEDUCED] -/
def leftBefore (oxen hens : Nat → Nat) (x y : Nat) : Bool :=
  decide (oxen x < oxen y) || (oxen x == oxen y && (decide (hens x < hens y) || (hens x == hens y && decide (y < x))))

/-- Leaves out `n` of the good flocks. [log 154 DEDUCED] -/
def leaveOut (oxen hens : Nat → Nat) (l : List Nat) : Nat → List Nat
  | 0 => l
  | n + 1 =>
    let worst := l.foldl (fun (w : Option Nat) f => match w with | some g => if leftBefore oxen hens f g then some f else w | none => some f) none
    leaveOut oxen hens (l.filter fun f => some f ≠ worst) n

/-- FLOCK_MAP of a set of enabled flocks (Table 1-2). [log 154 DEDUCED] -/
def flockMapOf (fs : List Nat) : BitVec 27 := BitVec.ofNat 27 ((fs.map fun f => 2 ^ f).sum + if fs.length < 24 then 2 ^ 26 else 0)

/-- The units of a flock as stage 5 leaves them (R529). -/
def flockTested (m : Mach) (d f : Nat) (ox : Nat → Nat → Option (FMap (BitVec 32))) (henBad : Nat → Nat → Bool) : Mach :=
  let fb := flockBase d f
  let m := m.forEach (List.range 4) fun m o => match ox f o with
    | some r => m.modOx (fb + 16 + o) fun x => { x with state := .idle, repair := r }
    | none => m.modOx (fb + 16 + o) fun x => { x with state := .failed }
  m.forEach (List.range 16) fun m h => if henBad f h then m.modHen (fb + h) fun x => { x with state := .failed, haltCause := 3 } else m

/-- Stage 5 of an A-die: with BIST, or (`warm`) from the retained maps. False where the die does not pass. The detail of its report
follows. -/
def testDie (m : Mach) (d : Nat) (t : DieTest) (warm : Bool) : Bool × List Byte × Mach :=
  let x := m.fuseOf d t.voteOk
  let r := m.boot.retained
  let m := m.modBoot fun b => { b with dieFuseFault := FMap.set false b.dieFuseFault d !t.voteOk, fuseFault := b.fuseFault || !t.voteOk,
                                       degraded := b.degraded || !t.voteOk }
  let m := if t.voteOk then m else m.voteKillsToken
  if t.fatal && !warm then (false, [], m.exclude d)
  else
    let kept (f o : Nat) : Option (FMap (BitVec 32)) :=
      if r.badOxen.contains ((d * 26 + f) * 4 + o) then none
      else some ([0, 1, 2, 3].foldl (fun g a => FMap.set 0 g a (FMap.get 0 r.oxRepair ((d * 26 + f) * 16 + 4 * o + a))) [])
    let ox := if warm then kept else oxTested x t
    let henBad (f h : Nat) : Bool :=
      if warm then r.badHens.contains ((d * 26 + f) * 16 + h)
      else x.badHens.contains (16 * f + h) || t.badHens.any fun p => p.1.val == f && p.2.val == h
    let good := (List.range 26).filter fun f => if warm then (FMap.get 0 r.flockSet d).getLsbD f else !x.badFlocks.getLsbD f && !t.badFlocks.getLsbD f
    let on := leaveOut (goodOxen ox) (goodHens henBad) good (good.length - 24)
    let m := m.forEach (List.range 26) fun m f =>
      if on.contains f then (m.setDomain d f .on).flockTested d f ox henBad else m.setDomain d f .off
    let m := m.forEach [0, 1, 2, 3] fun m i =>
      if t.badMules.getLsbD i then m.modMule (agentId (d + 1) 26 i) fun u => { u with state := .quiesced, bad := true } else m
    let m := m.modDie d fun y => { y with flockMap := flockMapOf on }
    let units (n : Nat) : List (Nat × Nat) := (good.map fun f => (List.range n).map fun i => (f, i)).flatten
    let badOx := (units 4).filter fun p => (ox p.1 p.2).isNone
    let badHen := (units 16).filter fun p => henBad p.1 p.2
    let among (k : Nat) (l new : List Nat) : List Nat := (l.filter fun i => decide (i / k < d)) ++ new ++ l.filter fun i => decide (d < i / k)
    let m := m.retain fun r =>
      { r with oxRepair := (units 4).foldl (fun (acc : FMap (BitVec 32)) p => [0, 1, 2, 3].foldl (fun acc a =>
                 FMap.set 0 acc ((d * 26 + p.1) * 16 + 4 * p.2 + a) (FMap.get 0 ((ox p.1 p.2).getD []) a)) acc) (outside r.oxRepair (d * 416) (d * 416 + 416)),
               flockSet := FMap.set 0 r.flockSet d (BitVec.ofNat 26 (on.map fun f => 2 ^ f).sum),
               badOxen := among 104 r.badOxen (badOx.map fun p => (d * 26 + p.1) * 4 + p.2),
               badHens := among 416 r.badHens (badHen.map fun p => (d * 26 + p.1) * 16 + p.2) }
    let m := m.modBoot fun b =>
      { b with svcDies := FMap.set {} b.svcDies d { FMap.get {} b.svcDies d with goodFlocks := BitVec.ofNat 26 (good.map fun f => 2 ^ f).sum } }
    let spares := ((units 4).map fun p => sparesUsed ((ox p.1 p.2).getD []) - (if (ox p.1 p.2).isSome then sparesUsed (fuseRepair x p.1 p.2) else 0)).sum
    let detail := Bits.bytesOf ((m.die d).flockMap.toNat % 2 ^ 26) 4 ++ Bits.bytesOf x.badFlocks.toNat 4
      ++ Bits.bytesOf (if warm then 0 else t.badFlocks.toNat) 4 ++ Bits.bytesOf badOx.length 2 ++ Bits.bytesOf badHen.length 2
      ++ Bits.bytesOf (if warm then 0 else spares + t.spares) 2 ++ Bits.bytesOf (Bits.ofBool !t.voteOk) 1
    (true, detail, m)

/-- The reports of the A-dies in stages 5 and 6: that of a live die is made by `f`; a die excluded before the stage has it skipped. [log 153 DEDUCED] -/
def dieReports (m : Mach) (n : Nat) (f : Mach → Nat → Mach) : Mach :=
  m.forEach [0, 1, 2, 3] fun m d => if m.dieOut d then m.report n 3 false (d + 1) [] else f m d

/-- RESULT of a die's report in stages 5 and 6. -/
def dieResult (m : Mach) (d : Nat) : Nat :=
  if m.dieOut d || FMap.get false m.boot.dieFuseFault d || decide (m.flockCount d < 24) then 1 else 0

/-- STAGE_5. On the warm path a fuse vote that fails makes the module start cold (R520, R521). [log 144 DESIGN CHOICE] -/
def stage5Op (m : Mach) (t : Nat) (f : Nat → DieTest) : Mach :=
  if !m.inStage 5 then m
  else
    let m := m.advance t
    if m.boot.warm && m.liveDies.any fun d => !(f d).voteOk then m.voteKillsToken.restartCold 6
    else
      let m := m.dieReports 5 fun m d =>
        let (_, detail, m) := m.testDie d (f d) m.boot.warm
        m.report 5 (m.dieResult d) false (d + 1) detail
      m.stageEnd 5 (if m.degradedNow || m.liveDies.any fun d => decide (m.flockCount d < 24) then 1 else 0) []

/-! ### Stage 6: HBM (R530) -/

/-- Brings up a stack: its mode, its training, and every location written with zero, or with the poison pattern (`fill`, R542). [log 107 DEDUCED] -/
def stackUp (m : Mach) (k : Nat) (f : StackFind) (fill : Bool) : Mach :=
  let lo := stackBase k
  let m := { m with hbm := outside m.hbm lo (lo + stackBytes), hbmPoison := outside m.hbmPoison (lo / 64) ((lo + stackBytes) / 64) }
  let m := m.modHbmc k fun h => { h with
    mode := h.modeNext, up := true, poisonFill := fill, selfRefresh := false, pcs := [], dueList := []
    entering := false, leaving := false, scrubMark := m.now, scrubMask := 0 }
  let m := m.forEach (List.range 32) fun m p => m.pcTrained k p
  let m := m.forEach f.poison fun m l => if hbmCtl l = k then m.markPoison l true else m
  m.retain fun r => { r with
    trained := (r.trained.filter fun i => decide (i / 32 < k)) ++ ((List.range 32).map fun p => 32 * k + p) ++ r.trained.filter fun i => decide (k < i / 32)
    degraded := FMap.set 0 r.degraded k 0
    pending := r.pending.filter fun x => x.1 ≠ k }

/-- The detail of a stack in a die's report of stage 6. -/
def stackDetail (m : Mach) (k : Nat) (f : StackFind) : List Byte :=
  Bits.bytesOf (if f.failed then 2 else if f.again = 0 then 0 else 1) 1 ++ Bits.bytesOf (Bits.ofBool (m.hbmc k).mode) 1 ++ Bits.bytesOf f.again 1
    ++ Bits.bytesOf 0 1 ++ Bits.bytesOf f.repaired 4

/-- Stage 6 of an A-die; a stack that fails excludes it. -/
def dieStacks (m : Mach) (d : Nat) (f : Nat → StackFind) (fill : Bool) : Mach :=
  let ks := [3 * d, 3 * d + 1, 3 * d + 2]
  let m := m.forEach ks fun m k => m.stackUp k (f k) fill
  if ks.any fun k => (f k).failed then m.exclude d else m

/-- STAGE_6. It fixes the populated end of the interleaved view (R402) and writes the warm token (R521). [log 144 DESIGN CHOICE] -/
def stage6Op (m : Mach) (t : Nat) (fs : List StackFind) : Mach :=
  if !m.inStage 6 then m
  else
    let f (k : Nat) : StackFind := fs.getD k { again := 0, failed := false, repaired := 0, poison := [] }
    let m := m.advance t
    let m := m.modTier fun t => { t with viewSize := t.sizeNext }
    let m := m.dieReports 6 fun m d =>
      let m := m.dieStacks d f false
      m.report 6 (m.dieResult d) false (d + 1) (([0, 1, 2].map fun j => m.stackDetail (3 * d + j) (f (3 * d + j))).flatten)
    let m := m.modBoot fun b => { b with retained := { b.retained with token := true, tokenWhy := 3, voteOk := true } }
    let m := m.modBoot fun b => { b with dist := { running := true } }
    m.stageEnd 6 m.stageResult []

/-! ### Firmware distribution (R532 to R536) -/

/-- Hens of the enabled flocks of an A-die, and those among them that take firmware; the management Hens. -/
def dieHens (m : Mach) (d : Nat) : List Nat :=
  (((List.range 26).filter fun f => (m.die d).flockMap.getLsbD f).map fun f => (List.range 16).map fun h => flockBase d f + h).flatten
def takesFw (m : Mach) (a : Nat) : Bool := !((m.hen a).state == .failed)
def mgmtHens : List Nat := (List.range 8).map fun h => agentId 0 2 h

/-- Chunks that recipients of an image miss are sent again (R535): to all where more than 1/64 of `total` miss one, else once to each
group of recipients that misses it. -/
def resend (m : Mach) (total : Nat) (group : Nat → Nat) (miss : List FwMiss) : Mach :=
  let cs := (miss.map fun x => x.chunks).flatten.eraseDups
  m.forEach cs fun m c =>
    let who := miss.filter fun x => x.chunks.contains c
    if total < who.length * 64 then m.count (bootReg 0x34) false else m.countN (bootReg 0x34) true (who.map fun x => group x.agent).eraseDups.length

/-- The state of a distribution after a round. -/
def distAfter (d : FwDist) (miss : List FwMiss) : FwDist :=
  let late := miss.filter fun x => x.chunks ≠ []
  { d with missing := late.foldl (fun (f : FMap (List Nat)) x => FMap.set [] f x.agent x.chunks) [], rounds := d.rounds + 1,
           running := decide (d.rounds + 1 < 3) && late ≠ [] }

/-- Writes an image's chunks into a flock's image area (R533, R534): those that some loader of the flock has received. [log 155 DEDUCED] -/
def flockImage (m : Mach) (fb : Nat) (i : Image) : Mach :=
  let hens := ((List.range 16).map fun h => fb + h).filter fun a => m.takesFw a
  let missed (c : Nat) : Bool := hens.all fun a => (FMap.get [] m.boot.dist.missing a).contains c
  m.forEach (List.range i.chunks) fun m c =>
    if missed c then m
    else m.forEach (List.range 64) fun m j => m.fmWrite fb ((flockMemBase fb + 0x7C0000) / 64 + 64 * c + j) (imageLine i (64 * c + j)) fullMask false

/-- A Hen after the last round (R536): it starts, or fails for want of a chunk. [log 155 DEDUCED] -/
def henFirmware (m : Mach) (a base : Nat) (i : Option Image) : Mach :=
  if !m.takesFw a then m
  else match i.filter fun _ => !(m.boot.dist.missing.any fun p => p.1 == a) with
    | some i =>
      let at_ (o : Nat) : BitVec 56 := BitVec.ofNat 56 (base + o)
      m.modHen a fun h => { h with state := .running, haltCause := 0, pc := at_ i.entry, vbase := at_ i.vector, bootPc := at_ i.entry,
                                   bootVec := at_ i.vector, fwLoaded := true, priv := true }
    | none => (m.henHalt a 4).count (bootReg 0x38) false

/-- Stage 7 for one flock: the A-die Hen image, none where the module has accepted none. [log 155 DEDUCED] -/
def flockFirmware (m : Mach) (fb : Nat) (i : Option Image) : Mach :=
  let m := match i with | some x => m.flockImage fb x | none => m
  m.forEach (List.range 16) fun m h => m.henFirmware (fb + h) (flockMemBase fb + 0x7C0000) i

def dieFirmware (m : Mach) (d : Nat) (i : Option Image) : Mach :=
  m.forEach ((List.range 26).filter fun f => (m.die d).flockMap.getLsbD f) fun m f => m.flockFirmware (flockBase d f) i

/-- The management image goes into the management window, which stands in the system cache from here on (R533). [log 156 DEDUCED] -/
def mgmtFirmware (m : Mach) (i : Option Image) : Mach :=
  let base := m.mgmtWindow
  let missed (c : Nat) : Bool := mgmtHens.all fun a => (FMap.get [] m.boot.dist.missing a).contains c
  let m := match i with
    | none => m
    | some x => m.forEach (List.range x.chunks) fun m c =>
        if missed c then m
        else m.forEach (List.range 64) fun m j =>
          let l := interleave (base / 64 + 64 * c + j) / 64
          let m := m.setEntry l { state := .em, ptrs := [sysAgent] }
          m.modAcores fun s => { s with sys := FMap.set none s.sys l (some { st := .m, data := imageLine x (64 * c + j), dirty := true, locked := true }),
                                        lru := l :: s.lru.filter fun y => y ≠ l }
  m.forEach mgmtHens fun m a => m.henFirmware a base i

/-- The Goose's heartbeat window opens (R553). -/
def petWindow (m : Mach) : Mach := m.modGoose fun g => { g with windowEnd := m.now + m.fld (gooseReg 4) 0 10 * 500000, missed := 0 }

/-- The tier is to be mounted: no A-die is excluded, and its media key can be unwrapped (R425, R524, R566, R567). [log 157 DEDUCED] -/
def tierMayMount (m : Mach) : Bool := ([0, 1, 2, 3].all fun d => !m.dieOut d) && !m.fused.zeroised && !m.invasive

/-- STAGE_7: every Hen that has its image starts. [log 144 DESIGN CHOICE, 157 DEDUCED] -/
def stage7Op (m : Mach) (t : Nat) : Mach :=
  if !m.inStage 7 then m
  else
    let m := m.advance t
    let s := m.bootSlot
    let iA := s.aHen.filter fun i => m.imageOk 1 i
    let iM := s.mHen.filter fun i => m.imageOk 2 i
    let m := match iA with | some i => m.measure 2 i.digest 7 i.version.toNat | none => m
    let m := match iM with | some i => m.measure 3 i.digest 7 i.version.toNat | none => m
    let m := m.forEach m.liveDies fun m d => m.dieFirmware d iA
    let m := m.mgmtFirmware iM
    let rounds := max 1 m.boot.dist.rounds
    let m := m.modBoot fun b => { b with runA := iA, runM := iM, dist := { b.dist with running := false } }
    let failed := ((m.liveDies.map fun d => m.dieHens d).flatten ++ mgmtHens).filter fun a => (m.hen a).state == .failed && (m.hen a).haltCause == 4
    let detail := Bits.bytesOf failed.length 2 ++ Bits.bytesOf (m.fld (bootReg 0x34) 0 16) 2 ++ Bits.bytesOf (m.fld (bootReg 0x34) 16 16) 2
      ++ Bits.bytesOf rounds 1
    if mgmtHens.all fun a => !((m.hen a).state == .running) then
      (m.stageStop 7 detail).gooseAlert 8
    else
      let m := (m.modGoose fun g => { g with armed := true, expect5A := true }).petWindow
      let m := (m.modBoot fun b => { b with mgmtStarted := true }).stageEnd 7 m.stageResult detail
      if m.tierMayMount then m.modTier fun t => { t with state := .mounting } else m

/-! ### Stages 8 and 9 (R538, R522) -/

/-- Sets of regions, one bit each. -/
def regionBits (rs : List SavedRegion) (f : SavedRegion → Bool) : BitVec 32 :=
  BitVec.ofNat 32 ((rs.map fun r => if f r then 2 ^ (r.index % 32) else 0).sum)

/-- The digest of a saved region's data, against its seal (R538). -/
def regionIntact (r : SavedRegion) : Bool := Config.sha512 (Memory.readBytes r.data 0 (64 * descLines r.desc)) == r.digest

/-- SAVE_INFO (R538, R544) for the newest seal, or zeros where there is none. [log 158 DEDUCED] -/
def saveInfoOf (s : Option Seal) (bad : BitVec 32) : BitVec 256 :=
  match s with
  | some s =>
    BitVec.ofNat 256 (s.seq % 2 ^ 64 + s.epoch.toNat * 2 ^ 64
      + (1 + Bits.ofBool s.incomplete * 2 + Bits.ofBool s.dirtyMap.isSome * 4) * 2 ^ 80 + s.regionsDone % 256 * 2 ^ 88 + bad.toNat * 2 ^ 96
      + (regionBits s.regions fun r => decide (0 < r.badLines)).toNat * 2 ^ 128)
  | none => 0

/-- STAGE_8: the mount, and the newest seal. [log 157 DEDUCED] -/
def stage8Op (m : Mach) (t : Nat) : Mach :=
  if !m.inStage 8 then m
  else
    let m := m.advance t
    let sl := if m.fused.zeroised || m.invasive then none else m.newestSeal
    let bad := regionBits ((sl.map fun x => x.regions).getD []) fun r => !regionIntact r
    let m := m.modBoot fun b => { b with sealFound := sl.map fun x => x.seq, digestBad := bad, saveInfo := saveInfoOf sl bad }
    let go := m.tier.state == .mounting
    let lost := if m.tier.mapDue then (sl.bind fun x => x.dirtyMap).getD [] else []
    let m := if go then m.tierMount lost (m.tier.resetMounted && !m.tier.mapDue) else m
    let st := match m.tier.state with | .unmounted => 0 | .mounting => 1 | .mounted => 2 | .readOnly => 3
    m.stageEnd 8 (if go then m.stageResult else 3) (Bits.bytesOf st 1 ++ Bits.bytesOf m.tier.size 1 ++ Bits.bytesOf (Bits.ofBool m.tier.unclean) 1
      ++ Bits.bytesOf (Bits.ofBool sl.isSome) 1 ++ Bits.bytesOf (Bits.ofBool ((sl.map fun x => x.incomplete).getD false)) 1
      ++ Bits.bytesOf ((sl.map fun x => x.regionsDone).getD 0) 1)

/-- STAGE_9: engines are released, the host attached as FRESH does, the herd if ATTACH is set; READY. -/
def stage9Op (m : Mach) (t : Nat) : Mach :=
  if !m.inStage 9 then m
  else
    let m := m.advance t
    let m := m.forEach m.liveDies fun m d =>
      m.forEach ((List.range 26).filter fun f => (m.die d).flockMap.getLsbD f) fun m f => m.collieRunOp (flockBase d f)
    let m := if m.host.linkUp then m.attachFresh else m
    let m := if m.herd.attaching then m.attachOp none else m
    let n := if m.herd.attached then m.herd.module.toNat else 511
    let st := match m.host.state with | .attached => 0 | .detaching => 1 | .detached => 2 | .replaying => 3
    let m := m.report 9 m.stageResult false 0 (Bits.bytesOf n 2 ++ Bits.bytesOf st 1)
    m.modBoot fun b => { b with ready := true }

/-! ### Recovery (R559) -/

/-- LINK_LOCAL_TIMEOUT. -/
def linkLocalOp (m : Mach) : Mach := if m.boot.stopped && m.boot.recovery then m.modBoot fun b => { b with linkLocal := true } else m

/-- The slot that a recovery set goes to: the failed slot with the lower version, or the slot that the stopped start used where none is
marked failed. [log 152 DEDUCED] -/
def recoverySlot (b : Boot) : Nat :=
  let s (k : Nat) : BootSlot := FMap.get {} b.slots k
  let ver (k : Nat) : Nat := ((s k).stage1.map fun i => i.version.toNat + 1).getD 0
  if (s 0).failed && (s 1).failed then (if ver 1 < ver 0 then 1 else 0) else if (s 0).failed then 0 else if (s 1).failed then 1 else b.slot

/-- RECOVERY_WRITE: a set that passes the checks is written, and the module resets. [log 152 DEDUCED] -/
def recoveryOp (m : Mach) (t : Nat) (s1 ah mh : Image) : Mach :=
  if !m.boot.stopped || !m.boot.recovery || m.boot.inReset || !(m.imageOk 0 s1 && m.imageOk 1 ah && m.imageOk 2 mh) then m
  else
    let m := m.advance t
    let k := recoverySlot m.boot
    (m.modBoot fun b => { b with slots := FMap.set {} b.slots k { stage1 := some s1, aHen := some ah, mHen := some mh }, stopped := false }).moduleReset 4

end Mach
end Machine
end Sys2Proof
end

