-- ==== Sys2Proof/Machine/SvcOps.lean ====
section
/-!
DEFINITION. What happens in service: restoring a save (R539), the rounds of firmware distribution on the module and in the herd (R535,
R537), and the host-stepped service procedures (R540 to R543).
-/
namespace Sys2Proof
namespace Machine
namespace Mach

/-! ### Restoring a save (R539) -/

/-- A line of a region can be written: it is populated HBM, or flock memory of a flock that is ON, on a live die. [log 158 DEDUCED] -/
def restorable (m : Mach) (pa : Nat) : Bool :=
  let t := m.target pa
  !m.targetDead t && match t with
    | .home sa => !isDeep sa
    | .flock _ _ => true
    | _ => false

/-- Writes a restored line at its point of coherence, without regard to other agents. -/
def restoreLine (m : Mach) (pa : Nat) (d : BitVec 512) (poison : Bool) : Mach :=
  if !m.restorable pa then m
  else match m.target pa with
    | .home sa =>
      if m.homeFree (sa / 64) true then m.writeNow saveAgent (sa / 64) d fullMask poison none false
      else m.homeWrite (sa / 64) d fullMask poison false
    | .flock fb _ => m.flockWrite none fb (pa / 64) d fullMask poison
    | _ => m

/-- Restores a region of the newest seal: the first case of R539 that applies. `lost` says that its digest failed at stage 8. [log 159 DEDUCED] -/
def restoreRegion (m : Mach) (lost : Bool) (r : SavedRegion) : Mach :=
  let base := descBase r.desc
  let ls := List.range (descLines r.desc)
  let bit : BitVec 32 := 1#32 <<< (r.index % 32)
  if lost then
    let m := m.forEach ls fun m j => m.restoreLine (base + 64 * j) 0 true
    m.modBoot fun b => { b with restoreBad := b.restoreBad ||| bit }
  else if !(ls.all fun j => m.restorable (base + 64 * j)) then m.modBoot fun b => { b with restoreSkip := b.restoreSkip ||| bit }
  else
    let m := m.forEach ls fun m j => m.restoreLine (base + 64 * j) (Memory.line r.data j) (r.bad.contains j)
    if r.badLines = 0 then m else m.modBoot fun b => { b with restoreBad := b.restoreBad ||| bit }

/-- RESTORE: the completed regions of the newest seal, which may be later than the one stage 8 found. [log 158 DEDUCED] -/
def restoreOp (m : Mach) : Mach :=
  if !m.boot.ready || m.boot.restoring || m.fused.zeroised || m.invasive then m
  else match m.newestSeal with
    | none => m
    | some s =>
      let known := m.boot.sealFound == some s.seq
      let m := m.modBoot fun b => { b with restoring := true, restoreBad := 0, restoreSkip := 0 }
      m.forEach (s.regions.take s.regionsDone) fun m r => m.restoreRegion (known && m.boot.digestBad.getLsbD (r.index % 32)) r

/-- RESTORE_DONE: every write has landed. [log 159 DEDUCED] -/
def restoreDoneOp (m : Mach) : Mach := m.modBoot fun b => { b with restoring := false }

/-! ### Distribution rounds (R535, R537) -/

/-- Modules that an image update goes to: this one, and those of the topology table that are not dead. [log 162 DEDUCED] -/
def updateModules (m : Mach) : List Nat :=
  m.herd.module.toNat :: (m.herd.topo.filter fun p => p.2.record.isSome && !p.2.dead && decide (p.1 < 511) && p.1 ≠ m.herd.module.toNat).map fun p => p.1

/-- The staged image set, as the security block checks it once (R537). [log 13 DESIGN CHOICE] -/
def stagedImages (m : Mach) : Option (Image × Image × Image) :=
  let line (i : Nat) : BitVec 512 := match m.target (m.boot.fwStage.toNat + 64 * i) with
    | .home sa => (m.homePeek (sa / 64)).1
    | _ => 0
  (Config.stagedSet line).filter fun x => m.imageOk 0 x.1 && m.imageOk 1 x.2.1 && m.imageOk 2 x.2.2

/-- The update's last round has ended: this module's slot not in use takes the set, unless it still misses chunks. -/
def updateEnd (m : Mach) (d : FwDist) : Mach :=
  let m := m.modBoot fun b => { b with sending := none }
  match (m.stagedImages).filter fun _ => !(d.missing.any fun p => p.1 == m.herd.module.toNat) with
  | some (s, a, h) => m.modBoot fun b =>
      { b with slots := FMap.set {} b.slots (1 - b.slot) { stage1 := some s, aHen := some a, mHen := some h }, updDone := true }
  | none => m.modBoot fun b => { b with updFailed := true, updDone := true }

/-- FW_SEND: a write of SEND on the Bellwether. [log 162 DEDUCED] -/
def fwSendOp (m : Mach) : Mach :=
  if !m.herd.bellwether || !m.boot.ready then m.badWrite (bootReg 0x28)
  else if m.boot.sending.isSome then m
  else m.modBoot fun b => { b with sending := some { running := true }, updDone := false, updFailed := false }

/-- FW_ROUND_END: a round of the update, of stage 7, or of LOAD_FW. -/
def fwRoundOp (m : Mach) (miss : List FwMiss) : Mach :=
  match m.boot.sending with
  | some d =>
    let d := distAfter d miss
    let m := m.modBoot fun b => { b with sending := some d }
    if d.running then m.resend m.updateModules.length id miss else m.updateEnd d
  | none =>
    if !m.boot.dist.running then m
    else
      let d := distAfter m.boot.dist miss
      let m := m.modBoot fun b => { b with dist := d }
      if !d.running then m
      else
        let late := miss.filter fun x => x.chunks ≠ []
        let hens := ((m.liveDies.map fun e => m.dieHens e).flatten.filter fun a => m.takesFw a).length
        (m.resend hens flockOf (late.filter fun x => isFlockAgent x.agent)).resend 8 flockOf (late.filter fun x => isMgmtHen x.agent)

/-! ### Service steps (R540 to R543, Table 17-6) -/

def svcDie (m : Mach) (d : Nat) : SvcDie := FMap.get {} m.boot.svcDies d
def modSvc (m : Mach) (d : Nat) (f : SvcDie → SvcDie) : Mach :=
  m.modBoot fun b => { b with svcDies := FMap.set {} b.svcDies d (f (FMap.get {} b.svcDies d)) }

/-- DIE of SVC_CMD names an A-die. -/
def svcTarget (die : Nat) : Option Nat := if 1 ≤ die ∧ die ≤ 4 then some (die - 1) else none

def svcRefuse (m : Mach) : Mach := (m.modBoot fun b => { b with svcResult := 1 }).badWrite (bootReg 0x14)

/-- A write that names step `n`: refused where its preconditions fail or a step is in progress; else the step starts. -/
def svcStart (m : Mach) (n die flock : Nat) (opt : BitVec 2) (pre : Mach → Nat → Bool) (act : Mach → Nat → Mach) : Mach :=
  if m.boot.svcBusy.isSome || !m.boot.ready || m.boot.inReset then m.svcRefuse
  else match svcTarget die with
    | none => m.svcRefuse
    | some d =>
      if !pre m d then m.svcRefuse
      else act (m.modBoot fun b => { b with svcBusy := some { step := n, die := d, flock := flock, opt := opt }, svcLast := BitVec.ofNat 4 n,
                                            svcResult := 0, svcHeld := m.inLean }) d

/-- An A-die is live: not excluded, not dead, and not under compute reset. -/
def dieLive (m : Mach) (d : Nat) : Bool := !m.dieOut d && !(m.die d).computeReset

/-- Flocks of an A-die that are ON, as flock bases. -/
def onFlocks (m : Mach) (d : Nat) : List Nat := ((List.range 26).map fun f => flockBase d f).filter fun fb => m.flockOn fb
def dieMules (d : Nat) : List Nat := (List.range 4).map fun i => agentId (d + 1) 26 i

/-- QUIESCE_DIE. -/
def quiesceDieOp (m : Mach) (die : Nat) (opt : BitVec 2) : Mach :=
  let force := opt.getLsbD 0
  m.svcStart 1 die 0 opt dieLive fun m d =>
    let m := m.forEach (m.onFlocks d) fun m fb => if force then m.collieForceOp fb else m.collieQuiesceOp fb
    m.forEach (dieMules d) fun m a => (if force then m.muleAbortOp a else m.muleQuiesceOp a).muleSettle a

/-- Every Collie and die Mule of the die is QUIESCED. -/
def dieQuiesced (m : Mach) (d : Nat) : Bool :=
  ((m.onFlocks d).all fun fb => (m.collie fb).state == .quiesced) && (dieMules d).all fun a => (m.mule a).state == .quiesced

/-- FLUSH_DIE: every Hen of the die writes back its dirty lines and invalidates both caches. -/
def flushDieOp (m : Mach) (die : Nat) (opt : BitVec 2) : Mach :=
  m.svcStart 2 die 0 opt (fun m d => m.dieLive d && (m.svcDie d).quiesced) fun m d =>
    m.forEach (m.dieHens d) fun m a =>
      (m.allLines a fun m l => m.flushLine a l).modHen a fun h => { h with ic := [], icBad := [], icSets := [] }

/-- Messages and transactions of lines homed on the die end with a retry-later NACK (R369, R46). -/
def homeSuspend (m : Mach) (d : Nat) : Mach :=
  let homed (l : Nat) : Bool := homeDie (64 * l) == d
  let rs := (m.coh.reqs ++ m.coh.queue ++ m.coh.txns.map fun t => t.req).filter fun r => homed r.line && r.agent ≠ 0x1FFF
  (m.readsDrop homed).modCoh fun c =>
    { c with reqs := c.reqs.filter (fun r => !homed r.line), queue := c.queue.filter (fun r => !homed r.line),
             txns := c.txns.filter (fun t => !homed t.req.line), fills := c.fills.filter (fun p => !homed p.1), nacked := c.nacked ++ rs, stashes := c.stashes.filter fun s => !homed s.line }

/-- The slices of the die lose their state: an orderly reset flushes dirty lines to HBM, an abrupt one poisons them there (R369). -/
def slicesLose (m : Mach) (d : Nat) (abrupt : Bool) : Mach :=
  let ls := (m.coh.lines.map fun p => p.1).filter fun l => homeDie (64 * l) == d
  let m := m.forEach ls fun m l => match FMap.get none m.coh.lines l with
    | some x =>
      let m := if x.dirty && abrupt then ((m.homePoison l).sliceClean l).poisonLog l 1 0 false else m.sliceClean l
      m.sliceDrop l
    | none => m
  m.modCoh fun c => { c with dir := c.dir.filter fun p => homeDie (64 * p.1) ≠ d }

/-- The units of the die lose their state, atomics in the queues going back to wait at their ports (R46); sync objects, HBM controllers and links keep theirs (R541). -/
def unitsLose (m : Mach) (d : Nat) : Mach :=
  let m := m.forEach (List.range 26) fun m f => m.flockLose (flockBase d f)
  let m := m.forEach (dieMules d) fun m a => (m.setMule a {}).regsReset (muleReg a 0) (muleReg a 0x10)
  m.forEach (List.range 16) fun m s => m.modSlice (16 * d + s) fun x => { waiting := x.aq ++ x.waiting }

/-- RESET_DIE: compute reset, orderly or abrupt (R369, R541). [log 161 DEDUCED] -/
def resetDieOp (m : Mach) (die : Nat) (opt : BitVec 2) : Mach :=
  let abrupt := opt.getLsbD 0
  m.svcStart 3 die 0 opt (fun m d => m.dieLive d && (abrupt || ((m.svcDie d).quiesced && (m.svcDie d).flushed))) fun m d =>
    let m := if abrupt then m.declareDead ((d + 1) * 1024) 0x1C00 else m
    let m := m.modDie d fun x => { x with computeReset := true, stepUp := false, stepDown := false, tokens := [] }
    (((m.homeSuspend d).slicesLose d abrupt).unitsLose d).selfRefreshIn d

/-- TEST_DIE: OPT[0] = 1 uses the retained maps. -/
def testDieOp (m : Mach) (die : Nat) (opt : BitVec 2) : Mach :=
  m.svcStart 4 die 0 opt (fun m d => ((m.svcDie d).inReset && (m.die d).computeReset) || ((m.svcDie d).added && !opt.getLsbD 0)) fun m _ => m

/-- HBM_UP. -/
def hbmUpOp (m : Mach) (die : Nat) (opt : BitVec 2) : Mach := m.svcStart 5 die 0 opt (fun m d => (m.svcDie d).tested) fun m _ => m

/-- LOAD_FW: the die's enabled flocks, or FLOCK alone with OPT[1]. [log 160 DEDUCED] -/
def loadFwOp (m : Mach) (die flock : Nat) (opt : BitVec 2) : Mach :=
  let pre (m : Mach) (d : Nat) : Bool :=
    if opt.getLsbD 1 then ((m.svcDie d).hbmUp || (m.svcDie d).flockOn.contains flock) && m.flockEnabled (flockBase d flock)
    else (m.svcDie d).hbmUp || (m.svcDie d).flockOn ≠ []
  m.svcStart 6 die flock opt pre fun m _ =>
    m.modBoot fun b => { b with dist := { running := true } }

/-- REJOIN: home-reset snoops for every line the die homes. [log 161 DEDUCED] -/
def rejoinOp (m : Mach) (die : Nat) (opt : BitVec 2) : Mach :=
  m.svcStart 7 die 0 opt (fun m d => (m.svcDie d).loaded) fun m d =>
    m.forEach (List.range 16) fun m s => m.modSlice (16 * d + s) fun x => { x with homeReset := true }

/-- A caching agent still holds a line homed on the die, or has a write-back of one on its way. [log 161 DEDUCED] -/
def linesLeft (m : Mach) (d : Nat) : Bool :=
  let homed (l : Nat) : Bool := homeDie (64 * l) == d
  (m.hens.any fun p => p.2.heldLines.any fun x => homed x.line)
    || (m.acores.sys.any fun p => p.2.isSome && !isHostLine p.1 && homed p.1) || (m.coh.wbs.any fun w => homed w.line)
    || m.coh.dats.any fun x => homed x.line && (x.st.isSome || x.grantOnly)

/-- HOME_RESET_SNOOP: agent `a` gives up the line: its M copy goes to the reset home, where it clears poison (R368, R369). [log 161 DEDUCED] -/
def homeResetSnoopOp (m : Mach) (a pa : Nat) (hd : HostCopy) : Mach :=
  let l := m.lineOf pa
  if !(m.slice (homeSlice (64 * l))).homeReset then m
  else
    let m := match m.coh.wbs.find? fun w => w.agent == a && w.line == l with
      | some w => (if w.invn || w.stale then m else m.homeWrite l w.data fullMask w.poison false).modCoh fun c => { c with wbs := c.wbs.filter fun x => x ≠ w }
      | none => m
    if a = hostAgent then (match hd with | .dirty d => (m.clearResv (some hostAgent) l).homeWrite l d fullMask false false | _ => m)
    else if a = sysAgent then
      match m.sysLine l with
      | some x =>
        let m := (m.setSys l none).dropCoreResv l
        if x.dirty then m.homeWrite l x.data fullMask x.poison false else m
      | none => m
    else if !isHen a then m
    else match (m.hen a).find l with
      | some x =>
        let m := (m.modHen a fun h => h.update l none).lineLeft a l
        if x.st = .m then m.homeWrite l x.data fullMask (x.poison || x.bad) false else m
      | none => m

/-- RELEASE: REQ = 0 on the die's Collies, or on FLOCK's alone. [log 160 DEDUCED] -/
def releaseOp (m : Mach) (die flock : Nat) (opt : BitVec 2) : Mach :=
  let one := opt.getLsbD 1
  let ready (x : SvcDie) (f : Nat) : Bool := x.flockOn.contains f && x.flockLoaded.contains f
  let pre (m : Mach) (d : Nat) : Bool :=
    let x := m.svcDie d
    if one then (x.rejoined || ready x flock) && m.flockEnabled (flockBase d flock) else x.rejoined || x.flockOn.any (ready x)
  m.svcStart 8 die flock opt pre fun m d => if one then m.collieRunOp (flockBase d flock) else m.forEach (m.onFlocks d) fun m fb => m.collieRunOp fb

/-- ADD_DIE: the die's links are let go and trained. -/
def addDieOp (m : Mach) (die : Nat) (opt : BitVec 2) : Mach :=
  m.svcStart 9 die 0 opt dieOut fun m d => m.forEach (dieLinks d) fun m k => m.modLink k fun l => { l with held := false }

/-- The enabled flocks of a die, in FLOCK_MAP and in the retained record (R518). [log 160 DEDUCED] -/
def setFlocks (m : Mach) (d : Nat) (fs : List Nat) : Mach :=
  (m.modDie d fun x => { x with flockMap := flockMapOf fs }).retain fun r =>
    { r with flockSet := FMap.set 0 r.flockSet d (BitVec.ofNat 26 (fs.map fun f => 2 ^ f).sum) }

/-- FLOCK_OFF. -/
def flockOffOp (m : Mach) (die flock : Nat) (opt : BitVec 2) : Mach :=
  m.svcStart 10 die flock opt
    (fun m d => decide (flock < 26) && m.dieLive d && m.flockEnabled (flockBase d flock) && !m.flockBusy (flockBase d flock))
    fun m d =>
      let m := match svcFlock flock with | some f => m.domainDown (Fin.ofNat 4 d) f .off | none => m
      let fs := (List.range 26).filter fun f => (m.die d).flockMap.getLsbD f && f ≠ flock
      m.setFlocks d fs
where
  svcFlock (f : Nat) : Option (Fin 42) := if h : f < 42 then some ⟨f, h⟩ else none

/-- FLOCK_ON: the domain's switch to ON is an upward step (R41). -/
def flockOnOp (m : Mach) (die flock : Nat) (opt : BitVec 2) : Mach :=
  m.svcStart 11 die flock opt
    (fun m d => decide (flock < 26) && m.dieLive d && (m.svcDie d).goodFlocks.getLsbD flock && !m.flockEnabled (flockBase d flock)
      && decide (m.flockCount d < 24))
    fun m d => if h : flock < 42 then (if m.domain d flock == .on then m else m.askUp (.domain (Fin.ofNat 4 d) ⟨flock, h⟩)) else m

/-! ### The end of a step -/

/-- The stage that a step's report names. [log 160 DEDUCED] -/
def svcStage (n : Nat) : Nat := match n with | 4 => 5 | 5 => 6 | 6 => 7 | 9 => 4 | 11 => 5 | _ => 9

/-- A step ends in failure: RESULT 2, with its report. [log 160 DEDUCED] -/
def svcFail (m : Mach) (s : SvcStep) (detail : List Byte) : Mach :=
  (m.report (svcStage s.step) 2 true (s.die + 1) detail).modBoot fun b => { b with svcBusy := none, svcResult := 2, dist := { b.dist with running := false } }

/-- A step of the die has passed. [log 160 DEDUCED] -/
def svcPass (m : Mach) (s : SvcStep) (f : SvcDie → SvcDie) (whole : Bool) : Mach :=
  let m := m.modSvc s.die fun x => let y := f x; if whole then { y with last := s.step } else y
  m.modBoot fun b => { b with svcBusy := none, svcResult := 0 }

/-- The retained record keeps what a test of flock `f` has left: the maps of its good Oxen, and the engines found bad (R518). [log 160 DEDUCED] -/
def keepTest (m : Mach) (d f : Nat) : Mach :=
  let fb := flockBase d f
  let unit (o : Nat) : Nat := (d * 26 + f) * 4 + o
  let hen (h : Nat) : Nat := (d * 26 + f) * 16 + h
  let order (l : List Nat) (k : Nat) (new : List Nat) : List Nat :=
    (l.filter fun i => decide (i / k < d * 26 + f)) ++ new ++ l.filter fun i => decide (d * 26 + f < i / k)
  m.retain fun r =>
    { r with oxRepair := (List.range 16).foldl (fun (acc : FMap (BitVec 32)) j =>
               FMap.set 0 acc ((d * 26 + f) * 16 + j) (FMap.get 0 (m.ox (fb + 16 + j / 4)).repair (j % 4))) r.oxRepair,
             badOxen := order r.badOxen 4 (((List.range 4).filter fun o => (m.ox (fb + 16 + o)).state == .failed).map unit),
             badHens := order r.badHens 16 (((List.range 16).filter fun h => (m.hen (fb + h)).state == .failed).map hen) }

/-- A die added from the dead starts as a die does in stages 3 and 4: its domains ON at OP0, its units at reset, its links up. -/
def dieAdded (m : Mach) (d : Nat) (f : DieFind) : Mach :=
  let m := (m.unitsLose d).slicesLose d true
  let m := m.modDie d fun _ => { ({} : Die) with dead := true, enfOp := BitVec.ofNat 3 m.variantTop, targetOp := 0 }
  let m := m.dieUp d
  let m := m.modBoot fun b => { b with dieRev := FMap.set 0 b.dieRev d f.revision, dieFeatures := FMap.set 0 b.dieFeatures d b.features }
  let v := m.boot.linkVersion
  let m := (m.linkUp (3 * d) f.width v).linkUp (12 + d) f.width v
  let near (m : Mach) (k j e : Nat) : Mach := if m.dieOut e then m else (m.linkUp k 16 v).linkUp j 16 v
  near (near m (3 * d + 1) (3 * ((d + 3) % 4) + 2) ((d + 3) % 4)) (3 * d + 2) (3 * ((d + 1) % 4) + 1) ((d + 1) % 4)

/-- REJOIN ends: the die serves requests again (R365, R369). -/
def dieRejoins (m : Mach) (d : Nat) : Mach :=
  let m := m.undeclareDead ((d + 1) * 1024) 0x1C00
  let m := m.modDie d fun x => { x with computeReset := false, dead := false }
  let m := m.forEach (List.range 16) fun m s => m.modSlice (16 * d + s) fun x => { x with homeReset := false }
  m.tierResume

/-- SVC_STEP_DONE: the step in progress ends with what it finds, once its own condition holds (Table 17-6). Lean state holds it (R543). [log 160 DEDUCED] -/
def svcDoneOp (m : Mach) (t : Nat) (f : SvcFind) : Mach :=
  match m.boot.svcBusy with
  | none => m
  | some s =>
    let d := s.die
    if m.inLean then m
    else if !f.ok then (m.advance t).svcFail s []
    else
      let now := m.advance t
      match s.step with
      | 1 => if m.dieQuiesced d then now.svcPass s (fun x => { x with quiesced := true, flushed := false }) true else m
      | 2 =>
        if m.coh.wbs.any fun w => agentDie w.agent == d + 1 then m
        else (now.forEach (List.range 16) fun m i => m.sliceFlush (16 * d + i)).svcPass s (fun x => { x with flushed := true }) true
      | 3 => now.svcPass s (fun x => { x with inReset := true, tested := false, hbmUp := false, loaded := false, rejoined := false, flockOn := [],
                                              flockLoaded := [] }) true
      | 4 =>
        let (ok, detail, m) := now.testDie d f.test (s.opt.getLsbD 0)
        if ok then m.svcPass s (fun x => { x with tested := true }) true else m.svcFail s detail
      | 5 =>
        if (now.svcDie d).added then
          let none_ : StackFind := { again := 0, failed := false, repaired := 0, poison := [] }
          (now.forEach [3 * d, 3 * d + 1, 3 * d + 2] fun m k => m.stackUp k none_ true).svcPass s (fun x => { x with hbmUp := true }) true
        else (now.selfRefreshOut d).svcPass s (fun x => { x with hbmUp := true }) true
      | 6 =>
        let m := if s.opt.getLsbD 1 then now.flockFirmware (flockBase d s.flock) m.boot.runA else now.dieFirmware d m.boot.runA
        let m := m.modBoot fun b => { b with dist := { b.dist with running := false } }
        m.svcPass s (fun x => { x with loaded := x.hbmUp, flockLoaded := if s.opt.getLsbD 1 then s.flock :: x.flockLoaded else x.flockOn ++ x.flockLoaded })
          (now.svcDie d).hbmUp
      | 7 => if m.linesLeft d then m else (now.dieRejoins d).svcPass s (fun x => { x with rejoined := true, inReset := false, added := false }) true
      | 8 =>
        if s.opt.getLsbD 1 then
          now.svcPass s (fun x => { x with flockOn := x.flockOn.filter fun i => i ≠ s.flock, flockLoaded := x.flockLoaded.filter fun i => i ≠ s.flock }) false
        else if !(now.svcDie d).rejoined then now.svcPass s (fun x => { x with flockOn := [], flockLoaded := [] }) false
        else now.svcPass s (fun x => { ({} : SvcDie) with goodFlocks := x.goodFlocks }) false
      | 9 =>
        let g := f.disc
        if g.trained && decide (now.boot.minRev.toNat ≤ g.revision.toNat) && (g.features &&& now.boot.features) == now.boot.features
            && decide (now.boot.linkVersion.toNat ≤ g.version.toNat) then
          (now.dieAdded d g).svcPass s (fun x => { ({} : SvcDie) with added := true, goodFlocks := x.goodFlocks }) true
        else (now.forEach (dieLinks d) fun m k => m.modLink k fun l => { l with held := true }).svcFail s []
      | 10 => now.svcPass s (fun x => { x with flockOn := x.flockOn.filter fun i => i ≠ s.flock }) false
      | _ =>
        let x := now.fuseOf d f.test.voteOk
        if now.domain d s.flock ≠ .on || (now.die d).waking.contains s.flock then m
        else if x.badFlocks.getLsbD s.flock || f.test.badFlocks.getLsbD s.flock then now.svcFail s []
        else
          let m := now.flockTested d s.flock (oxTested x f.test) fun i h =>
            x.badHens.contains (16 * i + h) || f.test.badHens.any fun p => p.1.val == i && p.2.val == h
          let fs := (List.range 26).filter fun i => (m.die d).flockMap.getLsbD i || i == s.flock
          ((m.setFlocks d fs).keepTest d s.flock).svcPass s (fun x => { x with flockOn := s.flock :: x.flockOn }) false

/-- SVC_STATUS, RESET_CAUSE, BOOT_STATUS and MOD_REV (Tables 17-7, 17-8 and 17-11). -/
def svcStatus (m : Mach) : Nat :=
  let b := m.boot
  Bits.ofBool b.svcBusy.isSome + b.svcResult.toNat * 2 + b.svcLast.toNat * 8 + Bits.ofBool (b.svcHeld && b.svcBusy.isSome) * 0x80
def resetCause (m : Mach) : Nat := m.boot.cause.toNat + Bits.ofBool m.boot.warmTaken * 0x20 + m.boot.warmWhy.toNat * 0x100
def bootStatus (m : Mach) : Nat :=
  let b := m.boot
  let ex := ([0, 1, 2, 3].map fun d => if (m.die d).excluded then 2 ^ (8 + d) else 0).sum
  (if b.ready then 9 else b.stage) + Bits.ofBool b.ready * 0x10 + Bits.ofBool b.warm * 0x20 + Bits.ofBool m.degradedNow * 0x40
    + Bits.ofBool b.fuseFault * 0x80 + ex + Bits.ofBool b.stopped * 0x1000
def modRevWord (m : Mach) : Nat :=
  m.boot.modRev.toNat + m.boot.minRev.toNat * 4 + Bits.ofBool m.boot.mixed * 0x10 + m.boot.linkVersion.toNat * 0x100

/-- DIE_ID (Table 17-12). -/
def dieIdWord (m : Mach) (d : Nat) : Nat :=
  (FMap.get 0 m.boot.dieRev d).toNat + Bits.ofBool (FMap.get false m.boot.dieFuseFault d) * 4 + Bits.ofBool (m.die d).excluded * 8
    + (m.svcDie d).last * 0x10

end Mach
end Machine
end Sys2Proof
end

