-- ==== Sys2Proof/Machine/GooseOps.lean ====
section
/-!
DEFINITION. Faults (R548 to R551), the Goose's events (R552 to R554), glitches (R566), the vote sweep (R548), and the module
management block's summary (R585, R586).
-/
namespace Sys2Proof
namespace Machine
namespace Mach

/-! ### The Goose (R552, R553) -/

/-- MCLK_LOSS, KERLY_REF_LOSS and CDIE_OVER_TEMP: safety resets held while the condition lasts. -/
def gooseHeld (m : Mach) (t : Nat) (cause : BitVec 4) (f : Goose → Goose) : Mach :=
  if m.boot.powered then ((m.advance t).modGoose f).safetyReset cause else m.advance t
def mclkLossOp (m : Mach) (t : Nat) : Mach := m.gooseHeld t 1 fun g => { g with heldMclk := true }
def refLossOp (m : Mach) (t : Nat) : Mach := m.gooseHeld t 2 fun g => { g with heldRef := true }
/-- [log 169 DEDUCED] -/
def cdieTempOp (m : Mach) (t : Nat) : Mach :=
  let x := if m.boot.powered then
      (m.advance t).telRecord 0 0x11 (dieAgent 0) [BitVec.ofNat 64 ((m.temps.map fun p => min 255 p.2 * 256 ^ p.1).sum)]
    else m
  x.gooseHeld t 5 fun g => { g with heldTemp := true }

/-- METER_HEARTBEAT_MISS: the meter runs once the module has left reset. -/
def meterMissOp (m : Mach) (t : Nat) : Mach := if m.boot.inReset then m else (m.advance t).safetyReset 3

/-- GOOSE_RELEASE: the condition clears. -/
def gooseReleaseOp (m : Mach) (t : Nat) (c : GooseHold) : Mach :=
  let m := m.advance t
  (match c with
    | .mclk => m.modGoose fun g => { g with heldMclk := false }
    | .ref => m.modGoose fun g => { g with heldRef := false }
    | .temp => m.modGoose fun g => { g with heldTemp := false }).resetGo

/-- HEARTBEAT_MISS: a window ends without a pet. The next window follows it (R552). -/
def heartbeatMissOp (m : Mach) (t : Nat) : Mach :=
  if !m.goose.armed || m.boot.inReset || decide (t < m.goose.windowEnd) then m
  else
    let m := m.advance t
    if m.goose.missed = 0 then
      let n := m.goose.windowEnd + m.fld (gooseReg 4) 0 10 * 500000
      (m.modGoose fun g => { g with missed := 1, windowEnd := n }).gooseAlert 6
    else m.safetyReset 7

/-- GOOSE_PET: a write of the expected value opens a new window; after an alert it clears ALERT_N (R553). [log 149 DEDUCED] -/
def goosePetOp (m : Mach) (t : Nat) (w : BitVec 32) : Mach :=
  let want : BitVec 8 := if m.goose.expect5A then 0x5A else 0xA5
  if m.boot.inReset then m
  else
    let m := m.advance t
    if w.setWidth 8 ≠ want then m.count (gooseReg 0xC) true
    else
      let x := (m.modGoose fun g => { g with expect5A := !g.expect5A, alert := g.alert && m.boot.stopped }).petWindow
      m.showAlert x

/-- GLITCH (R566): the sensors need power. -/
def glitchOp (m : Mach) (t : Nat) : Mach :=
  if !m.boot.powered then m.advance t else
  let m := (m.advance t).askBlow .glitch
  (m.modSec fun s => { s with keysLoaded := false, quoteFor := none, quoteReady := false, quote := 0 }).safetyReset 9

/-! ### Faults fatal to a die, and its temperature (R549 to R551) -/

/-- DIE_FATAL_FAULT: the die management block sends FAIL on every link, and the die is declared dead. -/
def dieFatalOp (m : Mach) (d : Nat) : Mach :=
  if m.dieOut d || m.boot.inReset then m
  else
    let m := m.forEach [3 * d, 3 * d + 1, 3 * d + 2] fun m k => if (m.link k).isUp then m.flitSend k 5 (m.link k).txSeq (.fail k) else m
    m.dieDead d

/-- REGULATOR_FAULT: of an A-die as R549, of the C-die a safety reset. -/
def regulatorOp (m : Mach) (t die : Nat) : Mach :=
  if m.boot.inReset then m
  else if die = 0 then (m.advance t).safetyReset 4
  else (m.advance t).dieFatalOp (die - 1)

/-- The die temperatures as the record of type 0x11 carries them. -/
def tempWord (m : Mach) : BitVec 64 := BitVec.ofNat 64 ((m.temps.map fun p => min 255 p.2 * 256 ^ p.1).sum)

/-- DIE_TEMP_LIMIT: a reading of a die's sensors, one each 1 ms. The limit begins above 105 °C, lifts below 100 °C, and lowers TARGET_OP by
one point at each reading; above 115 °C the fault is fatal. [log 170 DEDUCED] -/
def dieTempOp (m : Mach) (d : Fin 4) (temp : Nat) : Mach :=
  if m.dieOut d.val || m.boot.inReset then m
  else
    let m := { m with temps := FMap.set 0 m.temps (d.val + 1) temp }
    let was := (m.die d.val).hot
    let hot := decide (105 < temp) || (was && decide (100 ≤ temp))
    let m := m.modDie d.val fun x => { x with hot := hot }
    if 115 < temp then m.dieFatalOp d.val
    else if !hot then m
    else
      let m := if was then m else m.telRecord (d.val + 1) 0x11 (dieAgent (d.val + 1)) [m.tempWord]
      m.targetOpOp d ((m.die d.val).targetOp.toNat - 1)

/-! ### The vote sweep (R519, R548, Table 18-2) -/

/-- VOTE_FAIL of a block's die counts, with a record of type 0x10: block base offset and register offset. -/
def voteFail (m : Mach) (off : Nat) : Mach :=
  let d := off / 0x100000000
  let o := off % 0x100000000
  (m.count (telReg d 8) true).telRecord d 0x10 (dieAgent d) [BitVec.ofNat 64 (o / 0x10000 * 0x10000), BitVec.ofNat 64 (o % 0x10000)]

/-- A field's vote fails: it takes the value of Table 18-2, or the fault is fatal to the die (R549). -/
def fieldFails (m : Mach) : VoteField → Mach
  | .caps =>
    let m := (m.setReg (pwrReg 0x10) (BitVec.ofNat 32 (600 + 600 * 2 ^ 11))).modBoot fun b => { b with fuseFault := true }
    m.voteFail (pwrReg 0x10)
  | .supply => ((m.setFld (pwrReg 8) 0 8 96).setFld (pwrReg 8) 8 8 112).voteFail (pwrReg 8)
  | .oxRepair o =>
    let a := o.agent
    let m := (m.engineReturn a .raised).modOx a fun x => { x with state := .failed, queue := [], flight := [], ret := .none, diagRunning := false }
    ((m.dropToken a).oxTel a).voteFail (oxReg a 0xC)
  | .dieFuse d =>
    let m := m.modBoot fun b => { b with dieFuseFault := FMap.set false b.dieFuseFault d.val true, fuseFault := true }
    m.voteFail (mgmtReg d.val 0x44)
  | .budget => (m.setReg (tierReg 0x10) 39000).voteFail (tierReg 0x10)
  | .locks => (m.modSec fun s => { s with scopes := 0 }).voteFail (secReg 0)
  | .mgmt d => (m.voteFail (mgmtReg d.val 0x100)).dieFatalOp d.val

/-- VOTE_SWEEP: corrected disagreements count VOTE_CORR in their block. [log 21 DESIGN CHOICE] -/
def voteSweepOp (m : Mach) (corrected : List Nat) (failed : List VoteField) : Mach :=
  if m.boot.inReset then m
  else (m.forEach corrected fun m off => m.count (blockBase off + 0xFF0C) true).forEach failed fieldFails

/-! ### Module management (R585, R586, Tables 19-7 to 19-9) -/

/-- SW_ALERT. -/
def swAlertOp (m : Mach) (v : Bool) : Mach := m.showAlert (m.setFld (modReg 8) 0 1 (Bits.ofBool v))

/-- MOD_STATUS. -/
def modStatus (m : Mach) : Nat :=
  let host := match m.host.state with | .attached => 0 | .detaching => 1 | .detached => 2 | .replaying => 3
  let tier := match m.tier.state with | .unmounted => 0 | .mounting => 1 | .mounted => 2 | .readOnly => 3
  let down := ([0, 1, 2, 3].map fun d => if m.dieOut d then 2 ^ (10 + d) else 0).sum
  Bits.ofBool m.boot.ready + Bits.ofBool m.degradedNow * 2 + Bits.ofBool (m.lean.state ≠ 0) * 4 + host * 8 + Bits.ofBool m.herd.attached * 0x20
    + tier * 0x40 + Bits.ofBool m.alert * 0x100 + Bits.ofBool m.boot.fuseFault * 0x200 + down

/-- MOD_ID. -/
def modId (m : Mach) : Nat := 0x0412 + m.fused.variant.toNat * 0x10000 + 1 * 0x40000

/-- UPTIME in mclk cycles, and ENERGY_IN in mJ: samples are in 0.1 mW over 1 µs, so 0.1 nJ. -/
def uptime (m : Mach) : BitVec 64 := BitVec.ofNat 64 (m.now - m.boot.resetAt)
def energyIn (m : Mach) : BitVec 64 := BitVec.ofNat 64 (m.gov.energy / 10000000)

end Mach
end Machine
end Sys2Proof
end

