-- ==== Sys2Proof/Machine/RegRead.lean ====
section
/-!
DEFINITION. What each register reads (the register tables of chapters 02 to 19, R573): fields computed from the units, and the stored
fields beside them. A register of a unit whose domain is OFF reads its reset value. Reads with an effect stand in Regs.lean.
-/
namespace Sys2Proof
namespace Machine
namespace Mach

/-- Die number, block and offset in the block of a device offset. -/
def regDie (off : Nat) : Nat := off / 0x100000000
def regBlk (off : Nat) : Nat := off % 0x100000000 / 0x10000
def regOff (off : Nat) : Nat := off % 0x10000

/-- The offset lies in a block of Table 19-1. -/
def regExists (off : Nat) : Bool :=
  let b := regBlk off
  match regDie off with
  | 0 => decide (b < 12)
  | d => decide (d ≤ 4 ∧ (b < 26 ∨ (0x20 ≤ b ∧ b ≤ 0x25)))

/-- The power domain of the unit that a register belongs to (Table 2-4): A-die and domain. -/
def regDomain (off : Nat) : Option (Nat × Nat) :=
  let b := regBlk off
  let o := regOff off
  if regDie off = 0 ∨ 0xFF00 ≤ o then none
  else
    let d := regDie off - 1
    if b < 26 then some (d, b)
    else match b with
      | 0x20 => if 0x400 ≤ o ∧ o < 0x500 then some (d, 40) else none
      | 0x22 => if o < 0x1000 then some (d, 26 + o / 0x200) else none
      | 0x23 => if o < 0x600 then some (d, 34 + o / 0x200) else none
      | 0x24 => if o < 0xC0 then some (d, 37 + o / 0x40) else none
      | _ => none

/-- The unit's domain is in state `s`. -/
def regDomainIs (m : Mach) (off : Nat) (s : DomState) : Bool :=
  match regDomain off with
  | some (d, dom) => m.domain d dom == s
  | none => s == .on

/-- What a status register of a unit reads at reset, where that is not what `regReset` gives. [log 183 DESIGN CHOICE] -/
def statusReset (off : Nat) : Nat :=
  let b := regBlk off
  let o := regOff off
  if b < 26 then
    if o = 4 then 2
    else if 0x400 ≤ o ∧ o < 0x500 ∧ o % 0x40 = 4 then 3
    else if 0x800 ≤ o ∧ o < 0xC00 ∧ o % 0x40 = 4 then 0x88
    else (regReset off).toNat
  else (regReset off).toNat

/-- A register of a Mule set (Table 9-8). -/
def muleVal (m : Mach) (a o off : Nat) : Nat :=
  match o with
  | 0x00 => m.fld off 0 2 + m.fld off 4 4 * 0x10
  | 0x04 => m.muleStatus a
  | 0x08 => m.muleDepth a
  | 0x0C => m.fld off 0 16 + (m.mule a).errors.length * 0x10000
  | _ => (m.reg off).toNat

/-- A register of a Hen set (Table 6-8); IRQ reads 0. -/
def henVal (m : Mach) (a o off : Nat) : Nat := if o = 4 then m.henStatus a else (m.reg off).toNat

/-- The flock register block (Tables 4-4, 6-8, 8-9 and 9-8). -/
def flockVal (m : Mach) (fb o off : Nat) : Nat :=
  if o < 0x200 then
    if o = 4 then m.colStatus fb
    else if o = 0x18 then m.fld off 0 16 + (m.collie fb).fails.length * 0x10000
    else if 0x40 ≤ o ∧ o < 0x80 then m.fld off 8 8 * 0x100 + (m.slotOf fb ((o - 0x40) / 4)).toNat * 0x10000
    else if o = 0x104 then (m.collie fb).scrub.toNat
    else (m.reg off).toNat
  else if 0x400 ≤ o ∧ o < 0x500 then
    let a := fb + 16 + (o - 0x400) / 0x40
    match o % 0x40 with
    | 0x04 => m.oxStatus a
    | 0x08 => (m.ox a).fault.toNat
    | 0x0C => oxRepairWord (m.ox a)
    | _ => (m.reg off).toNat
  else if 0x800 ≤ o ∧ o < 0xC00 then m.henVal (fb + (o - 0x800) / 0x40) (o % 0x40) off
  else if 0xC00 ≤ o ∧ o < 0xC80 then m.muleVal (fb + 20 + (o - 0xC00) / 0x40) (o % 0x40) off
  else (m.reg off).toNat

/-- DIE_OP (Table 2-13). [log 193 DEDUCED] -/
def dieOp (m : Mach) (d : Nat) : Nat :=
  let x := m.die d
  x.curOp.toNat + Bits.ofBool x.curRet * 8 + x.targetOp.toNat * 0x10 + Bits.ofBool x.targetRet * 0x80 + x.resumeOp.toNat * 0x100
    + Bits.ofBool (x.stepUp || x.stepDown || x.leaving) * 0x800 + x.enfOp.toNat * 0x1000

/-- DOMAIN_PEND0 and DOMAIN_PEND1: domains with a held request for ON. -/
def domainPend (m : Mach) (d lo : Nat) : Nat :=
  let bit (i : Nat) : Bool := m.gov.requests.any fun q => match q.req with | .domain e dom => e.val == d && dom.val == lo + i | _ => false
  ((List.range 32).map fun i => if bit i then 2 ^ i else 0).sum

/-- The die management block (Tables 2-7, 4-5, 9-8 and 17-12). [log 194 DEDUCED] -/
def mgmtVal (m : Mach) (d o off : Nat) : Nat :=
  if 0x110 ≤ o ∧ o < 0x128 then
    let r := (o - 0x110) / 4
    ((List.range 8).map fun i => if 8 * r + i < 42 then domCode (m.domain d (8 * r + i)) * 4 ^ i else 0).sum
  else if 0x204 ≤ o ∧ o < 0x214 then m.oxOutWord d ((o - 0x204) / 4)
  else if 0x400 ≤ o ∧ o < 0x500 then m.muleVal (agentId (d + 1) 26 ((o - 0x400) / 0x40)) (o % 0x40) off
  else match o with
    | 0x040 => (m.die d).flockMap.toNat
    | 0x044 => m.dieIdWord d
    | 0x048 => (FMap.get 0 m.boot.dieFeatures d).toNat
    | 0x100 => m.dieOp d
    | 0x104 => min 0xFFFF (m.dieAvgMs d / 1000)
    | 0x128 => m.domainPend d 0
    | 0x12C => m.domainPend d 32 % 0x400
    | _ => (m.reg off).toNat

/-- The sync unit block (Tables 8-10, 10-8 and 10-9). -/
def syncVal (m : Mach) (d o off : Nat) : Nat :=
  if 0x4000 ≤ o ∧ o < 0x8000 then (m.syncObj d ((o - 0x4000) / 4)).count.toNat
  else match o with
    | 4 => ((m.sync d).waits.filter fun w => !w.polled).length
    | 8 => (m.sync d).shortInfo.toNat
    | 0xC => (m.sync d).shortAgent.toNat
    | _ => (m.reg off).toNat

/-- The shared-cache block (Tables 11-6 to 11-10). [log 100 DEDUCED] -/
def scVal (m : Mach) (d o off : Nat) : Nat :=
  if o < 0x1000 then
    let k := 16 * d + o / 0x100
    let s := m.slice k
    match o % 0x100 with
    | 0 => m.fld off 0 1 + Bits.ofBool s.flushing * 2
    | 4 => s.aq.length + m.bcastNow k * 0x80 + Bits.ofBool (s.reclaiming && (m.die d).running) * 0x400 + Bits.ofBool s.homeReset * 0x800
            + min 0xFFFF (m.storeEntries k).length * 0x1000
    | _ => (m.reg off).toNat
  else if o < 0x1020 then
    match m.coh.dead[(o - 0x1000) / 4]? with
    | some e => e.agent.toNat + e.mask.toNat * 0x2000 + 0x80000000
    | none => 0
  else if o = 0x1020 then (FMap.get [] m.coh.logs d).length + m.fld off 16 16 * 0x10000
  else (m.reg off).toNat

/-- The HBM block (Tables 12-5 to 12-9). -/
def hbmVal (m : Mach) (d o off : Nat) : Nat :=
  if o < 0x600 then
    let k := 3 * d + o / 0x200
    let h := m.hbmc k
    match o % 0x200 with
    | 0x00 => Bits.ofBool h.modeNext
    | 0x04 => m.hbmStatus k
    | 0x08 => h.temp + h.tempMax * 0x100
    | 0x14 => h.scrubPos.toNat + h.scrubPasses.toNat * 2 ^ 25
    | 0x18 => m.hbmDegraded k
    | _ => (m.reg off).toNat
  else (m.reg off).toNat

/-- A link set (Table 14-8). -/
def linkVal (m : Mach) (k o off : Nat) : Nat :=
  let l := m.link k
  match o with
  | 0x00 => Bits.ofBool (l.state == .training) + Bits.ofBool l.held * 2
  | 0x04 => m.linkStatus k
  | 0x08 => l.failedLanes.toNat % 2 ^ 32
  | 0x0C => l.failedLanes.toNat / 2 ^ 32
  | 0x20 => m.linkPeer k
  | _ => (m.reg off).toNat

/-- A telemetry block (Table 18-7). -/
def telVal (m : Mach) (d o off : Nat) : Nat := if o = 4 then m.telStatus d else (m.reg off).toNat

/-- The C-die power block (Tables 2-6, 2-8 to 2-12 and 16-4). -/
def powerVal (m : Mach) (o off : Nat) : Nat :=
  match o with
  | 0x00 => m.beat.number.toNat + m.beat.slot.toNat * 2 ^ 24 + Bits.ofBool m.beat.locked * 2 ^ 28 + Bits.ofBool m.beat.lost * 2 ^ 29
              + Bits.ofBool m.site.hold * 2 ^ 30
  | 0x04 => m.beat.period % 2 ^ 23
  | 0x0C => m.gov.vin.toNat + m.gov.vbus.toNat * 0x10000
  | 0x10 => m.fld off 0 22 + m.site.cap.toNat * 2 ^ 22
  | 0x14 => min 0xFFFF (m.avgMs / 1000) + min 0xFFFF (m.gov.beatAvg / 1000) * 0x10000
  | 0x18 => m.fld off 0 10 + Bits.ofBool m.gov.capUnmet * 0x400 + m.gov.oxLimit.toNat * 0x800
  | 0x1C => m.leanStatus
  | 0x60 => m.fld off 0 4 + ((List.range 6).map fun c => (m.clusterState c).toNat * 4 ^ (c + 2)).sum
  | 0x64 => m.acoreStatus
  | _ => (m.reg off).toNat

/-- The bring-up block (Tables 17-7 to 17-11). [log 174 DEDUCED] -/
def bootVal (m : Mach) (o off : Nat) : Nat :=
  let b := m.boot
  match o with
  | 0x00 => m.bootStatus
  | 0x04 => m.resetCause
  | 0x08 => Bits.ofBool b.retained.forceCold
  | 0x0C => m.modRevWord
  | 0x10 => b.features.toNat
  | 0x18 => m.svcStatus
  | 0x1C => Bits.ofBool b.restoring
  | 0x20 => b.restoreBad.toNat
  | 0x24 => b.restoreSkip.toNat
  | 0x28 => Bits.ofBool b.updFailed * 2 + Bits.ofBool b.updDone * 4
  | _ => (m.reg off).toNat

/-- The herd block (Tables 14-8 and 14-11 to 14-13). -/
def herdVal (m : Mach) (o off : Nat) : Nat :=
  if o < 0x400 then m.linkVal (16 + o / 0x40) (o % 0x40) off
  else match o with
    | 0x400 => m.fld off 0 1 + Bits.ofBool m.herd.attaching * 2
    | 0x404 => m.herdStatus
    | 0x40C => m.mcGroups.toNat
    | _ => (m.reg off).toNat

/-- The host block (Tables 15-6 to 15-11). -/
def hostVal (m : Mach) (o off : Nat) : Nat :=
  if 0x1000 ≤ o ∧ o < 0x1400 then
    let r := (o - 0x1000) / 0x10
    let g := m.ring r
    match o % 0x10 with
    | 0 => Bits.ofBool g.en + g.cqLog2.toNat * 4
    | 4 => m.ringStatus r
    | 8 => g.db.toNat
    | 0xC => g.cqHead.toNat
    | _ => 0
  else match o with
    | 4 => m.hostStatus
    | 0x10 => m.host.fences.toNat
    | _ => (m.reg off).toNat

/-- The deep-tier block (Tables 13-3 to 13-6). -/
def tierVal (m : Mach) (o off : Nat) : Nat :=
  match o with
  | 0x00 => m.tier.sizeNext + Bits.ofBool m.tier.flushing * 0x20 + m.fld off 6 1 * 0x40
  | 0x04 => m.tierStatus
  | 0x14 => m.tierWear
  | 0x1C => m.pageInfo (m.fld (tierReg 0x18) 0 24)
  | _ => (m.reg off).toNat

/-- The module management block (Tables 19-6 to 19-9). -/
def modVal (m : Mach) (o off : Nat) : Nat :=
  match o with
  | 0 => m.modId
  | 4 => m.modStatus
  | _ => (m.reg off).toNat

/-- What the register at a device offset reads, but for the mailbox, the shadow windows and WINDOW_FENCE. [log 183 DESIGN CHOICE] -/
def regValue (m : Mach) (off : Nat) : BitVec 32 :=
  let b := regBlk off
  let o := regOff off
  if o = 0xFF34 then BitVec.ofNat 32 (b + regDie off * 0x100)
  else if m.regDomainIs off .off && !counterReg off then BitVec.ofNat 32 (statusReset off)
  else BitVec.ofNat 32 <|
    if regDie off = 0 then
      match b with
      | 0 => m.modVal o off
      | 1 => m.powerVal o off
      | 2 => m.bootVal o off
      | 3 => if 0x800 ≤ o ∧ o < 0xA00 then m.henVal (agentId 0 2 ((o - 0x800) / 0x40)) (o % 0x40) off else (m.reg off).toNat
      | 4 => if o < 0x100 then m.muleVal (agentId 0 3 (o / 0x40)) (o % 0x40) off else (m.reg off).toNat
      | 5 => if o < 0x100 then m.linkVal (12 + o / 0x40) (o % 0x40) off else (m.reg off).toNat
      | 6 => m.herdVal o off
      | 7 => m.hostVal o off
      | 8 => m.tierVal o off
      | 9 => if o = 8 then m.gooseStatus else if o = 0 then 0 else (m.reg off).toNat
      | 0xA => if o = 0 then m.secStatus else (m.reg off).toNat
      | _ => m.telVal 0 o off
    else
      let d := regDie off - 1
      if b < 26 then m.flockVal (flockBase d b) o off
      else match b with
        | 0x20 => m.mgmtVal d o off
        | 0x21 => m.syncVal d o off
        | 0x22 => m.scVal d o off
        | 0x23 => m.hbmVal d o off
        | 0x24 => if o < 0xC0 then m.linkVal (3 * d + o / 0x40) (o % 0x40) off else (m.reg off).toNat
        | _ => m.telVal (d + 1) o off

end Mach
end Machine
end Sys2Proof
end

