-- ==== Sys2Proof/Machine/Mailbox.lean ====
section
/-!
DEFINITION. Mailboxes (R578 to R582): the values of each block's mailbox space with their widths and accesses, what reading and writing
each does, and the transfers; and the shadow windows (R583, R584). A block is named by its key: die number × 256 + BLK_ID[7:0].
-/
namespace Sys2Proof
namespace Machine

/-- The device offset of a block. -/
def blkBase (b : Nat) : Nat := b / 256 * 0x100000000 + b % 256 * 0x10000
/-- The key of the block that holds a device offset. -/
def blkKey (off : Nat) : Nat := off / 0x100000000 * 256 + off % 0x100000000 / 0x10000

/-- The value at an address of a block's mailbox space: its width, whether it is readable and writable (R582). -/
def mbxKind (b addr : Nat) : Option (Nat × Bool × Bool) :=
  let inr (lo n : Nat) : Bool := decide (lo ≤ addr ∧ addr < lo + n)
  let ro (w : Nat) : Option (Nat × Bool × Bool) := some (w, true, false)
  let rw (w : Nat) : Option (Nat × Bool × Bool) := some (w, true, true)
  let wo (w : Nat) : Option (Nat × Bool × Bool) := some (w, false, true)
  if b / 256 = 0 then
    match b % 256 with
    | 0 => if addr = 0x10 then ro 48 else if inr 0x11 4 then ro 64 else none
    | 1 => if inr 0 0x40 then rw 64 else if inr 0x80 32 then rw 128 else if inr 0x900 48 then ro 64 else none
    | 2 => if inr 0xA00 64 then ro 512 else if addr = 0xA40 then ro 256 else if addr = 0xA41 then rw 64 else none
    | 3 => if inr 0x120 8 || inr 0x130 8 then ro 64 else none
    | 4 => if inr 0x210 4 then ro 256 else none
    | 6 => if inr 0x600 511 then ro 64 else if addr = 0x800 then wo 256 else none
    | 7 => if inr 0x800 64 || inr 0x840 64 || addr == 0x882 || inr 0x890 8 then rw 64
      else if addr = 0x880 then ro 64 else if addr = 0x881 then wo 64 else if addr = 0x8A0 then ro 128 else none
    | 8 => if inr 0x500 6 then ro 64 else if addr = 0x510 then ro 128 else none
    | 0xA => if addr = 0xC00 ∨ addr = 0xC01 ∨ addr = 0xC04 ∨ addr = 0xC28 then wo 512
      else if addr = 0xC02 ∨ addr = 0xC03 ∨ addr = 0xC30 then ro 256 else if addr = 0xC10 then wo 256
      else if addr = 0xC11 || inr 0xC20 8 || inr 0xD00 512 then ro 512 else none
    | 0xB => if addr = 0xB00 then ro 64 else none
    | _ => none
  else if b % 256 < 26 then
    if inr 0x100 4 then rw 64 else if inr 0x110 16 || inr 0x120 16 || inr 0x130 16 then ro 64
    else if addr = 0x200 || inr 0x210 2 then ro 256 else none
  else match b % 256 with
    | 0x20 => if inr 0 0x40 then rw 64 else if inr 0x210 4 then ro 256 else none
    | 0x22 => if addr = 0x300 then ro 128 else none
    | 0x23 => if inr 0x400 3 then ro 128 else if inr 0x440 48 && decide ((addr - 0x440) % 16 < 12) then ro 64 else none
    | 0x25 => if addr = 0xB00 then ro 64 else none
    | _ => none

namespace Mach

/-- A pop of the oldest error record of a Mule (R305), zeros where there is none. -/
def mulePop (m : Mach) (a : Nat) : BitVec 256 × Mach := ((m.mule a).errors.headD 0, m.modMule a fun u => { u with errors := u.errors.drop 1 })

/-- A pop of the oldest poison record of an A-die. -/
def poisonPop (m : Mach) (d : Nat) : BitVec 128 × Mach :=
  let l := FMap.get [] m.coh.logs d
  (l.headD 0, m.modCoh fun c => { c with logs := FMap.set [] c.logs d (l.drop 1) })

/-- A counter of the deep tier: BUDGET_LEFT to EVICTIONS. -/
def tierCounter (m : Mach) (i : Nat) : Nat :=
  let t := m.tier
  match i with
  | 0 => t.account / 86400
  | 1 => t.overrun
  | 2 => t.written
  | 3 => t.internal
  | 4 => t.promotions
  | _ => t.evictions

/-- A read of the C-die's values. -/
def mbxGetC (m : Mach) (blk addr : Nat) : Option (Nat × Mach) :=
  let v (x : Nat) : Option (Nat × Mach) := some (x, m)
  match blk with
  | 0 => match addr with
    | 0x10 => v m.fused.mac.toNat
    | 0x11 => v m.fused.serial.toNat
    | 0x12 => v m.uptime.toNat
    | 0x13 => v m.energyIn.toNat
    | _ => v m.herd.identity.toNat
  | 1 =>
    if addr < 0x40 then v (m.schedEntry 0 addr).toNat
    else if addr < 0x900 then v (FMap.get 0 m.save.descs (addr - 0x80)).toNat
    else v (m.core (addr - 0x900)).errAddr.toNat
  | 2 =>
    if addr < 0xA40 then v (m.boot.reports.getD (addr - 0xA00) 0).toNat
    else if addr = 0xA40 then v m.boot.saveInfo.toNat else v m.boot.fwStage.toNat
  | 3 => if addr < 0x130 then v (m.hen (agentId 0 2 (addr - 0x120))).haltAddr.toNat else v (m.hen (agentId 0 2 (addr - 0x130))).haltPc.toNat
  | 4 => let (x, m) := m.mulePop (agentId 0 3 (addr - 0x210)); some (x.toNat, m)
  | 6 => v (m.topoWord (addr - 0x600))
  | 7 =>
    if addr < 0x840 then v (m.ring (addr - 0x800)).base.toNat
    else if addr < 0x880 then v (m.ring (addr - 0x840)).cqBase.toNat
    else if addr = 0x880 then v m.host.token.toNat
    else if addr = 0x882 then v m.host.peerBase.toNat
    else if addr = 0x8A0 then (let (x, m) := m.lostPop; some (x.toNat, m))
    else if addr % 2 = 0 then v (FMap.get 0 m.host.uioBase ((addr - 0x890) / 2)).toNat
    else v (FMap.get 0 m.host.uioLimit ((addr - 0x890) / 2)).toNat
  | 8 => if addr = 0x510 then (let (x, m) := m.tierLogPop; some (x.toNat, m)) else v (m.tierCounter (addr - 0x500))
  | 0xA =>
    if addr = 0xC02 then (let (x, m) := m.debugNonceRead; some (x.toNat, m))
    else if addr = 0xC03 then v m.sec.keyNonce.toNat
    else if addr = 0xC11 then m.quoteRead.map fun (x, m) => (x.toNat, m)
    else if addr = 0xC30 then v (m.fused.idPublic.getD 0).toNat
    else if addr < 0xD00 then v (m.mr (addr - 0xC20)).toNat
    else match m.sec.log[(addr - 0xD00) / 2]? with
      | some e => v (if addr % 2 = 0 then e.digest else e.info).toNat
      | none => v 0
  | _ => let (x, m) := m.telRead 0; some (x.toNat, m)

/-- A read of a value (R581): its contents, popped where it is a FIFO or log; none where it is not yet ready. [log 105 DEDUCED, 174 DEDUCED] -/
def mbxGet (m : Mach) (b addr : Nat) : Option (Nat × Mach) :=
  let v (x : Nat) : Option (Nat × Mach) := some (x, m)
  let blk := b % 256
  if b / 256 = 0 then m.mbxGetC blk addr
  else
    let d := b / 256 - 1
    let fb := flockBase d blk
    if blk < 26 then
      if addr < 0x110 then v (m.ox (fb + 16 + (addr - 0x100))).seed.toNat
      else if addr < 0x120 then v (repairOf (m.ox (fb + 16 + (addr - 0x110) / 4)) ((addr - 0x110) % 4)).toNat
      else if addr < 0x130 then v (m.hen (fb + (addr - 0x120))).haltAddr.toNat
      else if addr < 0x140 then v (m.hen (fb + (addr - 0x130))).haltPc.toNat
      else if addr = 0x200 then (let (x, m) := m.failPop fb; some (x.toNat, m))
      else (let (x, m) := m.mulePop (fb + 20 + (addr - 0x210)); some (x.toNat, m))
    else match blk with
      | 0x20 => if addr < 0x40 then v (m.schedEntry (d + 1) addr).toNat
        else (let (x, m) := m.mulePop (agentId (d + 1) 26 (addr - 0x210)); some (x.toNat, m))
      | 0x22 => let (x, m) := m.poisonPop d; some (x.toNat, m)
      | 0x23 => if addr < 0x440 then (let (x, m) := m.hbmLogPop (3 * d + (addr - 0x400)); some (x.toNat, m))
        else if 6 ≤ (addr - 0x440) % 16 then (let (x, m) := m.drawFree 64; some (x.toNat, m))
        else v (FMap.get 0 (m.hbmc (3 * d + (addr - 0x440) / 16)).counters ((addr - 0x440) % 16)).toNat
      | _ => let (x, m) := m.telRead (d + 1); some (x.toNat, m)

/-- A write of a value of the host block; false where it is refused, the refusal counted. [log 212 DEDUCED] -/
def mbxPutHost (m : Mach) (addr v : Nat) : Bool × Mach :=
  let bad : Bool × Mach := (false, m.badWrite (hostReg 0))
  if addr < 0x840 then
    if (m.ring (addr - 0x800)).en then bad else (true, m.modRing (addr - 0x800) fun g => { g with base := BitVec.ofNat 56 v })
  else if addr < 0x880 then
    if (m.ring (addr - 0x840)).en then bad else (true, m.modRing (addr - 0x840) fun g => { g with cqBase := BitVec.ofNat 56 v })
  else if addr = 0x881 then
    (m.host.state ≠ .detached || !m.host.linkUp || BitVec.ofNat 64 v == m.host.token, m.reattachOp (BitVec.ofNat 64 v))
  else if addr = 0x882 then (true, m.modHost fun h => { h with peerBase := BitVec.ofNat 64 v })
  else
    let x : BitVec 64 := BitVec.ofNat 64 (v / 4096 % 2 ^ 42 * 4096)
    let i := (addr - 0x890) / 2
    if addr % 2 = 0 then (true, m.modHost fun h => { h with uioBase := FMap.set 0 h.uioBase i x })
    else (true, m.modHost fun h => { h with uioLimit := FMap.set 0 h.uioLimit i x })

/-- A write of a value (R582): false where the value's own rule refuses it, the refusal counted (R574). [log 172 DEDUCED] -/
def mbxPut (m : Mach) (b addr arg v : Nat) : Bool × Mach :=
  let blk := b % 256
  if b / 256 = 0 then
    match blk with
    | 1 =>
      if addr < 0x40 then m.schedWrite 0 (Fin.ofNat 64 addr) (BitVec.ofNat 64 v)
      else match m.saveDescWrite (addr - 0x80) (BitVec.ofNat 128 v) with
        | some m => (true, m)
        | none => (false, m.badWrite (pwrReg 0))
    | 2 => (true, m.modBoot fun x => { x with fwStage := BitVec.ofNat 64 v })
    | 6 =>
      let busy := m.herd.mcastBusy
      let m := m.mcastSendWrite (BitVec.ofNat 256 v)
      (!busy && m.herd.mcastBusy, m)
    | 7 => m.mbxPutHost addr v
    | _ =>
      let w : BitVec 512 := BitVec.ofNat 512 v
      match addr with
      | 0xC00 => (true, m.debugToken0Write w)
      | 0xC01 => m.debugTokenWrite w
      | 0xC04 => m.keyCommandWrite w
      | 0xC10 => m.quoteNonceWrite (BitVec.ofNat 256 v)
      | _ => m.mrExtendWrite arg w
  else if blk < 26 then
    let a := flockBase (b / 256 - 1) blk + 16 + (addr - 0x100)
    if m.domain (b / 256 - 1) blk == .on then (true, m.modOx a fun x => { x with seed := BitVec.ofNat 64 v }) else (false, m.badWrite (blkBase b))
  else m.schedWrite (Fin.ofNat 5 (b / 256)) (Fin.ofNat 64 addr) (BitVec.ofNat 64 v)

/-! ### Transfers (R579 to R582) -/

/-- Another agent holds the mailbox. -/
def mbxShut (x : Mbx) (a : Nat) : Bool := x.held && x.owner.toNat ≠ a

/-- The transfer in progress, carried out: the mailbox's registers afterwards, how it ends (none: refused under R582), and the block's
change. [log 173 DESIGN CHOICE] -/
def mbxRun (m : Mach) (b : Nat) : Option Bool × Mach :=
  let x := m.mailbox b
  let addr := x.addr.toNat
  let a := x.user.toNat
  match mbxKind b addr with
  | none => (none, m)
  | some (w, rd, wr) =>
    if x.part && decide (w ≤ 256) then (none, m)
    else if x.dir then
      if !wr then (none, m)
      else if w ≤ 256 then m.mbxPut b addr x.arg.toNat (x.data.toNat % 2 ^ w)
        |> fun (ok, m) => (some ok, m)
      else if !x.part then (some true, m.setMailbox b { x with staged := some (x.addr, x.arg, x.data) })
      else match x.staged with
        | some (sa, arg, lo) =>
          if sa ≠ x.addr then (none, m)
          else
            let m := m.setMailbox b { x with staged := none }
            let (ok, m) := m.mbxPut b addr arg.toNat (lo.toNat + x.data.toNat * 2 ^ 256)
            (some ok, m)
        | none => (none, m)
    else if !rd then (none, m)
    else if x.part then
      match FMap.get none x.snaps (addr * 8192 + a) with
      | some s => (some true, m.setMailbox b { x with data := BitVec.ofNat 256 (s.toNat / 2 ^ 256) })
      | none => (none, m)
    else match m.mbxGet b addr with
      | none => (none, m)
      | some (v, m) =>
        let x := m.mailbox b
        let snaps := if w ≤ 256 then x.snaps else FMap.set none x.snaps (addr * 8192 + a) (some (BitVec.ofNat 512 v))
        (some true, m.setMailbox b { x with data := BitVec.ofNat 256 v, snaps := snaps })

/-- MBX_DONE: the transfer ends with VALID or ERR. [log 173 DESIGN CHOICE] -/
def mbxDoneOp (m : Mach) (b : Nat) : Mach :=
  if !(m.mailbox b).busy || m.boot.inReset then m
  else
    let (r, m) := m.mbxRun b
    let x := m.mailbox b
    let ok := r == some true
    let m := m.setMailbox b { x with busy := false, valid := ok, err := !ok }
    if r.isNone then m.mbxRefused (blkBase b) else m

/-- A write of MBX_CTL by agent `a`: with GO it starts a transfer. -/
def mbxCtlWrite (m : Mach) (b a : Nat) (w : BitVec 32) : Mach :=
  let x := m.mailbox b
  if mbxShut x a || x.busy then m.badWrite (blkBase b)
  else
    let x := { x with dir := w.getLsbD 1, part := w.getLsbD 2, arg := BitVec.ofNat 8 (Bits.field w 24 8) }
    m.setMailbox b (if w.getLsbD 0 then { x with busy := true, valid := false, err := false, user := BitVec.ofNat 13 a } else x)

/-- A write of MBX_ADDR. -/
def mbxAddrWrite (m : Mach) (b a : Nat) (w : BitVec 32) : Mach :=
  let x := m.mailbox b
  if mbxShut x a || x.busy then m.badWrite (blkBase b) else m.setMailbox b { x with addr := w.setWidth 12 }

/-- A write of MBX_DATAj. -/
def mbxDataWrite (m : Mach) (b a j : Nat) (w : BitVec 32) : Mach :=
  let x := m.mailbox b
  if mbxShut x a || x.busy then m.badWrite (blkBase b)
  else
    let keep : BitVec 256 := x.data &&& ~~~(BitVec.ofNat 256 ((2 ^ 32 - 1) <<< (32 * j)))
    m.setMailbox b { x with data := keep ||| BitVec.ofNat 256 (w.toNat <<< (32 * j)) }

/-- CLAIM: the mailbox gets an owner, if it has none. -/
def claimOp (m : Mach) (a b : Nat) : Mach :=
  let x := m.mailbox b
  if x.held then m else m.setMailbox b { x with held := true, owner := BitVec.ofNat 13 a }

/-- RELEASE: the owner or a management Hen frees the mailbox. [log 171 DEDUCED] -/
def mbxReleaseOp (m : Mach) (a b : Nat) : Mach :=
  let x := m.mailbox b
  if (x.held && x.owner.toNat == a) || isMgmtHen a then m.setMailbox b { x with held := false, owner := 0 } else m.badWrite (blkBase b)

/-- A write of MBX_OWNER. [log 171 DEDUCED] -/
def mbxOwnerWrite (m : Mach) (b a : Nat) (w : BitVec 32) : Mach :=
  if w.getLsbD 0 && w.getLsbD 1 then m.badWrite (blkBase b)
  else if w.getLsbD 0 then m.claimOp a b
  else if w.getLsbD 1 then m.mbxReleaseOp a b
  else m

/-- What a mailbox register reads, by agent `a` (Tables 19-2 to 19-4). -/
def mbxRegRead (m : Mach) (b a o : Nat) : Nat :=
  let x := m.mailbox b
  if o = 0xFF08 then Bits.ofBool x.held * 4 + x.owner.toNat * 0x10000
  else if mbxShut x a then 0
  else if o = 0xFF00 then Bits.ofBool x.dir * 2 + Bits.ofBool x.part * 4 + Bits.ofBool x.valid * 8 + Bits.ofBool x.err * 0x10 + Bits.ofBool x.busy * 0x20
    + x.arg.toNat * 2 ^ 24
  else if o = 0xFF04 then x.addr.toNat
  else x.data.toNat >>> (32 * ((o - 0xFF10) / 4)) % 2 ^ 32

/-! ### Shadow windows (R583, R584) -/

/-- The first and last MBX_ADDR of a block's shadowed range (Table 19-5). -/
def shadowRange (b : Nat) : Option (Nat × Nat) :=
  if b / 256 = 0 then (if b % 256 = 8 then some (0x500, 0x505) else if b % 256 = 0 then some (0x12, 0x13) else none)
  else if b % 256 = 0x23 then some (0x440, 0x46F) else none

/-- The counter that a shadow offset shows, and the state after it is sampled; none for a gap, or beyond the range. -/
def shadowOf (m : Mach) (b o : Nat) : Option (Nat × Mach) :=
  match shadowRange b with
  | none => none
  | some (lo, hi) =>
    let addr := lo + (o - 0x8000) / 8
    if o < 0x8000 ∨ hi < addr ∨ (mbxKind b addr).isNone then none else m.mbxGet b addr

/-- A read of the shadow window by agent `a`: a low word latches the high one for it; a high word is the latched one, or the live one
with SHADOW_MISS. [log 175 DEDUCED] -/
def shadowRead (m : Mach) (b a o : Nat) : Nat × Mach :=
  let s := o / 8 * 8
  match m.shadowOf b o with
  | none => (0, m)
  | some (v, n) =>
    let ls := FMap.get [] m.latches b
    let me (x : Latch) : Bool := x.agent.toNat == a
    if o = s then
      let x : Latch := { agent := BitVec.ofNat 13 a, off := s, hi := BitVec.ofNat 32 (v / 2 ^ 32) }
      let keep := ls.filter fun y => !me y
      let keep := if keep.length < 4 then keep else keep.drop 1
      (v % 2 ^ 32, { n with latches := FMap.set [] m.latches b (keep ++ [x]) })
    else match ls.find? fun y => me y && y.off == s with
      | some y => (y.hi.toNat, { m with latches := FMap.set [] m.latches b (ls.filter fun z => z ≠ y) })
      | none => (v / 2 ^ 32 % 2 ^ 32, n.count (blkBase b + 0xFF30) true)

end Mach
end Machine
end Sys2Proof
end

