-- ==== Sys2Proof/Machine/Regs.lean ====
section
/-!
DEFINITION. Register reads and writes (R571 to R577): the effect of a write to each register of the block map, the refusals and their
counting, and the reads that act. `a` is the agent ID of the requester.
-/
namespace Sys2Proof
namespace Machine
namespace Mach

/-! ### The effect of a write, by block -/

/-- COL_CFG0 (Table 8-13): BACKOFF is 1 to 255. [log 81 DEDUCED] -/
def colCfg0Write (m : Mach) (off : Nat) (w : BitVec 32) : Mach := if Bits.field w 16 8 = 0 then m.badWrite off else m.setReg off (w &&& 0x00FFFFFF#32)

/-- COL_EVICT: a reserved agent ID is refused (R19). [log 81 DEDUCED] -/
def colEvictWrite (m : Mach) (off : Nat) (w : BitVec 32) : Mach :=
  if Bits.field w 0 13 = 0 ∨ agentAssigned (Bits.field w 0 13) then m.setReg off (w &&& 0x1FFF#32) else m.badWrite off

/-- COL_LAND (Table 8-15): refused while the flock hosts an item. -/
def colLandWrite (m : Mach) (fb off : Nat) (w : BitVec 32) : Mach :=
  if (m.collie fb).hosted.isEmpty then m.setReg off (w &&& 0x07FF07FF#32) else m.badWrite off

/-- A write to a Mule set. -/
def muleRegWrite (m : Mach) (a o off : Nat) (w : BitVec 32) : Mach :=
  match o with
  | 0x00 => m.muleCtlWrite a w
  | 0x0C => m.setFld off 0 16 (Bits.field w 0 16)
  | _ => m

/-- A write to the flock register block. -/
def flockWriteReg (m : Mach) (fb o off : Nat) (w : BitVec 32) : Mach :=
  if o < 0x200 then
    if 0x40 ≤ o ∧ o < 0x80 then m.colHenWrite fb ((o - 0x40) / 4) w
    else match o with
      | 0x00 => m.colCtlWrite fb w
      | 0x08 => m.colCfg0Write off w
      | 0x0C => m.setReg off (w &&& 0x7FFFF#32)
      | 0x10 => m.colLandWrite fb off w
      | 0x14 => m.colEvictWrite off w
      | 0x18 => m.setReg off (w &&& 0xFFFF#32)
      | _ => m
  else if 0x400 ≤ o ∧ o < 0x500 then (if o % 0x40 = 0 then m.oxCtlWrite (fb + 16 + (o - 0x400) / 0x40) w else m)
  else if 0x800 ≤ o ∧ o < 0xC00 then (if o % 0x40 = 0 then m.henCtlWrite (fb + (o - 0x800) / 0x40) w else m)
  else if 0xC00 ≤ o ∧ o < 0xC80 then m.muleRegWrite (fb + 20 + (o - 0xC00) / 0x40) (o % 0x40) off w
  else m

/-- OX_CFG (Table 4-10): CHK_SHIFT16 is 20 to 29. -/
def oxCfgWrite (m : Mach) (off : Nat) (w : BitVec 32) : Mach :=
  if Bits.field w 3 5 < 20 ∨ 29 < Bits.field w 3 5 then m.badWrite off else m.setReg off (w &&& 0x1FFFF#32)

/-- DIE_OP (Table 2-13): TARGET_OP and TARGET_RET. -/
def dieOpWrite (m : Mach) (d : Fin 4) (w : BitVec 32) : Mach := (m.targetOpOp d (Bits.field w 4 3)).targetRetOp d (w.getLsbD 7)

/-- A write to the die management block. -/
def mgmtWrite (m : Mach) (d : Fin 4) (o off : Nat) (w : BitVec 32) : Mach :=
  if 0x110 ≤ o ∧ o < 0x128 then m.domainCtlOp d ((o - 0x110) / 4) w
  else if 0x400 ≤ o ∧ o < 0x500 then m.muleRegWrite (agentId (d.val + 1) 26 ((o - 0x400) / 0x40)) (o % 0x40) off w
  else match o with
    | 0x100 => m.dieOpWrite d w
    | 0x200 => m.oxCfgWrite off w
    | _ => m

/-- SC_CTL (Table 11-8). FLUSH starts a flush of slice `k`. -/
def scFlushOp (m : Mach) (k : Nat) : Mach := m.modSlice k fun s => { s with flushing := true }
def scCtlWrite (m : Mach) (k off : Nat) (w : BitVec 32) : Mach :=
  let m := if w.getLsbD 16 then m.setFld off 0 1 (Bits.field w 0 1) else m
  if w.getLsbD 17 && w.getLsbD 1 then m.scFlushOp k else m

/-- A write to a controller's set (Tables 12-6, 12-8, 12-9). -/
def hbmRegWrite (m : Mach) (k o off : Nat) (w : BitVec 32) : Mach :=
  match o with
  | 0x00 =>
    let m := if w.getLsbD 16 then
        (m.modHbmc k fun h => { h with modeNext := w.getLsbD 0 }).retain fun r => { r with modeNext := FMap.set false r.modeNext k (w.getLsbD 0) }
      else m
    let m := if w.getLsbD 17 && w.getLsbD 1 then m.retrainAllOp k else m
    if w.getLsbD 18 && w.getLsbD 2 then m.cntClrOp k else m
  | 0x0C =>
    if [0, 4, 8, 12].any fun lo => Bits.field w lo 4 == 0 then m.badWrite off else m.setReg off (w &&& 0xFFFF#32)
  | 0x10 => if Bits.field w 0 8 = 0 ∨ Bits.field w 8 5 = 0 then m.badWrite off else m.setReg off (w &&& 0xFFFF#32)
  | _ => m

/-- A write to a telemetry block: DROP_PACKET, and UNDERRUN (W1C, R576). -/
def telWrite (m : Mach) (d o : Nat) (w : BitVec 32) : Mach :=
  match o with
  | 0 => if w.getLsbD 16 && w.getLsbD 0 then m.dropPacketOp d else m
  | 4 => if w.getLsbD 11 then m.setTel d { m.tel d with underrun := false } else m
  | _ => m

/-- SUPPLY_CFG (R64, Table 2-9): a level outside its codes keeps its value; a write that would leave clear below warning + 1.0 V is
refused. [log 45 DEDUCED] -/
def supplyWrite (m : Mach) (off : Nat) (w : BitVec 32) : Mach :=
  let wok := decide (64 ≤ Bits.field w 0 8 ∧ Bits.field w 0 8 ≤ 128)
  let cok := decide (72 ≤ Bits.field w 8 8 ∧ Bits.field w 8 8 ≤ 144)
  let warn := if wok then Bits.field w 0 8 else m.fld off 0 8
  let clear := if cok then Bits.field w 8 8 else m.fld off 8 8
  if clear < warn + 8 then m.badWrite off
  else
    let m := (m.setFld off 0 8 warn).setFld off 8 8 clear
    if wok && cok then m else m.badWrite off

/-- PWR_CAP (R51): SW_CAP above FUSE_CAP keeps its value. -/
def capWrite (m : Mach) (off : Nat) (w : BitVec 32) : Mach :=
  if m.fld off 11 11 < Bits.field w 0 11 then m.badWrite off else m.setFld off 0 11 (Bits.field w 0 11)

/-- ACORE_CTL (Table 16-4): TARGET_CLK, and each CLUSTER field whose mask bits are set. -/
def acoreCtlWrite (m : Mach) (off : Nat) (w : BitVec 32) : Mach :=
  let mask := Bits.field w 16 16
  let m := if mask % 16 = 0 then m else m.targetClkOp (BitVec.ofNat 4 ((w.toNat % 16 &&& mask) ||| (m.fld off 0 4 &&& (15 - mask % 16))))
  m.forEach [0, 1, 2, 3, 4, 5] fun m (c : Fin 6) =>
    let k := Bits.nfield mask (2 * c.val + 4) 2
    if k = 0 then m else m.clusterAsk c (BitVec.ofNat 2 ((Bits.field w (2 * c.val + 4) 2 &&& k) ||| ((m.clusterState c.val).toNat &&& (3 - k))))

/-- A write to the C-die power block. -/
def powerWrite (m : Mach) (o off : Nat) (w : BitVec 32) : Mach :=
  match o with
  | 0x08 => m.supplyWrite off w
  | 0x10 => m.capWrite off w
  | 0x18 => (m.setFld off 0 10 (Bits.field w 0 10)).oxDiagWake
  | 0x20 => m.setReg off (w &&& 0x1FFFF#32)
  | 0x60 => m.acoreCtlWrite off w
  | _ => m

/-- WARM_CTL (Table 17-9). -/
def warmWrite (m : Mach) (w : BitVec 32) : Mach :=
  let m := if w.getLsbD 16 then m.retain fun r => { r with forceCold := w.getLsbD 0 } else m
  let m := if w.getLsbD 17 && w.getLsbD 1 then m.killTokenOp else m
  if w.getLsbD 18 && w.getLsbD 2 then m.swResetOp m.now else m

/-- SVC_CMD (Tables 17-6 and 17-10): the fields take the written values where a step starts. -/
def svcWrite (m : Mach) (w : BitVec 32) : Mach :=
  let die := Bits.field w 4 3
  let f := Bits.field w 7 5
  let opt : BitVec 2 := BitVec.ofNat 2 (Bits.field w 12 2)
  let n := match Bits.field w 0 4 with
    | 1 => m.quiesceDieOp die opt
    | 2 => m.flushDieOp die opt
    | 3 => m.resetDieOp die opt
    | 4 => m.testDieOp die opt
    | 5 => m.hbmUpOp die opt
    | 6 => m.loadFwOp die f opt
    | 7 => m.rejoinOp die opt
    | 8 => m.releaseOp die f opt
    | 9 => m.addDieOp die opt
    | 10 => m.flockOffOp die f opt
    | 11 => m.flockOnOp die f opt
    | _ => m.badWrite (bootReg 0x14)
  if m.boot.svcBusy.isNone && n.boot.svcBusy.isSome then n.setReg (bootReg 0x14) (w &&& 0x3FFF#32) else n

/-- A write to the bring-up block. -/
def bootWrite (m : Mach) (o : Nat) (w : BitVec 32) : Mach :=
  match o with
  | 0x08 => m.warmWrite w
  | 0x14 => m.svcWrite w
  | 0x1C => if w.getLsbD 16 && w.getLsbD 0 then m.restoreOp else m
  | 0x28 => if w.getLsbD 16 && w.getLsbD 0 then m.fwSendOp else m
  | _ => m

/-- HERD_CTL (Table 14-12). -/
def herdCtlWrite (m : Mach) (off : Nat) (w : BitVec 32) : Mach :=
  let m := if w.getLsbD 16 then (m.setFld off 0 1 (Bits.field w 0 1)).elect else m
  if w.getLsbD 17 && w.getLsbD 1 then m.attachOp none else m

/-- HERD_CFG: PREF_NUM is retained; a port whose enable is cleared goes DOWN. [log 179 DEDUCED] -/
def herdCfgWrite (m : Mach) (off : Nat) (w : BitVec 32) : Mach :=
  let m := (m.setReg off (w &&& 0xFFFF01FF#32)).retain fun r => { r with prefNum := w.setWidth 9 }
  m.forEach (List.range 16) fun m p => if w.getLsbD (16 + p) then m else m.linkDown (16 + p)

/-- A write to the herd block. -/
def herdWrite (m : Mach) (o off : Nat) (w : BitVec 32) : Mach :=
  if o < 0x400 then (if o % 0x40 = 0 then m.linkCtlWrite (16 + o / 0x40) w else m)
  else match o with
    | 0x400 => m.herdCtlWrite off w
    | 0x408 => m.herdCfgWrite off w
    | 0x40C => m.setReg off (w &&& 0xFFFE#32)
    | _ => m

/-- A write to the host block. PEER_LOG2 is 0 to 6. -/
def hostWriteReg (m : Mach) (o off : Nat) (w : BitVec 32) : Mach :=
  if 0x1000 ≤ o ∧ o < 0x1400 then
    let r := (o - 0x1000) / 0x10
    match o % 0x10 with
    | 0 => m.ringCtlWrite r w
    | 8 => m.ringDoorbellOp r w
    | 0xC => m.cqHeadOp r w
    | _ => m
  else match o with
    | 0x00 => m.hostCtlWrite w
    | 0x08 => m.hostPulseOp m.now w
    | 0x0C => if Bits.field w 1 3 = 7 then (m.setFld off 0 1 (Bits.field w 0 1)).badWrite off else m.setReg off (w &&& 0xF#32)
    | 0x14 => m.setReg off (w &&& 0xF#32)
    | _ => m

/-- A write to the deep-tier block: a field outside its range leaves the register unchanged (R430). -/
def tierWrite (m : Mach) (o off : Nat) (w : BitVec 32) : Mach :=
  match o with
  | 0x00 => m.tierCtlWrite w
  | 0x08 => if Bits.field w 0 8 = 0 then m.badWrite off else m.setReg off (w &&& 0x0FFFFFFF#32)
  | 0x0C => if Bits.field w 0 16 = 0 then m.badWrite off else m.setReg off (w &&& 0x00FFFFFF#32)
  | 0x10 => if Bits.field w 0 16 = 0 then m.badWrite off else m.setReg off (w &&& 0xFFFF#32)
  | 0x18 => m.setReg off (w &&& 0x00FFFFFF#32)
  | _ => m

/-- A write to the Goose block: HB_MS is 10 to 1,000. -/
def gooseWrite (m : Mach) (o off : Nat) (w : BitVec 32) : Mach :=
  match o with
  | 0 => m.goosePetOp m.now w
  | 4 => if Bits.field w 0 10 < 10 ∨ 1000 < Bits.field w 0 10 then m.badWrite off else m.setReg off (w &&& 0x3FF#32)
  | _ => m

/-- A write to a common register (Table 19-2). -/
def commonWrite (m : Mach) (b a o : Nat) (w : BitVec 32) : Mach :=
  if 0xFF10 ≤ o ∧ o < 0xFF30 then m.mbxDataWrite b a ((o - 0xFF10) / 4) w
  else match o with
    | 0xFF00 => m.mbxCtlWrite b a w
    | 0xFF04 => m.mbxAddrWrite b a w
    | 0xFF08 => m.mbxOwnerWrite b a w
    | _ => m

/-- The effect of a write on its block. RO fields, reserved bits and unimplemented offsets ignore it (R571, R574). -/
def regEffect (m : Mach) (a off : Nat) (w : BitVec 32) : Mach :=
  let b := regBlk off
  let o := regOff off
  if counterReg off then m.clearCounters off w
  else if 0xFF00 ≤ o then m.commonWrite (blkKey off) a o w
  else if regDie off = 0 then
    match b with
    | 0 => if o = 8 then (if w.getLsbD 16 then m.swAlertOp (w.getLsbD 0) else m) else m
    | 1 => m.powerWrite o off w
    | 2 => m.bootWrite o w
    | 3 => if 0x800 ≤ o ∧ o < 0xA00 ∧ o % 0x40 = 0 then m.henCtlWrite (agentId 0 2 ((o - 0x800) / 0x40)) w else m
    | 4 => if o < 0x100 then m.muleRegWrite (agentId 0 3 (o / 0x40)) (o % 0x40) off w else m
    | 5 => if o < 0x100 ∧ o % 0x40 = 0 then m.linkCtlWrite (12 + o / 0x40) w else m
    | 6 => m.herdWrite o off w
    | 7 => m.hostWriteReg o off w
    | 8 => m.tierWrite o off w
    | 9 => m.gooseWrite o off w
    | 0xA => if o = 4 then m.secCtlWrite w else m
    | _ => m.telWrite 0 o w
  else
    let d := regDie off - 1
    if b < 26 then m.flockWriteReg (flockBase d b) o off w
    else match b with
      | 0x20 => m.mgmtWrite (Fin.ofNat 4 d) o off w
      | 0x21 => if 0x4000 ≤ o ∧ o < 0x8000 then m.syncWrite d ((o - 0x4000) / 4) (w.setWidth 24) else m
      | 0x22 => if o < 0x1000 ∧ o % 0x100 = 0 then m.scCtlWrite (16 * d + o / 0x100) off w
        else if o = 0x1020 then (if Bits.field w 16 16 = 0 then m else m.setFld off 16 16 0) else m
      | 0x23 => if o < 0x600 then m.hbmRegWrite (3 * d + o / 0x200) (o % 0x200) off w else m
      | 0x24 => if o < 0xC0 ∧ o % 0x40 = 0 then m.linkCtlWrite (3 * d + o / 0x40) w else m
      | _ => m.telWrite (d + 1) o w

/-! ### Writes and reads (R571 to R574) -/

/-- BAD_WRITE counts a write once, however many of its fields are refused (R574): `n` is the state after the write, `m` before. -/
def countOnce (m n : Mach) (off : Nat) : Mach :=
  let c := blockBase off + 0xFF0C
  let old := m.fld c 0 16
  if old + 1 < n.fld c 0 16 then n.setFld c 0 16 (min 0xFFFF (old + 1)) else n

/-- An access to the block is performed: not while the module is in reset, nor on a die declared dead (R573). [log 176 DEDUCED] -/
def regReach (m : Mach) (off : Nat) : Bool := !m.boot.inReset && !(regDie off ≠ 0 && (m.die (regDie off - 1)).dead)

/-- A register write of `w` by agent `a`. A write that acts on a unit whose domain is not ON counts BAD_WRITE (R573); an access to no
block, or one not aligned, is not performed (R571, R572). [log 22 DEDUCED, 177 DEDUCED] -/
def regWrite (m : Mach) (a off : Nat) (w : BitVec 32) : Mach :=
  if !m.regReach off then m
  else if !regExists off || off % 4 ≠ 0 then m.addrError (.die (regDie off)) a
  else if !m.regDomainIs off .on && !counterReg off then m.badWrite off
  else m.countOnce (m.regEffect a off w) off

/-- A register read by agent `a`: the mailbox as the agent sees it, a shadow word, a read of WINDOW_FENCE, else the register's value. -/
def regRead (m : Mach) (a off : Nat) : BitVec 32 × Mach :=
  let o := regOff off
  let b := blkKey off
  if !m.regReach off || !regExists off then (0, m)
  else if 0xFF00 ≤ o ∧ o < 0xFF30 ∧ o ≠ 0xFF0C then (BitVec.ofNat 32 (m.mbxRegRead b a o), m)
  else if 0x8000 ≤ o ∧ o < 0xFF00 ∧ (shadowRange b).isSome then
    let (v, m) := m.shadowRead b a o
    (BitVec.ofNat 32 v, m)
  else if off = hostReg 0x10 then (m.windowFence.host.fences.setWidth 32, m.windowFence)
  else (m.regValue off, m)

/-- A load or store of `size` bytes at a device offset: none where it receives the response of R27 (R215, R571, R572). -/
def devOk (off size : Nat) : Bool := size == 4 && off % 4 == 0 && regExists off

end Mach
end Machine
end Sys2Proof
end

