-- ==== Sys2Proof/Machine/ExecBeat.lean ====
section
/-!
DEFINITION. The commands of chapter 2: the site beat and its commands, operating points, power domains, the governor, the beat scheduler, and
ride-through.
-/
namespace Sys2Proof
namespace Machine
namespace Mach

/-- A write to a register that a row names: what R571 to R574 ask of every write, then the row's own effect. [log 3 DESIGN CHOICE, 176 DEDUCED, 177 DEDUCED] -/
def regRow (m : Mach) (off : Nat) (f : Mach → Mach) : Mach :=
  if !m.regReach off then m
  else if !m.regDomainIs off .on then m.badWrite off
  else m.countOnce (f m) off

end Mach

/-! ### The commands -/

/-- BEAT_EDGE (R34): A rising edge on SITE_BEAT is timed, judged against the lock or window rules, and if accepted resets the angle and may advance the beat number or lock the beat. -/
def execBeatEdge (t : Nat) (high : Nat) (s : State) : Host.Outcome State Fault Refusal :=
  s.act fun m => m.beatEdgeOp t high

/-- BEAT_WORD (R35): A 48-bit beat word received whole is CRC-checked and sets the beat number, slot and site command. -/
def execBeatWord (t : Nat) (w : BitVec 48) (s : State) : Host.Outcome State Fault Refusal :=
  s.act fun m => m.beatWordOp t w

/-- WORD_TIMEOUT (R35): A beat word not fully received by angle 0x1000, or by its free-running window, is discarded and counted in WORD_CRC. -/
def execWordTimeout (s : State) : Host.Outcome State Fault Refusal :=
  s.act fun m => m.wordTimeoutOp

/-- BEAT_WRAP (R37): At the end of a measured period the die wraps the angle to 0x0000 and advances the beat number. -/
def execBeatWrap (s : State) : Host.Outcome State Fault Refusal :=
  s.act fun m => m.beatWrapOp

/-- MISSING_EDGE (R38): The acceptance window ends with no edge; the wrapped beat stands and three in a row set BEAT_LOST with a telemetry record. -/
def execMissingEdge (s : State) : Host.Outcome State Fault Refusal :=
  s.act fun m => m.missingEdgeOp

/-- SITE_NOP (R43): Site command 0 does nothing. -/
def execSiteNop (s : State) : Host.Outcome State Fault Refusal :=
  s.act fun m => m.siteNopOp

/-- SITE_HOLD (R43): Site command HOLD stops upward steps until RELEASE. -/
def execSiteHold (s : State) : Host.Outcome State Fault Refusal :=
  s.act fun m => m.siteHoldOp

/-- SITE_RELEASE (R43): Site command RELEASE ends HOLD and clears a pending site LEAN. -/
def execSiteRelease (s : State) : Host.Outcome State Fault Refusal :=
  s.act fun m => m.siteReleaseOp

/-- SITE_CAP (R43): Site command CAP sets or removes the site power cap. -/
def execSiteCap (arg : BitVec 8) (s : State) : Host.Outcome State Fault Refusal :=
  s.act fun m => m.siteCapOp arg

/-- SITE_LEAN (R43): Site command LEAN enters lean state as on a supply warning. -/
def execSiteLean (s : State) : Host.Outcome State Fault Refusal :=
  s.act fun m => m.siteLeanOp

/-- SLOT_START (R60): At the start of the load slot the module grants held upward steps in priority order within R41, R42, R55 and HOLD. -/
def execSlotStart (s : State) : Host.Outcome State Fault Refusal :=
  s.act fun m => m.slotStartOp

/-- OP_STEP_DONE (R44): An operating-point step of an A-die finishes its voltage and clock change. -/
def execOpStepDone (die : Fin 4) (s : State) : Host.Outcome State Fault Refusal :=
  s.act fun m => m.opStepDoneOp die

/-- RETENTION_EXIT_DONE (R46): A die leaving retention becomes usable again and its stacks leave self-refresh. -/
def execRetentionExitDone (die : Fin 4) (s : State) : Host.Outcome State Fault Refusal :=
  s.act fun m => m.retentionExitDoneOp die

/-- DOMAIN_READY (R50): A power domain switched ON becomes usable after its wake time. -/
def execDomainReady (die : Fin 5) (dom : Fin 42) (s : State) : Host.Outcome State Fault Refusal :=
  s.act fun m => m.domainReadyOp die dom

/-- TARGET_OP (R45): A write of TARGET_OP lowers the die at once or holds a raise as an upward request. -/
def execTargetOp (die : Fin 4) (v : BitVec 3) (s : State) : Host.Outcome State Fault Refusal :=
  s.act fun m => m.regRow (mgmtReg die 0x100) fun m => m.targetOpOp die v.toNat

/-- TARGET_RET (R48): A write of TARGET_RET puts the die in retention if nothing is in flight, or requests leaving it as an upward step. -/
def execTargetRet (die : Fin 4) (v : Bool) (s : State) : Host.Outcome State Fault Refusal :=
  s.act fun m => m.regRow (mgmtReg die 0x100) fun m => m.targetRetOp die v

/-- DOMAIN_CTL (R47): A write of DOMAIN_CTL switches a domain down at once, holds an ON request, or is refused. -/
def execDomainCtl (die : Fin 4) (r : Fin 6) (w : BitVec 32) (s : State) : Host.Outcome State Fault Refusal :=
  s.act fun m => m.regRow (mgmtReg die (0x110 + 4 * r)) fun m => m.domainCtlOp die r w

/-- METER_SAMPLE (R52): The input meter samples voltage and current every 1 µs and updates the power averages. -/
def execMeterSample (vin vbus : BitVec 10) (cur : Nat) (p0 p1 p2 p3 : Nat) (s : State) : Host.Outcome State Fault Refusal :=
  s.act fun m => m.meterSampleOp vin vbus cur [p0, p1, p2, p3]

/-- ENFORCEMENT_STEP (R52): With the 1 ms average over the effective cap, hardware lowers an ENF_OP or halves OX_LIMIT. -/
def execEnforcementStep (s : State) : Host.Outcome State Fault Refusal :=
  s.act fun m => m.enforcementStepOp

/-- ENFORCEMENT_UNDO (R53): After 16 ms below cap less headroom the most recent enforcement step is held for undo as an upward step. -/
def execEnforcementUndo (s : State) : Host.Outcome State Fault Refusal :=
  s.act fun m => m.enforcementUndoOp

/-- CAP_UNMET (R53): With every step taken and the cap still exceeded for 10 ms, CAP_UNMET is set. -/
def execCapUnmet (s : State) : Host.Outcome State Fault Refusal :=
  s.act fun m => m.capUnmetOp

/-- FAST_LIMIT (R54): Input power above 1.15 times the cap for 50 µs holds every Ox's issue for 100 µs. -/
def execFastLimit (s : State) : Host.Outcome State Fault Refusal :=
  s.act fun m => m.fastLimitOp

/-- FAST_LIMIT_END (R54): The 100 µs fast-limit hold expires and Oxen may issue again. -/
def execFastLimitEnd (s : State) : Host.Outcome State Fault Refusal :=
  s.act fun m => m.fastLimitEndOp

/-- TOKEN_RETURN (R56): An Ox that has not issued for 256 fclk returns its issue token. -/
def execTokenReturn (o : OxId) (s : State) : Host.Outcome State Fault Refusal :=
  s.act fun m => m.oxTokenReturnOp o.agent

/-- OP_STEP (R59): A due OP_STEP entry writes its argument to TARGET_OP. -/
def execOpStep (die : Fin 4) (e : Fin 64) (s : State) : Host.Outcome State Fault Refusal :=
  s.act fun m => m.entryDueOp die.succ e 1

/-- DOMAIN (R59): A due DOMAIN entry switches a domain or cluster, holding an ON switch as an upward step. -/
def execDomain (die : Fin 5) (e : Fin 64) (s : State) : Host.Outcome State Fault Refusal :=
  s.act fun m => m.entryDueOp die e 2

/-- SCRUB_BURST (R62): A due SCRUB_BURST entry raises patrol scrub to full rate for its window. -/
def execScrubBurst (die : Fin 4) (e : Fin 64) (s : State) : Host.Outcome State Fault Refusal :=
  s.act fun m => m.entryDueOp die.succ e 3

/-- SCRUB_BURST_END (R62): A SCRUB_BURST window ends and scrub returns to its normal rate. -/
def execScrubBurstEnd (die : Fin 4) (e : Fin 64) (s : State) : Host.Outcome State Fault Refusal :=
  s.act fun m => m.burstEndOp die e

/-- RAMP_PERMIT (R61): A due RAMP_PERMIT entry opens a window in which held Ox ramps may begin. -/
def execRampPermit (die : Fin 4) (e : Fin 64) (s : State) : Host.Outcome State Fault Refusal :=
  s.act fun m => m.entryDueOp die.succ e 4

/-- RAMP_PERMIT_END (R61): A RAMP_PERMIT window closes. -/
def execRampPermitEnd (die : Fin 4) (e : Fin 64) (s : State) : Host.Outcome State Fault Refusal :=
  s.act fun m => m.permitEndOp die e

/-- SAVE_WINDOW (R63): A due SAVE_WINDOW entry starts a scheduled save of the save set. -/
def execSaveWindow (e : Fin 64) (s : State) : Host.Outcome State Fault Refusal :=
  s.act fun m => m.entryDueOp 0 e 5

/-- VIN_WARNING (R65): VIN below warning for at least 2 µs is detected and the module enters lean state. -/
def execVinWarning (vin : BitVec 10) (dur : Nat) (s : State) : Host.Outcome State Fault Refusal :=
  s.act fun m => m.vinWarningOp vin dur

/-- INPUT_OPEN (R65): VIN above 62 V for 10 µs opens the input stage and enters lean state. -/
def execInputOpen (vin : BitVec 10) (dur : Nat) (s : State) : Host.Outcome State Fault Refusal :=
  s.act fun m => m.inputOpenOp vin dur

/-- INPUT_CLOSE (R65): The input stage closes again when VIN is between 40 V and 60 V. -/
def execInputClose (t : Nat) (vin : BitVec 10) (s : State) : Host.Outcome State Fault Refusal :=
  s.act fun m => m.inputCloseOp t vin

/-- SUPPLY_CLEAR (R74): VIN rises above clear and, with the other conditions holding, the wait for leaving lean state begins. -/
def execSupplyClear (t : Nat) (vin : BitVec 10) (s : State) : Host.Outcome State Fault Refusal :=
  s.act fun m => m.supplyClearOp t vin

/-- VIN_BELOW_CLEAR (R74): VIN falls below the clear level while staying above warning, which restarts the wait for leaving lean state. -/
def execVinBelowClear (t : Nat) (vin : BitVec 10) (s : State) : Host.Outcome State Fault Refusal :=
  s.act fun m => m.vinBelowClearOp t vin

/-- LEAN_WAIT_END (R74): The lean-exit wait has lasted two measured beat periods. -/
def execLeanWaitEnd (t : Nat) (s : State) : Host.Outcome State Fault Refusal :=
  s.act fun m => m.leanWaitEndOp t

/-- SAVE_START (R69): Once every Ox and task Hen has stopped, the save engine starts copying the save set into the free slot. -/
def execSaveStart (s : State) : Host.Outcome State Fault Refusal :=
  s.act fun m => m.saveStartOp

/-- SAVE_COPY_DONE (R72): The save copy completes and the seal record is written. -/
def execSaveCopyDone (s : State) : Host.Outcome State Fault Refusal :=
  s.act fun m => m.saveCopyDoneOp

/-- VBUS_SEAL (R72): VBUS reaching 37.5 V stops the copy and writes an INCOMPLETE seal. -/
def execVbusSeal (done : Fin 33) (s : State) : Host.Outcome State Fault Refusal :=
  s.act fun m => m.vbusSealOp done

/-- SUPPLY_RESET (R73): VBUS reaching 36.0 V resets the module as MOD_RESET_N would. -/
def execSupplyReset (s : State) : Host.Outcome State Fault Refusal :=
  s.act fun m => m.supplyResetOp

end Machine
end Sys2Proof
end

