-- ==== Sys2Proof/Machine/ExecAcore.lean ====
section
/-!
DEFINITION. The commands of the application cores (chapter 16): their accesses by type of address, fences, cache blocks, interrupts, clock and clusters.
-/
namespace Sys2Proof
namespace Machine
namespace Mach

/-- An IO access of a core (R499, R501): one aligned 4 B access to a register block; to a dead die a load faults and a store is lost. [log 140 DEDUCED] -/
def coreDevOp (m : Mach) (c pa n : Nat) (write : Bool) (v : BitVec 64) : Mach :=
  let off := pa - 0x7F00_0000_0000
  let kind : CoreFault := if write then .storeAccess else .loadAccess
  if !m.coreReady c then m
  else if pa % n ≠ 0 then m.coreFault c kind pa
  else if !devOk off n then (m.addrError (.die (off / 0x100000000)) (coreAgent c)).coreFault c kind pa
  else if m.targetDead (.dev off) then (if write then m.coreStoreBad c pa true else m.coreFault c .loadAccess pa)
  else if write then m.regWrite (coreAgent c) off (v.setWidth 32)
  else
    let (x, m) := m.regRead (coreAgent c) off
    m.coreDone c x.toNat

/-- A load or store by the type of its address. -/
def coreAccess (m : Mach) (c pa n : Nat) (ty : Pbmt) (write : Bool) (v : BitVec 64) : Mach :=
  if coreType pa ty == .io then m.coreDevOp c pa n write v
  else if write then m.coreStoreOp c pa n ty v
  else m.coreLoadOp c pa n ty

end Mach

/-! ### The commands -/

/-- ACORE_LOAD (R500): An application-core load is performed by the type of its address. -/
def execAcoreLoad (c : CoreIx) (pa : BitVec 56) (size : Fin 4) (ty : Pbmt) (s : State) : Host.Outcome State Fault Refusal :=
  s.act fun m => m.coreAccess c pa.toNat (2 ^ size.val) ty false 0

/-- ACORE_STORE (R505): An application-core store is performed by the type of its address. -/
def execAcoreStore (c : CoreIx) (pa : BitVec 56) (size : Fin 4) (ty : Pbmt) (v : BitVec 64) (s : State) : Host.Outcome State Fault Refusal :=
  s.act fun m => m.coreAccess c pa.toNat (2 ^ size.val) ty true v

/-- ACORE_IO_ACCESS (R501): An application-core IO access reaches a register block in program order. -/
def execAcoreIoAccess (c : CoreIx) (pa : BitVec 56) (size : Fin 4) (ty : Pbmt) (write : Bool) (v : BitVec 64) (s : State) : Host.Outcome State Fault Refusal :=
  s.act fun m => if coreType pa.toNat ty == .io then m.coreDevOp c pa.toNat (2 ^ size.val) write v else m

/-- ACORE_AMO (R502): An application-core AMO is sent to the home, herd or system cache by address type. -/
def execAcoreAmo (c : CoreIx) (pa : BitVec 56) (dword : Bool) (ty : Pbmt) (op : CoreAmo) (v : BitVec 64) (s : State) : Host.Outcome State Fault Refusal :=
  s.act fun m => m.coreAmoOp c pa.toNat dword ty op v

/-- ACORE_LR (R502): An application-core LR reserves a cached line in L2. -/
def execAcoreLr (c : CoreIx) (pa : BitVec 56) (dword : Bool) (ty : Pbmt) (s : State) : Host.Outcome State Fault Refusal :=
  s.act fun m => m.coreLrOp c pa.toNat dword ty

/-- ACORE_SC (R502): An application-core SC is performed in L2 on a cached line. -/
def execAcoreSc (c : CoreIx) (pa : BitVec 56) (dword : Bool) (ty : Pbmt) (v : BitVec 64) (s : State) : Host.Outcome State Fault Refusal :=
  s.act fun m => m.coreScOp c pa.toNat dword ty v

/-- ACORE_FENCE (R506): An application-core FENCE orders paths as Table 16-3 gives. -/
def execAcoreFence (c : CoreIx) (pred succ : BitVec 4) (s : State) : Host.Outcome State Fault Refusal :=
  s.act fun m => m.coreFenceOp c pred succ

/-- CBO_CLEAN (R504): CBO.CLEAN writes back a line to its point of coherence. -/
def execCboClean (c : CoreIx) (pa : BitVec 56) (ty : Pbmt) (s : State) : Host.Outcome State Fault Refusal :=
  s.act fun m => m.coreCboOp c pa.toNat ty false

/-- CBO_FLUSH (R504): CBO.FLUSH writes back and invalidates a line. -/
def execCboFlush (c : CoreIx) (pa : BitVec 56) (ty : Pbmt) (s : State) : Host.Outcome State Fault Refusal :=
  s.act fun m => m.coreCboOp c pa.toNat ty true

/-- CBO_INVAL (R504): CBO.INVAL is performed as CBO.FLUSH. -/
def execCboInval (c : CoreIx) (pa : BitVec 56) (ty : Pbmt) (s : State) : Host.Outcome State Fault Refusal :=
  s.act fun m => m.coreCboOp c pa.toNat ty true

/-- CBO_ZERO (R504): CBO.ZERO writes a whole line of zeros. -/
def execCboZero (c : CoreIx) (pa : BitVec 56) (ty : Pbmt) (s : State) : Host.Outcome State Fault Refusal :=
  s.act fun m => m.coreZeroOp c pa.toNat ty

/-- STORE_ERR (R508): A retired NC or herd store receiving an address error raises local interrupt 16. -/
def execStoreErr (c : CoreIx) (s : State) : Host.Outcome State Fault Refusal :=
  s.act fun m => m.storeErrOp c

/-- LOST_STORE (R508): A store to a destination declared dead raises local interrupt 17 on the core. -/
def execLostStore (c : CoreIx) (s : State) : Host.Outcome State Fault Refusal :=
  s.act fun m => m.lostStoreOp c

/-- TARGET_CLK (R513): A write of TARGET_CLK lowers the core clock at once or requests a raise. -/
def execTargetClk (v : BitVec 4) (s : State) : Host.Outcome State Fault Refusal :=
  s.act fun m => m.regRow (pwrReg 0x60) fun m => m.targetClkOp v

/-- CLUSTER (R515): A write of a CLUSTER field flushes and switches a cluster down, or requests ON. -/
def execCluster (c : Fin 6) (v : BitVec 2) (s : State) : Host.Outcome State Fault Refusal :=
  s.act fun m => m.regRow (pwrReg 0x60) fun m => m.clusterAsk c v

/-- ACORE_CLK_DONE (R513): An application-core clock change completes. -/
def execAcoreClkDone (s : State) : Host.Outcome State Fault Refusal :=
  s.act fun m => m.acoreClkDoneOp

end Machine
end Sys2Proof
end

