-- ==== Sys2Proof/Machine/ExecBoot.lean ====
section
/-!
DEFINITION. The commands of bring-up (chapter 17): resets, the stages, firmware distribution, restore, and the service steps.
-/
namespace Sys2Proof
namespace Machine
namespace Mach

/-- A write of SVC_CMD with the given fields (R540). -/
def svcRow (m : Mach) (cmd die flock : Nat) (opt : BitVec 2) : Mach :=
  m.regRow (bootReg 0x14) fun m => m.svcWrite (BitVec.ofNat 32 (cmd + die * 0x10 + flock * 0x80 + opt.toNat * 0x1000))

/-- One of four findings, by A-die. -/
def byDie {α : Type} (f0 f1 f2 f3 : α) (d : Nat) : α := match d with | 0 => f0 | 1 => f1 | 2 => f2 | _ => f3

end Mach

/-! ### The commands -/

/-- POWER_ON_RESET (R516): VBUS rising from below 28 V resets the module. -/
def execPowerOnReset (t : Nat) (s : State) : Host.Outcome State Fault Refusal :=
  s.act fun m => m.powerOnOp t

/-- ALWAYS_ON_POWER_LOSS (R517): VBUS falls below 28 V, the always-on domains lose power, and the beat state, site state, retained record and logs are lost. -/
def execAlwaysOnPowerLoss (t : Nat) (s : State) : Host.Outcome State Fault Refusal :=
  s.act fun m => m.alwaysOnLossOp t

/-- EXTERNAL_RESET (R592): A valid MOD_RESET_N assertion puts the module in reset and ends a lean save unsealed. -/
def execExternalReset (t : Nat) (low : Nat) (s : State) : Host.Outcome State Fault Refusal :=
  s.act fun m => m.externalResetOp t low

/-- MOD_RESET_RELEASE (R592): MOD_RESET_N deasserted begins the start, warm if R520 allows. -/
def execModResetRelease (t : Nat) (s : State) : Host.Outcome State Fault Refusal :=
  s.act fun m => m.resetReleaseOp t

/-- SW_RESET (R516): WARM_CTL.SW_RESET resets the module. -/
def execSwReset (t : Nat) (s : State) : Host.Outcome State Fault Refusal :=
  s.act fun m => m.regRow (bootReg 8) fun m => m.swResetOp t

/-- KILL_TOKEN (R521): KILL_TOKEN clears the warm token. -/
def execKillToken (s : State) : Host.Outcome State Fault Refusal :=
  s.act fun m => m.regRow (bootReg 8) fun m => m.killTokenOp

/-- STAGE_0 (R522): Stage 0 ends when the bank is charged and VIN is above clear. -/
def execStage0 (t : Nat) (vin vbus : BitVec 10) (s : State) : Host.Outcome State Fault Refusal :=
  s.act fun m => m.stage0Op t vin vbus

/-- STAGE_1 (R523): Stage 1 runs the boot ROM, votes the C-die fuses and loads the variant. -/
def execStage1 (t : Nat) (f : FuseVotes) (s : State) : Host.Outcome State Fault Refusal :=
  s.actF fun fuses m => m.stage1Op fuses t f

/-- STAGE_2 (R559): Stage 2 chooses and verifies a boot-area slot. -/
def execStage2 (t : Nat) (s : State) : Host.Outcome State Fault Refusal :=
  s.act fun m => m.stage2Op t

/-- STAGE_3 (R522): Stage 3 brings up regulators and switches domains ON in slots. -/
def execStage3 (t : Nat) (bad : BitVec 4) (s : State) : Host.Outcome State Fault Refusal :=
  s.act fun m => m.stage3Op t bad

/-- STAGE_4 (R531): Stage 4 trains Kerly links, exchanges DISC and checks steppings. -/
def execStage4 (t : Nat) (f0 f1 f2 f3 : DieFind) (s : State) : Host.Outcome State Fault Refusal :=
  s.act fun m => m.stage4Op t (Mach.byDie f0 f1 f2 f3)

/-- STAGE_5 (R526): Stage 5 reconciles fuses with test, repairs units and sets FLOCK_MAP. -/
def execStage5 (t : Nat) (f0 f1 f2 f3 : DieTest) (s : State) : Host.Outcome State Fault Refusal :=
  s.act fun m => m.stage5Op t (Mach.byDie f0 f1 f2 f3)

/-- STAGE_6 (R530): Stage 6 trains, tests, repairs and zero-fills HBM. -/
def execStage6 (t : Nat) (f : List StackFind) (s : State) : Host.Outcome State Fault Refusal :=
  s.act fun m => m.stage6Op t f

/-- STAGE_7 (R534): Stage 7 broadcasts firmware images to every Hen. -/
def execStage7 (t : Nat) (s : State) : Host.Outcome State Fault Refusal :=
  s.act fun m => m.stage7Op t

/-- STAGE_8 (R538): Stage 8 mounts the deep tier and checks the newest seal. -/
def execStage8 (t : Nat) (s : State) : Host.Outcome State Fault Refusal :=
  s.act fun m => m.stage8Op t

/-- STAGE_9 (R522): Stage 9 releases Oxen and Collies, starts cores and attaches host and herd. -/
def execStage9 (t : Nat) (s : State) : Host.Outcome State Fault Refusal :=
  s.act fun m => m.stage9Op t

/-- FW_ROUND_END (R535): A firmware distribution round ends and missing chunks are resent by multicast or unicast. -/
def execFwRoundEnd (missing : List FwMiss) (s : State) : Host.Outcome State Fault Refusal :=
  s.act fun m => m.fwRoundOp missing

/-- FW_SEND (R537): FW_UPD.SEND on the Bellwether sends the staged image set over herd multicast. -/
def execFwSend (a : BitVec 13) (s : State) : Host.Outcome State Fault Refusal :=
  s.act fun m => m.regRow (bootReg 0x28) fun m => m.fwSendOp

/-- RESTORE (R539): RESTORE copies the newest seal's regions back to their addresses. -/
def execRestore (s : State) : Host.Outcome State Fault Refusal :=
  s.act fun m => m.regRow (bootReg 0x1C) fun m => m.restoreOp

/-- RESTORE_DONE (R539): Every restore write has landed and RESTORE reads 0. -/
def execRestoreDone (s : State) : Host.Outcome State Fault Refusal :=
  s.act fun m => m.restoreDoneOp

/-- QUIESCE_DIE (R540): Service step quiescing every Collie and die Mule of a die. -/
def execQuiesceDie (die : Fin 8) (opt : BitVec 2) (s : State) : Host.Outcome State Fault Refusal :=
  s.act fun m => m.svcRow 1 die 0 opt

/-- FLUSH_DIE (R540): Service step writing back every dirty Hen and slice line of a die. -/
def execFlushDie (die : Fin 8) (opt : BitVec 2) (s : State) : Host.Outcome State Fault Refusal :=
  s.act fun m => m.svcRow 2 die 0 opt

/-- RESET_DIE (R541): Service step putting an A-die into orderly or abrupt compute reset. -/
def execResetDie (die : Fin 8) (opt : BitVec 2) (s : State) : Host.Outcome State Fault Refusal :=
  s.act fun m => m.svcRow 3 die 0 opt

/-- TEST_DIE (R540): Service step running stage 5 for a die. -/
def execTestDie (die : Fin 8) (opt : BitVec 2) (s : State) : Host.Outcome State Fault Refusal :=
  s.act fun m => m.svcRow 4 die 0 opt

/-- HBM_UP (R542): Service step bringing a die's stacks back up. -/
def execHbmUp (die : Fin 8) (opt : BitVec 2) (s : State) : Host.Outcome State Fault Refusal :=
  s.act fun m => m.svcRow 5 die 0 opt

/-- LOAD_FW (R540): Service step loading firmware into a die's or flock's Hens. -/
def execLoadFw (die : Fin 8) (flock : Fin 32) (opt : BitVec 2) (s : State) : Host.Outcome State Fault Refusal :=
  s.act fun m => m.svcRow 6 die flock opt

/-- REJOIN (R540): Service step sending home-reset snoops and removing the die from the dead sets. -/
def execRejoin (die : Fin 8) (opt : BitVec 2) (s : State) : Host.Outcome State Fault Refusal :=
  s.act fun m => m.svcRow 7 die 0 opt

/-- RELEASE (R540): Service step setting REQ = 0 on the die's or flock's Collies. -/
def execRelease (die : Fin 8) (flock : Fin 32) (opt : BitVec 2) (s : State) : Host.Outcome State Fault Refusal :=
  s.act fun m => m.svcRow 8 die flock opt

/-- ADD_DIE (R540): Service step retraining an excluded or dead die's links and adding it. -/
def execAddDie (die : Fin 8) (opt : BitVec 2) (s : State) : Host.Outcome State Fault Refusal :=
  s.act fun m => m.svcRow 9 die 0 opt

/-- FLOCK_OFF (R540): Service step switching a quiesced flock OFF. -/
def execFlockOff (die : Fin 8) (flock : Fin 32) (opt : BitVec 2) (s : State) : Host.Outcome State Fault Refusal :=
  s.act fun m => m.svcRow 10 die flock opt

/-- FLOCK_ON (R540): Service step switching a spare flock ON and testing it. -/
def execFlockOn (die : Fin 8) (flock : Fin 32) (opt : BitVec 2) (s : State) : Host.Outcome State Fault Refusal :=
  s.act fun m => m.svcRow 11 die flock opt

/-- SVC_STEP_DONE (R540): A service step ends, passing or failing with a stage report. -/
def execSvcStepDone (t : Nat) (f : SvcFind) (s : State) : Host.Outcome State Fault Refusal :=
  s.act fun m => m.svcDoneOp t f

/-- RECOVERY_WRITE (R559): A TFTP recovery image set is checked, written to the failed slot and the module resets. -/
def execRecoveryWrite (t : Nat) (s1 ah mh : Image) (s : State) : Host.Outcome State Fault Refusal :=
  s.act fun m => m.recoveryOp t s1 ah mh

/-- LINK_LOCAL_TIMEOUT (R559): After 10 s without a DHCP answer, the boot ROM's management port takes an RFC 3927 link-local address for recovery. -/
def execLinkLocalTimeout (s : State) : Host.Outcome State Fault Refusal :=
  s.act fun m => m.linkLocalOp

end Machine
end Sys2Proof
end

