-- ==== Sys2Proof/Machine/ExecCoh.lean ====
section
/-!
DEFINITION. The commands of coherence (chapter 11): requests, snoops, answers and data reaching the agent or the home that serves them. `a` is an
agent ID and `pa` an address of the line.
-/
namespace Sys2Proof
namespace Machine
namespace Mach

/-! ### Requests at their home (R323, R352, R354) -/

/-- The oldest request of agent `a` for the line is of kind `k` and reaches its home; it does not pass a write-back of its agent. -/
def reqRow (m : Mach) (a pa : Nat) (k : ReqKind) : Mach :=
  let line := m.lineOf pa
  match m.coh.reqs.find? fun r => r.agent == a && r.line == line with
  | some r =>
    if r.kind ≠ k || m.wbAhead a line then m
    else ((m.modCoh fun c => { c with reqs := c.reqs.erase r }).homeArrive r).dirEvict (homeSlice (64 * line))
  | none => m

/-- A write-back, or a notice, of agent `a` reaches the home (R354): it waits while a transaction of the line is in progress, unless a
snoop has taken its data. [log 200 DEDUCED, 207 DEDUCED] -/
def wbRow (m : Mach) (a pa : Nat) (invn : Bool) : Mach :=
  let line := m.lineOf pa
  match m.coh.wbs.find? fun w => w.agent == a && w.line == line with
  | some w =>
    if w.invn ≠ invn || m.targetHeld (.home (64 * line)) || (m.lineBusy line && !w.stale) then m
    else if m.deepFrozen line && !w.invn && !w.stale then
      -- a write that would make a clean sub-block dirty is held and counts once (R412)
      if w.waited then m
      else (m.modCoh fun c => { c with wbs := c.wbs.map fun x => if x == w then { x with waited := true } else x }).count (tierReg 0x34) false
    else
      let m := (m.wbArrive w).dirEvict (homeSlice (64 * line))
      let m := if a = sysAgent then m.coresPoke else m
      if a = hostAgent && !invn then m.emit (.hostDone line) else m
  | none => m

/-- A retry-later NACK reaches its requester, which sends the request again (R46). -/
def nackRow (m : Mach) (a pa : Nat) : Mach :=
  let line := m.lineOf pa
  match m.coh.nacked.find? fun r => r.agent == a && r.line == line with
  | some r => m.modCoh fun c => { c with nacked := c.nacked.erase r, reqs := c.reqs ++ [r] }
  | none => m

/-! ### Snoops, answers, data (R353 to R355) -/

/-- The line that a snoop's agent forwards to the requester. -/
def forward (m : Mach) (r : HomeReq) (f : Option (BitVec 512 × Bool × LineState)) : Mach :=
  match f with
  | some (d, p, st) =>
    m.modCoh fun c => { c with dats := c.dats ++ [{ agent := r.agent, line := r.line, st := some st, data := d, poison := p, src := r.src }] }
  | none => m

/-- Snoop `k` reaches agent `a`, unless an LR hold delays it; the agent's answer is on its way. -/
def snoopRow (m : Mach) (a pa : Nat) (k : SnpKind) (hd : HostCopy) : Mach :=
  let line := m.lineOf pa
  match m.coh.txns.find? fun t => t.req.line == line && t.snoops.contains (a, k) with
  | some t =>
    if m.snoopWaits a line k then m
    else
      let (ans, f, m) := m.snoopAgent a line k hd
      let one (x : Txn) : Txn :=
        if x.req.line == line then
          { x with snoops := x.snoops.erase (a, k), answers := x.answers ++ [(a, ans)], forwarded := x.forwarded || f.isSome }
        else x
      (m.modCoh fun c => { c with txns := c.txns.map one }).forward t.req f
  | none => m

/-- The answer of agent `a` reaches the home. -/
def answerRow (m : Mach) (a pa : Nat) : Mach :=
  let line := m.lineOf pa
  match m.coh.txns.find? fun t => t.req.line == line with
  | some t => match t.answers.find? fun x => x.1 == a with
    | some x => (m.homeAnswer a line x.2).dirEvict (homeSlice (64 * line))
    | none => m
  | none => m

/-- A grant without data reaches its requester. -/
def grantRow (m : Mach) (a pa : Nat) : Mach :=
  let line := m.lineOf pa
  match m.coh.dats.find? fun d => d.agent == a && d.line == line with
  | some d =>
    if !d.grantOnly then m
    else
      let m := m.modCoh fun c => { c with dats := c.dats.erase d }
      if a = sysAgent then m.sysDat d else m.henGrant a line
  | none => m

/-- Line data reaches its requester. -/
def datRow (m : Mach) (a pa : Nat) : Mach :=
  let line := m.lineOf pa
  match m.coh.dats.find? fun d => d.agent == a && d.line == line with
  | some d =>
    if d.grantOnly || m.fillWaits d then m
    else
      let m := m.modCoh fun c => { c with dats := c.dats.erase d }
      if a = hostAgent then m.emit (.hostData line d.data d.poison)
      else if a = sysAgent then m.sysDat d
      else if isAcore a then m.coreAtm (agentBlk a * 24 + agentUnit a) line d.data d.poison
      else m.henDat d
  | none => m

/-! ### Stashes and upkeep -/

/-- A stash of the line for Hen `a` is sent once the line is free (R360). [log 200 DEDUCED] -/
def stashRow (m : Mach) (a pa : Nat) : Mach :=
  let line := m.lineOf pa
  match m.coh.stashes.find? fun x => x.agent == a && x.line == line with
  | some x => if m.lineBusy line || m.holdBlocks a line || m.targetHeld (.home (64 * line)) then m else (m.stashRun x).dirEvict (homeSlice (64 * line))
  | none => m

/-- The atomic queue of a slice retires a line operation, while its die serves. -/
def aqRow (m : Mach) (k : Nat) : Mach :=
  if m.boot.inReset || (m.die (k / 16)).curRet || (m.die (k / 16)).computeReset then m else (m.aqRun k).dirEvict k

/-- A slice ends its walk for dead agents (R367). [log 100 DEDUCED] -/
def deadWalkRow (m : Mach) (k : Nat) : Mach :=
  if (m.slice k).reclaiming && (m.die (k / 16)).running then m.walkSlice k else m

/-- A flush ends: every dirty line has been written (R371). -/
def scFlushDoneRow (m : Mach) (k : Nat) : Mach :=
  if (m.slice k).flushing then (m.sliceFlush k).modSlice k fun s => { s with flushing := false } else m

/-- A slice scrubs a line and its directory entry (R346, R370, R546). [log 103 DEDUCED] -/
def sliceScrubRow (m : Mach) (k pa : Nat) : Mach :=
  let line := m.lineOf pa
  match m.target pa with
  | .home sa =>
    if homeSlice sa ≠ k || m.lineBusy line || !(m.die (k / 16)).running then m
    else
      let put (m : Mach) (x : SliceLine) : Mach := m.modCoh fun c => { c with lines := FMap.set none c.lines line (some x) }
      let m := match FMap.get none m.coh.lines line with
        | some x =>
          if x.upset = 1 then (put m { x with upset := 0 }).count (sliceReg k 8) false
          else if x.upset = 2 then (put m { x with upset := 0, poison := true, dirty := true }).count (sliceReg k 8) true
          else m
        | none => m
      if (m.entry line).bad then m.homeRecall line else m
  | _ => m

/-- The number of a slice among the 64. -/
def sliceNo (s : SliceId) : Nat := 16 * s.die.val + s.slice.val

end Mach

/-! ### The commands -/

/-- RDS (R352): The home serves a shared read request under Table 11-3. -/
def execRds (a : BitVec 13) (pa : BitVec 56) (s : State) : Host.Outcome State Fault Refusal :=
  s.act fun m => m.reqRow a.toNat pa.toNat .rds

/-- RDO (R352): The home serves an ownership read request. -/
def execRdo (a : BitVec 13) (pa : BitVec 56) (s : State) : Host.Outcome State Fault Refusal :=
  s.act fun m => m.reqRow a.toNat pa.toNat .rdo

/-- UPG (R352): The home serves an upgrade from S to ownership. -/
def execUpg (a : BitVec 13) (pa : BitVec 56) (s : State) : Host.Outcome State Fault Refusal :=
  s.act fun m => m.reqRow a.toNat pa.toNat .upg

/-- RDU (R352): The home serves an uncached read. -/
def execRdu (a : BitVec 13) (pa : BitVec 56) (s : State) : Host.Outcome State Fault Refusal :=
  s.act fun m => m.reqRow a.toNat pa.toNat .rdu

/-- WRL (R352): The home performs a whole-line uncached write. -/
def execWrl (a : BitVec 13) (pa : BitVec 56) (s : State) : Host.Outcome State Fault Refusal :=
  s.act fun m => m.reqRow a.toNat pa.toNat .wrl

/-- WRP (R352): The home merges a partial-line uncached write. -/
def execWrp (a : BitVec 13) (pa : BitVec 56) (s : State) : Host.Outcome State Fault Refusal :=
  s.act fun m => m.reqRow a.toNat pa.toNat .wrp

/-- WBD (R354): The home accepts or drops a dirty write-back. -/
def execWbd (a : BitVec 13) (pa : BitVec 56) (s : State) : Host.Outcome State Fault Refusal :=
  s.act fun m => m.wbRow a.toNat pa.toNat false

/-- INVN (R352): The home takes notice of a discarded modified line. -/
def execInvn (a : BitVec 13) (pa : BitVec 56) (s : State) : Host.Outcome State Fault Refusal :=
  s.act fun m => m.wbRow a.toNat pa.toNat true

/-- ATM (R362): An atomic or reduction request is admitted into the slice's atomic queue. -/
def execAtm (a : BitVec 13) (pa : BitVec 56) (s : State) : Host.Outcome State Fault Refusal :=
  s.act fun m => m.atmAdmit a.toNat (m.lineOf pa.toNat)

/-- ATM_LINE_OP (R364): The slice retires one atomic line operation, merging entries where allowed. -/
def execAtmLineOp (sl : SliceId) (s : State) : Host.Outcome State Fault Refusal :=
  s.act fun m => m.aqRow (Mach.sliceNo sl)

/-- SNPSHR (R352): An owner receiving SnpShr forwards the line and keeps S. -/
def execSnpshr (a : BitVec 13) (pa : BitVec 56) (hd : HostCopy) (s : State) : Host.Outcome State Fault Refusal :=
  s.act fun m => m.snoopRow a.toNat pa.toNat .shr hd

/-- SNPOWN (R353): An owner receiving SnpOwn forwards the line to the requester and invalidates. -/
def execSnpown (a : BitVec 13) (pa : BitVec 56) (hd : HostCopy) (s : State) : Host.Outcome State Fault Refusal :=
  s.act fun m => m.snoopRow a.toNat pa.toNat .own hd

/-- SNPOWNHOME (R352): An owner receiving SnpOwnHome writes the line back and invalidates. -/
def execSnpownhome (a : BitVec 13) (pa : BitVec 56) (hd : HostCopy) (s : State) : Host.Outcome State Fault Refusal :=
  s.act fun m => m.snoopRow a.toNat pa.toNat .ownHome hd

/-- SNPDATA (R352): An owner receiving SnpData sends the line home and keeps S. -/
def execSnpdata (a : BitVec 13) (pa : BitVec 56) (hd : HostCopy) (s : State) : Host.Outcome State Fault Refusal :=
  s.act fun m => m.snoopRow a.toNat pa.toNat .data hd

/-- SNPINV (R352): A holder receiving SnpInv invalidates its copy. -/
def execSnpinv (a : BitVec 13) (pa : BitVec 56) (hd : HostCopy) (s : State) : Host.Outcome State Fault Refusal :=
  s.act fun m => m.snoopRow a.toNat pa.toNat .inv hd

/-- HOME_RESET_SNOOP (R369): A caching agent receiving a home-reset snoop writes back M copies and invalidates others. -/
def execHomeResetSnoop (a : BitVec 13) (pa : BitVec 56) (hd : HostCopy) (s : State) : Host.Outcome State Fault Refusal :=
  s.act fun m => m.homeResetSnoopOp a.toNat pa.toNat hd

/-- SNOOP_RESPONSE (R354): A snoop response or NP reaches the home and advances or ends the line's transaction. -/
def execSnoopResponse (a : BitVec 13) (pa : BitVec 56) (s : State) : Host.Outcome State Fault Refusal :=
  s.act fun m => m.answerRow a.toNat pa.toNat

/-- GRANT (R352): A grant reaches a requester and sets its line state. -/
def execGrant (a : BitVec 13) (pa : BitVec 56) (s : State) : Host.Outcome State Fault Refusal :=
  s.act fun m => m.grantRow a.toNat pa.toNat

/-- DAT (R352): Line data reaches a requester or home and completes a waiting access. -/
def execDat (a : BitVec 13) (pa : BitVec 56) (s : State) : Host.Outcome State Fault Refusal :=
  s.act fun m => m.datRow a.toNat pa.toNat

/-- STASH (R359): The home sends a hinted line to a target Hen, which fills it or refuses it. -/
def execStash (a : BitVec 13) (pa : BitVec 56) (s : State) : Host.Outcome State Fault Refusal :=
  s.act fun m => m.stashRow a.toNat pa.toNat

/-- RETRY_NACK (R46): A retry-later NACK reaches a requester, which retries the request. -/
def execRetryNack (a : BitVec 13) (pa : BitVec 56) (s : State) : Host.Outcome State Fault Refusal :=
  s.act fun m => m.nackRow a.toNat pa.toNat

/-- DEAD_WALK_DONE (R367): A slice finishes walking its tags and directory store for dead agents. -/
def execDeadWalkDone (sl : SliceId) (s : State) : Host.Outcome State Fault Refusal :=
  s.act fun m => m.deadWalkRow (Mach.sliceNo sl)

/-- SLICE_SCRUB (R546): A slice scrubs a line or directory entry in an idle cycle. -/
def execSliceScrub (sl : SliceId) (pa : BitVec 56) (s : State) : Host.Outcome State Fault Refusal :=
  s.act fun m => m.sliceScrubRow (Mach.sliceNo sl) pa.toNat

/-- SC_FLUSH (R371): SC_CTL.FLUSH starts writing every dirty line of the slice to HBM. -/
def execScFlush (sl : SliceId) (s : State) : Host.Outcome State Fault Refusal :=
  s.act fun m => m.regRow (sliceReg (Mach.sliceNo sl) 0) fun m => m.scFlushOp (Mach.sliceNo sl)

/-- SC_FLUSH_DONE (R371): A slice flush completes. -/
def execScFlushDone (sl : SliceId) (s : State) : Host.Outcome State Fault Refusal :=
  s.act fun m => m.scFlushDoneRow (Mach.sliceNo sl)

end Machine
end Sys2Proof
end

