-- ==== Sys2Proof/Machine/ExecCollie.lean ====
section
/-!
DEFINITION. The commands of the Collie and the sync units (chapter 8).
-/
namespace Sys2Proof
namespace Machine
namespace Mach

/-- COL_HENi, where firmware reports on an item (R260). -/
def colHenReg (fb h : Nat) : Nat := flockReg fb (0x40 + 4 * h)

end Mach

/-! ### The commands -/

/-- COLLIE_DISPATCH (R256): The Collie fills an engine's current or next place with a chosen ready item. -/
def execCollieDispatch (f : FlockId) (hen : Bool) (s : State) : Host.Outcome State Fault Refusal :=
  s.act fun m => m.collieDispatchOp f.base hen

/-- TAKE (R260): Firmware marks a delivered item taken. -/
def execItemTake (f : FlockId) (h : Fin 16) (s : State) : Host.Outcome State Fault Refusal :=
  s.act fun m => m.regRow (Mach.colHenReg f.base h) fun m => m.takeOp f.base h

/-- DONE (R260): Firmware completes a taken item. -/
def execItemDone (f : FlockId) (h : Fin 16) (s : State) : Host.Outcome State Fault Refusal :=
  s.act fun m => m.regRow (Mach.colHenReg f.base h) fun m => m.doneOp f.base h

/-- FAIL (R260): Firmware fails a taken item with FCAUSE. -/
def execItemFail (f : FlockId) (h : Fin 16) (fcause : BitVec 8) (s : State) : Host.Outcome State Fault Refusal :=
  s.act fun m => m.regRow (Mach.colHenReg f.base h) fun m => m.failOp f.base h fcause

/-- ITEM_RETURN (R274): A returned or ended item is requeued, retried or failed under Table 8-5 with a failure record. -/
def execItemReturn (f : FlockId) (s : State) : Host.Outcome State Fault Refusal :=
  s.act fun m => m.itemReturnOp f.base

/-- STEAL_SIB (R264): An idle engine takes the item from a sibling's next place. -/
def execStealSib (f : FlockId) (unit : Fin 20) (s : State) : Host.Outcome State Fault Refusal :=
  s.act fun m => m.stealSibOp f.base unit

/-- PROBE_ROUND (R265): After the backoff an idle engine's Collie probes other flocks or dies for work. -/
def execProbeRound (f : FlockId) (hen : Bool) (s : State) : Host.Outcome State Fault Refusal :=
  s.act fun m => m.probeRoundOp f.base hen

/-- PROBE (R266): A probed Collie gives an eligible item or answers no item. -/
def execProbe (f : FlockId) (hen : Bool) (s : State) : Host.Outcome State Fault Refusal :=
  s.act fun m => m.probeOp f.base hen

/-- STEAL_COPY_DONE (R267): The copy-in of a stolen item completes and the item starts on the thief. -/
def execStealCopyDone (f : FlockId) (unit : Fin 20) (s : State) : Host.Outcome State Fault Refusal :=
  s.act fun m => m.stealCopyDoneOp f.base unit

/-- COPY_BACK_DONE (R268): The copy-back of a stolen item lands and its widened completion release is performed. -/
def execCopyBackDone (f : FlockId) (unit : Fin 20) (s : State) : Host.Outcome State Fault Refusal :=
  s.act fun m => m.collieBackDone f.base unit

/-- COLLIE_RUN (R278): COL_CTL.REQ = 0 returns engines to service and resumes the Collie. -/
def execCollieRun (f : FlockId) (s : State) : Host.Outcome State Fault Refusal :=
  s.act fun m => m.regRow (flockReg f.base 0) fun m => m.collieRunOp f.base

/-- COLLIE_QUIESCE (R278): COL_CTL.REQ = 1 stops delivery and stealing and quiesces every engine. -/
def execCollieQuiesce (f : FlockId) (s : State) : Host.Outcome State Fault Refusal :=
  s.act fun m => m.regRow (flockReg f.base 0) fun m => m.collieQuiesceOp f.base

/-- COLLIE_FORCE_QUIESCE (R278): COL_CTL.REQ = 2 force-disables every engine of the flock. -/
def execCollieForceQuiesce (f : FlockId) (s : State) : Host.Outcome State Fault Refusal :=
  s.act fun m => m.regRow (flockReg f.base 0) fun m => m.collieForceOp f.base

/-- COLLIE_QUIESCE_DONE (R278): The Collie enters QUIESCED once engines are disabled and nothing is hosted or away. -/
def execCollieQuiesceDone (f : FlockId) (s : State) : Host.Outcome State Fault Refusal :=
  s.act fun m => m.collieQuiesceDoneOp f.base

/-- EVICT (R279): EVICT pushes every native item to the COL_EVICT target in one pass. -/
def execCollieEvict (f : FlockId) (s : State) : Host.Outcome State Fault Refusal :=
  s.act fun m => m.regRow (flockReg f.base 0) fun m => m.collieEvictOp f.base

/-- FLOCK_SCRUB_READ (R247): Patrol scrub reads the next populated line of an ON flock's memory in an unclaimed open slot, correcting or poisoning it. -/
def execFlockScrubRead (f : FlockId) (s : State) : Host.Outcome State Fault Refusal :=
  s.act fun m => m.flockScrubOp f.base

/-- WAIT_POLL (R281): A polled wait outside the wait table is re-evaluated every 64 clocks. -/
def execWaitPoll (die : Fin 4) (s : State) : Host.Outcome State Fault Refusal :=
  s.act fun m => m.waitPollOp die

/-- SYNC_COUNT_WRITE (R282): A write of SYNC_COUNT sets a count, clears its release record and re-evaluates waits. -/
def execSyncCountWrite (die : Fin 4) (i : Fin 4096) (v : BitVec 32) (s : State) : Host.Outcome State Fault Refusal :=
  s.act fun m => m.regRow (syncReg die (0x4000 + 4 * i)) fun m => m.syncWrite die i (v.setWidth 24)

end Machine
end Sys2Proof
end

