-- ==== Sys2Proof/Machine/ExecGoose.lean ====
section
/-!
DEFINITION. The commands of faults, the Goose, security, telemetry and module management (chapters 18 and 19): mailboxes, shadows and register
accesses.
-/
namespace Sys2Proof
namespace Machine
namespace Mach

/-- A write of MBX_CTL that starts a transfer in the direction given (R580). -/
def mbxGoRow (m : Mach) (a b : Nat) (w : BitVec 32) (write : Bool) : Mach :=
  let off := blkBase b + 0xFF00
  if w.getLsbD 0 && w.getLsbD 1 == write && regExists off then m.regRow off fun m => m.mbxCtlWrite b a w else m

/-- A write of MBX_OWNER. -/
def mbxOwnRow (m : Mach) (b : Nat) (f : Mach → Mach) : Mach :=
  if regExists (blkBase b + 0xFF08) then m.regRow (blkBase b + 0xFF08) f else m

/-- Registers with fields that a write of ones clears (R569, R576): counters, POISON_LOG and TEL_STATUS. -/
def w1cReg (off : Nat) : Bool :=
  counterReg off || (decide (0 < regDie off) && regBlk off == 0x22 && regOff off == 0x1020)
    || ((if regDie off = 0 then regBlk off == 0xB else regBlk off == 0x25) && regOff off == 4)

/-- A read of a shadow word: the data goes back to the reader. [log 175 DEDUCED] -/
def shadowRow (m : Mach) (a off : Nat) : Mach :=
  let o := regOff off
  if off % 4 = 0 ∧ 0x8000 ≤ o ∧ o < 0xFF00 ∧ (shadowRange (blkKey off)).isSome ∧ m.regReach off ∧ regExists off then
    let (v, m) := m.regRead a off
    m.emit (.regData a v)
  else m

end Mach

/-! ### The commands -/

/-- VOTE_SWEEP (R548): Every 10 ms each block votes its TV fields, correcting or failing them. -/
def execVoteSweep (corrected : List DevOff) (failed : List VoteField) (s : State) : Host.Outcome State Fault Refusal :=
  s.act fun m => m.voteSweepOp corrected failed

/-- DIE_FATAL_FAULT (R549): A fault fatal to an A-die sends FAIL on every link. -/
def execDieFatalFault (die : Fin 4) (s : State) : Host.Outcome State Fault Refusal :=
  s.act fun m => m.dieFatalOp die

/-- DIE_TEMP_LIMIT (R551): Above 105 °C a die's TARGET_OP is lowered one point every 1 ms. -/
def execDieTempLimit (die : Fin 4) (temp : Nat) (s : State) : Host.Outcome State Fault Refusal :=
  s.act fun m => m.dieTempOp die temp

/-- MCLK_LOSS (R552): The Goose detects mclk loss and holds a safety reset. -/
def execMclkLoss (t : Nat) (s : State) : Host.Outcome State Fault Refusal :=
  s.act fun m => m.mclkLossOp t

/-- KERLY_REF_LOSS (R552): The Goose detects loss of the Kerly reference and holds a safety reset. -/
def execKerlyRefLoss (t : Nat) (s : State) : Host.Outcome State Fault Refusal :=
  s.act fun m => m.refLossOp t

/-- METER_HEARTBEAT_MISS (R552): The governor meter heartbeat missing for 50 µs causes a safety reset. -/
def execMeterHeartbeatMiss (t : Nat) (s : State) : Host.Outcome State Fault Refusal :=
  s.act fun m => m.meterMissOp t

/-- REGULATOR_FAULT (R552): A regulator fault reported to the C-die fails the A-die or resets the module. -/
def execRegulatorFault (t : Nat) (die : Fin 5) (s : State) : Host.Outcome State Fault Refusal :=
  s.act fun m => m.regulatorOp t die

/-- CDIE_OVER_TEMP (R552): C-die junction above 115 °C causes a held safety reset. -/
def execCdieOverTemp (t : Nat) (s : State) : Host.Outcome State Fault Refusal :=
  s.act fun m => m.cdieTempOp t

/-- GOOSE_RELEASE (R552): A held safety-reset condition clears and the Goose releases the reset. -/
def execGooseRelease (t : Nat) (cond : GooseHold) (s : State) : Host.Outcome State Fault Refusal :=
  s.act fun m => m.gooseReleaseOp t cond

/-- HEARTBEAT_MISS (R553): A firmware heartbeat window expires, alerting on the first and resetting on the second. -/
def execHeartbeatMiss (t : Nat) (s : State) : Host.Outcome State Fault Refusal :=
  s.act fun m => m.heartbeatMissOp t

/-- GOOSE_PET (R553): A write of GOOSE_PET with the expected value opens a new heartbeat window. -/
def execGoosePet (t : Nat) (w : BitVec 32) (s : State) : Host.Outcome State Fault Refusal :=
  s.act fun m => m.regRow (gooseReg 0) fun m => m.goosePetOp t w

/-- GLITCH (R566): A glitch clears derived keys, advances the glitch fuse, may zeroise, and resets the module. -/
def execGlitch (t : Nat) (s : State) : Host.Outcome State Fault Refusal :=
  s.act fun m => m.glitchOp t

/-- ENTROPY_FAIL (R563): A failed entropy health test stops key generation. -/
def execEntropyFail (s : State) : Host.Outcome State Fault Refusal :=
  s.act fun m => m.entropyFailOp

/-- ROLLBACK_COMMIT (R560): ROLLBACK_COMMIT advances anti-rollback counters to the running versions. -/
def execRollbackCommit (s : State) : Host.Outcome State Fault Refusal :=
  s.act fun m => m.regRow (secReg 4) fun m => m.rollbackCommitOp

/-- DEBUG_LOCK (R567): DEBUG_LOCK withdraws every debug scope from the next start. -/
def execDebugLock (s : State) : Host.Outcome State Fault Refusal :=
  s.act fun m => m.regRow (secReg 4) fun m => m.debugLockOp

/-- QUOTE_DONE (R565): A quote becomes ready and QUOTE_READY is set. -/
def execQuoteDone (s : State) : Host.Outcome State Fault Refusal :=
  s.act fun m => m.quoteDoneOp

/-- DROP_PACKET (R558): DROP_PACKET advances the read pointer to the next record start. -/
def execDropPacket (die : Fin 5) (s : State) : Host.Outcome State Fault Refusal :=
  s.act fun m => m.regRow (telReg die 0) fun m => m.dropPacketOp die

/-- MBX_READ (R580): MBX_CTL.GO with DIR = 0 starts a mailbox read of the value at MBX_ADDR. -/
def execMbxRead (a : BitVec 13) (b : Fin 1280) (w : BitVec 32) (s : State) : Host.Outcome State Fault Refusal :=
  s.act fun m => m.mbxGoRow a.toNat b w false

/-- MBX_WRITE (R580): MBX_CTL.GO with DIR = 1 starts a mailbox write of the value at MBX_ADDR. -/
def execMbxWrite (a : BitVec 13) (b : Fin 1280) (w : BitVec 32) (s : State) : Host.Outcome State Fault Refusal :=
  s.act fun m => m.mbxGoRow a.toNat b w true

/-- MBX_DONE (R580): A mailbox transfer ends with VALID or ERR. -/
def execMbxDone (b : Fin 1280) (s : State) : Host.Outcome State Fault Refusal :=
  s.act fun m => m.mbxDoneOp b

/-- CLAIM (R579): MBX_OWNER.CLAIM takes the mailbox if free. -/
def execClaim (a : BitVec 13) (b : Fin 1280) (s : State) : Host.Outcome State Fault Refusal :=
  s.act fun m => m.mbxOwnRow b fun m => m.claimOp a.toNat b

/-- MBX_RELEASE (R579): MBX_OWNER.RELEASE frees the mailbox for permitted agents. -/
def execMbxRelease (a : BitVec 13) (b : Fin 1280) (s : State) : Host.Outcome State Fault Refusal :=
  s.act fun m => m.mbxOwnRow b fun m => m.mbxReleaseOp a.toNat b

/-- SHADOW_LOW_READ (R584): A read of a shadow low word samples a 64-bit counter and latches its high word. -/
def execShadowLowRead (a : BitVec 13) (off : DevOff) (s : State) : Host.Outcome State Fault Refusal :=
  s.act fun m => if off % 8 = 0 then m.shadowRow a.toNat off else m

/-- SHADOW_HIGH_READ (R584): A read of a shadow high word returns the latched word or the live one with SHADOW_MISS. -/
def execShadowHighRead (a : BitVec 13) (off : DevOff) (s : State) : Host.Outcome State Fault Refusal :=
  s.act fun m => if off % 8 = 4 then m.shadowRow a.toNat off else m

/-- SW_ALERT (R585): ALERT_CTL.SW_ALERT asserts or releases ALERT_N. -/
def execSwAlert (v : Bool) (s : State) : Host.Outcome State Fault Refusal :=
  s.act fun m => m.regRow (modReg 8) fun m => m.swAlertOp v

/-- COUNTER_CLEAR (R569): A write of ones to a W1C counter or status bit clears it. -/
def execCounterClear (a : BitVec 13) (off : DevOff) (w : BitVec 32) (s : State) : Host.Outcome State Fault Refusal :=
  s.act fun m => if Mach.w1cReg off then m.regWrite a.toNat off w else m

/-- REG_WRITE (R574): A write to a register with no row of its own sets fields, refusing and counting bad values. -/
def execRegWrite (a : BitVec 13) (off : DevOff) (w : BitVec 32) (s : State) : Host.Outcome State Fault Refusal :=
  s.act fun m => m.regWrite a.toNat off w

end Machine
end Sys2Proof
end

