-- ==== Sys2Proof/Machine/ExecHbm.lean ====
section
/-!
DEFINITION. The commands of the HBM controllers and of the deep tier (chapters 12 and 13).
-/
namespace Sys2Proof
namespace Machine

/-! ### The commands -/

/-- HBM_READ_RETURN (R388): A stack read returns and errors are rechecked, corrected or poisoned before data goes back. -/
def execHbmReadReturn (pa : BitVec 56) (cls : Fin 4) (e1 e2 e3 : ReadPair) (s : State) : Host.Outcome State Fault Refusal :=
  s.act fun m => m.hbmReadReturnOp pa.toNat cls ⟨e1.low, e2.low, e3.low⟩ ⟨e1.high, e2.high, e3.high⟩

/-- HBM_WRITE_GROUP (R382): A controller sends held writes to the stack in a group. -/
def execHbmWriteGroup (b : HbmId) (pc : Fin 32) (s : State) : Host.Outcome State Fault Refusal :=
  s.act fun m => m.hbmWriteGroupOp b.key pc

/-- HBM_PARITY_ERROR (R394): An interface parity error repeats the command and on failure retrains the pseudo-channel. -/
def execHbmParityError (pa : BitVec 56) (isWrite okRepeat okAfter : Bool) (s : State) : Host.Outcome State Fault Refusal :=
  s.act fun m => m.hbmParityOp pa.toNat isWrite okRepeat okAfter

/-- HBM_REFRESH (R385): A per-bank refresh falls due. -/
def execHbmRefresh (b : HbmId) (pc : Fin 32) (s : State) : Host.Outcome State Fault Refusal :=
  s.act fun m => m.hbmRefreshOp b.key pc

/-- HBM_TEMP_READ (R385): Every 1 ms the controller reads stack temperature and adjusts refresh, throttling and retrain due. -/
def execHbmTempRead (b : HbmId) (temp : Fin 256) (s : State) : Host.Outcome State Fault Refusal :=
  s.act fun m => m.hbmTempOp b.key temp

/-- HBM_SCRUB_READ (R392): Patrol scrub reads the next line of each pseudo-channel. -/
def execHbmScrubRead (b : HbmId) (pc : Fin 32) (e1 e2 e3 : ReadPair) (s : State) : Host.Outcome State Fault Refusal :=
  s.act fun m => m.hbmScrubOp b.key pc ⟨e1.low, e2.low, e3.low⟩ ⟨e1.high, e2.high, e3.high⟩

/-- RETRAIN_PERIOD (R395): PERIOD has passed since a pseudo-channel's last training and it becomes due. -/
def execRetrainPeriod (b : HbmId) (pc : Fin 32) (s : State) : Host.Outcome State Fault Refusal :=
  s.act fun m => m.retrainPeriodOp b.key pc

/-- RETRAIN_START (R396): A due pseudo-channel starts retraining outside the load slot with short queues. -/
def execRetrainStart (b : HbmId) (pc : Fin 32) (s : State) : Host.Outcome State Fault Refusal :=
  s.act fun m => m.retrainStartOp b.key pc

/-- RETRAIN_FORCED (R396): A retrain not started within 20 ms starts at the next access boundary. -/
def execRetrainForced (b : HbmId) (pc : Fin 32) (s : State) : Host.Outcome State Fault Refusal :=
  s.act fun m => m.retrainForcedOp b.key pc

/-- RETRAIN_DONE (R397): A retrain ends, repeating once on failure and degrading the pseudo-channel if it fails again. -/
def execRetrainDone (b : HbmId) (pc : Fin 32) (ok : Bool) (s : State) : Host.Outcome State Fault Refusal :=
  s.act fun m => m.retrainDoneOp b.key pc ok

/-- RETRAIN_ALL (R395): RETRAIN_ALL makes every pseudo-channel due. -/
def execRetrainAll (b : HbmId) (s : State) : Host.Outcome State Fault Refusal :=
  s.act fun m => m.regRow (hbmSet b.key 0) fun m => m.retrainAllOp b.key

/-- CNT_CLR (R399): CNT_CLR clears the activity counters and frees shadow latches. -/
def execCntClr (b : HbmId) (s : State) : Host.Outcome State Fault Refusal :=
  s.act fun m => m.regRow (hbmSet b.key 0) fun m => m.cntClrOp b.key

/-- PROMOTION_START (R408): A promotion takes a free frame or evicts a victim and begins reading sub-blocks from flash. -/
def execPromotionStart (s : State) : Host.Outcome State Fault Refusal :=
  s.act fun m => m.promotionStartOp

/-- PROMOTE_HINT (R407): A promotion hint is queued or dropped under the heat test. -/
def execPromoteHint (page : Nat) (mule : Bool) (s : State) : Host.Outcome State Fault Refusal :=
  s.act fun m => m.promoteHintOp page

/-- FLASH_READ_DONE (R419): A flash unit read ends, climbing the retry ladder or poisoning, and valid sub-blocks release held accesses. -/
def execFlashReadDone (page : Nat) (unit : Fin 128) (ok : Bool) (chan : Fin 32) (s : State) : Host.Outcome State Fault Refusal :=
  s.act fun m => m.flashReadOp page unit ok chan

/-- FLASH_WRITE_DONE (R415): A sub-block write-back to flash completes, charging the write budget. -/
def execFlashWriteDone (page : Nat) (sub : Fin 32) (s : State) : Host.Outcome State Fault Refusal :=
  s.act fun m => m.flashWriteOp page sub

/-- EVICTION_START (R414): The tier evicts a victim page to keep FREE_TARGET frames free. -/
def execEvictionStart (s : State) : Host.Outcome State Fault Refusal :=
  s.act fun m => m.evictionStartOp

/-- HEAT_EPOCH (R405): Every EPOCH_BEATS beats all heat counters are halved. -/
def execHeatEpoch (s : State) : Host.Outcome State Fault Refusal :=
  s.act fun m => m.heatEpochOp

/-- CLEAN_AHEAD (R416): The tier writes back a cold dirty sub-block while the flash is idle and budget remains. -/
def execCleanAhead (page : Nat) (sub : Fin 32) (s : State) : Host.Outcome State Fault Refusal :=
  s.act fun m => m.cleanAheadOp page sub

/-- BUDGET_TICK (R417): The write-budget account gains its per-second accrual. -/
def execBudgetTick (s : State) : Host.Outcome State Fault Refusal :=
  s.act fun m => m.budgetTickOp

/-- STALL_LATE (R410): An access held 2 ms counts STALL_LATE and keeps waiting. -/
def execStallLate (k : Nat) (s : State) : Host.Outcome State Fault Refusal :=
  s.act fun m => m.stallLateOp k

/-- RETENTION_SCAN (R422): The tier scans a unit for retention and refreshes or levels wear. -/
def execRetentionScan (page : Nat) (unit : Fin 128) (refresh : Bool) (s : State) : Host.Outcome State Fault Refusal :=
  s.act fun m => m.retentionScanOp page unit refresh

/-- FLASH_PROGRAM_FAIL (R423): A block that fails program or erase is retired, possibly entering READ_ONLY. -/
def execFlashProgramFail (spareBlocks : Nat) (low : Bool) (s : State) : Host.Outcome State Fault Refusal :=
  s.act fun m => m.programFailOp spareBlocks low

/-- TIER_FLUSH (R426): TIER_CTL.FLUSH starts writing back every dirty sub-block. -/
def execTierFlush (s : State) : Host.Outcome State Fault Refusal :=
  s.act fun m => m.regRow (tierReg 0) fun m => m.tierFlushOp

/-- TIER_FLUSH_DONE (R426): A tier flush completes and UNCLEAN clears. -/
def execTierFlushDone (s : State) : Host.Outcome State Fault Refusal :=
  s.act fun m => m.tierFlushDoneOp

end Machine
end Sys2Proof
end

