-- ==== Sys2Proof/Machine/HenMem.lean ====
section
/-!
DEFINITION. The Hen's accesses to memory: loads and stores by region type (R171 to R180, R214 to R216, R222, Table 6-4), ATOM (R217 to
R219, R330 to R332), queue pushes and sync operations (R231 to R234), and cache maintenance (R235 to R238).
-/
namespace Sys2Proof
namespace Machine
namespace Mach

/-! ### What an access waits for -/

/-- The instruction has completed, unless its Hen has halted. -/
def henEnd (m : Mach) (a : Nat) : Mach := if m.henUp a then m.henNext a else m

/-- Store-buffer entries for a line remain. -/
def sbHas (m : Mach) (a line : Nat) : Bool := (m.hen a).sb.any fun e => e.line == line

/-- The store buffer drains first (R179): `f` runs once it is empty, and until then the instruction waits. [log 63 DEDUCED] -/
def afterDrain (m : Mach) (a : Nat) (f : Mach → Mach) : Mach :=
  let m := m.sbDrain a
  if m.sbEmpty a then f m else m

/-- TYPE of the region that allows an access, host-window accesses being UNCACHED whatever the type (R171, R322). -/
def accessType (m : Mach) (a pa kind : Nat) : Option Nat :=
  match m.rgnAllow a pa kind, m.target pa with
  | some 2, .host _ => some 1
  | t, _ => t

/-- A response of R27 to a load, an LR or an AMO. -/
def henAddrError (m : Mach) (a addr : Nat) (charge : Charge) : Mach := (m.addrError charge a).henRaise a 6 addr

/-- The Hen waits for the answer of a remote request. [log 58 DEDUCED] -/
def henAwait (m : Mach) (a : Nat) (w : HenWait) : Mach := m.modHen a fun h => { h with wait := w }

/-! ### Loads -/

/-- The bytes of its line that an access reads or writes. -/
def accMask (addr size : Nat) (vec : Bool) (mask : BitVec 64) : BitVec 64 := if vec then mask else byteMask (addr % 64) size

/-- The youngest store-buffer entry that holds a byte that a load reads (R178). [log 196 DESIGN CHOICE] -/
def sbForward (m : Mach) (a line : Nat) (need : BitVec 64) : Option SbEntry :=
  ((m.hen a).sb.filter fun e => e.line == line && e.mask &&& need ≠ 0).getLast?

/-- A load from a register block (R215, R313): one 4 B access, with the dead response of R443. [log 62 DEDUCED] -/
def henLoadDev (m : Mach) (a rd addr off size : Nat) (signed : Bool) : Mach :=
  if !devOk off size then m.henAddrError a addr (.die (off / 0x100000000))
  else if m.targetDead (.dev off) then m.henRaise a 7 addr
  else
    let (v, m) := m.regRead a off
    (m.setG a rd (loadValue 4 signed v.toNat)).henNext a

/-- A load of its line from where it stands (Table 6-4): the data cache, the home, flock memory, the host or the herd. -/
def henLoadLine (m : Mach) (a rd addr size ty : Nat) (signed vec : Bool) (mask : BitVec 64) : Mach :=
  match m.target addr with
  | .home sa =>
    let line := sa / 64
    let cached := ty == 0 && (m.hen a).dcEn
    match if cached then m.henLook a line else (none, m) with
    | (some x, m) =>
      let m := m.henHit a line 0
      if x.poison then m.henRaise a 7 addr else m.henLoaded a rd addr size signed vec mask x.data
    | (none, m) =>
      if m.targetDead (.home sa) && m.henUp a then m.henRaise a 7 addr
      else if !m.henUp a || m.henAsked a line then m
      else
        let half := !cached && !vec && decide (addr % 32 + size ≤ 32)
        (m.henPost { kind := if cached then .rds else .rdu, agent := a, line := line, sector := half, upper := addr / 32 % 2 == 1 }).henAwait a (.load rd addr size signed vec mask false cached)
  | .flock fb _ =>
    let t := m.target addr
    let m := m.crossFirst a (addr / 64)
    if m.targetDead t then m.henRaise a 7 addr
    else if m.targetHeld t then m
    else
      let ((d, p), m) := m.fmRead fb (addr / 64)
      if p then m.henRaise a 7 addr else m.henLoaded a rd addr size signed vec mask d
  | .host hpa => if m.hostOwes a (hpa / 64) then m else match m.hostAsk (.henRead a) (hpa / 64) false 0 0 with
    | .sent k m => m.henAwait a (.host k rd addr size signed vec mask)
    | _ => m.henRaise a 6 addr
  | .herd md off => match m.herdAsk a 0 md .read (BitVec.ofNat 46 off) (BitVec.ofNat 10 size) 0 0 (accMask addr size vec mask) false with
    | .sent k m => m.henAwait a (.herd k rd addr size signed vec mask)
    | .dead => m.henRaise a 7 addr
    | _ => m.henAddrError a addr .nowhere
  | .dev off => m.henLoadDev a rd addr off size signed
  | .bad c => m.henAddrError a addr c

/-- A load of `size` bytes at `addr` into g[rd], or with `vec` of the active bytes of a line into v[rd] (R214, R222). [log 68 DEDUCED, 196 DESIGN CHOICE] -/
def henLoad (m : Mach) (a rd : Nat) (addr : BitVec 64) (size : Nat) (signed vec : Bool) (mask : BitVec 64) : Mach :=
  let pa := addr.toNat
  if pa % size ≠ 0 then m.henRaise a 4 pa
  else match m.accessType a pa 0 with
  | none => m.henRaise a 5 pa
  | some 2 => if vec then m.henRaise a 5 pa else m.afterDrain a fun m => m.henLoadLine a rd pa size 2 signed vec mask
  | some ty =>
    let need := accMask pa size vec mask
    if vec && need = 0 then m.henNext a
    else match m.sbForward a (m.lineOf pa) need with
    | some e => if e.mask &&& need = need then m.henLoaded a rd pa size signed vec mask e.data else m
    | none => m.henLoadLine a rd pa size ty signed vec mask

/-! ### Stores -/

/-- A store that meets the response of R27 once it has left the core (R180). [log 63 DEDUCED] -/
def henStoreBad (m : Mach) (a addr : Nat) (charge : Charge) : Mach := ((m.addrError charge a).henImprecise a 8 addr).henNext a

/-- A store to a register block: one 4 B access; to a dead die it is lost (R326). [log 62 DEDUCED, 63 DEDUCED, 69 DEDUCED] -/
def henStoreDev (m : Mach) (a addr off size : Nat) (v : Nat) : Mach :=
  if !devOk off size then m.henStoreBad a addr (.die (off / 0x100000000))
  else if m.targetDead (.dev off) then (m.henImprecise a 9 addr).henNext a
  else (m.henNext a).regWrite a off (BitVec.ofNat 32 v)

/-- An entry for device register space retires (R177, R215, R313): each word it holds is one 4 B write, lowest address first, and each
store of another width that merged into it gets the response of R27. [log 62 DEDUCED] -/
def sbDevRetire (m : Mach) (a : Nat) (e : SbEntry) (off : Nat) : Mach :=
  let die : Charge := .die (off / 0x100000000)
  let m := m.forEach e.refused fun m pa => (m.addrError die a).henImprecise a 8 pa
  let m := m.sbDone a e
  m.forEach (List.range 16) fun m i =>
    if !e.mask.getLsbD (4 * i) then m
    else if !devOk (off + 4 * i) 4 then (m.addrError die a).henImprecise a 8 (64 * e.line + 4 * i)
    else if m.targetDead (.dev off) then m.henImprecise a 9 (64 * e.line + 4 * i)
    else m.regWrite a (off + 4 * i) (BitVec.ofNat 32 (lineField e.data (4 * i) 4))

/-- A store in a DEVICE region outside device register space (R179): performed alone, and complete before the Hen goes on. -/
def henStoreAlone (m : Mach) (a addr size : Nat) (v : Nat) : Mach :=
  let t := m.target addr
  let line := m.lineOf addr
  let d := placeField v (addr % 64)
  let mask := byteMask (addr % 64) size
  if m.targetDead t then (m.henImprecise a 9 addr).henNext a
  else if m.targetHeld t then m
  else match t with
  | .home _ =>
    let sector := decide (addr % 32 + size ≤ 32)
    if m.homeReady line mask sector then (m.writeNow a line d mask false none sector).henEnd a else m.henChase a line true (!sector)
  | .flock fb _ => (((m.crossFirst a line).fmWrite fb line d mask false).henWrote a line).henNext a
  | .host hpa => if m.hostOwes a (hpa / 64) then m else match m.hostAsk (.henWrite a) (hpa / 64) true d mask with
    | .sent k m => m.modHen a fun h => { h with unlanded := h.unlanded ++ [k], wait := .host k 0 addr size false false 0 }
    | _ => (m.bmeDrop.henImprecise a 8 addr).henNext a
  | .herd md off => match m.herdAsk a 0 md .write (BitVec.ofNat 46 (off / 64 * 64)) 0 d 0 mask false with
    | .sent k m => m.modHen a fun h => { h with unlanded := h.unlanded ++ [k], wait := .herd k 0 addr size false false 0 }
    | .dead => (m.henImprecise a 9 addr).henNext a
    | _ => m.henStoreBad a addr .nowhere
  | .dev off => m.henStoreDev a addr off size v
  | .bad c => m.henStoreBad a addr c

/-- A store enters the store buffer, or waits while every entry is in use (R176); a reservation it writes is lost (R332). [log 64 DEDUCED] -/
def henEntry (m : Mach) (a : Nat) (e : SbEntry) : Mach :=
  if m.sbFull a e.line then
    if (m.hen a).stallSb then m else (m.modHen a fun h => { h with stallSb := true }).count (henReg a 0x18) false
  else
    let m := m.modHen a fun h => { h with stallSb := false }
    ((m.sbPut a e).clearOwnResv a e.line).henNext a

/-- A store of the masked bytes of a line; one with no active byte stores nothing. -/
def henBuffer (m : Mach) (a addr ty : Nat) (d : BitVec 512) (mask : BitVec 64) (hint : Option Nat) : Mach :=
  let line := m.lineOf addr
  if mask = 0 then m.henNext a
  else m.henEntry a { line := line, mask := mask, data := d, uncached := ty ≠ 0, hint := if ty = 0 then hint else none,
                      view := if line = addr / 64 then none else some (addr / 64) }

/-- A store to device register space outside DEVICE regions (R176, R215): a store that is not 4 B wide takes its place and is not performed. [log 62 DEDUCED] -/
def henBufferDev (m : Mach) (a addr size : Nat) (v : Nat) : Mach :=
  if size = 4 then m.henEntry a { line := addr / 64, mask := byteMask (addr % 64) 4, data := placeField v (addr % 64), uncached := true }
  else m.henEntry a { line := addr / 64, mask := 0, data := 0, uncached := true, refused := [addr] }

/-- A store of the low `size` bytes of `v` at `addr` (R214, R216). -/
def henStore (m : Mach) (a : Nat) (addr : BitVec 64) (size : Nat) (v : BitVec 64) (hint : Option Nat) : Mach :=
  let pa := addr.toNat
  let x := v.toNat % 2 ^ (8 * size)
  if pa % size ≠ 0 then m.henRaise a 4 pa
  else match m.accessType a pa 1, m.target pa with
  | none, _ => m.henRaise a 5 pa
  | some 2, .dev off => m.afterDrain a fun m => m.henStoreDev a pa off size x
  | some 2, _ => m.afterDrain a fun m => m.henStoreAlone a pa size x
  | some _, .dev _ => m.henBufferDev a pa size x
  | some ty, _ => m.henBuffer a pa ty (placeField x (pa % 64)) (byteMask (pa % 64) size) hint

/-- A store of the active bytes of a vector register (R222, R216). [log 68 DEDUCED] -/
def henStoreVec (m : Mach) (a : Nat) (addr : BitVec 64) (v : BitVec 512) (mask : BitVec 64) (hint : Option Nat) : Mach :=
  let pa := addr.toNat
  if pa % 64 ≠ 0 then m.henRaise a 4 pa
  else match m.accessType a pa 1, m.target pa with
  | none, _ => m.henRaise a 5 pa
  | some 2, _ => m.henRaise a 5 pa
  | some _, .dev _ => if mask = 0 then m.henNext a else m.henBufferDev a pa 64 0
  | some ty, _ => m.henBuffer a pa ty v mask hint

/-- The target of a write hint that acts (R216): a Hen of an A-die flock other than the issuing Hen, or a slice. -/
def hintOf (a t : Nat) : Option Nat := if (isHen t && isFlockAgent t && t ≠ a) || isSlice t then some t else none

/-! ### ATOM -/

/-- HBM and deep-window addresses of local space (R218, Table 1-9). -/
def atomHere (pa : Nat) : Bool :=
  hbmView pa || (decide (0x2000_0000_0000 ≤ pa) && decide (pa < 0x4000_0000_0000))

/-- Herd-space addresses. -/
def atomHerd (pa : Nat) : Bool := decide (2 ^ 55 ≤ pa) && decide (pa < 2 ^ 56)

/-- The checks of an LR, SC, AMO or CAS at `addr` before any request leaves the Hen (R172, R171, R173, R218): TYPE of its region. [log 66 DEDUCED] -/
def atomCheck (m : Mach) (a pa size : Nat) (reads writes herd : Bool) : Except Nat Nat :=
  if pa % size ≠ 0 then .error 4
  else match m.rgnAllow a pa (if reads then 0 else 1) with
  | none => .error 5
  | some 2 => .error 5
  | some ty =>
    if writes && (m.rgnAllow a pa 1).isNone then .error 5
    else if atomHere pa || (herd && atomHerd pa) then .ok ty else .error 5

/-- Entries of the store buffer lie in the granule that an LR at `pa` reserves. [log 64 DEDUCED] -/
def sbGranule (m : Mach) (a pa : Nat) : Bool := (m.granule a pa).any fun l => m.sbHas a l

/-- LR (R217, R331): the line in state E with the reservation in the data cache, or a read at the home with the reservation there. [log 64 DEDUCED, 67 DEDUCED] -/
def henLrStart (m : Mach) (a rd : Nat) (addr : BitVec 64) (size : Nat) : Mach :=
  let pa := addr.toNat
  match m.atomCheck a pa size true false false with
  | .error c => m.henRaise a c pa
  | .ok ty => match m.target pa with
    | .home sa =>
      let line := sa / 64
      let cached := ty == 0 && (m.hen a).dcEn
      if m.sbGranule a pa then m
      else match if cached then m.henLook a line else (none, m) with
      | (some x, m) =>
        if x.st ≠ .s then
          let m := m.henHit a line 0
          if x.poison then m.henRaise a 7 pa else m.henLr a rd pa size true true x.data
        else if m.targetDead (.home sa) then m.henRaise a 7 pa
        else if m.henAsked a line then m
        else (m.henPost { kind := .rdo, agent := a, line := line }).henAwait a (.load rd pa size true false 0 true true)
      | (none, m) =>
        if m.targetDead (.home sa) && m.henUp a then m.henRaise a 7 pa
        else if !m.henUp a || m.henAsked a line then m
        else (m.henPost { kind := if cached then .rdo else .rdu, agent := a, line := line }).henAwait a (.load rd pa size true false 0 true cached)
    | .bad c => m.henAddrError a pa c
    | _ => m.henRaise a 5 pa

/-- An SC that fails: nothing is written, and the reservation is cleared (R332). -/
def scFail (m : Mach) (a rd : Nat) : Mach := ((m.modHen a fun h => { h with resv := none, hold := none }).setG a rd 1).henNext a

/-- An SC whose line's home has been declared dead (R326): a write that is lost. [log 64 DEDUCED] -/
def scLost (m : Mach) (a rd pa : Nat) : Mach :=
  (((m.modHen a fun h => { h with resv := none, hold := none }).setG a rd 0).henImprecise a 9 pa).henNext a

/-- SC (R217, R332): in the data cache with the line in E or M, or at the home. [log 64 DEDUCED] -/
def henScStart (m : Mach) (a rd : Nat) (addr : BitVec 64) (size : Nat) (v : BitVec 64) : Mach :=
  let pa := addr.toNat
  match m.atomCheck a pa size false true false with
  | .error c => m.henRaise a c pa
  | .ok ty => match m.target pa with
    | .home sa =>
      let line := sa / 64
      if !m.resvOn a line then m.scFail a rd
      else if m.sbHas a line then m
      else if ty == 0 && (m.hen a).dcEn then
        match m.henLook a line with
        | (some x, m) =>
          if x.st ≠ .s then m.scNow a rd pa size v
          else if m.targetDead (.home sa) then m.scLost a rd pa
          else if m.henAsked a line then m
          else (m.henPost { kind := .upg, agent := a, line := line }).henAwait a (.sc rd pa size v)
        | (none, m) =>
          if !m.henUp a then m
          else if m.targetDead (.home sa) then m.scLost a rd pa
          else if m.henAsked a line then m
          else (m.henPost { kind := .rdo, agent := a, line := line }).henAwait a (.sc rd pa size v)
      else if m.targetDead (.home sa) then m.scLost a rd pa
      else if m.homeReady line (byteMask (pa % 64) size) false then
        let m := m.modHen a fun h => { h with resv := none, hold := none }
        let m := m.writeNow a line (placeField (v.toNat % 2 ^ (8 * size)) (pa % 64)) (byteMask (pa % 64) size) false none false
        if m.henUp a then (m.setG a rd 0).henNext a else m
      else m.henChase a line true true
    | .bad c => m.henAddrError a pa c
    | _ => m.henRaise a 5 pa

/-- An AMO or CAS (R217, R218): one operation in the home slice of its line, on this module or another. `code` is func[10:4]. [log 64 DEDUCED] -/
def henAmoStart (m : Mach) (a rd : Nat) (addr : BitVec 64) (size code : Nat) (arg cmp : BitVec 64) : Mach :=
  let pa := addr.toNat
  match m.atomCheck a pa size true true true with
  | .error c => m.henRaise a c pa
  | .ok _ => match m.target pa with
    | .home sa =>
      if m.targetDead (.home sa) then m.henRaise a 7 pa
      else if m.sbHas a (sa / 64) || m.henAsked a (sa / 64) then m
      else
        (m.atmPost { agent := a, line := sa / 64, code := code, off := pa % 64, arg := arg.setWidth 512, cmp := cmp,
                     mask := byteMask (pa % 64) size, stamp := 0 }).henAwait a (.amo rd pa size)
    | .herd md off =>
      if m.sbHas a (pa / 64) then m
      else match m.herdAsk a 0 md .amo (BitVec.ofNat 46 off) (BitVec.ofNat 10 code) (arg.setWidth 512) cmp (byteMask (pa % 64) size) false with
      | .sent k m => m.henAwait a (.herd k rd pa size true false 0)
      | .dead => m.henRaise a 7 pa
      | _ => m.henAddrError a pa .nowhere
    | .bad c => m.henAddrError a pa c
    | _ => m.henRaise a 5 pa

/-- LVOL (R219, R330): a read of its own at the point of coherence, after every store-buffer entry with bytes it reads has retired. [log 67 DEDUCED] -/
def henLvolStart (m : Mach) (a rd : Nat) (addr : BitVec 64) (size : Nat) : Mach :=
  let pa := addr.toNat
  if pa % size ≠ 0 then m.henRaise a 4 pa
  else match m.accessType a pa 0 with
  | none => m.henRaise a 5 pa
  | some 2 => m.afterDrain a fun m => m.henLoadLine a rd pa size 2 false false 0
  | some _ =>
    if (m.sbForward a (m.lineOf pa) (byteMask (pa % 64) size)).isSome then m
    else m.henLoadLine a rd pa size 1 false false 0

/-- ATOM by its operation and SIZE (R217). -/
def henAtom (m : Mach) (a : Nat) (w : BitVec 32) : Mach :=
  let o := HenAlu.fld w 6 5
  let sz := HenAlu.fld w 4 2
  let rd := HenAlu.fA w
  let rs2 := HenAlu.fC w
  let addr := m.g a (HenAlu.fB w)
  let legal := HenAlu.fld w 0 4 = 0 && (o ≠ 0 && o ≠ 16 || rs2 = 0) && (o == 16 || (o == 12 && sz == 2) || (o ≠ 12 && decide (2 ≤ sz)))
  if !legal then m.henIllegal a w
  else match o with
  | 0 => m.henLrStart a rd addr (2 ^ sz)
  | 1 => m.henScStart a rd addr (2 ^ sz) (m.g a rs2)
  | 16 => m.henLvolStart a rd addr (2 ^ sz)
  | _ => m.henAmoStart a rd addr (2 ^ sz) (4 * o + sz) (m.g a rs2) (m.g a rd)

/-! ### Queue pushes and sync operations -/

/-- func[8:6] is reserved, and func[10:9] is a scope of SADD and SWAIT only (R231). -/
def qsLegal (w : BitVec 32) (hasScope : Bool) : Bool := HenAlu.fld w 6 3 == 0 && (hasScope || HenAlu.fld w 9 2 == 0)

/-- MPUSH (R232). -/
def henMpush (m : Mach) (a : Nat) (w : BitVec 32) : Mach :=
  let x := (m.g a (HenAlu.fB w)).toNat
  if !qsLegal w false then m.henIllegal a w
  else if !isMule (x % 8192) then m.henRaise a 5 (x % 65536)
  else
    let (c, m) := m.mulePush (x % 8192) (x / 8192 % 4) (m.v a (HenAlu.fC w))
    (m.setG a (HenAlu.fA w) (BitVec.ofNat 64 c)).henNext a

/-- CPUSH (R232). [log 71 DEDUCED] -/
def henCpush (m : Mach) (a : Nat) (w : BitVec 32) : Mach :=
  let x := (m.g a (HenAlu.fB w)).toNat
  if !qsLegal w false || (Bits.nbit x 15 && x / 8192 % 4 ≠ 0) then m.henIllegal a w
  else if !isCollie (x % 8192) || !m.flockEnabled (flockOf (x % 8192)) then m.henRaise a 5 (x % 65536)
  else
    let (c, m) := m.colliePush (flockOf (x % 8192)) (x / 8192 % 4) (Bits.nbit x 15) (m.v a (HenAlu.fC w))
    (m.setG a (HenAlu.fA w) (BitVec.ofNat 64 c)).henNext a

/-- What a sync identifier names (R233): an object of this module, another module, or nothing. -/
inductive SyncName where
  | here (d i : Nat)
  | there (module obj : Nat)
  | fault
  | dead

def syncName (m : Mach) (x : BitVec 64) : SyncName :=
  let d := Bits.nfield x.toNat 12 3
  let md := Bits.nfield x.toNat 15 9
  if d = 0 ∨ 4 < d then .fault
  else if md = 511 ∨ (m.herd.attached ∧ md = m.herd.module.toNat) then
    if m.dieOut (d - 1) then .dead else .here (d - 1) (x.toNat % 4096)
  else if !m.herd.attached || (m.topoOf md).record.isNone then .fault
  else if (m.topoOf md).dead then .dead
  else .there md (x.toNat % 0x8000)

/-- A sync operation on another module's object. -/
def syncThere (m : Mach) (a rd md obj id : Nat) (kind : HerdKind) (scope data : Nat) : Mach :=
  match m.herdAsk a 0 md kind (BitVec.ofNat 46 obj) (BitVec.ofNat 10 (widenScope (agentLoc a) scope)) (BitVec.ofNat 512 data) 0 0 false with
  | .sent k m => m.henAwait a (.herd k rd id 8 false false 0)
  | .dead => m.henRaise a 7 id
  | _ => m.henRaise a 5 id

/-- Every covered write whose point of coherence lies inside the scope has landed (R337, Table 10-2): writes to another die's flock memory
and host writes at the module, herd writes at the herd. -/
def covered (m : Mach) (a scope : Nat) : Bool :=
  let s := widenScope (agentLoc a) scope
  ((m.hen a).unlanded.all fun k => if k % 4 = 1 then decide (s < 2) else decide (s < 3)) && ((m.hen a).crossing.isEmpty || decide (s < 2))

/-- SADD (R234, R337): the store buffer drains, covered writes inside the scope land, and the addition is a release. -/
def henSadd (m : Mach) (a : Nat) (w : BitVec 32) : Mach :=
  let x := m.g a (HenAlu.fB w)
  let id := x.toNat % 2 ^ 24
  let amt := (m.g a (HenAlu.fC w)).toNat % 65536
  let scope := HenAlu.fld w 9 2
  if !qsLegal w true then m.henIllegal a w
  else match m.syncName x with
  | .fault => m.henRaise a 5 id
  | .dead => m.henRaise a 7 id
  | .here d i => m.afterDrain a fun m =>
    if !m.covered a scope then m
    else
      let (old, m) := m.syncAdd d i amt scope (agentLoc a)
      (m.setG a (HenAlu.fA w) (old.setWidth 64)).henNext a
  | .there md obj => m.afterDrain a fun m =>
    if !m.covered a scope then m else m.syncThere a (HenAlu.fA w) md obj id .sadd scope amt

/-- SWAIT (R234, R338): the Hen waits until the count satisfies the threshold, and then acquires. -/
def henSwait (m : Mach) (a : Nat) (w : BitVec 32) : Mach :=
  let x := m.g a (HenAlu.fB w)
  let id := x.toNat % 2 ^ 24
  let t := (m.g a (HenAlu.fC w)).toNat % 2 ^ 24
  let scope := HenAlu.fld w 9 2
  if !qsLegal w true then m.henIllegal a w
  else match m.syncName x with
  | .fault => m.henRaise a 5 id
  | .dead => m.henRaise a 7 id
  | .here d i =>
    (m.henAwait a (.swait (HenAlu.fA w) (BitVec.ofNat 24 id) d i (BitVec.ofNat 24 t) (BitVec.ofNat 2 scope))).syncWait d i (BitVec.ofNat 24 t) (BitVec.ofNat 2 scope) (.hen a)
  | .there md obj => m.syncThere a (HenAlu.fA w) md obj id .swait scope t

/-- SREAD (R234). -/
def henSread (m : Mach) (a : Nat) (w : BitVec 32) : Mach :=
  let x := m.g a (HenAlu.fB w)
  let id := x.toNat % 2 ^ 24
  if !qsLegal w false || HenAlu.fC w ≠ 0 then m.henIllegal a w
  else match m.syncName x with
  | .fault => m.henRaise a 5 id
  | .dead => m.henRaise a 7 id
  | .here d i => (m.setG a (HenAlu.fA w) ((m.syncObj d i).count.setWidth 64)).henNext a
  | .there md obj => m.syncThere a (HenAlu.fA w) md obj id .sread 0 0

/-! ### Cache maintenance -/

/-- The reserved fields of CMO (R235). -/
def cmoLegal (w : BitVec 32) : Bool := HenAlu.fld w 6 5 == 0 && HenAlu.fA w == 0 && HenAlu.fC w == 0

/-- An address operation (R236): it acts on HBM and deep-window lines of NORMAL regions; `waits` says whether it first waits for the
line's store-buffer entries. -/
def cmoAddr (m : Mach) (a : Nat) (w : BitVec 32) (waits : Bool) (f : Mach → Nat → Mach) : Mach :=
  let pa := (m.g a (HenAlu.fB w)).toNat
  match m.rgnAllow a pa 0 with
  | none => m.henRaise a 5 pa
  | some ty => match m.target pa with
    | .home sa =>
      if ty ≠ 0 then m.henNext a
      else if waits && m.sbHas a (sa / 64) then m
      else (f m (sa / 64)).henEnd a
    | _ => m.henNext a

/-- DC.PF (R185, R236): a hit of the pipeline, or a request for the line; it is dropped where a load would fault, and fills nothing while
the data cache is disabled. -/
def cmoPrefetch (m : Mach) (a : Nat) (w : BitVec 32) : Mach :=
  let pa := (m.g a (HenAlu.fB w)).toNat
  let m := match m.rgnAllow a pa 0, m.target pa with
    | some 0, .home sa =>
      if !(m.hen a).dcEn then m
      else match m.henLook a (sa / 64) with
        | (some _, m) => m.henHit a (sa / 64) 0
        | (none, m) =>
          if !m.henUp a || m.targetDead (.home sa) then m else m.henPost { kind := .rds, agent := a, line := sa / 64, prefetch := true }
    | _, _ => m
  m.henEnd a

/-- The line that a set-and-way operand names (R237). -/
def setWayLine (m : Mach) (a : Nat) (x : Nat) : Option Nat :=
  if Bits.nbit x 10 then ((m.hen a).vcEntry x).map fun l => l.line
  else ((FMap.get {} (m.hen a).dc (x % 256)).way (Fin.ofNat 4 (x / 256))).map fun l => l.line

/-- A set-and-way operation. -/
def cmoSetWay (m : Mach) (a : Nat) (w : BitVec 32) (f : Mach → Nat → Mach) : Mach :=
  match m.setWayLine a (m.g a (HenAlu.fB w)).toNat with
  | some l => (f m l).henEnd a
  | none => m.henNext a

/-- IC.INV (R181). -/
def icInvalidate (m : Mach) (a : Nat) : Mach :=
  m.afterDrain a fun m => (m.modHen a fun h => { h with ic := [], icSets := [], icBad := [] }).henNext a

/-- CMO by its operation, with the privilege of Table 7-11. -/
def henCmo (m : Mach) (a : Nat) (w : BitVec 32) : Mach :=
  let o := HenAlu.fld w 0 6
  let firmware := o = 2 || decide (4 ≤ o)
  if !cmoLegal w || (o == 8 && HenAlu.fB w ≠ 0) then m.henIllegal a w
  else if firmware && !(m.hen a).priv then m.henPrivilege a w
  else match o with
  | 0 => m.cmoAddr a w true fun m l => m.cleanLine a l
  | 1 => m.cmoAddr a w true fun m l => m.flushLine a l
  | 2 => m.cmoAddr a w false fun m l => m.invLine a l
  | 3 => m.cmoPrefetch a w
  | 4 => m.cmoSetWay a w fun m l => m.cleanLine a l
  | 5 => m.cmoSetWay a w fun m l => m.flushLine a l
  | 6 => m.cmoSetWay a w fun m l => m.invLine a l
  | _ => m.icInvalidate a

end Mach
end Machine
end Sys2Proof
end

