-- ==== Sys2Proof/Machine/ExecHen.lean ====
section
/-!
DEFINITION. The Hen's events beside its instructions (R176 to R179, R196 to R202): store-buffer retirement, exceptions and interrupts, self-test, and
the writes of HEN_CTL.
-/
namespace Sys2Proof
namespace Machine
namespace Mach

/-- The `i`-th entry of the store buffer, oldest first, tries to retire; past the entries, the Hen's stores on their way to other dies
land, oldest first (R321). What waits for the drain then goes on. [log 96 DEDUCED, 198 DEDUCED] -/
def sbRetireOp (m : Mach) (a i : Nat) : Mach :=
  let h := m.hen a
  if m.boot.inReset then m
  else match h.sb[i]? with
    | some e => match m.target (64 * e.line) with
      | .dev off => (if (h.sb.find? fun x => x.line == e.line) = some e then m.sbDevRetire a e off else m).henPoke a
      | _ => (m.sbOldest a e).henPoke a
    | none => match h.crossing[i - h.sb.length]? with
      | some x => (if (h.crossing.find? fun y => y.line == x.line) = some x then m.crossLand a x else m).henPoke a
      | none => m.henPoke a

/-- A pending imprecise exception is taken (R197). -/
def impreciseOp (m : Mach) (a : Nat) : Mach :=
  match (m.hen a).imp with
  | some x => if m.henLive a && m.henBreakable a && m.henOpen a then m.henTakeImprecise a x else m
  | none => m

/-- A pending enabled interrupt is taken, after any imprecise exception (R200, R243). -/
def interruptOp (m : Mach) (a : Nat) : Mach :=
  if m.henLive a && m.henBreakable a && m.henOpen a && (m.hen a).imp.isNone && m.henIrqs a ≠ 0 then m.henTakeIrq a else m

/-- CYCLE reaches TIMECMP by time `t`: TIMER is pending, which may end a WFI. [log 80 DESIGN CHOICE] -/
def timerOp (m : Mach) (a t : Nat) : Mach :=
  let n := m.advance t
  if (n.henPending a).getLsbD 0 then n.henWfi a else m

/-- A Hen has a work item and is not stalled: a self-test slice then is one that R201 forces. -/
def henBusy (m : Mach) (a : Nat) : Bool :=
  isFlockAgent a && FMap.get 0 (m.collie (flockOf a)).slots (agentUnit a) ≠ 0 && (m.hen a).wait == .none

/-- A self-test slice (R201). [log 75 DEDUCED] -/
def selftestOp (m : Mach) (a : Nat) (ok okAgain : Bool) : Mach :=
  if (m.hen a).state ≠ .running || m.boot.inReset || (isFlockAgent a && !m.flockOn (flockOf a)) then m
  else
    let m := if m.henBusy a then m.count (henReg a 0x14) true else m
    let m := m.modHen a fun h => { h with slice := h.slice + 1 }
    if ok then m
    else if okAgain then m.count (henReg a 0x14) false
    else (m.henStop a 3).henStopGo a

/-- The LR hold ends with time (R333). [log 78 DEDUCED] -/
def lrHoldEndOp (m : Mach) (a : Nat) : Mach := m.modHen a fun h => { h with hold := none }

end Mach

/-! ### The commands -/

/-- SB_RETIRE (R177): A store-buffer entry is accepted by its cache line, home, arbiter or port and retires. -/
def execSbRetire (h : HenId) (i : Nat) (s : State) : Host.Outcome State Fault Refusal :=
  s.act fun m => m.sbRetireOp h.agent i

/-- IMPRECISE_EXCEPTION (R197): A pending imprecise exception such as STORE_ADDR_ERROR or LOST_STORE is taken at an instruction boundary. -/
def execImpreciseException (h : HenId) (s : State) : Host.Outcome State Fault Refusal :=
  s.act fun m => m.impreciseOp h.agent

/-- INTERRUPT (R200): A pending enabled interrupt is taken at an instruction boundary, possibly restarting a load. -/
def execInterrupt (h : HenId) (s : State) : Host.Outcome State Fault Refusal :=
  s.act fun m => m.interruptOp h.agent

/-- TIMER (R200): CYCLE reaches TIMECMP and TIMER becomes pending. -/
def execTimer (h : HenId) (t : Nat) (s : State) : Host.Outcome State Fault Refusal :=
  s.act fun m => m.timerOp h.agent t

/-- SELFTEST_SLICE (R201): A Hen runs a self-test slice; a repeated failure fails the Hen. -/
def execSelftestSlice (h : HenId) (ok : Bool) (okAgain : Bool) (s : State) : Host.Outcome State Fault Refusal :=
  s.act fun m => m.selftestOp h.agent ok okAgain

/-- LR_HOLD_END (R333): An LR hold expires after 64 fclk and delayed snoops proceed. -/
def execLrHoldEnd (h : HenId) (s : State) : Host.Outcome State Fault Refusal :=
  s.act fun m => m.lrHoldEndOp h.agent

/-- HEN_RUN (R202): HEN_CTL.REQ = 0 returns a DISABLED Hen to RUNNING. -/
def execHenRun (h : HenId) (s : State) : Host.Outcome State Fault Refusal :=
  s.act fun m => m.regRow (henReg h.agent 0) fun m => m.henRunOp h.agent

/-- HEN_QUIESCE (R202): HEN_CTL.REQ = 1 completes the instruction, drains, returns items and disables the Hen. -/
def execHenQuiesce (h : HenId) (s : State) : Host.Outcome State Fault Refusal :=
  s.act fun m => m.regRow (henReg h.agent 0) fun m => m.henQuiesceOp h.agent

/-- HEN_FORCE_DISABLE (R202): HEN_CTL.REQ = 2 abandons the instruction, returns the item raised and disables the Hen. -/
def execHenForceDisable (h : HenId) (s : State) : Host.Outcome State Fault Refusal :=
  s.act fun m => m.regRow (henReg h.agent 0) fun m => m.henForceOp h.agent

/-- HEN_RESTART (R202): HEN_CTL.REQ = 3 cleans the caches, resets registers and restarts firmware. -/
def execHenRestart (h : HenId) (s : State) : Host.Outcome State Fault Refusal :=
  s.act fun m => m.regRow (henReg h.agent 0) fun m => m.henRestartOp h.agent

/-- IRQ (R200): Writing HEN_CTL.IRQ raises the MGMT interrupt. -/
def execIrq (h : HenId) (s : State) : Host.Outcome State Fault Refusal :=
  s.act fun m => m.regRow (henReg h.agent 0) fun m => m.henIrqOp h.agent

end Machine
end Sys2Proof
end

