-- ==== Sys2Proof/Machine/ExecHost.lean ====
section
/-!
DEFINITION. The commands of the host attachment (chapter 15): CXL.mem and CXL.cache, the peer window, the command rings, liveness, detach and
replay.
-/
namespace Sys2Proof
namespace Machine

/-! ### The commands -/

/-- HOST_MEM_REQUEST (R467): A host CXL.mem request is performed at the home slice. -/
def execHostMemRequest (op : HostMemOp) (pa : BitVec 56) (d : BitVec 512) (mask : BitVec 64) (poison : Bool) (s : State) : Host.Outcome State Fault Refusal :=
  s.act fun m => m.hostMemOp op pa.toNat d mask poison

/-- HOST_SNOOP (R503): A host CXL.cache snoop is answered by the system cache. -/
def execHostSnoop (op : HostSnoop) (pa : BitVec 56) (s : State) : Host.Outcome State Fault Refusal :=
  s.act fun m => m.hostSnoopOp op pa.toNat

/-- HOST_COMPLETION (R468): A completion for a device-initiated host-window access returns. -/
def execHostCompletion (k : Nat) (d : BitVec 512) (poison : Bool) (err : Bool) (s : State) : Host.Outcome State Fault Refusal :=
  s.act fun m => m.hostCompletionOp k d poison err

/-- PEER_READ (R471): A BAR4 read is served from the prefetch buffer or fetched with the following lines. -/
def execPeerRead (off : Nat) (s : State) : Host.Outcome State Fault Refusal :=
  s.act fun m => m.peerReadOp off

/-- PEER_WRITE (R471): A BAR4 write is performed at its point of coherence. -/
def execPeerWrite (off : Nat) (d : BitVec 512) (mask : BitVec 64) (s : State) : Host.Outcome State Fault Refusal :=
  s.act fun m => m.peerWriteOp off d mask

/-- WINDOW_FENCE (R472): A read of WINDOW_FENCE invalidates the peer prefetch buffer. -/
def execWindowFence (a : BitVec 13) (s : State) : Host.Outcome State Fault Refusal :=
  s.act fun m => m.windowFenceOp a.toNat

/-- UIO_REQUEST (R473): An inbound UIO request to an HDM range is performed as an uncached host request. [log 178 DEDUCED] -/
def execUioRequest (write : Bool) (pa : BitVec 56) (d : BitVec 512) (mask : BitVec 64) (s : State) : Host.Outcome State Fault Refusal :=
  s.act fun m => m.hostMemOp (if write then (if mask = fullMask then .wrLine else .wrPartial) else .rdCurr) pa.toNat d mask false

/-- RING_DOORBELL (R478): A write of RING_DB announces slots up to the given SEQ. -/
def execRingDoorbell (r : Fin 64) (w : BitVec 32) (s : State) : Host.Outcome State Fault Refusal :=
  s.act fun m => m.regRow (hostReg (0x1008 + 0x10 * r)) fun m => m.ringDoorbellOp r w

/-- RING_SLOT_READ (R476): A ring slot read returns and executes if its tag is valid or starts polling. -/
def execRingSlotRead (r : Fin 64) (s : State) : Host.Outcome State Fault Refusal :=
  s.act fun m => m.ringSlotReadOp r

/-- RING_POLL (R479): An early-doorbell slot is read again every 1 µs until valid or timed out. -/
def execRingPoll (r : Fin 64) (s : State) : Host.Outcome State Fault Refusal :=
  s.act fun m => m.ringPollOp r

/-- RING_NOP (R480): Ring command NOP completes at once. -/
def execRingNop (r : Fin 64) (s : State) : Host.Outcome State Fault Refusal :=
  s.act fun m => m.ringNopOp r

/-- RING_ITEM (R480): Ring command ITEM reads a work item and pushes it to a Collie. -/
def execRingItem (r : Fin 64) (s : State) : Host.Outcome State Fault Refusal :=
  s.act fun m => m.ringPushOp r 1

/-- RING_MULE (R480): Ring command MULE reads a descriptor and pushes it to a Mule. -/
def execRingMule (r : Fin 64) (s : State) : Host.Outcome State Fault Refusal :=
  s.act fun m => m.ringPushOp r 2

/-- RING_WRITE (R480): Ring command WRITE writes inline bytes within one line. -/
def execRingWrite (r : Fin 64) (s : State) : Host.Outcome State Fault Refusal :=
  s.act fun m => m.ringWriteOp r fun m off w => if Mach.devOk off 4 then some (m.regWrite portAgent off w) else none

/-- RING_SADD (R481): Ring command SADD adds to a sync object as a release from the C-die. -/
def execRingSadd (r : Fin 64) (s : State) : Host.Outcome State Fault Refusal :=
  s.act fun m => m.ringSaddOp r

/-- RING_SWAIT (R481): Ring command SWAIT waits for a sync count and acquires. -/
def execRingSwait (r : Fin 64) (s : State) : Host.Outcome State Fault Refusal :=
  s.act fun m => m.ringSwaitOp r

/-- RING_PUSH_RETRY (R480): A refused ring push is repeated every 1 µs. -/
def execRingPushRetry (r : Fin 64) (s : State) : Host.Outcome State Fault Refusal :=
  s.act fun m => m.ringPushRetryOp r

/-- CQ_RECORD_WRITE (R484): A completion record is written as a TAIL write once the CQ has room. -/
def execCqRecordWrite (r : Fin 64) (s : State) : Host.Outcome State Fault Refusal :=
  s.act fun m => m.cqRecordOp r

/-- CQ_HEAD_WRITE (R484): A write of CQ_HEAD frees CQ space for waiting records. -/
def execCqHeadWrite (r : Fin 64) (w : BitVec 32) (s : State) : Host.Outcome State Fault Refusal :=
  s.act fun m => m.regRow (hostReg (0x100C + 0x10 * r)) fun m => m.cqHeadOp r w

/-- RING_ENABLE (R497): Setting EN enables a ring and resets HEAD and CQ position. -/
def execRingEnable (r : Fin 64) (s : State) : Host.Outcome State Fault Refusal :=
  s.act fun m => m.regRow (hostReg (0x1000 + 0x10 * r)) fun m => m.ringEnableOp r

/-- RING_DISABLE (R497): Clearing EN lets started commands finish and stops the ring. -/
def execRingDisable (r : Fin 64) (s : State) : Host.Outcome State Fault Refusal :=
  s.act fun m => m.regRow (hostReg (0x1000 + 0x10 * r)) fun m => m.ringDisableOp r

/-- RING_RESUME (R482): RESUME ends a ring halt and continues after the failed command. -/
def execRingResume (r : Fin 64) (s : State) : Host.Outcome State Fault Refusal :=
  s.act fun m => m.regRow (hostReg (0x1000 + 0x10 * r)) fun m => m.ringResumeOp r

/-- BME_CLEAR (R488): Bus-master enable cleared stops device requests and halts the rings. -/
def execBmeClear (s : State) : Host.Outcome State Fault Refusal :=
  s.act fun m => m.bmeClearOp

/-- BME_SET (R488): Bus-master enable set writes held records to their queues. -/
def execBmeSet (s : State) : Host.Outcome State Fault Refusal :=
  s.act fun m => m.bmeSetOp

/-- HOST_PULSE (R489): A write of HOST_PULSE opens a new liveness window. -/
def execHostPulse (t : Nat) (w : BitVec 32) (s : State) : Host.Outcome State Fault Refusal :=
  s.act fun m => m.regRow (hostReg 8) fun m => m.hostPulseOp t w

/-- PULSE_TIMEOUT (R489): No host pulse for PULSE_MS detaches the module. -/
def execPulseTimeout (t : Nat) (s : State) : Host.Outcome State Fault Refusal :=
  s.act fun m => m.pulseTimeoutOp t

/-- LINK_LAYER_DOWN (R489): The CXL data link layer going down detaches the module. -/
def execLinkLayerDown (s : State) : Host.Outcome State Fault Refusal :=
  s.act fun m => m.linkLayerDownOp

/-- PERST (R489): PERST_N asserted detaches the module. -/
def execPerst (s : State) : Host.Outcome State Fault Refusal :=
  s.act fun m => m.perstOp

/-- DETACH (R491): HOST_CTL.DETACH writes back host lines and waits for outstanding requests. -/
def execDetach (s : State) : Host.Outcome State Fault Refusal :=
  s.act fun m => m.regRow (hostReg 0) fun m => m.detachOp

/-- DETACH_DONE (R491): An orderly detach finishes its drain and the module becomes DETACHED. -/
def execDetachDone (s : State) : Host.Outcome State Fault Refusal :=
  s.act fun m => m.detachDoneOp

/-- REPLAY_DONE (R495): Replay finishes and the module becomes ATTACHED with a new token. -/
def execReplayDone (s : State) : Host.Outcome State Fault Refusal :=
  s.act fun m => m.replayDoneOp

/-- FRESH (R496): FRESH attaches without replay, discarding held records and failing held requests. -/
def execFresh (s : State) : Host.Outcome State Fault Refusal :=
  s.act fun m => m.regRow (hostReg 0) fun m => m.freshOp

/-- CXL_LINK_UP (R495): The CXL link trains and reaches L0 after PERST_N is released or the link recovers, setting LINK_UP. -/
def execCxlLinkUp (width : Fin 3) (rate : Bool) (s : State) : Host.Outcome State Fault Refusal :=
  s.act fun m => m.cxlLinkUpOp width rate

end Machine
end Sys2Proof
end

