-- ==== Sys2Proof/Machine/ExecLink.lean ====
section
/-!
DEFINITION. The commands of the Kerly links and the herd (chapter 14).
-/
namespace Sys2Proof
namespace Machine
namespace Mach

/-- HERD_CTL.ATTACH, or an answer that gives the module its number (R447). -/
def attachRow (m : Mach) (granted : Option (BitVec 9)) : Mach := m.regRow (herdReg 0x400) fun m => m.attachOp granted

end Mach

/-! ### The commands -/

/-- FLIT_IDLE (R436): An IDLE flit returns credits. -/
def execFlitIdle (l : LinkId) (h : FlitHdr) (s : State) : Host.Outcome State Fault Refusal :=
  s.act fun m => m.flitIdleOp l.key h

/-- FLIT_MSG (R437): A MSG flit is accepted in sequence and its messages delivered, or discarded with a NAK. -/
def execFlitMsg (l : LinkId) (h : FlitHdr) (u : FlitMsgs) (s : State) : Host.Outcome State Fault Refusal :=
  s.act fun m => m.flitMsgOp l.key h u

/-- FLIT_NAK (R437): A NAK makes the sender replay from the flit after ACK. -/
def execFlitNak (l : LinkId) (h : FlitHdr) (s : State) : Host.Outcome State Fault Refusal :=
  s.act fun m => m.flitNakOp l.key h

/-- FLIT_DISC (R444): A DISC flit gives the peer's identity, die, revision, features and version. -/
def execFlitDisc (l : LinkId) (h : FlitHdr) (p : BitVec 152) (s : State) : Host.Outcome State Fault Refusal :=
  s.act fun m => m.flitDiscOp l.key h (discOf p)

/-- FLIT_TOPO (R450): A newer TOPO record updates the topology table and is forwarded. -/
def execFlitTopo (l : LinkId) (h : FlitHdr) (r : TopoRec) (s : State) : Host.Outcome State Fault Refusal :=
  s.act fun m => m.flitTopoOp l.key h r

/-- FLIT_FAIL (R442): A FAIL flit from an A-die declares that die dead. -/
def execFlitFail (l : LinkId) (h : FlitHdr) (s : State) : Host.Outcome State Fault Refusal :=
  s.act fun m => m.flitFailOp l.key h

/-- IDLE_SEND (R436): A link end with nothing to send sends an IDLE flit once per µs. -/
def execIdleSend (l : LinkId) (s : State) : Host.Outcome State Fault Refusal :=
  s.act fun m => m.idleSendOp l.key

/-- LANE_LOCK_LOSS (R438): A lane losing lock puts its link into TRAINING. -/
def execLaneLockLoss (l : LinkId) (lane : Fin 34) (s : State) : Host.Outcome State Fault Refusal :=
  s.act fun m => m.laneLockLossOp l.key lane

/-- LINK_SILENCE (R438): No good flit for 100 µs puts the link into TRAINING. -/
def execLinkSilence (l : LinkId) (s : State) : Host.Outcome State Fault Refusal :=
  s.act fun m => m.linkSilenceOp l.key

/-- TRAINING_DONE (R439): A training attempt ends, sparing lanes or narrowing width, and sending resumes. -/
def execTrainingDone (l : LinkId) (failed : BitVec 34) (s : State) : Host.Outcome State Fault Refusal :=
  s.act fun m => m.trainingDoneOp l.key failed

/-- TRAIN_TIMEOUT (R440): A link not up 300 µs after entering TRAINING goes DOWN. -/
def execTrainTimeout (l : LinkId) (s : State) : Host.Outcome State Fault Refusal :=
  s.act fun m => m.trainTimeoutOp l.key

/-- HERD_RETRY (R440): A DOWN herd port retries training every second. -/
def execHerdRetry (p : Fin 16) (s : State) : Host.Outcome State Fault Refusal :=
  s.act fun m => m.herdRetryOp p

/-- CABLE_PRESENT (R589): CBL_PRES_N changes, enabling or stopping training of a herd port. -/
def execCablePresent (p : Fin 16) (present : Bool) (s : State) : Host.Outcome State Fault Refusal :=
  s.act fun m => m.cablePresentOp p present

/-- LINK_RETRAIN (R438): LINK_CTL.RETRAIN starts training of the link. -/
def execLinkRetrain (l : LinkId) (s : State) : Host.Outcome State Fault Refusal :=
  s.act fun m => m.regRow (linkReg l.key 0) fun m => m.linkRetrainOp l.key

/-- HOLD_DOWN (R440): LINK_CTL.HOLD_DOWN holds the link DOWN or releases it. -/
def execHoldDown (l : LinkId) (hold : Bool) (s : State) : Host.Outcome State Fault Refusal :=
  s.act fun m => m.regRow (linkReg l.key 0) fun m => m.holdDownOp l.key hold

/-- TOPO_TIMER (R450): Every 100 ms a module floods its TOPO record. -/
def execTopoTimer (s : State) : Host.Outcome State Fault Refusal :=
  s.act fun m => m.topoTimerOp

/-- ROUTE_COMPUTE (R451): A module recomputes routes after a topology change, possibly declaring modules dead or a new Bellwether. -/
def execRouteCompute (s : State) : Host.Outcome State Fault Refusal :=
  s.act fun m => m.routeComputeOp

/-- HERD_REQUEST (R454): The herd ingress issues an arriving request in number order or resends a kept result. -/
def execHerdRequest (k : Nat) (s : State) : Host.Outcome State Fault Refusal :=
  s.act fun m => m.herdRequestOp k

/-- HERD_RESPONSE (R453): An answer or receipt for a herd request reaches its source. -/
def execHerdResponse (k : Nat) (s : State) : Host.Outcome State Fault Refusal :=
  s.act fun m => m.herdResponseOp k

/-- HERD_RESEND (R455): After 1 ms unanswered, the source resends every unanswered request to the destination. -/
def execHerdResend (u : BitVec 9) (s : State) : Host.Outcome State Fault Refusal :=
  s.act fun m => m.herdResendOp u.toNat

/-- ATTACH (R447): HERD_CTL.ATTACH starts attach, where the Bellwether gives the module a number. -/
def execAttach (granted : Option (BitVec 9)) (s : State) : Host.Outcome State Fault Refusal :=
  s.act fun m => m.attachRow granted

/-- MCAST_RECEIVE (R461): Multicast data reaching a module is forwarded on the tree and written if the module is a member. -/
def execMcastReceive (p : Fin 16) (src : BitVec 9) (dst : BitVec 46) (group : Fin 16) (d : BitVec 512) (s : State) : Host.Outcome State Fault Refusal :=
  s.act fun m => m.mcastReceiveOp p src dst.toNat group d false

/-- MCAST_SEND_DONE (R460): The data of a multicast send has left on every tree port and MCAST_BUSY clears. -/
def execMcastSendDone (s : State) : Host.Outcome State Fault Refusal :=
  s.act fun m => m.mcastSendDoneOp

end Machine
end Sys2Proof
end

