-- ==== Sys2Proof/Machine/ExecMule.lean ====
section
/-!
DEFINITION. The commands of the Mules (chapter 9).
-/
namespace Sys2Proof
namespace Machine

/-! ### The commands -/

/-- MULE_DESC_START (R286): A Mule starts the oldest waiting descriptor of a queue and checks it. -/
def execMuleDescStart (u : MuleId) (s : State) : Host.Outcome State Fault Refusal :=
  s.act fun m => m.muleStart u.agent

/-- COPY (R291): Mule COPY moves each source byte of the shape to its destination. -/
def execMuleCopy (u : MuleId) (k : Nat) (n : Nat) (s : State) : Host.Outcome State Fault Refusal :=
  s.act fun m => m.muleMove u.agent k n 1

/-- TRANSPOSE (R291): Mule TRANSPOSE writes source rows as destination columns. -/
def execMuleTranspose (u : MuleId) (k : Nat) (n : Nat) (s : State) : Host.Outcome State Fault Refusal :=
  s.act fun m => m.muleMove u.agent k n 2

/-- GATHER (R293): Mule GATHER copies indexed table entries to a dense destination. -/
def execMuleGather (u : MuleId) (k : Nat) (n : Nat) (s : State) : Host.Outcome State Fault Refusal :=
  s.act fun m => m.muleMove u.agent k n 3

/-- SCATTER (R293): Mule SCATTER copies dense elements to indexed table entries. -/
def execMuleScatter (u : MuleId) (k : Nat) (n : Nat) (s : State) : Host.Outcome State Fault Refusal :=
  s.act fun m => m.muleMove u.agent k n 4

/-- FILL (R291): Mule FILL writes PATTERN over the destination shape. -/
def execMuleFill (u : MuleId) (k : Nat) (n : Nat) (s : State) : Host.Outcome State Fault Refusal :=
  s.act fun m => m.muleMove u.agent k n 5

/-- REDUCE (R292): Mule REDUCE combines source elements into destination lines at the home slice. -/
def execMuleReduce (u : MuleId) (k : Nat) (n : Nat) (s : State) : Host.Outcome State Fault Refusal :=
  s.act fun m => m.muleMove u.agent k n 6

/-- MULE_DESC_COMPLETE (R302): A descriptor whose reads and writes are done completes and releases DONE_OBJ. -/
def execMuleDescComplete (u : MuleId) (k : Nat) (s : State) : Host.Outcome State Fault Refusal :=
  s.act fun m => m.muleComplete u.agent k

/-- MULE_DESC_ERROR (R304): A descriptor ending with an error writes its record after issued accesses finish and may halt queue 0. -/
def execMuleDescError (u : MuleId) (k : Nat) (s : State) : Host.Outcome State Fault Refusal :=
  s.act fun m => m.muleErrorEnd u.agent k

/-- MULE_RUN (R307): MULE_CTL.REQ = 0 returns the Mule to RUNNING. -/
def execMuleRun (u : MuleId) (s : State) : Host.Outcome State Fault Refusal :=
  s.act fun m => m.regRow (muleReg u.agent 0) fun m => m.muleRunOp u.agent

/-- MULE_QUIESCE (R307): MULE_CTL.REQ = 1 stops starts and lets active descriptors finish. -/
def execMuleQuiesce (u : MuleId) (s : State) : Host.Outcome State Fault Refusal :=
  s.act fun m => m.regRow (muleReg u.agent 0) fun m => m.muleQuiesceOp u.agent

/-- MULE_ABORT (R307): MULE_CTL.REQ = 2 ends every active descriptor with ABORTED. -/
def execMuleAbort (u : MuleId) (s : State) : Host.Outcome State Fault Refusal :=
  s.act fun m => m.regRow (muleReg u.agent 0) fun m => m.muleAbortOp u.agent

/-- MULE_QUIESCE_DONE (R307): A Mule with no active descriptor enters QUIESCED. -/
def execMuleQuiesceDone (u : MuleId) (s : State) : Host.Outcome State Fault Refusal :=
  s.act fun m => m.muleSettle u.agent

/-- RESUME0 (R306): RESUME0 clears a queue-0 halt and lets waiting descriptors complete. -/
def execResume0 (u : MuleId) (s : State) : Host.Outcome State Fault Refusal :=
  s.act fun m => m.regRow (muleReg u.agent 0) fun m => m.muleResume0Op u.agent

/-- MULE_FLUSH (R307): FLUSH discards the queued descriptors of selected queues of a QUIESCED Mule. -/
def execMuleFlush (u : MuleId) (qmask : BitVec 4) (s : State) : Host.Outcome State Fault Refusal :=
  s.act fun m => m.regRow (muleReg u.agent 0) fun m => m.muleFlushOp u.agent qmask

end Machine
end Sys2Proof
end

