-- ==== Sys2Proof/Machine/ExecOx.lean ====
section
/-!
DEFINITION. The commands of the Ox (chapters 3 to 5): its instructions, their completions, ramps, quiesce, disable and diagnosis.
-/
namespace Sys2Proof
namespace Machine
namespace Mach

/-- A refused item goes back (R158), and the Collie gives the engine its next one. -/
def oxRefusedRow (m : Mach) (a : Nat) : Mach := (m.oxRefusedReturnOp a).collieAdvance (flockOf a) (agentUnit a)

end Mach

/-! ### The commands -/

/-- OX_PROG_FETCH (R140): A fetched 64 B line of Ox program enters the Ox's instruction queue. -/
def execOxProgFetch (o : OxId) (s : State) : Host.Outcome State Fault Refusal :=
  s.act fun m => m.oxFetchOp o.agent

/-- OX_NOP (R160): Ox NOP issues and does nothing. -/
def execOxNop (o : OxId) (s : State) : Host.Outcome State Fault Refusal :=
  s.act fun m => m.oxNopOp o.agent 1

/-- END (R157): END issues after every earlier instruction completes and the Ox item completes. -/
def execOxEnd (o : OxId) (s : State) : Host.Outcome State Fault Refusal :=
  s.act fun m => m.oxItemEnd o.agent

/-- LDW (R144): LDW issues and loads a weight tile, its scales and check weights into the back set. -/
def execOxLdw (o : OxId) (s : State) : Host.Outcome State Fault Refusal :=
  s.act fun m => m.oxFlyOp o.agent 4

/-- LDW_DONE (R144): The back weight set becomes valid after the LDW's last turn. -/
def execOxLdwDone (o : OxLines) (s : State) : Host.Outcome State Fault Refusal :=
  s.act fun m => m.oxLdwDoneOp o.ox.agent o.part

/-- LDS (R145): LDS issues and writes activation scales into scale-store rows. -/
def execOxLds (o : OxId) (s : State) : Host.Outcome State Fault Refusal :=
  s.act fun m => m.oxFlyOp o.agent 5

/-- LDS_DONE (R145): The scale-store rows written by an LDS become valid. -/
def execOxLdsDone (o : OxLines) (s : State) : Host.Outcome State Fault Refusal :=
  s.act fun m => m.oxLdsDoneOp o.ox.agent o.part

/-- SWP (R107): SWP issues and sends a wavefront exchanging front and back weight sets. -/
def execOxSwp (o : OxId) (s : State) : Host.Outcome State Fault Refusal :=
  s.act fun m => m.oxSwpOp o.agent

/-- SWP_DONE (R107): An SWP wavefront completes 34 fclk after it enters. -/
def execOxSwpDone (o : OxId) (s : State) : Host.Outcome State Fault Refusal :=
  s.act fun m => m.oxSwpDoneOp o.agent

/-- MMA (R146): MMA issues with a fixed duration and streams activations through the arrays. -/
def execOxMma (o : OxId) (s : State) : Host.Outcome State Fault Refusal :=
  s.act fun m => m.oxMmaOp o.agent

/-- OX_REFUSED_RETURN (R158): After issued instructions complete, a refused item is returned failed and the Ox enters IDLE. -/
def execOxRefusedReturn (o : OxId) (s : State) : Host.Outcome State Fault Refusal :=
  s.act fun m => m.oxRefusedRow o.agent

/-- MMA_PASS (R130): One pass of an MMA is checked against the check column and committed, or retried on a mismatch. -/
def execOxMmaPass (o : OxId) (errs : List OxError) (s : State) : Host.Outcome State Fault Refusal :=
  s.act fun m => m.oxPassOp o.agent errs

/-- DIAGNOSIS_DONE (R132): Ox diagnosis ends, remapping faulty cells to spares and returning to IDLE, or entering FAILED. -/
def execOxDiagnosisDone (o : OxId) (finds : OxFinds) (s : State) : Host.Outcome State Fault Refusal :=
  s.act fun m => m.oxDiagnosisDoneOp o.agent finds.faults finds.again

/-- ZAC (R153): ZAC issues and zeroes accumulator pairs, clearing poison. -/
def execOxZac (o : OxId) (s : State) : Host.Outcome State Fault Refusal :=
  s.act fun m => m.oxFlyOp o.agent 9

/-- ZAC_DONE (R153): The rows zeroed by ZAC are zero. -/
def execOxZacDone (o : OxId) (s : State) : Host.Outcome State Fault Refusal :=
  s.act fun m => m.oxZacDoneOp o.agent

/-- DRN (R150): DRN issues and converts accumulator rows to flock memory in the named format. -/
def execOxDrn (o : OxId) (s : State) : Host.Outcome State Fault Refusal :=
  s.act fun m => m.oxDrnOp o.agent

/-- DRN_DONE (R150): A DRN has written all its lines. -/
def execOxDrnDone (o : OxLines) (s : State) : Host.Outcome State Fault Refusal :=
  s.act fun m => m.oxDrnDoneOp o.ox.agent o.part

/-- DSET (R154): DSET writes a drain parameter set. -/
def execOxDset (o : OxId) (s : State) : Host.Outcome State Fault Refusal :=
  s.act fun m => m.oxDsetOp o.agent

/-- SWT (R155): SWT issues once its sync object reaches the threshold, as an acquire. -/
def execOxSwt (o : OxId) (s : State) : Host.Outcome State Fault Refusal :=
  s.act fun m => m.oxSwtOp o.agent

/-- SREL (R156): SREL adds to a sync object as a release after earlier flock-memory accesses complete. -/
def execOxSrel (o : OxId) (s : State) : Host.Outcome State Fault Refusal :=
  s.act fun m => m.oxSrelOp o.agent

/-- FENCE (R157): Ox FENCE issues once every earlier instruction has completed. -/
def execOxFence (o : OxId) (s : State) : Host.Outcome State Fault Refusal :=
  s.act fun m => m.oxNopOp o.agent 0x12

/-- RAMP_UP_DONE (R124): An Ox activity ramp-up ends and the first pass of the MMA follows. -/
def execOxRampUpDone (o : OxId) (s : State) : Host.Outcome State Fault Refusal :=
  s.act fun m => m.oxRampUpDoneOp o.agent

/-- RAMP_DOWN_DONE (R125): An Ox ramp-down ends and the arrays fall idle. -/
def execOxRampDownDone (o : OxId) (s : State) : Host.Outcome State Fault Refusal :=
  s.act fun m => m.oxRampDownDoneOp o.agent

/-- OX_RUN (R137): OX_CTL.REQ = 0 returns a DISABLED Ox to IDLE. -/
def execOxRun (o : OxId) (s : State) : Host.Outcome State Fault Refusal :=
  s.act fun m => m.regRow (oxReg o.agent 0) fun m => m.oxRunOp o.agent

/-- OX_QUIESCE (R135): OX_CTL.REQ = 1 stops issue and lets issued instructions complete. -/
def execOxQuiesce (o : OxId) (s : State) : Host.Outcome State Fault Refusal :=
  s.act fun m => m.regRow (oxReg o.agent 0) fun m => m.oxQuiesceOp o.agent

/-- OX_QUIESCE_DONE (R135): A quiescing Ox returns its items and enters DISABLED. -/
def execOxQuiesceDone (o : OxId) (s : State) : Host.Outcome State Fault Refusal :=
  s.act fun m => m.oxQuiesceDoneOp o.agent

/-- OX_FORCE_DISABLE (R136): OX_CTL.REQ = 2 discards incomplete instructions and returns items raised. -/
def execOxForceDisable (o : OxId) (s : State) : Host.Outcome State Fault Refusal :=
  s.act fun m => m.regRow (oxReg o.agent 0) fun m => m.oxForceOp o.agent

/-- OX_DISABLE_DONE (R136): A force-disabled Ox enters DISABLED after any allowed DRN completes. -/
def execOxDisableDone (o : OxId) (s : State) : Host.Outcome State Fault Refusal :=
  s.act fun m => m.oxDisableDoneOp o.agent

/-- DIAG (R132): Setting DIAG on a DISABLED Ox starts diagnosis. -/
def execOxDiag (o : OxId) (s : State) : Host.Outcome State Fault Refusal :=
  s.act fun m => m.regRow (oxReg o.agent 0) fun m => m.oxDiagOp o.agent

end Machine
end Sys2Proof
end

