-- ==== Sys2Proof/Machine/HenInt.lean ====
section
/-!
DEFINITION. The Hen's integer instructions, branches and jumps (R208 to R213): the shared forms, and the meaning of each instruction's
command. `w` is the instruction word that the fetch returned.
-/
namespace Sys2Proof
namespace Machine
namespace Mach

/-- OP (R208): func[9:6] is reserved, W only where Table 7-3 allows it, and rs2 is 0 in the counts. -/
def opLegal (w : BitVec 32) (o : HenAlu.IntOp) : Bool :=
  HenAlu.fld w 6 4 == 0 && (HenAlu.fld w 10 1 == 0 || o.hasW) && (!(o == .clz || o == .ctz || o == .popc) || HenAlu.fC w == 0)

/-- An OP instruction. -/
def henOp (m : Mach) (a : Nat) (w : BitVec 32) (o : HenAlu.IntOp) : Mach :=
  if !opLegal w o then m.henIllegal a w
  else (m.setG a (HenAlu.fA w) (HenAlu.intOp o (HenAlu.fld w 10 1 == 1) (m.g a (HenAlu.fB w)) (m.g a (HenAlu.fC w)))).henNext a

/-- An immediate form (R210). -/
def henImm (m : Mach) (a : Nat) (w : BitVec 32) (o : HenAlu.IntOp) (imm : BitVec 64) : Mach :=
  (m.setG a (HenAlu.fA w) (HenAlu.int64 o (m.g a (HenAlu.fB w)) imm)).henNext a

/-- The operation of SHI by imm16[7:6]. -/
def shiOp (k : Nat) : HenAlu.IntOp := match k with | 0 => .sll | 1 => .srl | 2 => .sra | _ => .ror

/-- SHI (R210). -/
def henShift (m : Mach) (a : Nat) (w : BitVec 32) : Mach :=
  let w32 := HenAlu.fld w 8 1 == 1
  if HenAlu.fld w 9 7 ≠ 0 || (w32 && HenAlu.fld w 5 1 == 1) then m.henIllegal a w
  else
    let n : BitVec 64 := BitVec.ofNat 64 (HenAlu.fld w 0 6)
    (m.setG a (HenAlu.fA w) (HenAlu.intOp (shiOp (HenAlu.fld w 6 2)) w32 (m.g a (HenAlu.fB w)) n)).henNext a

/-- IMZ and IMK (R211): the half-word HW takes imm16, the other bits zero or kept. -/
def henHalf (m : Mach) (a : Nat) (w : BitVec 32) (keep : Bool) : Mach :=
  if HenAlu.fld w 16 3 ≠ 0 then m.henIllegal a w
  else
    let k := 16 * HenAlu.fld w 19 2
    let old := if keep then m.g a (HenAlu.fA w) &&& ~~~(0xFFFF#64 <<< k) else 0
    (m.setG a (HenAlu.fA w) (old ||| (HenAlu.imm16z w <<< k))).henNext a

/-- A control transfer completes: the Hen continues at `pc`, modulo 2^56 (R213). -/
def henGoto (m : Mach) (a : Nat) (pc : BitVec 56) : Mach :=
  m.modHen a fun h => { h with pc := pc, instret := h.instret + 1, wait := .none, stallDeep := false }

/-- PC + an offset, modulo 2^56. -/
def pcPlus (m : Mach) (a : Nat) (off : Int) : BitVec 56 := (m.hen a).pc + BitVec.ofInt 56 off

/-- A conditional branch (R212). -/
def henBranch (m : Mach) (a : Nat) (w : BitVec 32) (c : HenAlu.Cond) : Mach :=
  if c.holds (m.g a (HenAlu.fA w)) (m.g a (HenAlu.fB w)) then m.henGoto a (m.pcPlus a (HenAlu.off16 w)) else m.henNext a

/-- J and JAL (R212): JAL writes PC + 4 to g31. -/
def henJump (m : Mach) (a : Nat) (w : BitVec 32) (link : Bool) : Mach :=
  let pc := m.pcPlus a (HenAlu.off26 w)
  let ret := (m.pcPlus a 4).setWidth 64
  (if link then m.setG a 31 ret else m).henGoto a pc

/-- JALR (R212, R213). -/
def henJumpReg (m : Mach) (a : Nat) (w : BitVec 32) : Mach :=
  let t := (m.g a (HenAlu.fB w) + HenAlu.imm16s w) &&& ~~~3#64
  if 2 ^ 56 ≤ t.toNat then m.henRaise a 3 t.toNat
  else
    let ret := (m.pcPlus a 4).setWidth 64
    (m.setG a (HenAlu.fA w) ret).henGoto a (t.setWidth 56)

end Mach

/-! ### The commands -/

/-- ADD (R208): Hen integer add. -/
def execHenAdd (h : HenId) (w : BitVec 32) (s : State) : Host.Outcome State Fault Refusal :=
  s.act fun m => m.henStep h.agent w (0x01 * 64 + 0) fun m => m.henOp h.agent w .add

/-- SUB (R208): Hen integer subtract. -/
def execHenSub (h : HenId) (w : BitVec 32) (s : State) : Host.Outcome State Fault Refusal :=
  s.act fun m => m.henStep h.agent w (0x01 * 64 + 1) fun m => m.henOp h.agent w .sub

/-- AND (R208): Hen bitwise AND. -/
def execHenAnd (h : HenId) (w : BitVec 32) (s : State) : Host.Outcome State Fault Refusal :=
  s.act fun m => m.henStep h.agent w (0x01 * 64 + 2) fun m => m.henOp h.agent w .and

/-- OR (R208): Hen bitwise OR. -/
def execHenOr (h : HenId) (w : BitVec 32) (s : State) : Host.Outcome State Fault Refusal :=
  s.act fun m => m.henStep h.agent w (0x01 * 64 + 3) fun m => m.henOp h.agent w .or

/-- XOR (R208): Hen bitwise XOR. -/
def execHenXor (h : HenId) (w : BitVec 32) (s : State) : Host.Outcome State Fault Refusal :=
  s.act fun m => m.henStep h.agent w (0x01 * 64 + 4) fun m => m.henOp h.agent w .xor

/-- ANDN (R208): Hen AND with complement. -/
def execHenAndn (h : HenId) (w : BitVec 32) (s : State) : Host.Outcome State Fault Refusal :=
  s.act fun m => m.henStep h.agent w (0x01 * 64 + 5) fun m => m.henOp h.agent w .andn

/-- SLL (R208): Hen shift left. -/
def execHenSll (h : HenId) (w : BitVec 32) (s : State) : Host.Outcome State Fault Refusal :=
  s.act fun m => m.henStep h.agent w (0x01 * 64 + 6) fun m => m.henOp h.agent w .sll

/-- SRL (R208): Hen logical shift right. -/
def execHenSrl (h : HenId) (w : BitVec 32) (s : State) : Host.Outcome State Fault Refusal :=
  s.act fun m => m.henStep h.agent w (0x01 * 64 + 7) fun m => m.henOp h.agent w .srl

/-- SRA (R208): Hen arithmetic shift right. -/
def execHenSra (h : HenId) (w : BitVec 32) (s : State) : Host.Outcome State Fault Refusal :=
  s.act fun m => m.henStep h.agent w (0x01 * 64 + 8) fun m => m.henOp h.agent w .sra

/-- ROR (R208): Hen rotate right. -/
def execHenRor (h : HenId) (w : BitVec 32) (s : State) : Host.Outcome State Fault Refusal :=
  s.act fun m => m.henStep h.agent w (0x01 * 64 + 9) fun m => m.henOp h.agent w .ror

/-- SLT (R208): Hen signed set-less-than. -/
def execHenSlt (h : HenId) (w : BitVec 32) (s : State) : Host.Outcome State Fault Refusal :=
  s.act fun m => m.henStep h.agent w (0x01 * 64 + 10) fun m => m.henOp h.agent w .slt

/-- SLTU (R208): Hen unsigned set-less-than. -/
def execHenSltu (h : HenId) (w : BitVec 32) (s : State) : Host.Outcome State Fault Refusal :=
  s.act fun m => m.henStep h.agent w (0x01 * 64 + 11) fun m => m.henOp h.agent w .sltu

/-- MIN (R208): Hen signed minimum. -/
def execHenMin (h : HenId) (w : BitVec 32) (s : State) : Host.Outcome State Fault Refusal :=
  s.act fun m => m.henStep h.agent w (0x01 * 64 + 12) fun m => m.henOp h.agent w .min

/-- MAX (R208): Hen signed maximum. -/
def execHenMax (h : HenId) (w : BitVec 32) (s : State) : Host.Outcome State Fault Refusal :=
  s.act fun m => m.henStep h.agent w (0x01 * 64 + 13) fun m => m.henOp h.agent w .max

/-- MINU (R208): Hen unsigned minimum. -/
def execHenMinu (h : HenId) (w : BitVec 32) (s : State) : Host.Outcome State Fault Refusal :=
  s.act fun m => m.henStep h.agent w (0x01 * 64 + 14) fun m => m.henOp h.agent w .minu

/-- MAXU (R208): Hen unsigned maximum. -/
def execHenMaxu (h : HenId) (w : BitVec 32) (s : State) : Host.Outcome State Fault Refusal :=
  s.act fun m => m.henStep h.agent w (0x01 * 64 + 15) fun m => m.henOp h.agent w .maxu

/-- MUL (R208): Hen multiply, low 64 bits. -/
def execHenMul (h : HenId) (w : BitVec 32) (s : State) : Host.Outcome State Fault Refusal :=
  s.act fun m => m.henStep h.agent w (0x01 * 64 + 16) fun m => m.henOp h.agent w .mul

/-- MULH (R208): Hen signed multiply, high 64 bits. -/
def execHenMulh (h : HenId) (w : BitVec 32) (s : State) : Host.Outcome State Fault Refusal :=
  s.act fun m => m.henStep h.agent w (0x01 * 64 + 17) fun m => m.henOp h.agent w .mulh

/-- MULHU (R208): Hen unsigned multiply, high 64 bits. -/
def execHenMulhu (h : HenId) (w : BitVec 32) (s : State) : Host.Outcome State Fault Refusal :=
  s.act fun m => m.henStep h.agent w (0x01 * 64 + 18) fun m => m.henOp h.agent w .mulhu

/-- MULHSU (R208): Hen signed by unsigned multiply, high 64 bits. -/
def execHenMulhsu (h : HenId) (w : BitVec 32) (s : State) : Host.Outcome State Fault Refusal :=
  s.act fun m => m.henStep h.agent w (0x01 * 64 + 19) fun m => m.henOp h.agent w .mulhsu

/-- DIV (R209): Hen signed divide with defined division-by-zero and overflow results. -/
def execHenDiv (h : HenId) (w : BitVec 32) (s : State) : Host.Outcome State Fault Refusal :=
  s.act fun m => m.henStep h.agent w (0x01 * 64 + 20) fun m => m.henOp h.agent w .div

/-- DIVU (R209): Hen unsigned divide. -/
def execHenDivu (h : HenId) (w : BitVec 32) (s : State) : Host.Outcome State Fault Refusal :=
  s.act fun m => m.henStep h.agent w (0x01 * 64 + 21) fun m => m.henOp h.agent w .divu

/-- REM (R209): Hen signed remainder. -/
def execHenRem (h : HenId) (w : BitVec 32) (s : State) : Host.Outcome State Fault Refusal :=
  s.act fun m => m.henStep h.agent w (0x01 * 64 + 22) fun m => m.henOp h.agent w .rem

/-- REMU (R209): Hen unsigned remainder. -/
def execHenRemu (h : HenId) (w : BitVec 32) (s : State) : Host.Outcome State Fault Refusal :=
  s.act fun m => m.henStep h.agent w (0x01 * 64 + 23) fun m => m.henOp h.agent w .remu

/-- CLZ (R208): Hen count of leading zeros. -/
def execHenClz (h : HenId) (w : BitVec 32) (s : State) : Host.Outcome State Fault Refusal :=
  s.act fun m => m.henStep h.agent w (0x01 * 64 + 24) fun m => m.henOp h.agent w .clz

/-- CTZ (R208): Hen count of trailing zeros. -/
def execHenCtz (h : HenId) (w : BitVec 32) (s : State) : Host.Outcome State Fault Refusal :=
  s.act fun m => m.henStep h.agent w (0x01 * 64 + 25) fun m => m.henOp h.agent w .ctz

/-- POPC (R208): Hen count of set bits. -/
def execHenPopc (h : HenId) (w : BitVec 32) (s : State) : Host.Outcome State Fault Refusal :=
  s.act fun m => m.henStep h.agent w (0x01 * 64 + 26) fun m => m.henOp h.agent w .popc

/-- ADDI (R210): Hen add immediate. -/
def execHenAddi (h : HenId) (w : BitVec 32) (s : State) : Host.Outcome State Fault Refusal :=
  s.act fun m => m.henStep h.agent w (0x02 * 64 + 0) fun m => m.henImm h.agent w .add (HenAlu.imm16s w)

/-- ANDI (R210): Hen AND with zero-extended immediate. -/
def execHenAndi (h : HenId) (w : BitVec 32) (s : State) : Host.Outcome State Fault Refusal :=
  s.act fun m => m.henStep h.agent w (0x03 * 64 + 0) fun m => m.henImm h.agent w .and (HenAlu.imm16z w)

/-- ORI (R210): Hen OR with zero-extended immediate. -/
def execHenOri (h : HenId) (w : BitVec 32) (s : State) : Host.Outcome State Fault Refusal :=
  s.act fun m => m.henStep h.agent w (0x04 * 64 + 0) fun m => m.henImm h.agent w .or (HenAlu.imm16z w)

/-- XORI (R210): Hen XOR with zero-extended immediate. -/
def execHenXori (h : HenId) (w : BitVec 32) (s : State) : Host.Outcome State Fault Refusal :=
  s.act fun m => m.henStep h.agent w (0x05 * 64 + 0) fun m => m.henImm h.agent w .xor (HenAlu.imm16z w)

/-- SLTI (R210): Hen signed set-less-than immediate. -/
def execHenSlti (h : HenId) (w : BitVec 32) (s : State) : Host.Outcome State Fault Refusal :=
  s.act fun m => m.henStep h.agent w (0x06 * 64 + 0) fun m => m.henImm h.agent w .slt (HenAlu.imm16s w)

/-- SLTIU (R210): Hen unsigned set-less-than immediate. -/
def execHenSltiu (h : HenId) (w : BitVec 32) (s : State) : Host.Outcome State Fault Refusal :=
  s.act fun m => m.henStep h.agent w (0x07 * 64 + 0) fun m => m.henImm h.agent w .sltu (HenAlu.imm16s w)

/-- SHI (R210): Hen shift or rotate by immediate. -/
def execHenShi (h : HenId) (w : BitVec 32) (s : State) : Host.Outcome State Fault Refusal :=
  s.act fun m => m.henStep h.agent w (0x0A * 64 + 0) fun m => m.henShift h.agent w

/-- IMZ (R211): Hen writes an immediate half-word into a zeroed register. -/
def execHenImz (h : HenId) (w : BitVec 32) (s : State) : Host.Outcome State Fault Refusal :=
  s.act fun m => m.henStep h.agent w (0x08 * 64 + 0) fun m => m.henHalf h.agent w false

/-- IMK (R211): Hen writes an immediate half-word keeping the other bits. -/
def execHenImk (h : HenId) (w : BitVec 32) (s : State) : Host.Outcome State Fault Refusal :=
  s.act fun m => m.henStep h.agent w (0x09 * 64 + 0) fun m => m.henHalf h.agent w true

/-- BEQ (R212): Hen branch if equal. -/
def execHenBeq (h : HenId) (w : BitVec 32) (s : State) : Host.Outcome State Fault Refusal :=
  s.act fun m => m.henStep h.agent w (0x28 * 64 + 0) fun m => m.henBranch h.agent w .eq

/-- BNE (R212): Hen branch if not equal. -/
def execHenBne (h : HenId) (w : BitVec 32) (s : State) : Host.Outcome State Fault Refusal :=
  s.act fun m => m.henStep h.agent w (0x29 * 64 + 0) fun m => m.henBranch h.agent w .ne

/-- BLT (R212): Hen branch if signed less. -/
def execHenBlt (h : HenId) (w : BitVec 32) (s : State) : Host.Outcome State Fault Refusal :=
  s.act fun m => m.henStep h.agent w (0x2A * 64 + 0) fun m => m.henBranch h.agent w .lt

/-- BGE (R212): Hen branch if signed greater or equal. -/
def execHenBge (h : HenId) (w : BitVec 32) (s : State) : Host.Outcome State Fault Refusal :=
  s.act fun m => m.henStep h.agent w (0x2B * 64 + 0) fun m => m.henBranch h.agent w .ge

/-- BLTU (R212): Hen branch if unsigned less. -/
def execHenBltu (h : HenId) (w : BitVec 32) (s : State) : Host.Outcome State Fault Refusal :=
  s.act fun m => m.henStep h.agent w (0x2C * 64 + 0) fun m => m.henBranch h.agent w .ltu

/-- BGEU (R212): Hen branch if unsigned greater or equal. -/
def execHenBgeu (h : HenId) (w : BitVec 32) (s : State) : Host.Outcome State Fault Refusal :=
  s.act fun m => m.henStep h.agent w (0x2D * 64 + 0) fun m => m.henBranch h.agent w .geu

/-- J (R212): Hen jump. -/
def execHenJ (h : HenId) (w : BitVec 32) (s : State) : Host.Outcome State Fault Refusal :=
  s.act fun m => m.henStep h.agent w (0x2E * 64 + 0) fun m => m.henJump h.agent w false

/-- JAL (R212): Hen jump and link to g31. -/
def execHenJal (h : HenId) (w : BitVec 32) (s : State) : Host.Outcome State Fault Refusal :=
  s.act fun m => m.henStep h.agent w (0x2F * 64 + 0) fun m => m.henJump h.agent w true

/-- JALR (R213): Hen jump to register and link. -/
def execHenJalr (h : HenId) (w : BitVec 32) (s : State) : Host.Outcome State Fault Refusal :=
  s.act fun m => m.henStep h.agent w (0x30 * 64 + 0) fun m => m.henJumpReg h.agent w

end Machine
end Sys2Proof
end

