-- ==== Sys2Proof/Machine/HenSys.lean ====
section
/-!
DEFINITION. The Hen's loads, stores, atomics, queue and sync instructions, cache maintenance, control registers and system instructions
(R214 to R222, R231 to R241): the control registers, and the meaning of each instruction's command. `w` is the instruction word that
the fetch returned.
-/
namespace Sys2Proof
namespace Machine
namespace Mach

/-! ### Control registers (R240, R241) -/

/-- The implemented control registers (Table 7-12). -/
def crHas (c : Nat) : Bool :=
  decide (c ≤ 6) || c == 8 || c == 9 || c == 10 || c == 12 || (decide (16 ≤ c) && decide (c ≤ 19)) || (decide (24 ≤ c) && decide (c ≤ 26))
    || (decide (28 ≤ c) && decide (c ≤ 31)) || (decide (64 ≤ c) && decide (c ≤ 95))

/-- Those that task privilege may read (R170). -/
def crTask (c : Nat) : Bool := c == 8 || c == 12 || (decide (16 ≤ c) && decide (c ≤ 19))

/-- The value of a control register. -/
def crValue (m : Mach) (a c : Nat) : BitVec 64 :=
  let h := m.hen a
  match c with
  | 0 => BitVec.ofNat 64 (Bits.ofBool h.priv + 2 * Bits.ofBool h.excEn + 4 * h.ie.toNat)
  | 1 => BitVec.ofNat 64 (Bits.ofBool h.estPriv + 2 * Bits.ofBool h.estExcEn)
  | 2 => h.epc.setWidth 64
  | 3 => h.ecause.setWidth 64
  | 4 => h.etval
  | 5 => h.vbase.setWidth 64
  | 6 => (m.henPending a).setWidth 64
  | 8 => BitVec.ofNat 64 (m.henCycle a)
  | 9 => h.instret
  | 10 => h.timecmp
  | 12 => BitVec.ofNat 64 (a + (if m.herd.attached then m.herd.module.toNat else 0) * 8192)
  | 16 => h.arg0
  | 17 => h.arg1
  | 18 => h.arg2
  | 19 => h.arg3
  | 24 => BitVec.ofNat 64 (Bits.ofBool h.dcEn)
  | 25 => h.wayMask.setWidth 64
  | 26 => h.gran.setWidth 64
  | c => if c < 32 then FMap.get 0 h.scratch (c - 28) else if c < 80 then m.rgnBase a (c - 64) else m.rgnLimit a (c - 80)

/-- DC_CTL (R189, R190): the store buffer has drained. Any write clears the reservation (R332). [log 74 DEDUCED] -/
def dcCtlWrite (m : Mach) (a : Nat) (en inv : Bool) : Mach :=
  let m := m.modHen a fun h => { h with resv := none }
  if !en then
    let m := m.allLines a fun m l => m.cleanLine a l
    m.modHen a fun h => { h with dcEn := false }
  else if inv then
    let m := m.allLines a fun m l => m.invLine a l
    m.modHen a fun h => { h with dcEn := true, dcStale := false }
  else
    let m := if !(m.hen a).dcEn && (m.hen a).dcStale then m.count (henReg a 0xC) true else m
    m.modHen a fun h => { h with dcEn := true }

/-- The bits of `x` named by `mask` replace those of `old`. [log 73 DEDUCED] -/
def crMerge (old x mask : BitVec 64) : BitVec 64 := (old &&& ~~~mask) ||| (x &&& mask)

/-- A write of the bits `mask` of control register `c` with `x`: RO fields, reserved bits and refused values stay (R240). [log 73 DEDUCED] -/
def crWrite (m : Mach) (a c : Nat) (x mask : BitVec 64) : Mach :=
  let v := crMerge (m.crValue a c) x mask
  match c with
  | 0 => m.modHen a fun h => { h with excEn := v.getLsbD 1, ie := BitVec.ofNat 3 (v.toNat / 4) }
  | 1 => m.modHen a fun h => { h with estPriv := v.getLsbD 0, estExcEn := v.getLsbD 1 }
  | 2 => m.modHen a fun h => { h with epc := v.setWidth 56 &&& ~~~3#56 }
  | 3 => m.modHen a fun h => { h with ecause := v.setWidth 10 }
  | 4 => m.modHen a fun h => { h with etval := v }
  | 5 => m.modHen a fun h => { h with vbase := v.setWidth 56 &&& ~~~3#56 }
  | 6 => if (x &&& mask).getLsbD 2 then m.modHen a fun h => { h with ipMgmt := false } else m
  | 10 => m.modHen a fun h => { h with timecmp := v }
  | 16 => m.modHen a fun h => { h with arg0 := v }
  | 17 => m.modHen a fun h => { h with arg1 := v }
  | 18 => m.modHen a fun h => { h with arg2 := v }
  | 19 => m.modHen a fun h => { h with arg3 := v }
  | 24 => m.dcCtlWrite a (v.getLsbD 0) ((x &&& mask).getLsbD 1)
  | 25 => if v.toNat % 16 = 0 then m else m.modHen a fun h => { h with wayMask := v.setWidth 12 }
  | 26 => m.modHen a fun h => { h with resv := none, hold := none, gran := if v.toNat % 4 = 3 then h.gran else BitVec.ofNat 2 v.toNat }
  | 8 | 9 | 12 => m
  | c =>
    if c < 32 then m.modHen a fun h => { h with scratch := FMap.set 0 h.scratch (c - 28) v }
    else if c < 80 then m.modHen a fun h => { h with rgnBase := FMap.set none h.rgnBase (c - 64) (some (v &&& 0x80FFFFFFFFFFF0FF#64)) }
    else m.modHen a fun h => { h with rgnLimit := FMap.set none h.rgnLimit (c - 80) (some (v &&& 0x00FFFFFFFFFFF000#64)) }

/-- The registers whose write drains the store buffer (R175, R179). -/
def crDrains (c : Nat) : Bool := c == 24 || decide (64 ≤ c)

/-- CR (R240) with KIND `k`: 0 CRR, 1 CRW, 2 CRS, 3 CRC. -/
def henCr (m : Mach) (a : Nat) (w : BitVec 32) (k : Nat) : Mach :=
  let c := HenAlu.fld w 8 8
  let rd := HenAlu.fA w
  let rs := HenAlu.fB w
  let legal := HenAlu.fld w 0 6 = 0 && (k ≠ 0 || rs = 0) && (k ≠ 1 || rd = 0) && crHas c
  if !legal then m.henIllegal a w
  else if !(m.hen a).priv && !(k = 0 && crTask c) then m.henPrivilege a w
  else
    let old := m.crValue a c
    let x := m.g a rs
    let go (m : Mach) (x mask : BitVec 64) : Mach :=
      let done (m : Mach) : Mach := ((m.crWrite a c x mask).setG a rd old).henEnd a
      if crDrains c then m.afterDrain a done else done m
    match k with
    | 0 => (m.setG a rd old).henNext a
    | 1 => go m x (BitVec.allOnes 64)
    | 2 => go m (BitVec.allOnes 64) x
    | _ => go m 0 x

/-! ### SYS (R239) -/


/-- imm20 is 0 except in TRAP. -/
def sysStep (m : Mach) (a : Nat) (w : BitVec 32) (f : Mach → Mach) : Mach := if HenAlu.fld w 0 20 ≠ 0 then m.henIllegal a w else f m

/-- WFI: complete at once where an enabled source is pending or none is enabled. -/
def henHaltWait (m : Mach) (a : Nat) : Mach :=
  if (m.hen a).ie = 0 || m.henIrqs a ≠ 0 then m.henNext a else m.henAwait a .wfi

/-! ### Addresses of formats I and S, and STH -/

/-- g[rs1] + imm16. -/
def isAddr (m : Mach) (a : Nat) (w : BitVec 32) : BitVec 64 := m.g a (HenAlu.fB w) + HenAlu.imm16s w

/-- STH (R216, R180). -/
def henSth (m : Mach) (a : Nat) (w : BitVec 32) : Mach :=
  let v := HenAlu.fld w 8 1 == 1
  let sz := HenAlu.fld w 9 2
  let pm := HenAlu.fld w 5 3
  let addr := m.g a (HenAlu.fB w)
  let hint := hintOf a ((m.g a (HenAlu.fC w)).toNat % 8192)
  if HenAlu.fld w 0 5 ≠ 0 || (if v then sz ≠ 0 else pm ≠ 0) then m.henIllegal a w
  else if v then m.henStoreVec a addr (m.v a (HenAlu.fA w)) (m.p a pm) hint
  else m.henStore a addr (2 ^ sz) (m.g a (HenAlu.fA w)) hint

end Mach

/-! ### The commands -/

/-- LB (R214): Hen load byte, sign-extended. -/
def execHenLb (h : HenId) (w : BitVec 32) (s : State) : Host.Outcome State Fault Refusal :=
  s.act fun m => m.henStep h.agent w (0x10 * 64 + 0) fun m => m.henLoad h.agent (HenAlu.fA w) (m.isAddr h.agent w) 1 true false 0

/-- LBU (R214): Hen load byte, zero-extended. -/
def execHenLbu (h : HenId) (w : BitVec 32) (s : State) : Host.Outcome State Fault Refusal :=
  s.act fun m => m.henStep h.agent w (0x11 * 64 + 0) fun m => m.henLoad h.agent (HenAlu.fA w) (m.isAddr h.agent w) 1 false false 0

/-- LH (R214): Hen load half-word, sign-extended. -/
def execHenLh (h : HenId) (w : BitVec 32) (s : State) : Host.Outcome State Fault Refusal :=
  s.act fun m => m.henStep h.agent w (0x12 * 64 + 0) fun m => m.henLoad h.agent (HenAlu.fA w) (m.isAddr h.agent w) 2 true false 0

/-- LHU (R214): Hen load half-word, zero-extended. -/
def execHenLhu (h : HenId) (w : BitVec 32) (s : State) : Host.Outcome State Fault Refusal :=
  s.act fun m => m.henStep h.agent w (0x13 * 64 + 0) fun m => m.henLoad h.agent (HenAlu.fA w) (m.isAddr h.agent w) 2 false false 0

/-- LW (R214): Hen load word, sign-extended. -/
def execHenLw (h : HenId) (w : BitVec 32) (s : State) : Host.Outcome State Fault Refusal :=
  s.act fun m => m.henStep h.agent w (0x14 * 64 + 0) fun m => m.henLoad h.agent (HenAlu.fA w) (m.isAddr h.agent w) 4 true false 0

/-- LWU (R214): Hen load word, zero-extended. -/
def execHenLwu (h : HenId) (w : BitVec 32) (s : State) : Host.Outcome State Fault Refusal :=
  s.act fun m => m.henStep h.agent w (0x15 * 64 + 0) fun m => m.henLoad h.agent (HenAlu.fA w) (m.isAddr h.agent w) 4 false false 0

/-- LD (R214): Hen load doubleword. -/
def execHenLd (h : HenId) (w : BitVec 32) (s : State) : Host.Outcome State Fault Refusal :=
  s.act fun m => m.henStep h.agent w (0x16 * 64 + 0) fun m => m.henLoad h.agent (HenAlu.fA w) (m.isAddr h.agent w) 8 false false 0

/-- SB (R214): Hen store byte. -/
def execHenSb (h : HenId) (w : BitVec 32) (s : State) : Host.Outcome State Fault Refusal :=
  s.act fun m => m.henStep h.agent w (0x1A * 64 + 0) fun m => m.henStore h.agent (m.isAddr h.agent w) 1 (m.g h.agent (HenAlu.fA w)) none

/-- SH (R214): Hen store half-word. -/
def execHenSh (h : HenId) (w : BitVec 32) (s : State) : Host.Outcome State Fault Refusal :=
  s.act fun m => m.henStep h.agent w (0x1B * 64 + 0) fun m => m.henStore h.agent (m.isAddr h.agent w) 2 (m.g h.agent (HenAlu.fA w)) none

/-- SW (R214): Hen store word. -/
def execHenSw (h : HenId) (w : BitVec 32) (s : State) : Host.Outcome State Fault Refusal :=
  s.act fun m => m.henStep h.agent w (0x1C * 64 + 0) fun m => m.henStore h.agent (m.isAddr h.agent w) 4 (m.g h.agent (HenAlu.fA w)) none

/-- SD (R214): Hen store doubleword. -/
def execHenSd (h : HenId) (w : BitVec 32) (s : State) : Host.Outcome State Fault Refusal :=
  s.act fun m => m.henStep h.agent w (0x1D * 64 + 0) fun m => m.henStore h.agent (m.isAddr h.agent w) 8 (m.g h.agent (HenAlu.fA w)) none

/-- STH (R216): Hen store with a write hint naming a target cache. -/
def execHenSth (h : HenId) (w : BitVec 32) (s : State) : Host.Outcome State Fault Refusal :=
  s.act fun m => m.henStep h.agent w (0x1E * 64 + 0) fun m => m.henSth h.agent w

/-- LR (R331): Hen load-reserved sets a reservation on a granule. -/
def execHenLr (h : HenId) (w : BitVec 32) (s : State) : Host.Outcome State Fault Refusal :=
  s.act fun m => m.henStep h.agent w (0x18 * 64 + 0) fun m => m.henAtom h.agent w

/-- SC (R332): Hen store-conditional writes only while the reservation holds. -/
def execHenSc (h : HenId) (w : BitVec 32) (s : State) : Host.Outcome State Fault Refusal :=
  s.act fun m => m.henStep h.agent w (0x18 * 64 + 1) fun m => m.henAtom h.agent w

/-- SWAP (R217): Hen atomic swap at the home slice. -/
def execHenSwap (h : HenId) (w : BitVec 32) (s : State) : Host.Outcome State Fault Refusal :=
  s.act fun m => m.henStep h.agent w (0x18 * 64 + 2) fun m => m.henAtom h.agent w

/-- AADD (R217): Hen atomic add at the home slice. -/
def execHenAadd (h : HenId) (w : BitVec 32) (s : State) : Host.Outcome State Fault Refusal :=
  s.act fun m => m.henStep h.agent w (0x18 * 64 + 3) fun m => m.henAtom h.agent w

/-- AAND (R217): Hen atomic AND. -/
def execHenAand (h : HenId) (w : BitVec 32) (s : State) : Host.Outcome State Fault Refusal :=
  s.act fun m => m.henStep h.agent w (0x18 * 64 + 4) fun m => m.henAtom h.agent w

/-- AOR (R217): Hen atomic OR. -/
def execHenAor (h : HenId) (w : BitVec 32) (s : State) : Host.Outcome State Fault Refusal :=
  s.act fun m => m.henStep h.agent w (0x18 * 64 + 5) fun m => m.henAtom h.agent w

/-- AXOR (R217): Hen atomic XOR. -/
def execHenAxor (h : HenId) (w : BitVec 32) (s : State) : Host.Outcome State Fault Refusal :=
  s.act fun m => m.henStep h.agent w (0x18 * 64 + 6) fun m => m.henAtom h.agent w

/-- AMIN (R217): Hen atomic signed minimum. -/
def execHenAmin (h : HenId) (w : BitVec 32) (s : State) : Host.Outcome State Fault Refusal :=
  s.act fun m => m.henStep h.agent w (0x18 * 64 + 7) fun m => m.henAtom h.agent w

/-- AMAX (R217): Hen atomic signed maximum. -/
def execHenAmax (h : HenId) (w : BitVec 32) (s : State) : Host.Outcome State Fault Refusal :=
  s.act fun m => m.henStep h.agent w (0x18 * 64 + 8) fun m => m.henAtom h.agent w

/-- AMINU (R217): Hen atomic unsigned minimum. -/
def execHenAminu (h : HenId) (w : BitVec 32) (s : State) : Host.Outcome State Fault Refusal :=
  s.act fun m => m.henStep h.agent w (0x18 * 64 + 9) fun m => m.henAtom h.agent w

/-- AMAXU (R217): Hen atomic unsigned maximum. -/
def execHenAmaxu (h : HenId) (w : BitVec 32) (s : State) : Host.Outcome State Fault Refusal :=
  s.act fun m => m.henStep h.agent w (0x18 * 64 + 10) fun m => m.henAtom h.agent w

/-- CAS (R217): Hen atomic compare-and-swap. -/
def execHenCas (h : HenId) (w : BitVec 32) (s : State) : Host.Outcome State Fault Refusal :=
  s.act fun m => m.henStep h.agent w (0x18 * 64 + 11) fun m => m.henAtom h.agent w

/-- FADD (R217): Hen atomic FP32 add. -/
def execHenFadd (h : HenId) (w : BitVec 32) (s : State) : Host.Outcome State Fault Refusal :=
  s.act fun m => m.henStep h.agent w (0x18 * 64 + 12) fun m => m.henAtom h.agent w

/-- LVOL (R330): Hen volatile read at the point of coherence. -/
def execHenLvol (h : HenId) (w : BitVec 32) (s : State) : Host.Outcome State Fault Refusal :=
  s.act fun m => m.henStep h.agent w (0x18 * 64 + 16) fun m => m.henAtom h.agent w

/-- MPUSH (R232): Hen pushes a 64 B descriptor into a Mule queue. -/
def execHenMpush (h : HenId) (w : BitVec 32) (s : State) : Host.Outcome State Fault Refusal :=
  s.act fun m => m.henStep h.agent w (0x3C * 64 + 0) fun m => m.henMpush h.agent w

/-- CPUSH (R232): Hen pushes a 64 B work item to a Collie, which checks and queues it. -/
def execHenCpush (h : HenId) (w : BitVec 32) (s : State) : Host.Outcome State Fault Refusal :=
  s.act fun m => m.henStep h.agent w (0x3C * 64 + 1) fun m => m.henCpush h.agent w

/-- SADD (R234): Hen adds to a sync object as a release at a scope. -/
def execHenSadd (h : HenId) (w : BitVec 32) (s : State) : Host.Outcome State Fault Refusal :=
  s.act fun m => m.henStep h.agent w (0x3C * 64 + 2) fun m => m.henSadd h.agent w

/-- SWAIT (R234): Hen waits until a sync count reaches a threshold, then acquires. -/
def execHenSwait (h : HenId) (w : BitVec 32) (s : State) : Host.Outcome State Fault Refusal :=
  s.act fun m => m.henStep h.agent w (0x3C * 64 + 3) fun m => m.henSwait h.agent w

/-- SREAD (R234): Hen reads a sync count with no ordering. -/
def execHenSread (h : HenId) (w : BitVec 32) (s : State) : Host.Outcome State Fault Refusal :=
  s.act fun m => m.henStep h.agent w (0x3C * 64 + 4) fun m => m.henSread h.agent w

/-- DC_CLEAN (R235): Hen writes back a dirty line and keeps it clean. -/
def execHenDcClean (h : HenId) (w : BitVec 32) (s : State) : Host.Outcome State Fault Refusal :=
  s.act fun m => m.henStep h.agent w (0x3D * 64 + 0) fun m => m.henCmo h.agent w

/-- DC_FLUSH (R235): Hen writes back and invalidates a line. -/
def execHenDcFlush (h : HenId) (w : BitVec 32) (s : State) : Host.Outcome State Fault Refusal :=
  s.act fun m => m.henStep h.agent w (0x3D * 64 + 1) fun m => m.henCmo h.agent w

/-- DC_INV (R238): Hen invalidates a line without write-back. -/
def execHenDcInv (h : HenId) (w : BitVec 32) (s : State) : Host.Outcome State Fault Refusal :=
  s.act fun m => m.henStep h.agent w (0x3D * 64 + 2) fun m => m.henCmo h.agent w

/-- DC_PF (R236): Hen prefetches a line under the pipeline mask. -/
def execHenDcPf (h : HenId) (w : BitVec 32) (s : State) : Host.Outcome State Fault Refusal :=
  s.act fun m => m.henStep h.agent w (0x3D * 64 + 3) fun m => m.henCmo h.agent w

/-- DC_CLEAN_SW (R237): Hen cleans a cache entry by set and way. -/
def execHenDcCleanSw (h : HenId) (w : BitVec 32) (s : State) : Host.Outcome State Fault Refusal :=
  s.act fun m => m.henStep h.agent w (0x3D * 64 + 4) fun m => m.henCmo h.agent w

/-- DC_FLUSH_SW (R237): Hen flushes a cache entry by set and way. -/
def execHenDcFlushSw (h : HenId) (w : BitVec 32) (s : State) : Host.Outcome State Fault Refusal :=
  s.act fun m => m.henStep h.agent w (0x3D * 64 + 5) fun m => m.henCmo h.agent w

/-- DC_INV_SW (R237): Hen invalidates a cache entry by set and way. -/
def execHenDcInvSw (h : HenId) (w : BitVec 32) (s : State) : Host.Outcome State Fault Refusal :=
  s.act fun m => m.henStep h.agent w (0x3D * 64 + 6) fun m => m.henCmo h.agent w

/-- IC_INV (R181): Hen drains its store buffer and invalidates the instruction cache. -/
def execHenIcInv (h : HenId) (w : BitVec 32) (s : State) : Host.Outcome State Fault Refusal :=
  s.act fun m => m.henStep h.agent w (0x3D * 64 + 8) fun m => m.henCmo h.agent w

/-- CRR (R240): Hen reads a control register. -/
def execHenCrr (h : HenId) (w : BitVec 32) (s : State) : Host.Outcome State Fault Refusal :=
  s.act fun m => m.henStep h.agent w (0x3E * 64 + 0) fun m => m.henCr h.agent w 0

/-- CRW (R240): Hen writes a control register. -/
def execHenCrw (h : HenId) (w : BitVec 32) (s : State) : Host.Outcome State Fault Refusal :=
  s.act fun m => m.henStep h.agent w (0x3E * 64 + 1) fun m => m.henCr h.agent w 1

/-- CRS (R240): Hen reads and sets bits of a control register. -/
def execHenCrs (h : HenId) (w : BitVec 32) (s : State) : Host.Outcome State Fault Refusal :=
  s.act fun m => m.henStep h.agent w (0x3E * 64 + 2) fun m => m.henCr h.agent w 2

/-- CRC (R240): Hen reads and clears bits of a control register. -/
def execHenCrc (h : HenId) (w : BitVec 32) (s : State) : Host.Outcome State Fault Refusal :=
  s.act fun m => m.henStep h.agent w (0x3E * 64 + 3) fun m => m.henCr h.agent w 3

/-- BAR (R324): Hen barrier waits for its earlier accesses to be performed and landed. -/
def execHenBar (h : HenId) (w : BitVec 32) (s : State) : Host.Outcome State Fault Refusal :=
  s.act fun m => m.henStep h.agent w (0x3F * 64 + 0) fun m => m.sysStep h.agent w fun m => m.henBarGo h.agent

/-- TRAP (R239): Hen raises TRAP with its immediate. -/
def execHenTrap (h : HenId) (w : BitVec 32) (s : State) : Host.Outcome State Fault Refusal :=
  s.act fun m => m.henStep h.agent w (0x3F * 64 + 1) fun m => m.henRaise h.agent 10 (HenAlu.fld w 0 20)

/-- BREAK (R239): Hen raises BREAK. -/
def execHenBreak (h : HenId) (w : BitVec 32) (s : State) : Host.Outcome State Fault Refusal :=
  s.act fun m => m.henStep h.agent w (0x3F * 64 + 2) fun m => m.sysStep h.agent w fun m => m.henRaise h.agent 11 (m.hen h.agent).pc.toNat

/-- ERET (R196): Hen returns from an exception to EPC with the saved privilege. -/
def execHenEret (h : HenId) (w : BitVec 32) (s : State) : Host.Outcome State Fault Refusal :=
  s.act fun m => m.henStep h.agent w (0x3F * 64 + 3) fun m => m.sysStep h.agent w fun m => if (m.hen h.agent).priv then m.henReturn h.agent else m.henPrivilege h.agent w

/-- WFI (R239): Hen holds until an enabled interrupt source is pending. -/
def execHenWfi (h : HenId) (w : BitVec 32) (s : State) : Host.Outcome State Fault Refusal :=
  s.act fun m => m.henStep h.agent w (0x3F * 64 + 4) fun m => m.sysStep h.agent w fun m => m.henHaltWait h.agent

end Machine
end Sys2Proof
end

