-- ==== Sys2Proof/Machine/HenVec.lean ====
section
/-!
DEFINITION. The Hen's vector and predicate instructions (R220 to R230): the shared forms with their reserved fields, and the meaning of
each instruction's command. `w` is the instruction word that the fetch returned.
-/
namespace Sys2Proof
namespace Machine
namespace Mach

/-- The predicate of format V. -/
def pmOf (m : Mach) (a : Nat) (w : BitVec 32) : BitVec 64 := m.p a (HenAlu.fld w 8 3)

/-- A vector result. -/
def vecDone (m : Mach) (a : Nat) (w : BitVec 32) (x : BitVec 512) : Mach := (m.setV a (HenAlu.fA w) x).henNext a

/-- VOPF (R223): type 3 is reserved, and an operation with one source has vb = 0. -/
def henVopf (m : Mach) (a : Nat) (w : BitVec 32) (o : HenAlu.FpOp) : Mach :=
  match HenAlu.fpType (HenAlu.fld w 6 2) with
  | none => m.henIllegal a w
  | some f =>
    if (o == .abs || o == .neg) && HenAlu.fC w ≠ 0 then m.henIllegal a w
    else m.vecDone a w (HenAlu.vopf o f (m.pmOf a w) (m.v a (HenAlu.fA w)) (m.v a (HenAlu.fB w)) (m.v a (HenAlu.fC w)))

/-- VEXP2, VRCP and VRSQ (R194, Table 6-6): type 0, one source. -/
def henApprox (m : Mach) (a : Nat) (w : BitVec 32) (o : HenAlu.ApproxOp) : Mach :=
  let f := match o with | .exp2 => Config.vexp2 | .rcp => Config.vrcp | .rsq => Config.vrsq
  if HenAlu.fld w 6 2 ≠ 0 || HenAlu.fC w ≠ 0 then m.henIllegal a w
  else m.vecDone a w (HenAlu.vapprox o f (m.pmOf a w) (m.v a (HenAlu.fA w)) (m.v a (HenAlu.fB w)))

/-- VDOT8 (R224). -/
def henDot8 (m : Mach) (a : Nat) (w : BitVec 32) : Mach :=
  m.vecDone a w (HenAlu.vdot8 (HenAlu.fld w 6 2) (m.pmOf a w) (m.v a (HenAlu.fA w)) (m.v a (HenAlu.fB w)) (m.v a (HenAlu.fC w)))

/-- VOPI (R225). The logic operations ignore the width: their elements are bytes. -/
def henVopi (m : Mach) (a : Nat) (w : BitVec 32) (o : HenAlu.ViOp) : Mach :=
  let t := if o.logic then 0 else HenAlu.fld w 6 2
  m.vecDone a w (HenAlu.vopi o t (m.pmOf a w) (m.v a (HenAlu.fA w)) (m.v a (HenAlu.fB w)) (m.v a (HenAlu.fC w)))

/-- VCMP's types, conditions and destination that R226 allows. -/
def cmpLegal (w : BitVec 32) : Bool :=
  let t := HenAlu.fld w 5 3
  let c := HenAlu.fld w 0 5
  decide (HenAlu.fA w < 8) && t ≠ 7 && (decide (c ≤ 3) || ((c == 4 || c == 5) && decide (3 ≤ t)) || (c == 6 && decide (t < 3)))

/-- VCMP (R226). -/
def henVcmp (m : Mach) (a : Nat) (w : BitVec 32) : Mach :=
  if !cmpLegal w then m.henIllegal a w
  else (m.setP a (HenAlu.fA w) (HenAlu.vcmp (HenAlu.fld w 5 3) (HenAlu.fld w 0 5) (m.pmOf a w) (m.v a (HenAlu.fB w)) (m.v a (HenAlu.fC w)))).henNext a

/-- A POP operation on predicates (R227): `two` says whether it reads rs2. -/
def henPred (m : Mach) (a : Nat) (w : BitVec 32) (two : Bool) (f : BitVec 64 → BitVec 64 → BitVec 64) : Mach :=
  if HenAlu.fld w 6 5 ≠ 0 || decide (8 ≤ HenAlu.fA w) || decide (8 ≤ HenAlu.fB w) || (if two then decide (8 ≤ HenAlu.fC w) else HenAlu.fC w ≠ 0) then
    m.henIllegal a w
  else (m.setP a (HenAlu.fA w) (f (m.p a (HenAlu.fB w)) (m.p a (HenAlu.fC w)))).henNext a

/-- PMOVG. -/
def henPmovg (m : Mach) (a : Nat) (w : BitVec 32) : Mach :=
  if HenAlu.fld w 6 5 ≠ 0 || decide (8 ≤ HenAlu.fA w) || HenAlu.fC w ≠ 0 then m.henIllegal a w
  else (m.setP a (HenAlu.fA w) (m.g a (HenAlu.fB w))).henNext a

/-- GMOVP. -/
def henGmovp (m : Mach) (a : Nat) (w : BitVec 32) : Mach :=
  if HenAlu.fld w 6 5 ≠ 0 || decide (8 ≤ HenAlu.fB w) || HenAlu.fC w ≠ 0 then m.henIllegal a w
  else (m.setG a (HenAlu.fA w) (m.p a (HenAlu.fB w))).henNext a

/-- The operations of VPERM (Table 7-8). -/
inductive PermOp where
  | permb | bcast | ins | ext | zipl | ziph | mov | sel | unpk6 | pk6
deriving DecidableEq, Repr

/-- The widths and predicate that an operation of VPERM allows (R228). [log 72 DEDUCED] -/
def permLegal (w : BitVec 32) (o : PermOp) : Bool :=
  match o with
  | .permb | .unpk6 | .pk6 => HenAlu.fld w 6 2 == 0
  | .ins | .ext => HenAlu.fld w 8 3 == 0
  | _ => true

/-- VPERM (R228). -/
def henPerm (m : Mach) (a : Nat) (w : BitVec 32) (o : PermOp) : Mach :=
  let n := 8 * 2 ^ HenAlu.fld w 6 2
  let p := m.pmOf a w
  let d := m.v a (HenAlu.fA w)
  let x := m.v a (HenAlu.fB w)
  let y := m.v a (HenAlu.fC w)
  let gx := m.g a (HenAlu.fB w)
  let gy := m.g a (HenAlu.fC w)
  if !permLegal w o then m.henIllegal a w
  else match o with
  | .permb => m.vecDone a w (HenAlu.vpermb p d x y)
  | .bcast => m.vecDone a w (HenAlu.vbcast n p d gx)
  | .ins => m.vecDone a w (HenAlu.vins n d gx gy)
  | .ext => (m.setG a (HenAlu.fA w) (HenAlu.vext n x gy)).henNext a
  | .zipl => m.vecDone a w (HenAlu.vzip 0 n p d x y)
  | .ziph => m.vecDone a w (HenAlu.vzip 1 n p d x y)
  | .mov => m.vecDone a w (HenAlu.vmov n p d x)
  | .sel => m.vecDone a w (HenAlu.vsel n p x y)
  | .unpk6 => m.vecDone a w (HenAlu.vunpk6 p d x)
  | .pk6 => m.vecDone a w (HenAlu.vpk6 p d x)

/-- VRED (R229): type 7 is reserved, and vb is 0. `o` is 0 RSUM, 1 RMIN, 2 RMAX. -/
def henVred (m : Mach) (a : Nat) (w : BitVec 32) (o : Nat) : Mach :=
  if HenAlu.fld w 5 3 = 7 || HenAlu.fC w ≠ 0 then m.henIllegal a w
  else (m.setG a (HenAlu.fA w) (HenAlu.vred o (HenAlu.fld w 5 3) (m.pmOf a w) (m.v a (HenAlu.fB w)))).henNext a

/-- VCVT (R230): source CODE vb[14:11], SAT vb[15], destination CODE func[7:4], PART func[3:1], func[0] reserved. -/
def henVcvt (m : Mach) (a : Nat) (w : BitVec 32) : Mach :=
  let src := HenAlu.fld w 11 4
  let dst := HenAlu.fld w 4 4
  let part := HenAlu.fld w 1 3
  if HenAlu.fld w 0 1 ≠ 0 || !HenAlu.cvtLegal src dst part then m.henIllegal a w
  else m.vecDone a w (HenAlu.vcvt src dst part (w.getLsbD 15) (m.pmOf a w) (m.v a (HenAlu.fA w)) (m.v a (HenAlu.fB w)))

/-- The predicate and address of format VM (R222). [log 68 DEDUCED] -/
def vmMask (m : Mach) (a : Nat) (w : BitVec 32) : BitVec 64 := m.p a (HenAlu.fld w 13 3)
def vmAddr (m : Mach) (a : Nat) (w : BitVec 32) : BitVec 64 := m.g a (HenAlu.fB w) + HenAlu.off13 w

end Mach

/-! ### The commands -/

/-- VLD (R222): Hen vector load of a 64 B line under predicate. -/
def execHenVld (h : HenId) (w : BitVec 32) (s : State) : Host.Outcome State Fault Refusal :=
  s.act fun m => m.henStep h.agent w (0x20 * 64 + 0) fun m => m.henLoad h.agent (HenAlu.fA w) (m.vmAddr h.agent w) 64 false true (m.vmMask h.agent w)

/-- VST (R222): Hen vector store of active bytes. -/
def execHenVst (h : HenId) (w : BitVec 32) (s : State) : Host.Outcome State Fault Refusal :=
  s.act fun m => m.henStep h.agent w (0x21 * 64 + 0) fun m => m.henStoreVec h.agent (m.vmAddr h.agent w) (m.v h.agent (HenAlu.fA w)) (m.vmMask h.agent w) none

/-- VADD (R223): Hen vector FP add. -/
def execHenVadd (h : HenId) (w : BitVec 32) (s : State) : Host.Outcome State Fault Refusal :=
  s.act fun m => m.henStep h.agent w (0x22 * 64 + 0) fun m => m.henVopf h.agent w .add

/-- VSUB (R223): Hen vector FP subtract. -/
def execHenVsub (h : HenId) (w : BitVec 32) (s : State) : Host.Outcome State Fault Refusal :=
  s.act fun m => m.henStep h.agent w (0x22 * 64 + 1) fun m => m.henVopf h.agent w .sub

/-- VMUL (R223): Hen vector FP multiply. -/
def execHenVmul (h : HenId) (w : BitVec 32) (s : State) : Host.Outcome State Fault Refusal :=
  s.act fun m => m.henStep h.agent w (0x22 * 64 + 2) fun m => m.henVopf h.agent w .mul

/-- VFMA (R223): Hen vector fused multiply-add. -/
def execHenVfma (h : HenId) (w : BitVec 32) (s : State) : Host.Outcome State Fault Refusal :=
  s.act fun m => m.henStep h.agent w (0x22 * 64 + 3) fun m => m.henVopf h.agent w .fma

/-- VFMS (R223): Hen vector fused multiply-subtract. -/
def execHenVfms (h : HenId) (w : BitVec 32) (s : State) : Host.Outcome State Fault Refusal :=
  s.act fun m => m.henStep h.agent w (0x22 * 64 + 4) fun m => m.henVopf h.agent w .fms

/-- VMIN (R223): Hen vector FP minimum. -/
def execHenVmin (h : HenId) (w : BitVec 32) (s : State) : Host.Outcome State Fault Refusal :=
  s.act fun m => m.henStep h.agent w (0x22 * 64 + 5) fun m => m.henVopf h.agent w .min

/-- VMAX (R223): Hen vector FP maximum. -/
def execHenVmax (h : HenId) (w : BitVec 32) (s : State) : Host.Outcome State Fault Refusal :=
  s.act fun m => m.henStep h.agent w (0x22 * 64 + 6) fun m => m.henVopf h.agent w .max

/-- VABS (R223): Hen vector FP absolute value. -/
def execHenVabs (h : HenId) (w : BitVec 32) (s : State) : Host.Outcome State Fault Refusal :=
  s.act fun m => m.henStep h.agent w (0x22 * 64 + 7) fun m => m.henVopf h.agent w .abs

/-- VNEG (R223): Hen vector FP negate. -/
def execHenVneg (h : HenId) (w : BitVec 32) (s : State) : Host.Outcome State Fault Refusal :=
  s.act fun m => m.henStep h.agent w (0x22 * 64 + 8) fun m => m.henVopf h.agent w .neg

/-- VEXP2 (R194): Hen vector approximate base-2 exponential. -/
def execHenVexp2 (h : HenId) (w : BitVec 32) (s : State) : Host.Outcome State Fault Refusal :=
  s.act fun m => m.henStep h.agent w (0x22 * 64 + 16) fun m => m.henApprox h.agent w .exp2

/-- VRCP (R194): Hen vector approximate reciprocal. -/
def execHenVrcp (h : HenId) (w : BitVec 32) (s : State) : Host.Outcome State Fault Refusal :=
  s.act fun m => m.henStep h.agent w (0x22 * 64 + 17) fun m => m.henApprox h.agent w .rcp

/-- VRSQ (R194): Hen vector approximate reciprocal square root. -/
def execHenVrsq (h : HenId) (w : BitVec 32) (s : State) : Host.Outcome State Fault Refusal :=
  s.act fun m => m.henStep h.agent w (0x22 * 64 + 18) fun m => m.henApprox h.agent w .rsq

/-- VDOT8 (R224): Hen 8-bit FP dot product of groups of four into FP32 lanes. -/
def execHenVdot8 (h : HenId) (w : BitVec 32) (s : State) : Host.Outcome State Fault Refusal :=
  s.act fun m => m.henStep h.agent w (0x22 * 64 + 20) fun m => m.henDot8 h.agent w

/-- VOPI_VADD (R225): Hen vector integer add. -/
def execHenVopiVadd (h : HenId) (w : BitVec 32) (s : State) : Host.Outcome State Fault Refusal :=
  s.act fun m => m.henStep h.agent w (0x23 * 64 + 0) fun m => m.henVopi h.agent w .add

/-- VOPI_VSUB (R225): Hen vector integer subtract. -/
def execHenVopiVsub (h : HenId) (w : BitVec 32) (s : State) : Host.Outcome State Fault Refusal :=
  s.act fun m => m.henStep h.agent w (0x23 * 64 + 1) fun m => m.henVopi h.agent w .sub

/-- VOPI_VMUL (R225): Hen vector integer multiply, low bits. -/
def execHenVopiVmul (h : HenId) (w : BitVec 32) (s : State) : Host.Outcome State Fault Refusal :=
  s.act fun m => m.henStep h.agent w (0x23 * 64 + 2) fun m => m.henVopi h.agent w .mul

/-- VOPI_VMIN (R225): Hen vector signed minimum. -/
def execHenVopiVmin (h : HenId) (w : BitVec 32) (s : State) : Host.Outcome State Fault Refusal :=
  s.act fun m => m.henStep h.agent w (0x23 * 64 + 3) fun m => m.henVopi h.agent w .min

/-- VOPI_VMAX (R225): Hen vector signed maximum. -/
def execHenVopiVmax (h : HenId) (w : BitVec 32) (s : State) : Host.Outcome State Fault Refusal :=
  s.act fun m => m.henStep h.agent w (0x23 * 64 + 4) fun m => m.henVopi h.agent w .max

/-- VMINU (R225): Hen vector unsigned minimum. -/
def execHenVminu (h : HenId) (w : BitVec 32) (s : State) : Host.Outcome State Fault Refusal :=
  s.act fun m => m.henStep h.agent w (0x23 * 64 + 5) fun m => m.henVopi h.agent w .minu

/-- VMAXU (R225): Hen vector unsigned maximum. -/
def execHenVmaxu (h : HenId) (w : BitVec 32) (s : State) : Host.Outcome State Fault Refusal :=
  s.act fun m => m.henStep h.agent w (0x23 * 64 + 6) fun m => m.henVopi h.agent w .maxu

/-- VAND (R225): Hen vector AND. -/
def execHenVand (h : HenId) (w : BitVec 32) (s : State) : Host.Outcome State Fault Refusal :=
  s.act fun m => m.henStep h.agent w (0x23 * 64 + 8) fun m => m.henVopi h.agent w .and

/-- VOR (R225): Hen vector OR. -/
def execHenVor (h : HenId) (w : BitVec 32) (s : State) : Host.Outcome State Fault Refusal :=
  s.act fun m => m.henStep h.agent w (0x23 * 64 + 9) fun m => m.henVopi h.agent w .or

/-- VXOR (R225): Hen vector XOR. -/
def execHenVxor (h : HenId) (w : BitVec 32) (s : State) : Host.Outcome State Fault Refusal :=
  s.act fun m => m.henStep h.agent w (0x23 * 64 + 10) fun m => m.henVopi h.agent w .xor

/-- VANDN (R225): Hen vector AND with complement. -/
def execHenVandn (h : HenId) (w : BitVec 32) (s : State) : Host.Outcome State Fault Refusal :=
  s.act fun m => m.henStep h.agent w (0x23 * 64 + 11) fun m => m.henVopi h.agent w .andn

/-- VSLL (R225): Hen vector shift left. -/
def execHenVsll (h : HenId) (w : BitVec 32) (s : State) : Host.Outcome State Fault Refusal :=
  s.act fun m => m.henStep h.agent w (0x23 * 64 + 12) fun m => m.henVopi h.agent w .sll

/-- VSRL (R225): Hen vector logical shift right. -/
def execHenVsrl (h : HenId) (w : BitVec 32) (s : State) : Host.Outcome State Fault Refusal :=
  s.act fun m => m.henStep h.agent w (0x23 * 64 + 13) fun m => m.henVopi h.agent w .srl

/-- VSRA (R225): Hen vector arithmetic shift right. -/
def execHenVsra (h : HenId) (w : BitVec 32) (s : State) : Host.Outcome State Fault Refusal :=
  s.act fun m => m.henStep h.agent w (0x23 * 64 + 14) fun m => m.henVopi h.agent w .sra

/-- VCMP (R226): Hen vector compare into a predicate. -/
def execHenVcmp (h : HenId) (w : BitVec 32) (s : State) : Host.Outcome State Fault Refusal :=
  s.act fun m => m.henStep h.agent w (0x27 * 64 + 0) fun m => m.henVcmp h.agent w

/-- PAND (R227): Hen predicate AND. -/
def execHenPand (h : HenId) (w : BitVec 32) (s : State) : Host.Outcome State Fault Refusal :=
  s.act fun m => m.henStep h.agent w (0x31 * 64 + 0) fun m => m.henPred h.agent w true fun x y => x &&& y

/-- POR (R227): Hen predicate OR. -/
def execHenPor (h : HenId) (w : BitVec 32) (s : State) : Host.Outcome State Fault Refusal :=
  s.act fun m => m.henStep h.agent w (0x31 * 64 + 1) fun m => m.henPred h.agent w true fun x y => x ||| y

/-- PXOR (R227): Hen predicate XOR. -/
def execHenPxor (h : HenId) (w : BitVec 32) (s : State) : Host.Outcome State Fault Refusal :=
  s.act fun m => m.henStep h.agent w (0x31 * 64 + 2) fun m => m.henPred h.agent w true fun x y => x ^^^ y

/-- PANDN (R227): Hen predicate AND with complement. -/
def execHenPandn (h : HenId) (w : BitVec 32) (s : State) : Host.Outcome State Fault Refusal :=
  s.act fun m => m.henStep h.agent w (0x31 * 64 + 3) fun m => m.henPred h.agent w true fun x y => x &&& ~~~y

/-- PNOT (R227): Hen predicate inverse. -/
def execHenPnot (h : HenId) (w : BitVec 32) (s : State) : Host.Outcome State Fault Refusal :=
  s.act fun m => m.henStep h.agent w (0x31 * 64 + 4) fun m => m.henPred h.agent w false fun x _ => ~~~x

/-- PMOVG (R227): Hen moves a general register into a predicate. -/
def execHenPmovg (h : HenId) (w : BitVec 32) (s : State) : Host.Outcome State Fault Refusal :=
  s.act fun m => m.henStep h.agent w (0x31 * 64 + 8) fun m => m.henPmovg h.agent w

/-- GMOVP (R227): Hen moves a predicate into a general register. -/
def execHenGmovp (h : HenId) (w : BitVec 32) (s : State) : Host.Outcome State Fault Refusal :=
  s.act fun m => m.henStep h.agent w (0x31 * 64 + 9) fun m => m.henGmovp h.agent w

/-- VPERMB (R228): Hen byte permute. -/
def execHenVpermb (h : HenId) (w : BitVec 32) (s : State) : Host.Outcome State Fault Refusal :=
  s.act fun m => m.henStep h.agent w (0x24 * 64 + 0) fun m => m.henPerm h.agent w .permb

/-- VBCAST (R228): Hen broadcast of a general register to every element. -/
def execHenVbcast (h : HenId) (w : BitVec 32) (s : State) : Host.Outcome State Fault Refusal :=
  s.act fun m => m.henStep h.agent w (0x24 * 64 + 1) fun m => m.henPerm h.agent w .bcast

/-- VINS (R228): Hen insert of one element. -/
def execHenVins (h : HenId) (w : BitVec 32) (s : State) : Host.Outcome State Fault Refusal :=
  s.act fun m => m.henStep h.agent w (0x24 * 64 + 2) fun m => m.henPerm h.agent w .ins

/-- VEXT (R228): Hen extract of one element to a general register. -/
def execHenVext (h : HenId) (w : BitVec 32) (s : State) : Host.Outcome State Fault Refusal :=
  s.act fun m => m.henStep h.agent w (0x24 * 64 + 3) fun m => m.henPerm h.agent w .ext

/-- VZIPL (R228): Hen interleave of the lower halves. -/
def execHenVzipl (h : HenId) (w : BitVec 32) (s : State) : Host.Outcome State Fault Refusal :=
  s.act fun m => m.henStep h.agent w (0x24 * 64 + 4) fun m => m.henPerm h.agent w .zipl

/-- VZIPH (R228): Hen interleave of the upper halves. -/
def execHenVziph (h : HenId) (w : BitVec 32) (s : State) : Host.Outcome State Fault Refusal :=
  s.act fun m => m.henStep h.agent w (0x24 * 64 + 5) fun m => m.henPerm h.agent w .ziph

/-- VMOV (R228): Hen vector move. -/
def execHenVmov (h : HenId) (w : BitVec 32) (s : State) : Host.Outcome State Fault Refusal :=
  s.act fun m => m.henStep h.agent w (0x24 * 64 + 6) fun m => m.henPerm h.agent w .mov

/-- VSEL (R228): Hen select by predicate. -/
def execHenVsel (h : HenId) (w : BitVec 32) (s : State) : Host.Outcome State Fault Refusal :=
  s.act fun m => m.henStep h.agent w (0x24 * 64 + 7) fun m => m.henPerm h.agent w .sel

/-- VUNPK6 (R228): Hen unpack of packed 6-bit elements. -/
def execHenVunpk6 (h : HenId) (w : BitVec 32) (s : State) : Host.Outcome State Fault Refusal :=
  s.act fun m => m.henStep h.agent w (0x24 * 64 + 8) fun m => m.henPerm h.agent w .unpk6

/-- VPK6 (R228): Hen pack of 6-bit elements. -/
def execHenVpk6 (h : HenId) (w : BitVec 32) (s : State) : Host.Outcome State Fault Refusal :=
  s.act fun m => m.henStep h.agent w (0x24 * 64 + 9) fun m => m.henPerm h.agent w .pk6

/-- RSUM (R229): Hen reduction sum across a vector register. -/
def execHenRsum (h : HenId) (w : BitVec 32) (s : State) : Host.Outcome State Fault Refusal :=
  s.act fun m => m.henStep h.agent w (0x25 * 64 + 0) fun m => m.henVred h.agent w 0

/-- RMIN (R229): Hen reduction minimum. -/
def execHenRmin (h : HenId) (w : BitVec 32) (s : State) : Host.Outcome State Fault Refusal :=
  s.act fun m => m.henStep h.agent w (0x25 * 64 + 1) fun m => m.henVred h.agent w 1

/-- RMAX (R229): Hen reduction maximum. -/
def execHenRmax (h : HenId) (w : BitVec 32) (s : State) : Host.Outcome State Fault Refusal :=
  s.act fun m => m.henStep h.agent w (0x25 * 64 + 2) fun m => m.henVred h.agent w 2

/-- VCVT (R230): Hen vector format conversion. -/
def execHenVcvt (h : HenId) (w : BitVec 32) (s : State) : Host.Outcome State Fault Refusal :=
  s.act fun m => m.henStep h.agent w (0x26 * 64 + 0) fun m => m.henVcvt h.agent w

end Machine
end Sys2Proof
end

