-- ==== Sys2Proof/Machine/Dispatch.lean ====
section
/-!
DEFINITION. The meaning of every command: one arm per constructor of Instr.
-/
namespace Sys2Proof
namespace Machine

def exec (i : Instr) (s : State) : Host.Outcome State Fault Refusal :=
  match i with
  | .beatEdge t high => Sys2Proof.Machine.execBeatEdge t high s
  | .beatWord t w => Sys2Proof.Machine.execBeatWord t w s
  | .wordTimeout => Sys2Proof.Machine.execWordTimeout s
  | .beatWrap => Sys2Proof.Machine.execBeatWrap s
  | .missingEdge => Sys2Proof.Machine.execMissingEdge s
  | .siteNop => Sys2Proof.Machine.execSiteNop s
  | .siteHold => Sys2Proof.Machine.execSiteHold s
  | .siteRelease => Sys2Proof.Machine.execSiteRelease s
  | .siteCap arg => Sys2Proof.Machine.execSiteCap arg s
  | .siteLean => Sys2Proof.Machine.execSiteLean s
  | .slotStart => Sys2Proof.Machine.execSlotStart s
  | .opStepDone die => Sys2Proof.Machine.execOpStepDone die s
  | .retentionExitDone die => Sys2Proof.Machine.execRetentionExitDone die s
  | .domainReady die dom => Sys2Proof.Machine.execDomainReady die dom s
  | .targetOp die v => Sys2Proof.Machine.execTargetOp die v s
  | .targetRet die v => Sys2Proof.Machine.execTargetRet die v s
  | .domainCtl die r w => Sys2Proof.Machine.execDomainCtl die r w s
  | .meterSample vin vbus cur p0 p1 p2 p3 => Sys2Proof.Machine.execMeterSample vin vbus cur p0 p1 p2 p3 s
  | .enforcementStep => Sys2Proof.Machine.execEnforcementStep s
  | .enforcementUndo => Sys2Proof.Machine.execEnforcementUndo s
  | .capUnmet => Sys2Proof.Machine.execCapUnmet s
  | .fastLimit => Sys2Proof.Machine.execFastLimit s
  | .fastLimitEnd => Sys2Proof.Machine.execFastLimitEnd s
  | .tokenReturn o => Sys2Proof.Machine.execTokenReturn o s
  | .opStep die e => Sys2Proof.Machine.execOpStep die e s
  | .domain die e => Sys2Proof.Machine.execDomain die e s
  | .scrubBurst die e => Sys2Proof.Machine.execScrubBurst die e s
  | .scrubBurstEnd die e => Sys2Proof.Machine.execScrubBurstEnd die e s
  | .rampPermit die e => Sys2Proof.Machine.execRampPermit die e s
  | .rampPermitEnd die e => Sys2Proof.Machine.execRampPermitEnd die e s
  | .saveWindow e => Sys2Proof.Machine.execSaveWindow e s
  | .vinWarning vin dur => Sys2Proof.Machine.execVinWarning vin dur s
  | .inputOpen vin dur => Sys2Proof.Machine.execInputOpen vin dur s
  | .inputClose t vin => Sys2Proof.Machine.execInputClose t vin s
  | .supplyClear t vin => Sys2Proof.Machine.execSupplyClear t vin s
  | .leanWaitEnd t => Sys2Proof.Machine.execLeanWaitEnd t s
  | .saveStart => Sys2Proof.Machine.execSaveStart s
  | .saveCopyDone => Sys2Proof.Machine.execSaveCopyDone s
  | .vbusSeal done => Sys2Proof.Machine.execVbusSeal done s
  | .supplyReset => Sys2Proof.Machine.execSupplyReset s
  | .oxProgFetch o => Sys2Proof.Machine.execOxProgFetch o s
  | .oxNop o => Sys2Proof.Machine.execOxNop o s
  | .oxEnd o => Sys2Proof.Machine.execOxEnd o s
  | .oxLdw o => Sys2Proof.Machine.execOxLdw o s
  | .oxLdwDone o => Sys2Proof.Machine.execOxLdwDone o s
  | .oxLds o => Sys2Proof.Machine.execOxLds o s
  | .oxLdsDone o => Sys2Proof.Machine.execOxLdsDone o s
  | .oxSwp o => Sys2Proof.Machine.execOxSwp o s
  | .oxSwpDone o => Sys2Proof.Machine.execOxSwpDone o s
  | .oxMma o => Sys2Proof.Machine.execOxMma o s
  | .oxRefusedReturn o => Sys2Proof.Machine.execOxRefusedReturn o s
  | .oxMmaPass o errs => Sys2Proof.Machine.execOxMmaPass o errs s
  | .oxDiagnosisDone o faults => Sys2Proof.Machine.execOxDiagnosisDone o faults s
  | .oxZac o => Sys2Proof.Machine.execOxZac o s
  | .oxZacDone o => Sys2Proof.Machine.execOxZacDone o s
  | .oxDrn o => Sys2Proof.Machine.execOxDrn o s
  | .oxDrnDone o => Sys2Proof.Machine.execOxDrnDone o s
  | .oxDset o => Sys2Proof.Machine.execOxDset o s
  | .oxSwt o => Sys2Proof.Machine.execOxSwt o s
  | .oxSrel o => Sys2Proof.Machine.execOxSrel o s
  | .oxFence o => Sys2Proof.Machine.execOxFence o s
  | .oxRampUpDone o => Sys2Proof.Machine.execOxRampUpDone o s
  | .oxRampDownDone o => Sys2Proof.Machine.execOxRampDownDone o s
  | .oxRun o => Sys2Proof.Machine.execOxRun o s
  | .oxQuiesce o => Sys2Proof.Machine.execOxQuiesce o s
  | .oxQuiesceDone o => Sys2Proof.Machine.execOxQuiesceDone o s
  | .oxForceDisable o => Sys2Proof.Machine.execOxForceDisable o s
  | .oxDisableDone o => Sys2Proof.Machine.execOxDisableDone o s
  | .oxDiag o => Sys2Proof.Machine.execOxDiag o s
  | .henAdd h w => Sys2Proof.Machine.execHenAdd h w s
  | .henSub h w => Sys2Proof.Machine.execHenSub h w s
  | .henAnd h w => Sys2Proof.Machine.execHenAnd h w s
  | .henOr h w => Sys2Proof.Machine.execHenOr h w s
  | .henXor h w => Sys2Proof.Machine.execHenXor h w s
  | .henAndn h w => Sys2Proof.Machine.execHenAndn h w s
  | .henSll h w => Sys2Proof.Machine.execHenSll h w s
  | .henSrl h w => Sys2Proof.Machine.execHenSrl h w s
  | .henSra h w => Sys2Proof.Machine.execHenSra h w s
  | .henRor h w => Sys2Proof.Machine.execHenRor h w s
  | .henSlt h w => Sys2Proof.Machine.execHenSlt h w s
  | .henSltu h w => Sys2Proof.Machine.execHenSltu h w s
  | .henMin h w => Sys2Proof.Machine.execHenMin h w s
  | .henMax h w => Sys2Proof.Machine.execHenMax h w s
  | .henMinu h w => Sys2Proof.Machine.execHenMinu h w s
  | .henMaxu h w => Sys2Proof.Machine.execHenMaxu h w s
  | .henMul h w => Sys2Proof.Machine.execHenMul h w s
  | .henMulh h w => Sys2Proof.Machine.execHenMulh h w s
  | .henMulhu h w => Sys2Proof.Machine.execHenMulhu h w s
  | .henMulhsu h w => Sys2Proof.Machine.execHenMulhsu h w s
  | .henDiv h w => Sys2Proof.Machine.execHenDiv h w s
  | .henDivu h w => Sys2Proof.Machine.execHenDivu h w s
  | .henRem h w => Sys2Proof.Machine.execHenRem h w s
  | .henRemu h w => Sys2Proof.Machine.execHenRemu h w s
  | .henClz h w => Sys2Proof.Machine.execHenClz h w s
  | .henCtz h w => Sys2Proof.Machine.execHenCtz h w s
  | .henPopc h w => Sys2Proof.Machine.execHenPopc h w s
  | .henAddi h w => Sys2Proof.Machine.execHenAddi h w s
  | .henAndi h w => Sys2Proof.Machine.execHenAndi h w s
  | .henOri h w => Sys2Proof.Machine.execHenOri h w s
  | .henXori h w => Sys2Proof.Machine.execHenXori h w s
  | .henSlti h w => Sys2Proof.Machine.execHenSlti h w s
  | .henSltiu h w => Sys2Proof.Machine.execHenSltiu h w s
  | .henShi h w => Sys2Proof.Machine.execHenShi h w s
  | .henImz h w => Sys2Proof.Machine.execHenImz h w s
  | .henImk h w => Sys2Proof.Machine.execHenImk h w s
  | .henLb h w => Sys2Proof.Machine.execHenLb h w s
  | .henLbu h w => Sys2Proof.Machine.execHenLbu h w s
  | .henLh h w => Sys2Proof.Machine.execHenLh h w s
  | .henLhu h w => Sys2Proof.Machine.execHenLhu h w s
  | .henLw h w => Sys2Proof.Machine.execHenLw h w s
  | .henLwu h w => Sys2Proof.Machine.execHenLwu h w s
  | .henLd h w => Sys2Proof.Machine.execHenLd h w s
  | .henSb h w => Sys2Proof.Machine.execHenSb h w s
  | .henSh h w => Sys2Proof.Machine.execHenSh h w s
  | .henSw h w => Sys2Proof.Machine.execHenSw h w s
  | .henSd h w => Sys2Proof.Machine.execHenSd h w s
  | .henSth h w => Sys2Proof.Machine.execHenSth h w s
  | .henLr h w => Sys2Proof.Machine.execHenLr h w s
  | .henSc h w => Sys2Proof.Machine.execHenSc h w s
  | .henSwap h w => Sys2Proof.Machine.execHenSwap h w s
  | .henAadd h w => Sys2Proof.Machine.execHenAadd h w s
  | .henAand h w => Sys2Proof.Machine.execHenAand h w s
  | .henAor h w => Sys2Proof.Machine.execHenAor h w s
  | .henAxor h w => Sys2Proof.Machine.execHenAxor h w s
  | .henAmin h w => Sys2Proof.Machine.execHenAmin h w s
  | .henAmax h w => Sys2Proof.Machine.execHenAmax h w s
  | .henAminu h w => Sys2Proof.Machine.execHenAminu h w s
  | .henAmaxu h w => Sys2Proof.Machine.execHenAmaxu h w s
  | .henCas h w => Sys2Proof.Machine.execHenCas h w s
  | .henFadd h w => Sys2Proof.Machine.execHenFadd h w s
  | .henLvol h w => Sys2Proof.Machine.execHenLvol h w s
  | .henVld h w => Sys2Proof.Machine.execHenVld h w s
  | .henVst h w => Sys2Proof.Machine.execHenVst h w s
  | .henVadd h w => Sys2Proof.Machine.execHenVadd h w s
  | .henVsub h w => Sys2Proof.Machine.execHenVsub h w s
  | .henVmul h w => Sys2Proof.Machine.execHenVmul h w s
  | .henVfma h w => Sys2Proof.Machine.execHenVfma h w s
  | .henVfms h w => Sys2Proof.Machine.execHenVfms h w s
  | .henVmin h w => Sys2Proof.Machine.execHenVmin h w s
  | .henVmax h w => Sys2Proof.Machine.execHenVmax h w s
  | .henVabs h w => Sys2Proof.Machine.execHenVabs h w s
  | .henVneg h w => Sys2Proof.Machine.execHenVneg h w s
  | .henVexp2 h w => Sys2Proof.Machine.execHenVexp2 h w s
  | .henVrcp h w => Sys2Proof.Machine.execHenVrcp h w s
  | .henVrsq h w => Sys2Proof.Machine.execHenVrsq h w s
  | .henVdot8 h w => Sys2Proof.Machine.execHenVdot8 h w s
  | .henVopiVadd h w => Sys2Proof.Machine.execHenVopiVadd h w s
  | .henVopiVsub h w => Sys2Proof.Machine.execHenVopiVsub h w s
  | .henVopiVmul h w => Sys2Proof.Machine.execHenVopiVmul h w s
  | .henVopiVmin h w => Sys2Proof.Machine.execHenVopiVmin h w s
  | .henVopiVmax h w => Sys2Proof.Machine.execHenVopiVmax h w s
  | .henVminu h w => Sys2Proof.Machine.execHenVminu h w s
  | .henVmaxu h w => Sys2Proof.Machine.execHenVmaxu h w s
  | .henVand h w => Sys2Proof.Machine.execHenVand h w s
  | .henVor h w => Sys2Proof.Machine.execHenVor h w s
  | .henVxor h w => Sys2Proof.Machine.execHenVxor h w s
  | .henVandn h w => Sys2Proof.Machine.execHenVandn h w s
  | .henVsll h w => Sys2Proof.Machine.execHenVsll h w s
  | .henVsrl h w => Sys2Proof.Machine.execHenVsrl h w s
  | .henVsra h w => Sys2Proof.Machine.execHenVsra h w s
  | .henVcmp h w => Sys2Proof.Machine.execHenVcmp h w s
  | .henPand h w => Sys2Proof.Machine.execHenPand h w s
  | .henPor h w => Sys2Proof.Machine.execHenPor h w s
  | .henPxor h w => Sys2Proof.Machine.execHenPxor h w s
  | .henPandn h w => Sys2Proof.Machine.execHenPandn h w s
  | .henPnot h w => Sys2Proof.Machine.execHenPnot h w s
  | .henPmovg h w => Sys2Proof.Machine.execHenPmovg h w s
  | .henGmovp h w => Sys2Proof.Machine.execHenGmovp h w s
  | .henVpermb h w => Sys2Proof.Machine.execHenVpermb h w s
  | .henVbcast h w => Sys2Proof.Machine.execHenVbcast h w s
  | .henVins h w => Sys2Proof.Machine.execHenVins h w s
  | .henVext h w => Sys2Proof.Machine.execHenVext h w s
  | .henVzipl h w => Sys2Proof.Machine.execHenVzipl h w s
  | .henVziph h w => Sys2Proof.Machine.execHenVziph h w s
  | .henVmov h w => Sys2Proof.Machine.execHenVmov h w s
  | .henVsel h w => Sys2Proof.Machine.execHenVsel h w s
  | .henVunpk6 h w => Sys2Proof.Machine.execHenVunpk6 h w s
  | .henVpk6 h w => Sys2Proof.Machine.execHenVpk6 h w s
  | .henRsum h w => Sys2Proof.Machine.execHenRsum h w s
  | .henRmin h w => Sys2Proof.Machine.execHenRmin h w s
  | .henRmax h w => Sys2Proof.Machine.execHenRmax h w s
  | .henVcvt h w => Sys2Proof.Machine.execHenVcvt h w s
  | .henBeq h w => Sys2Proof.Machine.execHenBeq h w s
  | .henBne h w => Sys2Proof.Machine.execHenBne h w s
  | .henBlt h w => Sys2Proof.Machine.execHenBlt h w s
  | .henBge h w => Sys2Proof.Machine.execHenBge h w s
  | .henBltu h w => Sys2Proof.Machine.execHenBltu h w s
  | .henBgeu h w => Sys2Proof.Machine.execHenBgeu h w s
  | .henJ h w => Sys2Proof.Machine.execHenJ h w s
  | .henJal h w => Sys2Proof.Machine.execHenJal h w s
  | .henJalr h w => Sys2Proof.Machine.execHenJalr h w s
  | .henMpush h w => Sys2Proof.Machine.execHenMpush h w s
  | .henCpush h w => Sys2Proof.Machine.execHenCpush h w s
  | .henSadd h w => Sys2Proof.Machine.execHenSadd h w s
  | .henSwait h w => Sys2Proof.Machine.execHenSwait h w s
  | .henSread h w => Sys2Proof.Machine.execHenSread h w s
  | .henDcClean h w => Sys2Proof.Machine.execHenDcClean h w s
  | .henDcFlush h w => Sys2Proof.Machine.execHenDcFlush h w s
  | .henDcInv h w => Sys2Proof.Machine.execHenDcInv h w s
  | .henDcPf h w => Sys2Proof.Machine.execHenDcPf h w s
  | .henDcCleanSw h w => Sys2Proof.Machine.execHenDcCleanSw h w s
  | .henDcFlushSw h w => Sys2Proof.Machine.execHenDcFlushSw h w s
  | .henDcInvSw h w => Sys2Proof.Machine.execHenDcInvSw h w s
  | .henIcInv h w => Sys2Proof.Machine.execHenIcInv h w s
  | .henCrr h w => Sys2Proof.Machine.execHenCrr h w s
  | .henCrw h w => Sys2Proof.Machine.execHenCrw h w s
  | .henCrs h w => Sys2Proof.Machine.execHenCrs h w s
  | .henCrc h w => Sys2Proof.Machine.execHenCrc h w s
  | .henBar h w => Sys2Proof.Machine.execHenBar h w s
  | .henTrap h w => Sys2Proof.Machine.execHenTrap h w s
  | .henBreak h w => Sys2Proof.Machine.execHenBreak h w s
  | .henEret h w => Sys2Proof.Machine.execHenEret h w s
  | .henWfi h w => Sys2Proof.Machine.execHenWfi h w s
  | .sbRetire h i1 => Sys2Proof.Machine.execSbRetire h i1 s
  | .impreciseException h => Sys2Proof.Machine.execImpreciseException h s
  | .interrupt h => Sys2Proof.Machine.execInterrupt h s
  | .timer h t => Sys2Proof.Machine.execTimer h t s
  | .selftestSlice h ok okAgain => Sys2Proof.Machine.execSelftestSlice h ok okAgain s
  | .lrHoldEnd h => Sys2Proof.Machine.execLrHoldEnd h s
  | .henRun h => Sys2Proof.Machine.execHenRun h s
  | .henQuiesce h => Sys2Proof.Machine.execHenQuiesce h s
  | .henForceDisable h => Sys2Proof.Machine.execHenForceDisable h s
  | .henRestart h => Sys2Proof.Machine.execHenRestart h s
  | .irq h => Sys2Proof.Machine.execIrq h s
  | .collieDispatch f hen => Sys2Proof.Machine.execCollieDispatch f hen s
  | .itemTake f h => Sys2Proof.Machine.execItemTake f h s
  | .itemDone f h => Sys2Proof.Machine.execItemDone f h s
  | .itemFail f h fcause => Sys2Proof.Machine.execItemFail f h fcause s
  | .itemReturn f => Sys2Proof.Machine.execItemReturn f s
  | .stealSib f unit => Sys2Proof.Machine.execStealSib f unit s
  | .probeRound f hen => Sys2Proof.Machine.execProbeRound f hen s
  | .probe f hen => Sys2Proof.Machine.execProbe f hen s
  | .stealCopyDone f unit => Sys2Proof.Machine.execStealCopyDone f unit s
  | .copyBackDone f unit => Sys2Proof.Machine.execCopyBackDone f unit s
  | .collieRun f => Sys2Proof.Machine.execCollieRun f s
  | .collieQuiesce f => Sys2Proof.Machine.execCollieQuiesce f s
  | .collieForceQuiesce f => Sys2Proof.Machine.execCollieForceQuiesce f s
  | .collieQuiesceDone f => Sys2Proof.Machine.execCollieQuiesceDone f s
  | .collieEvict f => Sys2Proof.Machine.execCollieEvict f s
  | .waitPoll die => Sys2Proof.Machine.execWaitPoll die s
  | .syncCountWrite die i1 v => Sys2Proof.Machine.execSyncCountWrite die i1 v s
  | .muleDescStart m => Sys2Proof.Machine.execMuleDescStart m s
  | .muleCopy m k n => Sys2Proof.Machine.execMuleCopy m k n s
  | .muleTranspose m k n => Sys2Proof.Machine.execMuleTranspose m k n s
  | .muleGather m k n => Sys2Proof.Machine.execMuleGather m k n s
  | .muleScatter m k n => Sys2Proof.Machine.execMuleScatter m k n s
  | .muleFill m k n => Sys2Proof.Machine.execMuleFill m k n s
  | .muleReduce m k n => Sys2Proof.Machine.execMuleReduce m k n s
  | .muleDescComplete m k => Sys2Proof.Machine.execMuleDescComplete m k s
  | .muleDescError m k => Sys2Proof.Machine.execMuleDescError m k s
  | .muleRun m => Sys2Proof.Machine.execMuleRun m s
  | .muleQuiesce m => Sys2Proof.Machine.execMuleQuiesce m s
  | .muleAbort m => Sys2Proof.Machine.execMuleAbort m s
  | .muleQuiesceDone m => Sys2Proof.Machine.execMuleQuiesceDone m s
  | .resume0 m => Sys2Proof.Machine.execResume0 m s
  | .muleFlush m qmask => Sys2Proof.Machine.execMuleFlush m qmask s
  | .rds a pa => Sys2Proof.Machine.execRds a pa s
  | .rdo a pa => Sys2Proof.Machine.execRdo a pa s
  | .upg a pa => Sys2Proof.Machine.execUpg a pa s
  | .rdu a pa => Sys2Proof.Machine.execRdu a pa s
  | .wrl a pa => Sys2Proof.Machine.execWrl a pa s
  | .wrp a pa => Sys2Proof.Machine.execWrp a pa s
  | .wbd a pa => Sys2Proof.Machine.execWbd a pa s
  | .invn a pa => Sys2Proof.Machine.execInvn a pa s
  | .atm a pa => Sys2Proof.Machine.execAtm a pa s
  | .atmLineOp sl => Sys2Proof.Machine.execAtmLineOp sl s
  | .snpshr a pa hd => Sys2Proof.Machine.execSnpshr a pa hd s
  | .snpown a pa hd => Sys2Proof.Machine.execSnpown a pa hd s
  | .snpownhome a pa hd => Sys2Proof.Machine.execSnpownhome a pa hd s
  | .snpdata a pa hd => Sys2Proof.Machine.execSnpdata a pa hd s
  | .snpinv a pa hd => Sys2Proof.Machine.execSnpinv a pa hd s
  | .homeResetSnoop a pa hd => Sys2Proof.Machine.execHomeResetSnoop a pa hd s
  | .snoopResponse a pa => Sys2Proof.Machine.execSnoopResponse a pa s
  | .grant a pa => Sys2Proof.Machine.execGrant a pa s
  | .dat a pa => Sys2Proof.Machine.execDat a pa s
  | .stash a pa => Sys2Proof.Machine.execStash a pa s
  | .retryNack a pa => Sys2Proof.Machine.execRetryNack a pa s
  | .deadWalkDone sl => Sys2Proof.Machine.execDeadWalkDone sl s
  | .sliceScrub sl pa => Sys2Proof.Machine.execSliceScrub sl pa s
  | .scFlush sl => Sys2Proof.Machine.execScFlush sl s
  | .scFlushDone sl => Sys2Proof.Machine.execScFlushDone sl s
  | .hbmReadReturn pa cls e1 e2 e3 => Sys2Proof.Machine.execHbmReadReturn pa cls e1 e2 e3 s
  | .hbmWriteGroup b pc => Sys2Proof.Machine.execHbmWriteGroup b pc s
  | .hbmParityError pa isWrite okRepeat okAfter => Sys2Proof.Machine.execHbmParityError pa isWrite okRepeat okAfter s
  | .hbmRefresh b pc => Sys2Proof.Machine.execHbmRefresh b pc s
  | .hbmTempRead b temp => Sys2Proof.Machine.execHbmTempRead b temp s
  | .hbmScrubRead b pc e1 e2 e3 => Sys2Proof.Machine.execHbmScrubRead b pc e1 e2 e3 s
  | .retrainPeriod b pc => Sys2Proof.Machine.execRetrainPeriod b pc s
  | .retrainStart b pc => Sys2Proof.Machine.execRetrainStart b pc s
  | .retrainForced b pc => Sys2Proof.Machine.execRetrainForced b pc s
  | .retrainDone b pc ok => Sys2Proof.Machine.execRetrainDone b pc ok s
  | .retrainAll b => Sys2Proof.Machine.execRetrainAll b s
  | .cntClr b => Sys2Proof.Machine.execCntClr b s
  | .promotionStart => Sys2Proof.Machine.execPromotionStart s
  | .promoteHint page mule => Sys2Proof.Machine.execPromoteHint page mule s
  | .flashReadDone page unit ok chan => Sys2Proof.Machine.execFlashReadDone page unit ok chan s
  | .flashWriteDone page sub => Sys2Proof.Machine.execFlashWriteDone page sub s
  | .evictionStart => Sys2Proof.Machine.execEvictionStart s
  | .heatEpoch => Sys2Proof.Machine.execHeatEpoch s
  | .cleanAhead page sub => Sys2Proof.Machine.execCleanAhead page sub s
  | .budgetTick => Sys2Proof.Machine.execBudgetTick s
  | .stallLate k => Sys2Proof.Machine.execStallLate k s
  | .retentionScan page unit refresh => Sys2Proof.Machine.execRetentionScan page unit refresh s
  | .flashProgramFail spareBlocks low => Sys2Proof.Machine.execFlashProgramFail spareBlocks low s
  | .tierFlush => Sys2Proof.Machine.execTierFlush s
  | .tierFlushDone => Sys2Proof.Machine.execTierFlushDone s
  | .flitIdle l h => Sys2Proof.Machine.execFlitIdle l h s
  | .flitMsg l h m => Sys2Proof.Machine.execFlitMsg l h m s
  | .flitNak l h => Sys2Proof.Machine.execFlitNak l h s
  | .flitDisc l h p => Sys2Proof.Machine.execFlitDisc l h p s
  | .flitTopo l h r => Sys2Proof.Machine.execFlitTopo l h r s
  | .flitFail l h => Sys2Proof.Machine.execFlitFail l h s
  | .idleSend l => Sys2Proof.Machine.execIdleSend l s
  | .laneLockLoss l lane => Sys2Proof.Machine.execLaneLockLoss l lane s
  | .linkSilence l => Sys2Proof.Machine.execLinkSilence l s
  | .trainingDone l failed => Sys2Proof.Machine.execTrainingDone l failed s
  | .trainTimeout l => Sys2Proof.Machine.execTrainTimeout l s
  | .herdRetry p => Sys2Proof.Machine.execHerdRetry p s
  | .cablePresent p present => Sys2Proof.Machine.execCablePresent p present s
  | .linkRetrain l => Sys2Proof.Machine.execLinkRetrain l s
  | .holdDown l hold => Sys2Proof.Machine.execHoldDown l hold s
  | .topoTimer => Sys2Proof.Machine.execTopoTimer s
  | .routeCompute => Sys2Proof.Machine.execRouteCompute s
  | .herdRequest k => Sys2Proof.Machine.execHerdRequest k s
  | .herdResponse k => Sys2Proof.Machine.execHerdResponse k s
  | .herdResend m => Sys2Proof.Machine.execHerdResend m s
  | .attach granted => Sys2Proof.Machine.execAttach granted s
  | .mcastReceive p src dst group d => Sys2Proof.Machine.execMcastReceive p src dst group d s
  | .hostMemRequest op pa d mask poison => Sys2Proof.Machine.execHostMemRequest op pa d mask poison s
  | .hostSnoop op pa => Sys2Proof.Machine.execHostSnoop op pa s
  | .hostCompletion k d poison err => Sys2Proof.Machine.execHostCompletion k d poison err s
  | .peerRead off => Sys2Proof.Machine.execPeerRead off s
  | .peerWrite off d mask => Sys2Proof.Machine.execPeerWrite off d mask s
  | .windowFence a => Sys2Proof.Machine.execWindowFence a s
  | .uioRequest write pa d mask => Sys2Proof.Machine.execUioRequest write pa d mask s
  | .ringDoorbell r w => Sys2Proof.Machine.execRingDoorbell r w s
  | .ringSlotRead r => Sys2Proof.Machine.execRingSlotRead r s
  | .ringPoll r => Sys2Proof.Machine.execRingPoll r s
  | .ringNop r => Sys2Proof.Machine.execRingNop r s
  | .ringItem r => Sys2Proof.Machine.execRingItem r s
  | .ringMule r => Sys2Proof.Machine.execRingMule r s
  | .ringWrite r => Sys2Proof.Machine.execRingWrite r s
  | .ringSadd r => Sys2Proof.Machine.execRingSadd r s
  | .ringSwait r => Sys2Proof.Machine.execRingSwait r s
  | .ringPushRetry r => Sys2Proof.Machine.execRingPushRetry r s
  | .cqRecordWrite r => Sys2Proof.Machine.execCqRecordWrite r s
  | .cqHeadWrite r w => Sys2Proof.Machine.execCqHeadWrite r w s
  | .ringEnable r => Sys2Proof.Machine.execRingEnable r s
  | .ringDisable r => Sys2Proof.Machine.execRingDisable r s
  | .ringResume r => Sys2Proof.Machine.execRingResume r s
  | .bmeClear => Sys2Proof.Machine.execBmeClear s
  | .bmeSet => Sys2Proof.Machine.execBmeSet s
  | .hostPulse t w => Sys2Proof.Machine.execHostPulse t w s
  | .pulseTimeout t => Sys2Proof.Machine.execPulseTimeout t s
  | .linkLayerDown => Sys2Proof.Machine.execLinkLayerDown s
  | .perst => Sys2Proof.Machine.execPerst s
  | .detach => Sys2Proof.Machine.execDetach s
  | .detachDone => Sys2Proof.Machine.execDetachDone s
  | .replayDone => Sys2Proof.Machine.execReplayDone s
  | .fresh => Sys2Proof.Machine.execFresh s
  | .acoreLoad c pa size ty => Sys2Proof.Machine.execAcoreLoad c pa size ty s
  | .acoreStore c pa size ty v => Sys2Proof.Machine.execAcoreStore c pa size ty v s
  | .acoreIoAccess c pa size ty write v => Sys2Proof.Machine.execAcoreIoAccess c pa size ty write v s
  | .acoreAmo c pa dword ty op v => Sys2Proof.Machine.execAcoreAmo c pa dword ty op v s
  | .acoreLr c pa dword ty => Sys2Proof.Machine.execAcoreLr c pa dword ty s
  | .acoreSc c pa dword ty v => Sys2Proof.Machine.execAcoreSc c pa dword ty v s
  | .acoreFence c pred succ => Sys2Proof.Machine.execAcoreFence c pred succ s
  | .cboClean c pa ty => Sys2Proof.Machine.execCboClean c pa ty s
  | .cboFlush c pa ty => Sys2Proof.Machine.execCboFlush c pa ty s
  | .cboInval c pa ty => Sys2Proof.Machine.execCboInval c pa ty s
  | .cboZero c pa ty => Sys2Proof.Machine.execCboZero c pa ty s
  | .storeErr c => Sys2Proof.Machine.execStoreErr c s
  | .lostStore c => Sys2Proof.Machine.execLostStore c s
  | .targetClk v => Sys2Proof.Machine.execTargetClk v s
  | .cluster c v => Sys2Proof.Machine.execCluster c v s
  | .acoreClkDone => Sys2Proof.Machine.execAcoreClkDone s
  | .powerOnReset t => Sys2Proof.Machine.execPowerOnReset t s
  | .externalReset t low => Sys2Proof.Machine.execExternalReset t low s
  | .modResetRelease t => Sys2Proof.Machine.execModResetRelease t s
  | .swReset t => Sys2Proof.Machine.execSwReset t s
  | .killToken => Sys2Proof.Machine.execKillToken s
  | .stage0 t vin vbus => Sys2Proof.Machine.execStage0 t vin vbus s
  | .stage1 t f => Sys2Proof.Machine.execStage1 t f s
  | .stage2 t => Sys2Proof.Machine.execStage2 t s
  | .stage3 t bad => Sys2Proof.Machine.execStage3 t bad s
  | .stage4 t f0 f1 f2 f3 => Sys2Proof.Machine.execStage4 t f0 f1 f2 f3 s
  | .stage5 t f0 f1 f2 f3 => Sys2Proof.Machine.execStage5 t f0 f1 f2 f3 s
  | .stage6 t f => Sys2Proof.Machine.execStage6 t f s
  | .stage7 t => Sys2Proof.Machine.execStage7 t s
  | .stage8 t => Sys2Proof.Machine.execStage8 t s
  | .stage9 t => Sys2Proof.Machine.execStage9 t s
  | .fwRoundEnd missing => Sys2Proof.Machine.execFwRoundEnd missing s
  | .fwSend a => Sys2Proof.Machine.execFwSend a s
  | .restore => Sys2Proof.Machine.execRestore s
  | .restoreDone => Sys2Proof.Machine.execRestoreDone s
  | .quiesceDie die opt => Sys2Proof.Machine.execQuiesceDie die opt s
  | .flushDie die opt => Sys2Proof.Machine.execFlushDie die opt s
  | .resetDie die opt => Sys2Proof.Machine.execResetDie die opt s
  | .testDie die opt => Sys2Proof.Machine.execTestDie die opt s
  | .hbmUp die opt => Sys2Proof.Machine.execHbmUp die opt s
  | .loadFw die flock opt => Sys2Proof.Machine.execLoadFw die flock opt s
  | .rejoin die opt => Sys2Proof.Machine.execRejoin die opt s
  | .release die flock opt => Sys2Proof.Machine.execRelease die flock opt s
  | .addDie die opt => Sys2Proof.Machine.execAddDie die opt s
  | .flockOff die flock opt => Sys2Proof.Machine.execFlockOff die flock opt s
  | .flockOn die flock opt => Sys2Proof.Machine.execFlockOn die flock opt s
  | .svcStepDone t f => Sys2Proof.Machine.execSvcStepDone t f s
  | .voteSweep corrected failed => Sys2Proof.Machine.execVoteSweep corrected failed s
  | .dieFatalFault die => Sys2Proof.Machine.execDieFatalFault die s
  | .dieTempLimit die temp => Sys2Proof.Machine.execDieTempLimit die temp s
  | .mclkLoss t => Sys2Proof.Machine.execMclkLoss t s
  | .kerlyRefLoss t => Sys2Proof.Machine.execKerlyRefLoss t s
  | .meterHeartbeatMiss t => Sys2Proof.Machine.execMeterHeartbeatMiss t s
  | .regulatorFault t die => Sys2Proof.Machine.execRegulatorFault t die s
  | .cdieOverTemp t => Sys2Proof.Machine.execCdieOverTemp t s
  | .gooseRelease t cond => Sys2Proof.Machine.execGooseRelease t cond s
  | .heartbeatMiss t => Sys2Proof.Machine.execHeartbeatMiss t s
  | .goosePet t w => Sys2Proof.Machine.execGoosePet t w s
  | .glitch t => Sys2Proof.Machine.execGlitch t s
  | .entropyFail => Sys2Proof.Machine.execEntropyFail s
  | .recoveryWrite t s1 ah mh => Sys2Proof.Machine.execRecoveryWrite t s1 ah mh s
  | .rollbackCommit => Sys2Proof.Machine.execRollbackCommit s
  | .debugLock => Sys2Proof.Machine.execDebugLock s
  | .quoteDone => Sys2Proof.Machine.execQuoteDone s
  | .dropPacket die => Sys2Proof.Machine.execDropPacket die s
  | .mbxRead a b w => Sys2Proof.Machine.execMbxRead a b w s
  | .mbxWrite a b w => Sys2Proof.Machine.execMbxWrite a b w s
  | .mbxDone b => Sys2Proof.Machine.execMbxDone b s
  | .claim a b => Sys2Proof.Machine.execClaim a b s
  | .mbxRelease a b => Sys2Proof.Machine.execMbxRelease a b s
  | .shadowLowRead a off => Sys2Proof.Machine.execShadowLowRead a off s
  | .shadowHighRead a off => Sys2Proof.Machine.execShadowHighRead a off s
  | .swAlert v => Sys2Proof.Machine.execSwAlert v s
  | .counterClear a off w => Sys2Proof.Machine.execCounterClear a off w s
  | .regWrite a off w => Sys2Proof.Machine.execRegWrite a off w s
  | .vinBelowClear t vin => Sys2Proof.Machine.execVinBelowClear t vin s
  | .flockScrubRead f => Sys2Proof.Machine.execFlockScrubRead f s
  | .mcastSendDone => Sys2Proof.Machine.execMcastSendDone s
  | .cxlLinkUp width rate => Sys2Proof.Machine.execCxlLinkUp width rate s
  | .alwaysOnPowerLoss t => Sys2Proof.Machine.execAlwaysOnPowerLoss t s
  | .linkLocalTimeout => Sys2Proof.Machine.execLinkLocalTimeout s

end Machine
end Sys2Proof
end

