-- ==== Sys2Proof/Safety.lean ====
section
/-!
DEFINITION. What counts as a safe run, and the terms claims are stated in: the answer of a command, the turn of a Hen, the invariants of
the fuse bank (R560, R561, R566) and the canonical form of memory.
-/
namespace Sys2Proof
namespace Machine

/-- The step went on. -/
def Outcome.ok (o : Host.Outcome State Fault Refusal) : Prop := ∃ s, o = .next s

/-- The state in which the module has become `m` and the fuse bank has taken the writes that `m` still asks for; the queue stands. -/
def State.after (s : State) (m : Mach) : State := { s with fuses := settleFuses s.fuses m.blows, m := { m with blows := [] } }

/-- Command `c` answers a next state, in which the module has become `m`. -/
def Answers (c : Instr) (s : State) (m : Mach) : Prop := exec c s = .next (s.after m)

/-- Command `c` answers a next state with the queue as it was, whose module satisfies `P`. -/
def Runs (c : Instr) (s : State) (P : Mach → Prop) : Prop := ∃ t, exec c s = .next t ∧ t.pending = s.pending ∧ P t.m

/-- A write of the register at `off` is performed (R573): the module is out of reset, the die in service and the unit's domain ON. -/
def RegOpen (m : Mach) (off : Nat) : Prop := m.regReach off = true ∧ m.regDomainIs off .on = true

/-- The command writes the register at `off`: it answers a next state whose module is `m`, BAD_WRITE counted at most once (R574). -/
def Takes (c : Instr) (s : State) (off : Nat) (m : Mach) : Prop := Answers c s (s.m.countOnce m off)

/-- The Hen may issue (R202, R66), waits for nothing, and no imprecise exception or interrupt is taken first (R243). -/
def HenFree (m : Mach) (a : Nat) : Prop :=
  m.henLive a = true ∧ (m.hen a).wait = .none ∧ (m.henOpen a = true → (m.hen a).imp = none ∧ m.henIrqs a = 0)

/-- It is the Hen's turn and its fetch returns the word `w` (R181, R243); `n` is the module as the instruction finds it, with the fetch made
and an LR hold counted (R333). -/
def HenTurn (m : Mach) (a : Nat) (w : BitVec 32) (n : Mach) : Prop :=
  HenFree m a ∧ ∃ f, m.henFetch a = .word w f ∧ n = f.henHold a w

/-- A legal fuse bank: anti-rollback counters within their 64 steps (R560), at most four glitch fuses, the last of which zeroises
(R566). -/
def Fuses.Inv (f : Fuses) : Prop :=
  (∀ i, FMap.get 0 f.rollback i ≤ 63) ∧ f.glitches ≤ 4 ∧ (f.glitches = 4 → f.zeroised = true)

/-- What is fused stays fused: counters and the glitch fuses only rise, revocations, activations, zeroisation and the identity key
stay. -/
def Fuses.le (f g : Fuses) : Prop :=
  (∀ i, FMap.get 0 f.rollback i ≤ FMap.get 0 g.rollback i) ∧ f.glitches ≤ g.glitches ∧ (f.zeroised = true → g.zeroised = true)
    ∧ (∀ i : Fin 4, f.ownerRevoked.getLsbD i = true → g.ownerRevoked.getLsbD i = true)
    ∧ (∀ i : Fin 4, f.ownerActive.getLsbD i = true → g.ownerActive.getLsbD i = true)
    ∧ (∀ k, f.idPublic = some k → g.idPublic = some k)

/-- The state invariant: a legal fuse bank, and no fuse write left over from a command. -/
def State.Inv (s : State) : Prop := Fuses.Inv s.fuses ∧ s.m.blows = []

/-- Flock memory and HBM in their canonical form. -/
def Mach.memOk (m : Mach) : Prop := Memory.wf m.fm = true ∧ Memory.wf m.hbm = true

end Machine
end Sys2Proof
end

