-- ==== Sys2Proof/Certificates/Slice0/Obligations.lean ====
section
/-!
DEFINITION. The statements for the provers: what each command of the module does, taken from the numbered rules of the spec; what it
leaves alone; and the invariants that every step keeps.
-/
open Sys2Proof Sys2Proof.Machine

/-! ## The Hen: integer instructions, branches and jumps -/

namespace Sys2Proof.Claims

/-- Row of Table 7-3: with func field `f`, g[rd] becomes `r` of g[rs1] and g[rs2], and the Hen goes on at PC + 4. -/
def OpRow (c : HenId → BitVec 32 → Instr) (f : Nat) (r : Word → Word → Word) : Prop :=
  ∀ (h : HenId) (w : BitVec 32) (s : State) (n : Mach), HenTurn s.m h.agent w n → HenAlu.op w = 0x01 → HenAlu.func w = f →
    Answers (c h w) s ((n.setG h.agent (HenAlu.fA w) (r (n.g h.agent (HenAlu.fB w)) (n.g h.agent (HenAlu.fC w)))).henNext h.agent)

/-- The same with W = 1 (R208): the low 32 bits of each source, and the 32-bit result sign-extended. -/
def OpRowW (c : HenId → BitVec 32 → Instr) (f : Nat) (r : BitVec 32 → BitVec 32 → BitVec 32) : Prop :=
  OpRow c (f + 1024) fun x y => (r (x.setWidth 32) (y.setWidth 32)).signExtend 64

/-- The same for the counts of one source, whose rs2 is 0. -/
def OpRow1 (c : HenId → BitVec 32 → Instr) (f : Nat) (r : Word → Word) : Prop :=
  ∀ (h : HenId) (w : BitVec 32) (s : State) (n : Mach), HenTurn s.m h.agent w n → HenAlu.op w = 0x01 → HenAlu.func w = f →
    HenAlu.fC w = 0 → Answers (c h w) s ((n.setG h.agent (HenAlu.fA w) (r (n.g h.agent (HenAlu.fB w)))).henNext h.agent)

/-- 1 for true, 0 for false. -/
def flag (b : Prop) [Decidable b] : Word := if b then 1 else 0

/-- Rotation right by `k` bits. -/
def rotr {n : Nat} (x : BitVec n) (k : Nat) : BitVec n := (x >>> (k % n)) ||| (x <<< (n - k % n))

/-- The signed quotient rounded toward zero, and the remainder with the dividend's sign (R209). -/
def quot {n : Nat} (x y : BitVec n) : BitVec n := if y = 0 then BitVec.allOnes n else BitVec.ofInt n (Int.tdiv x.toInt y.toInt)
def rest {n : Nat} (x y : BitVec n) : BitVec n := if y = 0 then x else BitVec.ofInt n (Int.tmod x.toInt y.toInt)
def quotu {n : Nat} (x y : BitVec n) : BitVec n := if y = 0 then BitVec.allOnes n else BitVec.ofNat n (x.toNat / y.toNat)
def restu {n : Nat} (x y : BitVec n) : BitVec n := if y = 0 then x else BitVec.ofNat n (x.toNat % y.toNat)

end Sys2Proof.Claims
open Sys2Proof.Claims

/-- R208, Table 7-3: sums, bitwise operations, shifts and rotates, with their 32-bit forms. -/
def Sys2Proof.Claims.HenLogicAndShiftResults : Prop :=
  OpRow .henAdd 0 (fun x y => x + y) ∧ OpRowW .henAdd 0 (fun x y => x + y)
  ∧ OpRow .henSub 1 (fun x y => x - y) ∧ OpRowW .henSub 1 (fun x y => x - y)
  ∧ OpRow .henAnd 2 (fun x y => x &&& y)
  ∧ OpRow .henOr 3 (fun x y => x ||| y)
  ∧ OpRow .henXor 4 (fun x y => x ^^^ y)
  ∧ OpRow .henAndn 5 (fun x y => x &&& ~~~y)
  ∧ OpRow .henSll 6 (fun x y => x <<< (y.toNat % 64)) ∧ OpRowW .henSll 6 (fun x y => x <<< (y.toNat % 32))
  ∧ OpRow .henSrl 7 (fun x y => x >>> (y.toNat % 64)) ∧ OpRowW .henSrl 7 (fun x y => x >>> (y.toNat % 32))
  ∧ OpRow .henSra 8 (fun x y => x.sshiftRight (y.toNat % 64)) ∧ OpRowW .henSra 8 (fun x y => x.sshiftRight (y.toNat % 32))
  ∧ OpRow .henRor 9 (fun x y => rotr x y.toNat) ∧ OpRowW .henRor 9 (fun x y => rotr x y.toNat)

/-- R208, R209, Table 7-3: comparisons, minima and maxima, products, quotients and remainders, and counts. -/
def Sys2Proof.Claims.HenCompareMultiplyDivideResults : Prop :=
  OpRow .henSlt 10 (fun x y => flag (x.toInt < y.toInt))
  ∧ OpRow .henSltu 11 (fun x y => flag (x.toNat < y.toNat))
  ∧ OpRow .henMin 12 (fun x y => if x.toInt < y.toInt then x else y)
  ∧ OpRow .henMax 13 (fun x y => if x.toInt < y.toInt then y else x)
  ∧ OpRow .henMinu 14 (fun x y => if x.toNat < y.toNat then x else y)
  ∧ OpRow .henMaxu 15 (fun x y => if x.toNat < y.toNat then y else x)
  ∧ OpRow .henMul 16 (fun x y => x * y) ∧ OpRowW .henMul 16 (fun x y => x * y)
  ∧ OpRow .henMulh 17 (fun x y => BitVec.ofInt 64 (x.toInt * y.toInt / 2 ^ 64))
  ∧ OpRow .henMulhu 18 (fun x y => BitVec.ofNat 64 (x.toNat * y.toNat / 2 ^ 64))
  ∧ OpRow .henMulhsu 19 (fun x y => BitVec.ofInt 64 (x.toInt * y.toNat / 2 ^ 64))
  ∧ OpRow .henDiv 20 quot ∧ OpRowW .henDiv 20 quot
  ∧ OpRow .henDivu 21 quotu ∧ OpRowW .henDivu 21 quotu
  ∧ OpRow .henRem 22 rest ∧ OpRowW .henRem 22 rest
  ∧ OpRow .henRemu 23 restu ∧ OpRowW .henRemu 23 restu
  ∧ OpRow1 .henClz 24 (fun x => BitVec.ofNat 64 (if x = 0 then 64 else 63 - x.toNat.log2))
  ∧ OpRow1 .henCtz 25 (fun x => if x = 0 then 64 else BitVec.ofNat 64 (((List.range 64).find? fun i => x.getLsbD i).getD 64))
  ∧ OpRow1 .henPopc 26 (fun x => BitVec.ofNat 64 ((List.range 64).countP fun i => x.getLsbD i))

namespace Sys2Proof.Claims

/-- An immediate form of opcode `o`: g[rd] becomes `r` of g[rs1] and imm16, sign- or zero-extended (R207, R210). -/
def ImmRow (c : HenId → BitVec 32 → Instr) (o : Nat) (signed : Bool) (r : Word → Word → Word) : Prop :=
  ∀ (h : HenId) (w : BitVec 32) (s : State) (n : Mach), HenTurn s.m h.agent w n → HenAlu.op w = o →
    Answers (c h w) s ((n.setG h.agent (HenAlu.fA w)
      (r (n.g h.agent (HenAlu.fB w)) (if signed then (w.setWidth 16).signExtend 64 else (w.setWidth 16).setWidth 64))).henNext h.agent)

/-- SHI with imm16[7:6] = `k` (R210): the amount is imm16[5:0]; with W the low 32 bits are shifted by imm16[4:0]. -/
def ShiRow (k : Nat) (r : Word → Nat → Word) (rw : BitVec 32 → Nat → BitVec 32) : Prop :=
  ∀ (h : HenId) (w : BitVec 32) (s : State) (n : Mach), HenTurn s.m h.agent w n → HenAlu.op w = 0x0A → HenAlu.fld w 6 2 = k →
    HenAlu.fld w 9 7 = 0 →
    (HenAlu.fld w 8 1 = 0 → Answers (.henShi h w) s ((n.setG h.agent (HenAlu.fA w)
        (r (n.g h.agent (HenAlu.fB w)) (HenAlu.fld w 0 6))).henNext h.agent))
    ∧ (HenAlu.fld w 8 1 = 1 → HenAlu.fld w 5 1 = 0 → Answers (.henShi h w) s ((n.setG h.agent (HenAlu.fA w)
        ((rw ((n.g h.agent (HenAlu.fB w)).setWidth 32) (HenAlu.fld w 0 6)).signExtend 64)).henNext h.agent))

/-- IMZ and IMK with half-word `k` (R211): the bits of the half-word are imm16, the others 0 or kept. -/
def HalfRow (c : HenId → BitVec 32 → Instr) (o : Nat) (keep : Bool) : Prop :=
  ∀ (h : HenId) (w : BitVec 32) (s : State) (n : Mach) (k : Nat), HenTurn s.m h.agent w n → HenAlu.op w = o → HenAlu.fld w 16 3 = 0 →
    HenAlu.fld w 19 2 = k → ∃ v : Word, Answers (c h w) s ((n.setG h.agent (HenAlu.fA w) v).henNext h.agent)
      ∧ ∀ i < 64, v.getLsbD i = if 16 * k ≤ i ∧ i < 16 * k + 16 then w.getLsbD (i - 16 * k) else keep && (n.g h.agent (HenAlu.fA w)).getLsbD i

end Sys2Proof.Claims

/-- R207, R210, R211: the immediate forms: sums, comparisons and bitwise operations with imm16, shifts and rotates by an immediate, and the half-words
that IMZ and IMK write. Where the spec leaves the reading open, the clauses follow the model's choices: log entries 3, 23, 25, 58, 59, 198. -/
def Obligations.HenImmediateResults : Prop :=
  ImmRow .henAddi 0x02 true (fun x y => x + y)
  ∧ ImmRow .henAndi 0x03 false (fun x y => x &&& y)
  ∧ ImmRow .henOri 0x04 false (fun x y => x ||| y)
  ∧ ImmRow .henXori 0x05 false (fun x y => x ^^^ y)
  ∧ ImmRow .henSlti 0x06 true (fun x y => flag (x.toInt < y.toInt))
  ∧ ImmRow .henSltiu 0x07 true (fun x y => flag (x.toNat < y.toNat))
  ∧ ShiRow 0 (fun x k => x <<< k) (fun x k => x <<< k)
  ∧ ShiRow 1 (fun x k => x >>> k) (fun x k => x >>> k)
  ∧ ShiRow 2 (fun x k => x.sshiftRight k) (fun x k => x.sshiftRight k)
  ∧ ShiRow 3 (fun x k => rotr x k) (fun x k => rotr x k)
  ∧ HalfRow .henImz 0x08 false
  ∧ HalfRow .henImk 0x09 true

namespace Sys2Proof.Claims

/-- A control transfer of Hen `a` to `pc` completes: the PC takes the target modulo 2^56 and one instruction more has completed. -/
def goneTo (n : Mach) (a : Nat) (pc : BitVec 56) : Mach :=
  n.modHen a fun x => { x with pc := pc, instret := x.instret + 1, wait := .none, stallDeep := false }

/-- PC + off16 × 4, and PC + off26 × 4. -/
def rel16 (n : Mach) (a : Nat) (w : BitVec 32) : BitVec 56 := (n.hen a).pc + (w.setWidth 16).signExtend 56 * 4
def rel26 (n : Mach) (a : Nat) (w : BitVec 32) : BitVec 56 := (n.hen a).pc + (w.setWidth 26).signExtend 56 * 4

/-- A conditional branch of opcode `o` (R212): to PC + off16 where the comparison of g[rs1] with g[rs2] holds, else PC + 4. -/
def BranchRow (c : HenId → BitVec 32 → Instr) (o : Nat) (p : Word → Word → Prop) : Prop :=
  ∀ (h : HenId) (w : BitVec 32) (s : State) (n : Mach), HenTurn s.m h.agent w n → HenAlu.op w = o →
    (p (n.g h.agent (HenAlu.fA w)) (n.g h.agent (HenAlu.fB w)) → Answers (c h w) s (goneTo n h.agent (rel16 n h.agent w)))
    ∧ (¬ p (n.g h.agent (HenAlu.fA w)) (n.g h.agent (HenAlu.fB w)) → Answers (c h w) s (n.henNext h.agent))

end Sys2Proof.Claims

/-- R212, R213: branches and jumps. JALR takes its target from g[rs1] + imm16 with bits [1:0] cleared, before it writes g[rd]; a target with a bit of
[63:56] set raises FETCH_FAULT with ETVAL holding it. Where the spec leaves the reading open, the clauses follow the model's choices: log entries 3,
23, 25, 58, 59, 198. -/
def Obligations.HenBranchAndJumpTargets : Prop :=
  BranchRow .henBeq 0x28 (fun x y => x = y)
  ∧ BranchRow .henBne 0x29 (fun x y => x ≠ y)
  ∧ BranchRow .henBlt 0x2A (fun x y => x.toInt < y.toInt)
  ∧ BranchRow .henBge 0x2B (fun x y => y.toInt ≤ x.toInt)
  ∧ BranchRow .henBltu 0x2C (fun x y => x.toNat < y.toNat)
  ∧ BranchRow .henBgeu 0x2D (fun x y => y.toNat ≤ x.toNat)
  ∧ (∀ (h : HenId) (w : BitVec 32) (s : State) (n : Mach), HenTurn s.m h.agent w n → HenAlu.op w = 0x2E →
      Answers (.henJ h w) s (goneTo n h.agent (rel26 n h.agent w)))
  ∧ (∀ (h : HenId) (w : BitVec 32) (s : State) (n : Mach), HenTurn s.m h.agent w n → HenAlu.op w = 0x2F →
      Answers (.henJal h w) s (goneTo (n.setG h.agent 31 (((n.hen h.agent).pc + 4).setWidth 64)) h.agent (rel26 n h.agent w)))
  ∧ (∀ (h : HenId) (w : BitVec 32) (s : State) (n : Mach) (t : Word), HenTurn s.m h.agent w n → HenAlu.op w = 0x30 →
      t = (n.g h.agent (HenAlu.fB w) + (w.setWidth 16).signExtend 64) &&& ~~~3 →
      (t.toNat < 2 ^ 56 → Answers (.henJalr h w) s
        (goneTo (n.setG h.agent (HenAlu.fA w) (((n.hen h.agent).pc + 4).setWidth 64)) h.agent (t.setWidth 56)))
      ∧ (2 ^ 56 ≤ t.toNat → Answers (.henJalr h w) s (n.henRaise h.agent 3 t.toNat)))

/-- R208, R209, Table 7-3: sums, bitwise operations, shifts and rotates, with their 32-bit forms; comparisons, minima and maxima, products, quotients and
remainders, and counts. Where the spec leaves the reading open, the clauses follow the model's choices: log entries 3, 23, 25, 58, 59, 198. -/
def Obligations.HenRegisterResults : Prop := Claims.HenLogicAndShiftResults ∧ Claims.HenCompareMultiplyDivideResults
/-! ## The Hen: vectors and predicates -/

namespace Sys2Proof.Claims

/-- v[vd] takes a value whose elements of width `b` are `r i` where element i is active under p[pm], and stay as they were elsewhere (R221);
the Hen goes on at PC + 4. -/
def VecBecomes (c : HenId → BitVec 32 → Instr) (h : HenId) (w : BitVec 32) (s : State) (n : Mach) (b : Nat) (r : Nat → Nat) : Prop :=
  ∃ x : BitVec 512, Answers (c h w) s ((n.setV h.agent (HenAlu.fA w) x).henNext h.agent)
    ∧ ∀ i, i < 512 / b → HenAlu.elem x b i =
        if (n.p h.agent (HenAlu.fld w 8 3)).getLsbD (i * b / 8) then r i else HenAlu.elem (n.v h.agent (HenAlu.fA w)) b i

/-- A VOPF row (R223, Table 7-6): `r` of the numbers that the elements of vd, va and vb stand for, rounded once to the type (R191). -/
def FpRow (c : HenId → BitVec 32 → Instr) (f : Nat) (one : Bool) (r : Num → Num → Num → Num) : Prop :=
  ∀ (h : HenId) (w : BitVec 32) (s : State) (n : Mach) (t : Fmt), HenTurn s.m h.agent w n → HenAlu.op w = 0x22 → HenAlu.fld w 0 6 = f →
    HenAlu.fpType (HenAlu.fld w 6 2) = some t → (one = true → HenAlu.fC w = 0) →
    VecBecomes c h w s n t.bits fun i =>
      (convert t false .rne (r (t.decode (HenAlu.elem (n.v h.agent (HenAlu.fA w)) t.bits i))
        (t.decode (HenAlu.elem (n.v h.agent (HenAlu.fB w)) t.bits i))
        (t.decode (HenAlu.elem (n.v h.agent (HenAlu.fC w)) t.bits i)))).code % 2 ^ t.bits

/-- VEXP2, VRCP and VRSQ (R194): type 0, one source. HenAlu.approxElem gives the results that Table 6-6 fixes; the others are the free value
`approx`. -/
def ApproxRow (c : HenId → BitVec 32 → Instr) (f : Nat) (o : HenAlu.ApproxOp) (approx : BitVec 32 → BitVec 32) : Prop :=
  ∀ (h : HenId) (w : BitVec 32) (s : State) (n : Mach), HenTurn s.m h.agent w n → HenAlu.op w = 0x22 → HenAlu.fld w 0 6 = f →
    HenAlu.fld w 6 2 = 0 → HenAlu.fC w = 0 →
    VecBecomes c h w s n 32 fun i => HenAlu.approxElem o approx (HenAlu.elem (n.v h.agent (HenAlu.fB w)) 32 i) % 2 ^ 32

end Sys2Proof.Claims

/-- R191, R194, R223, R224: the vector floating-point operations act per active element. Where the spec leaves the reading open, the clauses follow the
model's choices: log entries 3, 23, 25, 58, 59, 198. -/
def Obligations.HenVectorFloatResults : Prop :=
  FpRow .henVadd 0 false (fun _ x y => Sys2Proof.Num.add x y)
  ∧ FpRow .henVsub 1 false (fun _ x y => Sys2Proof.Num.add x (Sys2Proof.Num.neg y))
  ∧ FpRow .henVmul 2 false (fun _ x y => Sys2Proof.Num.mul x y)
  ∧ FpRow .henVfma 3 false (fun d x y => Sys2Proof.Num.add d (Sys2Proof.Num.mul x y))
  ∧ FpRow .henVfms 4 false (fun d x y => Sys2Proof.Num.add d (Sys2Proof.Num.neg (Sys2Proof.Num.mul x y)))
  ∧ FpRow .henVmin 5 false (fun _ x y => HenAlu.fpMin x y)
  ∧ FpRow .henVmax 6 false (fun _ x y => HenAlu.fpMax x y)
  ∧ FpRow .henVabs 7 true (fun _ x _ => Sys2Proof.Num.abs x)
  ∧ FpRow .henVneg 8 true (fun _ x _ => Sys2Proof.Num.neg x)
  ∧ ApproxRow .henVexp2 16 .exp2 Config.vexp2
  ∧ ApproxRow .henVrcp 17 .rcp Config.vrcp
  ∧ ApproxRow .henVrsq 18 .rsq Config.vrsq
  ∧ ∀ (h : HenId) (w : BitVec 32) (s : State) (n : Mach), HenTurn s.m h.agent w n → HenAlu.op w = 0x22 → HenAlu.fld w 0 6 = 20 →
      VecBecomes .henVdot8 h w s n 32 fun i =>
        (accUpdate (BitVec.ofNat 32 (HenAlu.elem (n.v h.agent (HenAlu.fA w)) 32 i))
          [blockSum false
            ([0, 1, 2, 3].map fun k => (HenAlu.dotFmt (HenAlu.fld w 6 2)).1.decode (HenAlu.elem (n.v h.agent (HenAlu.fB w)) 8 (4 * i + k)))
            ([0, 1, 2, 3].map fun k => (HenAlu.dotFmt (HenAlu.fld w 6 2)).2.decode (HenAlu.elem (n.v h.agent (HenAlu.fC w)) 8 (4 * i + k)))
            0x7F 0x7F]).toNat

namespace Sys2Proof.Claims

/-- A VOPI row (R225, Table 7-7) on elements of 8 × 2^func[7:6] bits. -/
def IntRow (c : HenId → BitVec 32 → Instr) (f : Nat) (r : (b : Nat) → BitVec b → BitVec b → BitVec b) : Prop :=
  ∀ (h : HenId) (w : BitVec 32) (s : State) (n : Mach) (b : Nat), HenTurn s.m h.agent w n → HenAlu.op w = 0x23 → HenAlu.fld w 0 6 = f →
    b = 8 * 2 ^ HenAlu.fld w 6 2 →
    VecBecomes c h w s n b fun i => (r b (BitVec.ofNat b (HenAlu.elem (n.v h.agent (HenAlu.fB w)) b i))
      (BitVec.ofNat b (HenAlu.elem (n.v h.agent (HenAlu.fC w)) b i))).toNat

/-- A logic row of VOPI: it ignores the width, and acts by byte. -/
def LogicRow (c : HenId → BitVec 32 → Instr) (f : Nat) (r : BitVec 8 → BitVec 8 → BitVec 8) : Prop :=
  ∀ (h : HenId) (w : BitVec 32) (s : State) (n : Mach), HenTurn s.m h.agent w n → HenAlu.op w = 0x23 → HenAlu.fld w 0 6 = f →
    VecBecomes c h w s n 8 fun i => (r (BitVec.ofNat 8 (HenAlu.elem (n.v h.agent (HenAlu.fB w)) 8 i))
      (BitVec.ofNat 8 (HenAlu.elem (n.v h.agent (HenAlu.fC w)) 8 i))).toNat

end Sys2Proof.Claims

/-- R225, Table 7-7: the vector integer operations wrap modulo 2^w, shift by the vb element modulo w, and act per active element. Where the spec leaves
the reading open, the clauses follow the model's choices: log entries 3, 23, 25, 58, 59, 198. -/
def Obligations.HenVectorIntegerResults : Prop :=
  IntRow .henVopiVadd 0 (fun _ x y => x + y)
  ∧ IntRow .henVopiVsub 1 (fun _ x y => x - y)
  ∧ IntRow .henVopiVmul 2 (fun _ x y => x * y)
  ∧ IntRow .henVopiVmin 3 (fun _ x y => if x.toInt < y.toInt then x else y)
  ∧ IntRow .henVopiVmax 4 (fun _ x y => if x.toInt < y.toInt then y else x)
  ∧ IntRow .henVminu 5 (fun _ x y => if x.toNat < y.toNat then x else y)
  ∧ IntRow .henVmaxu 6 (fun _ x y => if x.toNat < y.toNat then y else x)
  ∧ LogicRow .henVand 8 (fun x y => x &&& y)
  ∧ LogicRow .henVor 9 (fun x y => x ||| y)
  ∧ LogicRow .henVxor 10 (fun x y => x ^^^ y)
  ∧ LogicRow .henVandn 11 (fun x y => x &&& ~~~y)
  ∧ IntRow .henVsll 12 (fun b x y => x <<< (y.toNat % b))
  ∧ IntRow .henVsrl 13 (fun b x y => x >>> (y.toNat % b))
  ∧ IntRow .henVsra 14 (fun b x y => x.sshiftRight (y.toNat % b))

namespace Sys2Proof.Claims

/-- A POP row (R227): p[rd] becomes `r` of the predicates rs1 and rs2, a write of p0 discarded. Predicate fields lie below 8. -/
def PredRow (c : HenId → BitVec 32 → Instr) (f : Nat) (one : Bool) (r : Word → Word → Word) : Prop :=
  ∀ (h : HenId) (w : BitVec 32) (s : State) (n : Mach), HenTurn s.m h.agent w n → HenAlu.op w = 0x31 → HenAlu.func w = f →
    HenAlu.fA w < 8 → HenAlu.fB w < 8 → (if one then HenAlu.fC w = 0 else HenAlu.fC w < 8) →
    Answers (c h w) s ((n.setP h.agent (HenAlu.fA w) (r (n.p h.agent (HenAlu.fB w)) (n.p h.agent (HenAlu.fC w)))).henNext h.agent)

/-- The conditions of VCMP on integer elements read as signed or unsigned (R226). -/
def intCond (b cond x y : Nat) : Prop :=
  let sx : Int := (BitVec.ofNat b x).toInt
  let sy : Int := (BitVec.ofNat b y).toInt
  match cond with
  | 0 => x = y
  | 1 => x ≠ y
  | 2 => sx < sy
  | 3 => sx ≤ sy
  | 4 => x < y
  | _ => x ≤ y

/-- The conditions of VCMP on floating-point elements: with a NaN only NE and UNORD are true. -/
def fpCond (t : Fmt) (cond x y : Nat) : Prop :=
  let nan := (t.decode x).isNan = true ∨ (t.decode y).isNan = true
  match cond with
  | 0 => Num.eq (t.decode x) (t.decode y) = true
  | 1 => Num.eq (t.decode x) (t.decode y) = false
  | 2 => Num.lt (t.decode x) (t.decode y) = true
  | 3 => Num.lt (t.decode x) (t.decode y) = true ∨ Num.eq (t.decode x) (t.decode y) = true
  | _ => nan

/-- VCMP writes p[vd] with a value whose bits of each element are the result of its comparison where it is active, else 0. -/
def CmpBecomes (h : HenId) (w : BitVec 32) (s : State) (n : Mach) (b : Nat) (p : Nat → Nat → Prop) : Prop :=
  ∃ x : Word, Answers (.henVcmp h w) s ((n.setP h.agent (HenAlu.fA w) x).henNext h.agent)
    ∧ ∀ i k, i < 512 / b → k < b / 8 → (x.getLsbD (i * (b / 8) + k) = true ↔
        ((n.p h.agent (HenAlu.fld w 8 3)).getLsbD (i * b / 8) = true
          ∧ p (HenAlu.elem (n.v h.agent (HenAlu.fB w)) b i) (HenAlu.elem (n.v h.agent (HenAlu.fC w)) b i)))

end Sys2Proof.Claims

/-- R226, R227: predicates. p0 reads all ones and a write to it is discarded; VCMP compares the active elements of its type. Where the spec leaves the
reading open, the clauses follow the model's choices: log entries 3, 23, 25, 58, 59, 198. -/
def Obligations.HenPredicateResults : Prop :=
  PredRow .henPand 0 false (fun x y => x &&& y)
  ∧ PredRow .henPor 1 false (fun x y => x ||| y)
  ∧ PredRow .henPxor 2 false (fun x y => x ^^^ y)
  ∧ PredRow .henPandn 3 false (fun x y => x &&& ~~~y)
  ∧ PredRow .henPnot 4 true (fun x _ => ~~~x)
  ∧ (∀ (h : HenId) (w : BitVec 32) (s : State) (n : Mach), HenTurn s.m h.agent w n → HenAlu.op w = 0x31 → HenAlu.func w = 8 →
      HenAlu.fA w < 8 → HenAlu.fC w = 0 →
      Answers (.henPmovg h w) s ((n.setP h.agent (HenAlu.fA w) (n.g h.agent (HenAlu.fB w))).henNext h.agent))
  ∧ (∀ (h : HenId) (w : BitVec 32) (s : State) (n : Mach), HenTurn s.m h.agent w n → HenAlu.op w = 0x31 → HenAlu.func w = 9 →
      HenAlu.fB w < 8 → HenAlu.fC w = 0 →
      Answers (.henGmovp h w) s ((n.setG h.agent (HenAlu.fA w) (n.p h.agent (HenAlu.fB w))).henNext h.agent))
  ∧ (∀ (h : HenId) (w : BitVec 32) (s : State) (n : Mach) (b : Nat), HenTurn s.m h.agent w n → HenAlu.op w = 0x27 → HenAlu.fA w < 8 →
      3 ≤ HenAlu.fld w 5 3 → HenAlu.fld w 5 3 < 7 → HenAlu.fld w 0 5 < 6 → b = 2 ^ HenAlu.fld w 5 3 →
      CmpBecomes h w s n b (intCond b (HenAlu.fld w 0 5)))
  ∧ (∀ (h : HenId) (w : BitVec 32) (s : State) (n : Mach) (t : Fmt), HenTurn s.m h.agent w n → HenAlu.op w = 0x27 → HenAlu.fA w < 8 →
      HenAlu.fpType (HenAlu.fld w 5 3) = some t → (HenAlu.fld w 0 5 ≤ 3 ∨ HenAlu.fld w 0 5 = 6) →
      CmpBecomes h w s n t.bits (fpCond t (HenAlu.fld w 0 5)))
  ∧ (∀ (m : Mach) (a : Nat) (x : Word), (m.setP a 0 x).p a 0 = BitVec.allOnes 64 ∧ m.setP a 0 x = m)

namespace Sys2Proof.Claims

/-- A VPERM row of width `b` = 8 × 2^func[7:6] with a vector destination (R228, Table 7-8). -/
def PermRow (c : HenId → BitVec 32 → Instr) (f : Nat) (w0 : Bool)
    (r : (b : Nat) → BitVec 512 → BitVec 512 → Word → Nat → Nat) : Prop :=
  ∀ (h : HenId) (w : BitVec 32) (s : State) (n : Mach) (b : Nat), HenTurn s.m h.agent w n → HenAlu.op w = 0x24 → HenAlu.fld w 0 6 = f →
    b = 8 * 2 ^ HenAlu.fld w 6 2 → (w0 = true → b = 8) →
    VecBecomes c h w s n b fun i => r b (n.v h.agent (HenAlu.fB w)) (n.v h.agent (HenAlu.fC w)) (n.g h.agent (HenAlu.fB w)) i

/-- The low 6 bits of each byte of `x`, packed from bit 0 up (R82). -/
def sixes (x : BitVec 512) : BitVec 512 := BitVec.ofNat 512 (((List.range 64).map fun j => HenAlu.elem x 8 j % 64 * 2 ^ (6 * j)).sum)

/-- VINS and VEXT (R228): pm is 0 and the index is g[vb] modulo the number of elements. -/
def insRow : Prop :=
  ∀ (h : HenId) (w : BitVec 32) (s : State) (n : Mach) (b : Nat), HenTurn s.m h.agent w n → HenAlu.op w = 0x24 → HenAlu.fld w 0 6 = 2 →
    b = 8 * 2 ^ HenAlu.fld w 6 2 → HenAlu.fld w 8 3 = 0 →
    ∃ x : BitVec 512, Answers (.henVins h w) s ((n.setV h.agent (HenAlu.fA w) x).henNext h.agent)
      ∧ ∀ i, i < 512 / b → HenAlu.elem x b i = if i = (n.g h.agent (HenAlu.fC w)).toNat % (512 / b) then (n.g h.agent (HenAlu.fB w)).toNat % 2 ^ b
          else HenAlu.elem (n.v h.agent (HenAlu.fA w)) b i
def extRow : Prop :=
  ∀ (h : HenId) (w : BitVec 32) (s : State) (n : Mach) (b : Nat), HenTurn s.m h.agent w n → HenAlu.op w = 0x24 → HenAlu.fld w 0 6 = 3 →
    b = 8 * 2 ^ HenAlu.fld w 6 2 → HenAlu.fld w 8 3 = 0 →
    Answers (.henVext h w) s ((n.setG h.agent (HenAlu.fA w)
      (BitVec.ofNat 64 (HenAlu.elem (n.v h.agent (HenAlu.fB w)) b ((n.g h.agent (HenAlu.fC w)).toNat % (512 / b))))).henNext h.agent)

/-- VSEL writes every element: from va where active and from vb elsewhere (R221, Table 7-8). -/
def selRow : Prop :=
  ∀ (h : HenId) (w : BitVec 32) (s : State) (n : Mach) (b : Nat), HenTurn s.m h.agent w n → HenAlu.op w = 0x24 → HenAlu.fld w 0 6 = 7 →
    b = 8 * 2 ^ HenAlu.fld w 6 2 →
    ∃ x : BitVec 512, Answers (.henVsel h w) s ((n.setV h.agent (HenAlu.fA w) x).henNext h.agent)
      ∧ ∀ i, i < 512 / b → HenAlu.elem x b i =
          if (n.p h.agent (HenAlu.fld w 8 3)).getLsbD (i * b / 8) then HenAlu.elem (n.v h.agent (HenAlu.fB w)) b i
          else HenAlu.elem (n.v h.agent (HenAlu.fC w)) b i

/-- A reduction of integer elements (R229): `r` over the active elements, each read as signed, sign-extended to 64 bits. -/
def RedRow (c : HenId → BitVec 32 → Instr) (f : Nat) (r : (b : Nat) → List Int → Int) : Prop :=
  ∀ (h : HenId) (w : BitVec 32) (s : State) (n : Mach) (b : Nat), HenTurn s.m h.agent w n → HenAlu.op w = 0x25 → HenAlu.fld w 0 5 = f →
    3 ≤ HenAlu.fld w 5 3 → HenAlu.fld w 5 3 < 7 → b = 2 ^ HenAlu.fld w 5 3 → HenAlu.fC w = 0 →
    Answers (c h w) s ((n.setG h.agent (HenAlu.fA w) (BitVec.ofInt 64 (r b
      (((List.range (512 / b)).filter fun i => (n.p h.agent (HenAlu.fld w 8 3)).getLsbD (i * b / 8)).map fun i =>
        (BitVec.ofNat b (HenAlu.elem (n.v h.agent (HenAlu.fB w)) b i)).toInt)))).henNext h.agent)

/-- A reduction of floating-point elements: the pairwise tree of R229 as HenAlu.vred computes it. -/
def FpRedRow (c : HenId → BitVec 32 → Instr) (f : Nat) : Prop :=
  ∀ (h : HenId) (w : BitVec 32) (s : State) (n : Mach), HenTurn s.m h.agent w n → HenAlu.op w = 0x25 → HenAlu.fld w 0 5 = f →
    HenAlu.fld w 5 3 < 3 → HenAlu.fC w = 0 →
    Answers (c h w) s ((n.setG h.agent (HenAlu.fA w)
      (HenAlu.vred f (HenAlu.fld w 5 3) (n.p h.agent (HenAlu.fld w 8 3)) (n.v h.agent (HenAlu.fB w)))).henNext h.agent)

end Sys2Proof.Claims

/-- R228, R229, R230: element moves, reductions and conversions. Where the spec leaves the reading open, the clauses follow the model's choices: log
entries 3, 23, 25, 58, 59, 72, 198. -/
def Obligations.HenPermuteReduceConvertResults : Prop :=
  PermRow .henVpermb 0 true (fun _ x y _ i => HenAlu.elem x 8 (HenAlu.elem y 8 i % 64))
  ∧ PermRow .henVbcast 1 false (fun b _ _ g _ => g.toNat % 2 ^ b)
  ∧ insRow ∧ extRow
  ∧ PermRow .henVzipl 4 false (fun b x y _ i => HenAlu.elem (if i % 2 = 0 then x else y) b (i / 2))
  ∧ PermRow .henVziph 5 false (fun b x y _ i => HenAlu.elem (if i % 2 = 0 then x else y) b (i / 2 + 512 / b / 2))
  ∧ PermRow .henVmov 6 false (fun b x _ _ i => HenAlu.elem x b i)
  ∧ selRow
  ∧ PermRow .henVunpk6 8 true (fun _ x _ _ i => HenAlu.elem x 6 i)
  ∧ PermRow .henVpk6 9 true (fun _ x _ _ i => HenAlu.elem (sixes x) 8 i)
  ∧ RedRow .henRsum 0 (fun _ l => l.sum)
  ∧ RedRow .henRmin 1 (fun b l => l.foldl min (2 ^ (b - 1) - 1))
  ∧ RedRow .henRmax 2 (fun b l => l.foldl max (-2 ^ (b - 1)))
  ∧ FpRedRow .henRsum 0 ∧ FpRedRow .henRmin 1 ∧ FpRedRow .henRmax 2
  ∧ (∀ (h : HenId) (w : BitVec 32) (s : State) (n : Mach) (f g : Fmt) (ws wd part k : Nat), HenTurn s.m h.agent w n → HenAlu.op w = 0x26 →
      HenAlu.fld w 0 1 = 0 → Fmt.ofSpec (HenAlu.fld w 11 4) false = some f → Fmt.ofSpec (HenAlu.fld w 4 4) false = some g →
      ws = HenAlu.cvtWidth (HenAlu.fld w 11 4) → wd = HenAlu.cvtWidth (HenAlu.fld w 4 4) → part = HenAlu.fld w 1 3 →
      part < max ws wd / min ws wd → k = 512 / max ws wd →
      VecBecomes .henVcvt h w s n wd fun i =>
        if wd ≤ ws then
          if part * k ≤ i ∧ i < part * k + k then
            (convert g (w.getLsbD 15) .rne (f.decode (HenAlu.elem (n.v h.agent (HenAlu.fB w)) ws (i - part * k)))).code % 2 ^ wd
          else HenAlu.elem (n.v h.agent (HenAlu.fA w)) wd i
        else (convert g (w.getLsbD 15) .rne (f.decode (HenAlu.elem (n.v h.agent (HenAlu.fB w)) ws (part * k + i)))).code % 2 ^ wd)

/-! ## The Hen: loads, stores, atomics, queues and caches -/

namespace Sys2Proof.Claims

/-- The bytes [`o` + `n` − 1 : `o`] of a line as a register value, sign- or zero-extended. -/
def lineValue (d : BitVec 512) (o n : Nat) (signed : Bool) : Word :=
  let v := (d >>> (8 * o)).setWidth (8 * n)
  if signed then v.signExtend 64 else v.setWidth 64

/-- g[rs1] + the sign-extended imm16. -/
def addrI (n : Mach) (a : Nat) (w : BitVec 32) : Word := n.g a (HenAlu.fB w) + (w.setWidth 16).signExtend 64

/-- A load of `b` bytes of opcode `o` (R214, R171, R178, Table 6-4) in each place where it completes at once: a NORMAL region's line that the
data cache holds good; flock memory that holds no latent error or poison; a store-buffer entry that holds every byte read. -/
def LoadRow (c : HenId → BitVec 32 → Instr) (o b : Nat) (signed : Bool) : Prop :=
  ∀ (h : HenId) (w : BitVec 32) (s : State) (n : Mach) (pa ty : Nat), HenTurn s.m h.agent w n → HenAlu.op w = o →
    pa = (addrI n h.agent w).toNat → pa % b = 0 → n.rgnAllow h.agent pa 0 = some ty → ty ≠ 2 →
    (∀ sa x, n.sbForward h.agent (n.lineOf pa) (byteMask (pa % 64) b) = none → n.target pa = .home sa → n.targetDead (.home sa) = false →
      n.targetHeld (.home sa) = false → ty = 0 → (n.hen h.agent).dcEn = true → (n.hen h.agent).find (sa / 64) = some x → x.bad = false →
      x.poison = false →
      Answers (c h w) s (((n.henHit h.agent (sa / 64) 0).setG h.agent (HenAlu.fA w) (lineValue x.data (pa % 64) b signed)).henNext h.agent))
    ∧ (∀ fb fpa, n.sbForward h.agent (n.lineOf pa) (byteMask (pa % 64) b) = none → n.target pa = .flock fb fpa →
      n.targetDead (.flock fb fpa) = false → n.targetHeld (.flock fb fpa) = false → FMap.get 0 n.fmUpset (pa / 64) = 0 →
      FMap.get false n.fmPoison (pa / 64) = false → (∀ x ∈ (n.hen h.agent).crossing, x.line ≠ pa / 64) →
      Answers (c h w) s ((n.setG h.agent (HenAlu.fA w) (lineValue (Memory.line n.fm (pa / 64)) (pa % 64) b signed)).henNext h.agent))
    ∧ (∀ e, n.sbForward h.agent (n.lineOf pa) (byteMask (pa % 64) b) = some e → e.mask &&& byteMask (pa % 64) b = byteMask (pa % 64) b →
      Answers (c h w) s ((n.setG h.agent (HenAlu.fA w) (lineValue e.data (pa % 64) b signed)).henNext h.agent))

end Sys2Proof.Claims

/-- R214, R178, R220, R222: loads read the bytes at g[rs1] + imm16 and extend them; VLD writes the active bytes of v[vd]. Where the spec leaves the
reading open, the clauses follow the model's choices: log entries 3, 23, 25, 58, 59, 63, 68, 196, 198. -/
def Obligations.HenLoadResults : Prop :=
  LoadRow .henLb 0x10 1 true ∧ LoadRow .henLbu 0x11 1 false ∧ LoadRow .henLh 0x12 2 true ∧ LoadRow .henLhu 0x13 2 false
  ∧ LoadRow .henLw 0x14 4 true ∧ LoadRow .henLwu 0x15 4 false ∧ LoadRow .henLd 0x16 8 false
  ∧ (∀ (h : HenId) (w : BitVec 32) (s : State) (n : Mach) (pa : Nat) (mask : BitVec 64) (fb fpa : Nat), HenTurn s.m h.agent w n →
      HenAlu.op w = 0x20 → pa = (n.g h.agent (HenAlu.fB w) + (w.setWidth 13).signExtend 64 * 64).toNat →
      mask = n.p h.agent (HenAlu.fld w 13 3) → mask ≠ 0 → pa % 64 = 0 → n.rgnAllow h.agent pa 0 = some 0 →
      n.sbForward h.agent (n.lineOf pa) mask = none → n.target pa = .flock fb fpa → n.targetDead (.flock fb fpa) = false →
      n.targetHeld (.flock fb fpa) = false → FMap.get 0 n.fmUpset (pa / 64) = 0 → FMap.get false n.fmPoison (pa / 64) = false →
      (∀ x ∈ (n.hen h.agent).crossing, x.line ≠ pa / 64) →
      Answers (.henVld h w) s ((n.setV h.agent (HenAlu.fA w)
        (mergeLine (n.v h.agent (HenAlu.fA w)) (Memory.line n.fm (pa / 64)) mask)).henNext h.agent))

namespace Sys2Proof.Claims

/-- The line address a store names, where it is not the storage line: the view by which the Hen reaches it (R326). -/
def viewOf (n : Mach) (pa : Nat) : Option Nat := if n.lineOf pa = pa / 64 then none else some (pa / 64)

/-- The store enters the store buffer (R176): its entry merges into the youngest one for its line that has not begun to retire, else it is
a new one; a reservation in the line is lost (R332), and the Hen goes on. -/
def buffered (n : Mach) (a : Nat) (e : SbEntry) : Mach :=
  (((n.modHen a fun x => { x with stallSb := false }).sbPut a e).clearOwnResv a e.line).henNext a

/-- A store of `b` bytes of opcode `o` in a NORMAL or UNCACHED region outside device register space, with room in the store buffer. -/
def StoreRow (c : HenId → BitVec 32 → Instr) (o b : Nat) : Prop :=
  ∀ (h : HenId) (w : BitVec 32) (s : State) (n : Mach) (pa ty : Nat), HenTurn s.m h.agent w n → HenAlu.op w = o →
    pa = (addrI n h.agent w).toNat → pa % b = 0 → n.rgnAllow h.agent pa 1 = some ty → ty ≠ 2 → (∀ off, n.target pa ≠ .dev off) →
    n.sbFull h.agent (n.lineOf pa) = false →
    Answers (c h w) s (buffered n h.agent
      { line := n.lineOf pa, mask := byteMask (pa % 64) b, uncached := decide (ty ≠ 0), view := viewOf n pa,
        data := placeField ((n.g h.agent (HenAlu.fA w)).toNat % 2 ^ (8 * b)) (pa % 64) })

end Sys2Proof.Claims

/-- R214, R216, R222, R176: stores put the low bytes of g[rs2], or the active bytes of v[vs], into the store buffer; STH carries its hint where the target
is another flock's Hen or a slice. Where the spec leaves the reading open, the clauses follow the model's choices: log entries 3, 23, 24, 25, 58, 59,
62, 63, 64, 68, 69, 198. -/
def Obligations.HenStoreEntersBuffer : Prop :=
  StoreRow .henSb 0x1A 1 ∧ StoreRow .henSh 0x1B 2 ∧ StoreRow .henSw 0x1C 4 ∧ StoreRow .henSd 0x1D 8
  ∧ (∀ (h : HenId) (w : BitVec 32) (s : State) (n : Mach) (pa ty : Nat) (mask : BitVec 64), HenTurn s.m h.agent w n → HenAlu.op w = 0x21 →
      pa = (n.g h.agent (HenAlu.fB w) + (w.setWidth 13).signExtend 64 * 64).toNat → pa % 64 = 0 → n.rgnAllow h.agent pa 1 = some ty →
      ty ≠ 2 → (∀ off, n.target pa ≠ .dev off) → mask = n.p h.agent (HenAlu.fld w 13 3) → mask ≠ 0 →
      n.sbFull h.agent (n.lineOf pa) = false →
      Answers (.henVst h w) s (buffered n h.agent
        { line := n.lineOf pa, mask := mask, uncached := decide (ty ≠ 0), view := viewOf n pa, data := n.v h.agent (HenAlu.fA w) }))
  ∧ (∀ (h : HenId) (w : BitVec 32) (s : State) (n : Mach) (pa b t : Nat), HenTurn s.m h.agent w n → HenAlu.op w = 0x1E →
      HenAlu.fld w 0 5 = 0 → HenAlu.fld w 8 1 = 0 → HenAlu.fld w 5 3 = 0 → b = 2 ^ HenAlu.fld w 9 2 → pa = (n.g h.agent (HenAlu.fB w)).toNat →
      pa % b = 0 → n.rgnAllow h.agent pa 1 = some 0 → (∀ off, n.target pa ≠ .dev off) → t = (n.g h.agent (HenAlu.fC w)).toNat % 8192 →
      n.sbFull h.agent (n.lineOf pa) = false →
      Answers (.henSth h w) s (buffered n h.agent
        { line := n.lineOf pa, mask := byteMask (pa % 64) b, uncached := false, view := viewOf n pa,
          data := placeField ((n.g h.agent (HenAlu.fA w)).toNat % 2 ^ (8 * b)) (pa % 64),
          hint := if (isHen t = true ∧ isFlockAgent t = true ∧ t ≠ h.agent) ∨ isSlice t = true then some t else none }))

namespace Sys2Proof.Claims

/-- An atomic instruction's address is one that R171, R172 and R218 allow: aligned, in an UNCACHED or NORMAL region with read and write
permission, on HBM or the deep window, whose home is in service; no store-buffer entry or request of the Hen for the line is outstanding. -/
def AtomOk (n : Mach) (a pa b sa : Nat) : Prop :=
  pa % b = 0 ∧ (∃ ty, n.rgnAllow a pa 0 = some ty ∧ ty ≠ 2) ∧ (n.rgnAllow a pa 1).isSome = true ∧ Mach.atomHere pa = true ∧ n.target pa = .home sa
    ∧ n.targetDead (.home sa) = false ∧ n.targetHeld (.home sa) = false ∧ n.sbHas a (sa / 64) = false ∧ n.henAsked a (sa / 64) = false

/-- An AMO or CAS of func[10:6] = `op` asks its home slice (R217, R218, R362): the operation, SIZE, operand g[rs2] and, for CAS, g[rd] wait
there with the issue stamp, and the Hen waits for the value it returns. -/
def AmoRow (c : HenId → BitVec 32 → Instr) (op : Nat) : Prop :=
  ∀ (h : HenId) (w : BitVec 32) (s : State) (n : Mach) (pa z sa : Nat), HenTurn s.m h.agent w n → HenAlu.op w = 0x18 → HenAlu.fld w 0 4 = 0 →
    HenAlu.fld w 6 5 = op → HenAlu.fld w 4 2 = z → (z = 2 ∨ z = 3 ∧ op ≠ 12) → pa = (n.g h.agent (HenAlu.fB w)).toNat →
    AtomOk n h.agent pa (2 ^ z) sa →
    Answers (c h w) s ((n.modSlice (homeSlice (64 * (sa / 64))) fun x => { x with waiting := x.waiting ++
        [{ agent := h.agent, line := sa / 64, code := 4 * op + z, off := pa % 64, arg := (n.g h.agent (HenAlu.fC w)).setWidth 512,
           cmp := n.g h.agent (HenAlu.fA w), mask := byteMask (pa % 64) (2 ^ z), stamp := n.now % 65536 }] }).modHen h.agent
      fun x => { x with wait := .amo (HenAlu.fA w) pa (2 ^ z) })

end Sys2Proof.Claims

/-- R217, R218, R330 to R332, R362: atomics. LR on a line the data cache owns reads it and sets the reservation on the granule of GRAN; SC with a
reservation writes its line there, clears the reservation and returns 0, and without one writes nothing and returns 1; an AMO or CAS is sent to the
home slice; LVOL asks the home for a read of its own. Where the spec leaves the reading open, the clauses follow the model's choices: log entries 3,
23, 25, 58, 59, 64, 67, 99, 112, 198. -/
def Obligations.HenAtomicRequests : Prop :=
  AmoRow .henSwap 2 ∧ AmoRow .henAadd 3 ∧ AmoRow .henAand 4 ∧ AmoRow .henAor 5 ∧ AmoRow .henAxor 6 ∧ AmoRow .henAmin 7 ∧ AmoRow .henAmax 8
  ∧ AmoRow .henAminu 9 ∧ AmoRow .henAmaxu 10 ∧ AmoRow .henCas 11 ∧ AmoRow .henFadd 12
  ∧ (∀ (h : HenId) (w : BitVec 32) (s : State) (n : Mach) (pa z sa : Nat) (x : CacheLine), HenTurn s.m h.agent w n → HenAlu.op w = 0x18 →
      HenAlu.fld w 0 4 = 0 → HenAlu.fld w 6 5 = 0 → HenAlu.fC w = 0 → HenAlu.fld w 4 2 = z → (z = 2 ∨ z = 3) →
      pa = (n.g h.agent (HenAlu.fB w)).toNat → AtomOk n h.agent pa (2 ^ z) sa → n.rgnAllow h.agent pa 0 = some 0 →
      n.sbGranule h.agent pa = false → (n.hen h.agent).dcEn = true → (n.hen h.agent).find (sa / 64) = some x → x.bad = false →
      x.poison = false → x.st ≠ .s →
      ∀ q, q = ((n.henHit h.agent (sa / 64) 0).setG h.agent (HenAlu.fA w) (lineValue x.data (pa % 64) (2 ^ z) true)).henNext h.agent →
      Answers (.henLr h w) s (q.modHen h.agent fun y =>
        { y with resv := some { lines := q.granule h.agent pa, cached := true },
                 hold := if (q.hen h.agent).gran = 0 then some { count := 0, since := q.holdStamp h.agent } else none }))
  ∧ (∀ (h : HenId) (w : BitVec 32) (s : State) (n : Mach) (pa z sa : Nat), HenTurn s.m h.agent w n → HenAlu.op w = 0x18 →
      HenAlu.fld w 0 4 = 0 → HenAlu.fld w 6 5 = 1 → HenAlu.fld w 4 2 = z → (z = 2 ∨ z = 3) → pa = (n.g h.agent (HenAlu.fB w)).toNat →
      pa % 2 ^ z = 0 → (∃ ty, n.rgnAllow h.agent pa 1 = some ty ∧ ty ≠ 2) → Mach.atomHere pa = true → n.target pa = .home sa →
      n.targetDead (.home sa) = false → (n.hen h.agent).resv = none →
      Answers (.henSc h w) s (((n.modHen h.agent fun y => { y with resv := none, hold := none }).setG h.agent (HenAlu.fA w) 1).henNext h.agent))
  ∧ (∀ (h : HenId) (w : BitVec 32) (s : State) (n q : Mach) (pa z sa : Nat) (x y : CacheLine), HenTurn s.m h.agent w n → HenAlu.op w = 0x18 →
      HenAlu.fld w 0 4 = 0 → HenAlu.fld w 6 5 = 1 → HenAlu.fld w 4 2 = z → (z = 2 ∨ z = 3) → pa = (n.g h.agent (HenAlu.fB w)).toNat →
      pa % 2 ^ z = 0 → n.rgnAllow h.agent pa 1 = some 0 → Mach.atomHere pa = true → n.target pa = .home sa →
      n.resvOn h.agent (sa / 64) = true → n.sbHas h.agent (sa / 64) = false → (n.hen h.agent).dcEn = true →
      (n.hen h.agent).find (sa / 64) = some x → x.bad = false → x.st ≠ .s →
      y = { x with st := .m, data := mergeLine x.data (placeField ((n.g h.agent (HenAlu.fC w)).toNat % 2 ^ (8 * 2 ^ z)) (pa % 64)) (byteMask (pa % 64) (2 ^ z)) } →
      q = ((((n.modHen h.agent fun u => { u with resv := none, hold := none }).henHit h.agent (sa / 64) 0).modHen h.agent
            fun u => u.update (sa / 64) (some y)).clearResv (some h.agent) (sa / 64)) →
      exec (.henSc h w) s = .next (s.after ((q.setG h.agent (HenAlu.fA w) 0).henNext h.agent)))
  ∧ (∀ (h : HenId) (w : BitVec 32) (s : State) (n : Mach) (pa z sa : Nat), HenTurn s.m h.agent w n → HenAlu.op w = 0x18 →
      HenAlu.fld w 0 4 = 0 → HenAlu.fld w 6 5 = 16 → HenAlu.fC w = 0 → HenAlu.fld w 4 2 = z → pa = (n.g h.agent (HenAlu.fB w)).toNat →
      AtomOk n h.agent pa (2 ^ z) sa → n.sbForward h.agent (n.lineOf pa) (byteMask (pa % 64) (2 ^ z)) = none →
      Answers (.henLvol h w) s ((n.modCoh fun y => { y with reqs := y.reqs ++
        [{ kind := .rdu, agent := h.agent, line := sa / 64, sector := true, upper := pa / 32 % 2 == 1 }] }).modHen h.agent
        fun y => { y with wait := .load (HenAlu.fA w) pa (2 ^ z) false false 0 false false }))

namespace Sys2Proof.Claims

/-- The Hen's caches (R181 to R187): line `l` held clean or dirty, without a latent parity error. -/
def HeldGood (n : Mach) (a l : Nat) (x : CacheLine) : Prop := (n.hen a).find l = some x ∧ x.bad = false

/-- What DC.CLEAN leaves of a held line: a dirty line is written back, and the Hen keeps E. -/
def cleaned (n : Mach) (a l : Nat) (x : CacheLine) : Mach :=
  if x.st = .m then
    (n.modCoh fun c => { c with wbs := c.wbs ++ [{ agent := a, line := x.line, data := x.data, poison := x.poison, keep := true }] }).modHen a
      fun y => y.update l (some { x with st := .e })
  else n

/-- What DC.FLUSH leaves: the copy is gone, a reservation of its line in the data cache with it (R332), and dirty data is on its way home. -/
def flushed (n : Mach) (a l : Nat) (x : CacheLine) : Mach :=
  let m := (n.modHen a fun y => y.update l none).lineLeft a x.line
  if x.st = .m then m.modCoh fun c => { c with wbs := c.wbs ++ [{ agent := a, line := x.line, data := x.data, poison := x.poison, keep := false }] }
  else m

/-- What DC.INV leaves: the copy is gone and its data with it; the home is told where it was dirty (R238). -/
def dropped (n : Mach) (a l : Nat) (x : CacheLine) : Mach :=
  let m := (n.modHen a fun y => y.update l none).lineLeft a l
  if x.st = .m then m.modCoh fun c => { c with wbs := c.wbs ++ [{ agent := a, line := l, data := 0, poison := false, keep := false, invn := true }] }
  else m

/-- An address operation of CMO with func `f` on a held line of a NORMAL region (R235, R236). -/
def CmoRow (c : HenId → BitVec 32 → Instr) (f : Nat) (firmware : Bool) (r : Mach → Nat → Nat → CacheLine → Mach) : Prop :=
  ∀ (h : HenId) (w : BitVec 32) (s : State) (n : Mach) (pa sa : Nat) (x : CacheLine), HenTurn s.m h.agent w n → HenAlu.op w = 0x3D →
    HenAlu.func w = f → HenAlu.fA w = 0 → HenAlu.fC w = 0 → (firmware = true → (n.hen h.agent).priv = true) → (n.hen h.agent).state = .running →
    pa = (n.g h.agent (HenAlu.fB w)).toNat → n.rgnAllow h.agent pa 0 = some 0 → n.target pa = .home sa → n.sbHas h.agent (sa / 64) = false →
    HeldGood n h.agent (sa / 64) x → Answers (c h w) s ((r n h.agent (sa / 64) x).henNext h.agent)

/-- A set-and-way operation (R237): set [7:0] and way [9:8], or with bit 10 the victim cache's entry [2:0]. -/
def CmoSwRow (c : HenId → BitVec 32 → Instr) (f : Nat) (r : Mach → Nat → Nat → CacheLine → Mach) : Prop :=
  ∀ (h : HenId) (w : BitVec 32) (s : State) (n : Mach) (v : Word) (x : CacheLine), HenTurn s.m h.agent w n → HenAlu.op w = 0x3D →
    HenAlu.func w = f → HenAlu.fA w = 0 → HenAlu.fC w = 0 → (n.hen h.agent).priv = true → (n.hen h.agent).state = .running →
    v = n.g h.agent (HenAlu.fB w) →
    ((v.getLsbD 10 = false ∧ (FMap.get {} (n.hen h.agent).dc (v.toNat % 256)).way (Fin.ofNat 4 (v.toNat / 256)) = some x)
      ∨ (v.getLsbD 10 = true ∧ (n.hen h.agent).vcEntry v.toNat = some x)) → HeldGood n h.agent x.line x →
    Answers (c h w) s ((r n h.agent x.line x).henNext h.agent)

end Sys2Proof.Claims

/-- R181, R185, R235 to R238: cache maintenance. DC.PF asks for a line that the Hen may read and does not hold, and a line it holds is a hit of the
pipeline; IC.INV, with the store buffer drained, empties the instruction cache. Where the spec leaves the reading open, the clauses follow the model's
choices: log entries 3, 23, 25, 58, 59, 99, 112, 198. -/
def Obligations.HenCacheMaintenanceEffects : Prop :=
  CmoRow .henDcClean 0 false cleaned ∧ CmoRow .henDcFlush 1 false flushed ∧ CmoRow .henDcInv 2 true dropped
  ∧ CmoSwRow .henDcCleanSw 4 cleaned ∧ CmoSwRow .henDcFlushSw 5 flushed ∧ CmoSwRow .henDcInvSw 6 dropped
  ∧ (∀ (h : HenId) (w : BitVec 32) (s : State) (n : Mach) (pa sa : Nat), HenTurn s.m h.agent w n → HenAlu.op w = 0x3D → HenAlu.func w = 3 →
      HenAlu.fA w = 0 → HenAlu.fC w = 0 → pa = (n.g h.agent (HenAlu.fB w)).toNat → n.rgnAllow h.agent pa 0 = some 0 → n.target pa = .home sa →
      (n.hen h.agent).dcEn = true →
      (n.targetDead (.home sa) = false → (n.hen h.agent).find (sa / 64) = none → n.henAsked h.agent (sa / 64) = false →
        Answers (.henDcPf h w) s ((n.modCoh fun c =>
          { c with reqs := c.reqs ++ [{ kind := .rds, agent := h.agent, line := sa / 64, prefetch := true }] }).henNext h.agent))
      ∧ (∀ (x : CacheLine) (i : Fin 4), HeldGood n h.agent (sa / 64) x → ((n.hen h.agent).set (sa / 64)).find (sa / 64) = some i →
          Answers (.henDcPf h w) s ((n.modHen h.agent fun y => y.setSet (sa / 64) ((y.set (sa / 64)).touch i)).henNext h.agent))
      ∧ (∀ x : CacheLine, HeldGood n h.agent (sa / 64) x → Answers (.henDcPf h w) s ((n.henHit h.agent (sa / 64) 0).henEnd h.agent)))
  ∧ (∀ (h : HenId) (w : BitVec 32) (s : State) (n : Mach), HenTurn s.m h.agent w n → HenAlu.op w = 0x3D → HenAlu.func w = 8 →
      HenAlu.fA w = 0 → HenAlu.fB w = 0 → HenAlu.fC w = 0 → (n.hen h.agent).priv = true → (n.hen h.agent).sb = [] →
      Answers (.henIcInv h w) s ((n.modHen h.agent fun y => { y with ic := [], icSets := [], icBad := [] }).henNext h.agent))

namespace Sys2Proof.Claims

/-- A sync identifier that names object `i` of A-die A`d` of this module, in service (R17, R233). -/
def NamesHere (n : Mach) (x : Word) (d i : Nat) : Prop :=
  d < 4 ∧ x.toNat / 4096 % 8 = d + 1 ∧ i = x.toNat % 4096 ∧ n.dieOut d = false
    ∧ (x.toNat / 32768 % 512 = 511 ∨ (n.herd.attached = true ∧ x.toNat / 32768 % 512 = n.herd.module.toNat))

/-- Every write of the Hen that a release at `scope` covers has landed, and its store buffer is empty (R234, R337). -/
def Released (n : Mach) (a scope : Nat) : Prop := (n.hen a).sb = [] ∧ n.covered a scope = true

end Sys2Proof.Claims

/-- R231 to R234, R281, R282: queue pushes and sync operations. MPUSH and CPUSH hand the vector register to a unit in service with room, and return 0;
SADD adds as a release and returns the count before it; SWAIT enters a wait that the count satisfies only by reaching its threshold; SREAD returns the
count. CPUSH with ORD = 1 takes priority 0 alone. Where the spec leaves the reading open, the clauses follow the model's choices: log entries 3, 23,
25, 58, 59, 63, 71, 87, 198. -/
def Obligations.HenPushAndSyncEffects : Prop :=
  (∀ (h : HenId) (w : BitVec 32) (s : State) (n : Mach) (x : Word) (a q : Nat), HenTurn s.m h.agent w n → HenAlu.op w = 0x3C →
      HenAlu.func w = 0 → x = n.g h.agent (HenAlu.fB w) → a = x.toNat % 8192 → q = x.toNat / 8192 % 4 → isMule a = true →
      (n.mule a).state = .running → n.muleOn a = true → ¬ (q = 3 ∧ n.collieQueue a = true) →
      ((n.mule a).descs.filter fun d => d.queue == q).length < 64 →
      Answers (.henMpush h w) s (((n.muleAppend a q (n.v h.agent (HenAlu.fC w)) none).setG h.agent (HenAlu.fA w) 0).henNext h.agent))
  ∧ (∀ (h : HenId) (w : BitVec 32) (s : State) (n : Mach) (x : Word) (a : Nat), HenTurn s.m h.agent w n → HenAlu.op w = 0x3C →
      HenAlu.func w = 0 → x = n.g h.agent (HenAlu.fB w) → a = x.toNat % 8192 → isMule a = true → (n.mule a).state ≠ .running →
      Answers (.henMpush h w) s ((n.setG h.agent (HenAlu.fA w) 2).henNext h.agent))
  ∧ (∀ (h : HenId) (w : BitVec 32) (s : State) (n : Mach) (x : Word) (fb : Nat) (i : PoolItem), HenTurn s.m h.agent w n → HenAlu.op w = 0x3C →
      HenAlu.func w = 1 → x = n.g h.agent (HenAlu.fB w) → isCollie (x.toNat % 8192) = true → fb = flockOf (x.toNat % 8192) →
      n.flockEnabled fb = true → (n.collie fb).state = .running → n.flockOn fb = true → (n.die (agentDie fb - 1)).dead = false →
      (n.collie fb).pool.length < 1024 →
      (x.getLsbD 15 = true → x.toNat / 8192 % 4 = 0 ∧ ((n.collie fb).pool.filter fun j => j.queue == 4).length < 64) →
      n.badItem (n.v h.agent (HenAlu.fC w)) = false →
      i = { id := (n.collie fb).nextId, w := n.v h.agent (HenAlu.fC w), queue := if x.getLsbD 15 then 4 else x.toNat / 8192 % 4 } →
      Answers (.henCpush h w) s (((((n.modCollie fb fun c => { c with pool := c.pool ++ [i], nextId := c.nextId + 1 }).itemWaits fb i).setG h.agent
        (HenAlu.fA w) 0)).henNext h.agent))
  ∧ (∀ (h : HenId) (w : BitVec 32) (s : State) (n : Mach) (x : Word) (fb : Nat), HenTurn s.m h.agent w n → HenAlu.op w = 0x3C →
      HenAlu.func w = 1 → x = n.g h.agent (HenAlu.fB w) →
      (x.getLsbD 15 = true → x.toNat / 8192 % 4 ≠ 0 → Answers (.henCpush h w) s (n.henRaise h.agent 1 w.toNat))
      ∧ (x.getLsbD 15 = false → isCollie (x.toNat % 8192) = true → fb = flockOf (x.toNat % 8192) → n.flockEnabled fb = true →
          (n.collie fb).state ≠ .running ∨ n.flockOn fb = false ∨ (n.die (agentDie fb - 1)).dead = true →
          Answers (.henCpush h w) s ((n.setG h.agent (HenAlu.fA w) 2).henNext h.agent)))
  ∧ (∀ (h : HenId) (w : BitVec 32) (s : State) (n : Mach) (d i scope : Nat), HenTurn s.m h.agent w n → HenAlu.op w = 0x3C →
      HenAlu.fld w 0 9 = 2 → scope = HenAlu.fld w 9 2 → NamesHere n (n.g h.agent (HenAlu.fB w)) d i → Released n h.agent scope →
      Answers (.henSadd h w) s ((((n.setSyncObj d i
        { count := (n.syncObj d i).count + BitVec.ofNat 24 ((n.g h.agent (HenAlu.fC w)).toNat % 65536),
          rel := some (BitVec.ofNat 2 (widenScope (agentLoc h.agent) scope), agentLoc h.agent) }).syncSettle d i false).setG h.agent
        (HenAlu.fA w) ((n.syncObj d i).count.setWidth 64)).henNext h.agent))
  ∧ (∀ (h : HenId) (w : BitVec 32) (s : State) (n : Mach) (d i : Nat) (t : BitVec 24), HenTurn s.m h.agent w n → HenAlu.op w = 0x3C →
      HenAlu.fld w 0 9 = 3 → NamesHere n (n.g h.agent (HenAlu.fB w)) d i → t = (n.g h.agent (HenAlu.fC w)).setWidth 24 →
      Answers (.henSwait h w) s ((n.modHen h.agent fun y =>
        { y with wait := .swait (HenAlu.fA w) ((n.g h.agent (HenAlu.fB w)).setWidth 24) d i t (BitVec.ofNat 2 (HenAlu.fld w 9 2)) }).syncWait d i t
          (BitVec.ofNat 2 (HenAlu.fld w 9 2)) (.hen h.agent)))
  ∧ (∀ (h : HenId) (w : BitVec 32) (s : State) (n : Mach) (d i : Nat), HenTurn s.m h.agent w n → HenAlu.op w = 0x3C → HenAlu.func w = 4 →
      HenAlu.fC w = 0 → NamesHere n (n.g h.agent (HenAlu.fB w)) d i →
      Answers (.henSread h w) s ((n.setG h.agent (HenAlu.fA w) ((n.syncObj d i).count.setWidth 64)).henNext h.agent))
  ∧ (∀ (h : HenId) (w : BitVec 32) (s : State) (n : Mach) (d i : Nat) (t : BitVec 24), HenTurn s.m h.agent w n → HenAlu.op w = 0x3C →
      HenAlu.fld w 0 9 = 3 → NamesHere n (n.g h.agent (HenAlu.fB w)) d i → t = (n.g h.agent (HenAlu.fC w)).setWidth 24 → (n.sync d).waits = [] →
      ((n.syncObj d i).count - t).toNat < 2 ^ 23 → HenAlu.fA w ≠ 0 →
      Runs (.henSwait h w) s fun m => m.g h.agent (HenAlu.fA w) = (n.syncObj d i).count.setWidth 64 ∧ (m.hen h.agent).wait = .none
        ∧ (m.hen h.agent).pc = (n.hen h.agent).pc + 4 ∧ (m.sync d).waits = [])


/-! ## The Hen: control registers, system instructions, exceptions and events -/

namespace Sys2Proof.Claims

/-- The instruction is CR of KIND `k` on control register `c`, in firmware privilege (R170, R240). -/
def CrTurn (s : State) (h : HenId) (w : BitVec 32) (n : Mach) (k c : Nat) : Prop :=
  HenTurn s.m h.agent w n ∧ HenAlu.op w = 0x3E ∧ HenAlu.fld w 6 2 = k ∧ HenAlu.fld w 0 6 = 0 ∧ HenAlu.fld w 8 8 = c
    ∧ (n.hen h.agent).priv = true ∧ (k = 0 → HenAlu.fB w = 0) ∧ (k = 1 → HenAlu.fA w = 0)

/-- CRW of register `c` (R240, Tables 7-12, 7-13 and 7-15): `r` gives the Hen after a write of the value; nothing else changes. A register
that `drains` is written with the store buffer empty (R179). -/
def CrwRow (c : Nat) (drains : Bool) (r : Word → Hen → Hen) : Prop :=
  ∀ (h : HenId) (w : BitVec 32) (s : State) (n : Mach), CrTurn s h w n 1 c → (n.hen h.agent).state = .running →
    (drains = true → (n.hen h.agent).sb = []) →
    ∃ m, Answers (.henCrw h w) s m ∧ m.hen h.agent = { r (n.g h.agent (HenAlu.fB w)) (n.hen h.agent) with
      pc := (n.hen h.agent).pc + 4, instret := (n.hen h.agent).instret + 1, wait := .none, stallDeep := false }
      ∧ (∀ b, b ≠ h.agent → m.hen b = n.hen b) ∧ m = { n with hens := m.hens }

/-- CRS and CRC of TASK_ARG0 (c16): the bits set in g[rs1] are set, or cleared, and g[rd] takes the value before. -/
def CrBitsRow (c : HenId → BitVec 32 → Instr) (k : Nat) (r : Word → Word → Word) : Prop :=
  ∀ (h : HenId) (w : BitVec 32) (s : State) (n : Mach), CrTurn s h w n k 16 → (n.hen h.agent).state = .running →
    Answers (c h w) s (((n.modHen h.agent fun y => { y with arg0 := r y.arg0 (n.g h.agent (HenAlu.fB w)) }).setG h.agent (HenAlu.fA w)
      (n.hen h.agent).arg0).henNext h.agent)

/-- CRR of register `c` reads `v` (R240, R241). -/
def CrrRow (c : Nat) (v : Mach → Nat → Word) : Prop :=
  ∀ (h : HenId) (w : BitVec 32) (s : State) (n : Mach), CrTurn s h w n 0 c →
    Answers (.henCrr h w) s ((n.setG h.agent (HenAlu.fA w) (v n h.agent)).henNext h.agent)

end Sys2Proof.Claims

/-- R240, R241, Tables 7-12 to 7-17: reading and writing the control registers. PRIV, CYCLE, INSTRET and AGENT_ID are read-only; bits [1:0] of EPC and
VBASE, and reserved bits, stay 0; writing 1 to MGMT of IPEND clears it; RSV_CTL clears the reservation and keeps GRAN on 3. Where the spec leaves the
reading open, the clauses follow the model's choices: log entries 3, 23, 25, 58, 59, 63, 73, 198. -/
def Obligations.HenControlRegisterAccess : Prop :=
  CrrRow 0 (fun n a => BitVec.ofNat 64 ((if (n.hen a).priv then 1 else 0) + (if (n.hen a).excEn then 2 else 0) + 4 * (n.hen a).ie.toNat))
  ∧ CrrRow 1 (fun n a => BitVec.ofNat 64 ((if (n.hen a).estPriv then 1 else 0) + (if (n.hen a).estExcEn then 2 else 0)))
  ∧ CrrRow 2 (fun n a => (n.hen a).epc.setWidth 64) ∧ CrrRow 3 (fun n a => (n.hen a).ecause.setWidth 64) ∧ CrrRow 4 (fun n a => (n.hen a).etval)
  ∧ CrrRow 6 (fun n a => (n.henPending a).setWidth 64) ∧ CrrRow 8 (fun n a => BitVec.ofNat 64 (n.henClock a - (n.hen a).cycleBase))
  ∧ CrrRow 5 (fun n a => (n.hen a).vbase.setWidth 64) ∧ CrrRow 9 (fun n a => (n.hen a).instret) ∧ CrrRow 10 (fun n a => (n.hen a).timecmp)
  ∧ CrrRow 12 (fun n a => BitVec.ofNat 64 (a + (if n.herd.attached then n.herd.module.toNat else 0) * 8192))
  ∧ CrrRow 16 (fun n a => (n.hen a).arg0) ∧ CrrRow 17 (fun n a => (n.hen a).arg1) ∧ CrrRow 18 (fun n a => (n.hen a).arg2)
  ∧ CrrRow 19 (fun n a => (n.hen a).arg3)
  ∧ CrwRow 0 false (fun v y => { y with excEn := v.getLsbD 1, ie := (v >>> 2).setWidth 3 })
  ∧ CrwRow 1 false (fun v y => { y with estPriv := v.getLsbD 0, estExcEn := v.getLsbD 1 })
  ∧ CrwRow 2 false (fun v y => { y with epc := v.setWidth 56 &&& ~~~3 })
  ∧ CrwRow 3 false (fun v y => { y with ecause := v.setWidth 10 })
  ∧ CrwRow 4 false (fun v y => { y with etval := v })
  ∧ CrwRow 5 false (fun v y => { y with vbase := v.setWidth 56 &&& ~~~3 })
  ∧ CrwRow 6 false (fun v y => if v.getLsbD 2 then { y with ipMgmt := false } else y)
  ∧ CrwRow 8 false (fun _ y => y) ∧ CrwRow 9 false (fun _ y => y) ∧ CrwRow 12 false (fun _ y => y)
  ∧ CrwRow 10 false (fun v y => { y with timecmp := v })
  ∧ CrwRow 16 false (fun v y => { y with arg0 := v }) ∧ CrwRow 17 false (fun v y => { y with arg1 := v }) ∧ CrwRow 18 false (fun v y => { y with arg2 := v })
  ∧ CrwRow 19 false (fun v y => { y with arg3 := v })
  ∧ CrwRow 25 false (fun v y => if v.toNat % 16 = 0 then y else { y with wayMask := v.setWidth 12 })
  ∧ CrwRow 26 false (fun v y => { y with resv := none, hold := none, gran := if v.toNat % 4 = 3 then y.gran else v.setWidth 2 })
  ∧ CrwRow 28 false (fun v y => { y with scratch := FMap.set 0 y.scratch 0 v }) ∧ CrwRow 31 false (fun v y => { y with scratch := FMap.set 0 y.scratch 3 v })
  ∧ CrwRow 64 true (fun v y => { y with rgnBase := FMap.set none y.rgnBase 0 (some (v &&& 0x80FFFFFFFFFFF0FF)) })
  ∧ CrwRow 95 true (fun v y => { y with rgnLimit := FMap.set none y.rgnLimit 15 (some (v &&& 0x00FFFFFFFFFFF000)) })
  ∧ CrBitsRow .henCrs 2 (fun old x => old ||| x) ∧ CrBitsRow .henCrc 3 (fun old x => old &&& ~~~x)

/-- R239, R324, R196: BAR completes once the store buffer is empty and every write has landed; WFI completes at once with a source pending or
none enabled, else it holds the Hen; ERET takes privilege and EXC_EN from ESTATUS and continues at EPC; TRAP and BREAK raise their exception. Where
the spec leaves the reading open, the clauses follow the model's choices: log entries 3, 23, 25, 58, 59, 63, 198. -/
def Obligations.HenSystemInstructionEffects : Prop :=
  (∀ (h : HenId) (w : BitVec 32) (s : State) (n : Mach), HenTurn s.m h.agent w n → w = 0xFC000000 → (n.hen h.agent).sb = [] →
      ((n.hen h.agent).unlanded = [] → (n.hen h.agent).crossing = [] →
        Answers (.henBar h w) s ((n.modHen h.agent fun y => { y with resv := none }).henNext h.agent))
      ∧ ((n.hen h.agent).unlanded ≠ [] ∨ (n.hen h.agent).crossing ≠ [] →
        Answers (.henBar h w) s (n.modHen h.agent fun y => { y with wait := .bar })))
  ∧ (∀ (h : HenId) (w : BitVec 32) (s : State) (n : Mach), HenTurn s.m h.agent w n → HenAlu.op w = 0x3F → HenAlu.fld w 20 6 = 1 →
      Answers (.henTrap h w) s (n.henRaise h.agent 10 (w.toNat % 2 ^ 20)))
  ∧ (∀ (h : HenId) (w : BitVec 32) (s : State) (n : Mach), HenTurn s.m h.agent w n → w = 0xFC200000 →
      Answers (.henBreak h w) s (n.henRaise h.agent 11 (n.hen h.agent).pc.toNat))
  ∧ (∀ (h : HenId) (w : BitVec 32) (s : State) (n : Mach), HenTurn s.m h.agent w n → w = 0xFC300000 → (n.hen h.agent).priv = true →
      Answers (.henEret h w) s (n.modHen h.agent fun y => { y with priv := y.estPriv, excEn := y.estExcEn, pc := y.epc,
                                                                    instret := y.instret + 1, wait := .none }))
  ∧ (∀ (h : HenId) (w : BitVec 32) (s : State) (n : Mach), HenTurn s.m h.agent w n → w = 0xFC300000 → (n.hen h.agent).priv = false →
      Answers (.henEret h w) s (n.henRaise h.agent 2 w.toNat))
  ∧ (∀ (h : HenId) (w : BitVec 32) (s : State) (n : Mach), HenTurn s.m h.agent w n → w = 0xFC400000 →
      ((n.hen h.agent).ie = 0 ∨ n.henPending h.agent &&& (n.hen h.agent).ie ≠ 0 → Answers (.henWfi h w) s (n.henNext h.agent))
      ∧ ((n.hen h.agent).ie ≠ 0 → n.henPending h.agent &&& (n.hen h.agent).ie = 0 →
          Answers (.henWfi h w) s (n.modHen h.agent fun y => { y with wait := .wfi })))

/-- R196, R199, R206, R242, R332: taking an exception. A word that is no instruction raises ILLEGAL with ETVAL holding it, under every Hen
instruction's command. With the store buffer empty, entry saves PC, cause, ETVAL, privilege and EXC_EN, enters firmware privilege with EXC_EN
clear at VBASE, and ends the reservation; in firmware privilege with EXC_EN clear an exception is a double fault instead. -/
def Sys2Proof.Claims.HenExceptionEntry : Prop :=
  (∀ (h : HenId) (w : BitVec 32) (s : State) (n : Mach), HenTurn s.m h.agent w n → henAssigned (henKey w) = false →
      Answers (.henAdd h w) s (n.henRaise h.agent 1 w.toNat) ∧ Answers (.henWfi h w) s (n.henRaise h.agent 1 w.toNat))
  ∧ (∀ (m : Mach) (a code tval : Nat), (m.hen a).priv = false ∨ (m.hen a).excEn = true → m.henUp a = true → (m.hen a).sb = [] →
      ∃ x, m.henRaise a code tval = m.setHen a x ∧ x.epc = (m.hen a).pc ∧ x.ecause = BitVec.ofNat 10 code ∧ x.etval = BitVec.ofNat 64 tval
        ∧ x.estPriv = (m.hen a).priv ∧ x.estExcEn = (m.hen a).excEn ∧ x.priv = true ∧ x.excEn = false ∧ x.pc = (m.hen a).vbase
        ∧ x.resv = none ∧ x.hold = none ∧ x.g = (m.hen a).g ∧ x.v = (m.hen a).v ∧ x.p = (m.hen a).p ∧ x.vbase = (m.hen a).vbase
        ∧ x.ie = (m.hen a).ie ∧ x.instret = (m.hen a).instret ∧ x.state = (m.hen a).state)
  ∧ (∀ (m : Mach) (a code tval : Nat), (m.hen a).priv = true → (m.hen a).excEn = false → m.henRaise a code tval = m.henDouble a)
  ∧ (∀ (m : Mach) (a : Nat), (m.hen a).sb = [] → ((m.henDouble a).hen a).state = .halted ∧ ((m.henDouble a).hen a).haltCause = 2
      ∧ ((m.henDouble a).hen a).haltPc = (m.hen a).pc)

/-- R176 to R179, R197, R200 to R202, R333, Table 6-9: the Hen's events, and the requests of HEN_CTL. -/
def Sys2Proof.Claims.HenEventEffects : Prop :=
  (∀ (h : HenId) (i : Nat) (s : State) (e : SbEntry) (fb fpa : Nat), (s.m.hen h.agent).sb[i]? = some e → s.m.boot.inReset = false →
      (s.m.hen h.agent).sb.find? (fun x => x.line == e.line) = some e → s.m.target (64 * e.line) = .flock fb fpa →
      s.m.targetDead (.flock fb fpa) = false →
      (agentDie fb = agentDie h.agent → s.m.targetHeld (.flock fb fpa) = false →
        Answers (.sbRetire h i) s (((((s.m.modHen h.agent fun y => { y with sb := y.sb.erase e, stallSb := false }).fmWrite fb e.line e.data e.mask
          false).clearResv (some h.agent) e.line).clearOwnResv h.agent e.line).henPoke h.agent))
      ∧ (agentDie fb ≠ agentDie h.agent →
        Answers (.sbRetire h i) s (((s.m.modHen h.agent fun y => { y with sb := y.sb.erase e, stallSb := false }).modHen h.agent fun y =>
          { y with crossing := y.crossing ++ [{ line := e.line, data := e.data, mask := e.mask }] }).henPoke h.agent)))
  ∧ (∀ (h : HenId) (i : Nat) (s : State) (x : Crossing) (fb fpa : Nat), (s.m.hen h.agent).crossing[i]? = some x → s.m.boot.inReset = false →
      (s.m.hen h.agent).crossing.find? (fun y => y.line == x.line) = some x → s.m.target (64 * x.line) = .flock fb fpa →
      s.m.targetDead (.flock fb fpa) = false → s.m.targetHeld (.flock fb fpa) = false →
      Answers (.sbRetire h ((s.m.hen h.agent).sb.length + i)) s (((((s.m.modHen h.agent fun y => { y with crossing := y.crossing.erase x }).fmWrite fb
        x.line x.data x.mask false).clearResv (some h.agent) x.line).clearOwnResv h.agent x.line).henPoke h.agent))
  ∧ (∀ (h : HenId) (s : State) (x : Imprecise), (s.m.hen h.agent).imp = some x → s.m.henLive h.agent = true → (s.m.hen h.agent).wait = .none →
      s.m.henOpen h.agent = true → (s.m.hen h.agent).sb = [] →
      Answers (.impreciseException h) s ((s.m.modHen h.agent fun y => { y with imp := none }).henEnter h.agent
        (BitVec.ofNat 10 (x.code + 0x100 + if x.overflow then 0x200 else 0)) (BitVec.ofNat 64 x.addr)))
  ∧ (∀ (h : HenId) (s : State), s.m.henLive h.agent = true → (s.m.hen h.agent).wait = .none → s.m.henOpen h.agent = true →
      (s.m.hen h.agent).imp = none → s.m.henPending h.agent &&& (s.m.hen h.agent).ie ≠ 0 → (s.m.hen h.agent).sb = [] →
      Answers (.interrupt h) s (s.m.henEnter h.agent 12 ((s.m.henPending h.agent).setWidth 64)))
  ∧ (∀ (h : HenId) (t : Nat) (s : State), (s.m.hen h.agent).wait = .none → ((s.m.advance t).henPending h.agent).getLsbD 0 = true →
      Answers (.timer h t) s (s.m.advance t))
  ∧ (∀ (h : HenId) (t : Nat) (s : State) (n : Mach), n = s.m.advance t → (n.hen h.agent).wait = .wfi → (n.henPending h.agent).getLsbD 0 = true →
      (n.hen h.agent).ie.getLsbD 0 = true → Answers (.timer h t) s (n.henNext h.agent))
  ∧ (∀ (h : HenId) (again : Bool) (s : State), (s.m.hen h.agent).state = .running → s.m.boot.inReset = false →
      (isFlockAgent h.agent = true → s.m.flockOn (flockOf h.agent) = true) → s.m.henBusy h.agent = false →
      Answers (.selftestSlice h true again) s (s.m.modHen h.agent fun y => { y with slice := y.slice + 1 })
      ∧ Answers (.selftestSlice h false true) s ((s.m.modHen h.agent fun y => { y with slice := y.slice + 1 }).count (henReg h.agent 0x14) false)
      ∧ Answers (.selftestSlice h false false) s (((s.m.modHen h.agent fun y => { y with slice := y.slice + 1 }).henStop h.agent 3).henStopGo h.agent))
  ∧ (∀ (h : HenId) (s : State), Answers (.lrHoldEnd h) s (s.m.modHen h.agent fun y => { y with hold := none }))
  ∧ (∀ (h : HenId) (s : State), RegOpen s.m (henReg h.agent 0) →
      ((s.m.hen h.agent).state = .disabled →
        Takes (.henRun h) s (henReg h.agent 0) ((s.m.modHen h.agent fun y => { y with state := .running }).setFld (henReg h.agent 0) 0 2 0))
      ∧ ((s.m.hen h.agent).state = .running →
        Takes (.henQuiesce h) s (henReg h.agent 0)
          (((s.m.modHen h.agent fun y => { y with state := .quiescing }).setFld (henReg h.agent 0) 0 2 1).henPoke h.agent))
      ∧ ((s.m.hen h.agent).state = .disabled →
        Takes (.henForceDisable h) s (henReg h.agent 0) (s.m.setFld (henReg h.agent 0) 0 2 2))
      ∧ (s.m.henUp h.agent = true →
        Takes (.henForceDisable h) s (henReg h.agent 0) (((((s.m.setFld (henReg h.agent 0) 0 2 2).henForget h.agent).modHen h.agent fun y =>
          { y with state := .quiescing }).henStop h.agent 0).henStopGo h.agent))
      ∧ ((s.m.hen h.agent).state = .halted → (s.m.hen h.agent).heldLines = [] →
        ∃ x : Hen, Takes (.henRestart h) s (henReg h.agent 0) ((s.m.setHen h.agent x).setFld (henReg h.agent 0) 0 2 3) ∧ x.state = .running
          ∧ x.pc = (s.m.hen h.agent).bootPc ∧ x.vbase = (s.m.hen h.agent).bootVec ∧ x.priv = true ∧ x.excEn = false ∧ x.rgnBase = []
          ∧ x.rgnLimit = [] ∧ x.ic = [] ∧ x.dc = [] ∧ x.vc = [] ∧ x.g = (s.m.hen h.agent).g ∧ x.v = (s.m.hen h.agent).v ∧ x.instret = 0)
      ∧ ((s.m.hen h.agent).wait = .none →
        Takes (.irq h) s (henReg h.agent 0) (s.m.modHen h.agent fun y => { y with ipMgmt := true })))

/-- R176 to R179, R196, R197, R199 to R202, R206, R242, R332, R333, Table 6-9: exceptions, and the events that act on a Hen. An illegal word raises
ILLEGAL under every Hen instruction's command; entry saves PC, cause, ETVAL, privilege and EXC_EN and goes on at VBASE in firmware privilege, ending
the reservation; with EXC_EN clear there it is a double fault. The requests of HEN_CTL stop, force and release the Hen. Where the spec leaves the
reading open, the clauses follow the model's choices: log entries 3, 4, 5, 23, 24, 25, 58, 59, 60, 62, 70, 75, 78, 79, 80, 96, 176, 177, 181, 198. -/
def Obligations.HenExceptionsAndEvents : Prop := Claims.HenExceptionEntry ∧ Claims.HenEventEffects

/-! ## Chapter 2: the site beat, operating points, the governor, the scheduler, lean state and saves -/

/-- R34, R35, R37, R38, R591: the beat input. An edge in the window of a locked beat starts the angle, and advances the number only where no
wrap has; one outside it is counted in BEAT_RANGE; the fifth edge of four agreeing periods locks. The third missing edge in a row loses the
lock. Where the spec leaves the reading open, the clauses follow the model's choices: log entries 4, 5, 26, 27, 169. -/
def Obligations.BeatEdgesAndWraps : Prop :=
  (∀ (t high : Nat) (s : State) (b : Beat), b = s.m.beat → 1000 ≤ high → b.locked = true → 7 * b.period ≤ 8 * (t - b.ref) →
      8 * (t - b.ref) ≤ 9 * b.period →
      Runs (.beatEdge t high) s fun m => m.beat.zero = t ∧ m.beat.ref = t ∧ m.beat.lastAccepted = some t ∧ m.beat.lastEdge = some t
        ∧ m.beat.missing = 0 ∧ m.beat.locked = true ∧ m.beat.wordDue = true
        ∧ m.beat.number = (if b.zero = b.ref then b.number + 1 else b.number) ∧ m.beat.slot = (if b.zero = b.ref then b.nextSlot else b.slot)
        ∧ (∀ e, b.lastAccepted = some e → 3571429 ≤ t - e → t - e ≤ 6250000 → m.beat.period = t - e)
        ∧ m.hens = s.m.hens ∧ m.fm = s.m.fm ∧ m.hbm = s.m.hbm ∧ m.regs = s.m.regs ∧ m.site = s.m.site)
  ∧ (∀ (t high : Nat) (s : State), 1000 ≤ high → s.m.beat.locked = true →
      8 * (t - s.m.beat.ref) < 7 * s.m.beat.period ∨ 9 * s.m.beat.period < 8 * (t - s.m.beat.ref) →
      Answers (.beatEdge t high) s (({ s.m.advance t with beat := { s.m.beat with lastEdge := some t } } : Mach).count (pwrReg 0x34) true))
  ∧ (∀ (t high e p q r : Nat) (s : State) (b : Beat), b = s.m.beat → 1000 ≤ high → b.locked = false → b.lastEdge = some e → b.periods = [p, q, r] →
      3571429 ≤ t - e → t - e ≤ 6250000 → (∀ x ∈ [t - e, p, q, r], ∀ y ∈ [t - e, p, q, r], 100 * x ≤ 102 * y) →
      Runs (.beatEdge t high) s fun m => m.beat.locked = true ∧ m.beat.lost = false ∧ m.beat.zero = t ∧ m.beat.ref = t ∧ m.beat.period = t - e
        ∧ m.beat.number = b.number + 1 ∧ m.beat.lastAccepted = some t)
  ∧ (∀ (t high e : Nat) (s : State) (b : Beat), b = s.m.beat → 1000 ≤ high → b.locked = false → b.lastEdge = some e →
      t - e < 3571429 ∨ 6250000 < t - e →
      Answers (.beatEdge t high) s { s.m.advance t with beat := { b with lastEdge := some t, periods := [], wordDue := true, wordLate := false } })
  ∧ (∀ (s : State), Runs .beatWrap s fun m => m.beat.zero = s.m.beat.zero + s.m.beat.period ∧ m.beat.number = s.m.beat.number + 1
        ∧ m.beat.slot = s.m.beat.nextSlot ∧ m.beat.locked = s.m.beat.locked ∧ m.beat.ref = s.m.beat.ref ∧ m.beat.period = s.m.beat.period)
  ∧ (∀ (s : State) (b : Beat), b = s.m.beat → b.locked = true → b.zero ≠ b.ref → b.missing < 2 →
      Answers .missingEdge s { s.m.advance (b.ref + b.period * 9 / 8) with beat := { b with ref := b.zero, missing := b.missing + 1 } })
  ∧ (∀ (s : State) (b : Beat), b = s.m.beat → b.locked = true → b.missing = 2 →
      Runs .missingEdge s fun m => m.beat.locked = false ∧ m.beat.lost = true ∧ m.beat.period = b.period
        ∧ m.beat.number = (if b.zero = b.ref then b.number + 1 else b.number)
        ∧ m.fld (pwrReg 0x30) 0 16 = min 0xFFFF (s.m.fld (pwrReg 0x30) 0 16 + 1) ∧ (m.tel 0).wr = (s.m.tel 0).wr + 2)
  ∧ (∀ (s : State), s.m.beat.wordDue = true → s.m.beat.locked = true →
      Answers .wordTimeout s (({ s.m.advance (s.m.beat.zero + s.m.beat.period / 16) with
        beat := { s.m.beat with wordDue := false, wordLate := true } } : Mach).count (pwrReg 0x34) false))

namespace Sys2Proof.Claims

/-- A beat word is fully received in its time at `t`, on a locked beat with no entry scheduled (R35). -/
def WordInTime (s : State) (t : Nat) : Prop :=
  s.m.beat.wordLate = false ∧ s.m.beat.lastEdge.isSome = true ∧ s.m.beat.locked = true ∧ s.m.sched = [] ∧ 16 * (t - s.m.beat.zero) ≤ s.m.beat.period

/-- The beat after a valid word: its number and, for the next beat, its SLOT (R36, R39); a number that differs counts BEAT_JUMP. -/
def wordTaken (m : Mach) (w : BitVec 48) : Mach :=
  let n : BitVec 24 := w.extractLsb' 0 24
  let x : Mach := { m with beat := { m.beat with number := n, wordDue := false } }
  let y := if n = m.beat.number then x else x.count (pwrReg 0x30) true
  { y with beat := { y.beat with nextSlot := w.extractLsb' 24 4 } }

/-- Entering lean state (R66, R69): every A-die in service that holds a point moves to OP0 and records the point it held. -/
def LeanBegun (s : State) (supply : Bool) (m : Mach) : Prop :=
  m.lean.state = 1 ∧ m.lean.causeSupply = supply ∧ m.lean.causeSite = !supply ∧ m.save.active = none
    ∧ (∀ d, d < 4 → s.m.dieOut d = false → (s.m.die d).curRet = false →
        (m.die d).curOp = 0 ∧ (m.die d).resumeOp = (s.m.die d).curOp ∧ (m.die d).stepUp = false ∧ (m.die d).targetOp = (s.m.die d).targetOp)
    ∧ m.lean.saveDue = (s.m.bit (pwrReg 0x20) 16 && (s.m.tier.state == .mounted || s.m.tier.state == .readOnly))
    ∧ m.site.hold = s.m.site.hold ∧ m.site.cap = s.m.site.cap

/-- The module runs in no lean state, and the store buffers of the task Hens are empty. -/
def NormalIdle (s : State) : Prop :=
  s.m.boot.inReset = false ∧ s.m.lean.state = 0 ∧ ∀ p ∈ s.m.hens, (s.m.hen p.1).priv = false → (s.m.hen p.1).sb = []

end Sys2Proof.Claims

/-- R35, R36, R43, Tables 2-1 and 2-2: a valid beat word gives the beat number, the next load slot and a site command; one with a wrong CRC is discarded
and counted in WORD_CRC, the slot and command staying as they were. LEAN received in reset stays in force, and lean state stands when the module
leaves reset. Where the spec leaves the reading open, the clauses follow the model's choices: log entries 4, 5, 28, 40, 190, 191, 192. -/
def Obligations.BeatWordsAndSiteCommands : Prop :=
  (∀ (t : Nat) (w : BitVec 48) (s : State), WordInTime s t → Mach.wordCrc w = w.toNat / 2 ^ 40 →
      (w.extractLsb' 28 4 = 0 → Answers (.beatWord t w) s (wordTaken (s.m.advance t) w))
      ∧ (w.extractLsb' 28 4 = 1 → Answers (.beatWord t w) s { wordTaken (s.m.advance t) w with site := { s.m.site with hold := true } })
      ∧ (w.extractLsb' 28 4 = 3 → Answers (.beatWord t w) s { wordTaken (s.m.advance t) w with site := { s.m.site with cap := w.extractLsb' 32 8 } })
      ∧ (5 ≤ (w.extractLsb' 28 4).toNat → Answers (.beatWord t w) s ((wordTaken (s.m.advance t) w).count (pwrReg 0x38) false)))
  ∧ (∀ (t : Nat) (w : BitVec 48) (s : State), WordInTime s t → Mach.wordCrc w ≠ w.toNat / 2 ^ 40 →
      Answers (.beatWord t w) s (({ s.m.advance t with beat := { s.m.beat with wordDue := false } } : Mach).count (pwrReg 0x34) false))
  ∧ (∀ (s : State), Answers .siteNop s s.m ∧ Answers .siteHold s { s.m with site := { s.m.site with hold := true } })
  ∧ (∀ (a : BitVec 8) (s : State), Answers (.siteCap a) s { s.m with site := { s.m.site with cap := a } })
  ∧ (∀ (s : State), Runs .siteRelease s fun m => m.site.hold = false ∧ m.site.lean = false ∧ m.site.cap = s.m.site.cap
        ∧ (s.m.lean.state = 0 → m.lean = s.m.lean) ∧ (s.m.lean.state = 1 → s.m.lean.clear = true → s.m.lean.inputOpen = false →
            m.lean.state = 2 ∧ m.lean.waitFrom = s.m.now))
  ∧ (∀ (s : State), NormalIdle s → Runs .siteLean s fun m => m.site.lean = true ∧ LeanBegun s false m)
  ∧ (∀ (s : State), s.m.boot.inReset = true → Runs .siteLean s fun m => m.site.lean = true ∧ m.lean.state = 1 ∧ m.lean.causeSite = true
        ∧ m.dies = s.m.dies ∧ m.save = s.m.save)

/-- R40, R44 to R46, R48, R60: a raise of TARGET_OP is held as a request and a lowering starts at once; the step ends one point higher or lower.
TARGET_RET takes an idle die into retention, DOMAIN_BUSY counting a refusal; leaving is a request; the die is back at the exit's end. A request joins
the others once, behind those of earlier cycles, and among those of its cycle by die and domain. Where the spec leaves the reading open, the clauses
follow the model's choices: log entries 3, 28, 35, 36, 37, 39, 176, 177, 182, 186, 187, 188. -/
def Obligations.OperatingPointsAndRetention : Prop :=
  (∀ (d : Fin 4) (v : BitVec 3) (s : State), RegOpen s.m (mgmtReg d 0x100) → (s.m.die d).dead = false → v.toNat ≤ s.m.variantTop →
      (s.m.die d).curOp < v →
      Takes (.targetOp d v) s (mgmtReg d 0x100) ((s.m.modDie d fun x => { x with targetOp := v }).askUp (.op d)))
  ∧ (∀ (m : Mach) (r : UpReq), (m.asked r = true → m.askUp r = m) ∧ (m.asked r = false →
      ∃ before after, m.gov.requests = before ++ after
        ∧ m.askUp r = m.modGov (fun g => { g with requests := before ++ { since := m.now, req := r } :: after })
        ∧ (∀ q ∈ before, q.since = m.now → Mach.upRank q.req ≤ Mach.upRank r)
        ∧ (∀ q ∈ after.head?, q.since = m.now ∧ Mach.upRank r < Mach.upRank q.req)))
  ∧ (∀ (d e : Fin 4) (i j : Fin 42), d < e ∨ (d = e ∧ i < j) → Mach.upRank (.domain d i) < Mach.upRank (.domain e j))
  ∧ (∀ (d : Fin 4) (v : BitVec 3) (s : State) (x : Die), RegOpen s.m (mgmtReg d 0x100) → x = s.m.die d → x.dead = false → x.excluded = false →
      x.curRet = false → x.computeReset = false → x.stepUp = false → x.stepDown = false → v < x.curOp → v.toNat ≤ s.m.variantTop →
      Runs (.targetOp d v) s fun m => (m.die d).targetOp = v ∧ (m.die d).curOp = x.curOp - 1 ∧ (m.die d).stepDown = true
        ∧ (m.die d).enfOp = x.enfOp ∧ m.asked (.op d) = false)
  ∧ (∀ (d : Fin 4) (v : BitVec 3) (s : State), RegOpen s.m (mgmtReg d 0x100) → (s.m.die d).dead = false → s.m.variantTop < v.toNat →
      Takes (.targetOp d v) s (mgmtReg d 0x100) (s.m.badWrite (mgmtReg d 0x100)))
  ∧ (∀ (d : Fin 4) (s : State) (x : Die), x = s.m.die d → x.stepUp = true → x.stepDown = false → x.curOp.toNat < s.m.opGoal d →
      Runs (.opStepDone d) s fun m => (m.die d).curOp = x.curOp + 1 ∧ (m.die d).stepUp = false ∧ (m.die d).stepDown = false
        ∧ (m.die d).targetOp = x.targetOp ∧ (m.die d).enfOp = x.enfOp)
  ∧ (∀ (d : Fin 4) (s : State) (x : Die), x = s.m.die d → x.stepUp = false → x.stepDown = true → x.curOp.toNat ≤ s.m.opGoal d →
      Runs (.opStepDone d) s fun m => (m.die d).curOp = x.curOp ∧ (m.die d).stepDown = false)
  ∧ (∀ (d : Fin 4) (s : State), RegOpen s.m (mgmtReg d 0x100) → (s.m.die d).dead = false → s.m.dieBusy d none = false →
      (s.m.save.active = none ∨ ∀ v ∈ Mach.Save.valid s.m.save, Mach.regionOn (Mach.descBase v) d = false) →
      ((s.m.die d).curRet = false →
        Runs (.targetRet d true) s fun m => (m.die d).curRet = true ∧ (m.die d).targetRet = true ∧ (m.die d).stepUp = false
          ∧ (∀ i < 3, (s.m.retraining (3 * d + i) = false → (m.hbmc (3 * d + i)).selfRefresh = true)
            ∧ (s.m.retraining (3 * d + i) = true → (m.hbmc (3 * d + i)).entering = true)))
      ∧ ((s.m.die d).curRet = true →
        Runs (.targetRet d true) s fun m => (m.die d).curRet = true ∧ (m.die d).targetRet = true ∧ (m.die d).leaving = false
          ∧ m.asked (.ret d) = false))
  ∧ (∀ (d : Fin 4) (f : Fin 26) (s : State), RegOpen s.m (mgmtReg d 0x100) → (s.m.die d).dead = false →
      (s.m.domain d f = .on ∧ (s.m.collie (flockBase d f)).state ≠ .quiesced) ∨ (s.m.collie (flockBase d f)).pool ≠ []
        ∨ (s.m.mule (flockBase d f + 20)).descs ≠ [] ∨ (s.m.mule (flockBase d f + 21)).descs ≠ [] →
      Takes (.targetRet d true) s (mgmtReg d 0x100) (s.m.saveCopying.2.count (mgmtReg d 0x10C) false))
  ∧ (∀ (d : Fin 4) (s : State) (k : SaveKind) (v : BitVec 128), RegOpen s.m (mgmtReg d 0x100) → (s.m.die d).dead = false →
      s.m.save.active = some k → Mach.Save.valid s.m.save = [v] → Mach.regionOn (Mach.descBase v) d = true →
      Takes (.targetRet d true) s (mgmtReg d 0x100) ((s.m.drawFree 5).2.count (mgmtReg d 0x10C) false))
  ∧ (∀ (d : Fin 4) (s : State), RegOpen s.m (mgmtReg d 0x100) → (s.m.die d).dead = false → (s.m.die d).curRet = true → (s.m.die d).leaving = false →
      Takes (.targetRet d false) s (mgmtReg d 0x100) ((s.m.modDie d fun x => { x with targetRet := false }).askUp (.ret d)))
  ∧ (∀ (d : Fin 4) (s : State), (s.m.die d).leaving = true →
      Runs (.retentionExitDone d) s fun m => (m.die d).leaving = false ∧ (m.die d).curRet = false ∧ (m.die d).targetOp = (s.m.die d).targetOp)

namespace Sys2Proof.Claims

/-- The word that writes `v` to domain `i`'s field of DOMAIN_CTL`i / 8`, and no other field (R575, Table 2-7). -/
def domainWord (i v : Nat) : BitVec 32 := BitVec.ofNat 32 (3 * 2 ^ (16 + 2 * (i % 8)) + v * 2 ^ (2 * (i % 8)))

/-- A write of DOMAIN_CTL that asks for state `v` of domain `i`, to a die in service. -/
def DomainAsked (s : State) (d : Fin 4) (i : Nat) (r : Fin 6) : Prop :=
  RegOpen s.m (mgmtReg d (0x110 + 4 * r)) ∧ (s.m.die d).dead = false ∧ i / 8 = r.val

/-- The flock `i` of A-die A`d` holds no work: its Collie is QUIESCED with nothing pooled or hosted, and its Mules hold no active descriptor. -/
def FlockIdle (m : Mach) (fb : Nat) : Prop :=
  (m.collie fb).state = .quiesced ∧ (m.collie fb).pool = [] ∧ (m.collie fb).hosted = [] ∧ (m.mule (fb + 20)).descs = []
    ∧ (m.mule (fb + 21)).descs = []

end Sys2Proof.Claims

/-- R47, R50, R60, Tables 2-4 and 2-7: DOMAIN_CTL. ON is held as a request; a flock without work falls at once, OFF losing its memory, and is refused with
DOMAIN_BUSY while it has work; a state that Table 2-4 does not allow counts BAD_WRITE; 3 is ignored. DOMAIN_READY ends the wake. Where the spec leaves
the reading open, the clauses follow the model's choices: log entries 3, 20, 36, 37, 38, 39, 127, 176, 177, 189. -/
def Obligations.PowerDomainWrites : Prop :=
  (∀ (d : Fin 4) (i : Fin 42) (r : Fin 6) (s : State), DomainAsked s d i r → i.val ≠ 41 → s.m.domain d i ≠ .on →
      Takes (.domainCtl d r (domainWord i 2)) s (mgmtReg d (0x110 + 4 * r)) (s.m.askUp (.domain d i)))
  ∧ (∀ (d : Fin 4) (i : Fin 42) (r : Fin 6) (s : State), DomainAsked s d i r → i.val < 26 → s.m.domain d i = .on → FlockIdle s.m (flockBase d i) →
      (Runs (.domainCtl d r (domainWord i 1)) s fun m => m.domain d i = .retention ∧ m.fm = s.m.fm ∧ m.hens = s.m.hens ∧ m.oxen = s.m.oxen)
      ∧ (Runs (.domainCtl d r (domainWord i 0)) s fun m => m.domain d i = .off
          ∧ (∀ a, Mach.flockMemBase (flockBase d i) ≤ a → a < Mach.flockMemBase (flockBase d i) + 0x80_0000 → Memory.read m.fm a = 0)
          ∧ (∀ h, h < 16 → (m.hen (flockBase d i + h)).dc = [] ∧ (m.hen (flockBase d i + h)).state ≠ .running)
          ∧ (∀ u, u < 4 → (m.ox (flockBase d i + 16 + u)).acc = [])))
  ∧ (∀ (d : Fin 4) (i : Fin 42) (r : Fin 6) (s : State), DomainAsked s d i r → i.val < 26 → (s.m.collie (flockBase d i)).state ≠ .quiesced →
      Takes (.domainCtl d r (domainWord i 0)) s (mgmtReg d (0x110 + 4 * r)) (s.m.count (mgmtReg d 0x10C) false)
      ∧ Takes (.domainCtl d r (domainWord i 1)) s (mgmtReg d (0x110 + 4 * r)) (s.m.count (mgmtReg d 0x10C) false))
  ∧ (∀ (d : Fin 4) (i : Fin 42) (r : Fin 6) (s : State), DomainAsked s d i r →
      (26 ≤ i.val → Takes (.domainCtl d r (domainWord i 0)) s (mgmtReg d (0x110 + 4 * r)) (s.m.badWrite (mgmtReg d 0)))
      ∧ (26 ≤ i.val → i.val ≠ 40 → Takes (.domainCtl d r (domainWord i 1)) s (mgmtReg d (0x110 + 4 * r)) (s.m.badWrite (mgmtReg d 0)))
      ∧ (i.val = 41 → Takes (.domainCtl d r (domainWord i 2)) s (mgmtReg d (0x110 + 4 * r)) (s.m.badWrite (mgmtReg d 0)))
      ∧ Takes (.domainCtl d r (domainWord i 3)) s (mgmtReg d (0x110 + 4 * r)) s.m)
  ∧ (∀ (d : Fin 4) (dom : Fin 42) (s : State), Answers (.domainReady d.succ dom) s
      (s.m.modDie d fun x => { x with waking := x.waking.filter fun y => y ≠ dom.val }))
  ∧ (∀ (dom : Fin 42) (s : State), Answers (.domainReady 0 dom) s (s.m.modAcores fun a => { a with waking := a.waking.filter fun y => y ≠ dom.val }))

namespace Sys2Proof.Claims

/-- The angle has not passed the load slot's last sixteenth of the beat (R39, R40). -/
def SlotAhead (s : State) : Prop := 16 * (s.m.now - s.m.beat.zero) < s.m.beat.period * (s.m.beat.slot.toNat + 1)

/-- The load slot has not started in this beat, the beat is locked without HOLD, the module is out of reset and of lean state, and the 1 ms
average leaves the headroom of R55. -/
def SlotOpen (s : State) : Prop :=
  s.m.beat.slotDone = false ∧ SlotAhead s ∧ s.m.beat.locked = true ∧ s.m.site.hold = false ∧ s.m.boot.inReset = false
    ∧ s.m.lean.state = 0 ∧ s.m.headroomOk = true ∧ s.m.gov.held = [] ∧ s.m.gov.undoHeld = false ∧ s.m.targetClk ≤ s.m.acores.curClk.toNat

/-- No A-die but `d` stands below the point it moves toward. -/
def OthersSettled (s : State) (d : Nat) : Prop :=
  ∀ e, e < 4 → e ≠ d → s.m.holdsPoint e = true → s.m.opGoal e ≤ (s.m.die e).curOp.toNat

end Sys2Proof.Claims

/-- R39 to R42, R45, R55, R60: the grant of upward steps at the start of the load slot: a domain switches ON and wakes; a die rises by one point; a
request that the headroom of R55 keeps back stays and counts STEP_REFUSED; with HOLD nothing rises; a slot that the angle has passed takes nothing.
The domains 26 to 39 are switched by bring-up and the service steps alone. Where the spec leaves the reading open, the clauses follow the model's
choices: log entries 4, 5, 30, 31, 32, 34, 35, 36, 37, 39, 40, 189. -/
def Obligations.SlotGrantsUpwardSteps : Prop :=
  (∀ (d : Fin 4) (i : Fin 42) (q : UpAsk) (s : State), SlotOpen s → OthersSettled s 4 → s.m.gov.requests = [q] → q.req = .domain d i →
      s.m.domain d i ≠ .on → s.m.dieOut d = false →
      (i.val < 26 ∨ i.val = 40 →
        Runs .slotStart s fun m => m.domain d i = .on ∧ i.val ∈ (m.die d).waking ∧ m.gov.requests = [] ∧ m.beat.slotDone = true ∧ m.beat.sinceUp = 0
          ∧ m.gov.slotDoms = 1)
      ∧ (26 ≤ i.val → i.val ≠ 40 →
        Runs .slotStart s fun m => m.domain d i = s.m.domain d i ∧ m.gov.requests = [q] ∧ m.beat.slotDone = true))
  ∧ (∀ (d : Fin 4) (q : UpAsk) (s : State), SlotOpen s → OthersSettled s d → s.m.gov.requests = [q] → q.req = .op d → s.m.holdsPoint d = true →
      (s.m.die d).stepUp = false → (s.m.die d).stepDown = false → (s.m.die d).curOp.toNat < s.m.opGoal d →
      (s.m.die d).curOp < (s.m.die d).targetOp →
      Runs .slotStart s fun m => (m.die d).stepUp = true ∧ (m.die d).curOp = (s.m.die d).curOp ∧ m.gov.slotOps = [d] ∧ m.gov.requests = [q]
        ∧ m.beat.slotDone = true)
  ∧ (∀ (d : Fin 4) (i : Fin 42) (q : UpAsk) (s : State), s.m.beat.slotDone = false → SlotAhead s → s.m.beat.locked = true → s.m.site.hold = false →
      s.m.boot.inReset = false → s.m.lean.state = 0 → s.m.headroomOk = false → s.m.gov.held = [] → s.m.gov.undoHeld = false →
      s.m.targetClk ≤ s.m.acores.curClk.toNat → OthersSettled s 4 → s.m.gov.requests = [q] → q.req = .domain d i → s.m.domain d i ≠ .on →
      s.m.dieOut d = false → i.val < 26 ∨ i.val = 40 →
      Runs .slotStart s fun m => m.gov.requests = [q] ∧ m.domain d i = s.m.domain d i
        ∧ m.fld (pwrReg 0x38) 16 16 = min 0xFFFF (s.m.fld (pwrReg 0x38) 16 16 + 1))
  ∧ (∀ (d : Fin 4) (i : Fin 42) (q : UpAsk) (s : State), s.m.beat.slotDone = false → SlotAhead s → s.m.site.hold = true → s.m.boot.inReset = false →
      s.m.lean.state = 0 → s.m.gov.held = [] → s.m.targetClk ≤ s.m.acores.curClk.toNat → OthersSettled s 4 → s.m.gov.requests = [q] →
      q.req = .domain d i → s.m.domain d i ≠ .on → s.m.dieOut d = false →
      Runs .slotStart s fun m => m.gov.requests = [q] ∧ m.domain d i = s.m.domain d i ∧ m.gov.slotDoms = 0 ∧ m.gov.slotOps = [])
  ∧ (∀ (s : State), s.m.beat.slotDone = true ∨ ¬ SlotAhead s → Answers .slotStart s s.m)

namespace Sys2Proof.Claims

/-- A-die A`d` is the one that a clock step of enforcement lowers (R53): it holds an operating point above `floor`, the highest of those that hold
one, and the lowest number among equals. -/
def EnfPicks (m : Mach) (floor : Nat) (d : Fin 4) : Prop :=
  m.holdsPoint d = true ∧ floor < (m.die d).curOp.toNat
    ∧ ∀ e : Fin 4, m.holdsPoint e = true → (m.die e).curOp < (m.die d).curOp ∨ ((m.die e).curOp = (m.die d).curOp ∧ d ≤ e)

/-- An enforcement step falls due (R52): the 1 ms average is over the cap, for the first time or 1 ms after the last step. -/
def EnfDue (m : Mach) : Prop := 0 < m.gov.overUs ∧ ∀ u, m.gov.stepAt = some u → u + 1000 ≤ m.gov.overUs

end Sys2Proof.Claims

/-- R51 to R54, R56: the meter, the enforcement steps in the order of POLICY, their undo, CAP_UNMET, the fast limit and the return of an issue token.
TARGET_OP and SW_CAP stay as software wrote them. Where the spec leaves the reading open, the clauses follow the model's choices: log entries 4, 5,
33. -/
def Obligations.GovernorSteps : Prop :=
  (∀ (vin vbus : BitVec 10) (cur p0 p1 p2 p3 : Nat) (s : State),
      Runs (.meterSample vin vbus cur p0 p1 p2 p3) s fun m => m.gov.vin = vin ∧ m.gov.vbus = vbus
        ∧ m.gov.samples = (vin.toNat * cur :: s.m.gov.samples).take 1000 ∧ m.gov.energy = s.m.gov.energy + vin.toNat * cur
        ∧ m.gov.overUs = (if s.m.effCap < (vin.toNat * cur :: s.m.gov.samples.take 999).sum / 1000 then s.m.gov.overUs + 1 else 0)
        ∧ m.gov.fastUs = (if s.m.effCap * 115 < vin.toNat * cur * 100 then s.m.gov.fastUs + 1 else 0)
        ∧ m.gov.steps = s.m.gov.steps ∧ m.dies = s.m.dies ∧ m.regs = s.m.regs)
  ∧ (∀ (d : Fin 4) (s : State), EnfDue s.m → s.m.bit (pwrReg 0x18) 3 = false → EnfPicks s.m (s.m.fld (pwrReg 0x18) 0 3) d →
      Runs .enforcementStep s fun m => (m.die d).enfOp = (s.m.die d).curOp - 1 ∧ m.gov.steps = .die d :: s.m.gov.steps
        ∧ m.gov.oxLimit = s.m.gov.oxLimit ∧ (m.die d).targetOp = (s.m.die d).targetOp ∧ (∀ e : Fin 4, e ≠ d → m.die e = s.m.die e)
        ∧ m.gov.stepAt = some s.m.gov.overUs ∧ m.regs = s.m.regs)
  ∧ (∀ (s : State), EnfDue s.m → s.m.gov.oxLimit < 2 →
      s.m.bit (pwrReg 0x18) 3 = true ∨ (∀ d, ¬ EnfPicks s.m (s.m.fld (pwrReg 0x18) 0 3) d) →
      Answers .enforcementStep s (s.m.modGov fun g => { g with stepAt := some g.overUs, steps := .ox :: g.steps, oxLimit := g.oxLimit + 1 }))
  ∧ (∀ (d : Fin 4) (s : State), EnfDue s.m → s.m.gov.oxLimit = 2 → (∀ e, ¬ EnfPicks s.m (s.m.fld (pwrReg 0x18) 0 3) e) → EnfPicks s.m 0 d →
      Runs .enforcementStep s fun m => (m.die d).enfOp = (s.m.die d).curOp - 1 ∧ m.gov.steps = .die d :: s.m.gov.steps)
  ∧ (∀ (s : State), 16000 ≤ s.m.gov.calmUs → s.m.gov.steps ≠ [] →
      Answers .enforcementUndo s (s.m.modGov fun g => { g with undoHeld := true, calmUs := 0 }))
  ∧ (∀ (s : State), 10000 ≤ s.m.gov.spentUs → Answers .capUnmet s (s.m.modGov fun g => { g with capUnmet := true }))
  ∧ (∀ (s : State), 50 ≤ s.m.gov.fastUs → s.m.gov.fastEnd = none →
      Answers .fastLimit s (((s.m.modGov fun g => { g with fastEnd := some (s.m.now + 50000), fastUs := 0 }).oxBallastEnd).count (pwrReg 0x3C) false)
      ∧ ∀ a, (s.m.oxBallastEnd.ox a).ramp = if (s.m.ox a).ramp = .down then .none else (s.m.ox a).ramp)
  ∧ (∀ (s : State) (t : Nat), s.m.gov.fastEnd = some t → Answers .fastLimitEnd s ((s.m.advance t).modGov fun g => { g with fastEnd := none }))
  ∧ (∀ (o : OxId) (s : State), o.agent ∈ (s.m.die (agentDie o.agent - 1)).tokens → (s.m.ox o.agent).flight = [] →
      Answers (.tokenReturn o) s ((s.m.modDie (agentDie o.agent - 1) fun d => { d with tokens := d.tokens.filter fun x => x ≠ o.agent }).modOx o.agent
        fun x => { x with tokenWait := false }))

namespace Sys2Proof.Claims

/-- Entry `e` of scheduler `k` (0 the C-die's, 1 to 4 the A-dies') is armed for once with ACTION `act`, its time in this beat is reached, and no
armed entry of the scheduler comes before it (R57, Table 2-5); `w` is the entry. -/
def EntryDue (s : State) (k : Fin 5) (e : Fin 64) (act : Nat) (w : BitVec 64) : Prop :=
  FMap.get 0 s.m.sched (64 * k.val + e.val) = w ∧ w.getLsbD 63 = true ∧ (w.extractLsb' 40 4).toNat = act ∧ w.extractLsb' 56 4 = 0
    ∧ w.extractLsb' 0 24 = s.m.beat.number ∧ (w.extractLsb' 24 16).toNat ≤ s.m.angle ∧ s.m.boot.inReset = false
    ∧ s.m.schedFirst k.val e.val = true

/-- Entry `e` of scheduler `k` is held for step `r`: behind those due before, and those due with it at a lower die or index (R59, R60). -/
def entryHeld (m : Mach) (k : Fin 5) (e : Fin 64) (r : UpReq) : Mach :=
  let later (x : HeldEntry) : Bool := decide (m.now < x.due) || (x.due == m.now && decide (64 * k.val + e.val < 64 * x.die.val + x.entry.val))
  m.modGov fun g => { g with held := Mach.insertBefore later { due := m.now, die := k, entry := e, req := r } g.held }

/-- The module with the entry run: VALID is clear (R57). -/
def entryGone (s : State) (k : Fin 5) (e : Fin 64) (w : BitVec 64) : Mach :=
  { s.m with sched := FMap.set 0 s.m.sched (64 * k.val + e.val) (w &&& 0x7FFFFFFFFFFFFFFF) }

end Sys2Proof.Claims

/-- R57 to R63, Table 2-5: scheduler entries. OP_STEP acts as the register write of its argument; a DOMAIN entry for ON outside the slot is held, inside
it is taken at once; SCRUB_BURST and RAMP_PERMIT open a window, which their end closes; SAVE_WINDOW starts a scheduled save. An entry does not run
while one of a lower index is due with it. Where the spec leaves the reading open, the clauses follow the model's choices: log entries 3, 35, 36, 37,
39, 176, 177, 182, 186, 189. -/
def Obligations.SchedulerEntriesRun : Prop :=
  (∀ (d : Fin 4) (e : Fin 64) (s : State) (w : BitVec 64), EntryDue s d.succ e 1 w →
      Answers (.opStep d e) s ((entryGone s d.succ e w).targetOpOp d (w.extractLsb' 44 3).toNat))
  ∧ (∀ (d : Fin 4) (e : Fin 64) (i : Fin 42) (s : State) (w : BitVec 64), EntryDue s d.succ e 2 w → w.extractLsb' 44 6 = BitVec.ofNat 6 i →
      w.extractLsb' 50 2 = 2 → s.m.domain d i ≠ .on → s.m.dieOut d = false →
      (s.m.angle / 0x1000 ≠ s.m.beat.slot.toNat →
        Answers (.domain d.succ e) s (entryHeld (entryGone s d.succ e w) d.succ e (.domain d i)))
      ∧ (s.m.angle / 0x1000 = s.m.beat.slot.toNat → s.m.site.hold = false → s.m.beat.locked = true → s.m.gov.slotDoms < 8 → s.m.headroomOk = true →
          s.m.lean.state = 0 → i.val < 26 ∨ i.val = 40 →
          Runs (.domain d.succ e) s fun m => m.domain d i = .on ∧ i.val ∈ (m.die d).waking ∧ m.gov.held = s.m.gov.held))
  ∧ (∀ (c : Fin 6) (e : Fin 64) (s : State) (w : BitVec 64), EntryDue s 0 e 2 w → w.extractLsb' 44 6 = BitVec.ofNat 6 c → w.extractLsb' 50 2 = 2 →
      s.m.clusterState c ≠ 2 → s.m.angle / 0x1000 ≠ s.m.beat.slot.toNat →
      Answers (.domain 0 e) s (entryHeld (entryGone s 0 e w) 0 e (.cluster c)))
  ∧ (∀ (d : Fin 4) (e : Fin 64) (s : State) (w : BitVec 64), EntryDue s d.succ e 3 w → e ∉ (s.m.die d).bursts →
      Answers (.scrubBurst d e) s ((entryGone s d.succ e w).modDie d fun x => { x with bursts := e :: x.bursts }))
  ∧ (∀ (d : Fin 4) (e : Fin 64) (s : State), Answers (.scrubBurstEnd d e) s (s.m.modDie d fun x => { x with bursts := x.bursts.filter fun y => y ≠ e }))
  ∧ (∀ (d : Fin 4) (e : Fin 64) (s : State) (w : BitVec 64), EntryDue s d.succ e 4 w → e ∉ (s.m.die d).permits →
      Answers (.rampPermit d e) s ((entryGone s d.succ e w).modDie d fun x => { x with permits := e :: x.permits }).oxDiagWake)
  ∧ (∀ (k : Fin 5) (d : Fin 4) (e e' : Fin 64) (s : State) (w w' : BitVec 64), EntryDue s k e' (w'.extractLsb' 40 4).toNat w' → e' < e →
      w'.extractLsb' 40 4 ≠ 0 → FMap.get 0 s.m.sched (64 * k.val + e.val) = w → w.extractLsb' 0 40 = w'.extractLsb' 0 40 → k = d.succ →
      Answers (.rampPermit d e) s s.m ∧ Answers (.scrubBurst d e) s s.m ∧ Answers (.opStep d e) s s.m ∧ Answers (.domain k e) s s.m)
  ∧ (∀ (d : Fin 4) (e : Fin 64) (s : State), Answers (.rampPermitEnd d e) s (s.m.modDie d fun x => { x with permits := x.permits.filter fun y => y ≠ e }))
  ∧ (∀ (e : Fin 64) (s : State) (w : BitVec 64), EntryDue s 0 e 5 w →
      (s.m.save.active = none → s.m.inLean = false → s.m.tier.state = .mounted →
        Runs (.saveWindow e) s fun m => m.save.active = some .scheduled ∧ m.save.sealed = false ∧ m.save.regionsDone = 0
          ∧ (s.m.newestSlot = some 0 → m.save.slot = 1 ∧ m.save.seal0 = s.m.save.seal0)
          ∧ (s.m.newestSlot = some 1 → m.save.slot = 0 ∧ m.save.seal1 = s.m.save.seal1))
      ∧ (s.m.save.active ≠ none ∨ s.m.inLean = true → Answers (.saveWindow e) s (entryGone s 0 e w))
      ∧ (s.m.save.active = none → s.m.inLean = false → s.m.tier.state = .unmounted →
          Answers (.saveWindow e) s ((entryGone s 0 e w).count (pwrReg 0x40) false)))

/-- R64 to R67, R73 to R75: the supply. A warning of 2 µs or more, or VIN above 62 V, enters lean state; the wait for leaving begins with VIN above
clear, the input stage closed and no site LEAN, restarts when one fails, and lasts two measured beat periods. At 36.0 V the module resets. In reset
the supply's level and the input stage are noted without lean state. Where the spec leaves the reading open, the clauses follow the model's choices:
log entries 4, 5, 28, 40, 190. -/
def Obligations.SupplyThresholdsAndLean : Prop :=
  (∀ (vin : BitVec 10) (dur : Nat) (s : State), NormalIdle s → 8 * vin.toNat < 2400 + 10 * s.m.fld (pwrReg 8) 0 8 → 1000 ≤ dur →
      Runs (.vinWarning vin dur) s fun m => LeanBegun s true m ∧ m.lean.clear = false)
  ∧ (∀ (vin : BitVec 10) (dur : Nat) (s : State), s.m.boot.inReset = true → s.m.lean.state = 0 →
      (8 * vin.toNat < 2400 + 10 * s.m.fld (pwrReg 8) 0 8 → 1000 ≤ dur →
        Answers (.vinWarning vin dur) s { s.m with lean := { s.m.lean with clear := false } })
      ∧ (620 < vin.toNat → 5000 ≤ dur → Answers (.inputOpen vin dur) s { s.m with lean := { s.m.lean with inputOpen := true } }))
  ∧ (∀ (vin : BitVec 10) (dur : Nat) (s : State), dur < 1000 → Answers (.vinWarning vin dur) s s.m)
  ∧ (∀ (vin : BitVec 10) (dur : Nat) (s : State), NormalIdle s → 620 < vin.toNat → 5000 ≤ dur →
      Runs (.inputOpen vin dur) s fun m => LeanBegun s true m ∧ m.lean.inputOpen = true)
  ∧ (∀ (t : Nat) (vin : BitVec 10) (s : State), s.m.lean.inputOpen = true → 400 ≤ vin.toNat → vin.toNat ≤ 600 → s.m.lean.state = 0 →
      Runs (.inputClose t vin) s fun m => m.lean.inputOpen = false ∧ m.lean.state = 0
        ∧ (m.lean.clear = true ↔ 2400 + 10 * s.m.fld (pwrReg 8) 8 8 < 8 * vin.toNat))
  ∧ (∀ (t : Nat) (vin : BitVec 10) (s : State), 2400 + 10 * s.m.fld (pwrReg 8) 8 8 < 8 * vin.toNat → s.m.lean.state = 1 → s.m.lean.inputOpen = false →
      s.m.site.lean = false →
      Answers (.supplyClear t vin) s { s.m.advance t with lean := { s.m.lean with clear := true, state := 2, waitFrom := max s.m.now t, waitDone := false } })
  ∧ (∀ (t : Nat) (vin : BitVec 10) (s : State), 2400 + 10 * s.m.fld (pwrReg 8) 8 8 < 8 * vin.toNat → s.m.lean.state = 1 →
      s.m.lean.inputOpen = true ∨ s.m.site.lean = true →
      Answers (.supplyClear t vin) s { s.m.advance t with lean := { s.m.lean with clear := true } })
  ∧ (∀ (t : Nat) (vin : BitVec 10) (s : State), 8 * vin.toNat ≤ 2400 + 10 * s.m.fld (pwrReg 8) 8 8 → 2400 + 10 * s.m.fld (pwrReg 8) 0 8 ≤ 8 * vin.toNat →
      s.m.lean.state = 2 →
      Answers (.vinBelowClear t vin) s { s.m.advance t with lean := { s.m.lean with clear := false, state := 1, waitDone := false } })
  ∧ (∀ (t : Nat) (s : State), s.m.lean.state = 2 → s.m.lean.waitFrom + 2 * s.m.beat.period ≤ t →
      Answers (.leanWaitEnd t) s { s.m.advance t with lean := { s.m.lean with waitDone := true } })
  ∧ (∀ (t : Nat) (s : State), t < s.m.lean.waitFrom + 2 * s.m.beat.period → Answers (.leanWaitEnd t) s s.m)
  ∧ (∀ (s : State), s.m.boot.powered = true → Runs .supplyReset s fun m => m.boot.cause = 4 ∧ m.hens = [] ∧ m.fm = [] ∧ m.hbm = []
        ∧ m.save.seal0 = s.m.save.seal0 ∧ m.save.seal1 = s.m.save.seal1 ∧ m.save.descs = [] ∧ m.site = s.m.site ∧ m.beat = s.m.beat)

/-- R69, R71, R72, R75: the save engine. A save begins once every Ox and task Hen has stopped, into the slot that does not hold the newest seal; its
seal has a number above any earlier one, and VBUS at 37.5 V seals it INCOMPLETE over the regions completed. Where the spec leaves the reading open,
the clauses follow the model's choices: log entries 41, 42. -/
def Obligations.SaveEngineSeals : Prop :=
  (∀ (s : State), s.m.lean.saveDue = true → s.m.inLean = true → (∀ p ∈ s.m.oxen, p.2.flight = []) →
      (∀ p ∈ s.m.hens, (s.m.hen p.1).priv = true ∨ ((s.m.hen p.1).sb = [] ∧ ((s.m.hen p.1).wait = .none
        ∨ ((s.m.hen p.1).state ≠ .running ∧ (s.m.hen p.1).state ≠ .quiescing)))) →
      Runs .saveStart s fun m => m.save.active = some .lean ∧ m.lean.saveDue = false ∧ m.save.sealed = false ∧ m.save.regionsDone = 0
        ∧ (s.m.newestSlot = some 0 → m.save.slot = 1) ∧ (s.m.newestSlot ≠ some 0 → m.save.slot = 0) ∧ m.save.descs = s.m.save.descs)
  ∧ (∀ (a : Nat) (s : State), (s.m.ox a).flight ≠ [] → Answers .saveStart s s.m)
  ∧ (∀ (s : State) (k : SaveKind) (n : Nat), s.m.save.active = some k → n = (s.m.save.descs.filter fun p => p.2.getLsbD 127).length →
      Runs .saveCopyDone s fun m => m.save.active = none ∧ m.save.sealed = true ∧ m.save.slot = s.m.save.slot
        ∧ (s.m.save.slot = 0 → m.save.seal1 = s.m.save.seal1
            ∧ ∃ x, m.save.seal0 = some x ∧ x.incomplete = false ∧ x.regionsDone = n ∧ x.epoch.toNat = s.m.fld (pwrReg 0x20) 0 16
              ∧ (∀ y, s.m.save.seal0 = some y → y.seq < x.seq) ∧ (∀ y, s.m.save.seal1 = some y → y.seq < x.seq))
        ∧ (s.m.save.slot = 1 → m.save.seal0 = s.m.save.seal0
            ∧ ∃ x, m.save.seal1 = some x ∧ x.incomplete = false ∧ x.regionsDone = n ∧ x.epoch.toNat = s.m.fld (pwrReg 0x20) 0 16
              ∧ (∀ y, s.m.save.seal0 = some y → y.seq < x.seq) ∧ (∀ y, s.m.save.seal1 = some y → y.seq < x.seq)))
  ∧ (∀ (done : Fin 33) (s : State) (k : SaveKind), s.m.save.active = some k →
      done.val ≤ (s.m.save.descs.filter fun p => p.2.getLsbD 127).length →
      Runs (.vbusSeal done) s fun m => m.save.active = none ∧ m.save.regionsDone.toNat = done.val
        ∧ ∃ x, (if s.m.save.slot = 0 then m.save.seal0 else m.save.seal1) = some x ∧ x.incomplete = true ∧ x.regionsDone = done.val)
  ∧ (∀ (done : Fin 33) (s : State), s.m.save.active = none → Answers .saveCopyDone s s.m ∧ Answers (.vbusSeal done) s s.m)

/-! ## The Ox (chapters 3 to 5) -/

namespace Sys2Proof.Claims

/-- The oldest unissued instruction of a RUNNING Ox is `w` of opcode `op`, and the conditions of R117 to R119, R159, R162 and R563 let it issue: no
hold, no hazard, none of the causes of Table 5-9, its dither state drawn, and an issue token (R56); `n` is the module with the token taken. -/
def OxTurn (s : State) (a op : Nat) (w : BitVec 64) (n : Mach) : Prop :=
  (s.m.ox a).state = .running ∧ (s.m.ox a).ret = .none ∧ (s.m.ox a).queue.head? = some w ∧ (w.extractLsb' 58 6).toNat = op ∧ s.m.oxHeld a = false
    ∧ (s.m.ox a).ditherDue = false ∧ Mach.oxReady (s.m.ox a) w = true ∧ Mach.oxCauses (s.m.ox a) (s.m.bit (mgmtReg (agentDie a - 1) 0x200) 16) w = []
    ∧ s.m.takeToken a = (true, n)

/-- The Ox after the issue: the queue moves on, and `f` is in flight. -/
def issued (n : Mach) (a : Nat) (f : List OxFlight) : Mach :=
  n.modOx a fun x => { x with queue := x.queue.drop 1, index := x.index + 1, flight := x.flight ++ f }

/-- A row whose instruction issues, and goes into flight. -/
def OxFlyRow (c : OxId → Instr) (op : Nat) : Prop :=
  ∀ (o : OxId) (s : State) (w : BitVec 64) (n : Mach), OxTurn s o.agent op w n →
    Answers (c o) s (issued n o.agent [{ word := w, idx := (n.ox o.agent).index }])

/-- The one instruction in flight is `f`, of opcode `op`, and the item is not being returned. -/
def OnlyFlight (s : State) (a op : Nat) (f : OxFlight) : Prop :=
  (s.m.ox a).flight = [f] ∧ (f.word.extractLsb' 58 6).toNat = op ∧ (s.m.ox a).ret = .none

end Sys2Proof.Claims

/-- R107, R114, R117, R124, R140, R152, R154 to R157, R160: fetch and issue. NOP and FENCE do nothing more; LDW, LDS and ZAC go into flight; SWP exchanges
the sets for later passes; the first MMA ramps up; DRN latches d and SPTR, which advances by its rows; DSET writes a set; SWT issues as an acquire
once its object has reached the threshold, and waits else; SREL adds as a release. Where the spec leaves the reading open, the clauses follow the
model's choices: log entries 20, 23, 46, 48, 87, 127, 201, 210, 211. -/
def Obligations.OxFetchAndIssue : Prop :=
  (∀ (o : OxId) (s : State) (x : Ox) (n : Nat) (bs : List Byte) (m : Mach), x = s.m.ox o.agent → x.state = .running → x.ret = .none →
      x.fetchStop = false → s.m.flockOn (flockOf o.agent) = true → Die.running (s.m.die (agentDie o.agent - 1)) = true →
      n = min (8 - (x.entry + 8 * x.fetched) % 64 / 8) (65536 - x.fetched) → 0 < n → x.queue.length + n ≤ 256 →
      x.entry + 8 * x.fetched < 0x800000 → s.m.oxBytes (flockOf o.agent) (x.entry + 8 * x.fetched) (8 * n) = ((bs, false), m) →
      Answers (.oxProgFetch o) s (m.modOx o.agent fun y =>
        { y with queue := y.queue ++ (List.range n).map (fun i => BitVec.ofNat 64 (Bits.ofBytes ((bs.drop (8 * i)).take 8))), fetched := y.fetched + n }))
  ∧ (∀ (o : OxId) (s : State) (w : BitVec 64) (n : Mach), OxTurn s o.agent 1 w n → Answers (.oxNop o) s (issued n o.agent []))
  ∧ (∀ (o : OxId) (s : State) (w : BitVec 64) (n : Mach), OxTurn s o.agent 0x12 w n → Answers (.oxFence o) s (issued n o.agent []))
  ∧ (∀ (o : OxId) (s : State) (w : BitVec 64), (s.m.ox o.agent).queue.head? = some w → (w.extractLsb' 58 6).toNat = 0x12 →
      (s.m.ox o.agent).flight ≠ [] → Answers (.oxFence o) s s.m)
  ∧ OxFlyRow .oxLdw 4 ∧ OxFlyRow .oxLds 5 ∧ OxFlyRow .oxZac 9
  ∧ (∀ (o : OxId) (s : State) (w : BitVec 64) (n : Mach), OxTurn s o.agent 6 w n →
      Answers (.oxSwp o) s ((issued n o.agent [{ word := w, idx := (n.ox o.agent).index }]).modOx o.agent fun x => { x with front1 := !x.front1 }))
  ∧ (∀ (o : OxId) (s : State) (w : BitVec 64) (n : Mach), OxTurn s o.agent 8 w n → Mach.conforms w = true →
      (Mach.flying (s.m.ox o.agent) [8] = [] → s.m.rampHeld o.agent = false →
        Answers (.oxMma o) s (((issued n o.agent [{ word := w, idx := (n.ox o.agent).index, set1 := (n.ox o.agent).front1 }]).modOx o.agent
          fun x => { x with ramp := .up }).count (oxReg o.agent 0x24) false))
      ∧ (Mach.flying (s.m.ox o.agent) [8] ≠ [] →
          Answers (.oxMma o) s (issued n o.agent [{ word := w, idx := (n.ox o.agent).index, set1 := (n.ox o.agent).front1 }])))
  ∧ (∀ (o : OxId) (s : State) (w : BitVec 64) (n : Mach) (x : Ox), OxTurn s o.agent 0xC w n → x = n.ox o.agent →
      (w.getLsbD 10 = false → Answers (.oxDrn o) s ((issued n o.agent [{ word := w, idx := x.index, d := x.d0, sptr := x.sptr0 }]).modOx o.agent fun y =>
        { y with sptr0 := (x.sptr0 + ((w.extractLsb' 19 2).toNat + 1) * ((w.extractLsb' 21 10).toNat + 1)) % 2 ^ 23 }))
      ∧ (w.getLsbD 10 = true → Answers (.oxDrn o) s ((issued n o.agent [{ word := w, idx := x.index, d := x.d1, sptr := x.sptr1 }]).modOx o.agent fun y =>
        { y with sptr1 := (x.sptr1 + ((w.extractLsb' 19 2).toNat + 1) * ((w.extractLsb' 21 10).toNat + 1)) % 2 ^ 23 })))
  ∧ (∀ (o : OxId) (s : State) (w : BitVec 64) (n : Mach), OxTurn s o.agent 0xD w n →
      (w.getLsbD 57 = false → Answers (.oxDset o) s ((issued n o.agent []).modOx o.agent fun y =>
        { y with d0 := w.extractLsb' 23 32, sptr0 := (w.extractLsb' 0 23).toNat }))
      ∧ (w.getLsbD 57 = true → Answers (.oxDset o) s ((issued n o.agent []).modOx o.agent fun y =>
        { y with d1 := w.extractLsb' 23 32, sptr1 := (w.extractLsb' 0 23).toNat })))
  ∧ (∀ (o : OxId) (s : State) (w : BitVec 64) (n : Mach) (d i : Nat), OxTurn s o.agent 0x10 w n → d = (w.extractLsb' 53 3).toNat - 1 →
      i = (w.extractLsb' 41 12).toNat →
      (((n.syncObj d i).count - w.extractLsb' 17 24).toNat < 2 ^ 23 →
        Answers (.oxSwt o) s (issued ((n.syncForget (.ox o.agent)).syncAcquire d i (w.extractLsb' 56 2).toNat (agentLoc o.agent) (n.herdWide o.agent))
          o.agent []))
      ∧ (2 ^ 23 ≤ ((n.syncObj d i).count - w.extractLsb' 17 24).toNat → (∀ x ∈ (n.sync d).waits, x.who ≠ .ox o.agent) →
          Answers (.oxSwt o) s (n.syncWait d i (w.extractLsb' 17 24) (w.extractLsb' 56 2) (.ox o.agent))))
  ∧ (∀ (o : OxId) (s : State) (w : BitVec 64) (n : Mach) (d i : Nat), OxTurn s o.agent 0x11 w n → (s.m.ox o.agent).flight = [] →
      d + 1 = (w.extractLsb' 53 3).toNat → i = (w.extractLsb' 41 12).toNat → n.dieOut d = false → (n.sync d).waits = [] →
      Runs (.oxSrel o) s fun m => (m.syncObj d i).count = (n.syncObj d i).count + (w.extractLsb' 25 16).setWidth 24
        ∧ (m.ox o.agent).flight = [] ∧ (m.ox o.agent).effects = true ∧ (m.ox o.agent).index = (n.ox o.agent).index + 1)

namespace Sys2Proof.Claims

/-- The pairs of the rows that DRN `f` reads, read (R120): latent errors corrected or poisoned. -/
def drnTouched (m : Mach) (a : Nat) (f : OxFlight) : Mach :=
  m.forEach (Mach.drnRows f.word) fun m x => m.accTouch a x.1 (if (f.word.extractLsb' 9 1).toNat == 1 then 2 * x.2 else x.2)

/-- A line of DRN `f`'s output, in format `ft`, at address 64 * `l`. -/
def DrnLine (s : State) (a : Nat) (f : OxFlight) (ft : Fmt) (l : Nat) : Prop :=
  ∃ p ∈ (Mach.drnOut ((drnTouched s.m a f).ox a) (flockOf a) f ft).lines, p.line = l

end Sys2Proof.Claims

/-- R106, R120, R144, R145, R147, R150, R153, R161, R163: the ends of instructions in flight; each of these commands completes whenever the one
instruction in flight is its own. LDW fills the back set from flock memory and makes it valid; LDS makes its scale bytes valid, row by row; SWP's
wavefront ends; ZAC has zeroed its rows and their poison; DRN has written its lines and no others, the accumulators standing. A part of an LDW's or
LDS's lines enters, and of a DRN's lines is written, before the end. Where the spec leaves the reading open, the clauses follow the model's choices:
log entries 20, 47, 55, 127. -/
def Obligations.OxInstructionsComplete : Prop :=
  (∀ (o : OxId) (s : State) (f : OxFlight) (ft : Fmt) (n wd : Nat) (ts : List (Byte × Bool)), OnlyFlight s o.agent 4 f →
      Mach.opFmt (f.word.extractLsb' 18 5).toNat = some ft → f.word.getLsbD 22 = false → n = Mach.tileRows ft (f.word.getLsbD 17) → wd = Mach.tileWidth ft →
      ts = (s.m.oxTaken (flockOf o.agent) f.seen (64 * (f.word.extractLsb' 41 17).toNat) (n * wd)).1 →
      ∃ t, exec (.oxLdwDone ⟨o, none⟩) s = .next t ∧ t.pending = s.pending ∧
        let back := if (s.m.ox o.agent).front1 then (t.m.ox o.agent).w0 else (t.m.ox o.agent).w1
        back.valid = true ∧ back.spec = f.word.extractLsb' 18 5 ∧ back.poison = ts.any Prod.snd
          ∧ back.rows = (List.range n).map (fun r => unpack ft.bits 32 (((ts.map Prod.fst).drop (r * wd)).take wd))
          ∧ Mach.frontSet (t.m.ox o.agent) = Mach.frontSet (s.m.ox o.agent) ∧ (t.m.ox o.agent).flight = [])
  ∧ (∀ (o : OxId) (s : State) (f : OxFlight) (n k base : Nat), OnlyFlight s o.agent 5 f → n = (f.word.extractLsb' 18 10).toNat + 1 →
      k = (f.word.extractLsb' 17 1).toNat + 1 → base = (f.word.extractLsb' 28 10).toNat → base + n ≤ 1024 → s.m.fmUpset = [] → f.seen = [] →
      ∃ t, exec (.oxLdsDone ⟨o, none⟩) s = .next t ∧ t.pending = s.pending ∧ (t.m.ox o.agent).flight = []
        ∧ ∀ a r j, a ≤ (f.word.extractLsb' 38 2).toNat → r < n → j < k →
          (Mach.scaleByte (t.m.ox o.agent) a (base + r) j).valid = true
            ∧ (Mach.scaleByte (t.m.ox o.agent) a (base + r) j).code
                = Memory.read s.m.fm (Mach.flockMemBase (flockOf o.agent) + 32 * (f.word.extractLsb' 40 18).toNat + (a * n + r) * k + j))
  ∧ (∀ (o : OxId) (s : State) (f : OxFlight), OnlyFlight s o.agent 6 f →
      exec (.oxSwpDone o) s = .next (s.after (s.m.modOx o.agent fun x => { x with flight := [] })))
  ∧ (∀ (o : OxId) (s : State) (f : OxFlight), OnlyFlight s o.agent 9 f →
      ∃ t, exec (.oxZacDone o) s = .next t ∧ t.pending = s.pending ∧ (t.m.ox o.agent).flight = []
        ∧ ∀ a r c, a ≤ (f.word.extractLsb' 36 2).toNat → (f.word.extractLsb' 48 10).toNat ≤ r →
          r < (f.word.extractLsb' 48 10).toNat + (f.word.extractLsb' 38 10).toNat + 1 → r < 1024 → c < 32 →
          Mach.accEntry (t.m.ox o.agent) a r c = 0 ∧ Mach.pairPoison (t.m.ox o.agent) a r c = false)
  ∧ (∀ (o : OxId) (s : State) (f : OxFlight) (ft : Fmt), OnlyFlight s o.agent 0xC f → Fmt.ofSpec (f.word.extractLsb' 14 4).toNat (f.word.getLsbD 18) = some ft →
      ∃ t, exec (.oxDrnDone ⟨o, none⟩) s = .next t ∧ t.pending = s.pending ∧ (t.m.ox o.agent).flight = [] ∧ (t.m.ox o.agent).effects = true
        ∧ (t.m.ox o.agent).acc = (s.m.ox o.agent).acc ∧ (t.m.ox o.agent).w0 = (s.m.ox o.agent).w0
        ∧ (f.word.getLsbD 12 = false → (t.m.ox o.agent).dither = (s.m.ox o.agent).dither) ∧ t.m.hbm = s.m.hbm
        ∧ ∀ a, ¬ DrnLine s o.agent f ft (a / 64) → Memory.read t.m.fm a = Memory.read s.m.fm a)
  ∧ (∀ (o : OxId) (s : State) (f : OxFlight) (ft : Fmt) (ps : List Nat), OnlyFlight s o.agent 4 f → Mach.opFmt (f.word.extractLsb' 18 5).toNat = some ft →
      ∃ t, exec (.oxLdwDone ⟨o, (some ps)⟩) s = .next t ∧ t.pending = s.pending ∧ (t.m.ox o.agent).w0 = (s.m.ox o.agent).w0
        ∧ (t.m.ox o.agent).w1 = (s.m.ox o.agent).w1 ∧ ∃ seen, (t.m.ox o.agent).flight = [{ f with seen := seen }]
          ∧ ∀ l x, FMap.get none f.seen l = some x → FMap.get none seen l = some x)
  ∧ (∀ (o : OxId) (s : State) (f : OxFlight) (ps : List Nat), OnlyFlight s o.agent 5 f →
      ∃ t, exec (.oxLdsDone ⟨o, (some ps)⟩) s = .next t ∧ t.pending = s.pending ∧ (t.m.ox o.agent).scale = (s.m.ox o.agent).scale
        ∧ ∃ seen, (t.m.ox o.agent).flight = [{ f with seen := seen }] ∧ ∀ l x, FMap.get none f.seen l = some x → FMap.get none seen l = some x)
  ∧ (∀ (o : OxId) (s : State) (f : OxFlight) (ft : Fmt) (ps : List Nat), OnlyFlight s o.agent 0xC f →
      Fmt.ofSpec (f.word.extractLsb' 14 4).toNat (f.word.getLsbD 18) = some ft →
      ∃ t, exec (.oxDrnDone ⟨o, (some ps)⟩) s = .next t ∧ t.pending = s.pending ∧ (t.m.ox o.agent).acc = (s.m.ox o.agent).acc
        ∧ (t.m.ox o.agent).dither = (s.m.ox o.agent).dither
        ∧ (∃ new, (t.m.ox o.agent).flight = [{ f with done := f.done ++ new }] ∧ (∀ i ∈ new, i ∈ ps ∧ i ∉ f.done)
            ∧ ((t.m.ox o.agent).effects = true ↔ (s.m.ox o.agent).effects = true ∨ new ≠ []))
        ∧ ∀ a, ¬ DrnLine s o.agent f ft (a / 64) → Memory.read t.m.fm a = Memory.read s.m.fm a)

namespace Sys2Proof.Claims

/-- The oldest MMA in flight is `f`, on one array and uncompensated, without MX scales; its operands' formats are `af` and `wf`; it streams. -/
def MmaStreams (s : State) (a : Nat) (f : OxFlight) (af wf : Fmt) : Prop :=
  (s.m.ox a).flight = [f] ∧ (s.m.ox a).ret = .none ∧ (s.m.ox a).ramp ≠ .up ∧ (f.word.extractLsb' 58 6).toNat = 8 ∧ f.word.extractLsb' 29 2 = 0
    ∧ f.word.getLsbD 3 = false ∧ f.word.getLsbD 8 = false ∧ Mach.opFmt (f.word.extractLsb' 4 5).toNat = some af
    ∧ Mach.opFmt (if f.set1 then (s.m.ox a).w1 else (s.m.ox a).w0).spec.toNat = some wf ∧ (if f.set1 then (s.m.ox a).w1 else (s.m.ox a).w0).poison = false

/-- What array 0 computes in the pass: the activations read from flock memory against the set, with hardware errors `errs` (R127, R128). -/
def mmaPass (s : State) (a : Nat) (f : OxFlight) (af wf : Fmt) (bs : List Byte) (errs : List OxError) : Mach.ArrayPass :=
  Mach.arrayPass (if f.set1 then (s.m.ox a).w1 else (s.m.ox a).w0) af wf (unpack af.bits (Mach.passLen af wf) bs) [] (errs.filter fun e => e.array.val == 0)
    (s.m.fld (mgmtReg (agentDie a - 1) 0x200) 8 8) (s.m.fld (mgmtReg (agentDie a - 1) 0x200) 3 5)

/-- The bytes of the pass: the activation row from flock memory, read without poison; `m` is the module after the read. -/
def PassBytes (s : State) (a : Nat) (f : OxFlight) (af wf : Fmt) (bs : List Byte) (m : Mach) : Prop :=
  s.m.oxBytes (flockOf a) (64 * (f.word.extractLsb' 41 17).toNat + f.pass * Mach.actPitch af) (Mach.passLen af wf * af.bits / 8) = ((bs, false), m)

end Sys2Proof.Claims

/-- R93, R127, R130, R131, R146: a pass. Where the check agrees each accumulator of the row takes its column's update, and the next pass follows or the
MMA ends; a first mismatch commits nothing and runs the pass again; a second is a lasting fault, which takes the Ox out of service. Where the spec
leaves the reading open, the clauses follow the model's choices: log entries 20, 49, 50, 53, 55, 56, 127. -/
def Obligations.MmaPassesAndTheirCheck : Prop :=
  (∀ (o : OxId) (errs : List OxError) (s : State) (f : OxFlight) (af wf : Fmt) (bs : List Byte) (m' : Mach), MmaStreams s o.agent f af wf →
      PassBytes s o.agent f af wf bs m' → (mmaPass s o.agent f af wf bs errs).mismatch = false → f.word.getLsbD 2 = false →
      Runs (.oxMmaPass o errs) s fun m =>
        (∀ c (h : c < (mmaPass s o.agent f af wf bs errs).cols.length), c < 32 →
          Mach.accEntry (m.ox o.agent) 0 ((f.word.extractLsb' 9 10).toNat + f.pass) c
            = accUpdate (Mach.accEntry (s.m.ox o.agent) 0 ((f.word.extractLsb' 9 10).toNat + f.pass) c) ((mmaPass s o.agent f af wf bs errs).cols[c]))
        ∧ (∀ r c, c < 32 → r ≠ (f.word.extractLsb' 9 10).toNat + f.pass → Mach.accEntry (m.ox o.agent) 0 r c = Mach.accEntry (s.m.ox o.agent) 0 r c)
        ∧ (m.ox o.agent).flight = (if f.pass < (f.word.extractLsb' 19 10).toNat then [{ f with pass := f.pass + 1 }] else []))
  ∧ (∀ (o : OxId) (errs : List OxError) (s : State) (f : OxFlight) (af wf : Fmt) (bs : List Byte) (m' : Mach), MmaStreams s o.agent f af wf →
      PassBytes s o.agent f af wf bs m' → (mmaPass s o.agent f af wf bs errs).mismatch = true → f.retry = false →
      Runs (.oxMmaPass o errs) s fun m => (m.ox o.agent).acc = (s.m.ox o.agent).acc
        ∧ (m.ox o.agent).flight = [{ f with retry := true, failedAt := f.pass }]
        ∧ (m.ox o.agent).state = (s.m.ox o.agent).state)
  ∧ (∀ (o : OxId) (errs : List OxError) (s : State) (f : OxFlight) (af wf : Fmt) (bs : List Byte) (m' : Mach), MmaStreams s o.agent f af wf →
      PassBytes s o.agent f af wf bs m' → (mmaPass s o.agent f af wf bs errs).mismatch = true → f.retry = true → f.pass < 1024 →
      Runs (.oxMmaPass o errs) s fun m => (m.ox o.agent).acc = (s.m.ox o.agent).acc ∧ (m.ox o.agent).flight = [] ∧ (m.ox o.agent).state = .quarantined
        ∧ (m.ox o.agent).diagRunning = true ∧ ((m.ox o.agent).fault.extractLsb' 16 16).toNat = f.idx % 65536)

namespace Sys2Proof.Claims

/-- The unit runs item `i` of its own flock's pool, with no next item placed, and no stolen item. -/
def RunsItem (s : State) (a : Nat) (i : PoolItem) : Prop :=
  (s.m.collie (flockOf a)).pool = [i] ∧ i.place = .current (agentUnit a) ∧ (s.m.collie (flockOf a)).hosted = []

end Sys2Proof.Claims

/-- R124, R125, R132 to R137, R157, R158: items, ramps and service. END completes the item and leaves the Ox IDLE; a refused item goes back once nothing
is in flight; REQ 1 lets issued instructions complete and returns the items; REQ 2 discards them; REQ 0 returns a DISABLED Ox. DIAG starts a
diagnosis, which ramps up where R61 lets it; its end covers faulty cells with at most two rows and two columns, or fails the Ox. Where the spec leaves
the reading open, the clauses follow the model's choices: log entries 3, 52, 53, 54, 57, 145, 176, 177, 195. -/
def Obligations.OxItemsAndService : Prop :=
  (∀ (o : OxId) (s : State) (w : BitVec 64) (n : Mach) (i : PoolItem), OxTurn s o.agent 2 w n → RunsItem s o.agent i → (s.m.ox o.agent).itemPoison = false →
      Item.doneValid i.w = false →
      Runs (.oxEnd o) s fun m => (m.ox o.agent).state = .idle ∧ (m.ox o.agent).flight = [] ∧ (m.ox o.agent).queue = [] ∧ (m.collie (flockOf o.agent)).pool = []
        ∧ (m.collie (flockOf o.agent)).returns = (s.m.collie (flockOf o.agent)).returns)
  ∧ (∀ (o : OxId) (s : State) (w : BitVec 64) (i : PoolItem), RunsItem s o.agent i → (s.m.ox o.agent).state = .running →
      (s.m.ox o.agent).ret = .none → s.m.oxHeld o.agent = false → (s.m.ox o.agent).queue.head? = some w → Mach.oxAssigned w = false →
      (s.m.ox o.agent).flight = [] →
      Runs (.oxRefusedReturn o) s fun m => (m.ox o.agent).state = .idle ∧ (m.ox o.agent).queue = [] ∧ (m.ox o.agent).ret = .none
        ∧ (m.collie (flockOf o.agent)).returns = (s.m.collie (flockOf o.agent)).returns
            ++ [{ id := i.id, ev := .refused 1 ((s.m.ox o.agent).index % 65536), engine := i.lastEngine, stolenBy := 0 }])
  ∧ (∀ (o : OxId) (s : State), (s.m.ox o.agent).ramp = .up → Runs (.oxRampUpDone o) s fun m => (m.ox o.agent).ramp = .none)
  ∧ (∀ (o : OxId) (s : State), (s.m.ox o.agent).ramp = .down → Runs (.oxRampDownDone o) s fun m => (m.ox o.agent).ramp = .none)
  ∧ (∀ (o : OxId) (s : State), RegOpen s.m (oxReg o.agent 0) →
      ((s.m.ox o.agent).state = .disabled → (s.m.ox o.agent).diagRunning = false → (s.m.ox o.agent).diagOwed = false →
        Takes (.oxRun o) s (oxReg o.agent 0) (((s.m.setFld (oxReg o.agent 0) 0 2 0).modOx o.agent fun x => { x with disableNext := false }).modOx o.agent
          fun x => { x with state := .idle }))
      ∧ ((s.m.ox o.agent).state = .disabled → (s.m.ox o.agent).diagRunning = false → (s.m.ox o.agent).diagOwed = true →
        Takes (.oxRun o) s (oxReg o.agent 0) (((s.m.setFld (oxReg o.agent 0) 0 2 0).modOx o.agent fun x => { x with disableNext := false }).oxDiagnose
          o.agent))
      ∧ ((s.m.ox o.agent).state = .idle ∨ (s.m.ox o.agent).state = .running → (s.m.ox o.agent).ret = .none →
        Takes (.oxQuiesce o) s (oxReg o.agent 0) ((s.m.setFld (oxReg o.agent 0) 0 2 1).modOx o.agent fun x => { x with state := .quiescing, ret := .quiesce }))
      ∧ ((s.m.ox o.agent).state = .quarantined ∨ (s.m.ox o.agent).state = .failed →
        Takes (.oxRun o) s (oxReg o.agent 0) (s.m.badWrite (oxReg o.agent 0)) ∧ Takes (.oxQuiesce o) s (oxReg o.agent 0) (s.m.badWrite (oxReg o.agent 0))
          ∧ Takes (.oxForceDisable o) s (oxReg o.agent 0) (s.m.badWrite (oxReg o.agent 0)))
      ∧ ((s.m.ox o.agent).state = .running → (s.m.ox o.agent).flight = [] →
        Runs (.oxForceDisable o) s fun m => (m.ox o.agent).state = .quiescing ∧ (m.ox o.agent).ret = .force ∧ (m.ox o.agent).queue = []
          ∧ o.agent ∉ (m.die (agentDie o.agent - 1)).tokens)
      ∧ ((s.m.ox o.agent).state = .disabled → (s.m.ox o.agent).diagRunning = false →
        Takes (.oxDiag o) s (oxReg o.agent 0) ((s.m.setFld (oxReg o.agent 0) 3 1 1).oxDiagnose o.agent))
      ∧ ((s.m.ox o.agent).state ≠ .disabled → Takes (.oxDiag o) s (oxReg o.agent 0) s.m))
  ∧ (∀ (m : Mach) (a : Nat), (m.ox a).diagRunning = false →
      (m.rampHeld a = false → ((m.oxDiagnose a).ox a).diagRunning = true ∧ ((m.oxDiagnose a).ox a).diagHeld = false
        ∧ ((m.oxDiagnose a).ox a).ramp = .up ∧ ((m.oxDiagnose a).ox a).state = (m.ox a).state)
      ∧ (m.rampHeld a = true → m.oxDiagnose a = m.modOx a fun x => { x with diagRunning := true, diagHeld := true }))
  ∧ (∀ (o : OxId) (s : State), (s.m.ox o.agent).state = .quiescing → (s.m.ox o.agent).ret = .quiesce → (s.m.ox o.agent).flight = [] →
      (s.m.collie (flockOf o.agent)).hosted = [] →
      Runs (.oxQuiesceDone o) s fun m => (m.ox o.agent).state = .disabled ∧ (m.ox o.agent).ret = .none ∧ (m.ox o.agent).queue = [])
  ∧ (∀ (o : OxId) (s : State), (s.m.ox o.agent).state = .quiescing → (s.m.ox o.agent).ret = .force → (s.m.ox o.agent).flight = [] →
      Answers (.oxDisableDone o) s (s.m.modOx o.agent fun x => { x with state := .disabled, ret := .none }))
  ∧ (∀ (o : OxId) (s : State), (s.m.ox o.agent).diagRunning = true → (s.m.ox o.agent).diagHeld = false → (s.m.ox o.agent).ramp ≠ .up →
      (Runs (.oxDiagnosisDone o ⟨[], []⟩) s fun m =>
        (m.ox o.agent).state = (if (s.m.ox o.agent).disableNext then OxState.disabled else OxState.idle) ∧ (m.ox o.agent).repair = (s.m.ox o.agent).repair
          ∧ (m.ox o.agent).diagRunning = false ∧ (m.ox o.agent).diagFail = false)
      ∧ (∀ (b : Fin 4) (r : Fin 34) (p q : Fin 35), r.val < 32 → p ≠ q → FMap.get 0 (s.m.ox o.agent).repair b = 0 →
          (s.m.ox o.agent).disableNext = false →
          Runs (.oxDiagnosisDone o ⟨[⟨b, r, p⟩, ⟨b, r, q⟩], []⟩) s fun m => (m.ox o.agent).state = .idle ∧ (m.ox o.agent).remapped = true
            ∧ FMap.get 0 (m.ox o.agent).repair b = BitVec.ofNat 32 (0x80 + r.val))
      ∧ (∀ (b : Fin 4) (r : Fin 34) (p : Fin 35), r.val < 32 → p.val < 33 → FMap.get 0 (s.m.ox o.agent).repair b = 0 →
          (s.m.ox o.agent).disableNext = false →
          (Runs (.oxDiagnosisDone o ⟨[⟨b, r, p⟩], []⟩) s fun m => (m.ox o.agent).state = .idle ∧ (m.ox o.agent).remapped = true
            ∧ (FMap.get 0 (m.ox o.agent).repair b = BitVec.ofNat 32 (0x80 + r.val)
                ∨ FMap.get 0 (m.ox o.agent).repair b = BitVec.ofNat 32 ((0xC0 + p.val) * 65536)))
          ∧ (Runs (.oxDiagnosisDone o ⟨[], [⟨b, r, p⟩]⟩) s fun m => (m.ox o.agent).state = .failed ∧ (m.ox o.agent).diagFail = true))
      ∧ (∀ (b : Fin 4) (cells : List OxCell), (∀ x ∈ cells, x.array = b) → (cells.map fun x => x.row).Nodup → (cells.map fun x => x.col).Nodup →
          5 ≤ cells.length →
          Runs (.oxDiagnosisDone o ⟨cells, []⟩) s fun m => (m.ox o.agent).state = .failed ∧ (m.ox o.agent).diagFail = true
            ∧ (m.ox o.agent).diagRunning = false))

/-! ## The Collie and the sync units (chapters 8 and 9) -/

namespace Sys2Proof.Claims

/-- The Collie delivers (R66, R278), its pool holds `i` alone, and it hosts nothing. -/
def OneItem (s : State) (fb : Nat) (i : PoolItem) : Prop :=
  s.m.collieActs fb = true ∧ (s.m.collie fb).pool = [i] ∧ (s.m.collie fb).hosted = []

/-- Item `w` has started on unit `u` of flock `fb` (R142, R258, R259): an Ox runs from its entry; a Hen's item is delivered, with its arguments. -/
def StartedOn (m : Mach) (fb u : Nat) (w : BitVec 512) (holder : Nat) (stolen : Bool) : Prop :=
  (16 ≤ u → (m.ox (fb + u)).state = .running ∧ (m.ox (fb + u)).entry = Item.entry w ∧ (m.ox (fb + u)).index = 0 ∧ (m.ox (fb + u)).flight = []
      ∧ (m.ox (fb + u)).d0 = 0x3F800000#32 ∧ (m.ox (fb + u)).w0.valid = false ∧ (m.ox (fb + u)).w1.valid = false)
  ∧ (u < 16 → FMap.get 0 (m.collie fb).slots u = 1 ∧ (m.hen (fb + u)).arg0 = w.extractLsb' 128 64 ∧ (m.hen (fb + u)).arg1 = w.extractLsb' 192 64
      ∧ (m.hen (fb + u)).arg2.toNat = Mach.flockMemBase fb % 2 ^ 64
      ∧ (m.hen (fb + u)).arg3.toNat = (holder + (if stolen then 0x2000 else 0) + 0x4000 * Item.retry w) % 2 ^ 64 ∧ (m.hen (fb + u)).ipCollie = true)

end Sys2Proof.Claims

/-- R256 to R262, R268, R274, R275: an item is given to the lowest unit in service with an empty current place, and starts there; TAKE, DONE and FAIL move a
delivered item on; a returned item goes back to the head of its queue, with RETRY raised where Table 8-5 says so, or fails with a record. Where the
spec leaves the reading open, the clauses follow the model's choices: log entries 3, 85, 176, 177. -/
def Obligations.CollieItems : Prop :=
  (∀ (f : FlockId) (hen : Bool) (u : Nat) (s : State) (i : PoolItem), OneItem s f.base i → i.place = .queued → i.queue ≤ 4 → Item.hen i.w = hen →
      Item.waits i.w = false → (if hen then u < 16 else 16 ≤ u ∧ u < 20) → s.m.unitUp f.base u = true →
      (∀ v, v < u → (if hen then v < 16 else 16 ≤ v) → s.m.unitUp f.base v = false) →
      Runs (.collieDispatch f hen) s fun m =>
        (m.collie f.base).pool = [{ i with place := .current u, placed := (s.m.collie f.base).placings, lastEngine := f.base + u }]
        ∧ (m.collie f.base).placings = (s.m.collie f.base).placings + 1 ∧ StartedOn m f.base u i.w (collieOf f.base) false)
  ∧ (∀ (f : FlockId) (h : Fin 16) (s : State), RegOpen s.m (Mach.colHenReg f.base h) →
      (s.m.slotOf f.base h = 1 → Takes (.itemTake f h) s (Mach.colHenReg f.base h)
        ((s.m.modCollie f.base fun c => { c with slots := FMap.set 0 c.slots h 2 }).modHen (f.base + h) fun x => { x with ipCollie := false }))
      ∧ (s.m.slotOf f.base h ≠ 1 → Takes (.itemTake f h) s (Mach.colHenReg f.base h) (s.m.count (flockReg f.base 0x2C) true))
      ∧ (s.m.slotOf f.base h ≠ 2 → Takes (.itemDone f h) s (Mach.colHenReg f.base h) (s.m.count (flockReg f.base 0x2C) true)))
  ∧ (∀ (f : FlockId) (h : Fin 16) (s : State) (i : PoolItem), RegOpen s.m (Mach.colHenReg f.base h) → s.m.slotOf f.base h = 2 →
      (s.m.collie f.base).pool = [i] → i.place = .current h →
      (Item.doneValid i.w = false → Runs (.itemDone f h) s fun m => (m.collie f.base).pool = [] ∧ m.slotOf f.base h = 0)
      ∧ (∀ d j, d < 4 → Item.doneValid i.w = true → Item.doneObj i.w = 4096 * (d + 1) + j → j < 4096 → s.m.dieOut d = false → (s.m.sync d).waits = [] →
          Runs (.itemDone f h) s fun m => (m.collie f.base).pool = [] ∧ (m.syncObj d j).count = (s.m.syncObj d j).count + 1)
      ∧ (∀ fc : BitVec 8, 0x80 ≤ fc.toNat → (s.m.collie f.base).hosted = [] →
          Runs (.itemFail f h fc) s fun m => (m.collie f.base).pool = [{ i with place := .ended }] ∧ m.slotOf f.base h = 0
            ∧ (m.collie f.base).returns = (s.m.collie f.base).returns ++ [{ id := i.id, ev := .failed fc.toNat, engine := i.lastEngine, stolenBy := 0 }]))
  ∧ (∀ (f : FlockId) (s : State) (r : ItemRet) (i : PoolItem), (s.m.collie f.base).returns = [r] → (s.m.collie f.base).pool = [i] → r.w = none → r.id = i.id →
      Item.waits i.w = false →
      (r.ev = .plain → Runs (.itemReturn f) s fun m => (m.collie f.base).returns = [] ∧ (m.collie f.base).pool = [{ i with place := .queued, thief := 0 }])
      ∧ (r.ev = .raised → Item.idem i.w = true → Item.retry i.w < Item.retryMax i.w →
          Runs (.itemReturn f) s fun m => (m.collie f.base).pool = [{ i with w := Item.raise i.w, place := .queued, thief := 0 }]
            ∧ m.fld (flockReg f.base 0x28) 0 16 = min 0xFFFF (s.m.fld (flockReg f.base 0x28) 0 16 + 1))
      ∧ (r.ev = .raised → Item.idem i.w = false → (s.m.collie f.base).fails.length < 32 → s.m.bit (flockReg f.base 0x18) 15 = false →
          Runs (.itemReturn f) s fun m => (m.collie f.base).pool = [] ∧ (m.collie f.base).fails = (s.m.collie f.base).fails
            ++ [Mach.failRecord i.w 2 r.engine 0 r.stolenBy]))

/-- R263 to R268, R272: stealing. An idle engine takes a sibling's next item; a round lists the flocks to probe; a probe takes an item from the victim, or
counts PROBE_MISS; the item starts once its copies are in, and leaves its Collie's pool once its outputs have landed. Where the spec leaves the
reading open, the clauses follow the model's choices: log entries 83, 84, 85, 111. -/
def Obligations.CollieSteals : Prop :=
  (∀ (f : FlockId) (u : Fin 20) (v : Nat) (s : State) (i : PoolItem), OneItem s f.base i → i.place = .next v → v ≠ u.val → (v < 16 ↔ u.val < 16) →
      Item.pin i.w = false → i.queue ≠ 4 → s.m.unitUp f.base u = true →
      (16 ≤ u.val → (s.m.ox (f.base + u)).tokenWait = false ∧ s.m.oxBarred (f.base + u) = false ∧ s.m.rampHeld (f.base + u) = false) →
      Runs (.stealSib f u) s fun m =>
        (m.collie f.base).pool = [{ i with place := .current u, placed := (s.m.collie f.base).placings, lastEngine := f.base + u }]
        ∧ StartedOn m f.base u i.w (collieOf f.base) false)
  ∧ (∀ (f : FlockId) (s : State) (u : Nat), s.m.collieActs f.base = true → s.m.bit (flockReg f.base 8) 0 = true → (s.m.collie f.base).roundOx = none →
      (s.m.collie f.base).hosted = [] → (s.m.collie f.base).pool = [] → 16 ≤ u → u < 20 → s.m.stealIdle f.base u = true →
      Answers (.probeRound f false) s (s.m.modCollie f.base fun c =>
        { c with roundOx := some { targets := s.m.roundTargets f.base false, probes := 0, xdie := false }, missOx := false }))
  ∧ (∀ (f : FlockId) (s : State) (u v w : Nat) (rest : List Nat) (k : Nat), s.m.collieActs f.base = true → 16 ≤ u → u < 20 → s.m.stealIdle f.base u = true →
      (s.m.collie f.base).hosted.length < 8 →
      (s.m.collie f.base).roundOx = some { targets := v :: w :: rest, probes := k, xdie := false } → s.m.stealable f.base v false false = none →
      Answers (.probe f false) s ((s.m.count (flockReg f.base 0x24) true).modCollie f.base fun c =>
        { c with roundOx := some { targets := w :: rest, probes := k + 1, xdie := false } }))
  ∧ (∀ (f : FlockId) (s : State) (v : Nat) (rest : List Nat) (k : Nat) (i : PoolItem), s.m.collieActs f.base = true → v ≠ f.base →
      (∃ u, 16 ≤ u ∧ u < 20 ∧ s.m.stealIdle f.base u = true) → (s.m.collie f.base).hosted.length < 8 →
      (s.m.collie f.base).roundOx = some { targets := v :: rest, probes := k, xdie := false } → s.m.stealable f.base v false false = some i →
      Item.waits i.w = false →
      Runs (.probe f false) s fun m => (m.collie f.base).roundOx = none
        ∧ (∀ j ∈ (m.collie v).pool, j.id = i.id → j.place = .away f.base ∧ j.thief = collieOf f.base
            ∧ ∃ k ∈ (s.m.collie v).pool, j = { k with place := j.place, thief := j.thief })
        ∧ ∃ x u, (m.collie f.base).hosted = (s.m.collie f.base).hosted ++ [x] ∧ x.victim = v ∧ x.id = i.id ∧ x.w = i.w ∧ x.unit = u
          ∧ s.m.stealIdle f.base u = true ∧ x.started = false ∧ x.last = i.lastEngine ∧ x.copies = ((Tile.flocks i.w).filter Tile.isIn).length)
  ∧ (∀ (f : FlockId) (s : State) (t : Round) (u : Nat), s.m.collieActs f.base = true → (s.m.collie f.base).roundOx = some t → t.targets ≠ [] →
      16 ≤ u → u < 20 → s.m.stealIdle f.base u = true → 8 ≤ (s.m.collie f.base).hosted.length →
      Answers (.probe f false) s (s.m.modCollie f.base fun c => { c with roundOx := none }))
  ∧ (∀ (f : FlockId) (u : Fin 20) (s : State) (x : Hosted), (s.m.collie f.base).hosted = [x] → x.unit = u.val → x.started = false → x.back = false →
      x.copies = 0 → x.copyErr = false → s.m.collieActs f.base = true → s.m.unitUp f.base u = true →
      Runs (.stealCopyDone f u) s fun m => (m.collie f.base).hosted = [{ x with started := true, last := f.base + u }]
        ∧ StartedOn m f.base u x.w (collieOf x.victim) true)
  ∧ (∀ (f : FlockId) (u : Fin 20) (s : State) (x : Hosted), (s.m.collie f.base).hosted = [x] → x.unit = u.val → x.back = true → x.copies = 0 →
      x.copyErr = false → x.victim ≠ f.base → s.m.flockOn x.victim = true → (s.m.die (agentDie x.victim - 1)).dead = false →
      Item.doneValid x.w = false →
      Runs (.copyBackDone f u) s fun m => (m.collie f.base).hosted = [] ∧ (m.collie x.victim).pool = (s.m.collie x.victim).pool.filter fun i => i.id ≠ x.id)

namespace Sys2Proof.Claims

/-- Every Hen of the flock is DISABLED. -/
def HensDisabled (s : State) (fb : Nat) : Prop := ∀ u, u < 16 → (s.m.hen (fb + u)).state = .disabled

end Sys2Proof.Claims

/-- R247, R278, R279, R281, R282: the service of a flock and its sync unit. REQ 0 returns DISABLED engines; REQ 1 quiesces and REQ 2 discards; QUIESCED
follows once nothing moves; EVICT hands the queued items to the target; patrol scrub reads the next line; SYNC_COUNT sets a count. Where the spec
leaves the reading open, the clauses follow the model's choices: log entries 3, 60, 71, 82, 86, 87, 176, 177. -/
def Obligations.CollieServiceAndSync : Prop :=
  (∀ (f : FlockId) (s : State), RegOpen s.m (flockReg f.base 0) →
      (HensDisabled s f.base →
        Runs (.collieRun f) s fun m => (m.collie f.base).state = .running ∧ (∀ u, u < 16 → (m.hen (f.base + u)).state = .running)
          ∧ (∀ u, u < 4 → (s.m.ox (f.base + 16 + u)).state = .disabled → (s.m.ox (f.base + 16 + u)).diagRunning = false →
              (s.m.ox (f.base + 16 + u)).diagOwed = false → (m.ox (f.base + 16 + u)).state = .idle))
      ∧ (HensDisabled s f.base → (s.m.collie f.base).state = .running → (s.m.collie f.base).hosted = [] →
          (Runs (.collieQuiesce f) s fun m => (m.collie f.base).state = .quiescing ∧ (m.collie f.base).roundOx = none ∧ (m.collie f.base).roundHen = none
            ∧ m.fld (flockReg f.base 0) 0 2 = 1 ∧ (∀ u, u < 4 → (s.m.ox (f.base + 16 + u)).state = .running → (m.ox (f.base + 16 + u)).state = .quiescing))
          ∧ (Runs (.collieForceQuiesce f) s fun m => (m.collie f.base).state = .quiescing ∧ m.fld (flockReg f.base 0) 0 2 = 2
            ∧ (∀ u, u < 4 → (s.m.ox (f.base + 16 + u)).state = .running → (m.ox (f.base + 16 + u)).state = .quiescing ∧ (m.ox (f.base + 16 + u)).ret = .force))))
  ∧ (∀ (f : FlockId) (s : State), (s.m.collie f.base).state = .quiescing → HensDisabled s f.base →
      (∀ u, u < 4 → (s.m.ox (f.base + 16 + u)).state = .disabled) → (s.m.collie f.base).hosted = [] →
      (∀ i ∈ (s.m.collie f.base).pool, i.place = .queued) → (s.m.collie f.base).returns = [] →
      (∀ d ∈ (s.m.mule (f.base + 21)).descs, d.collie = none) →
      Answers (.collieQuiesceDone f) s (s.m.modCollie f.base fun c => { c with state := .quiesced }))
  ∧ (∀ (f : FlockId) (s : State), (s.m.collie f.base).returns ≠ [] → Answers (.collieQuiesceDone f) s s.m)
  ∧ (∀ (f : FlockId) (u : Nat) (s : State), (s.m.hen (f.base + u)).state = .running → u < 16 → Answers (.collieQuiesceDone f) s s.m)
  ∧ (∀ (f g : FlockId) (s : State) (i : PoolItem), RegOpen s.m (flockReg f.base 0) → (s.m.collie f.base).state = .quiesced → g.base ≠ f.base →
      s.m.fld (flockReg f.base 0x14) 0 13 = collieOf g.base → (s.m.collie f.base).pool = [i] → i.place = .queued → i.queue < 4 →
      (s.m.collie g.base).state = .running → s.m.flockOn g.base = true → (s.m.die (agentDie g.base - 1)).dead = false →
      (s.m.collie g.base).pool.length < 1024 → s.m.badItem i.w = false →
      Item.waits i.w = false →
      Runs (.collieEvict f) s fun m => (m.collie f.base).pool = [] ∧ (m.collie g.base).pool = (s.m.collie g.base).pool
        ++ [{ id := (s.m.collie g.base).nextId, w := i.w, queue := i.queue }])
  ∧ (∀ (f : FlockId) (s : State), RegOpen s.m (flockReg f.base 0) → (s.m.collie f.base).state ≠ .quiesced →
      Takes (.collieEvict f) s (flockReg f.base 0) (s.m.badWrite (flockReg f.base 0)))
  ∧ (∀ (f : FlockId) (s : State) (l : Nat), s.m.flockOn f.base = true → l = Mach.flockMemBase f.base / 64 + (s.m.collie f.base).scrub.toNat →
      Runs (.flockScrubRead f) s fun m => (m.collie f.base).scrub = (s.m.collie f.base).scrub + 1 ∧ m.fm = s.m.fm
        ∧ (FMap.get 0 s.m.fmUpset l = 1 → FMap.get 0 m.fmUpset l = 0 ∧ FMap.get false m.fmPoison l = FMap.get false s.m.fmPoison l
            ∧ m.fld (flockReg f.base 0x100) 0 16 = min 0xFFFF (s.m.fld (flockReg f.base 0x100) 0 16 + 1))
        ∧ (FMap.get 0 s.m.fmUpset l = 2 → FMap.get 0 m.fmUpset l = 0 ∧ FMap.get false m.fmPoison l = true))
  ∧ (∀ (d : Fin 4) (a rd i : Nat) (t : BitVec 24) (sc : BitVec 2) (s : State), (s.m.sync d).waits = [{ index := i, thresh := t, scope := sc, who := .hen a, polled := true }] →
      (∃ x, (s.m.hen a).wait = .swait rd x d i t sc) → ((s.m.syncObj d i).count - t).toNat < 2 ^ 23 → (s.m.syncObj d i).rel = none → rd ≠ 0 →
      (s.m.hen a).state = .running →
      Runs (.waitPoll d) s fun m => (m.sync d).waits = [] ∧ (m.hen a).wait = .none ∧ m.g a rd = (s.m.syncObj d i).count.setWidth 64)
  ∧ (∀ (d : Fin 4) (i : Fin 4096) (v : BitVec 32) (s : State), RegOpen s.m (syncReg d (0x4000 + 4 * i)) → (s.m.sync d).waits = [] →
      Runs (.syncCountWrite d i v) s fun m => m.syncObj d i = { count := v.setWidth 24, rel := none } ∧ ∀ j, j ≠ i.val → m.syncObj d j = s.m.syncObj d j)

/-! ## Mules (chapter 9) -/

namespace Sys2Proof.Claims

/-- The Mule's one descriptor `d` is active as the `k`th started, without an error or a stall, and nothing of it is outstanding; it does not promote, and no
line of flock memory holds an error. -/
def MuleHas (s : State) (a k : Nat) (d : Desc) : Prop :=
  (s.m.mule a).descs = [d] ∧ d.started = some k ∧ d.finished = false ∧ d.err = none ∧ d.stall = .none ∧ d.asking = none ∧ d.unlanded = []
    ∧ s.m.muleOn a = true ∧ Desc.isPromote d.w = false ∧ s.m.fmUpset = [] ∧ s.m.fmPoison = []

/-- The address lies in the flock memory of a flock in service, on a die that answers (R24, R46, R49). -/
def FlockByte (s : State) (pa : Nat) : Prop :=
  pa < 2 ^ 56 ∧ ∃ fb, s.m.target pa = .flock fb pa ∧ s.m.targetDead (.flock fb pa) = false ∧ s.m.targetHeld (.flock fb pa) = false

/-- The line of flock memory that the descriptor reads at `pa`, with its poison: the one it has kept, or the one in memory (R300). -/
def lineRead (s : State) (d : Desc) (index : Bool) (pa : Nat) : BitVec 512 × Bool :=
  (Mach.keptLine d index pa).getD (Memory.line s.m.fm (pa / 64), false)

/-- The index that GATHER or SCATTER reads for its element (R293): the number at its place in the index list, in flock memory. -/
def IndexRead (s : State) (d : Desc) (i : Nat) : Prop :=
  ∃ a, a = Desc.idx d.w + 4 * (d.progress / Desc.esize d.w) ∧ a % 4 = 0 ∧ FlockByte s a ∧ (lineRead s d true a).2 = false
    ∧ i = lineField (lineRead s d true a).1 (a % 64) 4

/-- Byte `j` of a line. -/
def lineByte (v : BitVec 512) (j : Nat) : Byte := v.extractLsb' (8 * j) 8

/-- Byte `j` of what the bytes `ch` of a move of operation `op` carry. -/
def movedByte (s : State) (d : Desc) (ch : Chunk) (op j : Nat) : Byte :=
  if op = 5 then BitVec.ofNat 8 (wordFld d.w 1 0 64 / 2 ^ (8 * ((ch.x + j) % 8))) else lineByte (lineRead s d false ch.src).1 (ch.src % 64 + j)

/-- `o` is the destination line as the descriptor has built it with the bytes `ch` (R294, R310): they join those it had. -/
def Built (s : State) (d : Desc) (ch : Chunk) (op : Nat) (o : OutLine) : Prop :=
  o.pa / 64 = ch.dst / 64 ∧ ∀ j, j < 64 →
    (ch.dst % 64 ≤ j → j < ch.dst % 64 + ch.len → o.mask.getLsbD j = true ∧ lineByte o.data j = movedByte s d ch op (j - ch.dst % 64))
    ∧ (j < ch.dst % 64 ∨ ch.dst % 64 + ch.len ≤ j → o.mask.getLsbD j = d.out.any (fun p => p.mask.getLsbD j)
        ∧ ∀ p, d.out = some p → p.mask.getLsbD j = true → lineByte o.data j = lineByte p.data j)

/-- Flock memory has taken line `o`, and nothing else. -/
def LineWritten (s : State) (m : Mach) (o : OutLine) : Prop :=
  ∀ x, Memory.read m.fm x = if x / 64 = o.pa / 64 ∧ o.mask.getLsbD (x % 64) = true then lineByte o.data (x % 64) else Memory.read s.m.fm x

/-- One step of a move (R290, R291, R293, R294, R310): the next bytes `ch` in element order join the destination line that the descriptor builds, which is
written where they are its last, or where the bytes that follow lie in another line; no other byte of memory changes, and the descriptor moves on by
their number. -/
def MoveRow (c : MuleId → Nat → Nat → Instr) (op : Nat) : Prop :=
  (∀ (u : MuleId) (k i : Nat) (s : State) (d : Desc) (ch : Chunk), MuleHas s u.agent k d → Desc.op d.w = op → (op = 3 ∨ op = 4 → IndexRead s d i) →
    ch = chunkAt d.w d.progress i → (op ≠ 5 → FlockByte s ch.src ∧ (lineRead s d false ch.src).2 = false) → FlockByte s ch.dst →
    d.progress < Desc.total d.w →
    ((∀ p, d.out = some p → p.bad = none ∧ FlockByte s p.pa ∧ Mach.outTakes d.w p ch = true) →
      Runs (c u k 1) s fun m => ∃ o d', Built s d ch op o ∧ (m.mule u.agent).descs = [d'] ∧ d'.w = d.w ∧ d'.progress = d.progress + ch.len ∧ d'.err = none
        ∧ m.hbm = s.m.hbm
        ∧ (d.progress + ch.len < Desc.total d.w → d'.out = some o ∧ d'.finished = false ∧ m.fm = s.m.fm)
        ∧ (Desc.total d.w ≤ d.progress + ch.len → d'.out = none ∧ d'.finished = true ∧ LineWritten s m o))
    ∧ (∀ p, d.out = some p → p.bad = none → FlockByte s p.pa → p.pa / 64 ≠ ch.dst / 64 → p.pa / 64 ≠ ch.src / 64 →
        d.progress + ch.len < Desc.total d.w →
        Runs (c u k 1) s fun m => ∃ o d', Built s { d with out := none } ch op o ∧ (m.mule u.agent).descs = [d'] ∧ d'.w = d.w
          ∧ d'.progress = d.progress + ch.len ∧ d'.err = none ∧ d'.out = some o ∧ m.hbm = s.m.hbm ∧ LineWritten s m p))
  ∧ (∀ (u : MuleId) (k : Nat) (s : State) (d : Desc) (p : OutLine), MuleHas s u.agent k d → Desc.op d.w = op → d.out = some p → p.bad = none →
      FlockByte s p.pa → Desc.total d.w ≤ d.progress →
      Runs (c u k 1) s fun m => LineWritten s m p ∧ m.hbm = s.m.hbm
        ∧ ∃ d', (m.mule u.agent).descs = [d'] ∧ d'.w = d.w ∧ d'.progress = d.progress ∧ d'.out = none ∧ d'.finished = true ∧ d'.err = none)

end Sys2Proof.Claims

/-- R290 to R294, R300, R310: the data movement of a descriptor, step by step: COPY, TRANSPOSE, GATHER, SCATTER and FILL build each destination line and write
it as one request; REDUCE sends the source elements of a line to its home slice, and the write is outstanding. COPY's bytes lie at the strides of
their row, plane and block. Where the spec leaves the reading open, the clauses follow the model's choices: log entries 89, 203, 204, 208. -/
def Obligations.MuleDataMovement : Prop :=
  MoveRow .muleCopy 1 ∧ MoveRow .muleTranspose 2 ∧ MoveRow .muleGather 3 ∧ MoveRow .muleScatter 4 ∧ MoveRow .muleFill 5
  ∧ (∀ (u : MuleId) (k sa l : Nat) (s : State) (d : Desc) (ch : Chunk), MuleHas s u.agent k d → Desc.op d.w = 6 → ch = chunkAt d.w d.progress 0 →
      FlockByte s ch.src → (lineRead s d false ch.src).2 = false → ch.dst < 2 ^ 56 → s.m.target ch.dst = .home sa → s.m.targetDead (.home sa) = false →
      s.m.targetHeld (.home sa) = false → l = sa / 64 → l ∉ s.m.tier.flashStall → s.m.deepHeld l true = false → d.out = none →
      d.progress < Desc.total d.w →
      (d.progress + ch.len < Desc.total d.w → Runs (.muleReduce u k 1) s fun m => m.fm = s.m.fm ∧ m.hbm = s.m.hbm ∧ m.coh.slices = s.m.coh.slices
        ∧ ∃ o d', Built s d ch 6 o ∧ (m.mule u.agent).descs = [d'] ∧ d'.out = some o ∧ d'.progress = d.progress + ch.len ∧ d'.unlanded = [])
      ∧ (Desc.total d.w ≤ d.progress + ch.len → Runs (.muleReduce u k 1) s fun m => m.fm = s.m.fm ∧ m.hbm = s.m.hbm
        ∧ (∃ e, (m.slice (homeSlice (64 * l))).waiting = (s.m.slice (homeSlice (64 * l))).waiting ++ [e] ∧ e.agent = u.agent ∧ e.line = l
            ∧ e.code = 512 + 4 * wordFld d.w 7 0 3 + wordFld d.w 7 4 2 ∧ e.mask = byteMask (ch.dst % 64) ch.len ∧ e.desc = k
            ∧ ∀ j, j < ch.len → lineByte e.arg (ch.dst % 64 + j) = movedByte s d ch 6 j)
        ∧ ∃ d', (m.mule u.agent).descs = [d'] ∧ d'.progress = d.progress + ch.len ∧ d'.unlanded = [(atmKey l, ch.elem)]))
  ∧ (∀ (w : BitVec 512) (x y z v : Nat), Desc.op w = 1 → Desc.isVolatile w = false → x < Desc.xlen w → y < Desc.ycnt w → z < Desc.zcnt w → v < Desc.wcnt w →
      let p := ((v * Desc.zcnt w + z) * Desc.ycnt w + y) * Desc.xlen w + x
      (chunkAt w p 0).src = (BitVec.ofInt 64 (Desc.src w + x + y * Desc.stride w 4 false + z * Desc.stride w 5 false + v * Desc.stride w 6 false)).toNat
      ∧ (chunkAt w p 0).dst = (BitVec.ofInt 64 (Desc.dst w + x + y * Desc.stride w 4 true + z * Desc.stride w 5 true + v * Desc.stride w 6 true)).toNat
      ∧ 0 < (chunkAt w p 0).len ∧ (chunkAt w p 0).src % 64 + (chunkAt w p 0).len ≤ 64 ∧ (chunkAt w p 0).dst % 64 + (chunkAt w p 0).len ≤ 64)

/-- R286, R295, R302, R304 to R307: a descriptor starts in its queue's turn, with BAD_DESC where a check fails; it completes with its release once its writes have
landed; an error writes its record and halts queue 0. REQ 0, 1 and 2, RESUME0 and FLUSH act as MULE_CTL says. Where the spec leaves the reading open,
the clauses follow the model's choices: log entries 3, 20, 88, 89, 90, 91, 92, 93, 127, 176, 177. -/
def Obligations.MuleDescriptorsAndService : Prop :=
  (∀ (u : MuleId) (s : State) (d : Desc), (s.m.mule u.agent).state = .running → s.m.muleOn u.agent = true → s.m.inLean = false →
      (s.m.mule u.agent).q0Halted = false → (s.m.mule u.agent).descs = [d] → d.started = none → d.queue < 4 →
      Runs (.muleDescStart u) s fun m => (m.mule u.agent).descs
          = [{ d with started := some (s.m.mule u.agent).starts, err := if Desc.bad d.w d.queue then some (1, 0, 0) else none }]
        ∧ (m.mule u.agent).starts = (s.m.mule u.agent).starts + 1 ∧ (m.mule u.agent).turn = (d.queue + 1) % 4)
  ∧ (∀ (u : MuleId) (k : Nat) (s : State) (d : Desc), (s.m.mule u.agent).descs = [d] → d.started = some k → d.finished = true → d.err = none → d.unlanded = [] →
      d.collie = none → (s.m.mule u.agent).q0Halted = false →
      (wordFld d.w 0 9 1 = 0 → Runs (.muleDescComplete u k) s fun m => (m.mule u.agent).descs = [] ∧ m.syncs = s.m.syncs)
      ∧ (∀ e i, e < 4 → i < 4096 → wordFld d.w 0 9 1 = 1 → wordFld d.w 0 12 15 = 4096 * (e + 1) + i → s.m.dieOut e = false → (s.m.sync e).waits = [] →
          Runs (.muleDescComplete u k) s fun m => (m.mule u.agent).descs = [] ∧ (m.syncObj e i).count = (s.m.syncObj e i).count + 1))
  ∧ (∀ (u : MuleId) (k : Nat) (s : State) (d : Desc), (s.m.mule u.agent).descs = [d] → d.started = some k → d.unlanded ≠ [] →
      Answers (.muleDescComplete u k) s s.m)
  ∧ (∀ (u : MuleId) (k c a e : Nat) (s : State) (d : Desc), (s.m.mule u.agent).descs = [d] → d.started = some k → d.err = some (c, a, e) → d.unlanded = [] →
      d.asking = none → d.collie = none → (s.m.mule u.agent).errors.length < 16 → s.m.bit (muleReg u.agent 0xC) 15 = false →
      Runs (.muleDescError u k) s fun m => (m.mule u.agent).descs = [] ∧ (m.mule u.agent).errors = (s.m.mule u.agent).errors ++ [Mach.muleRecord d c a e]
        ∧ (m.mule u.agent).q0Halted = ((s.m.mule u.agent).q0Halted || d.queue == 0)
        ∧ m.fld (muleReg u.agent 0x10) 0 16 = min 0xFFFF (s.m.fld (muleReg u.agent 0x10) 0 16 + 1))
  ∧ (∀ (u : MuleId) (s : State), RegOpen s.m (muleReg u.agent 0) →
      ((s.m.mule u.agent).bad = false →
        Takes (.muleRun u) s (muleReg u.agent 0) ((s.m.modMule u.agent fun x => { x with state := .running }).setFld (muleReg u.agent 0) 0 2 0))
      ∧ ((s.m.mule u.agent).state = .running →
        Takes (.muleQuiesce u) s (muleReg u.agent 0) ((s.m.setFld (muleReg u.agent 0) 0 2 1).modMule u.agent fun x => { x with state := .quiescing }))
      ∧ (∀ d k, (s.m.mule u.agent).state = .running → (s.m.mule u.agent).descs = [d] → d.started = some k → d.err = none → s.m.host.reqs = [] →
        Runs (.muleAbort u) s fun m => (m.mule u.agent).state = .quiescing ∧ ∃ d' e, (m.mule u.agent).descs = [d'] ∧ d'.err = some (7, 0, e) ∧ d'.w = d.w)
      ∧ Takes (.resume0 u) s (muleReg u.agent 0) (s.m.modMule u.agent fun x => { x with q0Halted := false })
      ∧ (∀ q, (s.m.mule u.agent).state ≠ .quiesced → Takes (.muleFlush u q) s (muleReg u.agent 0) (s.m.badWrite (muleReg u.agent 0)))
      ∧ (∀ d, (s.m.mule u.agent).state = .quiesced → (s.m.mule u.agent).descs = [d] → d.started = none → d.queue < 3 →
        Runs (.muleFlush u (1#4 <<< d.queue)) s fun m => (m.mule u.agent).descs = []
          ∧ m.fld (muleReg u.agent 0x14) 0 16 = min 0xFFFF (s.m.fld (muleReg u.agent 0x14) 0 16 + 1)))
  ∧ (∀ (u : MuleId) (s : State), (s.m.mule u.agent).state = .quiescing → (∀ d ∈ (s.m.mule u.agent).descs, d.started = none) →
      Answers (.muleQuiesceDone u) s (s.m.modMule u.agent fun x => { x with state := .quiesced }))
  ∧ (∀ (u : MuleId) (s : State) (d : Desc), d ∈ (s.m.mule u.agent).descs → d.started.isSome = true → d.finished = false → Answers (.muleQuiesceDone u) s s.m)

/-! ## Coherence (chapter 11) -/

namespace Sys2Proof.Claims

/-- No set of the directory store of the line's slice can be full (R350). -/
def StoreRoom (s : State) (l : Nat) : Prop := (s.m.coh.dir.filter fun p => homeSlice (64 * p.1) == homeSlice (64 * l)).length ≤ 15

/-- The home of line `l` serves it: it lies in HBM, no transaction, write-back or stash of it is in progress, no agent is dead, and its directory
store has room. -/
def HomeFree (s : State) (l : Nat) : Prop :=
  isDeep (64 * l) = false ∧ s.m.targetHeld (.home (64 * l)) = false ∧ s.m.coh.dead = [] ∧ s.m.coh.txns = [] ∧ s.m.coh.queue = [] ∧ s.m.coh.stashes = []
    ∧ s.m.coh.wbs = [] ∧ (s.m.entry l).bad = false ∧ l ∉ s.m.tier.flashStall ∧ StoreRoom s l

/-- The home of line `l` serves it, and the line stands as `x` in its slice, without an error. -/
def HomeReady (s : State) (l : Nat) (x : SliceLine) : Prop := HomeFree s l ∧ FMap.get none s.m.coh.lines l = some x ∧ x.upset = 0

/-- The one request on its way is `r`, for line `l` from agent `a`, which is not the host. -/
def ReqAt (s : State) (a : BitVec 13) (pa : BitVec 56) (k : ReqKind) (r : HomeReq) (l : Nat) (x : SliceLine) : Prop :=
  HomeReady s l x ∧ s.m.coh.reqs = [r] ∧ r.kind = k ∧ r.agent = a.toNat ∧ r.line = l ∧ s.m.lineOf pa.toNat = l ∧ a.toNat ≠ hostAgent ∧ r.hint = none

/-- The answer of the home with the line's data, in state `st`. -/
def fromHome (r : HomeReq) (x : SliceLine) (st : Option LineState) : DatMsg :=
  { agent := r.agent, line := r.line, st := st, data := x.data, poison := x.poison, src := r.src }

/-- A request that finds the line in U, or held by nobody else, takes it in E with the home's data (Table 11-3). -/
def TakesE (c : BitVec 13 → BitVec 56 → Instr) (k : ReqKind) : Prop :=
  ∀ (a : BitVec 13) (pa : BitVec 56) (r : HomeReq) (l : Nat) (x : SliceLine) (s : State), ReqAt s a pa k r l x → s.m.entry l = {} →
    Runs (c a pa) s fun m => m.coh.dats = s.m.coh.dats ++ [fromHome r x (some .e)] ∧ m.entry l = { state := .em, ptrs := [a.toNat] } ∧ m.coh.reqs = []
      ∧ m.coh.txns = []

/-- A request that finds the line in EM at agent `b` sends it the snoop `q`; the transaction waits for the answer. -/
def SnoopsOwner (c : BitVec 13 → BitVec 56 → Instr) (k : ReqKind) (q : SnpKind) : Prop :=
  ∀ (a : BitVec 13) (pa : BitVec 56) (b : Nat) (r : HomeReq) (l : Nat) (x : SliceLine) (s : State), ReqAt s a pa k r l x →
    s.m.entry l = { state := .em, ptrs := [b] } → b ≠ a.toNat → b ≠ hostAgent →
    Runs (c a pa) s fun m => m.coh.txns = [{ req := r, snoops := [(b, q)] }] ∧ m.coh.dats = s.m.coh.dats ∧ m.coh.reqs = [] ∧ m.entry l = s.m.entry l
      ∧ FMap.get none m.coh.lines l = some x

end Sys2Proof.Claims

/-- R348, R352, R354, R380, R381, Table 11-3: the requests at their home. In U a reader takes E; in S RdS joins the sharers, RdO invalidates the others
and Upg of the only sharer is granted without data; in EM the owner is snooped; an uncached read changes no state, and an uncached write leaves U with
its bytes in the line. A line that the slice does not hold is first read from its stack, in the request's class. Where the spec leaves the reading
open, the clauses follow the model's choices: log entries 99, 105, 112. -/
def Obligations.HomeServesRequests : Prop :=
  TakesE .rds .rds ∧ TakesE .rdo .rdo ∧ TakesE .upg .upg
  ∧ SnoopsOwner .rds .rds .shr ∧ SnoopsOwner .rdo .rdo .own ∧ SnoopsOwner .upg .upg .own ∧ SnoopsOwner .rdu .rdu .data ∧ SnoopsOwner .wrl .wrl .inv
  ∧ SnoopsOwner .wrp .wrp .ownHome
  ∧ (∀ (a : BitVec 13) (pa : BitVec 56) (r : HomeReq) (l : Nat) (x : SliceLine) (ps : List Nat) (s : State), ReqAt s a pa .rds r l x →
      s.m.entry l = { state := .s, ptrs := ps } → ps ≠ [] → ps.length < 4 → a.toNat ∉ ps →
      Runs (.rds a pa) s fun m => m.coh.dats = s.m.coh.dats ++ [fromHome r x (some .s)] ∧ m.entry l = { state := .s, ptrs := ps ++ [a.toNat] })
  ∧ (∀ (a : BitVec 13) (pa : BitVec 56) (b : Nat) (r : HomeReq) (l : Nat) (x : SliceLine) (s : State), ReqAt s a pa .rdo r l x →
      s.m.entry l = { state := .s, ptrs := [a.toNat, b] } → b ≠ a.toNat → b ≠ hostAgent →
      Runs (.rdo a pa) s fun m => m.coh.txns = [{ req := r, snoops := [(b, .inv)] }] ∧ m.coh.dats = s.m.coh.dats)
  ∧ (∀ (a : BitVec 13) (pa : BitVec 56) (r : HomeReq) (l : Nat) (x : SliceLine) (s : State), ReqAt s a pa .upg r l x →
      s.m.entry l = { state := .s, ptrs := [a.toNat] } →
      Runs (.upg a pa) s fun m => m.coh.dats = s.m.coh.dats
          ++ [{ agent := a.toNat, line := l, st := some .e, data := 0, poison := false, grantOnly := true }]
        ∧ m.entry l = { state := .em, ptrs := [a.toNat] })
  ∧ (∀ (a : BitVec 13) (pa : BitVec 56) (r : HomeReq) (l : Nat) (x : SliceLine) (s : State), ReqAt s a pa .rdu r l x → s.m.entry l = {} →
      Runs (.rdu a pa) s fun m => m.coh.dats = s.m.coh.dats ++ [fromHome r x none] ∧ m.entry l = {} ∧ FMap.get none m.coh.lines l = some x)
  ∧ (∀ (a : BitVec 13) (pa : BitVec 56) (r : HomeReq) (l : Nat) (s : State), HomeFree s l → s.m.coh.reqs = [r] → r.kind = .rds → r.agent = a.toNat →
      r.line = l → s.m.lineOf pa.toNat = l → s.m.entry l = {} → s.m.homeHas l = false → (s.m.pcOf (Mach.hbmCtl l) (Mach.hbmPc l)).reads = [] →
      Runs (.rds a pa) s fun m => m.coh.reqs = [] ∧ m.coh.txns = [{ req := r, reading := true }] ∧ m.coh.dats = s.m.coh.dats ∧ m.entry l = {}
        ∧ (m.pcOf (Mach.hbmCtl l) (Mach.hbmPc l)).reads = [{ line := l, store := l, cls := r.cls, sector := r.half, since := s.m.now }])
  ∧ (∀ (a : BitVec 13) (pa : BitVec 56) (r : HomeReq) (l : Nat) (x : SliceLine) (s : State), ReqAt s a pa .wrl r l x → s.m.entry l = {} →
      Runs (.wrl a pa) s fun m => FMap.get none m.coh.lines l = some { data := r.data, dirty := true, poison := r.poison } ∧ m.entry l = {}
        ∧ m.coh.dats = s.m.coh.dats)
  ∧ (∀ (a : BitVec 13) (pa : BitVec 56) (r : HomeReq) (l : Nat) (x : SliceLine) (s : State), ReqAt s a pa .wrp r l x → s.m.entry l = {} →
      r.mask ≠ fullMask →
      Runs (.wrp a pa) s fun m => FMap.get none m.coh.lines l = some { data := mergeLine x.data r.data r.mask, dirty := true, poison := x.poison || r.poison }
        ∧ m.entry l = {} ∧ m.coh.dats = s.m.coh.dats)

namespace Sys2Proof.Claims

/-- The one transaction is `t`, on line `l`, and its snoop `k` reaches agent `a`, a Hen that holds the line as `x` and is not in an LR hold on it. -/
def SnoopAt (s : State) (a : BitVec 13) (pa : BitVec 56) (k : SnpKind) (t : Txn) (l : Nat) (x : CacheLine) : Prop :=
  s.m.coh.txns = [t] ∧ t.req.line = l ∧ s.m.lineOf pa.toNat = l ∧ (a.toNat, k) ∈ t.snoops ∧ a.toNat ≠ hostAgent ∧ a.toNat ≠ sysAgent ∧ s.m.coh.dead = []
    ∧ s.m.coh.wbs = [] ∧ (s.m.hen a.toNat).dcEn = true ∧ (s.m.hen a.toNat).find l = some x ∧ x.bad = false ∧ s.m.snoopWaits a.toNat l k = false

/-- What the agent's answer does (R353, Table 11-5): it goes to the home, `fwd` to the requester, and the copy becomes `left`. -/
def SnoopRow (c : BitVec 13 → BitVec 56 → HostCopy → Instr) (k : SnpKind) (home : Bool) (fwd : Option (CacheLine → LineState)) (keep : Bool) : Prop :=
  ∀ (a : BitVec 13) (pa : BitVec 56) (hd : HostCopy) (t : Txn) (l : Nat) (x : CacheLine) (s : State), SnoopAt s a pa k t l x →
    Runs (c a pa hd) s fun m =>
      m.coh.txns = [{ t with snoops := t.snoops.erase (a.toNat, k), forwarded := t.forwarded || fwd.isSome,
                             answers := t.answers ++ [(a.toNat, if home && x.st = .m then .line x.data x.poison else .done)] }]
      ∧ m.coh.dats = s.m.coh.dats ++ (match fwd with
          | some f => [{ agent := t.req.agent, line := l, st := some (f x), data := x.data, poison := x.poison, src := t.req.src }]
          | none => [])
      ∧ (m.hen a.toNat).dc = ((s.m.hen a.toNat).update l (if keep then some { x with st := .s, bad := false } else none)).dc
      ∧ (m.hen a.toNat).vc = ((s.m.hen a.toNat).update l (if keep then some { x with st := .s, bad := false } else none)).vc

end Sys2Proof.Claims

/-- R351 to R355, R369: the snoops at a Hen that holds the line, and their answers at the home. SnpShr and SnpData leave S, the others nothing; a dirty
line goes home or to the requester; the last answer ends the transaction. A snoop that meets a write-back in flight is answered from it. A host that
holds a clean copy keeps S after SnpShr. A home-reset snoop writes back an M copy. Where the spec leaves the reading open, the clauses follow the
model's choices: log entries 20, 65, 99, 112, 127, 161, 199, 200. -/
def Obligations.SnoopsAndTheirAnswers : Prop :=
  SnoopRow .snpshr .shr true (some fun _ => .s) true ∧ SnoopRow .snpown .own false (some fun x => if x.st = .m then .m else .e) false
  ∧ SnoopRow .snpownhome .ownHome true none false ∧ SnoopRow .snpdata .data true none true ∧ SnoopRow .snpinv .inv false none false
  ∧ (∀ (a : BitVec 13) (pa : BitVec 56) (hd : HostCopy) (t : Txn) (w : WriteBack) (l : Nat) (s : State), s.m.coh.txns = [t] → t.req.line = l →
      s.m.lineOf pa.toNat = l → (a.toNat, SnpKind.shr) ∈ t.snoops → a.toNat ≠ hostAgent → a.toNat ≠ sysAgent → s.m.coh.dead = [] → s.m.coh.wbs = [w] →
      w.agent = a.toNat → w.line = l → w.invn = false → w.stale = false → (∀ x, (s.m.hen a.toNat).find l = some x → x.st ≠ .m) →
      Runs (.snpshr a pa hd) s fun m =>
        m.coh.txns = [{ t with snoops := t.snoops.erase (a.toNat, .shr), forwarded := true, answers := t.answers ++ [(a.toNat, .line w.data w.poison)] }]
        ∧ m.coh.dats = s.m.coh.dats
            ++ [{ agent := t.req.agent, line := l, st := some .s, data := w.data, poison := w.poison, src := t.req.src }]
        ∧ m.coh.wbs = [{ w with stale := true }])
  ∧ (∀ (pa : BitVec 56) (t : Txn) (x : SliceLine) (l : Nat) (s : State), s.m.coh.txns = [t] → t.req.line = l → s.m.lineOf pa.toNat = l →
      (hostAgent, SnpKind.shr) ∈ t.snoops → s.m.coh.dead = [] → FMap.get none s.m.coh.lines l = some x → x.upset = 0 →
      s.m.snoopWaits hostAgent l .shr = false →
      Runs (.snpshr (BitVec.ofNat 13 hostAgent) pa .clean) s fun m =>
        m.coh.txns = [{ t with snoops := t.snoops.erase (hostAgent, .shr), forwarded := true, answers := t.answers ++ [(hostAgent, .done)] }]
        ∧ m.coh.dats = s.m.coh.dats
            ++ [{ agent := t.req.agent, line := l, st := some .s, data := x.data, poison := x.poison, src := t.req.src }])
  ∧ (∀ (a : BitVec 13) (pa : BitVec 56) (r : HomeReq) (d : BitVec 512) (p : Bool) (l : Nat) (s : State), r.kind = .rds → r.line = l → s.m.lineOf pa.toNat = l →
      isDeep (64 * l) = false → StoreRoom s l → s.m.coh.queue = [] → s.m.coh.txns = [{ req := r, answers := [(a.toNat, .line d p)], forwarded := true }] →
      s.m.entry l = { state := .em, ptrs := [a.toNat] } → r.agent ≠ a.toNat → r.agent ≠ hostAgent → a.toNat ≠ hostAgent →
      Runs (.snoopResponse a pa) s fun m => m.coh.txns = [] ∧ m.entry l = { state := .s, ptrs := [a.toNat, r.agent] }
        ∧ FMap.get none m.coh.lines l = some { data := d, dirty := true, poison := p } ∧ m.coh.dats = s.m.coh.dats)
  ∧ (∀ (a : BitVec 13) (pa : BitVec 56) (r : HomeReq) (x : SliceLine) (l : Nat) (s : State), r.kind = .rds → r.line = l → s.m.lineOf pa.toNat = l →
      isDeep (64 * l) = false → StoreRoom s l → s.m.coh.queue = [] → s.m.coh.txns = [{ req := r, answers := [(a.toNat, .np)] }] →
      s.m.entry l = { state := .em, ptrs := [a.toNat] } → r.agent ≠ hostAgent → FMap.get none s.m.coh.lines l = some x → x.upset = 0 →
      Runs (.snoopResponse a pa) s fun m => m.coh.txns = [] ∧ m.entry l = { state := .em, ptrs := [r.agent] }
        ∧ m.coh.dats = s.m.coh.dats ++ [fromHome r x (some .e)])
  ∧ (∀ (a : BitVec 13) (pa : BitVec 56) (hd : HostCopy) (x : CacheLine) (l : Nat) (s : State), s.m.lineOf pa.toNat = l → isDeep (64 * l) = false →
      (s.m.slice (homeSlice (64 * l))).homeReset = true → s.m.coh.wbs = [] → isHen a.toNat = true → a.toNat ≠ hostAgent → a.toNat ≠ sysAgent →
      (s.m.hen a.toNat).find l = some x →
      Runs (.homeResetSnoop a pa hd) s fun m => (m.hen a.toNat).dc = ((s.m.hen a.toNat).update l none).dc
        ∧ (m.hen a.toNat).vc = ((s.m.hen a.toNat).update l none).vc
        ∧ (x.st = .m → FMap.get none m.coh.lines l = some { data := x.data, dirty := true, poison := x.poison || x.bad })
        ∧ (x.st ≠ .m → m.coh.lines = s.m.coh.lines))

namespace Sys2Proof.Claims

/-- The one write-back or notice in flight is `w`, of agent `a` for line `l`, whose home serves. -/
def WbAt (s : State) (a : BitVec 13) (pa : BitVec 56) (w : WriteBack) (l : Nat) : Prop :=
  s.m.coh.wbs = [w] ∧ w.agent = a.toNat ∧ w.line = l ∧ s.m.lineOf pa.toNat = l ∧ isDeep (64 * l) = false ∧ s.m.targetHeld (.home (64 * l)) = false
    ∧ a.toNat ≠ hostAgent ∧ a.toNat ≠ sysAgent ∧ StoreRoom s l ∧ (w.stale = false → s.m.lineBusy l = false)

/-- The one answer in flight is `d`, for line `l` at Hen `a`, which runs; no LR hold keeps it out (R333). -/
def DatAt (s : State) (a : BitVec 13) (pa : BitVec 56) (d : DatMsg) (l : Nat) : Prop :=
  s.m.coh.dats = [d] ∧ d.agent = a.toNat ∧ d.line = l ∧ s.m.lineOf pa.toNat = l ∧ a.toNat ≠ hostAgent ∧ a.toNat ≠ sysAgent ∧ isAcore a.toNat = false
    ∧ (s.m.hen a.toNat).state = .running ∧ s.m.fillWaits d = false

end Sys2Proof.Claims

/-- R46, R183, R347, R352, R354, R360: data, grants, write-backs, notices, refusals and stashes at their end. Data fills the data cache, or completes an
uncached load; a grant makes S into E; the owner's write-back leaves its data at home in U, a stale one nothing, and one whose line has a transaction
waits; a NACKed request is sent again. A stash is refused by a Hen out of service, and dropped where the line is no longer in U. Where the spec leaves
the reading open, the clauses follow the model's choices: log entries 98, 99, 200, 207. -/
def Obligations.DataGrantsAndWritebacks : Prop :=
  (∀ (a : BitVec 13) (pa : BitVec 56) (d : DatMsg) (l : Nat) (st : LineState) (s : State), DatAt s a pa d l → d.grantOnly = false → d.st = some st →
      (s.m.hen a.toNat).wait = .none → (s.m.hen a.toNat).dcEn = true → (s.m.hen a.toNat).mask d.src = 0xF → (s.m.hen a.toNat).vc = [] →
      FMap.get {} (s.m.hen a.toNat).dc (l % 256) = {} →
      Runs (.dat a pa) s fun m => m.coh.dats = [] ∧ (m.hen a.toNat).find l = some { line := l, st := st, data := d.data, poison := d.poison })
  ∧ (∀ (a : BitVec 13) (pa : BitVec 56) (d : DatMsg) (l rd addr size : Nat) (s : State), DatAt s a pa d l → d.grantOnly = false → d.st = none → d.poison = false →
      (s.m.hen a.toNat).wait = .load rd addr size false false 0 false false → s.m.lineOf addr = l → rd ≠ 0 → size ≤ 8 →
      Runs (.dat a pa) s fun m => m.coh.dats = [] ∧ (m.hen a.toNat).wait = .none ∧ (m.hen a.toNat).pc = (s.m.hen a.toNat).pc + 4
        ∧ m.g a.toNat rd = BitVec.ofNat 64 (lineField d.data (addr % 64) size))
  ∧ (∀ (pa : BitVec 56) (d : DatMsg) (l : Nat) (s : State), s.m.coh.dats = [d] → d.agent = hostAgent → d.line = l → s.m.lineOf pa.toNat = l → d.grantOnly = false →
      Runs (.dat (BitVec.ofNat 13 hostAgent) pa) s fun m => m.coh.dats = [] ∧ m.out = s.m.out ++ [.hostData l d.data d.poison])
  ∧ (∀ (a : BitVec 13) (pa : BitVec 56) (d : DatMsg) (l : Nat) (x : CacheLine) (s : State), DatAt s a pa d l → d.grantOnly = true → (s.m.hen a.toNat).wait = .none →
      (s.m.hen a.toNat).find l = some x →
      Runs (.grant a pa) s fun m => m.coh.dats = [] ∧ (m.hen a.toNat).dc = ((s.m.hen a.toNat).update l (some { x with st := .e })).dc
        ∧ (m.hen a.toNat).vc = ((s.m.hen a.toNat).update l (some { x with st := .e })).vc)
  ∧ (∀ (a : BitVec 13) (pa : BitVec 56) (w : WriteBack) (l : Nat) (s : State), WbAt s a pa w l → w.invn = false → w.stale = false →
      s.m.entry l = { state := .em, ptrs := [a.toNat] } →
      Runs (.wbd a pa) s fun m => m.coh.wbs = [] ∧ FMap.get none m.coh.lines l = some { data := w.data, dirty := true, poison := w.poison }
        ∧ m.entry l = (if w.keep then { state := .em, ptrs := [a.toNat] } else {}))
  ∧ (∀ (a : BitVec 13) (pa : BitVec 56) (w : WriteBack) (l : Nat) (s : State), WbAt s a pa w l → w.invn = false → w.stale = true →
      Answers (.wbd a pa) s (s.m.modCoh fun c => { c with wbs := [] }))
  ∧ (∀ (a : BitVec 13) (pa : BitVec 56) (w : WriteBack) (l : Nat) (s : State), WbAt s a pa w l → w.invn = true → w.stale = false →
      s.m.entry l = { state := .em, ptrs := [a.toNat] } →
      Runs (.invn a pa) s fun m => m.coh.wbs = [] ∧ m.entry l = {} ∧ m.coh.lines = s.m.coh.lines)
  ∧ (∀ (a : BitVec 13) (pa : BitVec 56) (w : WriteBack) (l : Nat) (s : State), s.m.coh.wbs = [w] → w.agent = a.toNat → w.line = l → s.m.lineOf pa.toNat = l →
      w.stale = false → s.m.lineBusy l = true → Answers (.wbd a pa) s s.m ∧ Answers (.invn a pa) s s.m)
  ∧ (∀ (a : BitVec 13) (pa : BitVec 56) (r : HomeReq) (s : State), s.m.coh.nacked = [r] → r.agent = a.toNat → s.m.lineOf pa.toNat = r.line →
      Answers (.retryNack a pa) s (s.m.modCoh fun c => { c with nacked := [], reqs := c.reqs ++ [r] }))
  ∧ (∀ (a : BitVec 13) (pa : BitVec 56) (x : Stash) (s : State), s.m.coh.stashes = [x] → x.agent = a.toNat → s.m.lineOf pa.toNat = x.line →
      s.m.lineBusy x.line = false → s.m.targetHeld (.home (64 * x.line)) = false → StoreRoom s x.line →
      ((s.m.hen a.toNat).state = .disabled ∨ (s.m.entry x.line).state ≠ .u → (s.m.hen a.toNat).hold = none →
        Answers (.stash a pa) s ((s.m.modCoh fun c => { c with stashes := [] }).count (sliceReg (homeSlice (64 * x.line)) 0x18) false))
      ∧ (∀ y, (s.m.hen a.toNat).state = .running → (s.m.hen a.toNat).hold = none → s.m.flockOn (flockOf a.toNat) = true → (s.m.hen a.toNat).mask 1 = 0xF →
          (s.m.hen a.toNat).dcEn = true → (s.m.hen a.toNat).wait = .none → (s.m.hen a.toNat).vc = [] → FMap.get {} (s.m.hen a.toNat).dc (x.line % 256) = {} →
          FMap.get none s.m.coh.lines x.line = some y → y.upset = 0 → isDeep (64 * x.line) = false → a.toNat ≠ hostAgent → s.m.entry x.line = {} →
          Runs (.stash a pa) s fun m => m.coh.stashes = [] ∧ m.entry x.line = { state := .em, ptrs := [a.toNat] }
            ∧ (m.hen a.toNat).find x.line = some { line := x.line, st := .e, data := y.data, poison := y.poison }))

/-- R361 to R364, R346, R366, R367, R370, R371: atomic queues and the upkeep of a slice. An atomic is admitted in stamp order; a line operation performs
it on the line and returns the old value; a walk drops dead holders and poisons their lines; scrub corrects; a flush leaves the slice's lines clean.
Where the spec leaves the reading open, the clauses follow the model's choices: log entries 3, 20, 24, 99, 100, 101, 103, 127, 176, 177. -/
def Obligations.AtomicQueuesAndSliceUpkeep : Prop :=
  (∀ (a : BitVec 13) (pa : BitVec 56) (e : AqEntry) (k : Nat) (s : State), s.m.lineOf pa.toNat = e.line → k = homeSlice (64 * e.line) → (s.m.slice k).waiting = [e] →
      e.agent = a.toNat → s.m.coh.dead = [] → s.m.targetHeld (.home (64 * e.line)) = false →
      ((s.m.slice k).aq.length < 64 → Answers (.atm a pa) s (s.m.modSlice k fun x => { x with waiting := [], aq := x.aq ++ [e] }))
      ∧ (64 ≤ (s.m.slice k).aq.length → Answers (.atm a pa) s (s.m.count (sliceReg k 0x14) false)))
  ∧ (∀ (sl : SliceId) (e : AqEntry) (x : SliceLine) (k : Nat) (s : State), k = Mach.sliceNo sl → (s.m.slice k).aq = [e] → HomeReady s e.line x → s.m.entry e.line = {} →
      x.poison = false → s.m.boot.inReset = false → (s.m.die (k / 16)).curRet = false → (s.m.die (k / 16)).computeReset = false → isMule e.agent = false →
      k = homeSlice (64 * e.line) →
      Runs (.atmLineOp sl) s fun m => (m.slice k).aq = [] ∧ m.entry e.line = {}
        ∧ FMap.get none m.coh.lines e.line = some { data := (aqApply x.data e).2, dirty := true, poison := false }
        ∧ m.coh.dats = s.m.coh.dats ++ [{ agent := e.agent, line := e.line, st := none, data := placeField (aqApply x.data e).1 e.off, poison := false }])
  ∧ (∀ (sl : SliceId) (l b k : Nat) (x : SliceLine) (s : State), k = Mach.sliceNo sl → (s.m.slice k).reclaiming = true → Die.running (s.m.die (k / 16)) = true →
      homeSlice (64 * l) = k → s.m.coh.dir = [(l, { state := .em, ptrs := [b] })] → s.m.coh.txns = [] → s.m.deadAgent b = true →
      FMap.get none s.m.coh.lines l = some x → x.upset = 0 →
      Runs (.deadWalkDone sl) s fun m => (m.slice k).reclaiming = false ∧ m.entry l = {}
        ∧ FMap.get none m.coh.lines l = some { data := x.data, dirty := true, poison := true })
  ∧ (∀ (sl : SliceId) (pa : BitVec 56) (sa l k : Nat) (x : SliceLine) (s : State), k = Mach.sliceNo sl → s.m.target pa.toNat = .home sa → l = sa / 64 → homeSlice sa = k →
      s.m.coh.txns = [] → Die.running (s.m.die (k / 16)) = true → FMap.get none s.m.coh.lines l = some x → (s.m.entry l).bad = false →
      (x.upset = 1 → Answers (.sliceScrub sl pa) s ((s.m.modCoh fun c => { c with lines := FMap.set none c.lines l (some { x with upset := 0 }) }).count
        (sliceReg k 8) false))
      ∧ (x.upset = 2 → Answers (.sliceScrub sl pa) s ((s.m.modCoh fun c =>
          { c with lines := FMap.set none c.lines l (some { x with upset := 0, poison := true, dirty := true }) }).count (sliceReg k 8) true)))
  ∧ (∀ (sl : SliceId) (k : Nat) (s : State), k = Mach.sliceNo sl → RegOpen s.m (sliceReg k 0) →
      Takes (.scFlush sl) s (sliceReg k 0) (s.m.modSlice k fun x => { x with flushing := true }))
  ∧ (∀ (sl : SliceId) (l k : Nat) (x : SliceLine) (s : State), k = Mach.sliceNo sl → (s.m.slice k).flushing = true → s.m.coh.lines = [(l, some x)] → homeSlice (64 * l) = k →
      isDeep (64 * l) = false → x.dirty = true →
      Runs (.scFlushDone sl) s fun m => (m.slice k).flushing = false
        ∧ (x.upset = 0 → FMap.get none m.coh.lines l = some { x with dirty := false })
        ∧ (x.upset = 2 → FMap.get none m.coh.lines l = some { x with dirty := false, poison := true, upset := 0 }))

/-! ## High-bandwidth memory (chapter 12) -/

namespace Sys2Proof.Claims

/-- The stored line `l` is not poisoned, and none of its bytes wait in the write queue. -/
def LineClean (m : Mach) (l : Nat) : Prop := m.linePoison l = false ∧ m.hbmHeld l = false

/-- `n` accesses of class `cls` to the line `l`, counted and taken by its pseudo-channel. -/
def tried (m : Mach) (l cls n : Nat) : Mach := (m.hbmCount (Mach.hbmCtl l) cls n).pcTook (Mach.hbmCtl l) (Mach.hbmPc l) cls n

/-- The read `r` leaves its queue; one of class LC that took longer than 250 ns is counted (R383). -/
def leaves (m : Mach) (r : PcRead) : Mach :=
  let x := m.pcOf (Mach.hbmCtl r.store) (Mach.hbmPc r.store)
  let m' := m.setPc (Mach.hbmCtl r.store) (Mach.hbmPc r.store) { x with reads := x.reads.erase r }
  if r.cls = 0 ∧ 125 < m.now - r.since then m'.count (hbmSet (Mach.hbmCtl r.store) 0x30) false else m'

/-- A record of the error log (Table 12-11): the line in the interleaved view, the sector in sector mode, the place, the kind, scrub, the class. -/
def hbmRecord (m : Mach) (l kind sector cls : Nat) (scrub : Bool) : BitVec 128 :=
  BitVec.ofNat 128 (64 * uninterleave (64 * l) + (if (m.hbmc (Mach.hbmCtl l)).mode then 32 * sector else 0)
    + (Mach.hbmPc l + (Config.hbmBankRow l).toNat * 2 ^ 5 + kind * 2 ^ 29 + (if scrub then 2 ^ 31 else 0) + cls * 2 ^ 32) * 2 ^ 64)

/-- A module with one record more in the error log of the line's controller, which has room. -/
def logged (m : Mach) (l kind sector cls : Nat) (scrub : Bool) : Mach :=
  m.modHbmc (Mach.hbmCtl l) fun h => { h with log := h.log ++ [hbmRecord m l kind sector cls scrub] }

end Sys2Proof.Claims

/-- R382 to R386, R388 to R390, R392, R393, R399: the class whose read goes next, reads that find errors, held writes, refresh, the
temperature and patrol scrub. An error gone at the second read is counted; one gone at the third was corrected in the stack; one that stays
is logged, its row for repair too; an uncorrectable one poisons the line. A read goes back to its home once it is its turn. -/
def Sys2Proof.Claims.HbmReadsScrubAndTemperature : Prop :=
  (∀ (m : Mach) (k p : Nat), (∃ r ∈ (m.pcOf k p).reads, r.cls = 0) → ((m.pcOf k p).recent.filter fun b => b).length < m.fld (hbmSet k 0xC) 12 4 →
      m.pcClass k p none = some 0)
  ∧ (∀ (m : Mach) (k p : Nat) (r : PcRead), r ∈ (m.pcOf k p).reads → 1 ≤ r.cls → r.cls ≤ 3 →
      m.fld (hbmSet k 0xC) 12 4 ≤ ((m.pcOf k p).recent.filter fun b => b).length →
      ∃ c, m.pcClass k p none = some c ∧ c ≠ 0 ∧ ∃ r' ∈ (m.pcOf k p).reads, r'.cls = c)
  ∧ (∀ (m : Mach) (k p : Nat) (r : PcRead), r ∈ (m.pcOf k p).reads → r.cls = 2 → (∀ r' ∈ (m.pcOf k p).reads, r'.cls ≠ 0) → m.save.active.isSome = true →
      m.pcClass k p none = some 2)
  ∧ (∀ (m : Mach) (k p c : Nat), (m.pcOf k p).turn = c → 1 ≤ c → c ≤ 3 → (∃ r ∈ (m.pcOf k p).reads, r.cls = c) →
      (∀ r ∈ (m.pcOf k p).reads, r.cls ≠ 0) → m.save.active = none →
      (m.pcOf k p).taken < (if c = 3 ∧ (m.hbmc k).scrubBehind = true then 15 else m.fld (hbmSet k 0xC) (4 * (c - 1)) 4) → m.pcClass k p none = some c)
  ∧ (∀ (pa : BitVec 56) (cls : Fin 4) (t u : ReadTry) (l : Nat) (r : PcRead) (s : State), s.m.hbmLineOf pa.toNat = some l →
      s.m.pcRead (Mach.hbmCtl l) (Mach.hbmPc l) = some r → r.store = l → r.cls = cls.val →
      (s.m.hbmHeld l = true → Answers (.hbmReadReturn pa cls ⟨t.first, u.first⟩ ⟨t.second, u.second⟩ ⟨t.third, u.third⟩) s
        ((leaves s.m r).homeFilled r.line (s.m.hbmPeek l).1 (s.m.hbmPeek l).2 r.sector.isSome))
      ∧ (s.m.hbmHeld l = false → Answers (.hbmReadReturn pa cls ⟨t.first, u.first⟩ ⟨t.second, u.second⟩ ⟨t.third, u.third⟩) s
        (let x := (leaves s.m r).hbmSend l cls r.sector false t u
         x.2.homeFilled r.line x.1.1 x.1.2 r.sector.isSome)))
  ∧ (∀ (m : Mach) (l cls : Nat) (sector : Option Nat) (scrub : Bool) (t u : ReadTry), m.linePoison l = true → m.hbmHeld l = false →
      m.hbmSend l cls sector scrub t u
        = ((m.hbmLine l, true), (tried m l cls (m.hbmAccesses (Mach.hbmCtl l) sector.isSome)).count (hbmSet (Mach.hbmCtl l) 0x38) false))
  ∧ (∀ (m : Mach) (l cls n : Nat) (sector : Option Nat) (scrub : Bool) (t u : ReadTry) (x : (BitVec 512 × Bool) × Mach), LineClean m l →
      n = m.hbmAccesses (Mach.hbmCtl l) sector.isSome → x = m.hbmSend l cls sector scrub t u →
      ((t.first = .clean → (m.hbmc (Mach.hbmCtl l)).mode = false → x = ((m.hbmLine l, false), tried m l cls n))
       ∧ (t.first ≠ .clean → t.second = .ue → x.1.2 = true ∧ x.2.linePoison l = true)
       ∧ ((m.hbmc (Mach.hbmCtl l)).mode = true → sector = none → t.first = .clean → u.first ≠ .clean → u.second = .ue → x.1.2 = true ∧ x.2.linePoison l = true)))
  ∧ (∀ (m : Mach) (l cls sector : Nat) (scrub : Bool) (t : ReadTry), m.linePoison l = false → t.first ≠ .clean →
      (t.second = .clean → m.hbmCheck l sector cls scrub t = (tried m l cls 1).count (hbmSet (Mach.hbmCtl l) 0x20) false)
      ∧ (t.second = .ce → t.third = .clean →
          m.hbmCheck l sector cls scrub t = ((tried m l cls 2).hbmCount (Mach.hbmCtl l) 4 1).count (hbmSet (Mach.hbmCtl l) 0x20) true)
      ∧ (t.second = .ce → t.third ≠ .clean → (m.hbmc (Mach.hbmCtl l)).log.length < 16 →
          m.hbmCheck l sector cls scrub t
            = (logged (((tried m l cls 2).hbmCount (Mach.hbmCtl l) 4 1).count (hbmSet (Mach.hbmCtl l) 0x24) false) l 0 sector cls scrub).hbmRepair l
          ∧ (Mach.hbmCtl l, Mach.hbmPc l, (Config.hbmBankRow l).toNat % 64, (Config.hbmBankRow l).toNat / 64)
              ∈ (m.hbmCheck l sector cls scrub t).boot.retained.pending)
      ∧ (t.second = .ue → (m.hbmc (Mach.hbmCtl l)).log.length < 16 →
          m.hbmCheck l sector cls scrub t = logged (((tried m l cls 1).markPoison l true).count (hbmSet (Mach.hbmCtl l) 0x24) true) l 1 sector cls scrub
          ∧ (m.hbmCheck l sector cls scrub t).linePoison l = true))
  ∧ (∀ (m : Mach) (l kind sector cls : Nat) (scrub : Bool), (m.hbmc (Mach.hbmCtl l)).log.length = 16 →
      ((m.hbmLog l kind sector cls scrub).hbmc (Mach.hbmCtl l)).log = (m.hbmc (Mach.hbmCtl l)).log.drop 1 ++ [hbmRecord m l kind sector cls scrub]
      ∧ (m.hbmLog l kind sector cls scrub).fld (hbmSet (Mach.hbmCtl l) 0x30) 16 16 = min 0xFFFF (m.fld (hbmSet (Mach.hbmCtl l) 0x30) 16 16 + 1))
  ∧ (∀ (b : HbmId) (p : Fin 32) (s : State), s.m.stackServes b.key = true → (s.m.pcOf b.key p).training = false →
      (8 < (s.m.pcOf b.key p).writes.length → (s.m.pcOf b.key p).reads = [] ∨ 24 ≤ (s.m.pcOf b.key p).writes.length →
        Runs (.hbmWriteGroup b p) s fun m => (m.pcOf b.key p).writes = (s.m.pcOf b.key p).writes.drop ((s.m.pcOf b.key p).writes.length - 8)
          ∧ m.hbm = ((s.m.pcOf b.key p).writes.take ((s.m.pcOf b.key p).writes.length - 8)).foldl (fun h w => Memory.putLine h w.line w.data) s.m.hbm)
      ∧ ((s.m.pcOf b.key p).reads ≠ [] → (s.m.pcOf b.key p).writes.length < 24 → Answers (.hbmWriteGroup b p) s s.m))
  ∧ (∀ (b : HbmId) (p : Fin 32) (s : State), (s.m.pcOf b.key p).training = true →
      Answers (.hbmWriteGroup b p) s s.m ∧ s.m.pcRead b.key p = none ∧ (∀ t u : ReadTry, Answers (.hbmScrubRead b p ⟨t.first, u.first⟩ ⟨t.second, u.second⟩ ⟨t.third, u.third⟩) s s.m))
  ∧ (∀ (b : HbmId) (p : Fin 32) (s : State), s.m.stackRuns b.key = true →
      Answers (.hbmRefresh b p) s (s.m.setPc b.key p { s.m.pcOf b.key p with refreshes := (s.m.pcOf b.key p).refreshes + 1 }))
  ∧ (∀ (b : HbmId) (t : Fin 256) (s : State),
      Runs (.hbmTempRead b t) s fun m => (m.hbmc b.key).temp = t ∧ (m.hbmc b.key).tempMax = max (s.m.hbmc b.key).tempMax t
        ∧ ((m.hbmc b.key).refresh2x = true ↔ 85 < t.val ∨ (82 ≤ t.val ∧ (s.m.hbmc b.key).refresh2x = true))
        ∧ ((m.hbmc b.key).throttled = true ↔ 100 < t.val ∨ (95 ≤ t.val ∧ (s.m.hbmc b.key).throttled = true))
        ∧ (100 < t.val → (s.m.hbmc b.key).throttled = false →
            m.fld (hbmSet b.key 0x34) 16 16 = min 0xFFFF (s.m.fld (hbmSet b.key 0x34) 16 16 + 1)))
  ∧ (∀ (b : HbmId) (t : Fin 256) (p : Nat) (s : State), s.m.stackRuns b.key = true → p < 32 → (s.m.pcOf b.key p).training = false →
      s.m.fld (hbmSet b.key 0x10) 8 5 ≤ max t.val (s.m.pcOf b.key p).lastTemp - min t.val (s.m.pcOf b.key p).lastTemp →
      Runs (.hbmTempRead b t) s fun m => (m.pcOf b.key p).due = true)
  ∧ (∀ (b : HbmId) (p : Fin 32) (t u : ReadTry) (s : State), s.m.stackServes b.key = true → (s.m.pcOf b.key p).training = false →
      ((s.m.hbmc b.key).scrubMask.getLsbD p = true ∨ s.m.pcClass b.key p (some 3) ≠ some 3 → Answers (.hbmScrubRead b p ⟨t.first, u.first⟩ ⟨t.second, u.second⟩ ⟨t.third, u.third⟩) s s.m)
      ∧ ((s.m.hbmc b.key).scrubMask.getLsbD p = false → s.m.pcClass b.key p (some 3) = some 3 →
        Runs (.hbmScrubRead b p ⟨t.first, u.first⟩ ⟨t.second, u.second⟩ ⟨t.third, u.third⟩) s fun m =>
          (let mask := (s.m.hbmc b.key).scrubMask ||| (1#32 <<< p.val)
           (mask ≠ BitVec.allOnes 32 → (m.hbmc b.key).scrubMask = mask ∧ (m.hbmc b.key).scrubPos = (s.m.hbmc b.key).scrubPos
             ∧ (m.hbmc b.key).scrubPasses = (s.m.hbmc b.key).scrubPasses)
           ∧ (mask = BitVec.allOnes 32 → (m.hbmc b.key).scrubMask = 0)
           ∧ (mask = BitVec.allOnes 32 → (s.m.hbmc b.key).scrubPos.toNat + 1 < 17578125 → (m.hbmc b.key).scrubPos = (s.m.hbmc b.key).scrubPos + 1)
           ∧ (mask = BitVec.allOnes 32 → 17578125 ≤ (s.m.hbmc b.key).scrubPos.toNat + 1 →
               (m.hbmc b.key).scrubPos = 0 ∧ (m.hbmc b.key).scrubPasses = (s.m.hbmc b.key).scrubPasses + 1))
          ∧ m.hbm = s.m.hbm))
  ∧ (∀ (b : HbmId) (p : Fin 32) (t u : ReadTry) (l : Nat) (s : State), s.m.stackServes b.key = true → (s.m.pcOf b.key p).training = false →
      (s.m.hbmc b.key).scrubMask.getLsbD p = false → s.m.pcClass b.key p (some 3) = some 3 →
      l = stackBase b.key / 64 + 32 * (s.m.hbmc b.key).scrubPos.toNat + p → Mach.hbmCtl l = b.key → Mach.hbmPc l = p → LineClean s.m l →
      t.first ≠ .clean → t.second = .ue →
      Runs (.hbmScrubRead b p ⟨t.first, u.first⟩ ⟨t.second, u.second⟩ ⟨t.third, u.third⟩) s fun m => m.linePoison l = true
        ∧ m.fld (hbmSet b.key 0x24) 16 16 = min 0xFFFF (s.m.fld (hbmSet b.key 0x24) 16 16 + 1))
  ∧ (∀ (b : HbmId) (s : State), RegOpen s.m (hbmSet b.key 0) →
      Takes (.cntClr b) s (hbmSet b.key 0)
        { s.m.modHbmc b.key fun h => { h with counters := [] } with latches := FMap.set [] s.m.latches ((b.key / 3 + 1) * 256 + 0x23) [] })

namespace Sys2Proof.Claims

/-- Pseudo-channel `p` is the next of its stack to retrain: the stack is in service, none of it retrains, and `p` became due first. -/
def NextDue (m : Mach) (k p : Nat) : Prop := m.stackRuns k = true ∧ m.retraining k = false ∧ (m.hbmc k).dueList.head? = some p

/-- A module whose pseudo-channel `p` has begun to retrain. -/
def retrains (m : Mach) (k p : Nat) : Mach :=
  (m.setPc k p { m.pcOf k p with due := false, forced := false, training := true, failedOnce := false }).modHbmc k fun h =>
    { h with dueList := h.dueList.filter (fun q => q ≠ p), retrainPc := BitVec.ofNat 5 p }

end Sys2Proof.Claims

/-- R394 to R398: interface errors and retraining. A repeat that succeeds is counted; a lasting error is logged and retrains the
pseudo-channel at once, the request running again at its end; one due starts outside the load slot with short queues, or after 20 ms; a second
failure degrades it; self-refresh that waited for the retrain begins. -/
def Sys2Proof.Claims.HbmRetraining : Prop :=
  (∀ (pa : BitVec 56) (w ok2 : Bool) (l : Nat) (s : State), s.m.hbmLineOf pa.toNat = some l → s.m.stackServes (Mach.hbmCtl l) = true →
      (s.m.pcOf (Mach.hbmCtl l) (Mach.hbmPc l)).training = false →
      Answers (.hbmParityError pa w true ok2) s (s.m.count (hbmSet (Mach.hbmCtl l) 0x28) false))
  ∧ (∀ (pa : BitVec 56) (w ok2 : Bool) (l : Nat) (s : State), s.m.hbmLineOf pa.toNat = some l → s.m.stackServes (Mach.hbmCtl l) = true →
      (s.m.pcOf (Mach.hbmCtl l) (Mach.hbmPc l)).training = false → (s.m.hbmc (Mach.hbmCtl l)).log.length < 16 →
      Runs (.hbmParityError pa w false ok2) s fun m =>
        (m.hbmc (Mach.hbmCtl l)).log = (s.m.hbmc (Mach.hbmCtl l)).log
          ++ [hbmRecord s.m l 2 (pa.toNat / 32 % 2) (s.m.parityClass l w) (s.m.parityClass l w == 3)]
        ∧ m.fld (hbmSet (Mach.hbmCtl l) 0x28) 16 16 = min 0xFFFF (s.m.fld (hbmSet (Mach.hbmCtl l) 0x28) 16 16 + 1)
        ∧ (m.pcOf (Mach.hbmCtl l) (Mach.hbmPc l)).after = (s.m.pcOf (Mach.hbmCtl l) (Mach.hbmPc l)).after
            ++ [{ line := l, isWrite := w, cls := s.m.parityClass l w, sector := pa.toNat / 32 % 2, ok := ok2 }]
        ∧ (s.m.retraining (Mach.hbmCtl l) = true → (m.pcOf (Mach.hbmCtl l) (Mach.hbmPc l)).due = true ∧ (m.pcOf (Mach.hbmCtl l) (Mach.hbmPc l)).forced = true)
        ∧ (s.m.retraining (Mach.hbmCtl l) = true → (s.m.pcOf (Mach.hbmCtl l) (Mach.hbmPc l)).forced = false →
            (m.hbmc (Mach.hbmCtl l)).dueList
              = (let rest := (s.m.hbmc (Mach.hbmCtl l)).dueList.filter fun q => q ≠ Mach.hbmPc l
                 (rest.filter fun q => (s.m.pcOf (Mach.hbmCtl l) q).forced) ++ [Mach.hbmPc l]
                   ++ rest.filter fun q => !(s.m.pcOf (Mach.hbmCtl l) q).forced)))
  ∧ (∀ (pa : BitVec 56) (w ok2 : Bool) (l : Nat) (s : State), s.m.hbmLineOf pa.toNat = some l → s.m.stackServes (Mach.hbmCtl l) = true →
      (s.m.hbmc (Mach.hbmCtl l)).pcs = [] →
      Runs (.hbmParityError pa w false ok2) s fun m => (m.pcOf (Mach.hbmCtl l) (Mach.hbmPc l)).training = true
        ∧ (m.hbmc (Mach.hbmCtl l)).retrainPc = BitVec.ofNat 5 (Mach.hbmPc l))
  ∧ (∀ (b : HbmId) (p : Fin 32) (s : State), s.m.stackRuns b.key = true → (s.m.pcOf b.key p).training = false →
      ((s.m.pcOf b.key p).lastTrained + s.m.fld (hbmSet b.key 0x10) 0 8 * 50000000 ≤ s.m.now →
        Runs (.retrainPeriod b p) s fun m => (m.pcOf b.key p).due = true
          ∧ (m.hbmc b.key).dueList = (if (s.m.hbmc b.key).dueList.contains p.val then (s.m.hbmc b.key).dueList else (s.m.hbmc b.key).dueList ++ [p.val])
          ∧ (m.pcOf b.key p).dueSince = (if (s.m.pcOf b.key p).due then (s.m.pcOf b.key p).dueSince else s.m.now))
      ∧ (s.m.now < (s.m.pcOf b.key p).lastTrained + s.m.fld (hbmSet b.key 0x10) 0 8 * 50000000 → Answers (.retrainPeriod b p) s s.m))
  ∧ (∀ (b : HbmId) (p : Fin 32) (s : State), NextDue s.m b.key p →
      ((s.m.pcOf b.key p).forced = true ∨ (s.m.angle / 0x1000 ≠ s.m.beat.slot.toNat
            ∧ (s.m.pcOf b.key p).writes.length + (s.m.pcOf b.key p).reads.length ≤ s.m.fld (hbmSet b.key 0x10) 13 3) →
        Answers (.retrainStart b p) s (retrains s.m b.key p))
      ∧ ((s.m.pcOf b.key p).forced = false → s.m.angle / 0x1000 = s.m.beat.slot.toNat
            ∨ s.m.fld (hbmSet b.key 0x10) 13 3 < (s.m.pcOf b.key p).writes.length + (s.m.pcOf b.key p).reads.length →
        Answers (.retrainStart b p) s s.m)
      ∧ ((s.m.pcOf b.key p).dueSince + 10000000 ≤ s.m.now →
        Answers (.retrainForced b p) s ((retrains s.m b.key p).count (hbmSet b.key 0x2C) false)))
  ∧ (∀ (b : HbmId) (p : Fin 32) (s : State), (s.m.pcOf b.key p).training = true →
      Runs (.retrainDone b p true) s (fun m => (m.pcOf b.key p).training = false ∧ (m.pcOf b.key p).failedOnce = false ∧ (m.pcOf b.key p).due = false
          ∧ (m.pcOf b.key p).forced = false ∧ (m.pcOf b.key p).lastTemp = (s.m.hbmc b.key).temp ∧ (m.pcOf b.key p).lastTrained = s.m.now
          ∧ (m.pcOf b.key p).after = [] ∧ p.val ∉ (m.hbmc b.key).dueList)
      ∧ (∀ l w cls sector, (s.m.pcOf b.key p).after = [{ line := l, isWrite := w, cls := cls, sector := sector, ok := false }] →
          (s.m.pcOf b.key p).writes = [] → (s.m.hbmc b.key).entering = false → Runs (.retrainDone b p true) s fun m => m.linePoison l = true)
      ∧ ((s.m.setPc b.key p { s.m.pcOf b.key p with training := false }).retraining b.key = false →
          Runs (.retrainDone b p true) s fun m => ((s.m.hbmc b.key).entering = true → (m.hbmc b.key).selfRefresh = true ∧ (m.hbmc b.key).entering = false)
            ∧ ((s.m.hbmc b.key).entering = false → (m.hbmc b.key).leaving = false))
      ∧ ((s.m.pcOf b.key p).failedOnce = false → Answers (.retrainDone b p false) s (s.m.setPc b.key p { s.m.pcOf b.key p with failedOnce := true }))
      ∧ ((s.m.pcOf b.key p).failedOnce = true →
          Runs (.retrainDone b p false) s fun m => (m.pcOf b.key p).training = false ∧ (m.pcOf b.key p).degraded = true
            ∧ FMap.get 0 m.boot.retained.degraded b.key = BitVec.ofNat 32 (m.hbmDegraded b.key)
            ∧ m.fld (hbmSet b.key 0x2C) 16 16 = min 0xFFFF (s.m.fld (hbmSet b.key 0x2C) 16 16 + 1)))
  ∧ (∀ (b : HbmId) (s : State), RegOpen s.m (hbmSet b.key 0) →
      Runs (.retrainAll b) s fun m => (∀ p < 32, (m.pcOf b.key p).due = true) ∧ (s.m.hbmc b.key).dueList <+: (m.hbmc b.key).dueList
        ∧ (∀ p < 32, p ∈ (m.hbmc b.key).dueList))

/-- R382 to R386, R388 to R390, R392 to R399: the class served next, reads that find errors, held writes, refresh, the temperature and patrol scrub;
interface errors and retraining. A read error gone at the second read is counted, one gone at the third was corrected in the stack, one that stays is
logged; an uncorrectable one poisons the line. A lasting interface error is logged and retrains the pseudo-channel; a second failure degrades it.
Where the spec leaves the reading open, the clauses follow the model's choices: log entries 3, 104, 105, 106, 107, 108, 145, 176, 177. -/
def Obligations.HbmUpkeep : Prop := Claims.HbmReadsScrubAndTemperature ∧ Claims.HbmRetraining

/-! ## The deep tier (chapter 13) -/

namespace Sys2Proof.Claims

/-- Page `p` has frame `f` and its promotion has begun with sub-block `sub`, the others following in address order and wrapping (R408). -/
def PromotionOf (m : Mach) (p f sub : Nat) : Prop :=
  (m.pageOf p).frame = some f ∧ (m.pageOf p).promoting = true ∧ (m.pageOf p).valid = 0 ∧ (m.pageOf p).dirty = 0
    ∧ (m.pageOf p).order = (List.range 32).map fun i => (sub + i) % 32

end Sys2Proof.Claims

/-- R406 to R410, R419, R420, R423: promotions. The victim is the coldest page that is neither promoted nor evicted; demand misses go first and start with the
sub-block they need; a hint that fails the heat test is dropped; a unit climbs the retry ladder, and after its last rung it is poison. -/
def Sys2Proof.Claims.DeepTierPromotions : Prop :=
  (∀ (m : Mach) (v : Nat × TierPage), m.victim = some v → v ∈ m.tier.pages ∧ v.2.frame.isSome = true ∧ v.2.promoting = false ∧ v.2.evicting = false
      ∧ ∀ q ∈ m.tier.pages, q.2.frame.isSome = true → q.2.promoting = false → q.2.evicting = false → m.tier.state ≠ .readOnly → v.2.heat ≤ q.2.heat)
  ∧ (∀ (p f : Nat) (rest : List Nat) (h : Held) (more : List Held) (s : State), s.m.tierMoves = true → s.m.promoting < 256 → s.m.tier.demand = p :: rest →
      (s.m.pageOf p).evicting = false → (s.m.pageOf p).frame = none → s.m.freeFrame = some f → s.m.tier.held = h :: more → Mach.deepPage (64 * h.line) = p →
      Runs .promotionStart s fun m => PromotionOf m p f (Mach.deepSub (64 * h.line)) ∧ m.tier.demand = rest ∧ m.tier.promotions = s.m.tier.promotions + 1
        ∧ m.tier.hints = s.m.tier.hints)
  ∧ (∀ (p f : Nat) (hint : Bool) (rest : List (Nat × Bool)) (s : State), s.m.tierMoves = true → s.m.promoting < 256 → s.m.tier.demand = [] →
      s.m.tier.hints = (p, hint) :: rest → (s.m.pageOf p).frame = none → s.m.freeFrame = some f →
      Runs .promotionStart s fun m => PromotionOf m p f 0 ∧ m.tier.hints = rest ∧ m.tier.promotions = s.m.tier.promotions + 1)
  ∧ (∀ (p : Nat) (rest : List (Nat × Bool)) (v : Nat × TierPage) (s : State), s.m.tierMoves = true → s.m.promoting < 256 → s.m.tier.demand = [] →
      s.m.tier.hints = (p, false) :: rest → (s.m.pageOf p).frame = none → s.m.freeFrames = 0 → s.m.victim = some v →
      (s.m.pageOf p).heat < v.2.heat + s.m.fld (tierReg 8) 8 4 →
      Answers .promotionStart s ((s.m.modTier fun t => { t with hints := rest }).count (tierReg 0x24) true))
  ∧ (∀ (p : Nat) (rest : List Nat) (v : Nat × TierPage) (s : State), s.m.tierMoves = true → s.m.promoting < 256 → s.m.tier.demand = p :: rest →
      (s.m.pageOf p).evicting = false → (s.m.pageOf p).frame = none → s.m.freeFrame = none → (∀ q ∈ s.m.tier.pages, q.2.wanted ≠ some p) →
      s.m.victim = some v → s.m.tier.state ≠ .readOnly → s.m.pageHeld v.1 = [] → (s.m.pageOf v.1).writing = [] → (s.m.pageOf v.1).dirty ≠ 0 → (s.m.pageOf v.1).frame.isSome = true →
      Runs .promotionStart s fun m => (m.pageOf v.1).evicting = true ∧ (m.pageOf v.1).wanted = some p ∧ (m.pageOf v.1).recalled = true
        ∧ m.tier.demand = s.m.tier.demand)
  ∧ (∀ (p : Nat) (rest : List Nat) (q : Nat × TierPage) (s : State), s.m.tierMoves = true → s.m.promoting < 256 → s.m.tier.demand = p :: rest →
      (s.m.pageOf p).evicting = false → (s.m.pageOf p).frame = none → s.m.freeFrame = none → s.m.tier.state ≠ .readOnly →
      s.m.tier.pages.find? (fun q => q.2.evicting && q.2.wanted == some p) = some q → (s.m.pageOf q.1).recalled = true →
      Answers .promotionStart s s.m)
  ∧ (∀ (p : Nat) (rest : List Nat) (h : Held) (r : HomeReq) (s : State), s.m.tierMoves = true → s.m.promoting < 256 → s.m.tier.demand = p :: rest → p ∉ rest →
      (s.m.pageOf p).evicting = false → (s.m.pageOf p).frame = none → s.m.tier.state = .readOnly → s.m.freeFrames = 0 → s.m.victim = none →
      s.m.tier.held = [h] → Mach.deepPage (64 * h.line) = p → h.req = some r → isHen r.agent = false →
      Runs .promotionStart s fun m => m.tier.held = [] ∧ m.tier.demand = rest
        ∧ m.coh.dats = s.m.coh.dats ++ [{ agent := r.agent, line := r.line, st := none, data := 0, poison := true, src := r.src }]
        ∧ m.fld (tierReg 0x24) 0 16 = min 0xFFFF (s.m.fld (tierReg 0x24) 0 16 + 1))
  ∧ (∀ (p : Nat) (mule : Bool) (s : State), s.m.tierUp = true → p < 11403264 → (s.m.pageOf p).frame = none →
      (s.m.freeFrames ≠ 0 ∨ (∃ v, s.m.victim = some v ∧ v.2.heat + s.m.fld (tierReg 8) 8 4 ≤ max (s.m.pageOf p).heat (s.m.fld (tierReg 8) 12 8)) →
        (∀ x ∈ s.m.tier.hints, x.1 ≠ p) →
        (s.m.tier.hints.length < 1024 → Answers (.promoteHint p mule) s (s.m.modTier fun t => { t with hints := t.hints ++ [(p, true)] }))
        ∧ (1024 ≤ s.m.tier.hints.length → Answers (.promoteHint p mule) s (s.m.count (tierReg 0x24) true)))
      ∧ (∀ v, s.m.freeFrames = 0 → s.m.victim = some v → max (s.m.pageOf p).heat (s.m.fld (tierReg 8) 12 8) < v.2.heat + s.m.fld (tierReg 8) 8 4 →
          Answers (.promoteHint p mule) s (s.m.count (tierReg 0x24) true)))
  ∧ (∀ (p : Nat) (u : Fin 128) (c : Fin 32) (s : State), s.m.inLean = false → (s.m.pageOf p).promoting = true → (s.m.pageOf p).arrived.getLsbD u = false →
      (s.m.pageOf p).order.head? = some (u.val / 4) → (s.m.pageOf p).lost.getLsbD u = false → s.m.tier.held = [] →
      (Runs (.flashReadDone p u true c) s fun m => (m.pageOf p).arrived = (s.m.pageOf p).arrived ||| (1#128 <<< u.val) ∧ (m.pageOf p).failed = (s.m.pageOf p).failed
          ∧ ((m.pageOf p).valid.getLsbD (u.val / 4) = true ↔ (s.m.pageOf p).valid.getLsbD (u.val / 4) = true
              ∨ ∀ j < 4, 4 * (u.val / 4) + j ≠ u.val → (s.m.pageOf p).arrived.getLsbD (4 * (u.val / 4) + j) = true))
      ∧ (FMap.get 0 (s.m.pageOf p).rungs u < 3 →
          Answers (.flashReadDone p u false c) s (s.m.modPage p fun pg => { pg with rungs := FMap.set 0 pg.rungs u (FMap.get 0 pg.rungs u + 1) }))
      ∧ (3 ≤ FMap.get 0 (s.m.pageOf p).rungs u →
          Runs (.flashReadDone p u false c) s fun m => (m.pageOf p).failed = true ∧ (m.pageOf p).lost = (s.m.pageOf p).lost ||| (1#128 <<< u.val)
            ∧ (m.pageOf p).arrived = (s.m.pageOf p).arrived ||| (1#128 <<< u.val)
            ∧ m.fld (tierReg 0x2C) 16 16 = min 0xFFFF (s.m.fld (tierReg 0x2C) 16 16 + 1))
      ∧ (FMap.get 0 (s.m.pageOf p).rungs u = 1 → Runs (.flashReadDone p u true c) s fun m =>
            m.fld (tierReg 0x28) 0 16 = min 0xFFFF (s.m.fld (tierReg 0x28) 0 16 + 1) ∧ 128 * p + u.val ∈ m.tier.refreshDue)
      ∧ (FMap.get 0 (s.m.pageOf p).rungs u = 2 → Runs (.flashReadDone p u true c) s fun m =>
            m.fld (tierReg 0x28) 16 16 = min 0xFFFF (s.m.fld (tierReg 0x28) 16 16 + 1) ∧ 128 * p + u.val ∈ m.tier.refreshDue)
      ∧ (FMap.get 0 (s.m.pageOf p).rungs u = 3 → Runs (.flashReadDone p u true c) s fun m =>
            m.fld (tierReg 0x2C) 0 16 = min 0xFFFF (s.m.fld (tierReg 0x2C) 0 16 + 1) ∧ 128 * p + u.val ∈ m.tier.refreshDue))
  ∧ (∀ (k : Nat) (h : Held) (s : State), s.m.tier.held[k]? = some h →
      (h.late = false → h.since + 1000000 ≤ s.m.now → Answers (.stallLate k) s ((s.m.modTier fun t => { t with held := t.held.set k { h with late := true } }).count (tierReg 0x20) true))
      ∧ (h.late = true ∨ s.m.now < h.since + 1000000 → Answers (.stallLate k) s s.m))

/-- R405, R414 to R418, R422, R423, R426: evictions, write-backs, the write budget, epochs, upkeep and flushes. A write-back clears the dirty bit when it begins; when it
ends the flash holds its data and the account is charged; a page with nothing left to write gives up its frame. -/
def Sys2Proof.Claims.DeepTierWriteBacks : Prop :=
  (∀ (v : Nat × TierPage) (s : State), s.m.tierMoves = true → (∀ p ∈ s.m.tier.pages, p.2.evicting = true → p.2.recalled = true) →
      s.m.freeFrames + (s.m.tier.pages.filter fun p => p.2.evicting && p.2.wanted.isNone).length < 8 * s.m.fld (tierReg 0xC) 16 8 → s.m.victim = some v →
      s.m.pageHeld v.1 = [] → (s.m.pageOf v.1).writing = [] → s.m.tier.state ≠ .readOnly →
      ((s.m.pageOf v.1).dirty = 0 →
        Runs .evictionStart s fun m => (m.pageOf v.1).frame = none ∧ (m.pageOf v.1).valid = 0 ∧ (m.pageOf v.1).heat = (s.m.pageOf v.1).heat
          ∧ m.tier.evictions = s.m.tier.evictions + 1 ∧ m.tier.flash = s.m.tier.flash)
      ∧ (∀ i < 32, (s.m.pageOf v.1).dirty.getLsbD i = true →
          Runs .evictionStart s fun m => (m.pageOf v.1).evicting = true ∧ i ∈ (m.pageOf v.1).writing ∧ (m.pageOf v.1).dirty.getLsbD i = false
            ∧ (m.pageOf v.1).frame = (s.m.pageOf v.1).frame))
  ∧ (∀ (p : Nat) (rest : List (Nat × TierPage)) (s : State), s.m.tierMoves = true →
      (s.m.tier.pages.filter fun q => q.2.evicting && !q.2.recalled) = (p, s.m.pageOf p) :: rest →
      s.m.pageHeld p = [] → (s.m.pageOf p).writing = [] → (s.m.pageOf p).dirty = 0 →
      Runs .evictionStart s fun m => (m.pageOf p).frame = none ∧ (m.pageOf p).evicting = false ∧ m.tier.evictions = s.m.tier.evictions + 1)
  ∧ (∀ (p : Nat) (i : Fin 32) (s : State), s.m.inLean = false → i.val ∈ (s.m.pageOf p).writing → (s.m.pageOf p).evicting = true →
      (s.m.pageOf p).recalled = true → (s.m.pageOf p).dirty.getLsbD i = true → s.m.tier.flushing = false → s.m.tier.state ≠ .readOnly →
      Runs (.flashWriteDone p i) s fun m => i.val ∈ (m.pageOf p).writing ∧ (m.pageOf p).dirty.getLsbD i = false ∧ (m.pageOf p).evicting = true)
  ∧ (∀ (p : Nat) (i : Fin 32) (s : State), s.m.inLean = false → i.val ∈ (s.m.pageOf p).writing → (s.m.pageOf p).evicting = false → s.m.tier.flushing = false →
      FMap.wf none s.m.tier.inFlight = true → 65536 * 86400 < s.m.tier.account →
      Runs (.flashWriteDone p i) s fun m => (m.pageOf p).writing = (s.m.pageOf p).writing.filter (fun x => x ≠ i.val) ∧ (m.pageOf p).dirty = (s.m.pageOf p).dirty
        ∧ m.tier.account = s.m.tier.account - 65536 * 86400 ∧ m.tier.written = s.m.tier.written + 65536 ∧ m.tier.budgetSpent = s.m.tier.budgetSpent
        ∧ ∀ a, p * 0x200000 + i.val * 0x10000 ≤ a → a < p * 0x200000 + i.val * 0x10000 + 0x10000 →
            FMap.get 0 m.tier.flash a = (FMap.get none s.m.tier.inFlight a).getD 0)
  ∧ (∀ (p : Nat) (i : Fin 32) (s : State), s.m.inLean = false → i.val ∈ (s.m.pageOf p).writing → (s.m.pageOf p).evicting = false → s.m.tier.flushing = false →
      0 < s.m.tier.account → s.m.tier.account ≤ 65536 * 86400 →
      Runs (.flashWriteDone p i) s fun m => m.tier.account = 0 ∧ m.tier.budgetSpent = true
        ∧ m.tier.overrun = s.m.tier.overrun + (65536 * 86400 - s.m.tier.account) / 86400
        ∧ m.fld (tierReg 0x30) 16 16 = min 0xFFFF (s.m.fld (tierReg 0x30) 16 16 + 1))
  ∧ (∀ (gone : Nat) (s : State), FMap.wf {} s.m.tier.pages = true → gone = (s.m.beat.number.toNat + 2 ^ 24 - s.m.tier.epochBeat) % 2 ^ 24 →
      ((gone < 2 ^ 23 → s.m.fld (tierReg 0xC) 0 16 ≤ gone →
          Runs .heatEpoch s fun m => m.tier.epochBeat = (s.m.tier.epochBeat + s.m.fld (tierReg 0xC) 0 16) % 2 ^ 24
            ∧ ∀ p, m.pageOf p = { s.m.pageOf p with heat := (s.m.pageOf p).heat / 2 })
       ∧ (gone < 2 ^ 23 → gone < s.m.fld (tierReg 0xC) 0 16 → Answers .heatEpoch s s.m)))
  ∧ (∀ (p : Nat) (i : Fin 32) (pg : TierPage) (s : State), s.m.tierMoves = true → s.m.tier.state ≠ .readOnly → s.m.bit (tierReg 0) 6 = true → s.m.tier.budgetSpent = false →
      s.m.tier.demand = [] → s.m.tier.hints = [] → s.m.tier.pages = [(p, pg)] → pg.frame.isSome = true → pg.promoting = false → pg.evicting = false → pg.writing = [] →
      pg.dirty.getLsbD i = true → pg.heat < s.m.fld (tierReg 8) 20 8 → s.m.save.active = none → 8 * s.m.fld (tierReg 0xC) 16 8 ≤ s.m.freeFrames →
      Runs (.cleanAhead p i) s fun m => (m.pageOf p).writing = [i.val] ∧ (m.pageOf p).dirty = pg.dirty &&& ~~~(1#32 <<< i.val) ∧ (m.pageOf p).frame = pg.frame)
  ∧ (∀ s : State, s.m.boot.powered = false → Answers .budgetTick s s.m)
  ∧ (∀ s : State, s.m.boot.powered = true → Answers .budgetTick s (s.m.modTier fun t =>
      { t with account := min (t.account + s.m.fld (tierReg 0x10) 0 16 * 1000000000) (s.m.fld (tierReg 0x10) 0 16 * 1000000000 * 86400),
               budgetSpent := t.budgetSpent && decide (min (t.account + s.m.fld (tierReg 0x10) 0 16 * 1000000000)
                 (s.m.fld (tierReg 0x10) 0 16 * 1000000000 * 86400) < s.m.fld (tierReg 0x10) 0 16 * 1000000000 * 3600) }))
  ∧ (∀ (p : Nat) (u : Fin 128) (s : State), s.m.inLean = false → s.m.tierUp = true →
      Answers (.retentionScan p u true) s ((s.m.drawFree 64).2.modTier fun t =>
        { t with internal := t.internal + (s.m.drawFree 64).1.toNat, refreshDue := t.refreshDue.filter fun x => x ≠ 128 * p + u.val })
      ∧ Answers (.retentionScan p u false) s (if s.m.tier.refreshDue.contains (128 * p + u.val) then (s.m.drawFree 64).2.modTier fun t =>
          { t with internal := t.internal + (s.m.drawFree 64).1.toNat, refreshDue := t.refreshDue.filter fun x => x ≠ 128 * p + u.val }
        else s.m))
  ∧ (∀ (n : Nat) (low : Bool) (s : State),
      Runs (.flashProgramFail n low) s fun m => m.tier.spares = n ∧ m.tier.sparePct = Config.sparePct n ∧ m.tier.spareLow = (s.m.tier.spareLow || low)
        ∧ m.tier.state = (if n = 0 ∧ s.m.tier.state = .mounted then .readOnly else s.m.tier.state)
        ∧ m.fld (tierReg 0x30) 0 16 = min 0xFFFF (s.m.fld (tierReg 0x30) 0 16 + 1) ∧ m.tier.flash = s.m.tier.flash)
  ∧ (∀ s : State, RegOpen s.m (tierReg 0) → s.m.tierUp = true →
      (s.m.tier.pages = [] → Takes .tierFlush s (tierReg 0) (s.m.modTier fun t => { t with flushing := true }))
      ∧ (∀ p pg, ∀ i < 32, s.m.tier.pages = [(p, pg)] → pg.evicting = false → pg.writing = [] → pg.dirty.getLsbD i = true → s.m.inLean = false →
          s.m.tier.state ≠ .readOnly →
          Runs .tierFlush s fun m => m.tier.flushing = true ∧ i ∈ (m.pageOf p).writing ∧ (m.pageOf p).dirty.getLsbD i = false))
  ∧ (∀ s : State, s.m.tier.flushing = true → s.m.inLean = false → (∀ p ∈ s.m.tier.pages, p.2.dirty = 0 ∧ p.2.writing = []) →
      Answers .tierFlushDone s (s.m.modTier fun t => { t with flushing := false, unclean := false }))

/-- R405 to R410, R414 to R420, R422, R423, R426: promotions, evictions, write-backs, the write budget, epochs, upkeep and flushes. The victim is the
coldest page that is neither promoted nor evicted; demand misses go first; a unit past the last rung of the retry ladder is poison. A write-back
clears the dirty bit when it begins and charges the account when it ends. Where the spec leaves the reading open, the clauses follow the model's
choices: log entries 3, 110, 111, 112, 113, 169, 176, 177. -/
def Obligations.DeepTierMoves : Prop := Claims.DeepTierPromotions ∧ Claims.DeepTierWriteBacks

/-! ## Kerly links and the herd (chapter 14) -/

namespace Sys2Proof.Claims

/-- A flit with a good CRC, no reserved bit set and no codeword corrected, that returns no credits, reaches an UP link with nothing waiting to be sent. -/
def GoodFlit (m : Mach) (k : Nat) (h : FlitHdr) : Prop :=
  (m.link k).isUp = true ∧ (m.link k).txq = [] ∧ h.crcOk = true ∧ h.reserved = false ∧ h.fecCorr = 0 ∧ h.fecUncorr = 0 ∧ h.crcnt = 0

/-- The retry buffer holds the flit that the ACK names, after `pre` and before `post`. -/
def Retry (m : Mach) (k : Nat) (h : FlitHdr) (post : List (BitVec 12 × FlitBody)) : Prop :=
  ∃ pre b, (m.link k).retry = pre ++ (h.ack, b) :: post ∧ ∀ x ∈ pre, x.1 ≠ h.ack

/-- The header of a flit of TYPE `type` with SEQ `seq` from a link end that owes no credits (Table 14-2): ACK names the flit before the next
one expected. -/
def sentHdr (m : Mach) (k type : Nat) (seq : BitVec 12) : BitVec 64 :=
  BitVec.ofNat 64 (seq.toNat + ((m.link k).rxSeq - 1).toNat * 2 ^ 12 + 5 * 2 ^ 24 + type * 2 ^ 33)

/-- TYPE of a sequenced flit. -/
def bodyType (b : FlitBody) : Nat := match b with | .msg _ => 1 | .topo _ => 4

/-- The link and its other end enter training, and each counts RETRAIN. -/
def Trains (m n : Mach) (k : Nat) : Prop :=
  (n.link k).state = .training ∧ (∀ j, linkMate k = some j → (n.link j).state = .training)
    ∧ n.fld (linkReg k 0x14) 0 16 = min 0xFFFF (m.fld (linkReg k 0x14) 0 16 + 1)

/-- Lanes among the first full width of link `k` that failed, and its good spares. -/
def lanesLost (k : Nat) (failed : BitVec 34) : Nat := ((List.range (linkLanes k).1).filter fun i => failed.getLsbD i).length
def sparesLeft (k : Nat) (failed : BitVec 34) : Nat :=
  (linkLanes k).2 - ((List.range (linkLanes k).2).filter fun i => failed.getLsbD ((linkLanes k).1 + i)).length

/-- The module is alone: it has no topology record of another module, and no herd port with a link. -/
def Alone (m : Mach) : Prop := m.herd.topo = [] ∧ (∀ p < 16, m.link (16 + p) = {})

end Sys2Proof.Claims

/-- R434, R436 to R438, R442, R444, R445, R449, R450: what a flit does at a link end. Its ACK empties the retry buffer up to the flit it names; a NAK sends the later ones
again, the eighth in a row retrains; a sequenced flit is accepted in order, else discarded with one NAK; every flit sent has Table 14-2's header and returns credits; a FAIL flit
declares a die dead. Where the spec leaves the reading open, the clauses follow the model's choices: log entries 116, 117, 119, 120, 209. -/
def Obligations.FlitsReceived : Prop :=
  (∀ (l : LinkId) (h : FlitHdr) (post : List (BitVec 12 × FlitBody)) (s : State), GoodFlit s.m l.key h → Retry s.m l.key h post →
      Runs (.flitIdle l h) s fun m => (m.link l.key).retry = post ∧ (m.link l.key).lastGood = s.m.now ∧ (m.link l.key).rxSeq = (s.m.link l.key).rxSeq ∧ m.out = s.m.out)
  ∧ (∀ (m : Mach) (k type : Nat) (seq : BitVec 12) (out : BitVec 64 → Output), type < 16 →
      ∃ hd : BitVec 64, (m.flitSend k type seq out).out = m.out ++ [out hd] ∧ hd.extractLsb' 0 12 = seq ∧ hd.extractLsb' 12 12 = (m.link k).rxSeq - 1
        ∧ hd.extractLsb' 33 4 = BitVec.ofNat 4 type ∧ hd.extractLsb' 37 27 = 0
        ∧ (∀ c < 5, (∀ c' < c, FMap.get 0 (m.link k).owed c' = 0) → FMap.get 0 (m.link k).owed c ≠ 0 →
            hd.extractLsb' 24 3 = BitVec.ofNat 3 c ∧ hd.extractLsb' 27 6 = BitVec.ofNat 6 (min 63 (FMap.get 0 (m.link k).owed c))
            ∧ FMap.get 0 ((m.flitSend k type seq out).link k).owed c = FMap.get 0 (m.link k).owed c - min 63 (FMap.get 0 (m.link k).owed c))
        ∧ ((m.link k).owed = [] → hd = sentHdr m k type seq ∧ hd.extractLsb' 24 3 = 5 ∧ hd.extractLsb' 27 6 = 0))
  ∧ (∀ (l : LinkId) (h : FlitHdr) (post : List (BitVec 12 × FlitBody)) (s : State), GoodFlit s.m l.key h → Retry s.m l.key h post →
      (s.m.link l.key).nakRun = 0 ∨ (s.m.link l.key).nakAck ≠ h.ack → (s.m.link l.key).owed = [] →
      Runs (.flitNak l h) s fun m => m.out = s.m.out ++ post.map (fun x => .flit l.key (sentHdr s.m l.key (bodyType x.2) x.1) x.2) ∧ (m.link l.key).nakRun = 1 ∧ (m.link l.key).nakAck = h.ack
          ∧ m.fld (linkReg l.key 0x10) 16 16 = min 0xFFFF (s.m.fld (linkReg l.key 0x10) 16 16 + 1))
  ∧ (∀ (l : LinkId) (h : FlitHdr) (s : State), GoodFlit s.m l.key h → (s.m.link l.key).nakRun = 7 → (s.m.link l.key).nakAck = h.ack →
      Runs (.flitNak l h) s (Trains s.m · l.key))
  ∧ (∀ (l : LinkId) (h : FlitHdr) (p : BitVec 152) (v : BitVec 8) (s : State), GoodFlit s.m l.key h → (s.m.link l.key).retry = [] →
      v = (if (discOf p).version.toNat ≤ Config.linkVersion.toNat then (discOf p).version else Config.linkVersion) →
      ((isHerdLink l.key = true → p.extractLsb' 0 64 ≠ s.m.herd.identity →
          Runs (.flitDisc l h p) s fun m => (m.link l.key).peer = some (discOf p) ∧ (m.link l.key).version = v)
       ∧ (isHerdLink l.key = true → p.extractLsb' 0 64 = s.m.herd.identity → s.m.herd.topo = [] →
          Runs (.flitDisc l h p) s fun m => (m.link l.key).state = .down ∧ (m.link l.key).looped = true
            ∧ m.fld (herdReg 0x41C) 0 16 = min 0xFFFF (s.m.fld (herdReg 0x41C) 0 16 + 1))
       ∧ (isHerdLink l.key = false → Runs (.flitDisc l h p) s fun m => (m.link l.key).peer = some (discOf p) ∧ m.out = s.m.out
            ∧ (m.link l.key).version = (if s.m.boot.linkVersion = 0 then v else s.m.boot.linkVersion))))
  ∧ (∀ (l : LinkId) (h : FlitHdr) (c : BitVec 3) (ws : List (BitVec 128)) (s : State), GoodFlit s.m l.key h → h.seq = (s.m.link l.key).rxSeq →
      Runs (.flitMsg l h (.slots c ws)) s fun m => (m.link l.key).rxSeq = (s.m.link l.key).rxSeq + 1 ∧ m.out = s.m.out
        ∧ FMap.get 0 (m.link l.key).owed c.toNat = FMap.get 0 (s.m.link l.key).owed c.toNat + ws.length)
  ∧ (∀ (l : LinkId) (h : FlitHdr) (x : HerdMsg) (s : State), GoodFlit s.m l.key h → isHerdLink l.key = true → h.seq = (s.m.link l.key).rxSeq →
      (s.m.topoOf x.src.toNat).dead = false → x.kind ≠ .multicast → s.m.herd.attached = true → x.dst = s.m.herd.module →
      Runs (.flitMsg l h (.herd [x])) s fun m => m.herd.inbox = s.m.herd.inbox ++ [x] ∧ (m.link l.key).rxSeq = (s.m.link l.key).rxSeq + 1
        ∧ (m.link l.key).discarding = false)
  ∧ (∀ (l : LinkId) (h : FlitHdr) (x : HerdMsg) (s : State), GoodFlit s.m l.key h → isHerdLink l.key = true → h.seq = (s.m.link l.key).rxSeq →
      (s.m.topoOf x.src.toNat).dead = false → x.kind ≠ .multicast → x.dst ≠ s.m.herd.module → 15 ≤ x.hops →
      Runs (.flitMsg l h (.herd [x])) s fun m => m.herd.inbox = s.m.herd.inbox ∧ m.out = s.m.out
        ∧ m.fld (herdReg 0x418) 0 16 = min 0xFFFF (s.m.fld (herdReg 0x418) 0 16 + 1))
  ∧ (∀ (l : LinkId) (h : FlitHdr) (u : FlitMsgs) (s : State), GoodFlit s.m l.key h → h.seq ≠ (s.m.link l.key).rxSeq →
      ((s.m.link l.key).discarding = false → (s.m.link l.key).owed = [] →
        Runs (.flitMsg l h u) s fun m => (m.link l.key).discarding = true ∧ (m.link l.key).rxSeq = (s.m.link l.key).rxSeq
          ∧ m.out = s.m.out ++ [.nak l.key (sentHdr s.m l.key 2 (s.m.link l.key).txSeq)] ∧ m.herd.inbox = s.m.herd.inbox
          ∧ m.fld (linkReg l.key 0x10) 0 16 = min 0xFFFF (s.m.fld (linkReg l.key 0x10) 0 16 + 1))
      ∧ ((s.m.link l.key).discarding = true → Runs (.flitMsg l h u) s fun m => m.out = s.m.out ∧ m.herd.inbox = s.m.herd.inbox
          ∧ (m.link l.key).discarding = true))
  ∧ (∀ (l : LinkId) (h : FlitHdr) (r : TopoRec) (s : State), GoodFlit s.m l.key h → isHerdLink l.key = true → h.seq = (s.m.link l.key).rxSeq →
      r.identity ≠ s.m.herd.identity → r.module ≠ 511 →
      (s.m.herd.attached = false → (∀ x, (s.m.topoOf r.module.toNat).record = some x → x.seq < r.seq ∧ x.identity = r.identity) →
        Runs (.flitTopo l h r) s fun m => (m.topoOf r.module.toNat).record = some r ∧ (m.topoOf r.module.toNat).dead = false)
      ∧ (∀ x, (s.m.topoOf r.module.toNat).record = some x → r.seq ≤ x.seq → x.identity = r.identity →
        Runs (.flitTopo l h r) s fun m => m.herd = s.m.herd ∧ m.out = s.m.out)
      ∧ (s.m.herd.bellwether = true → r.bellwether = true → s.m.herd.identity.toNat < r.identity.toNat → (s.m.topoOf r.module.toNat).dead = false →
        (∃ x, (s.m.topoOf r.module.toNat).record = some x ∧ x.identity ≠ r.identity) →
        Runs (.flitTopo l h r) s fun m => m.herd = s.m.herd ∧ m.out = s.m.out)
      ∧ (s.m.herd.attached = true → s.m.herd.bellwether = true → r.bellwether = true → r.module = s.m.herd.module →
        r.identity.toNat < s.m.herd.identity.toNat → (s.m.topoOf r.module.toNat).record = none →
        Runs (.flitTopo l h r) s fun m => m.herd.attached = false ∧ m.herd.module = 511 ∧ (m.topoOf r.module.toNat).record = some r
          ∧ m.fld (herdReg 0x41C) 16 16 = min 0xFFFF (s.m.fld (herdReg 0x41C) 16 16 + 1)))
  ∧ (∀ (l : LinkId) (h : FlitHdr) (j : Nat) (s : State), GoodFlit s.m l.key h → (s.m.link l.key).retry = [] → isHerdLink l.key = false → linkMate l.key = some j → j < 12 →
      (s.m.die (j / 3)).dead = true → Runs (.flitFail l h) s fun m => m.dies = s.m.dies ∧ m.out = s.m.out)
  ∧ (∀ (l : LinkId) (h : FlitHdr) (j : Nat) (s : State), GoodFlit s.m l.key h → isHerdLink l.key = false → linkMate l.key = some j → j < 12 →
      Answers (.flitFail l h) s ((s.m.flitGood l.key h).dieDead (j / 3)))

namespace Sys2Proof.Claims

/-- Nothing of the coherence fabric, of the sync units, of the Hens, of the cores or of the tier is under way. -/
def Quiet (m : Mach) : Prop :=
  m.coh.reqs = [] ∧ m.coh.queue = [] ∧ m.coh.nacked = [] ∧ m.coh.txns = [] ∧ m.coh.wbs = [] ∧ m.coh.dats = [] ∧ m.coh.stashes = [] ∧ m.coh.slices = []
    ∧ m.hens = [] ∧ m.acores.cores = [] ∧ m.tier.held = [] ∧ (∀ d, (m.sync d).waits = []) ∧ m.tierUp = false

end Sys2Proof.Claims

/-- R438 to R440, R442, R443, R463, R589: training, sparing and DOWN. Losing lock or silence retrains an UP link; spares take failed lanes, then the width
halves; fewer good lanes, a timeout, HOLD_DOWN or a pulled cable take the link DOWN; the loss of an on-module link declares the die behind it dead.
Where the spec leaves the reading open, the clauses follow the model's choices: log entries 3, 20, 116, 117, 118, 119, 127, 176, 177. -/
def Obligations.LinkTrainingAndDown : Prop :=
  (∀ (l : LinkId) (lane : Fin 34) (s : State), (s.m.link l.key).isUp = true →
      (lane.val < (linkLanes l.key).1 + (linkLanes l.key).2 → Runs (.laneLockLoss l lane) s (Trains s.m · l.key))
      ∧ ((s.m.link l.key).lastGood + 50000 ≤ s.m.now → Runs (.linkSilence l) s (Trains s.m · l.key))
      ∧ (s.m.now < (s.m.link l.key).lastGood + 50000 → Answers (.linkSilence l) s s.m)
      ∧ (RegOpen s.m (linkReg l.key 0) → Runs (.linkRetrain l) s (Trains s.m · l.key))
      ∧ ((s.m.link l.key).txq = [] → Answers (.idleSend l) s (s.m.flitSend l.key 0 (s.m.link l.key).txSeq (.idle l.key))))
  ∧ (∀ (l : LinkId) (f : BitVec 34) (s : State), (s.m.link l.key).state = .training →
      (lanesLost l.key f ≤ sparesLeft l.key f →
        Runs (.trainingDone l f) s fun m => (m.link l.key).state = .up ∧ (m.link l.key).width = BitVec.ofNat 6 (linkLanes l.key).1
          ∧ (m.link l.key).sparesUsed = BitVec.ofNat 2 (lanesLost l.key f) ∧ (m.link l.key).lastGood = s.m.now
          ∧ (isHerdLink l.key = false → ∃ hd, m.out = s.m.out ++ [.disc l.key hd (discWord (m.ownDisc l.key))]))
      ∧ (sparesLeft l.key f < lanesLost l.key f → lanesLost l.key f - sparesLeft l.key f ≤ (linkLanes l.key).1 / 2 →
        Runs (.trainingDone l f) s fun m => (m.link l.key).state = .upDegraded ∧ (m.link l.key).width = BitVec.ofNat 6 ((linkLanes l.key).1 / 2))
      ∧ ((linkLanes l.key).1 / 2 < lanesLost l.key f - sparesLeft l.key f →
        lanesLost l.key f - sparesLeft l.key f ≤ (linkLanes l.key).1 - (linkLanes l.key).1 / 4 →
        Runs (.trainingDone l f) s fun m => (m.link l.key).state = .upDegraded ∧ (m.link l.key).width = BitVec.ofNat 6 ((linkLanes l.key).1 / 4))
      ∧ ((linkLanes l.key).1 - (linkLanes l.key).1 / 4 < lanesLost l.key f - sparesLeft l.key f → isHerdLink l.key = true → s.m.herd.topo = [] →
        Runs (.trainingDone l f) s fun m => (m.link l.key).state = .down ∧ (m.link l.key).width = 0))
  ∧ (∀ (l : LinkId) (s : State), (s.m.link l.key).state = .training → isHerdLink l.key = true → s.m.herd.topo = [] →
      Runs (.trainTimeout l) s fun m => (m.link l.key).state = .down ∧ (m.link l.key).retry = []
        ∧ m.fld (linkReg l.key 0x1C) 0 16 = min 0xFFFF (s.m.fld (linkReg l.key 0x1C) 0 16 + 1))
  ∧ (∀ (l : LinkId) (d : Nat) (s : State), (s.m.link l.key).state = .training → isHerdLink l.key = false → linkVictim l.key = some d →
      Answers (.trainTimeout l) s ((s.m.downEnd l.key).dieDead d))
  ∧ (∀ (m : Mach) (d : Nat), Quiet m → (m.die d).dead = false → (m.dieDead d).die d = { m.die d with dead := true } ∧ (∀ k ∈ dieLinks d, ((m.dieDead d).link k).state = .down)
      ∧ (m.dieDead d).hbm = m.hbm)
  ∧ (∀ (p : Fin 16) (s : State), (s.m.link (16 + p)).state = .down → (s.m.link (16 + p)).held = false → s.m.portEnabled p = true → (∀ d, (s.m.die d).dead = false) →
      ((s.m.link (16 + p)).looped = false → (s.m.link (16 + p)).cable = true → Runs (.herdRetry p) s (Trains s.m · (16 + p)))
      ∧ ((s.m.link (16 + p)).cable = false → Runs (.cablePresent p true) s fun m => Trains s.m m (16 + p) ∧ (m.link (16 + p)).cable = true))
  ∧ (∀ (p : Fin 16) (s : State), (s.m.link (16 + p)).isUp = true → s.m.herd.topo = [] →
      Runs (.cablePresent p false) s fun m => (m.link (16 + p)).cable = false ∧ (m.link (16 + p)).state = .down)
  ∧ (∀ (l : LinkId) (s : State), RegOpen s.m (linkReg l.key 0) → (s.m.link l.key).isUp = true → isHerdLink l.key = true → s.m.herd.topo = [] →
      Runs (.holdDown l true) s fun m => (m.link l.key).held = true ∧ (m.link l.key).state = .down)
  ∧ (∀ (l : LinkId) (s : State), RegOpen s.m (linkReg l.key 0) →
      Takes (.holdDown l false) s (linkReg l.key 0) (s.m.modLink l.key fun x => { x with held := false, looped := false }))

namespace Sys2Proof.Claims

/-- The first message waiting is request `h` of this module itself (R30), next in number order; the answers to it are those of `Answered`. -/
def Asked (s : State) (h : HerdMsg) (rest : List HerdMsg) : Prop :=
  s.m.herd.inbox = h :: rest ∧ s.m.herd.issued = [] ∧ h.src = s.m.herd.module ∧ h.num = (FMap.get {} s.m.herd.ingress h.src.toNat).next

/-- The request is taken from those waiting, its number served, and the answer of kind `k` with data `d` is on its way to the requester. -/
def Answered (m : Mach) (s : State) (h : HerdMsg) (rest : List HerdMsg) (k : HerdKind) (d : BitVec 512) (poison : Bool) : Prop :=
  (∃ a, m.herd.inbox = rest ++ [a] ∧ a.kind = k ∧ a.src = s.m.herd.module ∧ a.dst = h.src ∧ a.num = h.num ∧ a.agent = h.agent ∧ a.data = d ∧ a.poison = poison)
    ∧ (FMap.get {} m.herd.ingress h.src.toNat).next = h.num + 1

end Sys2Proof.Claims

/-- R447, R450, R451, R453 to R455, R457 to R462: the herd. Requests are served once and in number order, a repeated one gets its kept answer; answers complete the request
they number; unanswered ones are sent again, three times; a module attaches with its number and floods its record; multicast data lands at members.
Where the spec leaves the reading open, the clauses follow the model's choices: log entries 3, 4, 5, 6, 96, 120, 121, 123, 124, 176, 177, 179, 211. -/
def Obligations.HerdRequestsAndAttach : Prop :=
  (∀ (h : HerdMsg) (rest : List HerdMsg) (sa : Nat) (x : SliceLine) (s : State), Asked s h rest → h.kind = .write → s.m.target h.addr.toNat = .home sa →
      s.m.targetDead (.home sa) = false → s.m.targetHeld (.home sa) = false → HomeReady s (sa / 64) x → s.m.entry (sa / 64) = {} → h.mask = fullMask →
      Runs (.herdRequest 0) s fun m => Answered m s h rest .completion 0 false
        ∧ FMap.get none m.coh.lines (sa / 64) = some { data := h.data, dirty := true, poison := h.poison })
  ∧ (∀ (h : HerdMsg) (rest : List HerdMsg) (sa : Nat) (x : SliceLine) (s : State), Asked s h rest → h.kind = .read → s.m.target h.addr.toNat = .home sa →
      s.m.targetDead (.home sa) = false → s.m.targetHeld (.home sa) = false → HomeReady s (sa / 64) x → s.m.entry (sa / 64) = {} →
      Runs (.herdRequest 0) s fun m => Answered m s h rest .dataRsp x.data x.poison ∧ m.entry (sa / 64) = {})
  ∧ (∀ (h : HerdMsg) (rest : List HerdMsg) (sa : Nat) (x : SliceLine) (old : Nat) (new : BitVec 512) (s : State), Asked s h rest → h.kind = .amo →
      s.m.target h.addr.toNat = .home sa → s.m.targetDead (.home sa) = false → s.m.targetHeld (.home sa) = false → HomeReady s (sa / 64) x → s.m.entry (sa / 64) = {} →
      x.poison = false → h.poison = false →
      (old, new) = aqApply x.data { agent := ingressAgent, line := sa / 64, code := h.code.toNat, off := h.addr.toNat % 64, arg := h.data, cmp := h.cmp, mask := h.mask, stamp := 0 } →
      Runs (.herdRequest 0) s fun m => Answered m s h rest .result (placeField old (h.addr.toNat % 64)) false
        ∧ FMap.get none m.coh.lines (sa / 64) = some { data := new, dirty := true, poison := false })
  ∧ (∀ (h : HerdMsg) (rest : List HerdMsg) (sa : Nat) (x : SliceLine) (s : State), Asked s h rest → h.kind = .amo → s.m.target h.addr.toNat = .home sa →
      s.m.targetDead (.home sa) = false → s.m.targetHeld (.home sa) = false → HomeReady s (sa / 64) x → s.m.entry (sa / 64) = {} → h.poison = true →
      Runs (.herdRequest 0) s fun m => Answered m s h rest .result 0 false ∧ ∃ y, FMap.get none m.coh.lines (sa / 64) = some y ∧ y.poison = true)
  ∧ (∀ (h : HerdMsg) (rest : List HerdMsg) (sa : Nat) (s : State), Asked s h rest → h.kind = .read ∨ h.kind = .write ∨ h.kind = .amo →
      s.m.target h.addr.toNat = .home sa → s.m.targetDead (.home sa) = false → s.m.targetHeld (.home sa) = true →
      Answers (.herdRequest 0) s (s.m.modHerd fun x => { x with
        inbox := rest, issued := [h],
        ingress := FMap.set {} x.ingress h.src.toNat { FMap.get {} x.ingress h.src.toNat with next := h.num + 1 } }))
  ∧ (∀ (h : HerdMsg) (sa : Nat) (x : SliceLine) (s : State), s.m.herd.inbox = [] → s.m.herd.issued = [h] → h.src = s.m.herd.module → h.kind = .read →
      s.m.target h.addr.toNat = .home sa → s.m.targetDead (.home sa) = false → s.m.targetHeld (.home sa) = false → HomeReady s (sa / 64) x →
      s.m.entry (sa / 64) = {} →
      Runs (.herdRequest 0) s fun m => m.herd.issued = [] ∧ ∃ a, m.herd.inbox = [a] ∧ a.kind = .dataRsp ∧ a.num = h.num ∧ a.data = x.data ∧ a.poison = x.poison)
  ∧ (∀ (h : HerdMsg) (rest : List HerdMsg) (d i : Nat) (s : State), Asked s h rest → d < 4 → i < 4096 → h.addr.toNat % 0x8000 = (d + 1) * 4096 + i → s.m.dieOut d = false →
      (h.kind = .sadd → (s.m.sync d).waits = [] →
        Runs (.herdRequest 0) s fun m => Answered m s h rest .result (BitVec.ofNat 512 (s.m.syncObj d i).count.toNat) false
          ∧ (m.syncObj d i).count = (s.m.syncObj d i).count + BitVec.ofNat 24 (h.data.toNat % 65536))
      ∧ (h.kind = .sread →
        Runs (.herdRequest 0) s fun m => Answered m s h rest .result (BitVec.ofNat 512 (s.m.syncObj d i).count.toNat) false ∧ m.dies = s.m.dies ∧ m.syncs = s.m.syncs)
      ∧ (h.kind = .swait → (s.m.sync d).waits = [] → Mach.syncReached (s.m.syncObj d i).count (BitVec.ofNat 24 h.data.toNat) = false →
        Runs (.herdRequest 0) s fun m => Answered m s h rest .receipt 0 false ∧ (m.sync d).waits.length = 1))
  ∧ (∀ (h : HerdMsg) (rest : List HerdMsg) (s : State), s.m.herd.inbox = h :: rest → h.kind = .write ∨ h.kind = .amo ∨ h.kind = .sadd →
      ((FMap.get {} s.m.herd.ingress h.src.toNat).next < h.num → Answers (.herdRequest 0) s s.m)
      ∧ (∀ a more, h.num < (FMap.get {} s.m.herd.ingress h.src.toNat).next → (FMap.get {} s.m.herd.ingress h.src.toNat).kept = (h.num, a) :: more →
          a.dst = s.m.herd.module → Answers (.herdRequest 0) s (s.m.modHerd fun x => { x with inbox := rest ++ [a] })))
  ∧ (∀ (h : HerdMsg) (o : OutReq) (a rd : Nat) (s : State), s.m.herd.inbox = [h] → h.kind = .result ∨ h.kind = .completion → s.m.herd.unanswered = [o] → s.m.herd.waiting = [] →
      o.msg.dst = h.src → o.msg.num = h.num → a = o.msg.agent.toNat → isHen a = true → o.msg.kind = .sadd ∨ o.msg.kind = .sread ∨ o.msg.kind = .swait →
      (∃ x1 x2 x3 x4 x5, (s.m.hen a).wait = .herd (herdKey o.msg.dst.toNat o.msg.num) rd x1 x2 x3 x4 x5) → (s.m.hen a).state = .running → rd ≠ 0 → rd < 32 →
      Runs (.herdResponse 0) s fun m => m.herd.inbox = [] ∧ m.herd.unanswered = [] ∧ (m.hen a).wait = .none ∧ (m.hen a).pc = (s.m.hen a).pc + 4
        ∧ m.g a rd = BitVec.ofNat 64 (h.data.toNat % 2 ^ 24))
  ∧ (∀ (h : HerdMsg) (s : State), s.m.herd.inbox = [h] → h.kind = .dataRsp ∨ h.kind = .receipt ∨ h.kind = .completion →
      ((∀ o ∈ s.m.herd.unanswered, o.msg.dst ≠ h.src ∨ o.msg.num ≠ h.num) → Answers (.herdResponse 0) s (s.m.modHerd fun x => { x with inbox := [] }))
      ∧ (∀ o, h.kind = .receipt → s.m.herd.unanswered = [o] → o.msg.dst = h.src → o.msg.num = h.num →
          Answers (.herdResponse 0) s (s.m.modHerd fun x => { x with inbox := [], unanswered := [{ o with receipt := true }] })))
  ∧ (∀ (u : BitVec 9) (o : OutReq) (s : State), s.m.herd.unanswered = [o] → o.msg.dst = u → o.receipt = false → u ≠ s.m.herd.module →
      (s.m.now < o.sentAt + 500000 → Answers (.herdResend u) s s.m)
      ∧ (o.sentAt + 500000 ≤ s.m.now → o.tries < 3 → Runs (.herdResend u) s fun m => m.herd.unanswered = [{ o with tries := o.tries + 1, sentAt := s.m.now }]
        ∧ m.fld (herdReg 0x414) 16 16 = min 0xFFFF (s.m.fld (herdReg 0x414) 16 16 + 1))
      ∧ (o.sentAt + 500000 ≤ s.m.now → 3 ≤ o.tries → (s.m.topoOf u.toNat).dead = false → s.m.herd.waiting = [] → isHen o.msg.agent.toNat = true → o.msg.kind = .read → (s.m.hen o.msg.agent.toNat).wait = .none →
          Runs (.herdResend u) s fun m => m.herd.unanswered = [] ∧ (m.topoOf u.toNat).dead = true ∧ (m.topoOf u.toNat).route = none))
  ∧ (∀ (g : Option (BitVec 9)) (s : State), RegOpen s.m (herdReg 0x400) → s.m.herd.attached = false → Alone s.m →
      (s.m.bellCand = true → s.m.fld (herdReg 0x408) 0 9 ≠ 511 →
        Runs (.attach g) s fun m => m.herd.attached = true ∧ m.herd.bellwether = true ∧ m.herd.module = BitVec.ofNat 9 (s.m.fld (herdReg 0x408) 0 9)
          ∧ m.herd.recSeq = s.m.herd.recSeq + 1)
      ∧ (∀ n, s.m.bellCand = false → g = some n → n ≠ 511 → Runs (.attach g) s fun m => m.herd.attached = true ∧ m.herd.bellwether = false ∧ m.herd.module = n)
      ∧ (s.m.bellCand = false → g = none → Runs (.attach g) s fun m => m.herd.attached = false ∧ m.herd.attaching = true))
  ∧ (∀ s : State, (∀ p < 16, s.m.link (16 + p) = {}) → Answers .topoTimer s (s.m.modHerd fun h => { h with recSeq := h.recSeq + 1 }))
  ∧ (∀ (p : Nat) (l : Link) (s : State), p < 16 → s.m.links = [(16 + p, l)] → l.isUp = true → l.peer.isSome = true → l.txq = [] → l.retry.length < 128 → l.owed = [] →
      Runs .topoTimer s fun m => m.herd.recSeq = s.m.herd.recSeq + 1
        ∧ ∃ r, r.seq = s.m.herd.recSeq + 1 ∧ r.identity = s.m.herd.identity ∧ m.out = s.m.out ++ [.flit (16 + p) (sentHdr s.m (16 + p) 4 l.txSeq) (.topo r)])
  ∧ (∀ (n : Nat) (e : TopoEntry) (r : TopoRec) (s : State), s.m.herd.attached = true → (∀ p < 16, s.m.link (16 + p) = {}) → s.m.herd.topo = [(n, e)] → n < 511 →
      n ≠ s.m.herd.module.toNat → e.dead = false → e.record = some r → s.m.herd.unanswered = [] → s.m.herd.waiting = [] →
      Runs .routeCompute s fun m => (m.topoOf n).dead = true ∧ (m.topoOf n).route = none)
  ∧ (∀ s : State, s.m.herd.attached = false → Alone s.m → Runs .routeCompute s fun m => m.herd.bellwether = s.m.bellCand)
  ∧ (∀ (p : Fin 16) (src : BitVec 9) (dst : BitVec 46) (g : Fin 16) (d : BitVec 512) (s : State), Alone s.m →
      (s.m.herd.attached = false → Answers (.mcastReceive p src dst g d) s s.m)
      ∧ (∀ sa x, s.m.herd.attached = true → s.m.mcGroups.getLsbD g = true → s.m.herd.inbox = [] → s.m.target dst.toNat = .home sa → s.m.targetDead (.home sa) = false →
          HomeReady s (sa / 64) x → s.m.entry (sa / 64) = {} →
          Runs (.mcastReceive p src dst g d) s fun m => FMap.get none m.coh.lines (sa / 64) = some { data := d, dirty := true, poison := false } ∧ m.herd.inbox = [])
      ∧ (∀ c, s.m.herd.attached = true → s.m.mcGroups.getLsbD g = true → s.m.herd.inbox = [] → s.m.target dst.toNat = .bad c →
          Answers (.mcastReceive p src dst g d) s (s.m.count (herdReg 0x418) true)))
  ∧ (∀ s : State, s.m.herd.mcast = [] → Answers .mcastSendDone s (s.m.modHerd fun h => { h with mcastBusy := false }))

/-! ## Host attachment (chapter 15) -/

namespace Sys2Proof.Claims

/-- Physical address `pa` lies at home `sa`, whose line serves and is held by nobody. -/
def HomeAt (s : State) (pa sa : Nat) (x : SliceLine) : Prop :=
  s.m.target pa = .home sa ∧ s.m.targetDead (.home sa) = false ∧ s.m.targetHeld (.home sa) = false ∧ HomeReady s (sa / 64) x ∧ s.m.entry (sa / 64) = {}

/-- The request of the host that reaches the home slice (R467). -/
def hostHomeReq (k : ReqKind) (sa : Nat) (d : BitVec 512) (mask : BitVec 64) (poison : Bool) : HomeReq :=
  { kind := k, agent := hostAgent, line := sa / 64, data := d, mask := mask, poison := poison }

/-- The host's write-back or notice that reaches the home slice. -/
def hostWb (sa : Nat) (d : BitVec 512) (poison keep invn : Bool) : WriteBack :=
  { agent := hostAgent, line := sa / 64, data := d, poison := poison, keep := keep, invn := invn }

/-- The module serves the host (R492). -/
def Serves (m : Mach) : Prop := m.host.state = .attached ∨ m.host.state = .detaching

end Sys2Proof.Claims

/-- R466 to R473, R488, R492, R503: what the host and its peers do. A CXL.mem request goes to its home, as the request of Table 11-3 that it stands for;
it is refused while the module is detached, and outside both decoders; the peer window reads through its buffer of 64 lines, which WINDOW_FENCE
empties. Where the spec leaves the reading open, the clauses follow the model's choices: log entries 20, 24, 95, 96, 99, 112, 127, 133, 134, 178, 206, 211, 212. -/
def Obligations.HostRequestsAndPeerWindow : Prop :=
  (∀ (pa : BitVec 56) (sa : Nat) (d : BitVec 512) (mask : BitVec 64) (poison : Bool) (s : State), Serves s.m → s.m.inHdm pa.toNat = true →
      s.m.target pa.toNat = .home sa → s.m.targetDead (.home sa) = false →
      Answers (.hostMemRequest .rdShared pa d mask poison) s (s.m.modCoh fun c => { c with reqs := c.reqs ++ [hostHomeReq .rds sa d mask poison] })
      ∧ Answers (.hostMemRequest .rdOwn pa d mask poison) s (s.m.modCoh fun c => { c with reqs := c.reqs ++ [hostHomeReq .rdo sa d mask poison] })
      ∧ Answers (.hostMemRequest .rdCurr pa d mask poison) s (s.m.modCoh fun c => { c with reqs := c.reqs ++ [hostHomeReq .rdu sa d mask poison] })
      ∧ Answers (.hostMemRequest .wrLine pa d mask poison) s (s.m.modCoh fun c => { c with reqs := c.reqs ++ [hostHomeReq .wrl sa d fullMask poison] })
      ∧ Answers (.hostMemRequest .wrPartial pa d mask poison) s (s.m.modCoh fun c => { c with reqs := c.reqs ++ [hostHomeReq .wrp sa d mask poison] })
      ∧ Answers (.hostMemRequest .wrBack pa d mask poison) s (s.m.modCoh fun c => { c with wbs := c.wbs ++ [hostWb sa d poison false false] })
      ∧ Answers (.hostMemRequest .wrBackKeep pa d mask poison) s (s.m.modCoh fun c => { c with wbs := c.wbs ++ [hostWb sa d poison true false] })
      ∧ Answers (.hostMemRequest .evict pa d mask poison) s (s.m.modCoh fun c => { c with wbs := c.wbs ++ [hostWb sa d poison false true] })
      ∧ Answers (.uioRequest false pa d mask) s (s.m.modCoh fun c => { c with reqs := c.reqs ++ [hostHomeReq .rdu sa d mask false] })
      ∧ (mask = fullMask → Answers (.uioRequest true pa d mask) s (s.m.modCoh fun c => { c with reqs := c.reqs ++ [hostHomeReq .wrl sa d fullMask false] }))
      ∧ (mask ≠ fullMask → Answers (.uioRequest true pa d mask) s (s.m.modCoh fun c => { c with reqs := c.reqs ++ [hostHomeReq .wrp sa d mask false] })))
  ∧ (∀ (op : HostMemOp) (pa : BitVec 56) (d : BitVec 512) (mask : BitVec 64) (poison : Bool) (s : State),
      (Serves s.m → s.m.inHdm pa.toNat = false → Answers (.hostMemRequest op pa d mask poison) s (s.m.emit (.hostError pa.toNat)))
      ∧ (s.m.host.state = .detached ∨ s.m.host.state = .replaying → Runs (.hostMemRequest op pa d mask poison) s fun m =>
          m.fld (hostReg 0x34) 16 16 = min 0xFFFF (s.m.fld (hostReg 0x34) 16 16 + 1) ∧ m.coh = s.m.coh
          ∧ m.out = s.m.out ++ [if op = .rdShared ∨ op = .rdOwn ∨ op = .rdCurr then .hostData (pa.toNat / 64) 0 true else .hostError pa.toNat]))
  ∧ (∀ (op : HostSnoop) (pa : BitVec 56) (s : State), s.m.sysLine (pa.toNat / 64) = none →
      Answers (.hostSnoop op pa) s (s.m.emit (.snoopAnswer (pa.toNat / 64) none)))
  ∧ (∀ (pa : BitVec 56) (x : SysLine) (s : State), s.m.sysLine (pa.toNat / 64) = some x →
      Answers (.hostSnoop .cur pa) s (s.m.emit (.snoopAnswer (pa.toNat / 64) (if x.dirty then some x.data else none)))
      ∧ (Runs (.hostSnoop .data pa) s fun m => m.sysLine (pa.toNat / 64) = some { x with st := .s, dirty := false }
          ∧ m.out = s.m.out ++ [.snoopAnswer (pa.toNat / 64) (if x.dirty then some x.data else none)])
      ∧ (Runs (.hostSnoop .inv pa) s fun m => m.sysLine (pa.toNat / 64) = none
          ∧ m.out = s.m.out ++ [.snoopAnswer (pa.toNat / 64) (if x.dirty then some x.data else none)]))
  ∧ (∀ (k : Nat) (q : HostReq) (d : BitVec 512) (poison : Bool) (s : State), s.m.host.reqs = [q] → q.num = k → q.sent = true → q.discard = false →
      (∀ r, q.who = .slot r → Runs (.hostCompletion k d poison false) s fun m => m.host.reqs = [] ∧ (m.ring r).slot = some (d, poison, 0) ∧ (m.ring r).waitHost = false)
      ∧ (∀ r, q.who = .record r true → s.m.host.state = .attached → s.m.host.bme = true →
          Runs (.hostCompletion k d poison false) s fun m => m.host.reqs = [] ∧ m.out = s.m.out ++ [.msix r])
      ∧ (∀ r, q.who = .slot r → Runs (.hostCompletion k d poison true) s fun m => m.host.reqs = [] ∧ (m.ring r).slot = some (0, false, 2))
      ∧ (∀ r irq, q.who = .record r irq → Runs (.hostCompletion k d poison true) s fun m => m.host.reqs = [] ∧ (m.ring r).haltCause = 1
          ∧ m.fld (hostReg 0x24) 16 16 = min 0xFFFF (s.m.fld (hostReg 0x24) 16 16 + 1) ∧ m.out = s.m.out)
      ∧ (∀ a rd addr size, q.who = .henRead a → (s.m.hen a).wait = .host (hostKey k) rd addr size false false 0 → (s.m.hen a).state = .running → rd ≠ 0 → rd < 32 →
          size ≤ 8 → Runs (.hostCompletion k d false false) s fun m => m.host.reqs = [] ∧ m.g a rd = BitVec.ofNat 64 (lineField d (addr % 64) size)
            ∧ (m.hen a).wait = .none ∧ (m.hen a).pc = (s.m.hen a).pc + 4))
  ∧ (∀ (off pa : Nat) (x : PeerLine) (rest : List PeerLine) (s : State), s.m.peerAddr off = some pa → s.m.host.prefetch = x :: rest → x.line = pa / 64 →
      Runs (.peerRead off) s fun m => m.out = s.m.out ++ [.peerData off x.data x.poison] ∧ m.coh = s.m.coh)
  ∧ (∀ (off pa sa : Nat) (x : SliceLine) (s : State), s.m.peerAddr off = some pa → s.m.host.prefetch = [] → HomeAt s (64 * (pa / 64)) sa x →
      (∀ i, 1 ≤ i → i ≤ 3 → s.m.peerLine (pa / 64 + i) = false) →
      Runs (.peerRead off) s fun m => m.out = s.m.out ++ [.peerData off x.data x.poison]
        ∧ m.host.prefetch = [{ line := pa / 64, data := x.data, poison := x.poison }])
  ∧ (∀ (off : Nat) (d : BitVec 512) (mask : BitVec 64) (s : State), s.m.peerAddr off = none →
      Answers (.peerRead off) s (s.m.emit (.hostError off)) ∧ Answers (.peerWrite off d mask) s (s.m.emit (.hostError off)))
  ∧ (∀ (off pa sa : Nat) (d : BitVec 512) (x : SliceLine) (s : State), s.m.peerAddr off = some pa → HomeAt s (64 * (pa / 64)) sa x →
      Runs (.peerWrite off d fullMask) s fun m => FMap.get none m.coh.lines (sa / 64) = some { data := d, dirty := true, poison := false }
        ∧ m.host.prefetch = s.m.host.prefetch.filter fun y => y.line ≠ pa / 64)
  ∧ (∀ (a : BitVec 13) (s : State), Answers (.windowFence a) s
      ((s.m.modHost fun h => { h with prefetch := [], fences := h.fences + 1 }).emit (.regData a.toNat ((s.m.host.fences + 1).setWidth 32))))

namespace Sys2Proof.Claims

/-- Ring `r` is enabled and not halted, and its one command is `w`, read as slot `q` and not started. -/
def CmdAt (m : Mach) (r q : Nat) (w : BitVec 512) : Prop := (m.ring r).en = true ∧ (m.ring r).haltCause = 0 ∧ (m.ring r).cmds = [{ w := w, seq := q }]

/-- What a command that ended well leaves of itself: its record where CPL asks for one, else nothing. -/
def Ended (m : Mach) (r q : Nat) (w : BitVec 512) (res : Nat) : Prop :=
  ∃ b, (m.ring r).cmds = if Slot.cpl w then [{ w := w, seq := q, started := true, done := some (0, res), body := b }] else []

/-- What a command that met an error leaves: its record is due, the ring has halted with cause 1, and CMD_ERR has counted (R482). -/
def Failed (m : Mach) (s : State) (r q : Nat) (w : BitVec 512) (status res : Nat) : Prop :=
  (m.ring r).cmds = [{ w := w, seq := q, started := true, done := some (status, res), mustRecord := true }] ∧ (m.ring r).haltCause = 1
    ∧ m.fld (hostReg 0x24) 16 16 = min 0xFFFF (s.m.fld (hostReg 0x24) 16 16 + 1)

/-- A command of operation `op` that its slot alone makes bad ends with BAD_CMD. -/
def EndsBad (c : Fin 64 → Instr) (op : Nat) : Prop :=
  ∀ (r : Fin 64) (q : Nat) (w : BitVec 512) (s : State), CmdAt s.m r q w → Slot.op w = op → Slot.bad w = true →
    Runs (c r) s fun m => ∃ res, Failed m s r q w 6 res ∧ (op < 4 → res = 0)

/-- Ring `r` may read its next slot, at home `sa`: enabled, not halted, nothing read or asked for. -/
def SlotAt (s : State) (r sa : Nat) (x : SliceLine) : Prop :=
  (s.m.ring r).en = true ∧ (s.m.ring r).haltCause = 0 ∧ (s.m.ring r).cmds = [] ∧ (s.m.ring r).slot = none ∧ s.m.host.reqs = [] ∧ s.m.herd.unanswered = []
    ∧ s.m.herd.waiting = [] ∧ HomeAt s ((s.m.ring r).base.toNat + 64 * ((s.m.ring r).head % 4096)) sa x

/-- The slot has been taken as the ring's next command. -/
def SlotTaken (m : Mach) (s : State) (r : Nat) (w : BitVec 512) : Prop :=
  (m.ring r).cmds = [{ w := w, seq := (s.m.ring r).head }] ∧ (m.ring r).head = (s.m.ring r).head + 1 ∧ (m.ring r).polling = false

end Sys2Proof.Claims

/-- R474 to R482: the command rings. A doorbell announces at most 4,096 slots; a slot is read at its place and taken when its tag is valid, else polled;
each command ends with its result, and a record where CPL is set; an error ends it with its status and halts the ring. Where the spec leaves the
reading open, the clauses follow the model's choices: log entries 3, 20, 22, 24, 87, 95, 126, 127, 128, 129, 135, 176, 177, 201, 211, 212. -/
def Obligations.CommandRings : Prop :=
  (∀ (r : Fin 64) (w : BitVec 32) (n : Nat) (s : State), RegOpen s.m (hostReg (0x1008 + 0x10 * r)) →
      n = (w.toNat % 65536 + 65536 - (s.m.ring r).head % 65536) % 65536 →
      (n ≤ 4096 → Takes (.ringDoorbell r w) s (hostReg (0x1008 + 0x10 * r))
        (s.m.modRing r fun g => { g with db := w.setWidth 16, upTo := g.head + n, timedOut := false }))
      ∧ (4096 < n → Takes (.ringDoorbell r w) s (hostReg (0x1008 + 0x10 * r)) (s.m.count (hostReg 0x24) false)))
  ∧ (∀ (r : Fin 64) (sa : Nat) (x : SliceLine) (s : State), SlotAt s r sa x → x.poison = false → (s.m.ring r).polling = false → (s.m.ring r).timedOut = false →
      (s.m.ring r).head < (s.m.ring r).upTo →
      (Slot.tagOk x.data (s.m.ring r).head = true → Slot.op x.data ≤ 5 → Runs (.ringSlotRead r) s (SlotTaken · s r x.data))
      ∧ (Slot.tagOk x.data (s.m.ring r).head = true → 5 < Slot.op x.data →
          Runs (.ringSlotRead r) s fun m => Failed m s r (s.m.ring r).head x.data 6 0 ∧ (m.ring r).head = (s.m.ring r).head + 1)
      ∧ (Slot.tagOk x.data (s.m.ring r).head = false → (s.m.ring r).polls = 0 →
          Runs (.ringSlotRead r) s fun m => (m.ring r).polling = true ∧ (m.ring r).polls = 1 ∧ (m.ring r).head = (s.m.ring r).head ∧ (m.ring r).cmds = []
            ∧ m.fld (hostReg 0x20) 0 16 = min 0xFFFF (s.m.fld (hostReg 0x20) 0 16 + 1)))
  ∧ (∀ (r : Fin 64) (sa : Nat) (x : SliceLine) (s : State), SlotAt s r sa x → x.poison = false → (s.m.ring r).polling = true →
      (Slot.tagOk x.data (s.m.ring r).head = true → Slot.op x.data ≤ 5 → Runs (.ringPoll r) s (SlotTaken · s r x.data))
      ∧ (Slot.tagOk x.data (s.m.ring r).head = false → (s.m.ring r).polls < 1000 →
          Runs (.ringPoll r) s fun m => (m.ring r).polling = true ∧ (m.ring r).polls = (s.m.ring r).polls + 1)
      ∧ (Slot.tagOk x.data (s.m.ring r).head = false → 1000 ≤ (s.m.ring r).polls →
          Runs (.ringPoll r) s fun m => (m.ring r).polling = false ∧ (m.ring r).timedOut = true
            ∧ m.fld (hostReg 0x20) 16 16 = min 0xFFFF (s.m.fld (hostReg 0x20) 16 16 + 1)))
  ∧ (∀ (r : Fin 64) (q : Nat) (w : BitVec 512) (s : State), CmdAt s.m r q w → Slot.bad w = false →
      (Slot.op w = 0 → Runs (.ringNop r) s fun m => Ended m r q w 0)
      ∧ (∀ sa x a, a = Slot.word w 3 % 8192 → Slot.op w = 1 → HomeAt s (Slot.addr w) sa x → x.poison = false → isCollie a = true → s.m.flockOn (flockOf a) = true →
          (s.m.collie (flockOf a)).state = .running → (s.m.collie (flockOf a)).pool = [] → s.m.badItem x.data = false → Item.waits x.data = false →
          Runs (.ringItem r) s fun m => Ended m r q w 0 ∧ ∃ i ∈ (m.collie (flockOf a)).pool, i.w = x.data)
      ∧ (∀ a, a = Slot.word w 3 % 8192 → Slot.op w = 1 → isCollie a = false → Runs (.ringItem r) s (Failed · s r q w 1 0))
      ∧ (∀ sa x a, a = Slot.word w 3 % 8192 → Slot.op w = 2 → HomeAt s (Slot.addr w) sa x → x.poison = false → isMule a = true → s.m.muleOn a = true →
          (s.m.mule a).state = .running → s.m.collieQueue a = false →
          ((s.m.mule a).descs = [] → Runs (.ringMule r) s fun m => Ended m r q w 0 ∧ ∃ e ∈ (m.mule a).descs, e.w = x.data)
          ∧ (64 ≤ ((s.m.mule a).descs.filter fun e => e.queue == Bits.nfield (Slot.word w 3) 13 2).length →
              Runs (.ringMule r) s fun m => (m.mule a).descs = (s.m.mule a).descs
                ∧ (m.ring r).cmds = [{ w := w, seq := q, started := true, retry := true, body := some (x.data, false) }]))
      ∧ (∀ sa x a, a = Slot.word w 3 % 8192 → Slot.op w = 2 → HomeAt s (Slot.addr w) sa x → x.poison = true → isMule a = true →
          Runs (.ringMule r) s (Failed · s r q w 3 (Slot.addr w)))
      ∧ (∀ sa x, Slot.op w = 3 → HomeAt s (Slot.addr w) sa x →
          Runs (.ringWrite r) s fun m => Ended m r q w 0 ∧ FMap.get none m.coh.lines (sa / 64) = some
            { data := mergeLine x.data (placeField (w.toNat >>> 96 % 2 ^ (8 * Slot.len w)) (Slot.addr w % 64)) (byteMask (Slot.addr w % 64) (Slot.len w)),
              dirty := true, poison := x.poison })
      ∧ (∀ ch, Slot.op w = 3 → s.m.target (Slot.addr w) = .bad ch → s.m.targetDead (.bad ch) = false → Runs (.ringWrite r) s fun m =>
          (m.ring r).cmds = [{ w := w, seq := q, started := true, done := some (2, Slot.addr w), mustRecord := true }] ∧ (m.ring r).haltCause = 1)
      ∧ (∀ off, Slot.op w = 3 → s.m.target (Slot.addr w) = .dev off → s.m.targetDead (.dev off) = false → s.m.targetHeld (.dev off) = false →
          Slot.len w ≠ 4 ∨ Mach.devOk off 4 = false → Runs (.ringWrite r) s fun m =>
          (m.ring r).cmds = [{ w := w, seq := q, started := true, done := some (2, Slot.addr w), mustRecord := true }] ∧ (m.ring r).haltCause = 1)
      ∧ (∀ d, Slot.op w = 4 → s.m.syncModule (Slot.word w 3) = some 511 → d = Bits.nfield (Slot.word w 3) 12 3 - 1 →
          (s.m.dieOut d = false → (s.m.sync d).waits = [] → Runs (.ringSadd r) s fun m =>
            Ended m r q w (s.m.syncObj d (Slot.word w 3 % 4096)).count.toNat
            ∧ (m.syncObj d (Slot.word w 3 % 4096)).count = (s.m.syncObj d (Slot.word w 3 % 4096)).count + BitVec.ofNat 24 (Slot.word w 4))
          ∧ (s.m.dieOut d = true → Runs (.ringSadd r) s (Failed · s r q w 4 (Slot.word w 3))))
      ∧ (∀ d, Slot.op w = 5 → s.m.syncModule (Slot.word w 3) = some 511 → d = Bits.nfield (Slot.word w 3) 12 3 - 1 → s.m.dieOut d = false → (s.m.sync d).waits = [] →
          (Mach.syncReached (s.m.syncObj d (Slot.word w 3 % 4096)).count (BitVec.ofNat 24 (Slot.word w 4)) = true →
            Runs (.ringSwait r) s fun m => Ended m r q w (s.m.syncObj d (Slot.word w 3 % 4096)).count.toNat)
          ∧ (Mach.syncReached (s.m.syncObj d (Slot.word w 3 % 4096)).count (BitVec.ofNat 24 (Slot.word w 4)) = false →
            Runs (.ringSwait r) s fun m => (m.ring r).cmds = [{ w := w, seq := q, started := true }] ∧ (m.sync d).waits.length = 1)))
  ∧ (∀ (r : Fin 64) (q a : Nat) (w b : BitVec 512) (s : State), (s.m.ring r).cmds = [{ w := w, seq := q, started := true, retry := true, body := some (b, false) }] →
      Slot.op w = 2 → a = Slot.word w 3 % 8192 → (s.m.mule a).state = .running → s.m.muleOn a = true → s.m.collieQueue a = false →
      ((s.m.mule a).descs = [] → Runs (.ringPushRetry r) s fun m => (∀ c ∈ (m.ring r).cmds, c.done = some (0, 0)) ∧ ∃ e ∈ (m.mule a).descs, e.w = b)
      ∧ (64 ≤ ((s.m.mule a).descs.filter fun e => e.queue == Bits.nfield (Slot.word w 3) 13 2).length →
          Runs (.ringPushRetry r) s fun m => (m.ring r).cmds = (s.m.ring r).cmds ∧ (m.mule a).descs = (s.m.mule a).descs))
  ∧ EndsBad .ringNop 0 ∧ EndsBad .ringItem 1 ∧ EndsBad .ringMule 2 ∧ EndsBad .ringWrite 3 ∧ EndsBad .ringSadd 4 ∧ EndsBad .ringSwait 5

namespace Sys2Proof.Claims

/-- The module as a detach other than by DETACH leaves it (R490), nothing of the system cache or the fabric being under way. -/
def Detached (m : Mach) (s : State) : Prop :=
  m.host.state = .detached ∧ m.host.detaches = s.m.host.detaches + 1 ∧ m.host.reqs = s.m.host.reqs.map (fun q => { q with sent := false })
    ∧ m.host.held = s.m.host.held ∧ m.host.token = s.m.host.token ∧ m.fld (hostReg 0x2C) 0 16 = min 0xFFFF (s.m.fld (hostReg 0x2C) 0 16 + 1)
    ∧ m.deadAgent hostAgent = true

/-- The host has been taken back into coherence with a new token of the entropy source (R494). -/
def Attached (m : Mach) (s : State) : Prop :=
  m.host.state = .attached ∧ m.host.token = Config.entropy s.m.sec.draws ∧ m.sec.draws = s.m.sec.draws + 1 ∧ m.host.held = []

end Sys2Proof.Claims

/-- R484, R485, R488 to R496: completion records, bus-master enable, detach and re-attach. A record goes to the next place of its queue with its phase, or
waits; what is bound for the host is held while it may not be written; a detach holds requests, and re-attach sends them again with a new token. Where
the spec leaves the reading open, the clauses follow the model's choices: log entries 3, 4, 5, 130, 131, 132, 142, 176, 177, 210, 212. -/
def Obligations.HostRecordsAndDetach : Prop :=
  (∀ (r : Fin 64) (c : RingCmd) (status res sa pa : Nat) (x : SliceLine) (s : State), s.m.host.held = [] → (s.m.ring r).cmds = [c] → c.done = some (status, res) → status < 256 → c.due = true →
      s.m.cqInHost r = false → Mach.cqFull (s.m.ring r) = false → pa = (s.m.ring r).cqBase.toNat + 16 * ((s.m.ring r).cqPos % Mach.cqSize (s.m.ring r)) → HomeAt s pa sa x →
      Runs (.cqRecordWrite r) s fun m => (m.ring r).cmds = [] ∧ (m.ring r).cqPos = (s.m.ring r).cqPos + 1
        ∧ FMap.get none m.coh.lines (sa / 64) = some
            { data := mergeLine x.data (placeField (cplRecord (Slot.tag c.w) c.seq status r res ((s.m.ring r).cqPos / Mach.cqSize (s.m.ring r) % 2 == 0) false).toNat (pa % 64))
                (byteMask (pa % 64) 16), dirty := true, poison := x.poison }
        ∧ m.out = s.m.out ++ (if Slot.cpl c.w && Slot.irq c.w && s.m.host.state == .attached && s.m.host.bme then [.msix r.val] else []))
  ∧ (∀ (r : Fin 64) (c : RingCmd) (status res pa : Nat) (ch : Charge) (s : State), s.m.host.held = [] → (s.m.ring r).cmds = [c] → c.done = some (status, res) →
      c.due = true → s.m.cqInHost r = false → Mach.cqFull (s.m.ring r) = false →
      pa = (s.m.ring r).cqBase.toNat + 16 * ((s.m.ring r).cqPos % Mach.cqSize (s.m.ring r)) → s.m.target pa = .bad ch → s.m.targetDead (.bad ch) = false →
      Runs (.cqRecordWrite r) s fun m => (m.ring r).cmds = [] ∧ (m.ring r).cqPos = (s.m.ring r).cqPos + 1 ∧ (m.ring r).haltCause = 1
        ∧ m.fld (hostReg 0x24) 16 16 = min 0xFFFF (s.m.fld (hostReg 0x24) 16 16 + 1))
  ∧ (∀ (r : Fin 64) (c : RingCmd) (status res : Nat) (s : State), s.m.host.held = [] → (s.m.ring r).cmds = [c] → c.done = some (status, res) → c.due = true →
      s.m.cqInHost r = false → Mach.cqFull (s.m.ring r) = true → (s.m.ring r).waitCq = false →
      Runs (.cqRecordWrite r) s fun m => (m.ring r).cmds = [c] ∧ (m.ring r).waitCq = true ∧ (m.ring r).cqPos = (s.m.ring r).cqPos
        ∧ m.fld (hostReg 0x34) 0 16 = min 0xFFFF (s.m.fld (hostReg 0x34) 0 16 + 1))
  ∧ (∀ (r : Fin 64) (c : RingCmd) (status res sa : Nat) (x : SliceLine) (s : State), s.m.host.held = [] → (s.m.ring r).cmds = [c] → c.done = some (status, res) → c.due = true →
      s.m.cqInHost r = true → s.m.host.state = .detached → HomeAt s (64 * s.m.viewLines - 0x100000 + 16 * (s.m.host.heldPos % 65536)) sa x →
      Runs (.cqRecordWrite r) s fun m => (m.ring r).cmds = [] ∧ m.host.heldPos = s.m.host.heldPos + 1
        ∧ m.host.held = [(r.val, Slot.cpl c.w && Slot.irq c.w, cplRecord (Slot.tag c.w) c.seq status r res false false)])
  ∧ (∀ (r : Fin 64) (w : BitVec 32) (s : State), RegOpen s.m (hostReg (0x100C + 0x10 * r)) →
      Takes (.cqHeadWrite r w) s (hostReg (0x100C + 0x10 * r))
        (s.m.modRing r fun g => { g with cqHead := w.setWidth 16, waitCq := g.waitCq && Mach.cqFull { g with cqHead := w.setWidth 16 } }))
  ∧ (∀ (r : Fin 64) (s : State), RegOpen s.m (hostReg (0x1000 + 0x10 * r)) →
      ((s.m.ring r).en = false → Takes (.ringEnable r) s (hostReg (0x1000 + 0x10 * r)) (s.m.modRing r fun g =>
        { g with en := true, head := 0, upTo := 0, cqPos := 0, polling := false, polls := 0, timedOut := false, slot := none }))
      ∧ Takes (.ringDisable r) s (hostReg (0x1000 + 0x10 * r)) (s.m.modRing r fun g =>
        { g with en := false, polling := false, slot := none, cmds := g.cmds.filter fun c => c.started })
      ∧ ((s.m.ring r).haltCause ≠ 2 ∨ s.m.host.state ≠ .attached ∨ s.m.host.bme = true →
        Takes (.ringResume r) s (hostReg (0x1000 + 0x10 * r)) (s.m.modRing r fun g => { g with haltCause := 0 }))
      ∧ ((s.m.ring r).haltCause = 2 → s.m.host.state = .attached → s.m.host.bme = false →
        Runs (.ringResume r) s fun m => (m.ring r).haltCause = 2))
  ∧ (∀ (r : Nat) (g : Ring) (s : State), s.m.host.bme = true → s.m.host.rings = [(r, g)] → g.en = true →
      Runs .bmeClear s fun m => m.host.bme = false ∧ (m.ring r).haltCause = 2
        ∧ m.host.reqs = s.m.host.reqs.map fun q => if q.sent && !q.write then { q with discard := true } else q)
  ∧ (∀ s : State, s.m.host.held = [] → Answers .bmeSet s (s.m.modHost fun h => { h with bme := true }))
  ∧ (∀ (t : Nat) (w : BitVec 32) (s : State), RegOpen s.m (hostReg 8) →
      Takes (.hostPulse t w) s (hostReg 8) (((s.m.advance t).setFld (hostReg 8) 0 16 (w.toNat % 65536)).modHost fun h =>
        { h with deadline := if w.toNat % 65536 = 0 then none else some ((s.m.advance t).now + w.toNat % 65536 * 500000) }))
  ∧ (∀ (t d : Nat) (s : State), s.m.host.deadline = some d →
      ((s.m.advance t).now < d → Answers (.pulseTimeout t) s (s.m.advance t))
      ∧ (d ≤ (s.m.advance t).now → s.m.host.state ≠ .detached → s.m.acores.sys = [] → s.m.coh.txns = [] →
          Runs (.pulseTimeout t) s fun m => Detached m s ∧ m.host.deadline = none))
  ∧ (∀ s : State, s.m.host.state ≠ .detached → s.m.acores.sys = [] → s.m.coh.txns = [] →
      (Runs .linkLayerDown s fun m => Detached m s ∧ m.host.linkUp = false) ∧ (Runs .perst s fun m => Detached m s ∧ m.host.linkUp = false)
      ∧ (s.m.host.state = .detaching → (∀ q ∈ s.m.host.reqs, q.sent = false) → Runs .detachDone s (Detached · s)))
  ∧ (∀ (l : Nat) (y : SysLine) (s : State), s.m.host.state ≠ .detached → s.m.acores.sys = [(l, some y)] → isHostLine l = true → y.dirty = true → s.m.coh.txns = [] →
      s.m.host.lostLog = [] →
      Runs .perst s fun m => m.sysLine l = none ∧ m.host.lostLog.length = 1 ∧ m.fld (hostReg 0x2C) 16 16 = min 0xFFFF (s.m.fld (hostReg 0x2C) 16 16 + 1))
  ∧ (∀ s : State, RegOpen s.m (hostReg 0) → s.m.host.state = .attached → s.m.acores.sys = [] →
      Takes .detach s (hostReg 0) (s.m.modHost fun h => { h with state := .detaching }))
  ∧ (∀ s : State, s.m.host.state = .replaying → s.m.host.held = [] → s.m.sec.entropyFail = true →
      Runs .replayDone s fun m => m.host.state = .replaying ∧ m.host.token = s.m.host.token)
  ∧ (∀ s : State, s.m.host.state = .replaying → s.m.host.held = [] → s.m.sec.entropyFail = false →
      Runs .replayDone s fun m => Attached m s ∧ (∀ e ∈ m.coh.dead, e.agent.toNat ≠ hostAgent ∨ e.mask ≠ 0x1FFF)
        ∧ m.host.reqs = s.m.host.reqs.map (fun q => { q with sent := true })
        ∧ m.out = s.m.out ++ (s.m.host.reqs.filter fun q => !q.sent).map fun q => .hostReq q.num q.op q.uio)
  ∧ (∀ s : State, RegOpen s.m (hostReg 0) → s.m.host.state = .detached → s.m.host.linkUp = true → s.m.host.reqs = [] →
      s.m.sec.entropyFail = false → Runs .fresh s fun m => Attached m s ∧ m.host.lostLog = s.m.host.lostLog)
  ∧ (∀ (width : Fin 3) (rate : Bool) (s : State), Answers (.cxlLinkUp width rate) s
      (s.m.modHost fun h => { h with linkUp := true, width := BitVec.ofNat 2 width, rate := rate }))

/-! ## Application cores (chapter 16) -/

namespace Sys2Proof.Claims

/-- Core `c` stands ready and accesses `n` bytes of one line, of cached type, that the system cache holds as `x`. -/
def CoreHit (m : Mach) (c pa n : Nat) (ty : Pbmt) (x : SysLine) : Prop :=
  m.coreReady c = true ∧ coreType pa ty = .cached ∧ pa % 64 + n ≤ 64 ∧ m.sysLine (m.lineOf (64 * (pa / 64))) = some x ∧ m.lineOf (64 * (pa / 64)) = m.lineOf pa
    ∧ x.poison = false

/-- The bytes of a line that an access of `n` bytes at `pa` reads; the bytes and the mask with which it writes `v`. -/
def coreBytes (d : BitVec 512) (pa n : Nat) : BitVec 64 := BitVec.ofNat 64 (d.toNat >>> (8 * (pa % 64)) % 2 ^ (8 * n))
def corePut (old : BitVec 512) (pa n v : Nat) : BitVec 512 :=
  mergeLine old (BitVec.ofNat 512 ((v % 2 ^ (8 * n)) <<< (8 * (pa % 64)))) (BitVec.ofNat 64 ((2 ^ n - 1) <<< (pa % 64)))

/-- The line as a core that owns it has written it: no other L2 keeps it. -/
def coreWritten (x : SysLine) (c pa n v : Nat) : SysLine :=
  { x with st := .m, dirty := true, data := corePut x.data pa n v, poison := false, holders := [c] }

/-- The core has taken an access fault of kind `k` with address `pa`. -/
def CoreFaulted (m : Mach) (c : Nat) (k : CoreFault) (pa : Nat) : Prop := (m.core c).fault = some (k, pa) ∧ (m.core c).wait = .none

end Sys2Proof.Claims

/-- R468, R499 to R508, R513 to R515: the application cores. A cached access is served by the system cache or waits for its line; an atomic goes to the
home; SC writes only with the reservation; fences wait for writes; lost and failed stores raise local interrupts 17 and 16; the clock steps down at
once. Where the spec leaves the reading open, the clauses follow the model's choices: log entries 3, 20, 22, 24, 35, 99, 109, 112, 127, 137, 139, 140, 141, 142, 176, 177, 182, 186, 205, 211. -/
def Obligations.ApplicationCores : Prop :=
  (∀ (c : CoreIx) (pa : BitVec 56) (k : Fin 4) (ty : Pbmt) (x : SysLine) (s : State), CoreHit s.m c pa.toNat (2 ^ k.val) ty x →
      (Runs (.acoreLoad c pa k ty) s fun m => (m.core c).value = coreBytes x.data pa.toNat (2 ^ k.val) ∧ (m.core c).wait = .none
        ∧ m.sysLine (m.lineOf pa.toNat) = some { x with holders := if x.holders.contains c.val then x.holders else x.holders ++ [c.val] })
      ∧ (∀ v, x.st ≠ .s → Runs (.acoreStore c pa k ty v) s fun m =>
          m.sysLine (m.lineOf pa.toNat) = some (coreWritten x c pa.toNat (2 ^ k.val) v.toNat) ∧ (m.core c).wait = .none)
      ∧ (∀ v, x.st = .s → isHostLine (s.m.lineOf pa.toNat) = false → (∃ sa, s.m.target (64 * (pa.toNat / 64)) = .home sa ∧ s.m.targetDead (.home sa) = false) →
          s.m.henAsked sysAgent (s.m.lineOf pa.toNat) = false →
          Runs (.acoreStore c pa k ty v) s fun m => (m.core c).wait = .store pa.toNat (2 ^ k.val) v
            ∧ m.coh.reqs = s.m.coh.reqs ++ [{ kind := .upg, agent := sysAgent, line := s.m.lineOf pa.toNat }]))
  ∧ (∀ (c : CoreIx) (pa : BitVec 56) (k : Fin 4) (ty : Pbmt) (sa : Nat) (s : State), s.m.coreReady c = true → coreType pa.toNat ty = .cached → pa.toNat % 64 + 2 ^ k.val ≤ 64 →
      s.m.target (64 * (pa.toNat / 64)) = .home sa → s.m.targetDead (.home sa) = false → s.m.sysLine (sa / 64) = none → isHostLine (sa / 64) = false →
      s.m.henAsked sysAgent (sa / 64) = false →
      Runs (.acoreLoad c pa k ty) s fun m => (m.core c).wait = .load pa.toNat (2 ^ k.val)
        ∧ m.coh.reqs = s.m.coh.reqs ++ [{ kind := .rds, agent := sysAgent, line := sa / 64 }])
  ∧ (∀ (c : CoreIx) (pa : BitVec 56) (k : Fin 4) (ty : Pbmt) (v : BitVec 64) (s : State), s.m.coreReady c = true →
      (coreType pa.toNat ty = .fault ∨ coreType pa.toNat ty = .vacant →
        (Runs (.acoreLoad c pa k ty) s fun m => CoreFaulted m c .loadAccess pa.toNat) ∧ (Runs (.acoreStore c pa k ty v) s fun m => CoreFaulted m c .storeAccess pa.toNat))
      ∧ (coreType pa.toNat ty = .io → k.val ≠ 2 →
        (Runs (.acoreIoAccess c pa k ty false v) s fun m => CoreFaulted m c .loadAccess pa.toNat)
        ∧ (Runs (.acoreIoAccess c pa k ty true v) s fun m => CoreFaulted m c .storeAccess pa.toNat))
      ∧ (coreType pa.toNat ty = .io → k.val = 2 → pa.toNat % 4 = 0 → (pa.toNat - 0x7F00_0000_0000) % 4 = 0 → Mach.regExists (pa.toNat - 0x7F00_0000_0000) = true →
          s.m.targetDead (.dev (pa.toNat - 0x7F00_0000_0000)) = false →
          Answers (.acoreIoAccess c pa k ty true v) s (s.m.regWrite (coreAgent c) (pa.toNat - 0x7F00_0000_0000) (v.setWidth 32))
          ∧ (Runs (.acoreIoAccess c pa k ty false v) s fun m => (m.core c).wait = .none
              ∧ (m.core c).value = BitVec.ofNat 64 (s.m.regRead (coreAgent c) (pa.toNat - 0x7F00_0000_0000)).1.toNat)))
  ∧ (∀ (c : CoreIx) (pa : BitVec 56) (dw : Bool) (ty : Pbmt) (op : CoreAmo) (v : BitVec 64) (s : State), s.m.coreReady c = true →
      (pa.toNat % (if dw then 8 else 4) ≠ 0 →
        (Runs (.acoreAmo c pa dw ty op v) s fun m => CoreFaulted m c .storeAccess pa.toNat) ∧ (Runs (.acoreLr c pa dw ty) s fun m => CoreFaulted m c .loadAccess pa.toNat)
        ∧ (Runs (.acoreSc c pa dw ty v) s fun m => CoreFaulted m c .storeAccess pa.toNat))
      ∧ (∀ sa, pa.toNat % (if dw then 8 else 4) = 0 → coreType pa.toNat ty = .cached ∨ coreType pa.toNat ty = .nc → s.m.target pa.toNat = .home sa →
          s.m.targetDead (.home sa) = false →
          Runs (.acoreAmo c pa dw ty op v) s fun m => (m.core c).wait = .amo pa.toNat (if dw then 8 else 4)
            ∧ (m.slice (homeSlice (64 * (sa / 64)))).waiting = (s.m.slice (homeSlice (64 * (sa / 64)))).waiting
                ++ [{ agent := coreAgent c, line := sa / 64, code := Mach.coreAmoCode op dw, off := pa.toNat % 64, arg := v.setWidth 512, cmp := 0, mask := 0,
                      stamp := s.m.now % 65536 }]))
  ∧ (∀ (c : CoreIx) (pa : BitVec 56) (dw : Bool) (ty : Pbmt) (v : BitVec 64) (x : SysLine) (s : State), CoreHit s.m c pa.toNat (if dw then 8 else 4) ty x →
      pa.toNat % (if dw then 8 else 4) = 0 →
      (Runs (.acoreLr c pa dw ty) s fun m => (m.core c).value = coreBytes x.data pa.toNat (if dw then 8 else 4) ∧ (m.core c).resv = some (s.m.lineOf pa.toNat))
      ∧ ((s.m.core c).resv ≠ some (s.m.lineOf pa.toNat) →
          Runs (.acoreSc c pa dw ty v) s fun m => (m.core c).value = 1 ∧ (m.core c).resv = none ∧ m.acores.sys = s.m.acores.sys)
      ∧ ((s.m.core c).resv = some (s.m.lineOf pa.toNat) → x.st ≠ .s →
          Runs (.acoreSc c pa dw ty v) s fun m => (m.core c).value = 0 ∧ (m.core c).resv = none
            ∧ m.sysLine (m.lineOf pa.toNat) = some (coreWritten x c pa.toNat (if dw then 8 else 4) v.toNat)))
  ∧ (∀ (c : CoreIx) (p q : BitVec 4) (s : State), s.m.coreReady c = true →
      ((s.m.core c).unlanded = [] → Runs (.acoreFence c p q) s fun m => (m.core c).wait = .none)
      ∧ ((s.m.core c).unlanded ≠ [] → p.getLsbD 0 = true → p.getLsbD 1 = true → q.getLsbD 0 = true → q.getLsbD 1 = true →
          Runs (.acoreFence c p q) s fun m => (m.core c).wait = .fence)
      ∧ ((s.m.core c).unlanded ≠ [] → q.getLsbD 2 = true → p.getLsbD 0 = true ∨ p.getLsbD 2 = true → Runs (.acoreFence c p q) s fun m => (m.core c).wait = .fence)
      ∧ (q.getLsbD 2 = false → q.getLsbD 0 = false ∨ q.getLsbD 1 = false → Answers (.acoreFence c p q) s s.m))
  ∧ (∀ (c : CoreIx) (pa : BitVec 56) (ty : Pbmt) (s : State), s.m.coreReady c = true → coreType pa.toNat ty = .cached ∨ coreType pa.toNat ty = .nc →
      (s.m.sysLine (s.m.lineOf pa.toNat) = none → s.m.sysBackBusy (s.m.lineOf pa.toNat) = false →
        (Runs (.cboClean c pa ty) s fun m => (m.core c).wait = .none ∧ m.coh = s.m.coh) ∧ (Runs (.cboFlush c pa ty) s fun m => (m.core c).wait = .none ∧ m.coh = s.m.coh)
        ∧ (Runs (.cboInval c pa ty) s fun m => (m.core c).wait = .none ∧ m.coh = s.m.coh))
      ∧ (∀ x, s.m.sysLine (s.m.lineOf pa.toNat) = some x → x.dirty = true → isHostLine (s.m.lineOf pa.toNat) = false →
          (Runs (.cboClean c pa ty) s fun m => m.sysLine (s.m.lineOf pa.toNat) = some { x with dirty := false, st := .e } ∧ (m.core c).wait = .cbo (s.m.lineOf pa.toNat)
            ∧ m.coh.wbs = s.m.coh.wbs ++ [{ agent := sysAgent, line := s.m.lineOf pa.toNat, data := x.data, poison := x.poison, keep := true }])
          ∧ (Runs (.cboFlush c pa ty) s fun m => m.sysLine (s.m.lineOf pa.toNat) = none ∧ (m.core c).wait = .cbo (s.m.lineOf pa.toNat)
            ∧ m.coh.wbs = s.m.coh.wbs ++ [{ agent := sysAgent, line := s.m.lineOf pa.toNat, data := x.data, poison := x.poison, keep := false }])
          ∧ (Runs (.cboInval c pa ty) s fun m => m.sysLine (s.m.lineOf pa.toNat) = none ∧ (m.core c).wait = .cbo (s.m.lineOf pa.toNat)
            ∧ m.coh.wbs = s.m.coh.wbs ++ [{ agent := sysAgent, line := s.m.lineOf pa.toNat, data := x.data, poison := x.poison, keep := false }])))
  ∧ (∀ (c : CoreIx) (pa : BitVec 56) (ty : Pbmt) (x : SysLine) (s : State), s.m.coreReady c = true → coreType (pa.toNat / 64 * 64) ty = .cached →
      s.m.sysLine (s.m.lineOf (64 * (pa.toNat / 64))) = some x → x.st ≠ .s →
      Runs (.cboZero c pa ty) s fun m => m.sysLine (m.lineOf (64 * (pa.toNat / 64)))
        = some { x with st := .m, dirty := true, data := 0, poison := false, holders := [c.val] })
  ∧ (∀ (m : Mach) (l : Nat) (x : SysLine), m.sysLine l = some x → x.dirty = false → isHostLine l = true → m.host.state = .attached → m.host.bme = true →
      m.inUio (64 * (l - 2 ^ 48)) = false →
      (m.sysEvict l).sysLine l = none ∧ (m.sysEvict l).out = m.out ++ [.hostReq m.host.nextReq .cleanEvict false])
  ∧ (∀ (c : CoreIx) (a : BitVec 56) (t : List (BitVec 56)) (s : State),
      ((s.m.core c).errStores = a :: t → Answers (.storeErr c) s (s.m.modCore c fun x => { x with errStores := t, int16 := true, errAddr := a }))
      ∧ ((s.m.core c).lostStores = a :: t → Answers (.lostStore c) s (s.m.modCore c fun x => { x with lostStores := t, int17 := true, errAddr := a })))
  ∧ (∀ (v : BitVec 4) (s : State), RegOpen s.m (pwrReg 0x60) → s.m.acores.stepTo = none →
      (12 < v.toNat → Takes (.targetClk v) s (pwrReg 0x60) (s.m.badWrite (pwrReg 0x60)))
      ∧ (v.toNat ≤ 12 → s.m.acores.curClk.toNat < v.toNat →
          Takes (.targetClk v) s (pwrReg 0x60) ((s.m.setFld (pwrReg 0x60) 0 4 v.toNat).askUp .clk))
      ∧ (v.toNat < s.m.acores.curClk.toNat → s.m.acores.curClk.toNat ≤ 12 → s.m.inLean = false →
          Runs (.targetClk v) s fun m => m.acores.stepTo = some v ∧ m.asked .clk = false ∧ m.fld (pwrReg 0x60) 0 4 = v.toNat))
  ∧ (∀ (c : Fin 6) (v : BitVec 2) (s : State), RegOpen s.m (pwrReg 0x60) →
      (v = 2 → s.m.clusterState c ≠ 2 → Takes (.cluster c v) s (pwrReg 0x60) (s.m.askUp (.cluster c)))
      ∧ (v.toNat < 2 → s.m.clusterState c ≠ v → s.m.acores.sys = [] →
          Runs (.cluster c v) s fun m => m.clusterState c = v ∧ c.val ∉ m.acores.waking ∧ m.asked (.cluster c) = false
            ∧ (v = 0 → ∀ i < 8, m.core (8 * c + i) = {}))
      ∧ (v = 3 → Takes (.cluster c v) s (pwrReg 0x60) s.m))
  ∧ (∀ (v : BitVec 4) (s : State), s.m.acores.stepTo = some v →
      Runs .acoreClkDone s fun m => m.acores.curClk = v ∧ m.acores.stepTo = none)

namespace Sys2Proof.Claims

/-- Nothing holds the module in reset (R552, R554, R592). -/
def NothingHolds (m : Mach) : Prop :=
  m.boot.resetPin = false ∧ m.boot.powered = true ∧ m.goose.heldMclk = false ∧ m.goose.heldRef = false ∧ m.goose.heldTemp = false
    ∧ m.goose.lockout = false

/-- What a module reset leaves that keeps the always-on domains powered (R516, R517, R599). -/
def ResetLeaves (m n : Mach) : Prop :=
  n.hens = [] ∧ n.oxen = [] ∧ n.collies = [] ∧ n.mules = [] ∧ n.syncs = [] ∧ n.fm = [] ∧ n.hbm = [] ∧ n.coh = {} ∧ n.mbx = []
    ∧ (∀ k, (FMap.get 0 n.sched k).getLsbD 63 = false) ∧ n.beat = m.beat ∧ n.site = m.site ∧ n.boot.retained = m.boot.retained
    ∧ n.boot.reports = m.boot.reports ∧ n.save.seal0 = m.save.seal0 ∧ n.save.seal1 = m.save.seal1 ∧ n.fused = m.fused
    ∧ n.boot.ready = false ∧ n.boot.svcBusy = none

/-- A start has begun at stage 0, warm exactly where R520's conditions hold so far. -/
def Started (m n : Mach) : Prop :=
  n.boot.inReset = false ∧ n.boot.stage = 0 ∧ n.boot.bootCount = m.boot.bootCount + 1 ∧ n.boot.resetAt = n.now ∧ n.boot.stageAt = n.now
    ∧ (n.boot.warm = true ↔ m.boot.retained.forceCold = false ∧ m.boot.retained.token = true ∧ m.boot.retained.voteOk = true)
    ∧ (m.boot.retained.forceCold = true → n.boot.warmWhy = 2)

end Sys2Proof.Claims

/-- R516, R517, R520, R521, R559, R592, R599: what each module reset leaves, what the always-on domains keep, and whether the start that follows is warm.
Where the spec leaves the reading open, the clauses follow the model's choices: log entries 3, 4, 5, 17, 147, 148, 149, 150, 151, 152, 176, 177, 191. -/
def Obligations.ModuleResets : Prop :=
  (∀ (t : Nat) (s : State), RegOpen s.m (bootReg 8) → s.m.boot.stopped = false → Runs (.swReset t) s fun m =>
      ResetLeaves s.m m ∧ m.boot.cause = 0x10 ∧ (NothingHolds s.m → Started s.m m))
  ∧ (∀ (t low : Nat) (s : State), s.m.boot.powered = true → 5000 ≤ low → Runs (.externalReset t low) s fun m =>
      ResetLeaves s.m m ∧ m.boot.cause = 2 ∧ m.boot.resetPin = true ∧ m.boot.inReset = true ∧ m.goose.lockout = false ∧ m.boot.stopped = false
        ∧ m.save.active = none)
  ∧ (∀ (t low : Nat) (s : State), low < 500 → Answers (.externalReset t low) s s.m)
  ∧ (∀ (t : Nat) (s : State), s.m.boot.resetPin = true → s.m.boot.inReset = true → s.m.boot.stopped = false → s.m.boot.cause ≠ 1 →
      NothingHolds { s.m with boot := { s.m.boot with resetPin := false } } → Runs (.modResetRelease t) s fun m =>
      m.boot.resetPin = false ∧ m.boot.cause = s.m.boot.cause ∧ Started s.m m)
  ∧ (∀ (t : Nat) (s : State), s.m.boot.powered = true → s.m.boot.resetPin = false → Runs (.powerOnReset t) s fun m =>
      m.boot.cause = 1 ∧ m.boot.inReset = false ∧ m.boot.stage = 0 ∧ m.boot.warm = false ∧ m.boot.warmWhy = 1 ∧ m.boot.retained.token = false
        ∧ m.boot.reports = [] ∧ m.site = {} ∧ m.beat.locked = false ∧ m.hens = [] ∧ m.fm = [] ∧ m.hbm = [])
  ∧ (∀ (t : Nat) (s : State), s.m.boot.powered = true → Runs (.alwaysOnPowerLoss t) s fun m =>
      m.boot.powered = false ∧ m.boot.inReset = true ∧ m.boot.retained.token = false ∧ m.boot.reports = [] ∧ m.site = {} ∧ m.beat.locked = false
        ∧ m.tels = [] ∧ m.sched = [])
  ∧ (∀ (s : State), RegOpen s.m (bootReg 8) → Takes .killToken s (bootReg 8)
      { s.m with boot := { s.m.boot with retained := { s.m.boot.retained with token := false, tokenWhy := 3 } } })
  ∧ (∀ (s : State), s.m.boot.stopped = true → s.m.boot.recovery = true →
      Answers .linkLocalTimeout s { s.m with boot := { s.m.boot with linkLocal := true } })
  ∧ (∀ (t : Nat) (a b c : Image) (s : State), s.m.boot.stopped = true → s.m.boot.recovery = true → s.m.boot.inReset = false →
      Runs (.recoveryWrite t a b c) s fun m => (s.m.imageOk 0 a && s.m.imageOk 1 b && s.m.imageOk 2 c) = true →
        ResetLeaves s.m m ∧ ∃ k, FMap.get {} m.boot.slots k = { stage1 := some a, aHen := some b, mHen := some c }
          ∧ (∀ j, j ≠ k → FMap.get ({} : BootSlot) m.boot.slots j = FMap.get {} s.m.boot.slots j)
          ∧ (∀ j < 2, (FMap.get ({} : BootSlot) s.m.boot.slots j).failed = true →
              (FMap.get ({} : BootSlot) s.m.boot.slots (1 - j)).failed = false → k = j))
  ∧ (∀ (t : Nat) (a b c : Image) (s : State), (s.m.imageOk 0 a && s.m.imageOk 1 b && s.m.imageOk 2 c) = false →
      Answers (.recoveryWrite t a b c) s s.m)

namespace Sys2Proof.Claims

/-- Stage `n` is in progress, and nothing holds it (R522, R524). -/
def InStage (m : Mach) (n : Nat) : Prop :=
  m.boot.stage = n ∧ m.boot.ready = false ∧ m.boot.stopped = false ∧ m.boot.inReset = false ∧ m.lean.state ≠ 1 ∧ m.lean.state ≠ 2

/-- The command has no effect while its stage is not in progress, or lean state holds it. -/
def StageWaits (c : Instr) (n : Nat) : Prop := ∀ s : State, ¬ InStage s.m n → Answers c s s.m

/-- The newest stage report is that of stage `n` for the module, with RESULT `r` (R525, Table 17-3). -/
def Reported (m : Mach) (n r : Nat) : Prop :=
  ∃ x xs, m.boot.reports = x :: xs ∧ x.toNat % 2 ^ 32 = n + r * 2 ^ 8 + Bits.ofBool m.boot.warm * 2 ^ 16

/-- Stage `n` has ended with RESULT `r`, and the next one begins. -/
def StageOver (m : Mach) (n r : Nat) : Prop := m.boot.stage = n + 1 ∧ m.boot.stageAt = m.now ∧ Reported m n r

/-- The module has restarted at stage 0 as a cold start, for `why` (R520). -/
def ColdAgain (m n : Mach) (why : BitVec 4) : Prop :=
  n.boot.stage = 0 ∧ n.boot.warm = false ∧ n.boot.warmWhy = why ∧ n.boot.cause = m.boot.cause ∧ n.boot.bootCount = m.boot.bootCount ∧ n.hens = []

end Sys2Proof.Claims

/-- R520 to R531, R536, R538, R559: the ten stages of a start, each begun only when the one before has ended and held by lean state; what each finds and
leaves; and where one stops the start or restarts it cold. Where the spec leaves the reading open, the clauses follow the model's choices: log entries
4, 5, 20, 21, 115, 127, 144, 145, 146, 149, 151, 153, 154, 156, 157, 158, 163, 167, 169, 179. -/
def Obligations.StartStages : Prop :=
  (∀ (t : Nat) (v b : BitVec 10), StageWaits (.stage0 t v b) 0) ∧ (∀ (t : Nat) (f : FuseVotes), StageWaits (.stage1 t f) 1)
  ∧ (∀ t, StageWaits (.stage2 t) 2) ∧ (∀ (t : Nat) (b : BitVec 4), StageWaits (.stage3 t b) 3)
  ∧ (∀ (t : Nat) (a b c d : DieFind), StageWaits (.stage4 t a b c d) 4) ∧ (∀ (t : Nat) (a b c d : DieTest), StageWaits (.stage5 t a b c d) 5)
  ∧ (∀ (t : Nat) (f : List StackFind), StageWaits (.stage6 t f) 6) ∧ (∀ t, StageWaits (.stage7 t) 7) ∧ (∀ t, StageWaits (.stage8 t) 8)
  ∧ (∀ t, StageWaits (.stage9 t) 9)
  ∧ (∀ (t : Nat) (vin vbus : BitVec 10) (s : State), InStage s.m 0 → s.m.lean.inputOpen = false →
      2400 + 10 * s.m.fld (pwrReg 8) 8 8 < 8 * vin.toNat → vin.toNat ≤ vbus.toNat + 10 → vbus.toNat ≤ vin.toNat + 10 →
      Runs (.stage0 t vin vbus) s fun m => StageOver m 0 0 ∧ m.lean.clear = true ∧ m.gov.vin = vin ∧ m.gov.vbus = vbus)
  ∧ (∀ (t : Nat) (vin vbus : BitVec 10) (s : State), vbus.toNat + 10 < vin.toNat → Answers (.stage0 t vin vbus) s s.m)
  ∧ (∀ (t : Nat) (f : FuseVotes) (s : State), InStage s.m 1 → Runs (.stage1 t f) s fun m =>
      m.fused.variant = (if f.variantOk then s.fuses.variant else 2) ∧ m.fused.ownerRevoked = s.fuses.ownerRevoked ||| f.ownerBad
        ∧ m.fld (pwrReg 0x10) 0 11 = Mach.variantCap m.fused.variant.toNat
        ∧ (f.repairOk = false ∨ f.variantOk = false → m.boot.fuseFault = true)
        ∧ (f.repairOk = false ∨ f.variantOk = false ∨ f.rootOk = false ∨ f.ownerBad ≠ 0 ∨ f.rollbackBad ≠ [] →
            m.boot.retained.token = false ∧ m.boot.warm = false)
        ∧ (f.recordOk = false → m.boot.retained.voteOk = false ∧ m.boot.warm = false)
        ∧ m.fld (bootReg 0x30) 16 16 = min 0xFFFF (s.m.fld (bootReg 0x30) 16 16 + f.recordCorrected)
        ∧ (f.rootOk = true → m.boot.stage = 2 ∧ m.boot.stopped = false)
        ∧ (f.rootOk = false → m.boot.stage = 1 ∧ m.boot.stopped = true ∧ Reported m 1 2))
  ∧ (∀ (t : Nat) (s : State), InStage s.m 2 → (FMap.get ({} : BootSlot) s.m.boot.slots 0).failed = true →
      (FMap.get ({} : BootSlot) s.m.boot.slots 1).failed = true → s.m.boot.slot < 2 →
      Runs (.stage2 t) s fun m => m.boot.stage = 2 ∧ m.boot.stopped = true ∧ m.boot.recovery = true ∧ m.goose.alert = true ∧ Reported m 2 2)
  ∧ (∀ (t k : Nat) (s : State) (i : Image), InStage s.m 2 → k < 2 → (FMap.get ({} : BootSlot) s.m.boot.slots k).stage1 = some i →
      (FMap.get ({} : BootSlot) s.m.boot.slots k).failed = false → (s.m.boot.preferOther = true → k = 1 - s.m.boot.slot) →
      (s.m.boot.preferOther = false → ∀ j, (FMap.get ({} : BootSlot) s.m.boot.slots (1 - k)).stage1 = some j → j.version.toNat < i.version.toNat) →
      Runs (.stage2 t) s fun m => s.m.imageOk 0 i = true →
        m.boot.stage = 3 ∧ m.boot.slot = k ∧ m.boot.minRev = i.minRev ∧ m.boot.preferOther = false)
  ∧ (∀ (t : Nat) (s : State), InStage s.m 3 → Runs (.stage3 t 0) s fun m => m.boot.stage = 4
      ∧ ∀ d < 4, ∀ i < 41, m.domain d i = .on ∨ (i < 26 ∧ (FMap.get ({} : DieFuse) s.m.fused.dies d).badFlocks.getLsbD i = true))
  ∧ (∀ (t : Nat) (bad : BitVec 4) (s : State), InStage s.m 3 → Runs (.stage3 t bad) s fun m => m.boot.stage = 4
      ∧ (bad = 8 → (s.m.die 3).excluded = false → (m.die 3).excluded = true ∧ (m.die 3).domains = [] ∧ (m.die 3).flockMap = 0))
  ∧ (∀ (t : Nat) (a b c d : DieFind) (s : State), InStage s.m 4 → s.m.boot.warm = false → (∀ i < 4, s.m.dieOut i = false) →
      (∀ x ∈ [a, b, c, d], x.trained = true ∧ s.m.boot.minRev.toNat ≤ x.revision.toNat) →
      Runs (.stage4 t a b c d) s fun m => m.boot.stage = 5 ∧ m.boot.features = a.features &&& b.features &&& c.features &&& d.features
        ∧ (m.boot.modRev = a.revision ∨ m.boot.modRev = b.revision ∨ m.boot.modRev = c.revision ∨ m.boot.modRev = d.revision)
        ∧ (∀ x ∈ [a, b, c, d], m.boot.modRev.toNat ≤ x.revision.toNat ∧ m.boot.linkVersion.toNat ≤ x.version.toNat)
        ∧ (m.boot.mixed = true ↔ ∃ x ∈ [a, b, c, d], x.revision ≠ m.boot.modRev))
  ∧ (∀ (t : Nat) (a b c d : DieFind) (s : State), InStage s.m 4 → s.m.boot.warm = true →
      (∃ i x, [a, b, c, d][i]? = some x ∧ FMap.get (0, 0) s.m.boot.retained.dieIds i ≠ (x.revision, x.features)) →
      Runs (.stage4 t a b c d) s fun m => ColdAgain s.m m 5)
  ∧ (∀ (t : Nat) (a b c d : DieTest) (s : State), InStage s.m 5 → s.m.boot.warm = true →
      (∃ i x, [a, b, c, d][i]? = some x ∧ s.m.dieOut i = false ∧ x.voteOk = false) →
      Runs (.stage5 t a b c d) s fun m => ColdAgain s.m m 6 ∧ m.boot.retained.token = false)
  ∧ (∀ (t : Nat) (a b c d : DieTest) (s : State), InStage s.m 5 → s.m.boot.warm = false → Runs (.stage5 t a b c d) s fun m => m.boot.stage = 6
      ∧ ((∀ x ∈ [a, b, c, d], x.fatal = false) → ∀ i x, [a, b, c, d][i]? = some x → s.m.dieOut i = false →
          ∃ fs : List Nat, (m.die i).flockMap = Mach.flockMapOf fs ∧ fs.length ≤ 24
            ∧ (∀ f ∈ fs, f < 26 ∧ x.badFlocks.getLsbD f = false ∧
                (x.voteOk = true → (FMap.get ({} : DieFuse) s.m.fused.dies i).badFlocks.getLsbD f = false))))
  ∧ (∀ (t d : Nat) (a b c e : DieTest) (s : State), InStage s.m 5 → s.m.boot.warm = false → d < 4 → s.m.dieOut d = true →
      Runs (.stage5 t a b c e) s fun m => ∃ x ∈ m.boot.reports, x.toNat % 2 ^ 32 = 5 + 3 * 2 ^ 8 + (d + 1) * 2 ^ 24)
  ∧ (∀ (t d : Nat) (f : List StackFind) (s : State), InStage s.m 6 → s.m.boot.warm = false → d < 4 → s.m.dieOut d = true →
      Runs (.stage6 t f) s fun m => ∃ x ∈ m.boot.reports, x.toNat % 2 ^ 32 = 6 + 3 * 2 ^ 8 + (d + 1) * 2 ^ 24)
  ∧ (∀ (t : Nat) (f : List StackFind) (s : State), InStage s.m 6 → Runs (.stage6 t f) s fun m =>
      m.boot.stage = 7 ∧ m.boot.retained.token = true
        ∧ ((∀ x ∈ f, x.failed = false) → m.tier.viewSize = s.m.tier.sizeNext ∧ m.tier.size = s.m.tier.size
            ∧ ∀ k < 12, s.m.dieOut (k / 3) = false → (m.hbmc k).up = true ∧ (m.hbmc k).mode = (s.m.hbmc k).modeNext))
  ∧ (∀ (t : Nat) (s : State), InStage s.m 7 → (FMap.get ({} : BootSlot) s.m.boot.slots s.m.boot.slot).mHen = none →
      Runs (.stage7 t) s fun m => m.boot.stopped = true ∧ m.goose.alert = true ∧ Reported m 7 2)
  ∧ (∀ (t : Nat) (s : State) (i : Image), InStage s.m 7 → (FMap.get ({} : BootSlot) s.m.boot.slots s.m.boot.slot).mHen = some i →
      (s.m.hen (agentId 0 2 0)).state ≠ .failed → s.m.boot.dist.missing = [] →
      Runs (.stage7 t) s fun m => s.m.imageOk 2 i = true → m.boot.stage = 8 ∧ (m.hen (agentId 0 2 0)).state = .running
        ∧ (m.hen (agentId 0 2 0)).pc = BitVec.ofNat 56 (s.m.mgmtWindow + i.entry) ∧ (m.hen (agentId 0 2 0)).vbase = BitVec.ofNat 56 (s.m.mgmtWindow + i.vector))
  ∧ (∀ (t : Nat) (s : State), InStage s.m 8 → Runs (.stage8 t) s fun m => m.boot.stage = 9
      ∧ (s.m.tier.state ≠ .mounting → Reported m 8 3) ∧ (s.m.tier.state = .mounting → (m.tier.state = .mounted ∨ m.tier.state = .readOnly) ∧ m.tier.size = s.m.tier.viewSize)
      ∧ (s.m.fused.zeroised = true → m.boot.saveInfo = 0))
  ∧ (∀ (t : Nat) (s : State), InStage s.m 9 → Runs (.stage9 t) s fun m => m.boot.ready = true
      ∧ (s.m.host.linkUp = false → s.m.herd.attaching = false → ∀ d < 4, s.m.dieOut d = false → ∀ f < 26, (s.m.die d).flockMap.getLsbD f = true → (m.collie (flockBase d f)).state = .running))

namespace Sys2Proof.Claims

/-- A write of SVC_CMD that names A-die A`d` while no step is in progress (R540). -/
def SvcMay (s : State) (die : Fin 8) (d : Nat) : Prop :=
  RegOpen s.m (bootReg 0x14) ∧ d < 4 ∧ die.val = d + 1 ∧ s.m.boot.ready = true ∧ s.m.boot.svcBusy = none

/-- Step `n` of A-die A`d` has started: BUSY, and RESULT 0. -/
def SvcBegun (m : Mach) (n d flock : Nat) (opt : BitVec 2) : Prop :=
  m.boot.svcBusy = some { step := n, die := d, flock := flock, opt := opt } ∧ m.boot.svcLast.toNat = n ∧ m.boot.svcResult = 0

/-- A write of SVC_CMD that starts no step: no such A-die, a step in progress, or its precondition `pre` does not hold. -/
def SvcBars (s : State) (die : Fin 8) (pre : Nat → Prop) : Prop :=
  RegOpen s.m (bootReg 0x14) ∧ (die.val = 0 ∨ 4 < die.val ∨ s.m.boot.ready = false ∨ s.m.boot.svcBusy ≠ none ∨ ∃ d, die.val = d + 1 ∧ ¬ pre d)

/-- The refused write counts BAD_WRITE and leaves RESULT at 1. -/
def svcRefused (m : Mach) : Mach := ({ m with boot := { m.boot with svcResult := 1 } } : Mach).badWrite (bootReg 0x14)

/-- The A-die is in service: not excluded, not dead, not under compute reset. -/
def LiveDie (m : Mach) (d : Nat) : Prop := (m.die d).excluded = false ∧ (m.die d).dead = false ∧ (m.die d).computeReset = false

/-- The flock's Collie is QUIESCED with nothing pooled or hosted, and its Mules have no active descriptor. -/
def FlockEmpty (m : Mach) (fb : Nat) : Prop :=
  (m.collie fb).state = .quiesced ∧ (m.collie fb).pool = [] ∧ (m.collie fb).hosted = [] ∧ m.muleActive (fb + 20) = [] ∧ m.muleActive (fb + 21) = []

/-- Step `x` is in progress, and lean state does not hold it. -/
def InStep (s : State) (x : SvcStep) : Prop := s.m.boot.svcBusy = some x ∧ s.m.inLean = false

/-- The step in progress has ended with RESULT `r`. -/
def SvcOver (m : Mach) (r : BitVec 2) : Prop := m.boot.svcBusy = none ∧ m.boot.svcResult = r

end Sys2Proof.Claims

/-- R540, R541, R369, R543 (Table 17-6): the commands of the service steps. Each of quiesceDie, flushDie, resetDie, testDie, hbmUp, loadFw, rejoin,
release, addDie, flockOff and flockOn completes where its precondition holds, in the state in which its step has started with its own effect; elsewhere
the write is refused. -/
def Sys2Proof.Claims.ServiceStepsStart : Prop :=
  (∀ (die : Fin 8) (opt : BitVec 2) (d : Nat) (s : State), SvcMay s die d → (LiveDie s.m d) →
      ∃ t, exec (.quiesceDie die opt) s = .next t ∧ t.pending = s.pending ∧ SvcBegun t.m 1 d 0 opt
        ∧ (∀ i < 4, (t.m.mule (agentId (d + 1) 26 i)).state ≠ .running))
  ∧ (∀ (die : Fin 8) (opt : BitVec 2) (s : State), SvcBars s die (fun d => LiveDie s.m d) → Takes (.quiesceDie die opt) s (bootReg 0x14) (svcRefused s.m))
  ∧ (∀ (die : Fin 8) (opt : BitVec 2) (d : Nat) (s : State), SvcMay s die d → (LiveDie s.m d ∧ (s.m.svcDie d).quiesced = true) →
      ∃ t, exec (.flushDie die opt) s = .next t ∧ t.pending = s.pending ∧ SvcBegun t.m 2 d 0 opt
        ∧ (∀ a ∈ s.m.dieHens d, (t.m.hen a).ic = []))
  ∧ (∀ (die : Fin 8) (opt : BitVec 2) (s : State), SvcBars s die (fun d => LiveDie s.m d ∧ (s.m.svcDie d).quiesced = true) → Takes (.flushDie die opt) s (bootReg 0x14) (svcRefused s.m))
  ∧ (∀ (die : Fin 8) (opt : BitVec 2) (d : Nat) (s : State), SvcMay s die d → (LiveDie s.m d ∧ (opt.getLsbD 0 = true ∨ ((s.m.svcDie d).quiesced = true ∧ (s.m.svcDie d).flushed = true))) →
      ∃ t, exec (.resetDie die opt) s = .next t ∧ t.pending = s.pending ∧ SvcBegun t.m 3 d 0 opt
        ∧ ((t.m.die d).computeReset = true
        ∧ ∀ i < 3, (s.m.retraining (3 * d + i) = false → (t.m.hbmc (3 * d + i)).selfRefresh = true)
          ∧ (s.m.retraining (3 * d + i) = true → (t.m.hbmc (3 * d + i)).entering = true)))
  ∧ (∀ (die : Fin 8) (opt : BitVec 2) (s : State), SvcBars s die (fun d => LiveDie s.m d ∧ (opt.getLsbD 0 = true ∨ ((s.m.svcDie d).quiesced = true ∧ (s.m.svcDie d).flushed = true))) → Takes (.resetDie die opt) s (bootReg 0x14) (svcRefused s.m))
  ∧ (∀ (die : Fin 8) (opt : BitVec 2) (d : Nat) (s : State), SvcMay s die d → (((s.m.svcDie d).inReset = true ∧ (s.m.die d).computeReset = true) ∨ ((s.m.svcDie d).added = true ∧ opt.getLsbD 0 = false)) →
      ∃ t, exec (.testDie die opt) s = .next t ∧ t.pending = s.pending ∧ SvcBegun t.m 4 d 0 opt
        ∧ (t.m.svcDie d = s.m.svcDie d))
  ∧ (∀ (die : Fin 8) (opt : BitVec 2) (s : State), SvcBars s die (fun d => ((s.m.svcDie d).inReset = true ∧ (s.m.die d).computeReset = true) ∨ ((s.m.svcDie d).added = true ∧ opt.getLsbD 0 = false)) → Takes (.testDie die opt) s (bootReg 0x14) (svcRefused s.m))
  ∧ (∀ (die : Fin 8) (opt : BitVec 2) (d : Nat) (s : State), SvcMay s die d → ((s.m.svcDie d).tested = true) →
      ∃ t, exec (.hbmUp die opt) s = .next t ∧ t.pending = s.pending ∧ SvcBegun t.m 5 d 0 opt
        ∧ (t.m.svcDie d = s.m.svcDie d))
  ∧ (∀ (die : Fin 8) (opt : BitVec 2) (s : State), SvcBars s die (fun d => (s.m.svcDie d).tested = true) → Takes (.hbmUp die opt) s (bootReg 0x14) (svcRefused s.m))
  ∧ (∀ (die : Fin 8) (flock : Fin 32) (opt : BitVec 2) (d : Nat) (s : State), SvcMay s die d → (if opt.getLsbD 1 then ((s.m.svcDie d).hbmUp = true ∨ flock.val ∈ (s.m.svcDie d).flockOn) ∧ s.m.flockEnabled (flockBase d flock) = true
        else (s.m.svcDie d).hbmUp = true ∨ (s.m.svcDie d).flockOn ≠ []) →
      ∃ t, exec (.loadFw die flock opt) s = .next t ∧ t.pending = s.pending ∧ SvcBegun t.m 6 d flock opt
        ∧ (t.m.boot.dist = { running := true }))
  ∧ (∀ (die : Fin 8) (flock : Fin 32) (opt : BitVec 2) (s : State), SvcBars s die (fun d => if opt.getLsbD 1 then ((s.m.svcDie d).hbmUp = true ∨ flock.val ∈ (s.m.svcDie d).flockOn) ∧ s.m.flockEnabled (flockBase d flock) = true
        else (s.m.svcDie d).hbmUp = true ∨ (s.m.svcDie d).flockOn ≠ []) → Takes (.loadFw die flock opt) s (bootReg 0x14) (svcRefused s.m))
  ∧ (∀ (die : Fin 8) (opt : BitVec 2) (d : Nat) (s : State), SvcMay s die d → ((s.m.svcDie d).loaded = true) →
      ∃ t, exec (.rejoin die opt) s = .next t ∧ t.pending = s.pending ∧ SvcBegun t.m 7 d 0 opt
        ∧ (∀ i < 16, (t.m.slice (16 * d + i)).homeReset = true))
  ∧ (∀ (die : Fin 8) (opt : BitVec 2) (s : State), SvcBars s die (fun d => (s.m.svcDie d).loaded = true) → Takes (.rejoin die opt) s (bootReg 0x14) (svcRefused s.m))
  ∧ (∀ (die : Fin 8) (flock : Fin 32) (opt : BitVec 2) (d : Nat) (s : State), SvcMay s die d → (if opt.getLsbD 1 then ((s.m.svcDie d).rejoined = true ∨ (flock.val ∈ (s.m.svcDie d).flockOn ∧ flock.val ∈ (s.m.svcDie d).flockLoaded))
          ∧ s.m.flockEnabled (flockBase d flock) = true
        else (s.m.svcDie d).rejoined = true ∨ ∃ g ∈ (s.m.svcDie d).flockOn, g ∈ (s.m.svcDie d).flockLoaded) →
      ∃ t, exec (.release die flock opt) s = .next t ∧ t.pending = s.pending ∧ SvcBegun t.m 8 d flock opt
        ∧ (if opt.getLsbD 1 then (t.m.collie (flockBase d flock)).state = .running
          else ∀ g < 26, s.m.flockOn (flockBase d g) = true → (t.m.collie (flockBase d g)).state = .running))
  ∧ (∀ (die : Fin 8) (flock : Fin 32) (opt : BitVec 2) (s : State), SvcBars s die (fun d => if opt.getLsbD 1 then ((s.m.svcDie d).rejoined = true ∨ (flock.val ∈ (s.m.svcDie d).flockOn ∧ flock.val ∈ (s.m.svcDie d).flockLoaded))
          ∧ s.m.flockEnabled (flockBase d flock) = true
        else (s.m.svcDie d).rejoined = true ∨ ∃ g ∈ (s.m.svcDie d).flockOn, g ∈ (s.m.svcDie d).flockLoaded) → Takes (.release die flock opt) s (bootReg 0x14) (svcRefused s.m))
  ∧ (∀ (die : Fin 8) (opt : BitVec 2) (d : Nat) (s : State), SvcMay s die d → ((s.m.die d).excluded = true ∨ (s.m.die d).dead = true) →
      ∃ t, exec (.addDie die opt) s = .next t ∧ t.pending = s.pending ∧ SvcBegun t.m 9 d 0 opt
        ∧ (∀ k ∈ dieLinks d, (t.m.link k).held = false))
  ∧ (∀ (die : Fin 8) (opt : BitVec 2) (s : State), SvcBars s die (fun d => (s.m.die d).excluded = true ∨ (s.m.die d).dead = true) → Takes (.addDie die opt) s (bootReg 0x14) (svcRefused s.m))
  ∧ (∀ (die : Fin 8) (flock : Fin 32) (opt : BitVec 2) (d : Nat) (s : State), SvcMay s die d → (flock.val < 26 ∧ LiveDie s.m d ∧ (s.m.die d).flockMap.getLsbD flock = true ∧ FlockEmpty s.m (flockBase d flock)) →
      ∃ t, exec (.flockOff die flock opt) s = .next t ∧ t.pending = s.pending ∧ SvcBegun t.m 10 d flock opt
        ∧ (t.m.domain d flock = .off ∧ (t.m.die d).flockMap.getLsbD flock = false
        ∧ (FMap.get 0 t.m.boot.retained.flockSet d).getLsbD flock = false))
  ∧ (∀ (die : Fin 8) (flock : Fin 32) (opt : BitVec 2) (s : State), SvcBars s die (fun d => flock.val < 26 ∧ LiveDie s.m d ∧ (s.m.die d).flockMap.getLsbD flock = true ∧ FlockEmpty s.m (flockBase d flock)) → Takes (.flockOff die flock opt) s (bootReg 0x14) (svcRefused s.m))
  ∧ (∀ (die : Fin 8) (flock : Fin 32) (opt : BitVec 2) (d : Nat) (s : State), SvcMay s die d → (flock.val < 26 ∧ LiveDie s.m d ∧ (s.m.svcDie d).goodFlocks.getLsbD flock = true ∧ (s.m.die d).flockMap.getLsbD flock = false
        ∧ s.m.flockCount d < 24) →
      ∃ t, exec (.flockOn die flock opt) s = .next t ∧ t.pending = s.pending ∧ SvcBegun t.m 11 d flock opt
        ∧ (s.m.domain d flock = .on ∨ ∃ (e : Fin 4) (g : Fin 42), e.val = d ∧ g.val = flock ∧ t.m.asked (.domain e g) = true))
  ∧ (∀ (die : Fin 8) (flock : Fin 32) (opt : BitVec 2) (s : State), SvcBars s die (fun d => flock.val < 26 ∧ LiveDie s.m d ∧ (s.m.svcDie d).goodFlocks.getLsbD flock = true ∧ (s.m.die d).flockMap.getLsbD flock = false
        ∧ s.m.flockCount d < 24) → Takes (.flockOn die flock opt) s (bootReg 0x14) (svcRefused s.m))

/-- R541, R543 (Table 17-6): svcStepDone completes the step in progress, each step by what it finds; it waits in lean state and while the step's own
condition does not hold. -/
def Sys2Proof.Claims.ServiceStepsEnd : Prop :=
  (∀ (t : Nat) (f : SvcFind) (s : State), s.m.boot.svcBusy = none ∨ s.m.inLean = true → Answers (.svcStepDone t f) s s.m)
  ∧ (∀ (t : Nat) (f : SvcFind) (s : State) (x : SvcStep), InStep s x → f.ok = false → x.die < 4 →
      ∃ u, exec (.svcStepDone t f) s = .next u ∧ u.pending = s.pending ∧ SvcOver u.m 2
        ∧ ∃ r rs, u.m.boot.reports = r :: rs ∧ r.toNat % 2 ^ 32 / 2 ^ 8 = 2 + (Bits.ofBool u.m.boot.warm + 2) * 2 ^ 8 + (x.die + 1) * 2 ^ 16)
  ∧ (∀ (t : Nat) (f : SvcFind) (s : State) (x : SvcStep), InStep s x → f.ok = true → x.step = 1 →
      (s.m.dieQuiesced x.die = false → Answers (.svcStepDone t f) s s.m)
      ∧ (s.m.dieQuiesced x.die = true → ∃ u, exec (.svcStepDone t f) s = .next u ∧ u.pending = s.pending ∧ SvcOver u.m 0
          ∧ (u.m.svcDie x.die).quiesced = true ∧ (u.m.svcDie x.die).flushed = false))
  ∧ (∀ (t : Nat) (f : SvcFind) (s : State) (x : SvcStep), InStep s x → f.ok = true → x.step = 2 →
      ((∃ w ∈ s.m.coh.wbs, agentDie w.agent = x.die + 1) → Answers (.svcStepDone t f) s s.m)
      ∧ ((∀ w ∈ s.m.coh.wbs, agentDie w.agent ≠ x.die + 1) → ∃ u, exec (.svcStepDone t f) s = .next u ∧ u.pending = s.pending ∧ SvcOver u.m 0
          ∧ (u.m.svcDie x.die).flushed = true))
  ∧ (∀ (t : Nat) (f : SvcFind) (s : State) (x : SvcStep), InStep s x → f.ok = true → x.step = 3 →
      ∃ u, exec (.svcStepDone t f) s = .next u ∧ u.pending = s.pending ∧ SvcOver u.m 0 ∧ (u.m.svcDie x.die).inReset = true
        ∧ (u.m.svcDie x.die).tested = false ∧ (u.m.svcDie x.die).hbmUp = false ∧ (u.m.svcDie x.die).loaded = false)
  ∧ (∀ (t : Nat) (f : SvcFind) (s : State) (x : SvcStep), InStep s x → f.ok = true → x.step = 4 →
      (f.test.fatal = false ∨ x.opt.getLsbD 0 = true → ∃ u, exec (.svcStepDone t f) s = .next u ∧ u.pending = s.pending ∧ SvcOver u.m 0
        ∧ (u.m.svcDie x.die).tested = true)
      ∧ (f.test.fatal = true → x.opt.getLsbD 0 = false → ∃ u, exec (.svcStepDone t f) s = .next u ∧ u.pending = s.pending ∧ SvcOver u.m 2))
  ∧ (∀ (t : Nat) (f : SvcFind) (s : State) (x : SvcStep), InStep s x → f.ok = true → x.step = 5 → x.die < 4 →
      ∃ u, exec (.svcStepDone t f) s = .next u ∧ u.pending = s.pending ∧ SvcOver u.m 0 ∧ (u.m.svcDie x.die).hbmUp = true
        ∧ ∀ i < 3, (u.m.hbmc (3 * x.die + i)).selfRefresh = false ∧ ((s.m.svcDie x.die).added = true → (u.m.hbmc (3 * x.die + i)).up = true))
  ∧ (∀ (t : Nat) (f : SvcFind) (s : State) (x : SvcStep), InStep s x → f.ok = true → x.step = 6 → x.die < 4 →
      ∃ u, exec (.svcStepDone t f) s = .next u ∧ u.pending = s.pending ∧ SvcOver u.m 0 ∧ u.m.boot.dist.running = false
        ∧ (u.m.svcDie x.die).loaded = (s.m.svcDie x.die).hbmUp ∧ (x.opt.getLsbD 1 = true → x.flock ∈ (u.m.svcDie x.die).flockLoaded))
  ∧ (∀ (t : Nat) (f : SvcFind) (s : State) (x : SvcStep), InStep s x → f.ok = true → x.step = 7 → x.die < 4 →
      (s.m.linesLeft x.die = true → Answers (.svcStepDone t f) s s.m)
      ∧ (s.m.linesLeft x.die = false → ∃ u, exec (.svcStepDone t f) s = .next u ∧ u.pending = s.pending ∧ SvcOver u.m 0
          ∧ (u.m.svcDie x.die).rejoined = true ∧ (u.m.die x.die).computeReset = false ∧ (u.m.die x.die).dead = false
          ∧ ∀ i < 16, (u.m.slice (16 * x.die + i)).homeReset = false))
  ∧ (∀ (t : Nat) (f : SvcFind) (s : State) (x : SvcStep), InStep s x → f.ok = true → x.step = 8 →
      ∃ u, exec (.svcStepDone t f) s = .next u ∧ u.pending = s.pending ∧ SvcOver u.m 0
        ∧ (x.opt.getLsbD 1 = true → x.flock ∉ (u.m.svcDie x.die).flockOn)
        ∧ (x.opt.getLsbD 1 = false → (u.m.svcDie x.die).flockOn = [] ∧ ((s.m.svcDie x.die).rejoined = true → (u.m.svcDie x.die).rejoined = false)))
  ∧ (∀ (t : Nat) (f : SvcFind) (s : State) (x : SvcStep), InStep s x → f.ok = true → x.step = 9 → x.die < 4 →
      (f.disc.trained = true → s.m.boot.minRev.toNat ≤ f.disc.revision.toNat → f.disc.features &&& s.m.boot.features = s.m.boot.features →
        s.m.boot.linkVersion.toNat ≤ f.disc.version.toNat →
        ∃ u, exec (.svcStepDone t f) s = .next u ∧ u.pending = s.pending ∧ SvcOver u.m 0 ∧ (u.m.svcDie x.die).added = true ∧ (u.m.die x.die).curOp = 0)
      ∧ (f.disc.trained = false → ∃ u, exec (.svcStepDone t f) s = .next u ∧ u.pending = s.pending ∧ SvcOver u.m 2
          ∧ ∀ k ∈ dieLinks x.die, (u.m.link k).held = true))
  ∧ (∀ (t : Nat) (f : SvcFind) (s : State) (x : SvcStep), InStep s x → f.ok = true → x.step = 10 →
      ∃ u, exec (.svcStepDone t f) s = .next u ∧ u.pending = s.pending ∧ SvcOver u.m 0 ∧ x.flock ∉ (u.m.svcDie x.die).flockOn)
  ∧ (∀ (t : Nat) (f : SvcFind) (s : State) (x : SvcStep), InStep s x → f.ok = true → x.step = 11 → x.die < 4 → x.flock < 26 →
      (s.m.domain x.die x.flock ≠ .on ∨ x.flock ∈ (s.m.die x.die).waking → Answers (.svcStepDone t f) s s.m)
      ∧ (s.m.domain x.die x.flock = .on → x.flock ∉ (s.m.die x.die).waking →
        (f.test.badFlocks.getLsbD x.flock = true → ∃ u, exec (.svcStepDone t f) s = .next u ∧ u.pending = s.pending ∧ SvcOver u.m 2)
        ∧ (f.test.badFlocks.getLsbD x.flock = false → (FMap.get ({} : DieFuse) s.m.fused.dies x.die).badFlocks.getLsbD x.flock = false →
          ∃ u, exec (.svcStepDone t f) s = .next u ∧ u.pending = s.pending ∧ SvcOver u.m 0 ∧ (u.m.die x.die).flockMap.getLsbD x.flock = true
            ∧ (FMap.get 0 u.m.boot.retained.flockSet x.die).getLsbD x.flock = true ∧ x.flock ∈ (u.m.svcDie x.die).flockOn)))

/-- R540, R541, R369, R543 (Table 17-6): every service step starts where its precondition holds and is refused elsewhere; lean state holds a step; a step
ends in failure with RESULT 2 and a report, or passes with what it leaves. Where the spec leaves the reading open, the clauses follow the model's
choices: log entries 1, 2, 3, 4, 5, 36, 37, 39, 107, 154, 155, 160, 161, 176, 177, 180. -/
def Obligations.ServiceSteps : Prop := Claims.ServiceStepsStart ∧ Claims.ServiceStepsEnd

/-- R535, R537, R539: an image update's rounds, at most three, and its end; and RESTORE, which skips a region whose destination is no longer
populated, and reads 1 until its writes have landed. Where the spec leaves the reading open, the clauses follow the model's choices: log entries 3,
158, 159, 162, 176, 177. -/
def Obligations.UpdatesAndRestore : Prop :=
  (∀ (a : BitVec 13) (s : State), RegOpen s.m (bootReg 0x28) → s.m.herd.bellwether = true → s.m.boot.ready = true → s.m.boot.sending = none →
      Takes (.fwSend a) s (bootReg 0x28)
        { s.m with boot := { s.m.boot with sending := some { running := true }, updDone := false, updFailed := false } })
  ∧ (∀ (a : BitVec 13) (s : State), RegOpen s.m (bootReg 0x28) → s.m.herd.bellwether = false ∨ s.m.boot.ready = false →
      Takes (.fwSend a) s (bootReg 0x28) (s.m.badWrite (bootReg 0x28)))
  ∧ (∀ (miss : List FwMiss) (s : State) (d : FwDist), s.m.boot.sending = some d → Runs (.fwRoundEnd miss) s fun m =>
      if d.rounds + 1 < 3 ∧ ∃ x ∈ miss, x.chunks ≠ [] then
        ∃ e, m.boot.sending = some e ∧ e.rounds = d.rounds + 1 ∧ m.boot.slots = s.m.boot.slots
      else m.boot.sending = none ∧ m.boot.updDone = true
        ∧ ((∃ x ∈ miss, x.chunks ≠ [] ∧ x.agent = s.m.herd.module.toNat) → m.boot.updFailed = true ∧ m.boot.slots = s.m.boot.slots))
  ∧ (∀ (miss : List FwMiss) (s : State), s.m.boot.sending = none → s.m.boot.dist.running = true → Runs (.fwRoundEnd miss) s fun m =>
      m.boot.dist.rounds = s.m.boot.dist.rounds + 1
        ∧ (m.boot.dist.running = true ↔ s.m.boot.dist.rounds + 1 < 3 ∧ ∃ x ∈ miss, x.chunks ≠ []))
  ∧ (∀ (s : State), RegOpen s.m (bootReg 0x1C) → s.m.boot.ready = false ∨ s.m.boot.restoring = true ∨ s.m.fused.zeroised = true ∨ s.m.invasive = true ∨ s.m.newestSeal = none →
      Takes .restore s (bootReg 0x1C) s.m)
  ∧ (∀ (s : State) (x : Seal), RegOpen s.m (bootReg 0x1C) → s.m.boot.ready = true → s.m.boot.restoring = false → s.m.fused.zeroised = false →
      s.m.invasive = false → s.m.newestSeal = some x → x.regions.take x.regionsDone = [] →
      Takes .restore s (bootReg 0x1C) { s.m with boot := { s.m.boot with restoring := true, restoreBad := 0, restoreSkip := 0 } })
  ∧ (∀ (s : State) (x : Seal) (r : SavedRegion) (j : Nat), RegOpen s.m (bootReg 0x1C) → s.m.boot.ready = true → s.m.boot.restoring = false →
      s.m.fused.zeroised = false → s.m.invasive = false → s.m.newestSeal = some x → x.regions.take x.regionsDone = [r] → s.m.boot.digestBad = 0 →
      j < Mach.descLines r.desc → s.m.restorable (Mach.descBase r.desc + 64 * j) = false →
      Takes .restore s (bootReg 0x1C)
        { s.m with boot := { s.m.boot with restoring := true, restoreBad := 0, restoreSkip := 1#32 <<< (r.index % 32) } })
  ∧ (∀ (s : State), Answers .restoreDone s { s.m with boot := { s.m.boot with restoring := false } })

namespace Sys2Proof.Claims

/-- A safety reset for the event that CAUSE of Table 18-8 numbers `c` (R552, R554): the third within ten minutes locks the module out. -/
def SafetyReset (m n : Mach) (c : BitVec 4) : Prop :=
  ResetLeaves m n ∧ n.boot.cause = 8 ∧ n.goose.cause = c ∧ n.boot.stopped = m.boot.stopped
    ∧ n.fld (gooseReg 0xC) 0 16 = min 0xFFFF (m.fld (gooseReg 0xC) 0 16 + 1)
    ∧ (n.goose.lockout = true ↔ m.goose.lockout = true ∨ 2 ≤ (m.goose.resets.filter fun x => decide (n.now ≤ x + 300000000000)).length)
    ∧ (n.goose.lockout = true → n.boot.inReset = true ∧ n.goose.alert = true)

/-- One of the Goose's conditions has cleared. -/
def holdGone (g : Goose) : GooseHold → Goose
  | .mclk => { g with heldMclk := false }
  | .ref => { g with heldRef := false }
  | .temp => { g with heldTemp := false }

end Sys2Proof.Claims

/-- R552 to R554, R566, R585 (Tables 18-3 and 18-8): the Goose's safety resets with what each holds; the firmware heartbeat, whose first missed window alerts
and whose second resets; and a glitch, which resets the module and advances the glitch fuse. Where the spec leaves the reading open, the clauses
follow the model's choices: log entries 3, 4, 5, 149, 169, 176, 177. -/
def Obligations.GooseEvents : Prop :=
  (∀ (t : Nat) (s : State), s.m.boot.powered = true → Runs (.mclkLoss t) s fun m => SafetyReset s.m m 1 ∧ m.goose.heldMclk = true ∧ m.boot.inReset = true)
  ∧ (∀ (t : Nat) (s : State), s.m.boot.powered = true → Runs (.kerlyRefLoss t) s fun m => SafetyReset s.m m 2 ∧ m.goose.heldRef = true ∧ m.boot.inReset = true)
  ∧ (∀ (t : Nat) (s : State), s.m.boot.powered = true → Runs (.cdieOverTemp t) s fun m => SafetyReset s.m m 5 ∧ m.goose.heldTemp = true ∧ m.boot.inReset = true)
  ∧ (∀ (t : Nat) (s : State), s.m.boot.powered = true → s.m.boot.inReset = false → Runs (.meterHeartbeatMiss t) s fun m => SafetyReset s.m m 3)
  ∧ (∀ (t : Nat) (s : State), s.m.boot.powered = false →
      Answers (.mclkLoss t) s (s.m.advance t) ∧ Answers (.kerlyRefLoss t) s (s.m.advance t) ∧ Answers (.cdieOverTemp t) s (s.m.advance t))
  ∧ (∀ (t : Nat) (s : State), s.m.boot.powered = true → s.m.boot.inReset = false → Runs (.regulatorFault t 0) s fun m => SafetyReset s.m m 4)
  ∧ (∀ (t : Nat) (c : GooseHold) (s : State), s.m.boot.inReset = true → s.m.boot.stopped = false → s.m.boot.cause = 8 →
      NothingHolds { s.m with goose := holdGone s.m.goose c } → Runs (.gooseRelease t c) s fun m =>
      m.goose.cause = s.m.goose.cause ∧ m.boot.cause = 8 ∧ Started s.m m)
  ∧ (∀ (t : Nat) (s : State), s.m.goose.armed = false ∨ t < s.m.goose.windowEnd → Answers (.heartbeatMiss t) s s.m)
  ∧ (∀ (t : Nat) (s : State), s.m.goose.armed = true → s.m.boot.inReset = false → s.m.goose.windowEnd ≤ t → s.m.goose.missed = 0 →
      Runs (.heartbeatMiss t) s fun m => m.goose.missed = 1 ∧ m.goose.alert = true ∧ m.goose.cause = 6 ∧ m.boot = s.m.boot ∧ m.hens = s.m.hens
        ∧ m.goose.windowEnd = s.m.goose.windowEnd + s.m.fld (gooseReg 4) 0 10 * 500000)
  ∧ (∀ (t : Nat) (s : State), s.m.boot.powered = true → s.m.goose.armed = true → s.m.boot.inReset = false → s.m.goose.windowEnd ≤ t → s.m.goose.missed ≠ 0 →
      Runs (.heartbeatMiss t) s fun m => SafetyReset s.m m 7)
  ∧ (∀ (t : Nat) (w : BitVec 32) (s : State), RegOpen s.m (gooseReg 0) → w.setWidth 8 = (if s.m.goose.expect5A then 0x5A#8 else 0xA5#8) →
      Runs (.goosePet t w) s fun m => m.goose.expect5A = !s.m.goose.expect5A ∧ m.goose.alert = (s.m.goose.alert && s.m.boot.stopped) ∧ m.goose.missed = 0
        ∧ m.goose.windowEnd = max s.m.now t + s.m.fld (gooseReg 4) 0 10 * 500000 ∧ m.boot = s.m.boot ∧ m.hens = s.m.hens)
  ∧ (∀ (t : Nat) (w : BitVec 32) (s : State), RegOpen s.m (gooseReg 0) → w.setWidth 8 ≠ (if s.m.goose.expect5A then 0x5A#8 else 0xA5#8) →
      Takes (.goosePet t w) s (gooseReg 0) ((s.m.advance t).count (gooseReg 0xC) true))
  ∧ (∀ (t : Nat) (s : State), s.m.boot.powered = true → s.m.blows = [] → ∃ u, exec (.glitch t) s = .next u ∧ u.pending = s.pending ∧ SafetyReset (s.m.askBlow .glitch) u.m 9
      ∧ u.m.sec.keysLoaded = false ∧ u.fuses.glitches = (if s.fuses.glitches < 4 then s.fuses.glitches + 1 else s.fuses.glitches)
      ∧ (s.fuses.glitches = 3 → u.fuses.zeroised = true) ∧ (s.fuses.glitches < 3 → u.fuses.zeroised = s.fuses.zeroised))
  ∧ (∀ (v : Bool) (s : State), RegOpen s.m (modReg 8) → Runs (.swAlert v) s fun m => m.fld (modReg 8) 0 1 = Bits.ofBool v)

/-- R519, R548 to R551 (Table 18-2): faults fatal to a die, the temperature limit, and what each kind of vote failure leaves. Where the spec leaves the
reading open, the clauses follow the model's choices: log entries 4, 5, 21, 39, 116, 149, 169, 170. -/
def Obligations.DieFaultsAndVotes : Prop :=
  (∀ (d : Fin 4) (s : State), s.m.dieOut d = false → s.m.boot.inReset = false → Runs (.dieFatalFault d) s fun m => (m.die d).dead = true)
  ∧ (∀ (d : Fin 4) (s : State), s.m.dieOut d = true → Answers (.dieFatalFault d) s s.m)
  ∧ (∀ (t : Nat) (d : Fin 4) (s : State), s.m.dieOut d = false → s.m.boot.inReset = false →
      Runs (.regulatorFault t d.succ) s fun m => (m.die d).dead = true ∧ m.boot.cause = s.m.boot.cause)
  ∧ (∀ (d : Fin 4) (temp : Nat) (s : State), s.m.dieOut d = false → s.m.boot.inReset = false →
      (115 < temp → Runs (.dieTempLimit d temp) s fun m => (m.die d).dead = true)
      ∧ (105 < temp → temp ≤ 115 → Runs (.dieTempLimit d temp) s fun m => (m.die d).hot = true ∧ (m.die d).dead = false
          ∧ ((s.m.die d).targetOp.toNat ≤ s.m.variantTop → (m.die d).targetOp.toNat = (s.m.die d).targetOp.toNat - 1))
      ∧ ((s.m.die d).hot = false → temp ≤ 105 → Runs (.dieTempLimit d temp) s fun m => m.die d = s.m.die d ∧ FMap.get 0 m.temps (d.val + 1) = temp)
      ∧ (temp < 100 → Runs (.dieTempLimit d temp) s fun m => m.die d = { s.m.die d with hot := false }))
  ∧ (∀ (c : List DevOff) (f : List VoteField) (s : State), s.m.boot.inReset = true → Answers (.voteSweep c f) s s.m)
  ∧ (∀ (off : DevOff) (s : State), s.m.boot.inReset = false → Answers (.voteSweep [off] []) s (s.m.count (Mach.blockBase off + 0xFF0C) true))
  ∧ (∀ (s : State), s.m.boot.inReset = false → Runs (.voteSweep [] [.caps]) s fun m => m.boot.fuseFault = true
      ∧ m.fld (pwrReg 0x10) 0 11 = 600 ∧ m.fld (pwrReg 0x10) 11 11 = 600 ∧ m.fld (telReg 0 8) 16 16 = min 0xFFFF (s.m.fld (telReg 0 8) 16 16 + 1))
  ∧ (∀ (s : State), s.m.boot.inReset = false → Runs (.voteSweep [] [.supply]) s fun m => m.fld (pwrReg 8) 0 8 = 96 ∧ m.fld (pwrReg 8) 8 8 = 112)
  ∧ (∀ (s : State), s.m.boot.inReset = false → Runs (.voteSweep [] [.budget]) s fun m => m.fld (tierReg 0x10) 0 16 = 39000)
  ∧ (∀ (s : State), s.m.boot.inReset = false → Runs (.voteSweep [] [.locks]) s fun m => m.sec.scopes = 0)
  ∧ (∀ (o : OxId) (s : State), s.m.boot.inReset = false → Runs (.voteSweep [] [.oxRepair o]) s fun m =>
      (m.ox o.agent).state = .failed ∧ (m.ox o.agent).queue = [] ∧ (m.ox o.agent).flight = [])
  ∧ (∀ (d : Fin 4) (s : State), s.m.boot.inReset = false → Runs (.voteSweep [] [.dieFuse d]) s fun m =>
      FMap.get false m.boot.dieFuseFault d = true ∧ m.boot.fuseFault = true)
  ∧ (∀ (d : Fin 4) (s : State), s.m.boot.inReset = false → s.m.dieOut d = false → Runs (.voteSweep [] [.mgmt d]) s fun m => (m.die d).dead = true)

/-- R557, R558, R560, R563, R565, R567: the security block's commands and a telemetry FIFO's DROP_PACKET. Where the spec leaves the reading open, the
clauses follow the model's choices: log entries 3, 164, 176, 177. -/
def Obligations.SecurityAndTelemetry : Prop :=
  (∀ (s : State), Answers .entropyFail s { s.m with sec := { s.m.sec with entropyFail := true } })
  ∧ (∀ (s : State), RegOpen s.m (secReg 4) → Takes .debugLock s (secReg 4) { s.m with sec := { s.m.sec with nextScopes := 0 } })
  ∧ (∀ (s : State), s.m.blows = [] → RegOpen s.m (secReg 4) → s.m.fused.rollback = s.fuses.rollback →
      ∃ u, exec .rollbackCommit s = .next u ∧ u.pending = s.pending ∧ u.m.regs = s.m.regs ∧ u.m.sec = s.m.sec
        ∧ (∀ x, s.m.boot.runA = some x → x.secVersion ≤ 63 →
            FMap.get 0 u.fuses.rollback 1 = max (FMap.get 0 s.fuses.rollback 1) x.secVersion)
        ∧ (∀ x, s.m.boot.runM = some x → x.secVersion ≤ 63 →
            FMap.get 0 u.fuses.rollback 2 = max (FMap.get 0 s.fuses.rollback 2) x.secVersion)
        ∧ (s.m.boot.runA = none → FMap.get 0 u.fuses.rollback 1 = FMap.get 0 s.fuses.rollback 1))
  ∧ (∀ (s : State) (n : BitVec 256), s.m.sec.quoteFor = some n → Runs .quoteDone s fun m =>
      m.sec.quoteFor = none ∧ m.sec.quoteReady = true ∧ m.sec.quoteTurn = false ∧ m.sec.mrs = s.m.sec.mrs ∧ m.sec.log = s.m.sec.log)
  ∧ (∀ (s : State), s.m.sec.quoteFor = none → Answers .quoteDone s s.m)
  ∧ (∀ (d : Fin 5) (s : State), RegOpen s.m (telReg d 0) → (s.m.tel d).wr = (s.m.tel d).rd → Takes (.dropPacket d) s (telReg d 0) s.m)
  ∧ (∀ (d : Fin 5) (s : State) (n : Nat), RegOpen s.m (telReg d 0) → 0 < n → n ≤ ((s.m.tel d).wr - (s.m.tel d).rd).toNat → n ≤ 512 →
      (∀ j, 0 < j → j < n → FMap.get false (s.m.tel d).starts (((s.m.tel d).rd.toNat + j) % 512) = false) →
      (n < ((s.m.tel d).wr - (s.m.tel d).rd).toNat → FMap.get false (s.m.tel d).starts (((s.m.tel d).rd.toNat + n) % 512) = true) →
      Takes (.dropPacket d) s (telReg d 0) (s.m.setTel d { s.m.tel d with rd := (s.m.tel d).rd + BitVec.ofNat 10 n }))

namespace Sys2Proof.Claims

/-- Block `b` has a mailbox that the agent may use: it exists, its registers are open, and no other agent holds it (R579). -/
def BoxOpen (m : Mach) (b : Nat) (o : Nat) : Prop := Mach.regExists (blkBase b + o) = true ∧ RegOpen m (blkBase b + o)

/-- The shadow word at `off` shows the counter value `v`, sampling it leaving `n` (R583). -/
def ShadowAt (m : Mach) (off v : Nat) (n : Mach) : Prop :=
  m.regReach off = true ∧ Mach.regExists off = true ∧ 0x8000 ≤ Mach.regOff off ∧ Mach.regOff off < 0xFF00
    ∧ m.shadowOf (blkKey off) (Mach.regOff off) = some (v, n)

end Sys2Proof.Claims

/-- R578 to R580: CLAIM and RELEASE, a transfer's start with what refuses it, and its end with VALID or ERR. -/
def Sys2Proof.Claims.Mailboxes : Prop :=
  (∀ (a : BitVec 13) (b : Fin 1280) (s : State), BoxOpen s.m b 0xFF08 → (s.m.mailbox b).held = false →
      Takes (.claim a b) s (blkBase b + 0xFF08) (s.m.setMailbox b { s.m.mailbox b with held := true, owner := a }))
  ∧ (∀ (a : BitVec 13) (b : Fin 1280) (s : State), BoxOpen s.m b 0xFF08 → (s.m.mailbox b).held = true →
      Takes (.claim a b) s (blkBase b + 0xFF08) s.m)
  ∧ (∀ (a : BitVec 13) (b : Fin 1280) (s : State), BoxOpen s.m b 0xFF08 →
      ((s.m.mailbox b).held = true ∧ (s.m.mailbox b).owner = a) ∨ isMgmtHen a.toNat = true →
      Takes (.mbxRelease a b) s (blkBase b + 0xFF08) (s.m.setMailbox b { s.m.mailbox b with held := false, owner := 0 }))
  ∧ (∀ (a : BitVec 13) (b : Fin 1280) (s : State), BoxOpen s.m b 0xFF08 → (s.m.mailbox b).held = false ∨ (s.m.mailbox b).owner ≠ a →
      isMgmtHen a.toNat = false → Takes (.mbxRelease a b) s (blkBase b + 0xFF08) (s.m.badWrite (blkBase b)))
  ∧ (∀ (a : BitVec 13) (b : Fin 1280) (w : BitVec 32) (s : State) (c : Instr), BoxOpen s.m b 0xFF00 → w.getLsbD 0 = true →
      c = (if w.getLsbD 1 then .mbxWrite a b w else .mbxRead a b w) →
      ((s.m.mailbox b).busy = true ∨ ((s.m.mailbox b).held = true ∧ (s.m.mailbox b).owner ≠ a) →
          Takes c s (blkBase b + 0xFF00) (s.m.badWrite (blkBase b)))
      ∧ ((s.m.mailbox b).busy = false → (s.m.mailbox b).held = false ∨ (s.m.mailbox b).owner = a →
          Takes c s (blkBase b + 0xFF00) (s.m.setMailbox b { s.m.mailbox b with
            dir := w.getLsbD 1, part := w.getLsbD 2, arg := (w >>> 24).setWidth 8, busy := true, valid := false, err := false, user := a })))
  ∧ (∀ (b : Fin 1280) (s : State), (s.m.mailbox b).busy = false → Answers (.mbxDone b) s s.m)
  ∧ (∀ (b : Fin 1280) (s : State), (s.m.mailbox b).busy = true → s.m.boot.inReset = false →
      Runs (.mbxDone b) s fun m => (m.mailbox b).busy = false ∧ (m.mailbox b).err = !(m.mailbox b).valid
        ∧ (mbxKind b (s.m.mailbox b).addr.toNat = none → (m.mailbox b).err = true))
  ∧ (∀ (s : State), (s.m.mailbox 0).busy = true → s.m.boot.inReset = false → (s.m.mailbox 0).dir = false → (s.m.mailbox 0).part = false →
      (s.m.mailbox 0).addr = 0x10 → Runs (.mbxDone 0) s fun m => (m.mailbox 0).valid = true ∧ (m.mailbox 0).data = s.m.fused.mac.setWidth 256)

/-- R569, R571 to R576, R583, R584: shadow reads and their latches, the W1C counters, and register writes: those not performed, those refused, and the fields
that a write sets. -/
def Sys2Proof.Claims.ShadowsAndRegisterWrites : Prop :=
  (∀ (a : BitVec 13) (off : DevOff) (s : State) (v : Nat) (n : Mach) (ls : List Latch), ShadowAt s.m off v n → off % 8 = 0 →
      ls = (FMap.get [] s.m.latches (blkKey off)).filter (fun y => y.agent ≠ a) →
      Answers (.shadowLowRead a off) s { n with
        latches := FMap.set [] s.m.latches (blkKey off)
          ((if ls.length < 4 then ls else ls.drop 1) ++ [{ agent := a, off := Mach.regOff off, hi := BitVec.ofNat 32 (v / 2 ^ 32) }]),
        out := n.out ++ [.regData a.toNat (BitVec.ofNat 32 v)] })
  ∧ (∀ (a : BitVec 13) (off : DevOff) (s : State) (v : Nat) (n : Mach) (x : Latch), ShadowAt s.m off v n → off % 8 = 4 →
      (FMap.get [] s.m.latches (blkKey off)).find? (fun y => y.agent = a ∧ y.off = Mach.regOff off - 4) = some x →
      Answers (.shadowHighRead a off) s { s.m with
        latches := FMap.set [] s.m.latches (blkKey off) ((FMap.get [] s.m.latches (blkKey off)).filter fun y => y ≠ x),
        out := s.m.out ++ [.regData a.toNat x.hi] })
  ∧ (∀ (a : BitVec 13) (off : DevOff) (s : State) (v : Nat) (n : Mach), ShadowAt s.m off v n → off % 8 = 4 →
      (∀ y ∈ FMap.get [] s.m.latches (blkKey off), y.agent = a → y.off ≠ Mach.regOff off - 4) →
      Runs (.shadowHighRead a off) s fun m => m.out = s.m.out ++ [.regData a.toNat (BitVec.ofNat 32 (v / 2 ^ 32))]
        ∧ m.fld (blkBase (blkKey off) + 0xFF30) 16 16 = min 0xFFFF (s.m.fld (blkBase (blkKey off) + 0xFF30) 16 16 + 1))
  ∧ (∀ (a : BitVec 13) (off : DevOff) (w : BitVec 32) (s : State), s.m.regReach off = true → Mach.regExists off = true → off % 4 = 0 →
      counterReg off = true → Runs (.counterClear a off w) s fun m => m.hens = s.m.hens
        ∧ (w.toNat % 2 ^ 16 ≠ 0 → m.fld off 0 16 = 0) ∧ (w.toNat % 2 ^ 16 = 0 → m.fld off 0 16 = s.m.fld off 0 16)
        ∧ (w.toNat / 2 ^ 16 ≠ 0 → m.fld off 16 16 = 0) ∧ (w.toNat / 2 ^ 16 = 0 → m.fld off 16 16 = s.m.fld off 16 16))
  ∧ (∀ (a : BitVec 13) (off : DevOff) (w : BitVec 32) (s : State), s.m.regReach off = false → Answers (.regWrite a off w) s s.m)
  ∧ (∀ (a : BitVec 13) (off : DevOff) (w : BitVec 32) (s : State), s.m.regReach off = true → Mach.regExists off = true → off % 4 = 0 →
      s.m.regDomainIs off .on = false → counterReg off = false → Answers (.regWrite a off w) s (s.m.badWrite off))
  ∧ (∀ (a : BitVec 13) (w : BitVec 32) (s : State), s.m.boot.inReset = false → Runs (.regWrite a (gooseReg 4) w) s fun m =>
      if 10 ≤ w.toNat % 2 ^ 10 ∧ w.toNat % 2 ^ 10 ≤ 1000 then m.fld (gooseReg 4) 0 10 = w.toNat % 2 ^ 10 ∧ m.goose = s.m.goose
      else m.reg (gooseReg 4) = s.m.reg (gooseReg 4) ∧ m.fld (gooseReg 0xFF0C) 0 16 = min 0xFFFF (s.m.fld (gooseReg 0xFF0C) 0 16 + 1))
  ∧ (∀ (a : BitVec 13) (w : BitVec 32) (s : State), s.m.boot.inReset = false → Runs (.regWrite a (pwrReg 0x10) w) s fun m =>
      m.fld (pwrReg 0x10) 11 11 = s.m.fld (pwrReg 0x10) 11 11
        ∧ m.fld (pwrReg 0x10) 0 11 = (if w.toNat % 2 ^ 11 ≤ s.m.fld (pwrReg 0x10) 11 11 then w.toNat % 2 ^ 11 else s.m.fld (pwrReg 0x10) 0 11))

/-- R569, R571 to R576, R578 to R580, R583, R584: CLAIM and RELEASE, a transfer's start with what refuses it, and its end with VALID or ERR; shadow reads and
their latches, the W1C counters, and register writes: those not performed, those refused, and the fields that a write sets. Where the spec leaves the
reading open, the clauses follow the model's choices: log entries 3, 22, 171, 173, 175, 176, 177, 211. -/
def Obligations.RegisterAccess : Prop := Claims.Mailboxes ∧ Claims.ShadowsAndRegisterWrites

/-- A step takes the command at the front of the queue and runs it with the queue's rest; with the queue empty the module idles (the model's own choices,
log entries 1 and 2). -/
def Obligations.StepRunsTheFrontCommand : Prop :=
  (∀ (c : Instr) (q : List Instr) (s : State), s.pending = c :: q → step s = exec c { s with pending := q })
  ∧ (∀ (s : State), s.pending = [] → step s = .next s)

/-- Every command answers a next state, in which the queue stands as it was and no fuse write is left over. -/
def Obligations.EveryCommandAnswers : Prop :=
  ∀ (c : Instr) (s : State), ∃ t, exec c s = .next t ∧ t.pending = s.pending ∧ t.m.blows = []

/-- The state after the first power-on (R516, R599): the queue and memory are empty, the invariant holds, every
scheduler entry is invalid, and the registers named hold the values their tables give. -/
def Obligations.ResetState : Prop :=
  State.reset.pending = [] ∧ State.reset.Inv ∧ State.reset.m.memOk ∧ (∀ k e, Sched.valid (State.reset.m.schedEntry k e) = false)
  ∧ State.reset.m.boot.cause = 1 ∧ State.reset.m.boot.stage = 0 ∧ State.reset.m.boot.ready = false ∧ State.reset.m.boot.warm = false
  ∧ State.reset.m.fld (pwrReg 8) 0 8 = 96 ∧ State.reset.m.fld (pwrReg 8) 8 8 = 112 ∧ State.reset.m.fld (gooseReg 4) 0 10 = 100
  ∧ State.reset.m.fld (tierReg 0x10) 0 16 = 39000 ∧ State.reset.m.fld (pwrReg 0x10) 0 11 = 1100
  ∧ (∀ a r, State.reset.m.g a r = 0) ∧ (∀ a, (State.reset.m.hen a).priv = true ∧ (State.reset.m.hen a).excEn = false)

/-- Every step keeps the fuse bank legal: anti-rollback counters within their 64 steps (R560), at most four glitch fuses, of which the fourth zeroises
(R566); and no command leaves a fuse write behind. -/
def Obligations.StepKeepsTheInvariant : Prop := ∀ (s t : State), s.Inv → step s = .next t → t.Inv

/-- Fuses only advance (R560, R561, R562, R566): over every step, and so over every run, an anti-rollback counter or the count of glitch fuses never falls, and
a revocation, an activation, zeroisation and the identity key, once fused, stay. -/
def Obligations.FusesOnlyAdvance : Prop := ∀ (s t : State), step s = .next t → Fuses.le s.fuses t.fuses

/-- What a Hen's fetch and issue leave alone (R181, R243): every Hen's registers, PC and exception state, its own among them; the Oxen and Mules; every byte of
flock memory; the fuses in force. With the exact results stated for each instruction, this is the frame of the Hen's instructions. How a Hen's turn comes is
the model's choice: log entries 23, 58. -/
def Obligations.HenIssueFrame : Prop :=
  ∀ (m n : Mach) (a : Nat) (w : BitVec 32), HenTurn m a w n →
    (∀ b, (n.hen b).g = (m.hen b).g ∧ (n.hen b).v = (m.hen b).v ∧ (n.hen b).p = (m.hen b).p ∧ (n.hen b).pc = (m.hen b).pc
      ∧ (n.hen b).priv = (m.hen b).priv ∧ (n.hen b).excEn = (m.hen b).excEn ∧ (n.hen b).ie = (m.hen b).ie ∧ (n.hen b).epc = (m.hen b).epc
      ∧ (n.hen b).ecause = (m.hen b).ecause ∧ (n.hen b).etval = (m.hen b).etval ∧ (n.hen b).vbase = (m.hen b).vbase)
    ∧ n.oxen = m.oxen ∧ n.mules = m.mules ∧ n.fused = m.fused ∧ ∀ x, Memory.read n.fm x = Memory.read m.fm x
end

