-- ==== Sys2Proof/Laws/FMap.lean ====
section
/-!
SUPPORT. The laws of sparse maps and of byte memory: a read after a write of the same key gives the value written, a write leaves every
other key alone, and every operation keeps the canonical form.
-/
namespace Sys2Proof

variable {α : Type}

@[simp] theorem FMap.get_nil (d : α) (k : Nat) : FMap.get d [] k = d := rfl

theorem FMap.get_cons (d : α) (j : Nat) (v : α) (t : FMap α) (k : Nat) :
    FMap.get d ((j, v) :: t) k = if j = k then v else FMap.get d t k := rfl

/-- A removed key reads as the default. -/
theorem FMap.get_del_same (d : α) (m : FMap α) (k : Nat) : FMap.get d (FMap.del m k) k = d := by
  induction m with
  | nil => rfl
  | cons p t ih =>
    obtain ⟨j, v⟩ := p
    by_cases h : j = k
    · simpa [FMap.del, h] using ih
    · simpa [FMap.del, FMap.get, h] using ih

/-- Removing a key leaves the other keys alone. -/
theorem FMap.get_del_ne (d : α) (m : FMap α) {k l : Nat} (h : l ≠ k) : FMap.get d (FMap.del m k) l = FMap.get d m l := by
  induction m with
  | nil => rfl
  | cons p t ih =>
    obtain ⟨j, v⟩ := p
    by_cases hj : j = k
    · have : k ≠ l := fun e => h e.symm
      simpa [FMap.del, FMap.get, hj, this] using ih
    · by_cases hl : j = l
      · simp [FMap.del, FMap.get, hl, h]
      · simpa [FMap.del, FMap.get, hj, hl] using ih

/-- A listed key reads as its value. -/
theorem FMap.get_put_same (d : α) (m : FMap α) (k : Nat) (v : α) : FMap.get d (FMap.put m k v) k = v := by
  induction m with
  | nil => simp [FMap.put, FMap.get]
  | cons p t ih =>
    obtain ⟨j, w⟩ := p
    by_cases h1 : k < j
    · simp [FMap.put, FMap.get, h1]
    · by_cases h2 : k = j
      · simp [FMap.put, FMap.get, h2]
      · have : j ≠ k := fun e => h2 e.symm
        simpa [FMap.put, FMap.get, h1, h2, this] using ih

/-- Listing a key leaves the other keys alone. -/
theorem FMap.get_put_ne (d : α) (m : FMap α) {k l : Nat} (v : α) (h : l ≠ k) : FMap.get d (FMap.put m k v) l = FMap.get d m l := by
  have hk : k ≠ l := fun e => h e.symm
  induction m with
  | nil => simp [FMap.put, FMap.get, hk]
  | cons p t ih =>
    obtain ⟨j, w⟩ := p
    by_cases h1 : k < j
    · simp [FMap.put, FMap.get, h1, hk]
    · by_cases h2 : k = j
      · subst h2
        simp [FMap.put, FMap.get, hk]
      · by_cases h3 : j = l
        · subst h3
          simp [FMap.put, FMap.get, h1, h2]
        · simpa [FMap.put, FMap.get, h1, h2, h3] using ih

section
variable [DecidableEq α]

/-- A read after a write of the same key gives the value written. -/
@[simp] theorem FMap.get_set_same (d : α) (m : FMap α) (k : Nat) (v : α) : FMap.get d (FMap.set d m k v) k = v := by
  unfold FMap.set
  split
  · rename_i h; rw [h]; exact FMap.get_del_same d m k
  · exact FMap.get_put_same d m k v

/-- A write leaves every other key alone. -/
theorem FMap.get_set_ne (d e : α) (m : FMap α) {k l : Nat} (v : α) (h : l ≠ k) : FMap.get e (FMap.set d m k v) l = FMap.get e m l := by
  unfold FMap.set
  split
  · exact FMap.get_del_ne e m h
  · exact FMap.get_put_ne e m v h

theorem FMap.get_set (d : α) (m : FMap α) (k l : Nat) (v : α) : FMap.get d (FMap.set d m k v) l = if l = k then v else FMap.get d m l := by
  by_cases h : l = k
  · subst h; simp
  · simp [h, FMap.get_set_ne d d m v h]

/-! ### The canonical form -/

theorem FMap.rising_mono {m : FMap α} {a b : Nat} (h : FMap.rising b m = true) (hab : a ≤ b) : FMap.rising a m = true := by
  cases m with
  | nil => rfl
  | cons p t =>
    obtain ⟨j, v⟩ := p
    simp only [FMap.rising, Bool.and_eq_true, decide_eq_true_eq] at h ⊢
    exact ⟨by omega, h.2⟩

theorem FMap.rising_del {m : FMap α} {lo : Nat} (k : Nat) (h : FMap.rising lo m = true) : FMap.rising lo (FMap.del m k) = true := by
  induction m generalizing lo with
  | nil => rfl
  | cons p t ih =>
    obtain ⟨j, v⟩ := p
    simp only [FMap.rising, Bool.and_eq_true, decide_eq_true_eq] at h
    by_cases hj : j = k
    · simp only [FMap.del, hj, if_true]
      exact FMap.rising_mono (ih h.2) (by omega)
    · simp only [FMap.del, hj, if_false, FMap.rising, Bool.and_eq_true, decide_eq_true_eq]
      exact ⟨h.1, ih h.2⟩

theorem FMap.rising_put {m : FMap α} {lo : Nat} (k : Nat) (v : α) (hk : lo ≤ k) (h : FMap.rising lo m = true) :
    FMap.rising lo (FMap.put m k v) = true := by
  induction m generalizing lo with
  | nil => simp [FMap.put, FMap.rising, hk]
  | cons p t ih =>
    obtain ⟨j, w⟩ := p
    simp only [FMap.rising, Bool.and_eq_true, decide_eq_true_eq] at h
    by_cases h1 : k < j
    · simp only [FMap.put, h1, if_true, FMap.rising, Bool.and_eq_true, decide_eq_true_eq]
      exact ⟨hk, by omega, h.2⟩
    · by_cases h2 : k = j
      · subst h2
        simp only [FMap.put, Nat.lt_irrefl, if_false, if_true, FMap.rising, Bool.and_eq_true, decide_eq_true_eq]
        exact ⟨hk, h.2⟩
      · simp only [FMap.put, h1, h2, if_false, FMap.rising, Bool.and_eq_true, decide_eq_true_eq]
        exact ⟨h.1, ih (by omega) h.2⟩

theorem FMap.all_del {m : FMap α} (p : Nat × α → Bool) (k : Nat) (h : m.all p = true) : (FMap.del m k).all p = true := by
  induction m with
  | nil => rfl
  | cons q t ih =>
    obtain ⟨j, v⟩ := q
    simp only [List.all_cons, Bool.and_eq_true] at h
    by_cases hj : j = k
    · simpa [FMap.del, hj] using ih h.2
    · simp only [FMap.del, hj, if_false, List.all_cons, Bool.and_eq_true]
      exact ⟨h.1, ih h.2⟩

theorem FMap.all_put {m : FMap α} (p : Nat × α → Bool) (k : Nat) (v : α) (hv : p (k, v) = true) (h : m.all p = true) :
    (FMap.put m k v).all p = true := by
  induction m with
  | nil => simp [FMap.put, hv]
  | cons q t ih =>
    obtain ⟨j, w⟩ := q
    have h' := h
    simp only [List.all_cons, Bool.and_eq_true] at h
    by_cases h1 : k < j
    · simp [FMap.put, h1, hv, h.1]
      simpa using h.2
    · by_cases h2 : k = j
      · simp only [FMap.put, h1, h2, Nat.lt_irrefl, if_false, if_true, List.all_cons, Bool.and_eq_true]
        subst h2
        exact ⟨hv, h.2⟩
      · simp only [FMap.put, h1, h2, if_false, List.all_cons, Bool.and_eq_true]
        exact ⟨h.1, ih h.2⟩

/-- A write keeps the canonical form. -/
theorem FMap.wf_set {d : α} {m : FMap α} (k : Nat) (v : α) (h : FMap.wf d m = true) : FMap.wf d (FMap.set d m k v) = true := by
  simp only [FMap.wf, Bool.and_eq_true] at h ⊢
  unfold FMap.set
  split
  · exact ⟨FMap.rising_del k h.1, FMap.all_del _ k h.2⟩
  · rename_i hv
    exact ⟨FMap.rising_put k v (Nat.zero_le k) h.1, FMap.all_put _ k v (by simp [hv]) h.2⟩

end

/-! ### Byte memory -/

@[simp] theorem Memory.read_write_same (m : Memory) (a : Nat) (b : Byte) : Memory.read (Memory.write m a b) a = b := FMap.get_set_same _ _ _ _

theorem Memory.read_write_ne (m : Memory) {a c : Nat} (b : Byte) (h : c ≠ a) : Memory.read (Memory.write m a b) c = Memory.read m c :=
  FMap.get_set_ne _ _ _ _ h

theorem Memory.wf_write {m : Memory} (a : Nat) (b : Byte) (h : Memory.wf m = true) : Memory.wf (Memory.write m a b) = true := FMap.wf_set a b h

/-- A list of bytes keeps the canonical form. -/
theorem Memory.wf_writeBytes {m : Memory} (a : Nat) (bs : List Byte) (h : Memory.wf m = true) : Memory.wf (Memory.writeBytes m a bs) = true := by
  induction bs generalizing m a with
  | nil => exact h
  | cons b t ih => exact ih (a + 1) (Memory.wf_write a b h)

/-- Bytes outside those written stand. -/
theorem Memory.read_writeBytes_out (m : Memory) (a c : Nat) (bs : List Byte) (h : c < a ∨ a + bs.length ≤ c) :
    Memory.read (Memory.writeBytes m a bs) c = Memory.read m c := by
  induction bs generalizing m a with
  | nil => rfl
  | cons b t ih =>
    simp only [List.length_cons] at h
    rw [Memory.writeBytes, ih _ _ (by omega), Memory.read_write_ne m b (by omega)]

/-- A byte of those written reads back. -/
theorem Memory.read_writeBytes_in (m : Memory) (a : Nat) (bs : List Byte) (i : Nat) (h : i < bs.length) :
    Memory.read (Memory.writeBytes m a bs) (a + i) = bs[i] := by
  induction bs generalizing m a i with
  | nil => exact absurd h (Nat.not_lt_zero _)
  | cons b t ih =>
    cases i with
    | zero =>
      rw [Memory.writeBytes, Memory.read_writeBytes_out _ _ _ _ (by omega)]
      exact Memory.read_write_same m a b
    | succ i =>
      have := ih (Memory.write m a b) (a + 1) i (by simpa using h)
      rw [Memory.writeBytes, show a + (i + 1) = a + 1 + i by omega, this]
      rfl

end Sys2Proof
end

