-- ==== Sys2Proof/Laws/State.lean ====
section
/-!
SUPPORT. The updates of the module's state: what each leaves in each field (by rfl), what a unit reads as after it, and that it leaves every
other unit alone.
-/
namespace Sys2Proof
namespace Machine
namespace Mach

variable (m : Mach)

/-! ### setDie -/

@[simp] theorem setDie_now (k : Nat) (x : Die) : (m.setDie k x).now = m.now := rfl
@[simp] theorem setDie_out (k : Nat) (x : Die) : (m.setDie k x).out = m.out := rfl
@[simp] theorem setDie_regs (k : Nat) (x : Die) : (m.setDie k x).regs = m.regs := rfl
@[simp] theorem setDie_beat (k : Nat) (x : Die) : (m.setDie k x).beat = m.beat := rfl
@[simp] theorem setDie_site (k : Nat) (x : Die) : (m.setDie k x).site = m.site := rfl
@[simp] theorem setDie_gov (k : Nat) (x : Die) : (m.setDie k x).gov = m.gov := rfl
@[simp] theorem setDie_lean (k : Nat) (x : Die) : (m.setDie k x).lean = m.lean := rfl
@[simp] theorem setDie_save (k : Nat) (x : Die) : (m.setDie k x).save = m.save := rfl
@[simp] theorem setDie_sched (k : Nat) (x : Die) : (m.setDie k x).sched = m.sched := rfl
@[simp] theorem setDie_oxen (k : Nat) (x : Die) : (m.setDie k x).oxen = m.oxen := rfl
@[simp] theorem setDie_hens (k : Nat) (x : Die) : (m.setDie k x).hens = m.hens := rfl
@[simp] theorem setDie_collies (k : Nat) (x : Die) : (m.setDie k x).collies = m.collies := rfl
@[simp] theorem setDie_syncs (k : Nat) (x : Die) : (m.setDie k x).syncs = m.syncs := rfl
@[simp] theorem setDie_mules (k : Nat) (x : Die) : (m.setDie k x).mules = m.mules := rfl
@[simp] theorem setDie_fm (k : Nat) (x : Die) : (m.setDie k x).fm = m.fm := rfl
@[simp] theorem setDie_fmPoison (k : Nat) (x : Die) : (m.setDie k x).fmPoison = m.fmPoison := rfl
@[simp] theorem setDie_fmUpset (k : Nat) (x : Die) : (m.setDie k x).fmUpset = m.fmUpset := rfl
@[simp] theorem setDie_hbm (k : Nat) (x : Die) : (m.setDie k x).hbm = m.hbm := rfl
@[simp] theorem setDie_hbmPoison (k : Nat) (x : Die) : (m.setDie k x).hbmPoison = m.hbmPoison := rfl
@[simp] theorem setDie_hbms (k : Nat) (x : Die) : (m.setDie k x).hbms = m.hbms := rfl
@[simp] theorem setDie_coh (k : Nat) (x : Die) : (m.setDie k x).coh = m.coh := rfl
@[simp] theorem setDie_tier (k : Nat) (x : Die) : (m.setDie k x).tier = m.tier := rfl
@[simp] theorem setDie_links (k : Nat) (x : Die) : (m.setDie k x).links = m.links := rfl
@[simp] theorem setDie_herd (k : Nat) (x : Die) : (m.setDie k x).herd = m.herd := rfl
@[simp] theorem setDie_host (k : Nat) (x : Die) : (m.setDie k x).host = m.host := rfl
@[simp] theorem setDie_acores (k : Nat) (x : Die) : (m.setDie k x).acores = m.acores := rfl
@[simp] theorem setDie_boot (k : Nat) (x : Die) : (m.setDie k x).boot = m.boot := rfl
@[simp] theorem setDie_goose (k : Nat) (x : Die) : (m.setDie k x).goose = m.goose := rfl
@[simp] theorem setDie_sec (k : Nat) (x : Die) : (m.setDie k x).sec = m.sec := rfl
@[simp] theorem setDie_tels (k : Nat) (x : Die) : (m.setDie k x).tels = m.tels := rfl
@[simp] theorem setDie_mbx (k : Nat) (x : Die) : (m.setDie k x).mbx = m.mbx := rfl
@[simp] theorem setDie_latches (k : Nat) (x : Die) : (m.setDie k x).latches = m.latches := rfl
@[simp] theorem setDie_fused (k : Nat) (x : Die) : (m.setDie k x).fused = m.fused := rfl
@[simp] theorem setDie_temps (k : Nat) (x : Die) : (m.setDie k x).temps = m.temps := rfl
@[simp] theorem setDie_blows (k : Nat) (x : Die) : (m.setDie k x).blows = m.blows := rfl
@[simp] theorem setDie_free (k : Nat) (x : Die) : (m.setDie k x).free = m.free := rfl
@[simp] theorem die_setDie (k : Nat) (x : Die) : (m.setDie k x).die k = x := FMap.get_set_same _ _ _ _
theorem die_setDie_ne (k l : Nat) (x : Die) (h : l ≠ k) : (m.setDie k x).die l = m.die l := by
  unfold die setDie; exact FMap.get_set_ne _ _ _ _ h
@[simp] theorem ox_setDie (k l : Nat) (x : Die) : (m.setDie k x).ox l = m.ox l := rfl
@[simp] theorem hen_setDie (k l : Nat) (x : Die) : (m.setDie k x).hen l = m.hen l := rfl
@[simp] theorem collie_setDie (k l : Nat) (x : Die) : (m.setDie k x).collie l = m.collie l := rfl
@[simp] theorem sync_setDie (k l : Nat) (x : Die) : (m.setDie k x).sync l = m.sync l := rfl
@[simp] theorem mule_setDie (k l : Nat) (x : Die) : (m.setDie k x).mule l = m.mule l := rfl
@[simp] theorem hbmc_setDie (k l : Nat) (x : Die) : (m.setDie k x).hbmc l = m.hbmc l := rfl
@[simp] theorem slice_setDie (k l : Nat) (x : Die) : (m.setDie k x).slice l = m.slice l := rfl
@[simp] theorem link_setDie (k l : Nat) (x : Die) : (m.setDie k x).link l = m.link l := rfl
@[simp] theorem ring_setDie (k l : Nat) (x : Die) : (m.setDie k x).ring l = m.ring l := rfl
@[simp] theorem core_setDie (k l : Nat) (x : Die) : (m.setDie k x).core l = m.core l := rfl
@[simp] theorem tel_setDie (k l : Nat) (x : Die) : (m.setDie k x).tel l = m.tel l := rfl
@[simp] theorem mailbox_setDie (k l : Nat) (x : Die) : (m.setDie k x).mailbox l = m.mailbox l := rfl
@[simp] theorem pageOf_setDie (k l : Nat) (x : Die) : (m.setDie k x).pageOf l = m.pageOf l := rfl
@[simp] theorem reg_setDie (k l : Nat) (x : Die) : (m.setDie k x).reg l = m.reg l := rfl
theorem modDie_eq (k : Nat) (f : Die → Die) : m.modDie k f = m.setDie k (f (m.die k)) := rfl

/-! ### setOx -/

@[simp] theorem setOx_now (k : Nat) (x : Ox) : (m.setOx k x).now = m.now := rfl
@[simp] theorem setOx_out (k : Nat) (x : Ox) : (m.setOx k x).out = m.out := rfl
@[simp] theorem setOx_regs (k : Nat) (x : Ox) : (m.setOx k x).regs = m.regs := rfl
@[simp] theorem setOx_beat (k : Nat) (x : Ox) : (m.setOx k x).beat = m.beat := rfl
@[simp] theorem setOx_site (k : Nat) (x : Ox) : (m.setOx k x).site = m.site := rfl
@[simp] theorem setOx_gov (k : Nat) (x : Ox) : (m.setOx k x).gov = m.gov := rfl
@[simp] theorem setOx_lean (k : Nat) (x : Ox) : (m.setOx k x).lean = m.lean := rfl
@[simp] theorem setOx_save (k : Nat) (x : Ox) : (m.setOx k x).save = m.save := rfl
@[simp] theorem setOx_sched (k : Nat) (x : Ox) : (m.setOx k x).sched = m.sched := rfl
@[simp] theorem setOx_dies (k : Nat) (x : Ox) : (m.setOx k x).dies = m.dies := rfl
@[simp] theorem setOx_hens (k : Nat) (x : Ox) : (m.setOx k x).hens = m.hens := rfl
@[simp] theorem setOx_collies (k : Nat) (x : Ox) : (m.setOx k x).collies = m.collies := rfl
@[simp] theorem setOx_syncs (k : Nat) (x : Ox) : (m.setOx k x).syncs = m.syncs := rfl
@[simp] theorem setOx_mules (k : Nat) (x : Ox) : (m.setOx k x).mules = m.mules := rfl
@[simp] theorem setOx_fm (k : Nat) (x : Ox) : (m.setOx k x).fm = m.fm := rfl
@[simp] theorem setOx_fmPoison (k : Nat) (x : Ox) : (m.setOx k x).fmPoison = m.fmPoison := rfl
@[simp] theorem setOx_fmUpset (k : Nat) (x : Ox) : (m.setOx k x).fmUpset = m.fmUpset := rfl
@[simp] theorem setOx_hbm (k : Nat) (x : Ox) : (m.setOx k x).hbm = m.hbm := rfl
@[simp] theorem setOx_hbmPoison (k : Nat) (x : Ox) : (m.setOx k x).hbmPoison = m.hbmPoison := rfl
@[simp] theorem setOx_hbms (k : Nat) (x : Ox) : (m.setOx k x).hbms = m.hbms := rfl
@[simp] theorem setOx_coh (k : Nat) (x : Ox) : (m.setOx k x).coh = m.coh := rfl
@[simp] theorem setOx_tier (k : Nat) (x : Ox) : (m.setOx k x).tier = m.tier := rfl
@[simp] theorem setOx_links (k : Nat) (x : Ox) : (m.setOx k x).links = m.links := rfl
@[simp] theorem setOx_herd (k : Nat) (x : Ox) : (m.setOx k x).herd = m.herd := rfl
@[simp] theorem setOx_host (k : Nat) (x : Ox) : (m.setOx k x).host = m.host := rfl
@[simp] theorem setOx_acores (k : Nat) (x : Ox) : (m.setOx k x).acores = m.acores := rfl
@[simp] theorem setOx_boot (k : Nat) (x : Ox) : (m.setOx k x).boot = m.boot := rfl
@[simp] theorem setOx_goose (k : Nat) (x : Ox) : (m.setOx k x).goose = m.goose := rfl
@[simp] theorem setOx_sec (k : Nat) (x : Ox) : (m.setOx k x).sec = m.sec := rfl
@[simp] theorem setOx_tels (k : Nat) (x : Ox) : (m.setOx k x).tels = m.tels := rfl
@[simp] theorem setOx_mbx (k : Nat) (x : Ox) : (m.setOx k x).mbx = m.mbx := rfl
@[simp] theorem setOx_latches (k : Nat) (x : Ox) : (m.setOx k x).latches = m.latches := rfl
@[simp] theorem setOx_fused (k : Nat) (x : Ox) : (m.setOx k x).fused = m.fused := rfl
@[simp] theorem setOx_temps (k : Nat) (x : Ox) : (m.setOx k x).temps = m.temps := rfl
@[simp] theorem setOx_blows (k : Nat) (x : Ox) : (m.setOx k x).blows = m.blows := rfl
@[simp] theorem setOx_free (k : Nat) (x : Ox) : (m.setOx k x).free = m.free := rfl
@[simp] theorem ox_setOx (k : Nat) (x : Ox) : (m.setOx k x).ox k = x := FMap.get_set_same _ _ _ _
theorem ox_setOx_ne (k l : Nat) (x : Ox) (h : l ≠ k) : (m.setOx k x).ox l = m.ox l := by
  unfold ox setOx; exact FMap.get_set_ne _ _ _ _ h
@[simp] theorem die_setOx (k l : Nat) (x : Ox) : (m.setOx k x).die l = m.die l := rfl
@[simp] theorem hen_setOx (k l : Nat) (x : Ox) : (m.setOx k x).hen l = m.hen l := rfl
@[simp] theorem collie_setOx (k l : Nat) (x : Ox) : (m.setOx k x).collie l = m.collie l := rfl
@[simp] theorem sync_setOx (k l : Nat) (x : Ox) : (m.setOx k x).sync l = m.sync l := rfl
@[simp] theorem mule_setOx (k l : Nat) (x : Ox) : (m.setOx k x).mule l = m.mule l := rfl
@[simp] theorem hbmc_setOx (k l : Nat) (x : Ox) : (m.setOx k x).hbmc l = m.hbmc l := rfl
@[simp] theorem slice_setOx (k l : Nat) (x : Ox) : (m.setOx k x).slice l = m.slice l := rfl
@[simp] theorem link_setOx (k l : Nat) (x : Ox) : (m.setOx k x).link l = m.link l := rfl
@[simp] theorem ring_setOx (k l : Nat) (x : Ox) : (m.setOx k x).ring l = m.ring l := rfl
@[simp] theorem core_setOx (k l : Nat) (x : Ox) : (m.setOx k x).core l = m.core l := rfl
@[simp] theorem tel_setOx (k l : Nat) (x : Ox) : (m.setOx k x).tel l = m.tel l := rfl
@[simp] theorem mailbox_setOx (k l : Nat) (x : Ox) : (m.setOx k x).mailbox l = m.mailbox l := rfl
@[simp] theorem pageOf_setOx (k l : Nat) (x : Ox) : (m.setOx k x).pageOf l = m.pageOf l := rfl
@[simp] theorem reg_setOx (k l : Nat) (x : Ox) : (m.setOx k x).reg l = m.reg l := rfl
theorem modOx_eq (k : Nat) (f : Ox → Ox) : m.modOx k f = m.setOx k (f (m.ox k)) := rfl

/-! ### setHen -/

@[simp] theorem setHen_now (k : Nat) (x : Hen) : (m.setHen k x).now = m.now := rfl
@[simp] theorem setHen_out (k : Nat) (x : Hen) : (m.setHen k x).out = m.out := rfl
@[simp] theorem setHen_regs (k : Nat) (x : Hen) : (m.setHen k x).regs = m.regs := rfl
@[simp] theorem setHen_beat (k : Nat) (x : Hen) : (m.setHen k x).beat = m.beat := rfl
@[simp] theorem setHen_site (k : Nat) (x : Hen) : (m.setHen k x).site = m.site := rfl
@[simp] theorem setHen_gov (k : Nat) (x : Hen) : (m.setHen k x).gov = m.gov := rfl
@[simp] theorem setHen_lean (k : Nat) (x : Hen) : (m.setHen k x).lean = m.lean := rfl
@[simp] theorem setHen_save (k : Nat) (x : Hen) : (m.setHen k x).save = m.save := rfl
@[simp] theorem setHen_sched (k : Nat) (x : Hen) : (m.setHen k x).sched = m.sched := rfl
@[simp] theorem setHen_dies (k : Nat) (x : Hen) : (m.setHen k x).dies = m.dies := rfl
@[simp] theorem setHen_oxen (k : Nat) (x : Hen) : (m.setHen k x).oxen = m.oxen := rfl
@[simp] theorem setHen_collies (k : Nat) (x : Hen) : (m.setHen k x).collies = m.collies := rfl
@[simp] theorem setHen_syncs (k : Nat) (x : Hen) : (m.setHen k x).syncs = m.syncs := rfl
@[simp] theorem setHen_mules (k : Nat) (x : Hen) : (m.setHen k x).mules = m.mules := rfl
@[simp] theorem setHen_fm (k : Nat) (x : Hen) : (m.setHen k x).fm = m.fm := rfl
@[simp] theorem setHen_fmPoison (k : Nat) (x : Hen) : (m.setHen k x).fmPoison = m.fmPoison := rfl
@[simp] theorem setHen_fmUpset (k : Nat) (x : Hen) : (m.setHen k x).fmUpset = m.fmUpset := rfl
@[simp] theorem setHen_hbm (k : Nat) (x : Hen) : (m.setHen k x).hbm = m.hbm := rfl
@[simp] theorem setHen_hbmPoison (k : Nat) (x : Hen) : (m.setHen k x).hbmPoison = m.hbmPoison := rfl
@[simp] theorem setHen_hbms (k : Nat) (x : Hen) : (m.setHen k x).hbms = m.hbms := rfl
@[simp] theorem setHen_coh (k : Nat) (x : Hen) : (m.setHen k x).coh = m.coh := rfl
@[simp] theorem setHen_tier (k : Nat) (x : Hen) : (m.setHen k x).tier = m.tier := rfl
@[simp] theorem setHen_links (k : Nat) (x : Hen) : (m.setHen k x).links = m.links := rfl
@[simp] theorem setHen_herd (k : Nat) (x : Hen) : (m.setHen k x).herd = m.herd := rfl
@[simp] theorem setHen_host (k : Nat) (x : Hen) : (m.setHen k x).host = m.host := rfl
@[simp] theorem setHen_acores (k : Nat) (x : Hen) : (m.setHen k x).acores = m.acores := rfl
@[simp] theorem setHen_boot (k : Nat) (x : Hen) : (m.setHen k x).boot = m.boot := rfl
@[simp] theorem setHen_goose (k : Nat) (x : Hen) : (m.setHen k x).goose = m.goose := rfl
@[simp] theorem setHen_sec (k : Nat) (x : Hen) : (m.setHen k x).sec = m.sec := rfl
@[simp] theorem setHen_tels (k : Nat) (x : Hen) : (m.setHen k x).tels = m.tels := rfl
@[simp] theorem setHen_mbx (k : Nat) (x : Hen) : (m.setHen k x).mbx = m.mbx := rfl
@[simp] theorem setHen_latches (k : Nat) (x : Hen) : (m.setHen k x).latches = m.latches := rfl
@[simp] theorem setHen_fused (k : Nat) (x : Hen) : (m.setHen k x).fused = m.fused := rfl
@[simp] theorem setHen_temps (k : Nat) (x : Hen) : (m.setHen k x).temps = m.temps := rfl
@[simp] theorem setHen_blows (k : Nat) (x : Hen) : (m.setHen k x).blows = m.blows := rfl
@[simp] theorem setHen_free (k : Nat) (x : Hen) : (m.setHen k x).free = m.free := rfl
@[simp] theorem hen_setHen (k : Nat) (x : Hen) : (m.setHen k x).hen k = x := FMap.get_set_same _ _ _ _
theorem hen_setHen_ne (k l : Nat) (x : Hen) (h : l ≠ k) : (m.setHen k x).hen l = m.hen l := by
  unfold hen setHen; exact FMap.get_set_ne _ _ _ _ h
@[simp] theorem die_setHen (k l : Nat) (x : Hen) : (m.setHen k x).die l = m.die l := rfl
@[simp] theorem ox_setHen (k l : Nat) (x : Hen) : (m.setHen k x).ox l = m.ox l := rfl
@[simp] theorem collie_setHen (k l : Nat) (x : Hen) : (m.setHen k x).collie l = m.collie l := rfl
@[simp] theorem sync_setHen (k l : Nat) (x : Hen) : (m.setHen k x).sync l = m.sync l := rfl
@[simp] theorem mule_setHen (k l : Nat) (x : Hen) : (m.setHen k x).mule l = m.mule l := rfl
@[simp] theorem hbmc_setHen (k l : Nat) (x : Hen) : (m.setHen k x).hbmc l = m.hbmc l := rfl
@[simp] theorem slice_setHen (k l : Nat) (x : Hen) : (m.setHen k x).slice l = m.slice l := rfl
@[simp] theorem link_setHen (k l : Nat) (x : Hen) : (m.setHen k x).link l = m.link l := rfl
@[simp] theorem ring_setHen (k l : Nat) (x : Hen) : (m.setHen k x).ring l = m.ring l := rfl
@[simp] theorem core_setHen (k l : Nat) (x : Hen) : (m.setHen k x).core l = m.core l := rfl
@[simp] theorem tel_setHen (k l : Nat) (x : Hen) : (m.setHen k x).tel l = m.tel l := rfl
@[simp] theorem mailbox_setHen (k l : Nat) (x : Hen) : (m.setHen k x).mailbox l = m.mailbox l := rfl
@[simp] theorem pageOf_setHen (k l : Nat) (x : Hen) : (m.setHen k x).pageOf l = m.pageOf l := rfl
@[simp] theorem reg_setHen (k l : Nat) (x : Hen) : (m.setHen k x).reg l = m.reg l := rfl
theorem modHen_eq (k : Nat) (f : Hen → Hen) : m.modHen k f = m.setHen k (f (m.hen k)) := rfl

/-! ### setCollie -/

@[simp] theorem setCollie_now (k : Nat) (x : Collie) : (m.setCollie k x).now = m.now := rfl
@[simp] theorem setCollie_out (k : Nat) (x : Collie) : (m.setCollie k x).out = m.out := rfl
@[simp] theorem setCollie_regs (k : Nat) (x : Collie) : (m.setCollie k x).regs = m.regs := rfl
@[simp] theorem setCollie_beat (k : Nat) (x : Collie) : (m.setCollie k x).beat = m.beat := rfl
@[simp] theorem setCollie_site (k : Nat) (x : Collie) : (m.setCollie k x).site = m.site := rfl
@[simp] theorem setCollie_gov (k : Nat) (x : Collie) : (m.setCollie k x).gov = m.gov := rfl
@[simp] theorem setCollie_lean (k : Nat) (x : Collie) : (m.setCollie k x).lean = m.lean := rfl
@[simp] theorem setCollie_save (k : Nat) (x : Collie) : (m.setCollie k x).save = m.save := rfl
@[simp] theorem setCollie_sched (k : Nat) (x : Collie) : (m.setCollie k x).sched = m.sched := rfl
@[simp] theorem setCollie_dies (k : Nat) (x : Collie) : (m.setCollie k x).dies = m.dies := rfl
@[simp] theorem setCollie_oxen (k : Nat) (x : Collie) : (m.setCollie k x).oxen = m.oxen := rfl
@[simp] theorem setCollie_hens (k : Nat) (x : Collie) : (m.setCollie k x).hens = m.hens := rfl
@[simp] theorem setCollie_syncs (k : Nat) (x : Collie) : (m.setCollie k x).syncs = m.syncs := rfl
@[simp] theorem setCollie_mules (k : Nat) (x : Collie) : (m.setCollie k x).mules = m.mules := rfl
@[simp] theorem setCollie_fm (k : Nat) (x : Collie) : (m.setCollie k x).fm = m.fm := rfl
@[simp] theorem setCollie_fmPoison (k : Nat) (x : Collie) : (m.setCollie k x).fmPoison = m.fmPoison := rfl
@[simp] theorem setCollie_fmUpset (k : Nat) (x : Collie) : (m.setCollie k x).fmUpset = m.fmUpset := rfl
@[simp] theorem setCollie_hbm (k : Nat) (x : Collie) : (m.setCollie k x).hbm = m.hbm := rfl
@[simp] theorem setCollie_hbmPoison (k : Nat) (x : Collie) : (m.setCollie k x).hbmPoison = m.hbmPoison := rfl
@[simp] theorem setCollie_hbms (k : Nat) (x : Collie) : (m.setCollie k x).hbms = m.hbms := rfl
@[simp] theorem setCollie_coh (k : Nat) (x : Collie) : (m.setCollie k x).coh = m.coh := rfl
@[simp] theorem setCollie_tier (k : Nat) (x : Collie) : (m.setCollie k x).tier = m.tier := rfl
@[simp] theorem setCollie_links (k : Nat) (x : Collie) : (m.setCollie k x).links = m.links := rfl
@[simp] theorem setCollie_herd (k : Nat) (x : Collie) : (m.setCollie k x).herd = m.herd := rfl
@[simp] theorem setCollie_host (k : Nat) (x : Collie) : (m.setCollie k x).host = m.host := rfl
@[simp] theorem setCollie_acores (k : Nat) (x : Collie) : (m.setCollie k x).acores = m.acores := rfl
@[simp] theorem setCollie_boot (k : Nat) (x : Collie) : (m.setCollie k x).boot = m.boot := rfl
@[simp] theorem setCollie_goose (k : Nat) (x : Collie) : (m.setCollie k x).goose = m.goose := rfl
@[simp] theorem setCollie_sec (k : Nat) (x : Collie) : (m.setCollie k x).sec = m.sec := rfl
@[simp] theorem setCollie_tels (k : Nat) (x : Collie) : (m.setCollie k x).tels = m.tels := rfl
@[simp] theorem setCollie_mbx (k : Nat) (x : Collie) : (m.setCollie k x).mbx = m.mbx := rfl
@[simp] theorem setCollie_latches (k : Nat) (x : Collie) : (m.setCollie k x).latches = m.latches := rfl
@[simp] theorem setCollie_fused (k : Nat) (x : Collie) : (m.setCollie k x).fused = m.fused := rfl
@[simp] theorem setCollie_temps (k : Nat) (x : Collie) : (m.setCollie k x).temps = m.temps := rfl
@[simp] theorem setCollie_blows (k : Nat) (x : Collie) : (m.setCollie k x).blows = m.blows := rfl
@[simp] theorem setCollie_free (k : Nat) (x : Collie) : (m.setCollie k x).free = m.free := rfl
@[simp] theorem collie_setCollie (k : Nat) (x : Collie) : (m.setCollie k x).collie k = x := FMap.get_set_same _ _ _ _
theorem collie_setCollie_ne (k l : Nat) (x : Collie) (h : l ≠ k) : (m.setCollie k x).collie l = m.collie l := by
  unfold collie setCollie; exact FMap.get_set_ne _ _ _ _ h
@[simp] theorem die_setCollie (k l : Nat) (x : Collie) : (m.setCollie k x).die l = m.die l := rfl
@[simp] theorem ox_setCollie (k l : Nat) (x : Collie) : (m.setCollie k x).ox l = m.ox l := rfl
@[simp] theorem hen_setCollie (k l : Nat) (x : Collie) : (m.setCollie k x).hen l = m.hen l := rfl
@[simp] theorem sync_setCollie (k l : Nat) (x : Collie) : (m.setCollie k x).sync l = m.sync l := rfl
@[simp] theorem mule_setCollie (k l : Nat) (x : Collie) : (m.setCollie k x).mule l = m.mule l := rfl
@[simp] theorem hbmc_setCollie (k l : Nat) (x : Collie) : (m.setCollie k x).hbmc l = m.hbmc l := rfl
@[simp] theorem slice_setCollie (k l : Nat) (x : Collie) : (m.setCollie k x).slice l = m.slice l := rfl
@[simp] theorem link_setCollie (k l : Nat) (x : Collie) : (m.setCollie k x).link l = m.link l := rfl
@[simp] theorem ring_setCollie (k l : Nat) (x : Collie) : (m.setCollie k x).ring l = m.ring l := rfl
@[simp] theorem core_setCollie (k l : Nat) (x : Collie) : (m.setCollie k x).core l = m.core l := rfl
@[simp] theorem tel_setCollie (k l : Nat) (x : Collie) : (m.setCollie k x).tel l = m.tel l := rfl
@[simp] theorem mailbox_setCollie (k l : Nat) (x : Collie) : (m.setCollie k x).mailbox l = m.mailbox l := rfl
@[simp] theorem pageOf_setCollie (k l : Nat) (x : Collie) : (m.setCollie k x).pageOf l = m.pageOf l := rfl
@[simp] theorem reg_setCollie (k l : Nat) (x : Collie) : (m.setCollie k x).reg l = m.reg l := rfl
theorem modCollie_eq (k : Nat) (f : Collie → Collie) : m.modCollie k f = m.setCollie k (f (m.collie k)) := rfl

/-! ### setSync -/

@[simp] theorem setSync_now (k : Nat) (x : SyncUnit) : (m.setSync k x).now = m.now := rfl
@[simp] theorem setSync_out (k : Nat) (x : SyncUnit) : (m.setSync k x).out = m.out := rfl
@[simp] theorem setSync_regs (k : Nat) (x : SyncUnit) : (m.setSync k x).regs = m.regs := rfl
@[simp] theorem setSync_beat (k : Nat) (x : SyncUnit) : (m.setSync k x).beat = m.beat := rfl
@[simp] theorem setSync_site (k : Nat) (x : SyncUnit) : (m.setSync k x).site = m.site := rfl
@[simp] theorem setSync_gov (k : Nat) (x : SyncUnit) : (m.setSync k x).gov = m.gov := rfl
@[simp] theorem setSync_lean (k : Nat) (x : SyncUnit) : (m.setSync k x).lean = m.lean := rfl
@[simp] theorem setSync_save (k : Nat) (x : SyncUnit) : (m.setSync k x).save = m.save := rfl
@[simp] theorem setSync_sched (k : Nat) (x : SyncUnit) : (m.setSync k x).sched = m.sched := rfl
@[simp] theorem setSync_dies (k : Nat) (x : SyncUnit) : (m.setSync k x).dies = m.dies := rfl
@[simp] theorem setSync_oxen (k : Nat) (x : SyncUnit) : (m.setSync k x).oxen = m.oxen := rfl
@[simp] theorem setSync_hens (k : Nat) (x : SyncUnit) : (m.setSync k x).hens = m.hens := rfl
@[simp] theorem setSync_collies (k : Nat) (x : SyncUnit) : (m.setSync k x).collies = m.collies := rfl
@[simp] theorem setSync_mules (k : Nat) (x : SyncUnit) : (m.setSync k x).mules = m.mules := rfl
@[simp] theorem setSync_fm (k : Nat) (x : SyncUnit) : (m.setSync k x).fm = m.fm := rfl
@[simp] theorem setSync_fmPoison (k : Nat) (x : SyncUnit) : (m.setSync k x).fmPoison = m.fmPoison := rfl
@[simp] theorem setSync_fmUpset (k : Nat) (x : SyncUnit) : (m.setSync k x).fmUpset = m.fmUpset := rfl
@[simp] theorem setSync_hbm (k : Nat) (x : SyncUnit) : (m.setSync k x).hbm = m.hbm := rfl
@[simp] theorem setSync_hbmPoison (k : Nat) (x : SyncUnit) : (m.setSync k x).hbmPoison = m.hbmPoison := rfl
@[simp] theorem setSync_hbms (k : Nat) (x : SyncUnit) : (m.setSync k x).hbms = m.hbms := rfl
@[simp] theorem setSync_coh (k : Nat) (x : SyncUnit) : (m.setSync k x).coh = m.coh := rfl
@[simp] theorem setSync_tier (k : Nat) (x : SyncUnit) : (m.setSync k x).tier = m.tier := rfl
@[simp] theorem setSync_links (k : Nat) (x : SyncUnit) : (m.setSync k x).links = m.links := rfl
@[simp] theorem setSync_herd (k : Nat) (x : SyncUnit) : (m.setSync k x).herd = m.herd := rfl
@[simp] theorem setSync_host (k : Nat) (x : SyncUnit) : (m.setSync k x).host = m.host := rfl
@[simp] theorem setSync_acores (k : Nat) (x : SyncUnit) : (m.setSync k x).acores = m.acores := rfl
@[simp] theorem setSync_boot (k : Nat) (x : SyncUnit) : (m.setSync k x).boot = m.boot := rfl
@[simp] theorem setSync_goose (k : Nat) (x : SyncUnit) : (m.setSync k x).goose = m.goose := rfl
@[simp] theorem setSync_sec (k : Nat) (x : SyncUnit) : (m.setSync k x).sec = m.sec := rfl
@[simp] theorem setSync_tels (k : Nat) (x : SyncUnit) : (m.setSync k x).tels = m.tels := rfl
@[simp] theorem setSync_mbx (k : Nat) (x : SyncUnit) : (m.setSync k x).mbx = m.mbx := rfl
@[simp] theorem setSync_latches (k : Nat) (x : SyncUnit) : (m.setSync k x).latches = m.latches := rfl
@[simp] theorem setSync_fused (k : Nat) (x : SyncUnit) : (m.setSync k x).fused = m.fused := rfl
@[simp] theorem setSync_temps (k : Nat) (x : SyncUnit) : (m.setSync k x).temps = m.temps := rfl
@[simp] theorem setSync_blows (k : Nat) (x : SyncUnit) : (m.setSync k x).blows = m.blows := rfl
@[simp] theorem setSync_free (k : Nat) (x : SyncUnit) : (m.setSync k x).free = m.free := rfl
@[simp] theorem sync_setSync (k : Nat) (x : SyncUnit) : (m.setSync k x).sync k = x := FMap.get_set_same _ _ _ _
theorem sync_setSync_ne (k l : Nat) (x : SyncUnit) (h : l ≠ k) : (m.setSync k x).sync l = m.sync l := by
  unfold sync setSync; exact FMap.get_set_ne _ _ _ _ h
@[simp] theorem die_setSync (k l : Nat) (x : SyncUnit) : (m.setSync k x).die l = m.die l := rfl
@[simp] theorem ox_setSync (k l : Nat) (x : SyncUnit) : (m.setSync k x).ox l = m.ox l := rfl
@[simp] theorem hen_setSync (k l : Nat) (x : SyncUnit) : (m.setSync k x).hen l = m.hen l := rfl
@[simp] theorem collie_setSync (k l : Nat) (x : SyncUnit) : (m.setSync k x).collie l = m.collie l := rfl
@[simp] theorem mule_setSync (k l : Nat) (x : SyncUnit) : (m.setSync k x).mule l = m.mule l := rfl
@[simp] theorem hbmc_setSync (k l : Nat) (x : SyncUnit) : (m.setSync k x).hbmc l = m.hbmc l := rfl
@[simp] theorem slice_setSync (k l : Nat) (x : SyncUnit) : (m.setSync k x).slice l = m.slice l := rfl
@[simp] theorem link_setSync (k l : Nat) (x : SyncUnit) : (m.setSync k x).link l = m.link l := rfl
@[simp] theorem ring_setSync (k l : Nat) (x : SyncUnit) : (m.setSync k x).ring l = m.ring l := rfl
@[simp] theorem core_setSync (k l : Nat) (x : SyncUnit) : (m.setSync k x).core l = m.core l := rfl
@[simp] theorem tel_setSync (k l : Nat) (x : SyncUnit) : (m.setSync k x).tel l = m.tel l := rfl
@[simp] theorem mailbox_setSync (k l : Nat) (x : SyncUnit) : (m.setSync k x).mailbox l = m.mailbox l := rfl
@[simp] theorem pageOf_setSync (k l : Nat) (x : SyncUnit) : (m.setSync k x).pageOf l = m.pageOf l := rfl
@[simp] theorem reg_setSync (k l : Nat) (x : SyncUnit) : (m.setSync k x).reg l = m.reg l := rfl
theorem modSync_eq (k : Nat) (f : SyncUnit → SyncUnit) : m.modSync k f = m.setSync k (f (m.sync k)) := rfl

/-! ### setMule -/

@[simp] theorem setMule_now (k : Nat) (x : Mule) : (m.setMule k x).now = m.now := rfl
@[simp] theorem setMule_out (k : Nat) (x : Mule) : (m.setMule k x).out = m.out := rfl
@[simp] theorem setMule_regs (k : Nat) (x : Mule) : (m.setMule k x).regs = m.regs := rfl
@[simp] theorem setMule_beat (k : Nat) (x : Mule) : (m.setMule k x).beat = m.beat := rfl
@[simp] theorem setMule_site (k : Nat) (x : Mule) : (m.setMule k x).site = m.site := rfl
@[simp] theorem setMule_gov (k : Nat) (x : Mule) : (m.setMule k x).gov = m.gov := rfl
@[simp] theorem setMule_lean (k : Nat) (x : Mule) : (m.setMule k x).lean = m.lean := rfl
@[simp] theorem setMule_save (k : Nat) (x : Mule) : (m.setMule k x).save = m.save := rfl
@[simp] theorem setMule_sched (k : Nat) (x : Mule) : (m.setMule k x).sched = m.sched := rfl
@[simp] theorem setMule_dies (k : Nat) (x : Mule) : (m.setMule k x).dies = m.dies := rfl
@[simp] theorem setMule_oxen (k : Nat) (x : Mule) : (m.setMule k x).oxen = m.oxen := rfl
@[simp] theorem setMule_hens (k : Nat) (x : Mule) : (m.setMule k x).hens = m.hens := rfl
@[simp] theorem setMule_collies (k : Nat) (x : Mule) : (m.setMule k x).collies = m.collies := rfl
@[simp] theorem setMule_syncs (k : Nat) (x : Mule) : (m.setMule k x).syncs = m.syncs := rfl
@[simp] theorem setMule_fm (k : Nat) (x : Mule) : (m.setMule k x).fm = m.fm := rfl
@[simp] theorem setMule_fmPoison (k : Nat) (x : Mule) : (m.setMule k x).fmPoison = m.fmPoison := rfl
@[simp] theorem setMule_fmUpset (k : Nat) (x : Mule) : (m.setMule k x).fmUpset = m.fmUpset := rfl
@[simp] theorem setMule_hbm (k : Nat) (x : Mule) : (m.setMule k x).hbm = m.hbm := rfl
@[simp] theorem setMule_hbmPoison (k : Nat) (x : Mule) : (m.setMule k x).hbmPoison = m.hbmPoison := rfl
@[simp] theorem setMule_hbms (k : Nat) (x : Mule) : (m.setMule k x).hbms = m.hbms := rfl
@[simp] theorem setMule_coh (k : Nat) (x : Mule) : (m.setMule k x).coh = m.coh := rfl
@[simp] theorem setMule_tier (k : Nat) (x : Mule) : (m.setMule k x).tier = m.tier := rfl
@[simp] theorem setMule_links (k : Nat) (x : Mule) : (m.setMule k x).links = m.links := rfl
@[simp] theorem setMule_herd (k : Nat) (x : Mule) : (m.setMule k x).herd = m.herd := rfl
@[simp] theorem setMule_host (k : Nat) (x : Mule) : (m.setMule k x).host = m.host := rfl
@[simp] theorem setMule_acores (k : Nat) (x : Mule) : (m.setMule k x).acores = m.acores := rfl
@[simp] theorem setMule_boot (k : Nat) (x : Mule) : (m.setMule k x).boot = m.boot := rfl
@[simp] theorem setMule_goose (k : Nat) (x : Mule) : (m.setMule k x).goose = m.goose := rfl
@[simp] theorem setMule_sec (k : Nat) (x : Mule) : (m.setMule k x).sec = m.sec := rfl
@[simp] theorem setMule_tels (k : Nat) (x : Mule) : (m.setMule k x).tels = m.tels := rfl
@[simp] theorem setMule_mbx (k : Nat) (x : Mule) : (m.setMule k x).mbx = m.mbx := rfl
@[simp] theorem setMule_latches (k : Nat) (x : Mule) : (m.setMule k x).latches = m.latches := rfl
@[simp] theorem setMule_fused (k : Nat) (x : Mule) : (m.setMule k x).fused = m.fused := rfl
@[simp] theorem setMule_temps (k : Nat) (x : Mule) : (m.setMule k x).temps = m.temps := rfl
@[simp] theorem setMule_blows (k : Nat) (x : Mule) : (m.setMule k x).blows = m.blows := rfl
@[simp] theorem setMule_free (k : Nat) (x : Mule) : (m.setMule k x).free = m.free := rfl
@[simp] theorem mule_setMule (k : Nat) (x : Mule) : (m.setMule k x).mule k = x := FMap.get_set_same _ _ _ _
theorem mule_setMule_ne (k l : Nat) (x : Mule) (h : l ≠ k) : (m.setMule k x).mule l = m.mule l := by
  unfold mule setMule; exact FMap.get_set_ne _ _ _ _ h
@[simp] theorem die_setMule (k l : Nat) (x : Mule) : (m.setMule k x).die l = m.die l := rfl
@[simp] theorem ox_setMule (k l : Nat) (x : Mule) : (m.setMule k x).ox l = m.ox l := rfl
@[simp] theorem hen_setMule (k l : Nat) (x : Mule) : (m.setMule k x).hen l = m.hen l := rfl
@[simp] theorem collie_setMule (k l : Nat) (x : Mule) : (m.setMule k x).collie l = m.collie l := rfl
@[simp] theorem sync_setMule (k l : Nat) (x : Mule) : (m.setMule k x).sync l = m.sync l := rfl
@[simp] theorem hbmc_setMule (k l : Nat) (x : Mule) : (m.setMule k x).hbmc l = m.hbmc l := rfl
@[simp] theorem slice_setMule (k l : Nat) (x : Mule) : (m.setMule k x).slice l = m.slice l := rfl
@[simp] theorem link_setMule (k l : Nat) (x : Mule) : (m.setMule k x).link l = m.link l := rfl
@[simp] theorem ring_setMule (k l : Nat) (x : Mule) : (m.setMule k x).ring l = m.ring l := rfl
@[simp] theorem core_setMule (k l : Nat) (x : Mule) : (m.setMule k x).core l = m.core l := rfl
@[simp] theorem tel_setMule (k l : Nat) (x : Mule) : (m.setMule k x).tel l = m.tel l := rfl
@[simp] theorem mailbox_setMule (k l : Nat) (x : Mule) : (m.setMule k x).mailbox l = m.mailbox l := rfl
@[simp] theorem pageOf_setMule (k l : Nat) (x : Mule) : (m.setMule k x).pageOf l = m.pageOf l := rfl
@[simp] theorem reg_setMule (k l : Nat) (x : Mule) : (m.setMule k x).reg l = m.reg l := rfl
theorem modMule_eq (k : Nat) (f : Mule → Mule) : m.modMule k f = m.setMule k (f (m.mule k)) := rfl

/-! ### setHbmc -/

@[simp] theorem setHbmc_now (k : Nat) (x : Hbm) : (m.setHbmc k x).now = m.now := rfl
@[simp] theorem setHbmc_out (k : Nat) (x : Hbm) : (m.setHbmc k x).out = m.out := rfl
@[simp] theorem setHbmc_regs (k : Nat) (x : Hbm) : (m.setHbmc k x).regs = m.regs := rfl
@[simp] theorem setHbmc_beat (k : Nat) (x : Hbm) : (m.setHbmc k x).beat = m.beat := rfl
@[simp] theorem setHbmc_site (k : Nat) (x : Hbm) : (m.setHbmc k x).site = m.site := rfl
@[simp] theorem setHbmc_gov (k : Nat) (x : Hbm) : (m.setHbmc k x).gov = m.gov := rfl
@[simp] theorem setHbmc_lean (k : Nat) (x : Hbm) : (m.setHbmc k x).lean = m.lean := rfl
@[simp] theorem setHbmc_save (k : Nat) (x : Hbm) : (m.setHbmc k x).save = m.save := rfl
@[simp] theorem setHbmc_sched (k : Nat) (x : Hbm) : (m.setHbmc k x).sched = m.sched := rfl
@[simp] theorem setHbmc_dies (k : Nat) (x : Hbm) : (m.setHbmc k x).dies = m.dies := rfl
@[simp] theorem setHbmc_oxen (k : Nat) (x : Hbm) : (m.setHbmc k x).oxen = m.oxen := rfl
@[simp] theorem setHbmc_hens (k : Nat) (x : Hbm) : (m.setHbmc k x).hens = m.hens := rfl
@[simp] theorem setHbmc_collies (k : Nat) (x : Hbm) : (m.setHbmc k x).collies = m.collies := rfl
@[simp] theorem setHbmc_syncs (k : Nat) (x : Hbm) : (m.setHbmc k x).syncs = m.syncs := rfl
@[simp] theorem setHbmc_mules (k : Nat) (x : Hbm) : (m.setHbmc k x).mules = m.mules := rfl
@[simp] theorem setHbmc_fm (k : Nat) (x : Hbm) : (m.setHbmc k x).fm = m.fm := rfl
@[simp] theorem setHbmc_fmPoison (k : Nat) (x : Hbm) : (m.setHbmc k x).fmPoison = m.fmPoison := rfl
@[simp] theorem setHbmc_fmUpset (k : Nat) (x : Hbm) : (m.setHbmc k x).fmUpset = m.fmUpset := rfl
@[simp] theorem setHbmc_hbm (k : Nat) (x : Hbm) : (m.setHbmc k x).hbm = m.hbm := rfl
@[simp] theorem setHbmc_hbmPoison (k : Nat) (x : Hbm) : (m.setHbmc k x).hbmPoison = m.hbmPoison := rfl
@[simp] theorem setHbmc_coh (k : Nat) (x : Hbm) : (m.setHbmc k x).coh = m.coh := rfl
@[simp] theorem setHbmc_tier (k : Nat) (x : Hbm) : (m.setHbmc k x).tier = m.tier := rfl
@[simp] theorem setHbmc_links (k : Nat) (x : Hbm) : (m.setHbmc k x).links = m.links := rfl
@[simp] theorem setHbmc_herd (k : Nat) (x : Hbm) : (m.setHbmc k x).herd = m.herd := rfl
@[simp] theorem setHbmc_host (k : Nat) (x : Hbm) : (m.setHbmc k x).host = m.host := rfl
@[simp] theorem setHbmc_acores (k : Nat) (x : Hbm) : (m.setHbmc k x).acores = m.acores := rfl
@[simp] theorem setHbmc_boot (k : Nat) (x : Hbm) : (m.setHbmc k x).boot = m.boot := rfl
@[simp] theorem setHbmc_goose (k : Nat) (x : Hbm) : (m.setHbmc k x).goose = m.goose := rfl
@[simp] theorem setHbmc_sec (k : Nat) (x : Hbm) : (m.setHbmc k x).sec = m.sec := rfl
@[simp] theorem setHbmc_tels (k : Nat) (x : Hbm) : (m.setHbmc k x).tels = m.tels := rfl
@[simp] theorem setHbmc_mbx (k : Nat) (x : Hbm) : (m.setHbmc k x).mbx = m.mbx := rfl
@[simp] theorem setHbmc_latches (k : Nat) (x : Hbm) : (m.setHbmc k x).latches = m.latches := rfl
@[simp] theorem setHbmc_fused (k : Nat) (x : Hbm) : (m.setHbmc k x).fused = m.fused := rfl
@[simp] theorem setHbmc_temps (k : Nat) (x : Hbm) : (m.setHbmc k x).temps = m.temps := rfl
@[simp] theorem setHbmc_blows (k : Nat) (x : Hbm) : (m.setHbmc k x).blows = m.blows := rfl
@[simp] theorem setHbmc_free (k : Nat) (x : Hbm) : (m.setHbmc k x).free = m.free := rfl
@[simp] theorem hbmc_setHbmc (k : Nat) (x : Hbm) : (m.setHbmc k x).hbmc k = x := FMap.get_set_same _ _ _ _
theorem hbmc_setHbmc_ne (k l : Nat) (x : Hbm) (h : l ≠ k) : (m.setHbmc k x).hbmc l = m.hbmc l := by
  unfold hbmc setHbmc; exact FMap.get_set_ne _ _ _ _ h
@[simp] theorem die_setHbmc (k l : Nat) (x : Hbm) : (m.setHbmc k x).die l = m.die l := rfl
@[simp] theorem ox_setHbmc (k l : Nat) (x : Hbm) : (m.setHbmc k x).ox l = m.ox l := rfl
@[simp] theorem hen_setHbmc (k l : Nat) (x : Hbm) : (m.setHbmc k x).hen l = m.hen l := rfl
@[simp] theorem collie_setHbmc (k l : Nat) (x : Hbm) : (m.setHbmc k x).collie l = m.collie l := rfl
@[simp] theorem sync_setHbmc (k l : Nat) (x : Hbm) : (m.setHbmc k x).sync l = m.sync l := rfl
@[simp] theorem mule_setHbmc (k l : Nat) (x : Hbm) : (m.setHbmc k x).mule l = m.mule l := rfl
@[simp] theorem slice_setHbmc (k l : Nat) (x : Hbm) : (m.setHbmc k x).slice l = m.slice l := rfl
@[simp] theorem link_setHbmc (k l : Nat) (x : Hbm) : (m.setHbmc k x).link l = m.link l := rfl
@[simp] theorem ring_setHbmc (k l : Nat) (x : Hbm) : (m.setHbmc k x).ring l = m.ring l := rfl
@[simp] theorem core_setHbmc (k l : Nat) (x : Hbm) : (m.setHbmc k x).core l = m.core l := rfl
@[simp] theorem tel_setHbmc (k l : Nat) (x : Hbm) : (m.setHbmc k x).tel l = m.tel l := rfl
@[simp] theorem mailbox_setHbmc (k l : Nat) (x : Hbm) : (m.setHbmc k x).mailbox l = m.mailbox l := rfl
@[simp] theorem pageOf_setHbmc (k l : Nat) (x : Hbm) : (m.setHbmc k x).pageOf l = m.pageOf l := rfl
@[simp] theorem reg_setHbmc (k l : Nat) (x : Hbm) : (m.setHbmc k x).reg l = m.reg l := rfl
theorem modHbmc_eq (k : Nat) (f : Hbm → Hbm) : m.modHbmc k f = m.setHbmc k (f (m.hbmc k)) := rfl

/-! ### setSlice -/

@[simp] theorem setSlice_now (k : Nat) (x : Slice) : (m.setSlice k x).now = m.now := rfl
@[simp] theorem setSlice_out (k : Nat) (x : Slice) : (m.setSlice k x).out = m.out := rfl
@[simp] theorem setSlice_regs (k : Nat) (x : Slice) : (m.setSlice k x).regs = m.regs := rfl
@[simp] theorem setSlice_beat (k : Nat) (x : Slice) : (m.setSlice k x).beat = m.beat := rfl
@[simp] theorem setSlice_site (k : Nat) (x : Slice) : (m.setSlice k x).site = m.site := rfl
@[simp] theorem setSlice_gov (k : Nat) (x : Slice) : (m.setSlice k x).gov = m.gov := rfl
@[simp] theorem setSlice_lean (k : Nat) (x : Slice) : (m.setSlice k x).lean = m.lean := rfl
@[simp] theorem setSlice_save (k : Nat) (x : Slice) : (m.setSlice k x).save = m.save := rfl
@[simp] theorem setSlice_sched (k : Nat) (x : Slice) : (m.setSlice k x).sched = m.sched := rfl
@[simp] theorem setSlice_dies (k : Nat) (x : Slice) : (m.setSlice k x).dies = m.dies := rfl
@[simp] theorem setSlice_oxen (k : Nat) (x : Slice) : (m.setSlice k x).oxen = m.oxen := rfl
@[simp] theorem setSlice_hens (k : Nat) (x : Slice) : (m.setSlice k x).hens = m.hens := rfl
@[simp] theorem setSlice_collies (k : Nat) (x : Slice) : (m.setSlice k x).collies = m.collies := rfl
@[simp] theorem setSlice_syncs (k : Nat) (x : Slice) : (m.setSlice k x).syncs = m.syncs := rfl
@[simp] theorem setSlice_mules (k : Nat) (x : Slice) : (m.setSlice k x).mules = m.mules := rfl
@[simp] theorem setSlice_fm (k : Nat) (x : Slice) : (m.setSlice k x).fm = m.fm := rfl
@[simp] theorem setSlice_fmPoison (k : Nat) (x : Slice) : (m.setSlice k x).fmPoison = m.fmPoison := rfl
@[simp] theorem setSlice_fmUpset (k : Nat) (x : Slice) : (m.setSlice k x).fmUpset = m.fmUpset := rfl
@[simp] theorem setSlice_hbm (k : Nat) (x : Slice) : (m.setSlice k x).hbm = m.hbm := rfl
@[simp] theorem setSlice_hbmPoison (k : Nat) (x : Slice) : (m.setSlice k x).hbmPoison = m.hbmPoison := rfl
@[simp] theorem setSlice_hbms (k : Nat) (x : Slice) : (m.setSlice k x).hbms = m.hbms := rfl
@[simp] theorem setSlice_tier (k : Nat) (x : Slice) : (m.setSlice k x).tier = m.tier := rfl
@[simp] theorem setSlice_links (k : Nat) (x : Slice) : (m.setSlice k x).links = m.links := rfl
@[simp] theorem setSlice_herd (k : Nat) (x : Slice) : (m.setSlice k x).herd = m.herd := rfl
@[simp] theorem setSlice_host (k : Nat) (x : Slice) : (m.setSlice k x).host = m.host := rfl
@[simp] theorem setSlice_acores (k : Nat) (x : Slice) : (m.setSlice k x).acores = m.acores := rfl
@[simp] theorem setSlice_boot (k : Nat) (x : Slice) : (m.setSlice k x).boot = m.boot := rfl
@[simp] theorem setSlice_goose (k : Nat) (x : Slice) : (m.setSlice k x).goose = m.goose := rfl
@[simp] theorem setSlice_sec (k : Nat) (x : Slice) : (m.setSlice k x).sec = m.sec := rfl
@[simp] theorem setSlice_tels (k : Nat) (x : Slice) : (m.setSlice k x).tels = m.tels := rfl
@[simp] theorem setSlice_mbx (k : Nat) (x : Slice) : (m.setSlice k x).mbx = m.mbx := rfl
@[simp] theorem setSlice_latches (k : Nat) (x : Slice) : (m.setSlice k x).latches = m.latches := rfl
@[simp] theorem setSlice_fused (k : Nat) (x : Slice) : (m.setSlice k x).fused = m.fused := rfl
@[simp] theorem setSlice_temps (k : Nat) (x : Slice) : (m.setSlice k x).temps = m.temps := rfl
@[simp] theorem setSlice_blows (k : Nat) (x : Slice) : (m.setSlice k x).blows = m.blows := rfl
@[simp] theorem setSlice_free (k : Nat) (x : Slice) : (m.setSlice k x).free = m.free := rfl
@[simp] theorem slice_setSlice (k : Nat) (x : Slice) : (m.setSlice k x).slice k = x := FMap.get_set_same _ _ _ _
theorem slice_setSlice_ne (k l : Nat) (x : Slice) (h : l ≠ k) : (m.setSlice k x).slice l = m.slice l := by
  unfold slice setSlice; exact FMap.get_set_ne _ _ _ _ h
@[simp] theorem die_setSlice (k l : Nat) (x : Slice) : (m.setSlice k x).die l = m.die l := rfl
@[simp] theorem ox_setSlice (k l : Nat) (x : Slice) : (m.setSlice k x).ox l = m.ox l := rfl
@[simp] theorem hen_setSlice (k l : Nat) (x : Slice) : (m.setSlice k x).hen l = m.hen l := rfl
@[simp] theorem collie_setSlice (k l : Nat) (x : Slice) : (m.setSlice k x).collie l = m.collie l := rfl
@[simp] theorem sync_setSlice (k l : Nat) (x : Slice) : (m.setSlice k x).sync l = m.sync l := rfl
@[simp] theorem mule_setSlice (k l : Nat) (x : Slice) : (m.setSlice k x).mule l = m.mule l := rfl
@[simp] theorem hbmc_setSlice (k l : Nat) (x : Slice) : (m.setSlice k x).hbmc l = m.hbmc l := rfl
@[simp] theorem link_setSlice (k l : Nat) (x : Slice) : (m.setSlice k x).link l = m.link l := rfl
@[simp] theorem ring_setSlice (k l : Nat) (x : Slice) : (m.setSlice k x).ring l = m.ring l := rfl
@[simp] theorem core_setSlice (k l : Nat) (x : Slice) : (m.setSlice k x).core l = m.core l := rfl
@[simp] theorem tel_setSlice (k l : Nat) (x : Slice) : (m.setSlice k x).tel l = m.tel l := rfl
@[simp] theorem mailbox_setSlice (k l : Nat) (x : Slice) : (m.setSlice k x).mailbox l = m.mailbox l := rfl
@[simp] theorem pageOf_setSlice (k l : Nat) (x : Slice) : (m.setSlice k x).pageOf l = m.pageOf l := rfl
@[simp] theorem reg_setSlice (k l : Nat) (x : Slice) : (m.setSlice k x).reg l = m.reg l := rfl
theorem modSlice_eq (k : Nat) (f : Slice → Slice) : m.modSlice k f = m.setSlice k (f (m.slice k)) := rfl

/-! ### setLink -/

@[simp] theorem setLink_now (k : Nat) (x : Link) : (m.setLink k x).now = m.now := rfl
@[simp] theorem setLink_out (k : Nat) (x : Link) : (m.setLink k x).out = m.out := rfl
@[simp] theorem setLink_regs (k : Nat) (x : Link) : (m.setLink k x).regs = m.regs := rfl
@[simp] theorem setLink_beat (k : Nat) (x : Link) : (m.setLink k x).beat = m.beat := rfl
@[simp] theorem setLink_site (k : Nat) (x : Link) : (m.setLink k x).site = m.site := rfl
@[simp] theorem setLink_gov (k : Nat) (x : Link) : (m.setLink k x).gov = m.gov := rfl
@[simp] theorem setLink_lean (k : Nat) (x : Link) : (m.setLink k x).lean = m.lean := rfl
@[simp] theorem setLink_save (k : Nat) (x : Link) : (m.setLink k x).save = m.save := rfl
@[simp] theorem setLink_sched (k : Nat) (x : Link) : (m.setLink k x).sched = m.sched := rfl
@[simp] theorem setLink_dies (k : Nat) (x : Link) : (m.setLink k x).dies = m.dies := rfl
@[simp] theorem setLink_oxen (k : Nat) (x : Link) : (m.setLink k x).oxen = m.oxen := rfl
@[simp] theorem setLink_hens (k : Nat) (x : Link) : (m.setLink k x).hens = m.hens := rfl
@[simp] theorem setLink_collies (k : Nat) (x : Link) : (m.setLink k x).collies = m.collies := rfl
@[simp] theorem setLink_syncs (k : Nat) (x : Link) : (m.setLink k x).syncs = m.syncs := rfl
@[simp] theorem setLink_mules (k : Nat) (x : Link) : (m.setLink k x).mules = m.mules := rfl
@[simp] theorem setLink_fm (k : Nat) (x : Link) : (m.setLink k x).fm = m.fm := rfl
@[simp] theorem setLink_fmPoison (k : Nat) (x : Link) : (m.setLink k x).fmPoison = m.fmPoison := rfl
@[simp] theorem setLink_fmUpset (k : Nat) (x : Link) : (m.setLink k x).fmUpset = m.fmUpset := rfl
@[simp] theorem setLink_hbm (k : Nat) (x : Link) : (m.setLink k x).hbm = m.hbm := rfl
@[simp] theorem setLink_hbmPoison (k : Nat) (x : Link) : (m.setLink k x).hbmPoison = m.hbmPoison := rfl
@[simp] theorem setLink_hbms (k : Nat) (x : Link) : (m.setLink k x).hbms = m.hbms := rfl
@[simp] theorem setLink_coh (k : Nat) (x : Link) : (m.setLink k x).coh = m.coh := rfl
@[simp] theorem setLink_tier (k : Nat) (x : Link) : (m.setLink k x).tier = m.tier := rfl
@[simp] theorem setLink_herd (k : Nat) (x : Link) : (m.setLink k x).herd = m.herd := rfl
@[simp] theorem setLink_host (k : Nat) (x : Link) : (m.setLink k x).host = m.host := rfl
@[simp] theorem setLink_acores (k : Nat) (x : Link) : (m.setLink k x).acores = m.acores := rfl
@[simp] theorem setLink_boot (k : Nat) (x : Link) : (m.setLink k x).boot = m.boot := rfl
@[simp] theorem setLink_goose (k : Nat) (x : Link) : (m.setLink k x).goose = m.goose := rfl
@[simp] theorem setLink_sec (k : Nat) (x : Link) : (m.setLink k x).sec = m.sec := rfl
@[simp] theorem setLink_tels (k : Nat) (x : Link) : (m.setLink k x).tels = m.tels := rfl
@[simp] theorem setLink_mbx (k : Nat) (x : Link) : (m.setLink k x).mbx = m.mbx := rfl
@[simp] theorem setLink_latches (k : Nat) (x : Link) : (m.setLink k x).latches = m.latches := rfl
@[simp] theorem setLink_fused (k : Nat) (x : Link) : (m.setLink k x).fused = m.fused := rfl
@[simp] theorem setLink_temps (k : Nat) (x : Link) : (m.setLink k x).temps = m.temps := rfl
@[simp] theorem setLink_blows (k : Nat) (x : Link) : (m.setLink k x).blows = m.blows := rfl
@[simp] theorem setLink_free (k : Nat) (x : Link) : (m.setLink k x).free = m.free := rfl
@[simp] theorem link_setLink (k : Nat) (x : Link) : (m.setLink k x).link k = x := FMap.get_set_same _ _ _ _
theorem link_setLink_ne (k l : Nat) (x : Link) (h : l ≠ k) : (m.setLink k x).link l = m.link l := by
  unfold link setLink; exact FMap.get_set_ne _ _ _ _ h
@[simp] theorem die_setLink (k l : Nat) (x : Link) : (m.setLink k x).die l = m.die l := rfl
@[simp] theorem ox_setLink (k l : Nat) (x : Link) : (m.setLink k x).ox l = m.ox l := rfl
@[simp] theorem hen_setLink (k l : Nat) (x : Link) : (m.setLink k x).hen l = m.hen l := rfl
@[simp] theorem collie_setLink (k l : Nat) (x : Link) : (m.setLink k x).collie l = m.collie l := rfl
@[simp] theorem sync_setLink (k l : Nat) (x : Link) : (m.setLink k x).sync l = m.sync l := rfl
@[simp] theorem mule_setLink (k l : Nat) (x : Link) : (m.setLink k x).mule l = m.mule l := rfl
@[simp] theorem hbmc_setLink (k l : Nat) (x : Link) : (m.setLink k x).hbmc l = m.hbmc l := rfl
@[simp] theorem slice_setLink (k l : Nat) (x : Link) : (m.setLink k x).slice l = m.slice l := rfl
@[simp] theorem ring_setLink (k l : Nat) (x : Link) : (m.setLink k x).ring l = m.ring l := rfl
@[simp] theorem core_setLink (k l : Nat) (x : Link) : (m.setLink k x).core l = m.core l := rfl
@[simp] theorem tel_setLink (k l : Nat) (x : Link) : (m.setLink k x).tel l = m.tel l := rfl
@[simp] theorem mailbox_setLink (k l : Nat) (x : Link) : (m.setLink k x).mailbox l = m.mailbox l := rfl
@[simp] theorem pageOf_setLink (k l : Nat) (x : Link) : (m.setLink k x).pageOf l = m.pageOf l := rfl
@[simp] theorem reg_setLink (k l : Nat) (x : Link) : (m.setLink k x).reg l = m.reg l := rfl
theorem modLink_eq (k : Nat) (f : Link → Link) : m.modLink k f = m.setLink k (f (m.link k)) := rfl

/-! ### setRing -/

@[simp] theorem setRing_now (k : Nat) (x : Ring) : (m.setRing k x).now = m.now := rfl
@[simp] theorem setRing_out (k : Nat) (x : Ring) : (m.setRing k x).out = m.out := rfl
@[simp] theorem setRing_regs (k : Nat) (x : Ring) : (m.setRing k x).regs = m.regs := rfl
@[simp] theorem setRing_beat (k : Nat) (x : Ring) : (m.setRing k x).beat = m.beat := rfl
@[simp] theorem setRing_site (k : Nat) (x : Ring) : (m.setRing k x).site = m.site := rfl
@[simp] theorem setRing_gov (k : Nat) (x : Ring) : (m.setRing k x).gov = m.gov := rfl
@[simp] theorem setRing_lean (k : Nat) (x : Ring) : (m.setRing k x).lean = m.lean := rfl
@[simp] theorem setRing_save (k : Nat) (x : Ring) : (m.setRing k x).save = m.save := rfl
@[simp] theorem setRing_sched (k : Nat) (x : Ring) : (m.setRing k x).sched = m.sched := rfl
@[simp] theorem setRing_dies (k : Nat) (x : Ring) : (m.setRing k x).dies = m.dies := rfl
@[simp] theorem setRing_oxen (k : Nat) (x : Ring) : (m.setRing k x).oxen = m.oxen := rfl
@[simp] theorem setRing_hens (k : Nat) (x : Ring) : (m.setRing k x).hens = m.hens := rfl
@[simp] theorem setRing_collies (k : Nat) (x : Ring) : (m.setRing k x).collies = m.collies := rfl
@[simp] theorem setRing_syncs (k : Nat) (x : Ring) : (m.setRing k x).syncs = m.syncs := rfl
@[simp] theorem setRing_mules (k : Nat) (x : Ring) : (m.setRing k x).mules = m.mules := rfl
@[simp] theorem setRing_fm (k : Nat) (x : Ring) : (m.setRing k x).fm = m.fm := rfl
@[simp] theorem setRing_fmPoison (k : Nat) (x : Ring) : (m.setRing k x).fmPoison = m.fmPoison := rfl
@[simp] theorem setRing_fmUpset (k : Nat) (x : Ring) : (m.setRing k x).fmUpset = m.fmUpset := rfl
@[simp] theorem setRing_hbm (k : Nat) (x : Ring) : (m.setRing k x).hbm = m.hbm := rfl
@[simp] theorem setRing_hbmPoison (k : Nat) (x : Ring) : (m.setRing k x).hbmPoison = m.hbmPoison := rfl
@[simp] theorem setRing_hbms (k : Nat) (x : Ring) : (m.setRing k x).hbms = m.hbms := rfl
@[simp] theorem setRing_coh (k : Nat) (x : Ring) : (m.setRing k x).coh = m.coh := rfl
@[simp] theorem setRing_tier (k : Nat) (x : Ring) : (m.setRing k x).tier = m.tier := rfl
@[simp] theorem setRing_links (k : Nat) (x : Ring) : (m.setRing k x).links = m.links := rfl
@[simp] theorem setRing_herd (k : Nat) (x : Ring) : (m.setRing k x).herd = m.herd := rfl
@[simp] theorem setRing_acores (k : Nat) (x : Ring) : (m.setRing k x).acores = m.acores := rfl
@[simp] theorem setRing_boot (k : Nat) (x : Ring) : (m.setRing k x).boot = m.boot := rfl
@[simp] theorem setRing_goose (k : Nat) (x : Ring) : (m.setRing k x).goose = m.goose := rfl
@[simp] theorem setRing_sec (k : Nat) (x : Ring) : (m.setRing k x).sec = m.sec := rfl
@[simp] theorem setRing_tels (k : Nat) (x : Ring) : (m.setRing k x).tels = m.tels := rfl
@[simp] theorem setRing_mbx (k : Nat) (x : Ring) : (m.setRing k x).mbx = m.mbx := rfl
@[simp] theorem setRing_latches (k : Nat) (x : Ring) : (m.setRing k x).latches = m.latches := rfl
@[simp] theorem setRing_fused (k : Nat) (x : Ring) : (m.setRing k x).fused = m.fused := rfl
@[simp] theorem setRing_temps (k : Nat) (x : Ring) : (m.setRing k x).temps = m.temps := rfl
@[simp] theorem setRing_blows (k : Nat) (x : Ring) : (m.setRing k x).blows = m.blows := rfl
@[simp] theorem setRing_free (k : Nat) (x : Ring) : (m.setRing k x).free = m.free := rfl
@[simp] theorem ring_setRing (k : Nat) (x : Ring) : (m.setRing k x).ring k = x := FMap.get_set_same _ _ _ _
theorem ring_setRing_ne (k l : Nat) (x : Ring) (h : l ≠ k) : (m.setRing k x).ring l = m.ring l := by
  unfold ring setRing; exact FMap.get_set_ne _ _ _ _ h
@[simp] theorem die_setRing (k l : Nat) (x : Ring) : (m.setRing k x).die l = m.die l := rfl
@[simp] theorem ox_setRing (k l : Nat) (x : Ring) : (m.setRing k x).ox l = m.ox l := rfl
@[simp] theorem hen_setRing (k l : Nat) (x : Ring) : (m.setRing k x).hen l = m.hen l := rfl
@[simp] theorem collie_setRing (k l : Nat) (x : Ring) : (m.setRing k x).collie l = m.collie l := rfl
@[simp] theorem sync_setRing (k l : Nat) (x : Ring) : (m.setRing k x).sync l = m.sync l := rfl
@[simp] theorem mule_setRing (k l : Nat) (x : Ring) : (m.setRing k x).mule l = m.mule l := rfl
@[simp] theorem hbmc_setRing (k l : Nat) (x : Ring) : (m.setRing k x).hbmc l = m.hbmc l := rfl
@[simp] theorem slice_setRing (k l : Nat) (x : Ring) : (m.setRing k x).slice l = m.slice l := rfl
@[simp] theorem link_setRing (k l : Nat) (x : Ring) : (m.setRing k x).link l = m.link l := rfl
@[simp] theorem core_setRing (k l : Nat) (x : Ring) : (m.setRing k x).core l = m.core l := rfl
@[simp] theorem tel_setRing (k l : Nat) (x : Ring) : (m.setRing k x).tel l = m.tel l := rfl
@[simp] theorem mailbox_setRing (k l : Nat) (x : Ring) : (m.setRing k x).mailbox l = m.mailbox l := rfl
@[simp] theorem pageOf_setRing (k l : Nat) (x : Ring) : (m.setRing k x).pageOf l = m.pageOf l := rfl
@[simp] theorem reg_setRing (k l : Nat) (x : Ring) : (m.setRing k x).reg l = m.reg l := rfl
theorem modRing_eq (k : Nat) (f : Ring → Ring) : m.modRing k f = m.setRing k (f (m.ring k)) := rfl

/-! ### setCore -/

@[simp] theorem setCore_now (k : Nat) (x : Core) : (m.setCore k x).now = m.now := rfl
@[simp] theorem setCore_out (k : Nat) (x : Core) : (m.setCore k x).out = m.out := rfl
@[simp] theorem setCore_regs (k : Nat) (x : Core) : (m.setCore k x).regs = m.regs := rfl
@[simp] theorem setCore_beat (k : Nat) (x : Core) : (m.setCore k x).beat = m.beat := rfl
@[simp] theorem setCore_site (k : Nat) (x : Core) : (m.setCore k x).site = m.site := rfl
@[simp] theorem setCore_gov (k : Nat) (x : Core) : (m.setCore k x).gov = m.gov := rfl
@[simp] theorem setCore_lean (k : Nat) (x : Core) : (m.setCore k x).lean = m.lean := rfl
@[simp] theorem setCore_save (k : Nat) (x : Core) : (m.setCore k x).save = m.save := rfl
@[simp] theorem setCore_sched (k : Nat) (x : Core) : (m.setCore k x).sched = m.sched := rfl
@[simp] theorem setCore_dies (k : Nat) (x : Core) : (m.setCore k x).dies = m.dies := rfl
@[simp] theorem setCore_oxen (k : Nat) (x : Core) : (m.setCore k x).oxen = m.oxen := rfl
@[simp] theorem setCore_hens (k : Nat) (x : Core) : (m.setCore k x).hens = m.hens := rfl
@[simp] theorem setCore_collies (k : Nat) (x : Core) : (m.setCore k x).collies = m.collies := rfl
@[simp] theorem setCore_syncs (k : Nat) (x : Core) : (m.setCore k x).syncs = m.syncs := rfl
@[simp] theorem setCore_mules (k : Nat) (x : Core) : (m.setCore k x).mules = m.mules := rfl
@[simp] theorem setCore_fm (k : Nat) (x : Core) : (m.setCore k x).fm = m.fm := rfl
@[simp] theorem setCore_fmPoison (k : Nat) (x : Core) : (m.setCore k x).fmPoison = m.fmPoison := rfl
@[simp] theorem setCore_fmUpset (k : Nat) (x : Core) : (m.setCore k x).fmUpset = m.fmUpset := rfl
@[simp] theorem setCore_hbm (k : Nat) (x : Core) : (m.setCore k x).hbm = m.hbm := rfl
@[simp] theorem setCore_hbmPoison (k : Nat) (x : Core) : (m.setCore k x).hbmPoison = m.hbmPoison := rfl
@[simp] theorem setCore_hbms (k : Nat) (x : Core) : (m.setCore k x).hbms = m.hbms := rfl
@[simp] theorem setCore_coh (k : Nat) (x : Core) : (m.setCore k x).coh = m.coh := rfl
@[simp] theorem setCore_tier (k : Nat) (x : Core) : (m.setCore k x).tier = m.tier := rfl
@[simp] theorem setCore_links (k : Nat) (x : Core) : (m.setCore k x).links = m.links := rfl
@[simp] theorem setCore_herd (k : Nat) (x : Core) : (m.setCore k x).herd = m.herd := rfl
@[simp] theorem setCore_host (k : Nat) (x : Core) : (m.setCore k x).host = m.host := rfl
@[simp] theorem setCore_boot (k : Nat) (x : Core) : (m.setCore k x).boot = m.boot := rfl
@[simp] theorem setCore_goose (k : Nat) (x : Core) : (m.setCore k x).goose = m.goose := rfl
@[simp] theorem setCore_sec (k : Nat) (x : Core) : (m.setCore k x).sec = m.sec := rfl
@[simp] theorem setCore_tels (k : Nat) (x : Core) : (m.setCore k x).tels = m.tels := rfl
@[simp] theorem setCore_mbx (k : Nat) (x : Core) : (m.setCore k x).mbx = m.mbx := rfl
@[simp] theorem setCore_latches (k : Nat) (x : Core) : (m.setCore k x).latches = m.latches := rfl
@[simp] theorem setCore_fused (k : Nat) (x : Core) : (m.setCore k x).fused = m.fused := rfl
@[simp] theorem setCore_temps (k : Nat) (x : Core) : (m.setCore k x).temps = m.temps := rfl
@[simp] theorem setCore_blows (k : Nat) (x : Core) : (m.setCore k x).blows = m.blows := rfl
@[simp] theorem setCore_free (k : Nat) (x : Core) : (m.setCore k x).free = m.free := rfl
@[simp] theorem core_setCore (k : Nat) (x : Core) : (m.setCore k x).core k = x := FMap.get_set_same _ _ _ _
theorem core_setCore_ne (k l : Nat) (x : Core) (h : l ≠ k) : (m.setCore k x).core l = m.core l := by
  unfold core setCore; exact FMap.get_set_ne _ _ _ _ h
@[simp] theorem die_setCore (k l : Nat) (x : Core) : (m.setCore k x).die l = m.die l := rfl
@[simp] theorem ox_setCore (k l : Nat) (x : Core) : (m.setCore k x).ox l = m.ox l := rfl
@[simp] theorem hen_setCore (k l : Nat) (x : Core) : (m.setCore k x).hen l = m.hen l := rfl
@[simp] theorem collie_setCore (k l : Nat) (x : Core) : (m.setCore k x).collie l = m.collie l := rfl
@[simp] theorem sync_setCore (k l : Nat) (x : Core) : (m.setCore k x).sync l = m.sync l := rfl
@[simp] theorem mule_setCore (k l : Nat) (x : Core) : (m.setCore k x).mule l = m.mule l := rfl
@[simp] theorem hbmc_setCore (k l : Nat) (x : Core) : (m.setCore k x).hbmc l = m.hbmc l := rfl
@[simp] theorem slice_setCore (k l : Nat) (x : Core) : (m.setCore k x).slice l = m.slice l := rfl
@[simp] theorem link_setCore (k l : Nat) (x : Core) : (m.setCore k x).link l = m.link l := rfl
@[simp] theorem ring_setCore (k l : Nat) (x : Core) : (m.setCore k x).ring l = m.ring l := rfl
@[simp] theorem tel_setCore (k l : Nat) (x : Core) : (m.setCore k x).tel l = m.tel l := rfl
@[simp] theorem mailbox_setCore (k l : Nat) (x : Core) : (m.setCore k x).mailbox l = m.mailbox l := rfl
@[simp] theorem pageOf_setCore (k l : Nat) (x : Core) : (m.setCore k x).pageOf l = m.pageOf l := rfl
@[simp] theorem reg_setCore (k l : Nat) (x : Core) : (m.setCore k x).reg l = m.reg l := rfl
theorem modCore_eq (k : Nat) (f : Core → Core) : m.modCore k f = m.setCore k (f (m.core k)) := rfl

/-! ### setTel -/

@[simp] theorem setTel_now (k : Nat) (x : TelFifo) : (m.setTel k x).now = m.now := rfl
@[simp] theorem setTel_out (k : Nat) (x : TelFifo) : (m.setTel k x).out = m.out := rfl
@[simp] theorem setTel_regs (k : Nat) (x : TelFifo) : (m.setTel k x).regs = m.regs := rfl
@[simp] theorem setTel_beat (k : Nat) (x : TelFifo) : (m.setTel k x).beat = m.beat := rfl
@[simp] theorem setTel_site (k : Nat) (x : TelFifo) : (m.setTel k x).site = m.site := rfl
@[simp] theorem setTel_gov (k : Nat) (x : TelFifo) : (m.setTel k x).gov = m.gov := rfl
@[simp] theorem setTel_lean (k : Nat) (x : TelFifo) : (m.setTel k x).lean = m.lean := rfl
@[simp] theorem setTel_save (k : Nat) (x : TelFifo) : (m.setTel k x).save = m.save := rfl
@[simp] theorem setTel_sched (k : Nat) (x : TelFifo) : (m.setTel k x).sched = m.sched := rfl
@[simp] theorem setTel_dies (k : Nat) (x : TelFifo) : (m.setTel k x).dies = m.dies := rfl
@[simp] theorem setTel_oxen (k : Nat) (x : TelFifo) : (m.setTel k x).oxen = m.oxen := rfl
@[simp] theorem setTel_hens (k : Nat) (x : TelFifo) : (m.setTel k x).hens = m.hens := rfl
@[simp] theorem setTel_collies (k : Nat) (x : TelFifo) : (m.setTel k x).collies = m.collies := rfl
@[simp] theorem setTel_syncs (k : Nat) (x : TelFifo) : (m.setTel k x).syncs = m.syncs := rfl
@[simp] theorem setTel_mules (k : Nat) (x : TelFifo) : (m.setTel k x).mules = m.mules := rfl
@[simp] theorem setTel_fm (k : Nat) (x : TelFifo) : (m.setTel k x).fm = m.fm := rfl
@[simp] theorem setTel_fmPoison (k : Nat) (x : TelFifo) : (m.setTel k x).fmPoison = m.fmPoison := rfl
@[simp] theorem setTel_fmUpset (k : Nat) (x : TelFifo) : (m.setTel k x).fmUpset = m.fmUpset := rfl
@[simp] theorem setTel_hbm (k : Nat) (x : TelFifo) : (m.setTel k x).hbm = m.hbm := rfl
@[simp] theorem setTel_hbmPoison (k : Nat) (x : TelFifo) : (m.setTel k x).hbmPoison = m.hbmPoison := rfl
@[simp] theorem setTel_hbms (k : Nat) (x : TelFifo) : (m.setTel k x).hbms = m.hbms := rfl
@[simp] theorem setTel_coh (k : Nat) (x : TelFifo) : (m.setTel k x).coh = m.coh := rfl
@[simp] theorem setTel_tier (k : Nat) (x : TelFifo) : (m.setTel k x).tier = m.tier := rfl
@[simp] theorem setTel_links (k : Nat) (x : TelFifo) : (m.setTel k x).links = m.links := rfl
@[simp] theorem setTel_herd (k : Nat) (x : TelFifo) : (m.setTel k x).herd = m.herd := rfl
@[simp] theorem setTel_host (k : Nat) (x : TelFifo) : (m.setTel k x).host = m.host := rfl
@[simp] theorem setTel_acores (k : Nat) (x : TelFifo) : (m.setTel k x).acores = m.acores := rfl
@[simp] theorem setTel_boot (k : Nat) (x : TelFifo) : (m.setTel k x).boot = m.boot := rfl
@[simp] theorem setTel_goose (k : Nat) (x : TelFifo) : (m.setTel k x).goose = m.goose := rfl
@[simp] theorem setTel_sec (k : Nat) (x : TelFifo) : (m.setTel k x).sec = m.sec := rfl
@[simp] theorem setTel_mbx (k : Nat) (x : TelFifo) : (m.setTel k x).mbx = m.mbx := rfl
@[simp] theorem setTel_latches (k : Nat) (x : TelFifo) : (m.setTel k x).latches = m.latches := rfl
@[simp] theorem setTel_fused (k : Nat) (x : TelFifo) : (m.setTel k x).fused = m.fused := rfl
@[simp] theorem setTel_temps (k : Nat) (x : TelFifo) : (m.setTel k x).temps = m.temps := rfl
@[simp] theorem setTel_blows (k : Nat) (x : TelFifo) : (m.setTel k x).blows = m.blows := rfl
@[simp] theorem setTel_free (k : Nat) (x : TelFifo) : (m.setTel k x).free = m.free := rfl
@[simp] theorem tel_setTel (k : Nat) (x : TelFifo) : (m.setTel k x).tel k = x := FMap.get_set_same _ _ _ _
theorem tel_setTel_ne (k l : Nat) (x : TelFifo) (h : l ≠ k) : (m.setTel k x).tel l = m.tel l := by
  unfold tel setTel; exact FMap.get_set_ne _ _ _ _ h
@[simp] theorem die_setTel (k l : Nat) (x : TelFifo) : (m.setTel k x).die l = m.die l := rfl
@[simp] theorem ox_setTel (k l : Nat) (x : TelFifo) : (m.setTel k x).ox l = m.ox l := rfl
@[simp] theorem hen_setTel (k l : Nat) (x : TelFifo) : (m.setTel k x).hen l = m.hen l := rfl
@[simp] theorem collie_setTel (k l : Nat) (x : TelFifo) : (m.setTel k x).collie l = m.collie l := rfl
@[simp] theorem sync_setTel (k l : Nat) (x : TelFifo) : (m.setTel k x).sync l = m.sync l := rfl
@[simp] theorem mule_setTel (k l : Nat) (x : TelFifo) : (m.setTel k x).mule l = m.mule l := rfl
@[simp] theorem hbmc_setTel (k l : Nat) (x : TelFifo) : (m.setTel k x).hbmc l = m.hbmc l := rfl
@[simp] theorem slice_setTel (k l : Nat) (x : TelFifo) : (m.setTel k x).slice l = m.slice l := rfl
@[simp] theorem link_setTel (k l : Nat) (x : TelFifo) : (m.setTel k x).link l = m.link l := rfl
@[simp] theorem ring_setTel (k l : Nat) (x : TelFifo) : (m.setTel k x).ring l = m.ring l := rfl
@[simp] theorem core_setTel (k l : Nat) (x : TelFifo) : (m.setTel k x).core l = m.core l := rfl
@[simp] theorem mailbox_setTel (k l : Nat) (x : TelFifo) : (m.setTel k x).mailbox l = m.mailbox l := rfl
@[simp] theorem pageOf_setTel (k l : Nat) (x : TelFifo) : (m.setTel k x).pageOf l = m.pageOf l := rfl
@[simp] theorem reg_setTel (k l : Nat) (x : TelFifo) : (m.setTel k x).reg l = m.reg l := rfl


/-! ### setMailbox -/

@[simp] theorem setMailbox_now (k : Nat) (x : Mbx) : (m.setMailbox k x).now = m.now := rfl
@[simp] theorem setMailbox_out (k : Nat) (x : Mbx) : (m.setMailbox k x).out = m.out := rfl
@[simp] theorem setMailbox_regs (k : Nat) (x : Mbx) : (m.setMailbox k x).regs = m.regs := rfl
@[simp] theorem setMailbox_beat (k : Nat) (x : Mbx) : (m.setMailbox k x).beat = m.beat := rfl
@[simp] theorem setMailbox_site (k : Nat) (x : Mbx) : (m.setMailbox k x).site = m.site := rfl
@[simp] theorem setMailbox_gov (k : Nat) (x : Mbx) : (m.setMailbox k x).gov = m.gov := rfl
@[simp] theorem setMailbox_lean (k : Nat) (x : Mbx) : (m.setMailbox k x).lean = m.lean := rfl
@[simp] theorem setMailbox_save (k : Nat) (x : Mbx) : (m.setMailbox k x).save = m.save := rfl
@[simp] theorem setMailbox_sched (k : Nat) (x : Mbx) : (m.setMailbox k x).sched = m.sched := rfl
@[simp] theorem setMailbox_dies (k : Nat) (x : Mbx) : (m.setMailbox k x).dies = m.dies := rfl
@[simp] theorem setMailbox_oxen (k : Nat) (x : Mbx) : (m.setMailbox k x).oxen = m.oxen := rfl
@[simp] theorem setMailbox_hens (k : Nat) (x : Mbx) : (m.setMailbox k x).hens = m.hens := rfl
@[simp] theorem setMailbox_collies (k : Nat) (x : Mbx) : (m.setMailbox k x).collies = m.collies := rfl
@[simp] theorem setMailbox_syncs (k : Nat) (x : Mbx) : (m.setMailbox k x).syncs = m.syncs := rfl
@[simp] theorem setMailbox_mules (k : Nat) (x : Mbx) : (m.setMailbox k x).mules = m.mules := rfl
@[simp] theorem setMailbox_fm (k : Nat) (x : Mbx) : (m.setMailbox k x).fm = m.fm := rfl
@[simp] theorem setMailbox_fmPoison (k : Nat) (x : Mbx) : (m.setMailbox k x).fmPoison = m.fmPoison := rfl
@[simp] theorem setMailbox_fmUpset (k : Nat) (x : Mbx) : (m.setMailbox k x).fmUpset = m.fmUpset := rfl
@[simp] theorem setMailbox_hbm (k : Nat) (x : Mbx) : (m.setMailbox k x).hbm = m.hbm := rfl
@[simp] theorem setMailbox_hbmPoison (k : Nat) (x : Mbx) : (m.setMailbox k x).hbmPoison = m.hbmPoison := rfl
@[simp] theorem setMailbox_hbms (k : Nat) (x : Mbx) : (m.setMailbox k x).hbms = m.hbms := rfl
@[simp] theorem setMailbox_coh (k : Nat) (x : Mbx) : (m.setMailbox k x).coh = m.coh := rfl
@[simp] theorem setMailbox_tier (k : Nat) (x : Mbx) : (m.setMailbox k x).tier = m.tier := rfl
@[simp] theorem setMailbox_links (k : Nat) (x : Mbx) : (m.setMailbox k x).links = m.links := rfl
@[simp] theorem setMailbox_herd (k : Nat) (x : Mbx) : (m.setMailbox k x).herd = m.herd := rfl
@[simp] theorem setMailbox_host (k : Nat) (x : Mbx) : (m.setMailbox k x).host = m.host := rfl
@[simp] theorem setMailbox_acores (k : Nat) (x : Mbx) : (m.setMailbox k x).acores = m.acores := rfl
@[simp] theorem setMailbox_boot (k : Nat) (x : Mbx) : (m.setMailbox k x).boot = m.boot := rfl
@[simp] theorem setMailbox_goose (k : Nat) (x : Mbx) : (m.setMailbox k x).goose = m.goose := rfl
@[simp] theorem setMailbox_sec (k : Nat) (x : Mbx) : (m.setMailbox k x).sec = m.sec := rfl
@[simp] theorem setMailbox_tels (k : Nat) (x : Mbx) : (m.setMailbox k x).tels = m.tels := rfl
@[simp] theorem setMailbox_latches (k : Nat) (x : Mbx) : (m.setMailbox k x).latches = m.latches := rfl
@[simp] theorem setMailbox_fused (k : Nat) (x : Mbx) : (m.setMailbox k x).fused = m.fused := rfl
@[simp] theorem setMailbox_temps (k : Nat) (x : Mbx) : (m.setMailbox k x).temps = m.temps := rfl
@[simp] theorem setMailbox_blows (k : Nat) (x : Mbx) : (m.setMailbox k x).blows = m.blows := rfl
@[simp] theorem setMailbox_free (k : Nat) (x : Mbx) : (m.setMailbox k x).free = m.free := rfl
@[simp] theorem mailbox_setMailbox (k : Nat) (x : Mbx) : (m.setMailbox k x).mailbox k = x := FMap.get_set_same _ _ _ _
theorem mailbox_setMailbox_ne (k l : Nat) (x : Mbx) (h : l ≠ k) : (m.setMailbox k x).mailbox l = m.mailbox l := by
  unfold mailbox setMailbox; exact FMap.get_set_ne _ _ _ _ h
@[simp] theorem die_setMailbox (k l : Nat) (x : Mbx) : (m.setMailbox k x).die l = m.die l := rfl
@[simp] theorem ox_setMailbox (k l : Nat) (x : Mbx) : (m.setMailbox k x).ox l = m.ox l := rfl
@[simp] theorem hen_setMailbox (k l : Nat) (x : Mbx) : (m.setMailbox k x).hen l = m.hen l := rfl
@[simp] theorem collie_setMailbox (k l : Nat) (x : Mbx) : (m.setMailbox k x).collie l = m.collie l := rfl
@[simp] theorem sync_setMailbox (k l : Nat) (x : Mbx) : (m.setMailbox k x).sync l = m.sync l := rfl
@[simp] theorem mule_setMailbox (k l : Nat) (x : Mbx) : (m.setMailbox k x).mule l = m.mule l := rfl
@[simp] theorem hbmc_setMailbox (k l : Nat) (x : Mbx) : (m.setMailbox k x).hbmc l = m.hbmc l := rfl
@[simp] theorem slice_setMailbox (k l : Nat) (x : Mbx) : (m.setMailbox k x).slice l = m.slice l := rfl
@[simp] theorem link_setMailbox (k l : Nat) (x : Mbx) : (m.setMailbox k x).link l = m.link l := rfl
@[simp] theorem ring_setMailbox (k l : Nat) (x : Mbx) : (m.setMailbox k x).ring l = m.ring l := rfl
@[simp] theorem core_setMailbox (k l : Nat) (x : Mbx) : (m.setMailbox k x).core l = m.core l := rfl
@[simp] theorem tel_setMailbox (k l : Nat) (x : Mbx) : (m.setMailbox k x).tel l = m.tel l := rfl
@[simp] theorem pageOf_setMailbox (k l : Nat) (x : Mbx) : (m.setMailbox k x).pageOf l = m.pageOf l := rfl
@[simp] theorem reg_setMailbox (k l : Nat) (x : Mbx) : (m.setMailbox k x).reg l = m.reg l := rfl


/-! ### setPage -/

@[simp] theorem setPage_now (k : Nat) (x : TierPage) : (m.setPage k x).now = m.now := rfl
@[simp] theorem setPage_out (k : Nat) (x : TierPage) : (m.setPage k x).out = m.out := rfl
@[simp] theorem setPage_regs (k : Nat) (x : TierPage) : (m.setPage k x).regs = m.regs := rfl
@[simp] theorem setPage_beat (k : Nat) (x : TierPage) : (m.setPage k x).beat = m.beat := rfl
@[simp] theorem setPage_site (k : Nat) (x : TierPage) : (m.setPage k x).site = m.site := rfl
@[simp] theorem setPage_gov (k : Nat) (x : TierPage) : (m.setPage k x).gov = m.gov := rfl
@[simp] theorem setPage_lean (k : Nat) (x : TierPage) : (m.setPage k x).lean = m.lean := rfl
@[simp] theorem setPage_save (k : Nat) (x : TierPage) : (m.setPage k x).save = m.save := rfl
@[simp] theorem setPage_sched (k : Nat) (x : TierPage) : (m.setPage k x).sched = m.sched := rfl
@[simp] theorem setPage_dies (k : Nat) (x : TierPage) : (m.setPage k x).dies = m.dies := rfl
@[simp] theorem setPage_oxen (k : Nat) (x : TierPage) : (m.setPage k x).oxen = m.oxen := rfl
@[simp] theorem setPage_hens (k : Nat) (x : TierPage) : (m.setPage k x).hens = m.hens := rfl
@[simp] theorem setPage_collies (k : Nat) (x : TierPage) : (m.setPage k x).collies = m.collies := rfl
@[simp] theorem setPage_syncs (k : Nat) (x : TierPage) : (m.setPage k x).syncs = m.syncs := rfl
@[simp] theorem setPage_mules (k : Nat) (x : TierPage) : (m.setPage k x).mules = m.mules := rfl
@[simp] theorem setPage_fm (k : Nat) (x : TierPage) : (m.setPage k x).fm = m.fm := rfl
@[simp] theorem setPage_fmPoison (k : Nat) (x : TierPage) : (m.setPage k x).fmPoison = m.fmPoison := rfl
@[simp] theorem setPage_fmUpset (k : Nat) (x : TierPage) : (m.setPage k x).fmUpset = m.fmUpset := rfl
@[simp] theorem setPage_hbm (k : Nat) (x : TierPage) : (m.setPage k x).hbm = m.hbm := rfl
@[simp] theorem setPage_hbmPoison (k : Nat) (x : TierPage) : (m.setPage k x).hbmPoison = m.hbmPoison := rfl
@[simp] theorem setPage_hbms (k : Nat) (x : TierPage) : (m.setPage k x).hbms = m.hbms := rfl
@[simp] theorem setPage_coh (k : Nat) (x : TierPage) : (m.setPage k x).coh = m.coh := rfl
@[simp] theorem setPage_links (k : Nat) (x : TierPage) : (m.setPage k x).links = m.links := rfl
@[simp] theorem setPage_herd (k : Nat) (x : TierPage) : (m.setPage k x).herd = m.herd := rfl
@[simp] theorem setPage_host (k : Nat) (x : TierPage) : (m.setPage k x).host = m.host := rfl
@[simp] theorem setPage_acores (k : Nat) (x : TierPage) : (m.setPage k x).acores = m.acores := rfl
@[simp] theorem setPage_boot (k : Nat) (x : TierPage) : (m.setPage k x).boot = m.boot := rfl
@[simp] theorem setPage_goose (k : Nat) (x : TierPage) : (m.setPage k x).goose = m.goose := rfl
@[simp] theorem setPage_sec (k : Nat) (x : TierPage) : (m.setPage k x).sec = m.sec := rfl
@[simp] theorem setPage_tels (k : Nat) (x : TierPage) : (m.setPage k x).tels = m.tels := rfl
@[simp] theorem setPage_mbx (k : Nat) (x : TierPage) : (m.setPage k x).mbx = m.mbx := rfl
@[simp] theorem setPage_latches (k : Nat) (x : TierPage) : (m.setPage k x).latches = m.latches := rfl
@[simp] theorem setPage_fused (k : Nat) (x : TierPage) : (m.setPage k x).fused = m.fused := rfl
@[simp] theorem setPage_temps (k : Nat) (x : TierPage) : (m.setPage k x).temps = m.temps := rfl
@[simp] theorem setPage_blows (k : Nat) (x : TierPage) : (m.setPage k x).blows = m.blows := rfl
@[simp] theorem setPage_free (k : Nat) (x : TierPage) : (m.setPage k x).free = m.free := rfl
@[simp] theorem pageOf_setPage (k : Nat) (x : TierPage) : (m.setPage k x).pageOf k = x := FMap.get_set_same _ _ _ _
theorem pageOf_setPage_ne (k l : Nat) (x : TierPage) (h : l ≠ k) : (m.setPage k x).pageOf l = m.pageOf l := by
  unfold pageOf setPage; exact FMap.get_set_ne _ _ _ _ h
@[simp] theorem die_setPage (k l : Nat) (x : TierPage) : (m.setPage k x).die l = m.die l := rfl
@[simp] theorem ox_setPage (k l : Nat) (x : TierPage) : (m.setPage k x).ox l = m.ox l := rfl
@[simp] theorem hen_setPage (k l : Nat) (x : TierPage) : (m.setPage k x).hen l = m.hen l := rfl
@[simp] theorem collie_setPage (k l : Nat) (x : TierPage) : (m.setPage k x).collie l = m.collie l := rfl
@[simp] theorem sync_setPage (k l : Nat) (x : TierPage) : (m.setPage k x).sync l = m.sync l := rfl
@[simp] theorem mule_setPage (k l : Nat) (x : TierPage) : (m.setPage k x).mule l = m.mule l := rfl
@[simp] theorem hbmc_setPage (k l : Nat) (x : TierPage) : (m.setPage k x).hbmc l = m.hbmc l := rfl
@[simp] theorem slice_setPage (k l : Nat) (x : TierPage) : (m.setPage k x).slice l = m.slice l := rfl
@[simp] theorem link_setPage (k l : Nat) (x : TierPage) : (m.setPage k x).link l = m.link l := rfl
@[simp] theorem ring_setPage (k l : Nat) (x : TierPage) : (m.setPage k x).ring l = m.ring l := rfl
@[simp] theorem core_setPage (k l : Nat) (x : TierPage) : (m.setPage k x).core l = m.core l := rfl
@[simp] theorem tel_setPage (k l : Nat) (x : TierPage) : (m.setPage k x).tel l = m.tel l := rfl
@[simp] theorem mailbox_setPage (k l : Nat) (x : TierPage) : (m.setPage k x).mailbox l = m.mailbox l := rfl
@[simp] theorem reg_setPage (k l : Nat) (x : TierPage) : (m.setPage k x).reg l = m.reg l := rfl
theorem modPage_eq (k : Nat) (f : TierPage → TierPage) : m.modPage k f = m.setPage k (f (m.pageOf k)) := rfl

/-! ### setReg -/

@[simp] theorem setReg_now (k : Nat) (x : BitVec 32) : (m.setReg k x).now = m.now := rfl
@[simp] theorem setReg_out (k : Nat) (x : BitVec 32) : (m.setReg k x).out = m.out := rfl
@[simp] theorem setReg_beat (k : Nat) (x : BitVec 32) : (m.setReg k x).beat = m.beat := rfl
@[simp] theorem setReg_site (k : Nat) (x : BitVec 32) : (m.setReg k x).site = m.site := rfl
@[simp] theorem setReg_gov (k : Nat) (x : BitVec 32) : (m.setReg k x).gov = m.gov := rfl
@[simp] theorem setReg_lean (k : Nat) (x : BitVec 32) : (m.setReg k x).lean = m.lean := rfl
@[simp] theorem setReg_save (k : Nat) (x : BitVec 32) : (m.setReg k x).save = m.save := rfl
@[simp] theorem setReg_sched (k : Nat) (x : BitVec 32) : (m.setReg k x).sched = m.sched := rfl
@[simp] theorem setReg_dies (k : Nat) (x : BitVec 32) : (m.setReg k x).dies = m.dies := rfl
@[simp] theorem setReg_oxen (k : Nat) (x : BitVec 32) : (m.setReg k x).oxen = m.oxen := rfl
@[simp] theorem setReg_hens (k : Nat) (x : BitVec 32) : (m.setReg k x).hens = m.hens := rfl
@[simp] theorem setReg_collies (k : Nat) (x : BitVec 32) : (m.setReg k x).collies = m.collies := rfl
@[simp] theorem setReg_syncs (k : Nat) (x : BitVec 32) : (m.setReg k x).syncs = m.syncs := rfl
@[simp] theorem setReg_mules (k : Nat) (x : BitVec 32) : (m.setReg k x).mules = m.mules := rfl
@[simp] theorem setReg_fm (k : Nat) (x : BitVec 32) : (m.setReg k x).fm = m.fm := rfl
@[simp] theorem setReg_fmPoison (k : Nat) (x : BitVec 32) : (m.setReg k x).fmPoison = m.fmPoison := rfl
@[simp] theorem setReg_fmUpset (k : Nat) (x : BitVec 32) : (m.setReg k x).fmUpset = m.fmUpset := rfl
@[simp] theorem setReg_hbm (k : Nat) (x : BitVec 32) : (m.setReg k x).hbm = m.hbm := rfl
@[simp] theorem setReg_hbmPoison (k : Nat) (x : BitVec 32) : (m.setReg k x).hbmPoison = m.hbmPoison := rfl
@[simp] theorem setReg_hbms (k : Nat) (x : BitVec 32) : (m.setReg k x).hbms = m.hbms := rfl
@[simp] theorem setReg_coh (k : Nat) (x : BitVec 32) : (m.setReg k x).coh = m.coh := rfl
@[simp] theorem setReg_tier (k : Nat) (x : BitVec 32) : (m.setReg k x).tier = m.tier := rfl
@[simp] theorem setReg_links (k : Nat) (x : BitVec 32) : (m.setReg k x).links = m.links := rfl
@[simp] theorem setReg_herd (k : Nat) (x : BitVec 32) : (m.setReg k x).herd = m.herd := rfl
@[simp] theorem setReg_host (k : Nat) (x : BitVec 32) : (m.setReg k x).host = m.host := rfl
@[simp] theorem setReg_acores (k : Nat) (x : BitVec 32) : (m.setReg k x).acores = m.acores := rfl
@[simp] theorem setReg_boot (k : Nat) (x : BitVec 32) : (m.setReg k x).boot = m.boot := rfl
@[simp] theorem setReg_goose (k : Nat) (x : BitVec 32) : (m.setReg k x).goose = m.goose := rfl
@[simp] theorem setReg_sec (k : Nat) (x : BitVec 32) : (m.setReg k x).sec = m.sec := rfl
@[simp] theorem setReg_tels (k : Nat) (x : BitVec 32) : (m.setReg k x).tels = m.tels := rfl
@[simp] theorem setReg_mbx (k : Nat) (x : BitVec 32) : (m.setReg k x).mbx = m.mbx := rfl
@[simp] theorem setReg_latches (k : Nat) (x : BitVec 32) : (m.setReg k x).latches = m.latches := rfl
@[simp] theorem setReg_fused (k : Nat) (x : BitVec 32) : (m.setReg k x).fused = m.fused := rfl
@[simp] theorem setReg_temps (k : Nat) (x : BitVec 32) : (m.setReg k x).temps = m.temps := rfl
@[simp] theorem setReg_blows (k : Nat) (x : BitVec 32) : (m.setReg k x).blows = m.blows := rfl
@[simp] theorem setReg_free (k : Nat) (x : BitVec 32) : (m.setReg k x).free = m.free := rfl
@[simp] theorem reg_setReg (k : Nat) (x : BitVec 32) : (m.setReg k x).reg k = x := FMap.get_set_same _ _ _ _
theorem reg_setReg_ne (k l : Nat) (x : BitVec 32) (h : l ≠ k) : (m.setReg k x).reg l = m.reg l := by
  unfold reg setReg; exact FMap.get_set_ne _ _ _ _ h
@[simp] theorem die_setReg (k l : Nat) (x : BitVec 32) : (m.setReg k x).die l = m.die l := rfl
@[simp] theorem ox_setReg (k l : Nat) (x : BitVec 32) : (m.setReg k x).ox l = m.ox l := rfl
@[simp] theorem hen_setReg (k l : Nat) (x : BitVec 32) : (m.setReg k x).hen l = m.hen l := rfl
@[simp] theorem collie_setReg (k l : Nat) (x : BitVec 32) : (m.setReg k x).collie l = m.collie l := rfl
@[simp] theorem sync_setReg (k l : Nat) (x : BitVec 32) : (m.setReg k x).sync l = m.sync l := rfl
@[simp] theorem mule_setReg (k l : Nat) (x : BitVec 32) : (m.setReg k x).mule l = m.mule l := rfl
@[simp] theorem hbmc_setReg (k l : Nat) (x : BitVec 32) : (m.setReg k x).hbmc l = m.hbmc l := rfl
@[simp] theorem slice_setReg (k l : Nat) (x : BitVec 32) : (m.setReg k x).slice l = m.slice l := rfl
@[simp] theorem link_setReg (k l : Nat) (x : BitVec 32) : (m.setReg k x).link l = m.link l := rfl
@[simp] theorem ring_setReg (k l : Nat) (x : BitVec 32) : (m.setReg k x).ring l = m.ring l := rfl
@[simp] theorem core_setReg (k l : Nat) (x : BitVec 32) : (m.setReg k x).core l = m.core l := rfl
@[simp] theorem tel_setReg (k l : Nat) (x : BitVec 32) : (m.setReg k x).tel l = m.tel l := rfl
@[simp] theorem mailbox_setReg (k l : Nat) (x : BitVec 32) : (m.setReg k x).mailbox l = m.mailbox l := rfl
@[simp] theorem pageOf_setReg (k l : Nat) (x : BitVec 32) : (m.setReg k x).pageOf l = m.pageOf l := rfl

/-! ### What is sent across the boundary -/

@[simp] theorem emit_now (x : Output) : (m.emit x).now = m.now := rfl
@[simp] theorem emit_regs (x : Output) : (m.emit x).regs = m.regs := rfl
@[simp] theorem emit_beat (x : Output) : (m.emit x).beat = m.beat := rfl
@[simp] theorem emit_site (x : Output) : (m.emit x).site = m.site := rfl
@[simp] theorem emit_gov (x : Output) : (m.emit x).gov = m.gov := rfl
@[simp] theorem emit_lean (x : Output) : (m.emit x).lean = m.lean := rfl
@[simp] theorem emit_save (x : Output) : (m.emit x).save = m.save := rfl
@[simp] theorem emit_sched (x : Output) : (m.emit x).sched = m.sched := rfl
@[simp] theorem emit_dies (x : Output) : (m.emit x).dies = m.dies := rfl
@[simp] theorem emit_oxen (x : Output) : (m.emit x).oxen = m.oxen := rfl
@[simp] theorem emit_hens (x : Output) : (m.emit x).hens = m.hens := rfl
@[simp] theorem emit_collies (x : Output) : (m.emit x).collies = m.collies := rfl
@[simp] theorem emit_syncs (x : Output) : (m.emit x).syncs = m.syncs := rfl
@[simp] theorem emit_mules (x : Output) : (m.emit x).mules = m.mules := rfl
@[simp] theorem emit_fm (x : Output) : (m.emit x).fm = m.fm := rfl
@[simp] theorem emit_fmPoison (x : Output) : (m.emit x).fmPoison = m.fmPoison := rfl
@[simp] theorem emit_fmUpset (x : Output) : (m.emit x).fmUpset = m.fmUpset := rfl
@[simp] theorem emit_hbm (x : Output) : (m.emit x).hbm = m.hbm := rfl
@[simp] theorem emit_hbmPoison (x : Output) : (m.emit x).hbmPoison = m.hbmPoison := rfl
@[simp] theorem emit_hbms (x : Output) : (m.emit x).hbms = m.hbms := rfl
@[simp] theorem emit_coh (x : Output) : (m.emit x).coh = m.coh := rfl
@[simp] theorem emit_tier (x : Output) : (m.emit x).tier = m.tier := rfl
@[simp] theorem emit_links (x : Output) : (m.emit x).links = m.links := rfl
@[simp] theorem emit_herd (x : Output) : (m.emit x).herd = m.herd := rfl
@[simp] theorem emit_host (x : Output) : (m.emit x).host = m.host := rfl
@[simp] theorem emit_acores (x : Output) : (m.emit x).acores = m.acores := rfl
@[simp] theorem emit_boot (x : Output) : (m.emit x).boot = m.boot := rfl
@[simp] theorem emit_goose (x : Output) : (m.emit x).goose = m.goose := rfl
@[simp] theorem emit_sec (x : Output) : (m.emit x).sec = m.sec := rfl
@[simp] theorem emit_tels (x : Output) : (m.emit x).tels = m.tels := rfl
@[simp] theorem emit_mbx (x : Output) : (m.emit x).mbx = m.mbx := rfl
@[simp] theorem emit_latches (x : Output) : (m.emit x).latches = m.latches := rfl
@[simp] theorem emit_fused (x : Output) : (m.emit x).fused = m.fused := rfl
@[simp] theorem emit_temps (x : Output) : (m.emit x).temps = m.temps := rfl
@[simp] theorem emit_blows (x : Output) : (m.emit x).blows = m.blows := rfl
@[simp] theorem emit_free (x : Output) : (m.emit x).free = m.free := rfl
@[simp] theorem emit_out (x : Output) : (m.emit x).out = m.out ++ [x] := rfl

end Mach
end Machine
end Sys2Proof
end

