-- ==== Sys2Proof/Laws/Basic.lean ====
section
/-!
SUPPORT. What counting, the passage of time and the updates of one group of the state leave in every field.
-/
namespace Sys2Proof
namespace Machine
namespace Mach

variable (m : Mach)

/-! ### setFld -/

@[simp] theorem setFld_now (off lo w x : Nat) : (m.setFld off lo w x).now = m.now := rfl
@[simp] theorem setFld_out (off lo w x : Nat) : (m.setFld off lo w x).out = m.out := rfl
@[simp] theorem setFld_beat (off lo w x : Nat) : (m.setFld off lo w x).beat = m.beat := rfl
@[simp] theorem setFld_site (off lo w x : Nat) : (m.setFld off lo w x).site = m.site := rfl
@[simp] theorem setFld_gov (off lo w x : Nat) : (m.setFld off lo w x).gov = m.gov := rfl
@[simp] theorem setFld_lean (off lo w x : Nat) : (m.setFld off lo w x).lean = m.lean := rfl
@[simp] theorem setFld_save (off lo w x : Nat) : (m.setFld off lo w x).save = m.save := rfl
@[simp] theorem setFld_sched (off lo w x : Nat) : (m.setFld off lo w x).sched = m.sched := rfl
@[simp] theorem setFld_dies (off lo w x : Nat) : (m.setFld off lo w x).dies = m.dies := rfl
@[simp] theorem setFld_oxen (off lo w x : Nat) : (m.setFld off lo w x).oxen = m.oxen := rfl
@[simp] theorem setFld_hens (off lo w x : Nat) : (m.setFld off lo w x).hens = m.hens := rfl
@[simp] theorem setFld_collies (off lo w x : Nat) : (m.setFld off lo w x).collies = m.collies := rfl
@[simp] theorem setFld_syncs (off lo w x : Nat) : (m.setFld off lo w x).syncs = m.syncs := rfl
@[simp] theorem setFld_mules (off lo w x : Nat) : (m.setFld off lo w x).mules = m.mules := rfl
@[simp] theorem setFld_fm (off lo w x : Nat) : (m.setFld off lo w x).fm = m.fm := rfl
@[simp] theorem setFld_fmPoison (off lo w x : Nat) : (m.setFld off lo w x).fmPoison = m.fmPoison := rfl
@[simp] theorem setFld_fmUpset (off lo w x : Nat) : (m.setFld off lo w x).fmUpset = m.fmUpset := rfl
@[simp] theorem setFld_hbm (off lo w x : Nat) : (m.setFld off lo w x).hbm = m.hbm := rfl
@[simp] theorem setFld_hbmPoison (off lo w x : Nat) : (m.setFld off lo w x).hbmPoison = m.hbmPoison := rfl
@[simp] theorem setFld_hbms (off lo w x : Nat) : (m.setFld off lo w x).hbms = m.hbms := rfl
@[simp] theorem setFld_coh (off lo w x : Nat) : (m.setFld off lo w x).coh = m.coh := rfl
@[simp] theorem setFld_tier (off lo w x : Nat) : (m.setFld off lo w x).tier = m.tier := rfl
@[simp] theorem setFld_links (off lo w x : Nat) : (m.setFld off lo w x).links = m.links := rfl
@[simp] theorem setFld_herd (off lo w x : Nat) : (m.setFld off lo w x).herd = m.herd := rfl
@[simp] theorem setFld_host (off lo w x : Nat) : (m.setFld off lo w x).host = m.host := rfl
@[simp] theorem setFld_acores (off lo w x : Nat) : (m.setFld off lo w x).acores = m.acores := rfl
@[simp] theorem setFld_boot (off lo w x : Nat) : (m.setFld off lo w x).boot = m.boot := rfl
@[simp] theorem setFld_goose (off lo w x : Nat) : (m.setFld off lo w x).goose = m.goose := rfl
@[simp] theorem setFld_sec (off lo w x : Nat) : (m.setFld off lo w x).sec = m.sec := rfl
@[simp] theorem setFld_tels (off lo w x : Nat) : (m.setFld off lo w x).tels = m.tels := rfl
@[simp] theorem setFld_mbx (off lo w x : Nat) : (m.setFld off lo w x).mbx = m.mbx := rfl
@[simp] theorem setFld_latches (off lo w x : Nat) : (m.setFld off lo w x).latches = m.latches := rfl
@[simp] theorem setFld_fused (off lo w x : Nat) : (m.setFld off lo w x).fused = m.fused := rfl
@[simp] theorem setFld_temps (off lo w x : Nat) : (m.setFld off lo w x).temps = m.temps := rfl
@[simp] theorem setFld_blows (off lo w x : Nat) : (m.setFld off lo w x).blows = m.blows := rfl
@[simp] theorem setFld_free (off lo w x : Nat) : (m.setFld off lo w x).free = m.free := rfl
@[simp] theorem die_setFld (off lo w x : Nat) (l : Nat) : (m.setFld off lo w x).die l = m.die l := rfl
@[simp] theorem ox_setFld (off lo w x : Nat) (l : Nat) : (m.setFld off lo w x).ox l = m.ox l := rfl
@[simp] theorem hen_setFld (off lo w x : Nat) (l : Nat) : (m.setFld off lo w x).hen l = m.hen l := rfl
@[simp] theorem collie_setFld (off lo w x : Nat) (l : Nat) : (m.setFld off lo w x).collie l = m.collie l := rfl
@[simp] theorem sync_setFld (off lo w x : Nat) (l : Nat) : (m.setFld off lo w x).sync l = m.sync l := rfl
@[simp] theorem mule_setFld (off lo w x : Nat) (l : Nat) : (m.setFld off lo w x).mule l = m.mule l := rfl
@[simp] theorem hbmc_setFld (off lo w x : Nat) (l : Nat) : (m.setFld off lo w x).hbmc l = m.hbmc l := rfl
@[simp] theorem slice_setFld (off lo w x : Nat) (l : Nat) : (m.setFld off lo w x).slice l = m.slice l := rfl
@[simp] theorem link_setFld (off lo w x : Nat) (l : Nat) : (m.setFld off lo w x).link l = m.link l := rfl
@[simp] theorem ring_setFld (off lo w x : Nat) (l : Nat) : (m.setFld off lo w x).ring l = m.ring l := rfl
@[simp] theorem core_setFld (off lo w x : Nat) (l : Nat) : (m.setFld off lo w x).core l = m.core l := rfl
@[simp] theorem tel_setFld (off lo w x : Nat) (l : Nat) : (m.setFld off lo w x).tel l = m.tel l := rfl
@[simp] theorem mailbox_setFld (off lo w x : Nat) (l : Nat) : (m.setFld off lo w x).mailbox l = m.mailbox l := rfl
@[simp] theorem pageOf_setFld (off lo w x : Nat) (l : Nat) : (m.setFld off lo w x).pageOf l = m.pageOf l := rfl

/-! ### count -/

@[simp] theorem count_now (off : Nat) (hi : Bool) : (m.count off hi).now = m.now := rfl
@[simp] theorem count_out (off : Nat) (hi : Bool) : (m.count off hi).out = m.out := rfl
@[simp] theorem count_beat (off : Nat) (hi : Bool) : (m.count off hi).beat = m.beat := rfl
@[simp] theorem count_site (off : Nat) (hi : Bool) : (m.count off hi).site = m.site := rfl
@[simp] theorem count_gov (off : Nat) (hi : Bool) : (m.count off hi).gov = m.gov := rfl
@[simp] theorem count_lean (off : Nat) (hi : Bool) : (m.count off hi).lean = m.lean := rfl
@[simp] theorem count_save (off : Nat) (hi : Bool) : (m.count off hi).save = m.save := rfl
@[simp] theorem count_sched (off : Nat) (hi : Bool) : (m.count off hi).sched = m.sched := rfl
@[simp] theorem count_dies (off : Nat) (hi : Bool) : (m.count off hi).dies = m.dies := rfl
@[simp] theorem count_oxen (off : Nat) (hi : Bool) : (m.count off hi).oxen = m.oxen := rfl
@[simp] theorem count_hens (off : Nat) (hi : Bool) : (m.count off hi).hens = m.hens := rfl
@[simp] theorem count_collies (off : Nat) (hi : Bool) : (m.count off hi).collies = m.collies := rfl
@[simp] theorem count_syncs (off : Nat) (hi : Bool) : (m.count off hi).syncs = m.syncs := rfl
@[simp] theorem count_mules (off : Nat) (hi : Bool) : (m.count off hi).mules = m.mules := rfl
@[simp] theorem count_fm (off : Nat) (hi : Bool) : (m.count off hi).fm = m.fm := rfl
@[simp] theorem count_fmPoison (off : Nat) (hi : Bool) : (m.count off hi).fmPoison = m.fmPoison := rfl
@[simp] theorem count_fmUpset (off : Nat) (hi : Bool) : (m.count off hi).fmUpset = m.fmUpset := rfl
@[simp] theorem count_hbm (off : Nat) (hi : Bool) : (m.count off hi).hbm = m.hbm := rfl
@[simp] theorem count_hbmPoison (off : Nat) (hi : Bool) : (m.count off hi).hbmPoison = m.hbmPoison := rfl
@[simp] theorem count_hbms (off : Nat) (hi : Bool) : (m.count off hi).hbms = m.hbms := rfl
@[simp] theorem count_coh (off : Nat) (hi : Bool) : (m.count off hi).coh = m.coh := rfl
@[simp] theorem count_tier (off : Nat) (hi : Bool) : (m.count off hi).tier = m.tier := rfl
@[simp] theorem count_links (off : Nat) (hi : Bool) : (m.count off hi).links = m.links := rfl
@[simp] theorem count_herd (off : Nat) (hi : Bool) : (m.count off hi).herd = m.herd := rfl
@[simp] theorem count_host (off : Nat) (hi : Bool) : (m.count off hi).host = m.host := rfl
@[simp] theorem count_acores (off : Nat) (hi : Bool) : (m.count off hi).acores = m.acores := rfl
@[simp] theorem count_boot (off : Nat) (hi : Bool) : (m.count off hi).boot = m.boot := rfl
@[simp] theorem count_goose (off : Nat) (hi : Bool) : (m.count off hi).goose = m.goose := rfl
@[simp] theorem count_sec (off : Nat) (hi : Bool) : (m.count off hi).sec = m.sec := rfl
@[simp] theorem count_tels (off : Nat) (hi : Bool) : (m.count off hi).tels = m.tels := rfl
@[simp] theorem count_mbx (off : Nat) (hi : Bool) : (m.count off hi).mbx = m.mbx := rfl
@[simp] theorem count_latches (off : Nat) (hi : Bool) : (m.count off hi).latches = m.latches := rfl
@[simp] theorem count_fused (off : Nat) (hi : Bool) : (m.count off hi).fused = m.fused := rfl
@[simp] theorem count_temps (off : Nat) (hi : Bool) : (m.count off hi).temps = m.temps := rfl
@[simp] theorem count_blows (off : Nat) (hi : Bool) : (m.count off hi).blows = m.blows := rfl
@[simp] theorem count_free (off : Nat) (hi : Bool) : (m.count off hi).free = m.free := rfl
@[simp] theorem die_count (off : Nat) (hi : Bool) (l : Nat) : (m.count off hi).die l = m.die l := rfl
@[simp] theorem ox_count (off : Nat) (hi : Bool) (l : Nat) : (m.count off hi).ox l = m.ox l := rfl
@[simp] theorem hen_count (off : Nat) (hi : Bool) (l : Nat) : (m.count off hi).hen l = m.hen l := rfl
@[simp] theorem collie_count (off : Nat) (hi : Bool) (l : Nat) : (m.count off hi).collie l = m.collie l := rfl
@[simp] theorem sync_count (off : Nat) (hi : Bool) (l : Nat) : (m.count off hi).sync l = m.sync l := rfl
@[simp] theorem mule_count (off : Nat) (hi : Bool) (l : Nat) : (m.count off hi).mule l = m.mule l := rfl
@[simp] theorem hbmc_count (off : Nat) (hi : Bool) (l : Nat) : (m.count off hi).hbmc l = m.hbmc l := rfl
@[simp] theorem slice_count (off : Nat) (hi : Bool) (l : Nat) : (m.count off hi).slice l = m.slice l := rfl
@[simp] theorem link_count (off : Nat) (hi : Bool) (l : Nat) : (m.count off hi).link l = m.link l := rfl
@[simp] theorem ring_count (off : Nat) (hi : Bool) (l : Nat) : (m.count off hi).ring l = m.ring l := rfl
@[simp] theorem core_count (off : Nat) (hi : Bool) (l : Nat) : (m.count off hi).core l = m.core l := rfl
@[simp] theorem tel_count (off : Nat) (hi : Bool) (l : Nat) : (m.count off hi).tel l = m.tel l := rfl
@[simp] theorem mailbox_count (off : Nat) (hi : Bool) (l : Nat) : (m.count off hi).mailbox l = m.mailbox l := rfl
@[simp] theorem pageOf_count (off : Nat) (hi : Bool) (l : Nat) : (m.count off hi).pageOf l = m.pageOf l := rfl

/-! ### countN -/

@[simp] theorem countN_now (off : Nat) (hi : Bool) (n : Nat) : (m.countN off hi n).now = m.now := rfl
@[simp] theorem countN_out (off : Nat) (hi : Bool) (n : Nat) : (m.countN off hi n).out = m.out := rfl
@[simp] theorem countN_beat (off : Nat) (hi : Bool) (n : Nat) : (m.countN off hi n).beat = m.beat := rfl
@[simp] theorem countN_site (off : Nat) (hi : Bool) (n : Nat) : (m.countN off hi n).site = m.site := rfl
@[simp] theorem countN_gov (off : Nat) (hi : Bool) (n : Nat) : (m.countN off hi n).gov = m.gov := rfl
@[simp] theorem countN_lean (off : Nat) (hi : Bool) (n : Nat) : (m.countN off hi n).lean = m.lean := rfl
@[simp] theorem countN_save (off : Nat) (hi : Bool) (n : Nat) : (m.countN off hi n).save = m.save := rfl
@[simp] theorem countN_sched (off : Nat) (hi : Bool) (n : Nat) : (m.countN off hi n).sched = m.sched := rfl
@[simp] theorem countN_dies (off : Nat) (hi : Bool) (n : Nat) : (m.countN off hi n).dies = m.dies := rfl
@[simp] theorem countN_oxen (off : Nat) (hi : Bool) (n : Nat) : (m.countN off hi n).oxen = m.oxen := rfl
@[simp] theorem countN_hens (off : Nat) (hi : Bool) (n : Nat) : (m.countN off hi n).hens = m.hens := rfl
@[simp] theorem countN_collies (off : Nat) (hi : Bool) (n : Nat) : (m.countN off hi n).collies = m.collies := rfl
@[simp] theorem countN_syncs (off : Nat) (hi : Bool) (n : Nat) : (m.countN off hi n).syncs = m.syncs := rfl
@[simp] theorem countN_mules (off : Nat) (hi : Bool) (n : Nat) : (m.countN off hi n).mules = m.mules := rfl
@[simp] theorem countN_fm (off : Nat) (hi : Bool) (n : Nat) : (m.countN off hi n).fm = m.fm := rfl
@[simp] theorem countN_fmPoison (off : Nat) (hi : Bool) (n : Nat) : (m.countN off hi n).fmPoison = m.fmPoison := rfl
@[simp] theorem countN_fmUpset (off : Nat) (hi : Bool) (n : Nat) : (m.countN off hi n).fmUpset = m.fmUpset := rfl
@[simp] theorem countN_hbm (off : Nat) (hi : Bool) (n : Nat) : (m.countN off hi n).hbm = m.hbm := rfl
@[simp] theorem countN_hbmPoison (off : Nat) (hi : Bool) (n : Nat) : (m.countN off hi n).hbmPoison = m.hbmPoison := rfl
@[simp] theorem countN_hbms (off : Nat) (hi : Bool) (n : Nat) : (m.countN off hi n).hbms = m.hbms := rfl
@[simp] theorem countN_coh (off : Nat) (hi : Bool) (n : Nat) : (m.countN off hi n).coh = m.coh := rfl
@[simp] theorem countN_tier (off : Nat) (hi : Bool) (n : Nat) : (m.countN off hi n).tier = m.tier := rfl
@[simp] theorem countN_links (off : Nat) (hi : Bool) (n : Nat) : (m.countN off hi n).links = m.links := rfl
@[simp] theorem countN_herd (off : Nat) (hi : Bool) (n : Nat) : (m.countN off hi n).herd = m.herd := rfl
@[simp] theorem countN_host (off : Nat) (hi : Bool) (n : Nat) : (m.countN off hi n).host = m.host := rfl
@[simp] theorem countN_acores (off : Nat) (hi : Bool) (n : Nat) : (m.countN off hi n).acores = m.acores := rfl
@[simp] theorem countN_boot (off : Nat) (hi : Bool) (n : Nat) : (m.countN off hi n).boot = m.boot := rfl
@[simp] theorem countN_goose (off : Nat) (hi : Bool) (n : Nat) : (m.countN off hi n).goose = m.goose := rfl
@[simp] theorem countN_sec (off : Nat) (hi : Bool) (n : Nat) : (m.countN off hi n).sec = m.sec := rfl
@[simp] theorem countN_tels (off : Nat) (hi : Bool) (n : Nat) : (m.countN off hi n).tels = m.tels := rfl
@[simp] theorem countN_mbx (off : Nat) (hi : Bool) (n : Nat) : (m.countN off hi n).mbx = m.mbx := rfl
@[simp] theorem countN_latches (off : Nat) (hi : Bool) (n : Nat) : (m.countN off hi n).latches = m.latches := rfl
@[simp] theorem countN_fused (off : Nat) (hi : Bool) (n : Nat) : (m.countN off hi n).fused = m.fused := rfl
@[simp] theorem countN_temps (off : Nat) (hi : Bool) (n : Nat) : (m.countN off hi n).temps = m.temps := rfl
@[simp] theorem countN_blows (off : Nat) (hi : Bool) (n : Nat) : (m.countN off hi n).blows = m.blows := rfl
@[simp] theorem countN_free (off : Nat) (hi : Bool) (n : Nat) : (m.countN off hi n).free = m.free := rfl
@[simp] theorem die_countN (off : Nat) (hi : Bool) (n : Nat) (l : Nat) : (m.countN off hi n).die l = m.die l := rfl
@[simp] theorem ox_countN (off : Nat) (hi : Bool) (n : Nat) (l : Nat) : (m.countN off hi n).ox l = m.ox l := rfl
@[simp] theorem hen_countN (off : Nat) (hi : Bool) (n : Nat) (l : Nat) : (m.countN off hi n).hen l = m.hen l := rfl
@[simp] theorem collie_countN (off : Nat) (hi : Bool) (n : Nat) (l : Nat) : (m.countN off hi n).collie l = m.collie l := rfl
@[simp] theorem sync_countN (off : Nat) (hi : Bool) (n : Nat) (l : Nat) : (m.countN off hi n).sync l = m.sync l := rfl
@[simp] theorem mule_countN (off : Nat) (hi : Bool) (n : Nat) (l : Nat) : (m.countN off hi n).mule l = m.mule l := rfl
@[simp] theorem hbmc_countN (off : Nat) (hi : Bool) (n : Nat) (l : Nat) : (m.countN off hi n).hbmc l = m.hbmc l := rfl
@[simp] theorem slice_countN (off : Nat) (hi : Bool) (n : Nat) (l : Nat) : (m.countN off hi n).slice l = m.slice l := rfl
@[simp] theorem link_countN (off : Nat) (hi : Bool) (n : Nat) (l : Nat) : (m.countN off hi n).link l = m.link l := rfl
@[simp] theorem ring_countN (off : Nat) (hi : Bool) (n : Nat) (l : Nat) : (m.countN off hi n).ring l = m.ring l := rfl
@[simp] theorem core_countN (off : Nat) (hi : Bool) (n : Nat) (l : Nat) : (m.countN off hi n).core l = m.core l := rfl
@[simp] theorem tel_countN (off : Nat) (hi : Bool) (n : Nat) (l : Nat) : (m.countN off hi n).tel l = m.tel l := rfl
@[simp] theorem mailbox_countN (off : Nat) (hi : Bool) (n : Nat) (l : Nat) : (m.countN off hi n).mailbox l = m.mailbox l := rfl
@[simp] theorem pageOf_countN (off : Nat) (hi : Bool) (n : Nat) (l : Nat) : (m.countN off hi n).pageOf l = m.pageOf l := rfl

/-! ### badWrite -/

theorem badWrite_eq (off : Nat) : m.badWrite off = m.count (blockBase off + 0xFF0C) false := rfl

@[simp] theorem badWrite_now (off : Nat) : (m.badWrite off).now = m.now := by rw [badWrite_eq, count_now]
@[simp] theorem badWrite_out (off : Nat) : (m.badWrite off).out = m.out := by rw [badWrite_eq, count_out]
@[simp] theorem badWrite_beat (off : Nat) : (m.badWrite off).beat = m.beat := by rw [badWrite_eq, count_beat]
@[simp] theorem badWrite_site (off : Nat) : (m.badWrite off).site = m.site := by rw [badWrite_eq, count_site]
@[simp] theorem badWrite_gov (off : Nat) : (m.badWrite off).gov = m.gov := by rw [badWrite_eq, count_gov]
@[simp] theorem badWrite_lean (off : Nat) : (m.badWrite off).lean = m.lean := by rw [badWrite_eq, count_lean]
@[simp] theorem badWrite_save (off : Nat) : (m.badWrite off).save = m.save := by rw [badWrite_eq, count_save]
@[simp] theorem badWrite_sched (off : Nat) : (m.badWrite off).sched = m.sched := by rw [badWrite_eq, count_sched]
@[simp] theorem badWrite_dies (off : Nat) : (m.badWrite off).dies = m.dies := by rw [badWrite_eq, count_dies]
@[simp] theorem badWrite_oxen (off : Nat) : (m.badWrite off).oxen = m.oxen := by rw [badWrite_eq, count_oxen]
@[simp] theorem badWrite_hens (off : Nat) : (m.badWrite off).hens = m.hens := by rw [badWrite_eq, count_hens]
@[simp] theorem badWrite_collies (off : Nat) : (m.badWrite off).collies = m.collies := by rw [badWrite_eq, count_collies]
@[simp] theorem badWrite_syncs (off : Nat) : (m.badWrite off).syncs = m.syncs := by rw [badWrite_eq, count_syncs]
@[simp] theorem badWrite_mules (off : Nat) : (m.badWrite off).mules = m.mules := by rw [badWrite_eq, count_mules]
@[simp] theorem badWrite_fm (off : Nat) : (m.badWrite off).fm = m.fm := by rw [badWrite_eq, count_fm]
@[simp] theorem badWrite_fmPoison (off : Nat) : (m.badWrite off).fmPoison = m.fmPoison := by rw [badWrite_eq, count_fmPoison]
@[simp] theorem badWrite_fmUpset (off : Nat) : (m.badWrite off).fmUpset = m.fmUpset := by rw [badWrite_eq, count_fmUpset]
@[simp] theorem badWrite_hbm (off : Nat) : (m.badWrite off).hbm = m.hbm := by rw [badWrite_eq, count_hbm]
@[simp] theorem badWrite_hbmPoison (off : Nat) : (m.badWrite off).hbmPoison = m.hbmPoison := by rw [badWrite_eq, count_hbmPoison]
@[simp] theorem badWrite_hbms (off : Nat) : (m.badWrite off).hbms = m.hbms := by rw [badWrite_eq, count_hbms]
@[simp] theorem badWrite_coh (off : Nat) : (m.badWrite off).coh = m.coh := by rw [badWrite_eq, count_coh]
@[simp] theorem badWrite_tier (off : Nat) : (m.badWrite off).tier = m.tier := by rw [badWrite_eq, count_tier]
@[simp] theorem badWrite_links (off : Nat) : (m.badWrite off).links = m.links := by rw [badWrite_eq, count_links]
@[simp] theorem badWrite_herd (off : Nat) : (m.badWrite off).herd = m.herd := by rw [badWrite_eq, count_herd]
@[simp] theorem badWrite_host (off : Nat) : (m.badWrite off).host = m.host := by rw [badWrite_eq, count_host]
@[simp] theorem badWrite_acores (off : Nat) : (m.badWrite off).acores = m.acores := by rw [badWrite_eq, count_acores]
@[simp] theorem badWrite_boot (off : Nat) : (m.badWrite off).boot = m.boot := by rw [badWrite_eq, count_boot]
@[simp] theorem badWrite_goose (off : Nat) : (m.badWrite off).goose = m.goose := by rw [badWrite_eq, count_goose]
@[simp] theorem badWrite_sec (off : Nat) : (m.badWrite off).sec = m.sec := by rw [badWrite_eq, count_sec]
@[simp] theorem badWrite_tels (off : Nat) : (m.badWrite off).tels = m.tels := by rw [badWrite_eq, count_tels]
@[simp] theorem badWrite_mbx (off : Nat) : (m.badWrite off).mbx = m.mbx := by rw [badWrite_eq, count_mbx]
@[simp] theorem badWrite_latches (off : Nat) : (m.badWrite off).latches = m.latches := by rw [badWrite_eq, count_latches]
@[simp] theorem badWrite_fused (off : Nat) : (m.badWrite off).fused = m.fused := by rw [badWrite_eq, count_fused]
@[simp] theorem badWrite_temps (off : Nat) : (m.badWrite off).temps = m.temps := by rw [badWrite_eq, count_temps]
@[simp] theorem badWrite_blows (off : Nat) : (m.badWrite off).blows = m.blows := by rw [badWrite_eq, count_blows]
@[simp] theorem badWrite_free (off : Nat) : (m.badWrite off).free = m.free := by rw [badWrite_eq, count_free]
@[simp] theorem die_badWrite (off : Nat) (l : Nat) : (m.badWrite off).die l = m.die l := by rw [badWrite_eq, die_count]
@[simp] theorem ox_badWrite (off : Nat) (l : Nat) : (m.badWrite off).ox l = m.ox l := by rw [badWrite_eq, ox_count]
@[simp] theorem hen_badWrite (off : Nat) (l : Nat) : (m.badWrite off).hen l = m.hen l := by rw [badWrite_eq, hen_count]
@[simp] theorem collie_badWrite (off : Nat) (l : Nat) : (m.badWrite off).collie l = m.collie l := by rw [badWrite_eq, collie_count]
@[simp] theorem sync_badWrite (off : Nat) (l : Nat) : (m.badWrite off).sync l = m.sync l := by rw [badWrite_eq, sync_count]
@[simp] theorem mule_badWrite (off : Nat) (l : Nat) : (m.badWrite off).mule l = m.mule l := by rw [badWrite_eq, mule_count]
@[simp] theorem hbmc_badWrite (off : Nat) (l : Nat) : (m.badWrite off).hbmc l = m.hbmc l := by rw [badWrite_eq, hbmc_count]
@[simp] theorem slice_badWrite (off : Nat) (l : Nat) : (m.badWrite off).slice l = m.slice l := by rw [badWrite_eq, slice_count]
@[simp] theorem link_badWrite (off : Nat) (l : Nat) : (m.badWrite off).link l = m.link l := by rw [badWrite_eq, link_count]
@[simp] theorem ring_badWrite (off : Nat) (l : Nat) : (m.badWrite off).ring l = m.ring l := by rw [badWrite_eq, ring_count]
@[simp] theorem core_badWrite (off : Nat) (l : Nat) : (m.badWrite off).core l = m.core l := by rw [badWrite_eq, core_count]
@[simp] theorem tel_badWrite (off : Nat) (l : Nat) : (m.badWrite off).tel l = m.tel l := by rw [badWrite_eq, tel_count]
@[simp] theorem mailbox_badWrite (off : Nat) (l : Nat) : (m.badWrite off).mailbox l = m.mailbox l := by rw [badWrite_eq, mailbox_count]
@[simp] theorem pageOf_badWrite (off : Nat) (l : Nat) : (m.badWrite off).pageOf l = m.pageOf l := by rw [badWrite_eq, pageOf_count]

/-! ### modTier -/

@[simp] theorem modTier_now (f : Tier → Tier) : (m.modTier f).now = m.now := rfl
@[simp] theorem modTier_out (f : Tier → Tier) : (m.modTier f).out = m.out := rfl
@[simp] theorem modTier_regs (f : Tier → Tier) : (m.modTier f).regs = m.regs := rfl
@[simp] theorem modTier_beat (f : Tier → Tier) : (m.modTier f).beat = m.beat := rfl
@[simp] theorem modTier_site (f : Tier → Tier) : (m.modTier f).site = m.site := rfl
@[simp] theorem modTier_gov (f : Tier → Tier) : (m.modTier f).gov = m.gov := rfl
@[simp] theorem modTier_lean (f : Tier → Tier) : (m.modTier f).lean = m.lean := rfl
@[simp] theorem modTier_save (f : Tier → Tier) : (m.modTier f).save = m.save := rfl
@[simp] theorem modTier_sched (f : Tier → Tier) : (m.modTier f).sched = m.sched := rfl
@[simp] theorem modTier_dies (f : Tier → Tier) : (m.modTier f).dies = m.dies := rfl
@[simp] theorem modTier_oxen (f : Tier → Tier) : (m.modTier f).oxen = m.oxen := rfl
@[simp] theorem modTier_hens (f : Tier → Tier) : (m.modTier f).hens = m.hens := rfl
@[simp] theorem modTier_collies (f : Tier → Tier) : (m.modTier f).collies = m.collies := rfl
@[simp] theorem modTier_syncs (f : Tier → Tier) : (m.modTier f).syncs = m.syncs := rfl
@[simp] theorem modTier_mules (f : Tier → Tier) : (m.modTier f).mules = m.mules := rfl
@[simp] theorem modTier_fm (f : Tier → Tier) : (m.modTier f).fm = m.fm := rfl
@[simp] theorem modTier_fmPoison (f : Tier → Tier) : (m.modTier f).fmPoison = m.fmPoison := rfl
@[simp] theorem modTier_fmUpset (f : Tier → Tier) : (m.modTier f).fmUpset = m.fmUpset := rfl
@[simp] theorem modTier_hbm (f : Tier → Tier) : (m.modTier f).hbm = m.hbm := rfl
@[simp] theorem modTier_hbmPoison (f : Tier → Tier) : (m.modTier f).hbmPoison = m.hbmPoison := rfl
@[simp] theorem modTier_hbms (f : Tier → Tier) : (m.modTier f).hbms = m.hbms := rfl
@[simp] theorem modTier_coh (f : Tier → Tier) : (m.modTier f).coh = m.coh := rfl
@[simp] theorem modTier_links (f : Tier → Tier) : (m.modTier f).links = m.links := rfl
@[simp] theorem modTier_herd (f : Tier → Tier) : (m.modTier f).herd = m.herd := rfl
@[simp] theorem modTier_host (f : Tier → Tier) : (m.modTier f).host = m.host := rfl
@[simp] theorem modTier_acores (f : Tier → Tier) : (m.modTier f).acores = m.acores := rfl
@[simp] theorem modTier_boot (f : Tier → Tier) : (m.modTier f).boot = m.boot := rfl
@[simp] theorem modTier_goose (f : Tier → Tier) : (m.modTier f).goose = m.goose := rfl
@[simp] theorem modTier_sec (f : Tier → Tier) : (m.modTier f).sec = m.sec := rfl
@[simp] theorem modTier_tels (f : Tier → Tier) : (m.modTier f).tels = m.tels := rfl
@[simp] theorem modTier_mbx (f : Tier → Tier) : (m.modTier f).mbx = m.mbx := rfl
@[simp] theorem modTier_latches (f : Tier → Tier) : (m.modTier f).latches = m.latches := rfl
@[simp] theorem modTier_fused (f : Tier → Tier) : (m.modTier f).fused = m.fused := rfl
@[simp] theorem modTier_temps (f : Tier → Tier) : (m.modTier f).temps = m.temps := rfl
@[simp] theorem modTier_blows (f : Tier → Tier) : (m.modTier f).blows = m.blows := rfl
@[simp] theorem modTier_free (f : Tier → Tier) : (m.modTier f).free = m.free := rfl
@[simp] theorem modTier_tier (f : Tier → Tier) : (m.modTier f).tier = f m.tier := rfl
@[simp] theorem die_modTier (f : Tier → Tier) (l : Nat) : (m.modTier f).die l = m.die l := rfl
@[simp] theorem ox_modTier (f : Tier → Tier) (l : Nat) : (m.modTier f).ox l = m.ox l := rfl
@[simp] theorem hen_modTier (f : Tier → Tier) (l : Nat) : (m.modTier f).hen l = m.hen l := rfl
@[simp] theorem collie_modTier (f : Tier → Tier) (l : Nat) : (m.modTier f).collie l = m.collie l := rfl
@[simp] theorem sync_modTier (f : Tier → Tier) (l : Nat) : (m.modTier f).sync l = m.sync l := rfl
@[simp] theorem mule_modTier (f : Tier → Tier) (l : Nat) : (m.modTier f).mule l = m.mule l := rfl
@[simp] theorem hbmc_modTier (f : Tier → Tier) (l : Nat) : (m.modTier f).hbmc l = m.hbmc l := rfl
@[simp] theorem slice_modTier (f : Tier → Tier) (l : Nat) : (m.modTier f).slice l = m.slice l := rfl
@[simp] theorem link_modTier (f : Tier → Tier) (l : Nat) : (m.modTier f).link l = m.link l := rfl
@[simp] theorem ring_modTier (f : Tier → Tier) (l : Nat) : (m.modTier f).ring l = m.ring l := rfl
@[simp] theorem core_modTier (f : Tier → Tier) (l : Nat) : (m.modTier f).core l = m.core l := rfl
@[simp] theorem tel_modTier (f : Tier → Tier) (l : Nat) : (m.modTier f).tel l = m.tel l := rfl
@[simp] theorem mailbox_modTier (f : Tier → Tier) (l : Nat) : (m.modTier f).mailbox l = m.mailbox l := rfl
@[simp] theorem reg_modTier (f : Tier → Tier) (l : Nat) : (m.modTier f).reg l = m.reg l := rfl

/-! ### modHost -/

@[simp] theorem modHost_now (f : HostPort → HostPort) : (m.modHost f).now = m.now := rfl
@[simp] theorem modHost_out (f : HostPort → HostPort) : (m.modHost f).out = m.out := rfl
@[simp] theorem modHost_regs (f : HostPort → HostPort) : (m.modHost f).regs = m.regs := rfl
@[simp] theorem modHost_beat (f : HostPort → HostPort) : (m.modHost f).beat = m.beat := rfl
@[simp] theorem modHost_site (f : HostPort → HostPort) : (m.modHost f).site = m.site := rfl
@[simp] theorem modHost_gov (f : HostPort → HostPort) : (m.modHost f).gov = m.gov := rfl
@[simp] theorem modHost_lean (f : HostPort → HostPort) : (m.modHost f).lean = m.lean := rfl
@[simp] theorem modHost_save (f : HostPort → HostPort) : (m.modHost f).save = m.save := rfl
@[simp] theorem modHost_sched (f : HostPort → HostPort) : (m.modHost f).sched = m.sched := rfl
@[simp] theorem modHost_dies (f : HostPort → HostPort) : (m.modHost f).dies = m.dies := rfl
@[simp] theorem modHost_oxen (f : HostPort → HostPort) : (m.modHost f).oxen = m.oxen := rfl
@[simp] theorem modHost_hens (f : HostPort → HostPort) : (m.modHost f).hens = m.hens := rfl
@[simp] theorem modHost_collies (f : HostPort → HostPort) : (m.modHost f).collies = m.collies := rfl
@[simp] theorem modHost_syncs (f : HostPort → HostPort) : (m.modHost f).syncs = m.syncs := rfl
@[simp] theorem modHost_mules (f : HostPort → HostPort) : (m.modHost f).mules = m.mules := rfl
@[simp] theorem modHost_fm (f : HostPort → HostPort) : (m.modHost f).fm = m.fm := rfl
@[simp] theorem modHost_fmPoison (f : HostPort → HostPort) : (m.modHost f).fmPoison = m.fmPoison := rfl
@[simp] theorem modHost_fmUpset (f : HostPort → HostPort) : (m.modHost f).fmUpset = m.fmUpset := rfl
@[simp] theorem modHost_hbm (f : HostPort → HostPort) : (m.modHost f).hbm = m.hbm := rfl
@[simp] theorem modHost_hbmPoison (f : HostPort → HostPort) : (m.modHost f).hbmPoison = m.hbmPoison := rfl
@[simp] theorem modHost_hbms (f : HostPort → HostPort) : (m.modHost f).hbms = m.hbms := rfl
@[simp] theorem modHost_coh (f : HostPort → HostPort) : (m.modHost f).coh = m.coh := rfl
@[simp] theorem modHost_tier (f : HostPort → HostPort) : (m.modHost f).tier = m.tier := rfl
@[simp] theorem modHost_links (f : HostPort → HostPort) : (m.modHost f).links = m.links := rfl
@[simp] theorem modHost_herd (f : HostPort → HostPort) : (m.modHost f).herd = m.herd := rfl
@[simp] theorem modHost_acores (f : HostPort → HostPort) : (m.modHost f).acores = m.acores := rfl
@[simp] theorem modHost_boot (f : HostPort → HostPort) : (m.modHost f).boot = m.boot := rfl
@[simp] theorem modHost_goose (f : HostPort → HostPort) : (m.modHost f).goose = m.goose := rfl
@[simp] theorem modHost_sec (f : HostPort → HostPort) : (m.modHost f).sec = m.sec := rfl
@[simp] theorem modHost_tels (f : HostPort → HostPort) : (m.modHost f).tels = m.tels := rfl
@[simp] theorem modHost_mbx (f : HostPort → HostPort) : (m.modHost f).mbx = m.mbx := rfl
@[simp] theorem modHost_latches (f : HostPort → HostPort) : (m.modHost f).latches = m.latches := rfl
@[simp] theorem modHost_fused (f : HostPort → HostPort) : (m.modHost f).fused = m.fused := rfl
@[simp] theorem modHost_temps (f : HostPort → HostPort) : (m.modHost f).temps = m.temps := rfl
@[simp] theorem modHost_blows (f : HostPort → HostPort) : (m.modHost f).blows = m.blows := rfl
@[simp] theorem modHost_free (f : HostPort → HostPort) : (m.modHost f).free = m.free := rfl
@[simp] theorem modHost_host (f : HostPort → HostPort) : (m.modHost f).host = f m.host := rfl
@[simp] theorem die_modHost (f : HostPort → HostPort) (l : Nat) : (m.modHost f).die l = m.die l := rfl
@[simp] theorem ox_modHost (f : HostPort → HostPort) (l : Nat) : (m.modHost f).ox l = m.ox l := rfl
@[simp] theorem hen_modHost (f : HostPort → HostPort) (l : Nat) : (m.modHost f).hen l = m.hen l := rfl
@[simp] theorem collie_modHost (f : HostPort → HostPort) (l : Nat) : (m.modHost f).collie l = m.collie l := rfl
@[simp] theorem sync_modHost (f : HostPort → HostPort) (l : Nat) : (m.modHost f).sync l = m.sync l := rfl
@[simp] theorem mule_modHost (f : HostPort → HostPort) (l : Nat) : (m.modHost f).mule l = m.mule l := rfl
@[simp] theorem hbmc_modHost (f : HostPort → HostPort) (l : Nat) : (m.modHost f).hbmc l = m.hbmc l := rfl
@[simp] theorem slice_modHost (f : HostPort → HostPort) (l : Nat) : (m.modHost f).slice l = m.slice l := rfl
@[simp] theorem link_modHost (f : HostPort → HostPort) (l : Nat) : (m.modHost f).link l = m.link l := rfl
@[simp] theorem core_modHost (f : HostPort → HostPort) (l : Nat) : (m.modHost f).core l = m.core l := rfl
@[simp] theorem tel_modHost (f : HostPort → HostPort) (l : Nat) : (m.modHost f).tel l = m.tel l := rfl
@[simp] theorem mailbox_modHost (f : HostPort → HostPort) (l : Nat) : (m.modHost f).mailbox l = m.mailbox l := rfl
@[simp] theorem pageOf_modHost (f : HostPort → HostPort) (l : Nat) : (m.modHost f).pageOf l = m.pageOf l := rfl
@[simp] theorem reg_modHost (f : HostPort → HostPort) (l : Nat) : (m.modHost f).reg l = m.reg l := rfl

/-! ### modBoot -/

@[simp] theorem modBoot_now (f : Boot → Boot) : (m.modBoot f).now = m.now := rfl
@[simp] theorem modBoot_out (f : Boot → Boot) : (m.modBoot f).out = m.out := rfl
@[simp] theorem modBoot_regs (f : Boot → Boot) : (m.modBoot f).regs = m.regs := rfl
@[simp] theorem modBoot_beat (f : Boot → Boot) : (m.modBoot f).beat = m.beat := rfl
@[simp] theorem modBoot_site (f : Boot → Boot) : (m.modBoot f).site = m.site := rfl
@[simp] theorem modBoot_gov (f : Boot → Boot) : (m.modBoot f).gov = m.gov := rfl
@[simp] theorem modBoot_lean (f : Boot → Boot) : (m.modBoot f).lean = m.lean := rfl
@[simp] theorem modBoot_save (f : Boot → Boot) : (m.modBoot f).save = m.save := rfl
@[simp] theorem modBoot_sched (f : Boot → Boot) : (m.modBoot f).sched = m.sched := rfl
@[simp] theorem modBoot_dies (f : Boot → Boot) : (m.modBoot f).dies = m.dies := rfl
@[simp] theorem modBoot_oxen (f : Boot → Boot) : (m.modBoot f).oxen = m.oxen := rfl
@[simp] theorem modBoot_hens (f : Boot → Boot) : (m.modBoot f).hens = m.hens := rfl
@[simp] theorem modBoot_collies (f : Boot → Boot) : (m.modBoot f).collies = m.collies := rfl
@[simp] theorem modBoot_syncs (f : Boot → Boot) : (m.modBoot f).syncs = m.syncs := rfl
@[simp] theorem modBoot_mules (f : Boot → Boot) : (m.modBoot f).mules = m.mules := rfl
@[simp] theorem modBoot_fm (f : Boot → Boot) : (m.modBoot f).fm = m.fm := rfl
@[simp] theorem modBoot_fmPoison (f : Boot → Boot) : (m.modBoot f).fmPoison = m.fmPoison := rfl
@[simp] theorem modBoot_fmUpset (f : Boot → Boot) : (m.modBoot f).fmUpset = m.fmUpset := rfl
@[simp] theorem modBoot_hbm (f : Boot → Boot) : (m.modBoot f).hbm = m.hbm := rfl
@[simp] theorem modBoot_hbmPoison (f : Boot → Boot) : (m.modBoot f).hbmPoison = m.hbmPoison := rfl
@[simp] theorem modBoot_hbms (f : Boot → Boot) : (m.modBoot f).hbms = m.hbms := rfl
@[simp] theorem modBoot_coh (f : Boot → Boot) : (m.modBoot f).coh = m.coh := rfl
@[simp] theorem modBoot_tier (f : Boot → Boot) : (m.modBoot f).tier = m.tier := rfl
@[simp] theorem modBoot_links (f : Boot → Boot) : (m.modBoot f).links = m.links := rfl
@[simp] theorem modBoot_herd (f : Boot → Boot) : (m.modBoot f).herd = m.herd := rfl
@[simp] theorem modBoot_host (f : Boot → Boot) : (m.modBoot f).host = m.host := rfl
@[simp] theorem modBoot_acores (f : Boot → Boot) : (m.modBoot f).acores = m.acores := rfl
@[simp] theorem modBoot_goose (f : Boot → Boot) : (m.modBoot f).goose = m.goose := rfl
@[simp] theorem modBoot_sec (f : Boot → Boot) : (m.modBoot f).sec = m.sec := rfl
@[simp] theorem modBoot_tels (f : Boot → Boot) : (m.modBoot f).tels = m.tels := rfl
@[simp] theorem modBoot_mbx (f : Boot → Boot) : (m.modBoot f).mbx = m.mbx := rfl
@[simp] theorem modBoot_latches (f : Boot → Boot) : (m.modBoot f).latches = m.latches := rfl
@[simp] theorem modBoot_fused (f : Boot → Boot) : (m.modBoot f).fused = m.fused := rfl
@[simp] theorem modBoot_temps (f : Boot → Boot) : (m.modBoot f).temps = m.temps := rfl
@[simp] theorem modBoot_blows (f : Boot → Boot) : (m.modBoot f).blows = m.blows := rfl
@[simp] theorem modBoot_free (f : Boot → Boot) : (m.modBoot f).free = m.free := rfl
@[simp] theorem modBoot_boot (f : Boot → Boot) : (m.modBoot f).boot = f m.boot := rfl
@[simp] theorem die_modBoot (f : Boot → Boot) (l : Nat) : (m.modBoot f).die l = m.die l := rfl
@[simp] theorem ox_modBoot (f : Boot → Boot) (l : Nat) : (m.modBoot f).ox l = m.ox l := rfl
@[simp] theorem hen_modBoot (f : Boot → Boot) (l : Nat) : (m.modBoot f).hen l = m.hen l := rfl
@[simp] theorem collie_modBoot (f : Boot → Boot) (l : Nat) : (m.modBoot f).collie l = m.collie l := rfl
@[simp] theorem sync_modBoot (f : Boot → Boot) (l : Nat) : (m.modBoot f).sync l = m.sync l := rfl
@[simp] theorem mule_modBoot (f : Boot → Boot) (l : Nat) : (m.modBoot f).mule l = m.mule l := rfl
@[simp] theorem hbmc_modBoot (f : Boot → Boot) (l : Nat) : (m.modBoot f).hbmc l = m.hbmc l := rfl
@[simp] theorem slice_modBoot (f : Boot → Boot) (l : Nat) : (m.modBoot f).slice l = m.slice l := rfl
@[simp] theorem link_modBoot (f : Boot → Boot) (l : Nat) : (m.modBoot f).link l = m.link l := rfl
@[simp] theorem ring_modBoot (f : Boot → Boot) (l : Nat) : (m.modBoot f).ring l = m.ring l := rfl
@[simp] theorem core_modBoot (f : Boot → Boot) (l : Nat) : (m.modBoot f).core l = m.core l := rfl
@[simp] theorem tel_modBoot (f : Boot → Boot) (l : Nat) : (m.modBoot f).tel l = m.tel l := rfl
@[simp] theorem mailbox_modBoot (f : Boot → Boot) (l : Nat) : (m.modBoot f).mailbox l = m.mailbox l := rfl
@[simp] theorem pageOf_modBoot (f : Boot → Boot) (l : Nat) : (m.modBoot f).pageOf l = m.pageOf l := rfl
@[simp] theorem reg_modBoot (f : Boot → Boot) (l : Nat) : (m.modBoot f).reg l = m.reg l := rfl

/-! ### modCoh -/

@[simp] theorem modCoh_now (f : Coh → Coh) : (m.modCoh f).now = m.now := rfl
@[simp] theorem modCoh_out (f : Coh → Coh) : (m.modCoh f).out = m.out := rfl
@[simp] theorem modCoh_regs (f : Coh → Coh) : (m.modCoh f).regs = m.regs := rfl
@[simp] theorem modCoh_beat (f : Coh → Coh) : (m.modCoh f).beat = m.beat := rfl
@[simp] theorem modCoh_site (f : Coh → Coh) : (m.modCoh f).site = m.site := rfl
@[simp] theorem modCoh_gov (f : Coh → Coh) : (m.modCoh f).gov = m.gov := rfl
@[simp] theorem modCoh_lean (f : Coh → Coh) : (m.modCoh f).lean = m.lean := rfl
@[simp] theorem modCoh_save (f : Coh → Coh) : (m.modCoh f).save = m.save := rfl
@[simp] theorem modCoh_sched (f : Coh → Coh) : (m.modCoh f).sched = m.sched := rfl
@[simp] theorem modCoh_dies (f : Coh → Coh) : (m.modCoh f).dies = m.dies := rfl
@[simp] theorem modCoh_oxen (f : Coh → Coh) : (m.modCoh f).oxen = m.oxen := rfl
@[simp] theorem modCoh_hens (f : Coh → Coh) : (m.modCoh f).hens = m.hens := rfl
@[simp] theorem modCoh_collies (f : Coh → Coh) : (m.modCoh f).collies = m.collies := rfl
@[simp] theorem modCoh_syncs (f : Coh → Coh) : (m.modCoh f).syncs = m.syncs := rfl
@[simp] theorem modCoh_mules (f : Coh → Coh) : (m.modCoh f).mules = m.mules := rfl
@[simp] theorem modCoh_fm (f : Coh → Coh) : (m.modCoh f).fm = m.fm := rfl
@[simp] theorem modCoh_fmPoison (f : Coh → Coh) : (m.modCoh f).fmPoison = m.fmPoison := rfl
@[simp] theorem modCoh_fmUpset (f : Coh → Coh) : (m.modCoh f).fmUpset = m.fmUpset := rfl
@[simp] theorem modCoh_hbm (f : Coh → Coh) : (m.modCoh f).hbm = m.hbm := rfl
@[simp] theorem modCoh_hbmPoison (f : Coh → Coh) : (m.modCoh f).hbmPoison = m.hbmPoison := rfl
@[simp] theorem modCoh_hbms (f : Coh → Coh) : (m.modCoh f).hbms = m.hbms := rfl
@[simp] theorem modCoh_tier (f : Coh → Coh) : (m.modCoh f).tier = m.tier := rfl
@[simp] theorem modCoh_links (f : Coh → Coh) : (m.modCoh f).links = m.links := rfl
@[simp] theorem modCoh_herd (f : Coh → Coh) : (m.modCoh f).herd = m.herd := rfl
@[simp] theorem modCoh_host (f : Coh → Coh) : (m.modCoh f).host = m.host := rfl
@[simp] theorem modCoh_acores (f : Coh → Coh) : (m.modCoh f).acores = m.acores := rfl
@[simp] theorem modCoh_boot (f : Coh → Coh) : (m.modCoh f).boot = m.boot := rfl
@[simp] theorem modCoh_goose (f : Coh → Coh) : (m.modCoh f).goose = m.goose := rfl
@[simp] theorem modCoh_sec (f : Coh → Coh) : (m.modCoh f).sec = m.sec := rfl
@[simp] theorem modCoh_tels (f : Coh → Coh) : (m.modCoh f).tels = m.tels := rfl
@[simp] theorem modCoh_mbx (f : Coh → Coh) : (m.modCoh f).mbx = m.mbx := rfl
@[simp] theorem modCoh_latches (f : Coh → Coh) : (m.modCoh f).latches = m.latches := rfl
@[simp] theorem modCoh_fused (f : Coh → Coh) : (m.modCoh f).fused = m.fused := rfl
@[simp] theorem modCoh_temps (f : Coh → Coh) : (m.modCoh f).temps = m.temps := rfl
@[simp] theorem modCoh_blows (f : Coh → Coh) : (m.modCoh f).blows = m.blows := rfl
@[simp] theorem modCoh_free (f : Coh → Coh) : (m.modCoh f).free = m.free := rfl
@[simp] theorem modCoh_coh (f : Coh → Coh) : (m.modCoh f).coh = f m.coh := rfl
@[simp] theorem die_modCoh (f : Coh → Coh) (l : Nat) : (m.modCoh f).die l = m.die l := rfl
@[simp] theorem ox_modCoh (f : Coh → Coh) (l : Nat) : (m.modCoh f).ox l = m.ox l := rfl
@[simp] theorem hen_modCoh (f : Coh → Coh) (l : Nat) : (m.modCoh f).hen l = m.hen l := rfl
@[simp] theorem collie_modCoh (f : Coh → Coh) (l : Nat) : (m.modCoh f).collie l = m.collie l := rfl
@[simp] theorem sync_modCoh (f : Coh → Coh) (l : Nat) : (m.modCoh f).sync l = m.sync l := rfl
@[simp] theorem mule_modCoh (f : Coh → Coh) (l : Nat) : (m.modCoh f).mule l = m.mule l := rfl
@[simp] theorem hbmc_modCoh (f : Coh → Coh) (l : Nat) : (m.modCoh f).hbmc l = m.hbmc l := rfl
@[simp] theorem link_modCoh (f : Coh → Coh) (l : Nat) : (m.modCoh f).link l = m.link l := rfl
@[simp] theorem ring_modCoh (f : Coh → Coh) (l : Nat) : (m.modCoh f).ring l = m.ring l := rfl
@[simp] theorem core_modCoh (f : Coh → Coh) (l : Nat) : (m.modCoh f).core l = m.core l := rfl
@[simp] theorem tel_modCoh (f : Coh → Coh) (l : Nat) : (m.modCoh f).tel l = m.tel l := rfl
@[simp] theorem mailbox_modCoh (f : Coh → Coh) (l : Nat) : (m.modCoh f).mailbox l = m.mailbox l := rfl
@[simp] theorem pageOf_modCoh (f : Coh → Coh) (l : Nat) : (m.modCoh f).pageOf l = m.pageOf l := rfl
@[simp] theorem reg_modCoh (f : Coh → Coh) (l : Nat) : (m.modCoh f).reg l = m.reg l := rfl

/-! ### modHerd -/

@[simp] theorem modHerd_now (f : Herd → Herd) : (m.modHerd f).now = m.now := rfl
@[simp] theorem modHerd_out (f : Herd → Herd) : (m.modHerd f).out = m.out := rfl
@[simp] theorem modHerd_regs (f : Herd → Herd) : (m.modHerd f).regs = m.regs := rfl
@[simp] theorem modHerd_beat (f : Herd → Herd) : (m.modHerd f).beat = m.beat := rfl
@[simp] theorem modHerd_site (f : Herd → Herd) : (m.modHerd f).site = m.site := rfl
@[simp] theorem modHerd_gov (f : Herd → Herd) : (m.modHerd f).gov = m.gov := rfl
@[simp] theorem modHerd_lean (f : Herd → Herd) : (m.modHerd f).lean = m.lean := rfl
@[simp] theorem modHerd_save (f : Herd → Herd) : (m.modHerd f).save = m.save := rfl
@[simp] theorem modHerd_sched (f : Herd → Herd) : (m.modHerd f).sched = m.sched := rfl
@[simp] theorem modHerd_dies (f : Herd → Herd) : (m.modHerd f).dies = m.dies := rfl
@[simp] theorem modHerd_oxen (f : Herd → Herd) : (m.modHerd f).oxen = m.oxen := rfl
@[simp] theorem modHerd_hens (f : Herd → Herd) : (m.modHerd f).hens = m.hens := rfl
@[simp] theorem modHerd_collies (f : Herd → Herd) : (m.modHerd f).collies = m.collies := rfl
@[simp] theorem modHerd_syncs (f : Herd → Herd) : (m.modHerd f).syncs = m.syncs := rfl
@[simp] theorem modHerd_mules (f : Herd → Herd) : (m.modHerd f).mules = m.mules := rfl
@[simp] theorem modHerd_fm (f : Herd → Herd) : (m.modHerd f).fm = m.fm := rfl
@[simp] theorem modHerd_fmPoison (f : Herd → Herd) : (m.modHerd f).fmPoison = m.fmPoison := rfl
@[simp] theorem modHerd_fmUpset (f : Herd → Herd) : (m.modHerd f).fmUpset = m.fmUpset := rfl
@[simp] theorem modHerd_hbm (f : Herd → Herd) : (m.modHerd f).hbm = m.hbm := rfl
@[simp] theorem modHerd_hbmPoison (f : Herd → Herd) : (m.modHerd f).hbmPoison = m.hbmPoison := rfl
@[simp] theorem modHerd_hbms (f : Herd → Herd) : (m.modHerd f).hbms = m.hbms := rfl
@[simp] theorem modHerd_coh (f : Herd → Herd) : (m.modHerd f).coh = m.coh := rfl
@[simp] theorem modHerd_tier (f : Herd → Herd) : (m.modHerd f).tier = m.tier := rfl
@[simp] theorem modHerd_links (f : Herd → Herd) : (m.modHerd f).links = m.links := rfl
@[simp] theorem modHerd_host (f : Herd → Herd) : (m.modHerd f).host = m.host := rfl
@[simp] theorem modHerd_acores (f : Herd → Herd) : (m.modHerd f).acores = m.acores := rfl
@[simp] theorem modHerd_boot (f : Herd → Herd) : (m.modHerd f).boot = m.boot := rfl
@[simp] theorem modHerd_goose (f : Herd → Herd) : (m.modHerd f).goose = m.goose := rfl
@[simp] theorem modHerd_sec (f : Herd → Herd) : (m.modHerd f).sec = m.sec := rfl
@[simp] theorem modHerd_tels (f : Herd → Herd) : (m.modHerd f).tels = m.tels := rfl
@[simp] theorem modHerd_mbx (f : Herd → Herd) : (m.modHerd f).mbx = m.mbx := rfl
@[simp] theorem modHerd_latches (f : Herd → Herd) : (m.modHerd f).latches = m.latches := rfl
@[simp] theorem modHerd_fused (f : Herd → Herd) : (m.modHerd f).fused = m.fused := rfl
@[simp] theorem modHerd_temps (f : Herd → Herd) : (m.modHerd f).temps = m.temps := rfl
@[simp] theorem modHerd_blows (f : Herd → Herd) : (m.modHerd f).blows = m.blows := rfl
@[simp] theorem modHerd_free (f : Herd → Herd) : (m.modHerd f).free = m.free := rfl
@[simp] theorem modHerd_herd (f : Herd → Herd) : (m.modHerd f).herd = f m.herd := rfl
@[simp] theorem die_modHerd (f : Herd → Herd) (l : Nat) : (m.modHerd f).die l = m.die l := rfl
@[simp] theorem ox_modHerd (f : Herd → Herd) (l : Nat) : (m.modHerd f).ox l = m.ox l := rfl
@[simp] theorem hen_modHerd (f : Herd → Herd) (l : Nat) : (m.modHerd f).hen l = m.hen l := rfl
@[simp] theorem collie_modHerd (f : Herd → Herd) (l : Nat) : (m.modHerd f).collie l = m.collie l := rfl
@[simp] theorem sync_modHerd (f : Herd → Herd) (l : Nat) : (m.modHerd f).sync l = m.sync l := rfl
@[simp] theorem mule_modHerd (f : Herd → Herd) (l : Nat) : (m.modHerd f).mule l = m.mule l := rfl
@[simp] theorem hbmc_modHerd (f : Herd → Herd) (l : Nat) : (m.modHerd f).hbmc l = m.hbmc l := rfl
@[simp] theorem slice_modHerd (f : Herd → Herd) (l : Nat) : (m.modHerd f).slice l = m.slice l := rfl
@[simp] theorem link_modHerd (f : Herd → Herd) (l : Nat) : (m.modHerd f).link l = m.link l := rfl
@[simp] theorem ring_modHerd (f : Herd → Herd) (l : Nat) : (m.modHerd f).ring l = m.ring l := rfl
@[simp] theorem core_modHerd (f : Herd → Herd) (l : Nat) : (m.modHerd f).core l = m.core l := rfl
@[simp] theorem tel_modHerd (f : Herd → Herd) (l : Nat) : (m.modHerd f).tel l = m.tel l := rfl
@[simp] theorem mailbox_modHerd (f : Herd → Herd) (l : Nat) : (m.modHerd f).mailbox l = m.mailbox l := rfl
@[simp] theorem pageOf_modHerd (f : Herd → Herd) (l : Nat) : (m.modHerd f).pageOf l = m.pageOf l := rfl
@[simp] theorem reg_modHerd (f : Herd → Herd) (l : Nat) : (m.modHerd f).reg l = m.reg l := rfl

/-! ### modGov -/

@[simp] theorem modGov_now (f : Gov → Gov) : (m.modGov f).now = m.now := rfl
@[simp] theorem modGov_out (f : Gov → Gov) : (m.modGov f).out = m.out := rfl
@[simp] theorem modGov_regs (f : Gov → Gov) : (m.modGov f).regs = m.regs := rfl
@[simp] theorem modGov_beat (f : Gov → Gov) : (m.modGov f).beat = m.beat := rfl
@[simp] theorem modGov_site (f : Gov → Gov) : (m.modGov f).site = m.site := rfl
@[simp] theorem modGov_lean (f : Gov → Gov) : (m.modGov f).lean = m.lean := rfl
@[simp] theorem modGov_save (f : Gov → Gov) : (m.modGov f).save = m.save := rfl
@[simp] theorem modGov_sched (f : Gov → Gov) : (m.modGov f).sched = m.sched := rfl
@[simp] theorem modGov_dies (f : Gov → Gov) : (m.modGov f).dies = m.dies := rfl
@[simp] theorem modGov_oxen (f : Gov → Gov) : (m.modGov f).oxen = m.oxen := rfl
@[simp] theorem modGov_hens (f : Gov → Gov) : (m.modGov f).hens = m.hens := rfl
@[simp] theorem modGov_collies (f : Gov → Gov) : (m.modGov f).collies = m.collies := rfl
@[simp] theorem modGov_syncs (f : Gov → Gov) : (m.modGov f).syncs = m.syncs := rfl
@[simp] theorem modGov_mules (f : Gov → Gov) : (m.modGov f).mules = m.mules := rfl
@[simp] theorem modGov_fm (f : Gov → Gov) : (m.modGov f).fm = m.fm := rfl
@[simp] theorem modGov_fmPoison (f : Gov → Gov) : (m.modGov f).fmPoison = m.fmPoison := rfl
@[simp] theorem modGov_fmUpset (f : Gov → Gov) : (m.modGov f).fmUpset = m.fmUpset := rfl
@[simp] theorem modGov_hbm (f : Gov → Gov) : (m.modGov f).hbm = m.hbm := rfl
@[simp] theorem modGov_hbmPoison (f : Gov → Gov) : (m.modGov f).hbmPoison = m.hbmPoison := rfl
@[simp] theorem modGov_hbms (f : Gov → Gov) : (m.modGov f).hbms = m.hbms := rfl
@[simp] theorem modGov_coh (f : Gov → Gov) : (m.modGov f).coh = m.coh := rfl
@[simp] theorem modGov_tier (f : Gov → Gov) : (m.modGov f).tier = m.tier := rfl
@[simp] theorem modGov_links (f : Gov → Gov) : (m.modGov f).links = m.links := rfl
@[simp] theorem modGov_herd (f : Gov → Gov) : (m.modGov f).herd = m.herd := rfl
@[simp] theorem modGov_host (f : Gov → Gov) : (m.modGov f).host = m.host := rfl
@[simp] theorem modGov_acores (f : Gov → Gov) : (m.modGov f).acores = m.acores := rfl
@[simp] theorem modGov_boot (f : Gov → Gov) : (m.modGov f).boot = m.boot := rfl
@[simp] theorem modGov_goose (f : Gov → Gov) : (m.modGov f).goose = m.goose := rfl
@[simp] theorem modGov_sec (f : Gov → Gov) : (m.modGov f).sec = m.sec := rfl
@[simp] theorem modGov_tels (f : Gov → Gov) : (m.modGov f).tels = m.tels := rfl
@[simp] theorem modGov_mbx (f : Gov → Gov) : (m.modGov f).mbx = m.mbx := rfl
@[simp] theorem modGov_latches (f : Gov → Gov) : (m.modGov f).latches = m.latches := rfl
@[simp] theorem modGov_fused (f : Gov → Gov) : (m.modGov f).fused = m.fused := rfl
@[simp] theorem modGov_temps (f : Gov → Gov) : (m.modGov f).temps = m.temps := rfl
@[simp] theorem modGov_blows (f : Gov → Gov) : (m.modGov f).blows = m.blows := rfl
@[simp] theorem modGov_free (f : Gov → Gov) : (m.modGov f).free = m.free := rfl
@[simp] theorem modGov_gov (f : Gov → Gov) : (m.modGov f).gov = f m.gov := rfl
@[simp] theorem die_modGov (f : Gov → Gov) (l : Nat) : (m.modGov f).die l = m.die l := rfl
@[simp] theorem ox_modGov (f : Gov → Gov) (l : Nat) : (m.modGov f).ox l = m.ox l := rfl
@[simp] theorem hen_modGov (f : Gov → Gov) (l : Nat) : (m.modGov f).hen l = m.hen l := rfl
@[simp] theorem collie_modGov (f : Gov → Gov) (l : Nat) : (m.modGov f).collie l = m.collie l := rfl
@[simp] theorem sync_modGov (f : Gov → Gov) (l : Nat) : (m.modGov f).sync l = m.sync l := rfl
@[simp] theorem mule_modGov (f : Gov → Gov) (l : Nat) : (m.modGov f).mule l = m.mule l := rfl
@[simp] theorem hbmc_modGov (f : Gov → Gov) (l : Nat) : (m.modGov f).hbmc l = m.hbmc l := rfl
@[simp] theorem slice_modGov (f : Gov → Gov) (l : Nat) : (m.modGov f).slice l = m.slice l := rfl
@[simp] theorem link_modGov (f : Gov → Gov) (l : Nat) : (m.modGov f).link l = m.link l := rfl
@[simp] theorem ring_modGov (f : Gov → Gov) (l : Nat) : (m.modGov f).ring l = m.ring l := rfl
@[simp] theorem core_modGov (f : Gov → Gov) (l : Nat) : (m.modGov f).core l = m.core l := rfl
@[simp] theorem tel_modGov (f : Gov → Gov) (l : Nat) : (m.modGov f).tel l = m.tel l := rfl
@[simp] theorem mailbox_modGov (f : Gov → Gov) (l : Nat) : (m.modGov f).mailbox l = m.mailbox l := rfl
@[simp] theorem pageOf_modGov (f : Gov → Gov) (l : Nat) : (m.modGov f).pageOf l = m.pageOf l := rfl
@[simp] theorem reg_modGov (f : Gov → Gov) (l : Nat) : (m.modGov f).reg l = m.reg l := rfl

/-! ### modAcores -/

@[simp] theorem modAcores_now (f : Acores → Acores) : (m.modAcores f).now = m.now := rfl
@[simp] theorem modAcores_out (f : Acores → Acores) : (m.modAcores f).out = m.out := rfl
@[simp] theorem modAcores_regs (f : Acores → Acores) : (m.modAcores f).regs = m.regs := rfl
@[simp] theorem modAcores_beat (f : Acores → Acores) : (m.modAcores f).beat = m.beat := rfl
@[simp] theorem modAcores_site (f : Acores → Acores) : (m.modAcores f).site = m.site := rfl
@[simp] theorem modAcores_gov (f : Acores → Acores) : (m.modAcores f).gov = m.gov := rfl
@[simp] theorem modAcores_lean (f : Acores → Acores) : (m.modAcores f).lean = m.lean := rfl
@[simp] theorem modAcores_save (f : Acores → Acores) : (m.modAcores f).save = m.save := rfl
@[simp] theorem modAcores_sched (f : Acores → Acores) : (m.modAcores f).sched = m.sched := rfl
@[simp] theorem modAcores_dies (f : Acores → Acores) : (m.modAcores f).dies = m.dies := rfl
@[simp] theorem modAcores_oxen (f : Acores → Acores) : (m.modAcores f).oxen = m.oxen := rfl
@[simp] theorem modAcores_hens (f : Acores → Acores) : (m.modAcores f).hens = m.hens := rfl
@[simp] theorem modAcores_collies (f : Acores → Acores) : (m.modAcores f).collies = m.collies := rfl
@[simp] theorem modAcores_syncs (f : Acores → Acores) : (m.modAcores f).syncs = m.syncs := rfl
@[simp] theorem modAcores_mules (f : Acores → Acores) : (m.modAcores f).mules = m.mules := rfl
@[simp] theorem modAcores_fm (f : Acores → Acores) : (m.modAcores f).fm = m.fm := rfl
@[simp] theorem modAcores_fmPoison (f : Acores → Acores) : (m.modAcores f).fmPoison = m.fmPoison := rfl
@[simp] theorem modAcores_fmUpset (f : Acores → Acores) : (m.modAcores f).fmUpset = m.fmUpset := rfl
@[simp] theorem modAcores_hbm (f : Acores → Acores) : (m.modAcores f).hbm = m.hbm := rfl
@[simp] theorem modAcores_hbmPoison (f : Acores → Acores) : (m.modAcores f).hbmPoison = m.hbmPoison := rfl
@[simp] theorem modAcores_hbms (f : Acores → Acores) : (m.modAcores f).hbms = m.hbms := rfl
@[simp] theorem modAcores_coh (f : Acores → Acores) : (m.modAcores f).coh = m.coh := rfl
@[simp] theorem modAcores_tier (f : Acores → Acores) : (m.modAcores f).tier = m.tier := rfl
@[simp] theorem modAcores_links (f : Acores → Acores) : (m.modAcores f).links = m.links := rfl
@[simp] theorem modAcores_herd (f : Acores → Acores) : (m.modAcores f).herd = m.herd := rfl
@[simp] theorem modAcores_host (f : Acores → Acores) : (m.modAcores f).host = m.host := rfl
@[simp] theorem modAcores_boot (f : Acores → Acores) : (m.modAcores f).boot = m.boot := rfl
@[simp] theorem modAcores_goose (f : Acores → Acores) : (m.modAcores f).goose = m.goose := rfl
@[simp] theorem modAcores_sec (f : Acores → Acores) : (m.modAcores f).sec = m.sec := rfl
@[simp] theorem modAcores_tels (f : Acores → Acores) : (m.modAcores f).tels = m.tels := rfl
@[simp] theorem modAcores_mbx (f : Acores → Acores) : (m.modAcores f).mbx = m.mbx := rfl
@[simp] theorem modAcores_latches (f : Acores → Acores) : (m.modAcores f).latches = m.latches := rfl
@[simp] theorem modAcores_fused (f : Acores → Acores) : (m.modAcores f).fused = m.fused := rfl
@[simp] theorem modAcores_temps (f : Acores → Acores) : (m.modAcores f).temps = m.temps := rfl
@[simp] theorem modAcores_blows (f : Acores → Acores) : (m.modAcores f).blows = m.blows := rfl
@[simp] theorem modAcores_free (f : Acores → Acores) : (m.modAcores f).free = m.free := rfl
@[simp] theorem modAcores_acores (f : Acores → Acores) : (m.modAcores f).acores = f m.acores := rfl
@[simp] theorem die_modAcores (f : Acores → Acores) (l : Nat) : (m.modAcores f).die l = m.die l := rfl
@[simp] theorem ox_modAcores (f : Acores → Acores) (l : Nat) : (m.modAcores f).ox l = m.ox l := rfl
@[simp] theorem hen_modAcores (f : Acores → Acores) (l : Nat) : (m.modAcores f).hen l = m.hen l := rfl
@[simp] theorem collie_modAcores (f : Acores → Acores) (l : Nat) : (m.modAcores f).collie l = m.collie l := rfl
@[simp] theorem sync_modAcores (f : Acores → Acores) (l : Nat) : (m.modAcores f).sync l = m.sync l := rfl
@[simp] theorem mule_modAcores (f : Acores → Acores) (l : Nat) : (m.modAcores f).mule l = m.mule l := rfl
@[simp] theorem hbmc_modAcores (f : Acores → Acores) (l : Nat) : (m.modAcores f).hbmc l = m.hbmc l := rfl
@[simp] theorem slice_modAcores (f : Acores → Acores) (l : Nat) : (m.modAcores f).slice l = m.slice l := rfl
@[simp] theorem link_modAcores (f : Acores → Acores) (l : Nat) : (m.modAcores f).link l = m.link l := rfl
@[simp] theorem ring_modAcores (f : Acores → Acores) (l : Nat) : (m.modAcores f).ring l = m.ring l := rfl
@[simp] theorem tel_modAcores (f : Acores → Acores) (l : Nat) : (m.modAcores f).tel l = m.tel l := rfl
@[simp] theorem mailbox_modAcores (f : Acores → Acores) (l : Nat) : (m.modAcores f).mailbox l = m.mailbox l := rfl
@[simp] theorem pageOf_modAcores (f : Acores → Acores) (l : Nat) : (m.modAcores f).pageOf l = m.pageOf l := rfl
@[simp] theorem reg_modAcores (f : Acores → Acores) (l : Nat) : (m.modAcores f).reg l = m.reg l := rfl

/-! ### modSec -/

@[simp] theorem modSec_now (f : Security → Security) : (m.modSec f).now = m.now := rfl
@[simp] theorem modSec_out (f : Security → Security) : (m.modSec f).out = m.out := rfl
@[simp] theorem modSec_regs (f : Security → Security) : (m.modSec f).regs = m.regs := rfl
@[simp] theorem modSec_beat (f : Security → Security) : (m.modSec f).beat = m.beat := rfl
@[simp] theorem modSec_site (f : Security → Security) : (m.modSec f).site = m.site := rfl
@[simp] theorem modSec_gov (f : Security → Security) : (m.modSec f).gov = m.gov := rfl
@[simp] theorem modSec_lean (f : Security → Security) : (m.modSec f).lean = m.lean := rfl
@[simp] theorem modSec_save (f : Security → Security) : (m.modSec f).save = m.save := rfl
@[simp] theorem modSec_sched (f : Security → Security) : (m.modSec f).sched = m.sched := rfl
@[simp] theorem modSec_dies (f : Security → Security) : (m.modSec f).dies = m.dies := rfl
@[simp] theorem modSec_oxen (f : Security → Security) : (m.modSec f).oxen = m.oxen := rfl
@[simp] theorem modSec_hens (f : Security → Security) : (m.modSec f).hens = m.hens := rfl
@[simp] theorem modSec_collies (f : Security → Security) : (m.modSec f).collies = m.collies := rfl
@[simp] theorem modSec_syncs (f : Security → Security) : (m.modSec f).syncs = m.syncs := rfl
@[simp] theorem modSec_mules (f : Security → Security) : (m.modSec f).mules = m.mules := rfl
@[simp] theorem modSec_fm (f : Security → Security) : (m.modSec f).fm = m.fm := rfl
@[simp] theorem modSec_fmPoison (f : Security → Security) : (m.modSec f).fmPoison = m.fmPoison := rfl
@[simp] theorem modSec_fmUpset (f : Security → Security) : (m.modSec f).fmUpset = m.fmUpset := rfl
@[simp] theorem modSec_hbm (f : Security → Security) : (m.modSec f).hbm = m.hbm := rfl
@[simp] theorem modSec_hbmPoison (f : Security → Security) : (m.modSec f).hbmPoison = m.hbmPoison := rfl
@[simp] theorem modSec_hbms (f : Security → Security) : (m.modSec f).hbms = m.hbms := rfl
@[simp] theorem modSec_coh (f : Security → Security) : (m.modSec f).coh = m.coh := rfl
@[simp] theorem modSec_tier (f : Security → Security) : (m.modSec f).tier = m.tier := rfl
@[simp] theorem modSec_links (f : Security → Security) : (m.modSec f).links = m.links := rfl
@[simp] theorem modSec_herd (f : Security → Security) : (m.modSec f).herd = m.herd := rfl
@[simp] theorem modSec_host (f : Security → Security) : (m.modSec f).host = m.host := rfl
@[simp] theorem modSec_acores (f : Security → Security) : (m.modSec f).acores = m.acores := rfl
@[simp] theorem modSec_boot (f : Security → Security) : (m.modSec f).boot = m.boot := rfl
@[simp] theorem modSec_goose (f : Security → Security) : (m.modSec f).goose = m.goose := rfl
@[simp] theorem modSec_tels (f : Security → Security) : (m.modSec f).tels = m.tels := rfl
@[simp] theorem modSec_mbx (f : Security → Security) : (m.modSec f).mbx = m.mbx := rfl
@[simp] theorem modSec_latches (f : Security → Security) : (m.modSec f).latches = m.latches := rfl
@[simp] theorem modSec_fused (f : Security → Security) : (m.modSec f).fused = m.fused := rfl
@[simp] theorem modSec_temps (f : Security → Security) : (m.modSec f).temps = m.temps := rfl
@[simp] theorem modSec_blows (f : Security → Security) : (m.modSec f).blows = m.blows := rfl
@[simp] theorem modSec_free (f : Security → Security) : (m.modSec f).free = m.free := rfl
@[simp] theorem modSec_sec (f : Security → Security) : (m.modSec f).sec = f m.sec := rfl
@[simp] theorem die_modSec (f : Security → Security) (l : Nat) : (m.modSec f).die l = m.die l := rfl
@[simp] theorem ox_modSec (f : Security → Security) (l : Nat) : (m.modSec f).ox l = m.ox l := rfl
@[simp] theorem hen_modSec (f : Security → Security) (l : Nat) : (m.modSec f).hen l = m.hen l := rfl
@[simp] theorem collie_modSec (f : Security → Security) (l : Nat) : (m.modSec f).collie l = m.collie l := rfl
@[simp] theorem sync_modSec (f : Security → Security) (l : Nat) : (m.modSec f).sync l = m.sync l := rfl
@[simp] theorem mule_modSec (f : Security → Security) (l : Nat) : (m.modSec f).mule l = m.mule l := rfl
@[simp] theorem hbmc_modSec (f : Security → Security) (l : Nat) : (m.modSec f).hbmc l = m.hbmc l := rfl
@[simp] theorem slice_modSec (f : Security → Security) (l : Nat) : (m.modSec f).slice l = m.slice l := rfl
@[simp] theorem link_modSec (f : Security → Security) (l : Nat) : (m.modSec f).link l = m.link l := rfl
@[simp] theorem ring_modSec (f : Security → Security) (l : Nat) : (m.modSec f).ring l = m.ring l := rfl
@[simp] theorem core_modSec (f : Security → Security) (l : Nat) : (m.modSec f).core l = m.core l := rfl
@[simp] theorem tel_modSec (f : Security → Security) (l : Nat) : (m.modSec f).tel l = m.tel l := rfl
@[simp] theorem mailbox_modSec (f : Security → Security) (l : Nat) : (m.modSec f).mailbox l = m.mailbox l := rfl
@[simp] theorem pageOf_modSec (f : Security → Security) (l : Nat) : (m.modSec f).pageOf l = m.pageOf l := rfl
@[simp] theorem reg_modSec (f : Security → Security) (l : Nat) : (m.modSec f).reg l = m.reg l := rfl

/-! ### modGoose -/

@[simp] theorem modGoose_now (f : Goose → Goose) : (m.modGoose f).now = m.now := rfl
@[simp] theorem modGoose_out (f : Goose → Goose) : (m.modGoose f).out = m.out := rfl
@[simp] theorem modGoose_regs (f : Goose → Goose) : (m.modGoose f).regs = m.regs := rfl
@[simp] theorem modGoose_beat (f : Goose → Goose) : (m.modGoose f).beat = m.beat := rfl
@[simp] theorem modGoose_site (f : Goose → Goose) : (m.modGoose f).site = m.site := rfl
@[simp] theorem modGoose_gov (f : Goose → Goose) : (m.modGoose f).gov = m.gov := rfl
@[simp] theorem modGoose_lean (f : Goose → Goose) : (m.modGoose f).lean = m.lean := rfl
@[simp] theorem modGoose_save (f : Goose → Goose) : (m.modGoose f).save = m.save := rfl
@[simp] theorem modGoose_sched (f : Goose → Goose) : (m.modGoose f).sched = m.sched := rfl
@[simp] theorem modGoose_dies (f : Goose → Goose) : (m.modGoose f).dies = m.dies := rfl
@[simp] theorem modGoose_oxen (f : Goose → Goose) : (m.modGoose f).oxen = m.oxen := rfl
@[simp] theorem modGoose_hens (f : Goose → Goose) : (m.modGoose f).hens = m.hens := rfl
@[simp] theorem modGoose_collies (f : Goose → Goose) : (m.modGoose f).collies = m.collies := rfl
@[simp] theorem modGoose_syncs (f : Goose → Goose) : (m.modGoose f).syncs = m.syncs := rfl
@[simp] theorem modGoose_mules (f : Goose → Goose) : (m.modGoose f).mules = m.mules := rfl
@[simp] theorem modGoose_fm (f : Goose → Goose) : (m.modGoose f).fm = m.fm := rfl
@[simp] theorem modGoose_fmPoison (f : Goose → Goose) : (m.modGoose f).fmPoison = m.fmPoison := rfl
@[simp] theorem modGoose_fmUpset (f : Goose → Goose) : (m.modGoose f).fmUpset = m.fmUpset := rfl
@[simp] theorem modGoose_hbm (f : Goose → Goose) : (m.modGoose f).hbm = m.hbm := rfl
@[simp] theorem modGoose_hbmPoison (f : Goose → Goose) : (m.modGoose f).hbmPoison = m.hbmPoison := rfl
@[simp] theorem modGoose_hbms (f : Goose → Goose) : (m.modGoose f).hbms = m.hbms := rfl
@[simp] theorem modGoose_coh (f : Goose → Goose) : (m.modGoose f).coh = m.coh := rfl
@[simp] theorem modGoose_tier (f : Goose → Goose) : (m.modGoose f).tier = m.tier := rfl
@[simp] theorem modGoose_links (f : Goose → Goose) : (m.modGoose f).links = m.links := rfl
@[simp] theorem modGoose_herd (f : Goose → Goose) : (m.modGoose f).herd = m.herd := rfl
@[simp] theorem modGoose_host (f : Goose → Goose) : (m.modGoose f).host = m.host := rfl
@[simp] theorem modGoose_acores (f : Goose → Goose) : (m.modGoose f).acores = m.acores := rfl
@[simp] theorem modGoose_boot (f : Goose → Goose) : (m.modGoose f).boot = m.boot := rfl
@[simp] theorem modGoose_sec (f : Goose → Goose) : (m.modGoose f).sec = m.sec := rfl
@[simp] theorem modGoose_tels (f : Goose → Goose) : (m.modGoose f).tels = m.tels := rfl
@[simp] theorem modGoose_mbx (f : Goose → Goose) : (m.modGoose f).mbx = m.mbx := rfl
@[simp] theorem modGoose_latches (f : Goose → Goose) : (m.modGoose f).latches = m.latches := rfl
@[simp] theorem modGoose_fused (f : Goose → Goose) : (m.modGoose f).fused = m.fused := rfl
@[simp] theorem modGoose_temps (f : Goose → Goose) : (m.modGoose f).temps = m.temps := rfl
@[simp] theorem modGoose_blows (f : Goose → Goose) : (m.modGoose f).blows = m.blows := rfl
@[simp] theorem modGoose_free (f : Goose → Goose) : (m.modGoose f).free = m.free := rfl
@[simp] theorem modGoose_goose (f : Goose → Goose) : (m.modGoose f).goose = f m.goose := rfl
@[simp] theorem die_modGoose (f : Goose → Goose) (l : Nat) : (m.modGoose f).die l = m.die l := rfl
@[simp] theorem ox_modGoose (f : Goose → Goose) (l : Nat) : (m.modGoose f).ox l = m.ox l := rfl
@[simp] theorem hen_modGoose (f : Goose → Goose) (l : Nat) : (m.modGoose f).hen l = m.hen l := rfl
@[simp] theorem collie_modGoose (f : Goose → Goose) (l : Nat) : (m.modGoose f).collie l = m.collie l := rfl
@[simp] theorem sync_modGoose (f : Goose → Goose) (l : Nat) : (m.modGoose f).sync l = m.sync l := rfl
@[simp] theorem mule_modGoose (f : Goose → Goose) (l : Nat) : (m.modGoose f).mule l = m.mule l := rfl
@[simp] theorem hbmc_modGoose (f : Goose → Goose) (l : Nat) : (m.modGoose f).hbmc l = m.hbmc l := rfl
@[simp] theorem slice_modGoose (f : Goose → Goose) (l : Nat) : (m.modGoose f).slice l = m.slice l := rfl
@[simp] theorem link_modGoose (f : Goose → Goose) (l : Nat) : (m.modGoose f).link l = m.link l := rfl
@[simp] theorem ring_modGoose (f : Goose → Goose) (l : Nat) : (m.modGoose f).ring l = m.ring l := rfl
@[simp] theorem core_modGoose (f : Goose → Goose) (l : Nat) : (m.modGoose f).core l = m.core l := rfl
@[simp] theorem tel_modGoose (f : Goose → Goose) (l : Nat) : (m.modGoose f).tel l = m.tel l := rfl
@[simp] theorem mailbox_modGoose (f : Goose → Goose) (l : Nat) : (m.modGoose f).mailbox l = m.mailbox l := rfl
@[simp] theorem pageOf_modGoose (f : Goose → Goose) (l : Nat) : (m.modGoose f).pageOf l = m.pageOf l := rfl
@[simp] theorem reg_modGoose (f : Goose → Goose) (l : Nat) : (m.modGoose f).reg l = m.reg l := rfl

/-! ### advance -/

/-- A change of an A-die leaves everything else. -/
theorem modDie_dies (n : Mach) (d : Nat) (f : Die → Die) (h : ∃ x, n = { m with dies := x }) : ∃ x, n.modDie d f = { m with dies := x } := by
  obtain ⟨x, rfl⟩ := h
  exact ⟨_, rfl⟩

/-- Time moves the clock, and the fclk counts of the A-dies, and nothing else. -/
theorem advance_eq (t : Nat) : ∃ x, m.advance t = { m with now := max m.now t, dies := x } := by
  unfold advance
  split
  · refine ⟨m.dies, ?_⟩
    rw [Nat.max_eq_left (by assumption)]
  · rename_i h
    obtain ⟨x, e⟩ := modDie_dies m _ 3 _ (modDie_dies m _ 2 _ (modDie_dies m _ 1 _ (modDie_dies m m 0 (fun x => if Die.running x then
      { x with fclk5 := x.fclk5 + (t - m.now) * opRate x.curOp } else x) ⟨m.dies, rfl⟩)))
    refine ⟨x, ?_⟩
    rw [Nat.max_eq_right (by omega)]
    simp only
    rw [e]

@[simp] theorem advance_now (t : Nat) : (m.advance t).now = max m.now t := by
  obtain ⟨x, e⟩ := advance_eq m t
  rw [e]

@[simp] theorem advance_out (t : Nat) : (m.advance t).out = m.out := by
  obtain ⟨x, e⟩ := advance_eq m t
  rw [e]
@[simp] theorem advance_regs (t : Nat) : (m.advance t).regs = m.regs := by
  obtain ⟨x, e⟩ := advance_eq m t
  rw [e]
@[simp] theorem advance_beat (t : Nat) : (m.advance t).beat = m.beat := by
  obtain ⟨x, e⟩ := advance_eq m t
  rw [e]
@[simp] theorem advance_site (t : Nat) : (m.advance t).site = m.site := by
  obtain ⟨x, e⟩ := advance_eq m t
  rw [e]
@[simp] theorem advance_gov (t : Nat) : (m.advance t).gov = m.gov := by
  obtain ⟨x, e⟩ := advance_eq m t
  rw [e]
@[simp] theorem advance_lean (t : Nat) : (m.advance t).lean = m.lean := by
  obtain ⟨x, e⟩ := advance_eq m t
  rw [e]
@[simp] theorem advance_save (t : Nat) : (m.advance t).save = m.save := by
  obtain ⟨x, e⟩ := advance_eq m t
  rw [e]
@[simp] theorem advance_sched (t : Nat) : (m.advance t).sched = m.sched := by
  obtain ⟨x, e⟩ := advance_eq m t
  rw [e]
@[simp] theorem advance_oxen (t : Nat) : (m.advance t).oxen = m.oxen := by
  obtain ⟨x, e⟩ := advance_eq m t
  rw [e]
@[simp] theorem advance_hens (t : Nat) : (m.advance t).hens = m.hens := by
  obtain ⟨x, e⟩ := advance_eq m t
  rw [e]
@[simp] theorem advance_collies (t : Nat) : (m.advance t).collies = m.collies := by
  obtain ⟨x, e⟩ := advance_eq m t
  rw [e]
@[simp] theorem advance_syncs (t : Nat) : (m.advance t).syncs = m.syncs := by
  obtain ⟨x, e⟩ := advance_eq m t
  rw [e]
@[simp] theorem advance_mules (t : Nat) : (m.advance t).mules = m.mules := by
  obtain ⟨x, e⟩ := advance_eq m t
  rw [e]
@[simp] theorem advance_fm (t : Nat) : (m.advance t).fm = m.fm := by
  obtain ⟨x, e⟩ := advance_eq m t
  rw [e]
@[simp] theorem advance_fmPoison (t : Nat) : (m.advance t).fmPoison = m.fmPoison := by
  obtain ⟨x, e⟩ := advance_eq m t
  rw [e]
@[simp] theorem advance_fmUpset (t : Nat) : (m.advance t).fmUpset = m.fmUpset := by
  obtain ⟨x, e⟩ := advance_eq m t
  rw [e]
@[simp] theorem advance_hbm (t : Nat) : (m.advance t).hbm = m.hbm := by
  obtain ⟨x, e⟩ := advance_eq m t
  rw [e]
@[simp] theorem advance_hbmPoison (t : Nat) : (m.advance t).hbmPoison = m.hbmPoison := by
  obtain ⟨x, e⟩ := advance_eq m t
  rw [e]
@[simp] theorem advance_hbms (t : Nat) : (m.advance t).hbms = m.hbms := by
  obtain ⟨x, e⟩ := advance_eq m t
  rw [e]
@[simp] theorem advance_coh (t : Nat) : (m.advance t).coh = m.coh := by
  obtain ⟨x, e⟩ := advance_eq m t
  rw [e]
@[simp] theorem advance_tier (t : Nat) : (m.advance t).tier = m.tier := by
  obtain ⟨x, e⟩ := advance_eq m t
  rw [e]
@[simp] theorem advance_links (t : Nat) : (m.advance t).links = m.links := by
  obtain ⟨x, e⟩ := advance_eq m t
  rw [e]
@[simp] theorem advance_herd (t : Nat) : (m.advance t).herd = m.herd := by
  obtain ⟨x, e⟩ := advance_eq m t
  rw [e]
@[simp] theorem advance_host (t : Nat) : (m.advance t).host = m.host := by
  obtain ⟨x, e⟩ := advance_eq m t
  rw [e]
@[simp] theorem advance_acores (t : Nat) : (m.advance t).acores = m.acores := by
  obtain ⟨x, e⟩ := advance_eq m t
  rw [e]
@[simp] theorem advance_boot (t : Nat) : (m.advance t).boot = m.boot := by
  obtain ⟨x, e⟩ := advance_eq m t
  rw [e]
@[simp] theorem advance_goose (t : Nat) : (m.advance t).goose = m.goose := by
  obtain ⟨x, e⟩ := advance_eq m t
  rw [e]
@[simp] theorem advance_sec (t : Nat) : (m.advance t).sec = m.sec := by
  obtain ⟨x, e⟩ := advance_eq m t
  rw [e]
@[simp] theorem advance_tels (t : Nat) : (m.advance t).tels = m.tels := by
  obtain ⟨x, e⟩ := advance_eq m t
  rw [e]
@[simp] theorem advance_mbx (t : Nat) : (m.advance t).mbx = m.mbx := by
  obtain ⟨x, e⟩ := advance_eq m t
  rw [e]
@[simp] theorem advance_latches (t : Nat) : (m.advance t).latches = m.latches := by
  obtain ⟨x, e⟩ := advance_eq m t
  rw [e]
@[simp] theorem advance_fused (t : Nat) : (m.advance t).fused = m.fused := by
  obtain ⟨x, e⟩ := advance_eq m t
  rw [e]
@[simp] theorem advance_temps (t : Nat) : (m.advance t).temps = m.temps := by
  obtain ⟨x, e⟩ := advance_eq m t
  rw [e]
@[simp] theorem advance_blows (t : Nat) : (m.advance t).blows = m.blows := by
  obtain ⟨x, e⟩ := advance_eq m t
  rw [e]
@[simp] theorem advance_free (t : Nat) : (m.advance t).free = m.free := by
  obtain ⟨x, e⟩ := advance_eq m t
  rw [e]
@[simp] theorem ox_advance (t l : Nat) : (m.advance t).ox l = m.ox l := by
  simp only [ox, advance_oxen]
@[simp] theorem hen_advance (t l : Nat) : (m.advance t).hen l = m.hen l := by
  simp only [hen, advance_hens]
@[simp] theorem collie_advance (t l : Nat) : (m.advance t).collie l = m.collie l := by
  simp only [collie, advance_collies]
@[simp] theorem sync_advance (t l : Nat) : (m.advance t).sync l = m.sync l := by
  simp only [sync, advance_syncs]
@[simp] theorem mule_advance (t l : Nat) : (m.advance t).mule l = m.mule l := by
  simp only [mule, advance_mules]
@[simp] theorem hbmc_advance (t l : Nat) : (m.advance t).hbmc l = m.hbmc l := by
  simp only [hbmc, advance_hbms]
@[simp] theorem slice_advance (t l : Nat) : (m.advance t).slice l = m.slice l := by
  simp only [slice, advance_coh]
@[simp] theorem link_advance (t l : Nat) : (m.advance t).link l = m.link l := by
  simp only [link, advance_links]
@[simp] theorem ring_advance (t l : Nat) : (m.advance t).ring l = m.ring l := by
  simp only [ring, advance_host]
@[simp] theorem core_advance (t l : Nat) : (m.advance t).core l = m.core l := by
  simp only [core, advance_acores]
@[simp] theorem tel_advance (t l : Nat) : (m.advance t).tel l = m.tel l := by
  simp only [tel, advance_tels]
@[simp] theorem mailbox_advance (t l : Nat) : (m.advance t).mailbox l = m.mailbox l := by
  simp only [mailbox, advance_mbx]
@[simp] theorem pageOf_advance (t l : Nat) : (m.advance t).pageOf l = m.pageOf l := by
  simp only [pageOf, advance_tier]
@[simp] theorem reg_advance (t l : Nat) : (m.advance t).reg l = m.reg l := by
  simp only [reg, advance_regs]

theorem advance_self : m.advance m.now = m := by unfold advance; rw [if_pos (Nat.le_refl _)]

/-! ### Counters -/

/-- A count leaves every other register alone. -/
theorem reg_count_ne (a b : Nat) (hi : Bool) (h : b ≠ a) : (m.count a hi).reg b = m.reg b := reg_setReg_ne _ _ _ _ h

/-- A loop over changes that leave the module as it is leaves it as it is. -/
theorem forEach_same {α : Type} (l : List α) (f : Mach → α → Mach) (h : ∀ a ∈ l, f m a = m) : m.forEach l f = m := by
  induction l with
  | nil => rfl
  | cons a l ih =>
    simp only [forEach, List.foldl] at *
    rw [h a (by simp)]
    exact ih fun b hb => h b (by simp [hb])

@[simp] theorem forEach_nil {α : Type} (f : Mach → α → Mach) : m.forEach [] f = m := rfl
@[simp] theorem forEach_cons {α : Type} (a : α) (l : List α) (f : Mach → α → Mach) : m.forEach (a :: l) f = (f m a).forEach l f := rfl

/-- A property that every change of a loop keeps holds after the loop. -/
theorem forEach_keep {α : Type} {P : Mach → Prop} (l : List α) (f : Mach → α → Mach) (h : ∀ n a, P n → P (f n a)) (hm : P m) :
    P (m.forEach l f) := by
  induction l generalizing m with
  | nil => exact hm
  | cons a l ih => exact ih (f m a) (h m a hm)

end Mach
end Machine
end Sys2Proof
end

