-- ==== Sys2Proof/Laws/Hen.lean ====
section
/-!
SUPPORT. What a command's effect answers, and the Hen's turn: when it is the Hen's turn and the fetch returns an instruction's word, its
command runs that instruction and nothing else (R243).
-/
namespace Sys2Proof
namespace Machine

/-- A meaning that is a change of the module answers the state after it. -/
theorem State.act_eq (s : State) (f : Mach → Mach) : s.act f = .next (s.after (f s.m)) := rfl

theorem Answers.intro {c : Instr} {s : State} {f : Mach → Mach} {n : Mach} (h : exec c s = s.act f) (e : f s.m = n) : Answers c s n := by
  unfold Answers; rw [h, State.act_eq, e]

@[simp] theorem State.after_pending (s : State) (m : Mach) : (s.after m).pending = s.pending := rfl

/-- A command whose meaning is a change of the module runs, and what it has made of the module holds up to the fuse writes. -/
theorem Runs.intro {c : Instr} {s : State} {f : Mach → Mach} {P : Mach → Prop} (h : exec c s = s.act f)
    (p : P { f s.m with blows := [] }) : Runs c s P := by
  refine ⟨s.after (f s.m), ?_, rfl, p⟩
  rw [h, State.act_eq]

namespace Mach

/-- The Hen's turn: the instruction whose selection the word has runs. -/
theorem henStep_turn {m n : Mach} {a : Nat} {w : BitVec 32} (h : HenTurn m a w n) {key : Nat} (hk : henKey w = key)
    (ha : henAssigned key = true) (body : Mach → Mach) : m.henStep a w key body = body n := by
  obtain ⟨⟨hl, hw, ho⟩, f, hf, rfl⟩ := h
  have h1 : m.henWfi a = m := by simp [henWfi, hw]
  have h2 : m.henBoundary a = none := by
    unfold henBoundary
    rw [hw]
    by_cases h3 : m.henOpen a = true
    · obtain ⟨hi, hq⟩ := ho h3
      simp [hi, hq, henBreakable, hw]
    · simp [h3]
  unfold henStep
  simp only [h1, h2, hf, hl, hw, hk, ha]
  simp

/-- A word that is no instruction raises ILLEGAL under any Hen instruction's command (R206). -/
theorem henStep_illegal {m n : Mach} {a : Nat} {w : BitVec 32} (h : HenTurn m a w n) {key : Nat} (ha : henAssigned (henKey w) = false)
    (body : Mach → Mach) : m.henStep a w key body = n.henRaise a 1 w.toNat := by
  obtain ⟨⟨hl, hw, ho⟩, f, hf, rfl⟩ := h
  have h1 : m.henWfi a = m := by simp [henWfi, hw]
  have h2 : m.henBoundary a = none := by
    unfold henBoundary
    rw [hw]
    by_cases h3 : m.henOpen a = true
    · obtain ⟨hi, hq⟩ := ho h3
      simp [hi, hq, henBreakable, hw]
    · simp [h3]
  unfold henStep
  simp only [h1, h2, hf, hl, hw, ha]
  simp

end Mach

end Machine

/-! ### Fields of an instruction word -/

/-- A field that lies inside another. -/
theorem HenAlu.fld_fld (w : BitVec 32) (lo n a b : Nat) (h : a + b ≤ n) : HenAlu.fld w lo n / 2 ^ a % 2 ^ b = HenAlu.fld w (lo + a) b := by
  have h1 : ∀ k, HenAlu.fld w k b = w.toNat / 2 ^ k % 2 ^ b := fun k => by simp [HenAlu.fld, Nat.shiftRight_eq_div_pow]
  have h2 : HenAlu.fld w lo n = w.toNat / 2 ^ lo % 2 ^ n := by simp [HenAlu.fld, Nat.shiftRight_eq_div_pow]
  rw [h1, h2]
  obtain ⟨c, rfl⟩ : ∃ c, n = a + (b + c) := ⟨n - a - b, by omega⟩
  rw [Nat.pow_add 2 a, Nat.mod_mul_right_div_self, Nat.pow_add 2 b, Nat.mod_mul_right_mod, Nat.div_div_eq_div_mul, ← Nat.pow_add]

/-- The fields of an OP word from its func field (R208). -/
theorem HenAlu.func_fields (w : BitVec 32) (f : Nat) (hf : HenAlu.func w = f) :
    HenAlu.fld w 0 6 = f % 64 ∧ HenAlu.fld w 6 4 = f / 64 % 16 ∧ HenAlu.fld w 6 5 = f / 64 % 32 ∧ HenAlu.fld w 10 1 = f / 1024 % 2 := by
  subst hf
  have h1 := HenAlu.fld_fld w 0 11 0 6 (by omega)
  have h2 := HenAlu.fld_fld w 0 11 6 4 (by omega)
  have h3 := HenAlu.fld_fld w 0 11 6 5 (by omega)
  have h4 := HenAlu.fld_fld w 0 11 10 1 (by omega)
  simp only [HenAlu.func] at *
  refine ⟨?_, ?_, ?_, ?_⟩ <;> simp_all

end Sys2Proof
end

