-- ==== Sys2Proof/Laws/Vec.lean ====
section
/-!
SUPPORT. Vector registers as lists of elements (R220): an element of a packed list is that element, and what HenAlu.mapActive leaves in each
element (R221).
-/
namespace Sys2Proof
namespace HenAlu

/-- Element `i` of packed elements. -/
theorem packBits_elem (w : Nat) (es : List Nat) (i : Nat) (hi : i < es.length) : packBits w es / 2 ^ (w * i) % 2 ^ w = es[i] % 2 ^ w := by
  induction es generalizing i with
  | nil => exact absurd hi (Nat.not_lt_zero _)
  | cons c t ih =>
    have hp : 0 < 2 ^ w := Nat.two_pow_pos w
    cases i with
    | zero => simp [packBits, Nat.add_mul_mod_self_left]
    | succ i =>
      have h1 : (c % 2 ^ w + 2 ^ w * packBits w t) / 2 ^ w = packBits w t := by
        rw [Nat.add_mul_div_left _ _ hp, Nat.div_eq_of_lt (Nat.mod_lt _ hp), Nat.zero_add]
      have h2 : 2 ^ (w * (i + 1)) = 2 ^ w * 2 ^ (w * i) := by rw [← Nat.pow_add]; congr 1; rw [Nat.mul_add, Nat.mul_one, Nat.add_comm]
      simp only [packBits, List.getElem_cons_succ]
      rw [h2, ← Nat.div_div_eq_div_mul, h1]
      exact ih i (by simpa using hi)

/-- Packed elements fit their bits. -/
theorem packBits_lt (w : Nat) (es : List Nat) : packBits w es < 2 ^ (w * es.length) := by
  induction es with
  | nil => simp [packBits]
  | cons c t ih =>
    have hp : 0 < 2 ^ w := Nat.two_pow_pos w
    have h2 : 2 ^ (w * (t.length + 1)) = 2 ^ w * 2 ^ (w * t.length) := by rw [← Nat.pow_add]; congr 1; rw [Nat.mul_add, Nat.mul_one, Nat.add_comm]
    simp only [packBits, List.length_cons, h2]
    have h3 := Nat.mod_lt c hp
    have h4 : 2 ^ w * (packBits w t + 1) ≤ 2 ^ w * 2 ^ (w * t.length) := Nat.mul_le_mul_left _ ih
    rw [Nat.mul_add] at h4
    omega

/-- Element `i` of a register built from its elements. -/
theorem elem_ofElems (w : Nat) (es : List Nat) (i : Nat) (hi : i < es.length) (hl : w * es.length ≤ 512) :
    elem (ofElems w es) w i = es[i] % 2 ^ w := by
  have h : packBits w es < 2 ^ 512 := Nat.lt_of_lt_of_le (packBits_lt w es) (Nat.pow_le_pow_right (by omega) hl)
  simp only [elem, ofElems, BitVec.toNat_ofNat, Nat.shiftRight_eq_div_pow, Nat.mod_eq_of_lt h]
  exact packBits_elem w es i hi

theorem elem_lt (v : BitVec 512) (w i : Nat) : elem v w i < 2 ^ w := Nat.mod_lt _ (Nat.two_pow_pos w)

/-- An active element takes its value, an inactive one keeps what it held (R221). -/
theorem elem_mapActive (w : Nat) (p : BitVec 64) (old : BitVec 512) (f : Nat → Nat) (i : Nat) (hi : i < 512 / w) :
    elem (mapActive w p old f) w i = if p.getLsbD (i * w / 8) then f i % 2 ^ w else elem old w i := by
  have hl : ((List.range (512 / w)).map fun i => if active p w i then f i % 2 ^ w else elem old w i).length = 512 / w := by simp
  have hb : active p w i = p.getLsbD (i * w / 8) := by
    simp only [active, Bits.nbit, BitVec.getLsbD, Nat.testBit_eq_decide_div_mod_eq, Nat.shiftRight_eq_div_pow, beq_eq_decide]
  unfold mapActive
  rw [elem_ofElems w _ i (by omega) (by rw [hl]; exact Nat.mul_div_le 512 w)]
  rw [List.getElem_map, List.getElem_range, hb]
  split
  · exact Nat.mod_mod _ _
  · exact Nat.mod_eq_of_lt (elem_lt old w i)

end HenAlu
end Sys2Proof
end

