-- ==== Sys2Proof/WellFormed.lean ====
section
/-!
DEFINITION. Which commands are well formed: the conditions on operands that their types do not carry (assigned agent IDs, register
offsets, pages of the deep tier, sizes of messages and findings).
-/
namespace Sys2Proof

/-- An assigned agent ID (R19, Tables 1-6 and 1-7). -/
def agentOk (a : BitVec 13) : Bool := agentAssigned a.toNat

/-- An offset in device register space (R26, R571). -/
def regOk (off : DevOff) : Bool := decide (off < 0x500000000)

/-- An offset of a shadow word (R583). -/
def shadowOk (off : DevOff) : Bool := regOk off && decide (off % 4 = 0) && decide (0x8000 ≤ off % 0x10000)

/-- A page of the deep window (R401). -/
def pageOk (p : Nat) : Bool := decide (p < (0x35C000000000 - 0x200000000000) / 0x200000)

/-- A flit's header carries the TYPE of its row, or a reserved one (Table 14-2). -/
def flitOk (h : FlitHdr) (type : Nat) : Bool :=
  let t := (h.word.extractLsb' 33 4).toNat
  t == type || decide (6 ≤ t)

/-- A MSG flit's payload of 240 B holds at most 15 slots (R435). -/
def msgsOk : FlitMsgs → Bool
  | .herd ms => decide (((ms.map Machine.Mach.msgSlots).flatten.map fun x => x.2).sum ≤ 15)
  | .slots cls ws => decide (cls.toNat ≤ 4) && decide (ws.length ≤ 15)

/-- An image's bytes are listed in rising order (R532). -/
def imageOk (i : Image) : Bool := (i.data.zip (i.data.drop 1)).all fun (x, y) => decide (x.1 < y.1)

/-- The command is well formed. -/
def Instr.wf : Instr → Bool
  | .domainReady die dom => decide (die ≠ 0 ∨ dom.val < 6)
  | .oxMmaPass _ errs => decide (errs.length ≤ 132)
  | .rds a _ => agentOk a
  | .rdo a _ => agentOk a
  | .upg a _ => agentOk a
  | .rdu a _ => agentOk a
  | .wrl a _ => agentOk a
  | .wrp a _ => agentOk a
  | .wbd a _ => agentOk a
  | .invn a _ => agentOk a
  | .atm a _ => agentOk a
  | .snpshr a _ _ => agentOk a
  | .snpown a _ _ => agentOk a
  | .snpownhome a _ _ => agentOk a
  | .snpdata a _ _ => agentOk a
  | .snpinv a _ _ => agentOk a
  | .homeResetSnoop a _ _ => agentOk a
  | .snoopResponse a _ => agentOk a
  | .grant a _ => agentOk a
  | .dat a _ => agentOk a
  | .stash a _ => agentOk a
  | .retryNack a _ => agentOk a
  | .promoteHint p _ => pageOk p
  | .flashReadDone p _ _ _ => pageOk p
  | .flashWriteDone p _ => pageOk p
  | .cleanAhead p _ => pageOk p
  | .retentionScan p _ _ => pageOk p
  | .flitIdle _ h => flitOk h 0
  | .flitMsg _ h u => flitOk h 1 && msgsOk u
  | .flitNak _ h => flitOk h 2
  | .flitDisc _ h _ => flitOk h 3
  | .flitTopo _ h r => flitOk h 4 && decide (r.ports.length = 16)
  | .flitFail _ h => flitOk h 5
  | .peerRead off => decide (off < 2 ^ 36)
  | .peerWrite off _ _ => decide (off < 2 ^ 36)
  | .windowFence a  => agentOk a
  | .stage6 _ f => decide (f.length ≤ 12)
  | .fwSend a  => agentOk a
  | .voteSweep corrected _ => corrected.all regOk
  | .recoveryWrite _ s1 ah mh => imageOk s1 && imageOk ah && imageOk mh
  | .mbxRead a _ _ => agentOk a
  | .mbxWrite a _ _ => agentOk a
  | .claim a _ => agentOk a
  | .mbxRelease a _ => agentOk a
  | .shadowLowRead a off => agentOk a && shadowOk off
  | .shadowHighRead a off => agentOk a && shadowOk off
  | .counterClear a off _ => agentOk a && regOk off
  | .regWrite a off _ => agentOk a && regOk off
  | .beatEdge _ _ | .beatWord _ _ | .wordTimeout | .beatWrap | .missingEdge | .siteNop | .siteHold | .siteRelease | .siteCap _
  | .siteLean | .slotStart | .opStepDone _ | .retentionExitDone _ | .targetOp _ _ | .targetRet _ _ | .domainCtl _ _ _
  | .meterSample _ _ _ _ _ _ _ | .enforcementStep | .enforcementUndo | .capUnmet | .fastLimit | .fastLimitEnd | .tokenReturn _
  | .opStep _ _ | .domain _ _ | .scrubBurst _ _ | .scrubBurstEnd _ _ | .rampPermit _ _ | .rampPermitEnd _ _ | .saveWindow _
  | .vinWarning _ _ | .inputOpen _ _ | .inputClose _ _ | .supplyClear _ _ | .leanWaitEnd _ | .saveStart | .saveCopyDone | .vbusSeal _
  | .supplyReset | .oxProgFetch _ | .oxNop _ | .oxEnd _ | .oxLdw _ | .oxLdwDone _ | .oxLds _ | .oxLdsDone _ | .oxSwp _ | .oxSwpDone _
  | .oxMma _ | .oxRefusedReturn _ | .oxDiagnosisDone _ _ | .oxZac _ | .oxZacDone _ | .oxDrn _ | .oxDrnDone _ | .oxDset _ | .oxSwt _
  | .oxSrel _ | .oxFence _ | .oxRampUpDone _ | .oxRampDownDone _ | .oxRun _ | .oxQuiesce _ | .oxQuiesceDone _ | .oxForceDisable _
  | .oxDisableDone _ | .oxDiag _ | .henAdd _ _ | .henSub _ _ | .henAnd _ _ | .henOr _ _ | .henXor _ _ | .henAndn _ _ | .henSll _ _
  | .henSrl _ _ | .henSra _ _ | .henRor _ _ | .henSlt _ _ | .henSltu _ _ | .henMin _ _ | .henMax _ _ | .henMinu _ _ | .henMaxu _ _
  | .henMul _ _ | .henMulh _ _ | .henMulhu _ _ | .henMulhsu _ _ | .henDiv _ _ | .henDivu _ _ | .henRem _ _ | .henRemu _ _ | .henClz _ _
  | .henCtz _ _ | .henPopc _ _ | .henAddi _ _ | .henAndi _ _ | .henOri _ _ | .henXori _ _ | .henSlti _ _ | .henSltiu _ _ | .henShi _ _
  | .henImz _ _ | .henImk _ _ | .henLb _ _ | .henLbu _ _ | .henLh _ _ | .henLhu _ _ | .henLw _ _ | .henLwu _ _ | .henLd _ _ | .henSb _ _
  | .henSh _ _ | .henSw _ _ | .henSd _ _ | .henSth _ _ | .henLr _ _ | .henSc _ _ | .henSwap _ _ | .henAadd _ _ | .henAand _ _
  | .henAor _ _ | .henAxor _ _ | .henAmin _ _ | .henAmax _ _ | .henAminu _ _ | .henAmaxu _ _ | .henCas _ _ | .henFadd _ _ | .henLvol _ _
  | .henVld _ _ | .henVst _ _ | .henVadd _ _ | .henVsub _ _ | .henVmul _ _ | .henVfma _ _ | .henVfms _ _ | .henVmin _ _ | .henVmax _ _
  | .henVabs _ _ | .henVneg _ _ | .henVexp2 _ _ | .henVrcp _ _ | .henVrsq _ _ | .henVdot8 _ _ | .henVopiVadd _ _ | .henVopiVsub _ _
  | .henVopiVmul _ _ | .henVopiVmin _ _ | .henVopiVmax _ _ | .henVminu _ _ | .henVmaxu _ _ | .henVand _ _ | .henVor _ _ | .henVxor _ _
  | .henVandn _ _ | .henVsll _ _ | .henVsrl _ _ | .henVsra _ _ | .henVcmp _ _ | .henPand _ _ | .henPor _ _ | .henPxor _ _ | .henPandn _ _
  | .henPnot _ _ | .henPmovg _ _ | .henGmovp _ _ | .henVpermb _ _ | .henVbcast _ _ | .henVins _ _ | .henVext _ _ | .henVzipl _ _
  | .henVziph _ _ | .henVmov _ _ | .henVsel _ _ | .henVunpk6 _ _ | .henVpk6 _ _ | .henRsum _ _ | .henRmin _ _ | .henRmax _ _
  | .henVcvt _ _ | .henBeq _ _ | .henBne _ _ | .henBlt _ _ | .henBge _ _ | .henBltu _ _ | .henBgeu _ _ | .henJ _ _ | .henJal _ _
  | .henJalr _ _ | .henMpush _ _ | .henCpush _ _ | .henSadd _ _ | .henSwait _ _ | .henSread _ _ | .henDcClean _ _ | .henDcFlush _ _
  | .henDcInv _ _ | .henDcPf _ _ | .henDcCleanSw _ _ | .henDcFlushSw _ _ | .henDcInvSw _ _ | .henIcInv _ _ | .henCrr _ _ | .henCrw _ _
  | .henCrs _ _ | .henCrc _ _ | .henBar _ _ | .henTrap _ _ | .henBreak _ _ | .henEret _ _ | .henWfi _ _ | .sbRetire _ _
  | .impreciseException _ | .interrupt _ | .timer _ _ | .selftestSlice _ _ _ | .lrHoldEnd _ | .henRun _ | .henQuiesce _
  | .henForceDisable _ | .henRestart _ | .irq _ | .collieDispatch _ _ | .itemTake _ _ | .itemDone _ _ | .itemFail _ _ _ | .itemReturn _
  | .stealSib _ _ | .probeRound _ _ | .probe _ _ | .stealCopyDone _ _ | .copyBackDone _ _ | .collieRun _ | .collieQuiesce _
  | .collieForceQuiesce _ | .collieQuiesceDone _ | .collieEvict _ | .waitPoll _ | .syncCountWrite _ _ _ | .muleDescStart _
  | .muleCopy _ _ _ | .muleTranspose _ _ _ | .muleGather _ _ _ | .muleScatter _ _ _ | .muleFill _ _ _ | .muleReduce _ _ _
  | .muleDescComplete _ _ | .muleDescError _ _ | .muleRun _ | .muleQuiesce _ | .muleAbort _ | .muleQuiesceDone _ | .resume0 _
  | .muleFlush _ _ | .atmLineOp _ | .deadWalkDone _ | .sliceScrub _ _ | .scFlush _ | .scFlushDone _ | .hbmReadReturn _ _ _ _ _
  | .hbmWriteGroup _ _ | .hbmParityError _ _ _ _ | .hbmRefresh _ _ | .hbmTempRead _ _ | .hbmScrubRead _ _ _ _ _ | .retrainPeriod _ _
  | .retrainStart _ _ | .retrainForced _ _ | .retrainDone _ _ _ | .retrainAll _ | .cntClr _ | .promotionStart | .evictionStart
  | .heatEpoch | .budgetTick | .stallLate _ | .flashProgramFail _ _ | .tierFlush | .tierFlushDone | .idleSend _ | .laneLockLoss _ _ | .linkSilence _ | .trainingDone _ _ | .trainTimeout _
  | .herdRetry _ | .cablePresent _ _ | .linkRetrain _ | .holdDown _ _ | .topoTimer | .routeCompute | .herdRequest _ | .herdResponse _
  | .herdResend _ | .attach _ | .mcastReceive _ _ _ _ _ | .hostMemRequest _ _ _ _ _ | .hostSnoop _ _ | .hostCompletion _ _ _ _
  | .uioRequest _ _ _ _ | .ringDoorbell _ _ | .ringSlotRead _ | .ringPoll _ | .ringNop _ | .ringItem _ | .ringMule _ | .ringWrite _
  | .ringSadd _ | .ringSwait _ | .ringPushRetry _ | .cqRecordWrite _ | .cqHeadWrite _ _ | .ringEnable _ | .ringDisable _ | .ringResume _
  | .bmeClear | .bmeSet | .hostPulse _ _ | .pulseTimeout _ | .linkLayerDown | .perst | .detach | .detachDone | .replayDone | .fresh
  | .acoreLoad _ _ _ _ | .acoreStore _ _ _ _ _ | .acoreIoAccess _ _ _ _ _ _ | .acoreAmo _ _ _ _ _ _ | .acoreLr _ _ _ _
  | .acoreSc _ _ _ _ _ | .acoreFence _ _ _ | .cboClean _ _ _ | .cboFlush _ _ _ | .cboInval _ _ _ | .cboZero _ _ _ | .storeErr _
  | .lostStore _ | .targetClk _ | .cluster _ _ | .acoreClkDone | .powerOnReset _ | .externalReset _ _ | .modResetRelease _ | .swReset _
  | .killToken | .stage0 _ _ _ | .stage1 _ _ | .stage2 _ | .stage3 _ _ | .stage4 _ _ _ _ _ | .stage5 _ _ _ _ _ | .stage7 _ | .stage8 _
  | .stage9 _ | .fwRoundEnd _ | .restore | .restoreDone | .quiesceDie _ _ | .flushDie _ _ | .resetDie _ _ | .testDie _ _ | .hbmUp _ _
  | .loadFw _ _ _ | .rejoin _ _ | .release _ _ _ | .addDie _ _ | .flockOff _ _ _ | .flockOn _ _ _ | .svcStepDone _ _ | .dieFatalFault _
  | .dieTempLimit _ _ | .mclkLoss _ | .kerlyRefLoss _ | .meterHeartbeatMiss _ | .regulatorFault _ _ | .cdieOverTemp _ | .gooseRelease _ _
  | .heartbeatMiss _ | .goosePet _ _ | .glitch _ | .entropyFail | .rollbackCommit | .debugLock | .quoteDone | .dropPacket _ | .mbxDone _
  | .swAlert _ | .vinBelowClear _ _ | .flockScrubRead _ | .mcastSendDone | .cxlLinkUp _ _ | .alwaysOnPowerLoss _ | .linkLocalTimeout => true

end Sys2Proof
end

