-- ==== Sys2Proof/Tests/Slice0.lean ====
section
/-!
SUPPORT. The model's own tests: the well-formedness checks refuse ill-formed commands, worked examples of the spec, and for each obligation a
witness that its hypotheses can be met, clause by clause.
-/
set_option exponentiation.threshold 600
set_option maxRecDepth 8000

namespace Sys2Proof.Tests
open Sys2Proof Sys2Proof.Machine Sys2Proof.Claims

/-! ### States to test on -/

/-- An A-die in service at OP3 with every domain ON and 24 flocks enabled. -/
def dieUp : Die := { curOp := 3, targetOp := 3, domains := (List.range 42).map fun i => (i, .on), flockMap := 0xFFFFFF#27 }

/-- The module in service: locked beat, four A-dies, every application cluster ON. -/
def up : Mach :=
  { now := 1000, beat := { locked := true, ref := 1000, zero := 1000, lastEdge := some 1000, lastAccepted := some 1000 },
    dies := [(0, dieUp), (1, dieUp), (2, dieUp), (3, dieUp)], boot := { stage := 9, ready := true },
    acores := { clusters := (List.range 6).map fun i => (i, 2) } }

def st (m : Mach) : State := { pending := [], fuses := {}, m := m }

/-- What the fetch of Hen `a` returns: the word, and the module as the instruction finds it. -/
def fetched (m : Mach) (a : Nat) : Option (BitVec 32) := match m.henFetch a with | .word w _ => some w | _ => none
def found (m : Mach) (a : Nat) : Mach := match m.henFetch a with | .word w f => f.henHold a w | _ => m

/-- It is the turn of Hen `a` and its fetch returns `w`. -/
def canTurn (m : Mach) (a : Nat) (w : BitVec 32) : Bool :=
  m.henLive a && decide ((m.hen a).wait = .none) && (!m.henOpen a || ((m.hen a).imp.isNone && decide (m.henIrqs a = 0)))
    && decide (fetched m a = some w)

theorem turned {m : Mach} {a : Nat} {w : BitVec 32} (h : canTurn m a w = true) : HenTurn m a w (found m a) := by
  simp only [canTurn, Bool.and_eq_true, decide_eq_true_eq, Bool.or_eq_true, Bool.not_eq_true', Option.isNone_iff_eq_none] at h
  obtain ⟨⟨⟨h1, h2⟩, h3⟩, h4⟩ := h
  refine ⟨⟨h1, h2, fun ho => ?_⟩, ?_⟩
  · rcases h3 with h3 | h3
    · rw [ho] at h3; cases h3
    · exact h3
  · unfold fetched at h4
    unfold found
    cases hf : m.henFetch a with
    | word v f => rw [hf] at h4; simp only [Option.some.injEq] at h4; subst h4; exact ⟨f, rfl, rfl⟩
    | fault c p n => rw [hf] at h4; cases h4
    | wait n => rw [hf] at h4; cases h4

theorem notDev {t : Target} (h : (match t with | .dev _ => false | _ => true) = true) : ∀ off, t ≠ .dev off := by
  rintro off rfl
  cases h

theorem oneTo3 {p : Nat → Prop} (h1 : p 1) (h2 : p 2) (h3 : p 3) (i : Nat) (a : 1 ≤ i) (b : i ≤ 3) : p i := by
  have : i = 1 ∨ i = 2 ∨ i = 3 := by omega
  rcases this with rfl | rfl | rfl <;> assumption

theorem only1 {p : Nat → Prop} (h : p 1) (i : Nat) (a : 0 < i) (b : i < 2) : p i := by
  obtain rfl : i = 1 := by omega
  exact h

/-- Hen 0 of flock 0 of A0, running in firmware privilege at PC `0x020040000000`, with `w` in its instruction cache there, and the edit `f`. -/
def hen0 : HenId := .flock 0 0 0
def hm (w : BitVec 32) (f : Hen → Hen) (m : Mach) : Mach :=
  let x : Hen :=
    { state := .running, pc := 0x020040000000#56, ic := [(0x020040000000 / 64, some (w.setWidth 512))], icSets := [(0, [0x020040000000 / 64])],
      bootPc := 0x020040000000#56 }
  m.setHen hen0.agent (f x)


/-- The word of an instruction: opcode, the three register fields and func; and with a 16-bit immediate. -/
def word (op a b c f : Nat) : BitVec 32 := BitVec.ofNat 32 (op * 2 ^ 26 + a * 2 ^ 21 + b * 2 ^ 16 + c * 2 ^ 11 + f)
def wordI (op a b i : Nat) : BitVec 32 := BitVec.ofNat 32 (op * 2 ^ 26 + a * 2 ^ 21 + b * 2 ^ 16 + i)
def crWord (k c a b : Nat) : BitVec 32 := BitVec.ofNat 32 (0x3E * 2 ^ 26 + a * 2 ^ 21 + b * 2 ^ 16 + c * 2 ^ 8 + k * 2 ^ 6)
/-- The state in which `hen0` meets `w`. -/
def hs (w : BitVec 32) (f : Hen → Hen := id) (m : Mach := up) : State := st (hm w f m)

/-- A beat word with its CRC. -/
def bw (x : Nat) : BitVec 48 := BitVec.ofNat 48 (x + Mach.wordCrc (BitVec.ofNat 48 x) * 2 ^ 40)
/-- The module with A-die A`d` changed. -/
def die (d : Fin 4) (f : Die → Die) : State := st (up.modDie d f)
def beat (f : Beat → Beat) : State := st { up with beat := f up.beat }
def gov (f : Gov → Gov) : State := st (up.modGov f)
/-- A valid scheduler entry for beat 0 and angle 0, and the module with it in entry `e` of die `k`. -/
def ent (act arg : Nat) : BitVec 64 := BitVec.ofNat 64 (2 ^ 63 + act * 2 ^ 40 + arg * 2 ^ 44)
def sched (k e act arg : Nat) (m : Mach := up) : State := st { m with sched := [(64 * k + e, ent act arg)] }
/-- Ox 0 of flock 0 of A0, RUNNING, changed by `f`; its first unissued instruction `w`; and the instruction `w` in flight. -/
def ox0 : OxId := ⟨0, 0, 0⟩
def oxs (f : Ox → Ox) (m : Mach := up) : State := st { m with oxen := [(1040, f { state := .running })] }
def oxq (w : BitVec 64) (f : Ox → Ox := id) (m : Mach := up) : State := oxs (fun x => { f x with queue := [w] }) m
def oxf (w : BitVec 64) (f : Ox → Ox := id) (m : Mach := up) : State := oxs (fun x => { f x with flight := [{ word := w, idx := 0 }] }) m
def fl (w : BitVec 64) : OxFlight := { word := w, idx := 0 }
/-- An Ox word: opcode, and the other fields. -/
def ow (op rest : Nat) : BitVec 64 := BitVec.ofNat 64 (op * 2 ^ 58 + rest)
def wset : WSet := { valid := true, spec := 0, rows := List.replicate 32 [], check := List.replicate 32 (some ⟨0, 0⟩) }
/-- Flock 0 of A0 with its Collie RUNNING, changed by `f`; Hens in state `x`. -/
def f0 : FlockId := ⟨0, 0⟩
def f1 : FlockId := ⟨0, 1⟩
def col (f : Collie → Collie) (m : Mach := up) : State := st (m.modCollie 1024 fun c => f { c with state := .running })
def item (w : BitVec 512) (p : Place) : PoolItem := { id := 1, w := w, queue := 0, place := p }
def hensIn (x : HenState) : Mach := { up with hens := (List.range 16).map fun u => (1024 + u, { state := x }) }
def oxIdle : Mach := { up with oxen := [(1040, { state := .idle })] }
/-- A line of eight 64-bit words, word 0 first. -/
def line (l : List Nat) : BitVec 512 := BitVec.ofNat 512 (l.foldr (fun x a => x + 2 ^ 64 * a) 0)
/-- Mule 0 of flock 0 of A0; a descriptor of it in progress. -/
def mu0 : MuleId := .flock 0 0 0
def mule (x : Mule) (m : Mach := up) : State := st { m with mules := [(1044, x)] }
def desc (w : BitVec 512) : Desc := { w := w, queue := 0, seq := 0, started := some 0 }
/-- The line of HBM at view address 0x40, as its home names it. -/
def hl : Nat := 0x400000001
def req (k : ReqKind) : HomeReq := { kind := k, agent := 1027, line := hl }
def sl0 : SliceLine := { data := 0x1234#512 }
def coh (c : Coh) (m : Mach := up) : State := st { m with coh := c }
/-- Hen 3 of flock 0 of A0, running, with `x` in its data cache. -/
def hen3 (x : CacheLine) (f : Hen → Hen := id) : Mach := up.setHen 1027 (f { state := .running, dc := [(1, { w0 := some x })] })
def b0 : HbmId := ⟨0, 0⟩
def hbm0 (x : Hbm) (m : Mach := up) : State := st { m with hbms := [(0, x)] }
def pc0 (x : Pc) (h : Hbm := {}) : State := hbm0 { h with pcs := [(5, x)] }
/-- A mounted tier of size 1, changed by `f`; and one whose frames are all in use by pages of heat `h`, `d` dirty. -/
def tier (f : Tier → Tier := id) (m : Mach := up) : State := st { m with tier := f { state := .mounted, size := 1 } }
def fullTier (h : Nat) (d : BitVec 32) (f : Tier → Tier := id) : State :=
  tier fun t => f { t with pages := (List.range 8144).map fun i => (i + 10, { frame := some (48 + i), heat := h, valid := 0xFFFFFFFF, dirty := d }) }
def deepLine (p sub : Nat) : Nat := (deepBase + p * 0x200000 + sub * 0x10000) / 64
/-- Herd port 2, and link ends as `x`. -/
def lp : LinkId := .herd 2
def lnk (x : Link) (m : Mach := up) : State := st { m with links := [(18, { x with state := .up })] }
def hdr (seq ack : BitVec 12) : FlitHdr := { word := BitVec.ofNat 64 (seq.toNat + ack.toNat * 2 ^ 12), crcOk := true, fecCorr := 0, fecUncorr := 0 }
def hmsg (k : HerdKind) : HerdMsg :=
  { kind := k, src := 511, dst := 511, num := 0, agent := 1027, addr := 0x40, code := 0, data := 5, cmp := 0, mask := fullMask, poison := false, tail := false, hops := 0 }
def disc (i : BitVec 64) : Disc :=
  { identity := i, die := 0, revision := 1, features := 0, version := 1, port := 3, module := 7, bellCand := false, bellwether := false, lr := false }
/-- The payload of a DISC flit. -/
def pay (i : BitVec 64) : BitVec 152 := discWord (disc i)
def trec (n : BitVec 9) (q : Nat) (i : BitVec 64) : TopoRec :=
  { module := n, seq := q, ports := [], groups := 1, identity := i, bellCand := false, bellwether := false }
def herd (h : Herd) (m : Mach := up) : State := st { m with herd := h }
/-- A module whose home holds the line of address 0x40, resident with `x` and held by nobody. -/
def withLine (x : SliceLine) (m : Mach := up) : Mach := { m with coh := { lines := [(hl, some x)] } }
def host (h : HostPort) (m : Mach := up) : State := st { m with host := h }
/-- A ring slot of sixteen 32-bit words, word 0 first. -/
def slot (l : List Nat) : BitVec 512 := BitVec.ofNat 512 (l.foldr (fun x a => x + 2 ^ 32 * a) 0)
/-- Ring 3, enabled, on an attached host with bus-master enable. -/
def ring3 (g : Ring) (m : Mach := up) : State := host { state := .attached, bme := true, rings := [(3, { g with en := true })] } m
def cmd3 (w : BitVec 512) (m : Mach := up) : State := ring3 { cmds := [{ w := w, seq := 7 }] } m
/-- The system cache holding the line of address 0x40 as `x`; application core 9 in state `c`. -/
def sys1 (x : SysLine) (c : Core := {}) : State := st { up with acores := { up.acores with sys := [(hl, some x)], lru := [hl], cores := [(9, c)] } }

/-- The home of the first record of the held-completion ring. -/
def heldSa : Nat := 1204231016576

/-- Die A0's service record as `f`; and step `n` of die A0 in progress. -/
def svc (f : SvcDie) : State := st { up with boot := { up.boot with svcDies := [(0, f)] } }
def svcAt (n : Nat) (f : SvcDie) (m : Mach := up) : State :=
  st { m with boot := { up.boot with svcBusy := some ⟨n, 0, 0, 0⟩, svcDies := [(0, f)] } }
/-- Die A0's Collies and Mules quiesced. -/
def quiet : Mach :=
  { up with collies := (List.range 26).map fun f => (flockBase 0 f, { state := .quiesced }), mules := (Mach.dieMules 0).map fun a => (a, { state := .quiesced }) }

/-! ### Ill-formed commands: one for each check -/

/-- Agent ID 0x1FFF is assigned to nobody (Table 1-6). -/
theorem test_wf_refuses_agent : (Instr.rds 0x1FFF 1).wf = false := by decide
theorem test_wf_refuses_register : (Instr.regWrite 1027 0x500000000 0).wf = false := by decide
theorem test_wf_refuses_shadow : (Instr.shadowLowRead 1027 0x7FFC).wf = false := by decide
theorem test_wf_refuses_page : (Instr.evictionStart).wf = true ∧ (Instr.promoteHint 0xAE0000 3).wf = false := by decide
theorem test_wf_refuses_payload : msgsOk (.slots 5 []) = false ∧ msgsOk (.herd (List.replicate 16 (hmsg .read))) = false := by decide
theorem test_wf_refuses_image :
    imageOk { version := 0, minRev := 0, chunks := 1, entry := 0, vector := 0, digest := 0, sig := 0, key := 0, secVersion := 0,
              data := [(5, 1), (5, 2)] } = false := by decide
theorem test_wf_refuses_domain : (Instr.domainReady 0 6).wf = false := by decide
theorem test_wf_refuses_window : (Instr.peerRead 0x1000000000).wf = false := by decide
theorem test_wf_refuses_stacks :
    (Instr.stage6 0 (List.replicate 13 { again := 0, failed := false, repaired := 0, poison := [] })).wf = false := by decide
theorem test_wf_refuses_topo : (Instr.flitTopo (.herd 2) (hdr 0 0) (trec 3 1 5)).wf = false := by decide

/-! ### Worked examples of the spec -/

/-- The module after a command. -/
def after : Host.Outcome State Fault Refusal → Mach
  | .next t => t.m
  | _ => up

/-- Table 7-19, its instructions one by one, each on the register its predecessors leave. -/
def with5 (v : BitVec 64) (w : BitVec 32) : State := hs w fun x => { x with g := FMap.set 0 x.g 5 v }
theorem test_imz_example : (after (exec (.henImz hen0 0x20A03400#32) (hs 0x20A03400#32))).g hen0.agent 5 = 0x3400 := by decide +kernel
theorem test_imk_example :
    (after (exec (.henImk hen0 0x24B80089#32) (with5 0x4200D2123400#64 0x24B80089#32))).g hen0.agent 5 = 0x894200D2123400 := by decide +kernel
theorem test_addi_example : (after (exec (.henAddi hen0 0x09000001#32) (hs 0x09000001#32))).g hen0.agent 8 = 1 := by decide +kernel

/-- The addresses of the example of chapter 01: module 37, A2, flock 18, offset 0x12_3400; and Ox 2's agent ID. -/
theorem test_herd_address : up.target 0x894200D2123400 = .herd 37 0x0200D2123400 := by decide
theorem test_flock_address : up.target 0x0200D2123400 = .flock (agentId 3 18 0) 0x0200D2123400 := by decide

/-- The placement example of chapter 12: stack 6, pseudo-channel 19, offset 0x1_845C_8CC0, home slice 3 of A2. -/
theorem test_interleave_example : interleave 1221679586 = 0x0161845C8CC0 ∧ homeSlice 0x0161845C8CC0 = 16 * 2 + 3 := by decide

/-- The poison record of the example of chapter 11. -/
theorem test_poison_record :
    ((up.poisonLog (0x0161845C8CC0 / 64) 0 0x489 false).poisonPop 2).1 = 0x312240000001234567880#128 := by decide

/-- The fields of the MMA and DRN words of chapter 05. -/
theorem test_mma_word :
    Mach.oxOpc 0x200B4004E3F80000 = 8 ∧ Mach.oxf 0x200B4004E3F80000 41 17 = 0x5A0 ∧ Mach.oxf 0x200B4004E3F80000 31 10 = 9
      ∧ Mach.oxf 0x200B4004E3F80000 29 2 = 3 ∧ Mach.oxf 0x200B4004E3F80000 19 9 = 127 := by decide
theorem test_drn_word :
    Mach.oxOpc 0x316400000FF80801 = 0xC ∧ Mach.oxf 0x316400000FF80801 41 17 = 0xB200 ∧ Mach.oxf 0x316400000FF80801 0 9 = 1 := by decide

/-- The block of Table 3-7 (activation scale 0x7B, weight scale 0x80) added to 2^24 gives 16,777,218, which is 0x4B800001. -/
def actBlock : List Num := ((List.replicate 4 [0x7, 0x9, 0x3, 0x5, 0x0, 0x4, 0xE, 0x2]).flatten).map (Fmt.decode .e2m1)
def wBlock : List Num := ((List.replicate 4 [0x1, 0x6, 0xC, 0x2, 0x7, 0xB, 0x9, 0x5]).flatten).map (Fmt.decode .e2m1)
theorem test_block_example : accUpdate 0x4B800000 [blockSum false actBlock wBlock 0x7B 0x80] = 0x4B800001 := by decide +kernel

/-- Chapter 17: rows 13 and 27 and columns 5 and 30 of array 1 replaced; 24 flocks without 4 and 19. -/
theorem test_ox_repair : Mach.oxRepairWord { repair := [(1, 0xDEC59B8D)] } = 0x808 := by decide
theorem test_flock_map : Mach.flockMapOf ((List.range 26).filter fun f => f ≠ 4 ∧ f ≠ 19) = 0x3F7FFEF := by decide

/-- Chapter 18: the FIFO of A2 with write pointer 1,000 and read pointer 490 takes five words; the read pointer moves to 493 and LOST counts 3. -/
def telEx : Mach := { up with tels := [(3, { wr := 1000, rd := 490 })] }.telRecord 3 2 0 [1, 2, 3, 4]
theorem test_fifo_overwrites : (telEx.tel 3).rd = 493 ∧ telEx.reg (telReg 3 8) = 3 := by decide +kernel

/-- Chapter 19: OX_CTL of Ox 1 of flock 7 on A1; a counter of controller 1 on A2 in the shadow window. -/
theorem test_ox_register : oxReg (agentId 2 7 17) 0 = 0x200070440 := by decide
theorem test_shadow_example :
    { up with hbms := [(7, { counters := [(0, 77)] })] : Mach }.shadowOf (blkKey 0x300238080) 0x8080 = some (77, { up with hbms := [(7, { counters := [(0, 77)] })] }) := by decide +kernel

/-- Chapter 16: the completion record of ring 7's SWAIT. -/
theorem test_completion_record : cplRecord 8 1 0 7 1 true false = 0x100000F0000010008#128 := by decide
/-- Chapter 15: the completion record of ring 3's SWAIT, in place 700. -/
theorem test_completion_example : cplRecord 0x12 0x1005 0 3 0x2A true false = 0x2A0000070010050012#128 := by decide

/-! ### Each obligation: its hypotheses can be met, clause by clause -/

def ImmRowMet (o : Nat) : Prop :=
  (∃ (h : HenId) (w : BitVec 32) (s : State) (n : Mach), HenTurn s.m h.agent w n ∧ HenAlu.op w = o)

def ShiRowMet (k : Nat) : Prop :=
  (∃ (h : HenId) (w : BitVec 32) (s : State) (n : Mach), HenTurn s.m h.agent w n ∧ HenAlu.op w = 0x0A ∧ HenAlu.fld w 6 2 = k ∧ HenAlu.fld w 9 7 = 0 ∧ HenAlu.fld w 8 1 = 0)
  ∧ (∃ (h : HenId) (w : BitVec 32) (s : State) (n : Mach), HenTurn s.m h.agent w n ∧ HenAlu.op w = 0x0A ∧ HenAlu.fld w 6 2 = k ∧ HenAlu.fld w 9 7 = 0 ∧ HenAlu.fld w 8 1 = 1 ∧ HenAlu.fld w 5 1 = 0)

theorem witness_HenImmediateResults_1 :
    ImmRowMet 0x02
    ∧ ImmRowMet 0x03
    ∧ ImmRowMet 0x04
    ∧ ImmRowMet 0x05
    ∧ ImmRowMet 0x06 :=
  ⟨⟨hen0, wordI 0x02 3 1 0xFFFC, hs (wordI 0x02 3 1 0xFFFC) (fun x => { x with g := [(1, 0xFFFFFFFF80000005#64)] }), _, turned (by decide), by decide⟩,
   ⟨hen0, wordI 0x03 3 1 0xFFFC, hs (wordI 0x03 3 1 0xFFFC) (fun x => { x with g := [(1, 0xFFFFFFFF80000005#64)] }), _, turned (by decide), by decide⟩,
   ⟨hen0, wordI 0x04 3 1 0xFFFC, hs (wordI 0x04 3 1 0xFFFC) (fun x => { x with g := [(1, 0xFFFFFFFF80000005#64)] }), _, turned (by decide), by decide⟩,
   ⟨hen0, wordI 0x05 3 1 0xFFFC, hs (wordI 0x05 3 1 0xFFFC) (fun x => { x with g := [(1, 0xFFFFFFFF80000005#64)] }), _, turned (by decide), by decide⟩,
   ⟨hen0, wordI 0x06 3 1 0xFFFC, hs (wordI 0x06 3 1 0xFFFC) (fun x => { x with g := [(1, 0xFFFFFFFF80000005#64)] }), _, turned (by decide), by decide⟩⟩

theorem witness_HenImmediateResults_2 :
    ImmRowMet 0x07
    ∧ ShiRowMet 0
    ∧ ShiRowMet 1
    ∧ ShiRowMet 2
    ∧ ShiRowMet 3 :=
  ⟨⟨hen0, wordI 0x07 3 1 0xFFFC, hs (wordI 0x07 3 1 0xFFFC) (fun x => { x with g := [(1, 0xFFFFFFFF80000005#64)] }), _, turned (by decide), by decide⟩,
   ⟨⟨hen0, wordI 0x0A 3 1 (0 * 64 + 9), hs (wordI 0x0A 3 1 (0 * 64 + 9)) (fun x => { x with g := [(1, 0xFFFFFFFF80000005#64)] }), _, turned (by decide), by decide⟩, ⟨hen0, wordI 0x0A 3 1 (256 + 0 * 64 + 9), hs (wordI 0x0A 3 1 (256 + 0 * 64 + 9)) (fun x => { x with g := [(1, 0xFFFFFFFF80000005#64)] }), _, turned (by decide), by decide⟩⟩,
   ⟨⟨hen0, wordI 0x0A 3 1 (1 * 64 + 9), hs (wordI 0x0A 3 1 (1 * 64 + 9)) (fun x => { x with g := [(1, 0xFFFFFFFF80000005#64)] }), _, turned (by decide), by decide⟩, ⟨hen0, wordI 0x0A 3 1 (256 + 1 * 64 + 9), hs (wordI 0x0A 3 1 (256 + 1 * 64 + 9)) (fun x => { x with g := [(1, 0xFFFFFFFF80000005#64)] }), _, turned (by decide), by decide⟩⟩,
   ⟨⟨hen0, wordI 0x0A 3 1 (2 * 64 + 9), hs (wordI 0x0A 3 1 (2 * 64 + 9)) (fun x => { x with g := [(1, 0xFFFFFFFF80000005#64)] }), _, turned (by decide), by decide⟩, ⟨hen0, wordI 0x0A 3 1 (256 + 2 * 64 + 9), hs (wordI 0x0A 3 1 (256 + 2 * 64 + 9)) (fun x => { x with g := [(1, 0xFFFFFFFF80000005#64)] }), _, turned (by decide), by decide⟩⟩,
   ⟨⟨hen0, wordI 0x0A 3 1 (3 * 64 + 9), hs (wordI 0x0A 3 1 (3 * 64 + 9)) (fun x => { x with g := [(1, 0xFFFFFFFF80000005#64)] }), _, turned (by decide), by decide⟩, ⟨hen0, wordI 0x0A 3 1 (256 + 3 * 64 + 9), hs (wordI 0x0A 3 1 (256 + 3 * 64 + 9)) (fun x => { x with g := [(1, 0xFFFFFFFF80000005#64)] }), _, turned (by decide), by decide⟩⟩⟩

theorem witness_HenImmediateResults_3 :
    (∃ (h : HenId) (w : BitVec 32) (s : State) (n : Mach) (k : Nat), HenTurn s.m h.agent w n ∧ HenAlu.op w = 0x08 ∧ HenAlu.fld w 16 3 = 0 ∧ HenAlu.fld w 19 2 = k)
    ∧ (∃ (h : HenId) (w : BitVec 32) (s : State) (n : Mach) (k : Nat), HenTurn s.m h.agent w n ∧ HenAlu.op w = 0x09 ∧ HenAlu.fld w 16 3 = 0 ∧ HenAlu.fld w 19 2 = k) :=
  ⟨⟨hen0, wordI 0x08 3 0x18 0xABCD, hs (wordI 0x08 3 0x18 0xABCD) (fun x => { x with g := [(1, 0xFFFFFFFF80000005#64)] }), _, 3, turned (by decide), by decide⟩,
   ⟨hen0, wordI 0x09 1 0x18 0xABCD, hs (wordI 0x09 1 0x18 0xABCD) (fun x => { x with g := [(1, 0xFFFFFFFF80000005#64)] }), _, 3, turned (by decide), by decide⟩⟩

def BranchRowMet (o : Nat) (p : Word → Word → Prop) : Prop :=
  (∃ (h : HenId) (w : BitVec 32) (s : State) (n : Mach), HenTurn s.m h.agent w n ∧ HenAlu.op w = o ∧ p (n.g h.agent (HenAlu.fA w)) (n.g h.agent (HenAlu.fB w)))
  ∧ (∃ (h : HenId) (w : BitVec 32) (s : State) (n : Mach), HenTurn s.m h.agent w n ∧ HenAlu.op w = o ∧ ¬ p (n.g h.agent (HenAlu.fA w)) (n.g h.agent (HenAlu.fB w)))

theorem witness_HenBranchAndJumpTargets_1 :
    BranchRowMet 0x28 (fun x y => x = y)
    ∧ BranchRowMet 0x29 (fun x y => x ≠ y)
    ∧ BranchRowMet 0x2A (fun x y => x.toInt < y.toInt)
    ∧ BranchRowMet 0x2B (fun x y => y.toInt ≤ x.toInt)
    ∧ BranchRowMet 0x2C (fun x y => x.toNat < y.toNat) :=
  ⟨⟨⟨hen0, wordI 0x28 1 1 0x8000, hs (wordI 0x28 1 1 0x8000) (fun x => { x with g := [(1, 0xFFFFFFFF80000005#64), (2, 5#64)] }), _, turned (by decide), by decide⟩, ⟨hen0, wordI 0x28 1 2 0xFFFF, hs (wordI 0x28 1 2 0xFFFF) (fun x => { x with g := [(1, 0xFFFFFFFF80000005#64), (2, 5#64)] }), _, turned (by decide), by decide⟩⟩,
   ⟨⟨hen0, wordI 0x29 1 2 0xFFFF, hs (wordI 0x29 1 2 0xFFFF) (fun x => { x with g := [(1, 0xFFFFFFFF80000005#64), (2, 5#64)] }), _, turned (by decide), by decide⟩, ⟨hen0, wordI 0x29 1 1 0x7FFF, hs (wordI 0x29 1 1 0x7FFF) (fun x => { x with g := [(1, 0xFFFFFFFF80000005#64), (2, 5#64)] }), _, turned (by decide), by decide⟩⟩,
   ⟨⟨hen0, wordI 0x2A 1 2 0xFFFF, hs (wordI 0x2A 1 2 0xFFFF) (fun x => { x with g := [(1, 0xFFFFFFFF80000005#64), (2, 5#64)] }), _, turned (by decide), by decide⟩, ⟨hen0, wordI 0x2A 1 1 0x7FFF, hs (wordI 0x2A 1 1 0x7FFF) (fun x => { x with g := [(1, 0xFFFFFFFF80000005#64), (2, 5#64)] }), _, turned (by decide), by decide⟩⟩,
   ⟨⟨hen0, wordI 0x2B 1 1 0x8000, hs (wordI 0x2B 1 1 0x8000) (fun x => { x with g := [(1, 0xFFFFFFFF80000005#64), (2, 5#64)] }), _, turned (by decide), by decide⟩, ⟨hen0, wordI 0x2B 1 2 0xFFFF, hs (wordI 0x2B 1 2 0xFFFF) (fun x => { x with g := [(1, 0xFFFFFFFF80000005#64), (2, 5#64)] }), _, turned (by decide), by decide⟩⟩,
   ⟨⟨hen0, wordI 0x2C 2 1 3, hs (wordI 0x2C 2 1 3) (fun x => { x with g := [(1, 0xFFFFFFFF80000005#64), (2, 5#64)] }), _, turned (by decide), by decide⟩, ⟨hen0, wordI 0x2C 1 1 0x7FFF, hs (wordI 0x2C 1 1 0x7FFF) (fun x => { x with g := [(1, 0xFFFFFFFF80000005#64), (2, 5#64)] }), _, turned (by decide), by decide⟩⟩⟩

theorem witness_HenBranchAndJumpTargets_2 :
    BranchRowMet 0x2D (fun x y => y.toNat ≤ x.toNat)
    ∧ (∃ (h : HenId) (w : BitVec 32) (s : State) (n : Mach), HenTurn s.m h.agent w n ∧ HenAlu.op w = 0x2E)
    ∧ (∃ (h : HenId) (w : BitVec 32) (s : State) (n : Mach), HenTurn s.m h.agent w n ∧ HenAlu.op w = 0x2F)
    ∧ (∃ (h : HenId) (w : BitVec 32) (s : State) (n : Mach) (t : Word), HenTurn s.m h.agent w n ∧ HenAlu.op w = 0x30 ∧ t = (n.g h.agent (HenAlu.fB w) + (w.setWidth 16).signExtend 64) &&& ~~~3 ∧ t.toNat < 2 ^ 56)
    ∧ (∃ (h : HenId) (w : BitVec 32) (s : State) (n : Mach) (t : Word), HenTurn s.m h.agent w n ∧ HenAlu.op w = 0x30 ∧ t = (n.g h.agent (HenAlu.fB w) + (w.setWidth 16).signExtend 64) &&& ~~~3 ∧ 2 ^ 56 ≤ t.toNat) :=
  ⟨⟨⟨hen0, wordI 0x2D 1 1 0x8000, hs (wordI 0x2D 1 1 0x8000) (fun x => { x with g := [(1, 0xFFFFFFFF80000005#64), (2, 5#64)] }), _, turned (by decide), by decide⟩, ⟨hen0, wordI 0x2D 2 1 3, hs (wordI 0x2D 2 1 3) (fun x => { x with g := [(1, 0xFFFFFFFF80000005#64), (2, 5#64)] }), _, turned (by decide), by decide⟩⟩,
   ⟨hen0, wordI 0x2E 0x1F 0x1F 0xFFF0, hs (wordI 0x2E 0x1F 0x1F 0xFFF0) (fun x => { x with g := [(1, 0xFFFFFFFF80000005#64), (2, 5#64)] }), _, turned (by decide), by decide⟩,
   ⟨hen0, wordI 0x2F 0 0 0x10, hs (wordI 0x2F 0 0 0x10) (fun x => { x with g := [(1, 0xFFFFFFFF80000005#64), (2, 5#64)] }), _, turned (by decide), by decide⟩,
   ⟨hen0, wordI 0x30 2 2 3, hs (wordI 0x30 2 2 3) (fun x => { x with g := [(1, 0xFFFFFFFF80000005#64), (2, 5#64)] }), _, _, turned (by decide), by decide, rfl, by decide⟩,
   ⟨hen0, wordI 0x30 3 1 3, hs (wordI 0x30 3 1 3) (fun x => { x with g := [(1, 0xFFFFFFFF80000005#64), (2, 5#64)] }), _, _, turned (by decide), by decide, rfl, by decide⟩⟩

def OpRowMet (f : Nat) : Prop :=
  (∃ (h : HenId) (w : BitVec 32) (s : State) (n : Mach), HenTurn s.m h.agent w n ∧ HenAlu.op w = 0x01 ∧ HenAlu.func w = f)

def OpRowWMet (f : Nat) : Prop :=
  (∃ (h : HenId) (w : BitVec 32) (s : State) (n : Mach), HenTurn s.m h.agent w n ∧ HenAlu.op w = 0x01 ∧ HenAlu.func w = (f + 1024))

def OpRow1Met (f : Nat) : Prop :=
  (∃ (h : HenId) (w : BitVec 32) (s : State) (n : Mach), HenTurn s.m h.agent w n ∧ HenAlu.op w = 0x01 ∧ HenAlu.func w = f ∧ HenAlu.fC w = 0)

theorem witness_HenRegisterResults_1 :
    OpRowMet 0
    ∧ OpRowWMet 0
    ∧ OpRowMet 1
    ∧ OpRowWMet 1
    ∧ OpRowMet 2 :=
  ⟨⟨hen0, word 0x01 3 1 2 0, hs (word 0x01 3 1 2 0) (fun x => { x with g := [(1, 0xFFFFFFFF80000005#64), (2, 0x0000001300000023#64)] }), _, turned (by decide), by decide⟩,
   ⟨hen0, word 0x01 3 1 2 (0 + 1024), hs (word 0x01 3 1 2 (0 + 1024)) (fun x => { x with g := [(1, 0xFFFFFFFF80000005#64), (2, 0x0000001300000023#64)] }), _, turned (by decide), by decide⟩,
   ⟨hen0, word 0x01 3 1 2 1, hs (word 0x01 3 1 2 1) (fun x => { x with g := [(1, 0xFFFFFFFF80000005#64), (2, 0x0000001300000023#64)] }), _, turned (by decide), by decide⟩,
   ⟨hen0, word 0x01 3 1 2 (1 + 1024), hs (word 0x01 3 1 2 (1 + 1024)) (fun x => { x with g := [(1, 0xFFFFFFFF80000005#64), (2, 0x0000001300000023#64)] }), _, turned (by decide), by decide⟩,
   ⟨hen0, word 0x01 3 1 2 2, hs (word 0x01 3 1 2 2) (fun x => { x with g := [(1, 0xFFFFFFFF80000005#64), (2, 0x0000001300000023#64)] }), _, turned (by decide), by decide⟩⟩

theorem witness_HenRegisterResults_2 :
    OpRowMet 3
    ∧ OpRowMet 4
    ∧ OpRowMet 5
    ∧ OpRowMet 6
    ∧ OpRowWMet 6 :=
  ⟨⟨hen0, word 0x01 3 1 2 3, hs (word 0x01 3 1 2 3) (fun x => { x with g := [(1, 0xFFFFFFFF80000005#64), (2, 0x0000001300000023#64)] }), _, turned (by decide), by decide⟩,
   ⟨hen0, word 0x01 3 1 2 4, hs (word 0x01 3 1 2 4) (fun x => { x with g := [(1, 0xFFFFFFFF80000005#64), (2, 0x0000001300000023#64)] }), _, turned (by decide), by decide⟩,
   ⟨hen0, word 0x01 3 1 2 5, hs (word 0x01 3 1 2 5) (fun x => { x with g := [(1, 0xFFFFFFFF80000005#64), (2, 0x0000001300000023#64)] }), _, turned (by decide), by decide⟩,
   ⟨hen0, word 0x01 3 1 2 6, hs (word 0x01 3 1 2 6) (fun x => { x with g := [(1, 0xFFFFFFFF80000005#64), (2, 0x0000001300000023#64)] }), _, turned (by decide), by decide⟩,
   ⟨hen0, word 0x01 3 1 2 (6 + 1024), hs (word 0x01 3 1 2 (6 + 1024)) (fun x => { x with g := [(1, 0xFFFFFFFF80000005#64), (2, 0x0000001300000023#64)] }), _, turned (by decide), by decide⟩⟩

theorem witness_HenRegisterResults_3 :
    OpRowMet 7
    ∧ OpRowWMet 7
    ∧ OpRowMet 8
    ∧ OpRowWMet 8
    ∧ OpRowMet 9 :=
  ⟨⟨hen0, word 0x01 3 1 2 7, hs (word 0x01 3 1 2 7) (fun x => { x with g := [(1, 0xFFFFFFFF80000005#64), (2, 0x0000001300000023#64)] }), _, turned (by decide), by decide⟩,
   ⟨hen0, word 0x01 3 1 2 (7 + 1024), hs (word 0x01 3 1 2 (7 + 1024)) (fun x => { x with g := [(1, 0xFFFFFFFF80000005#64), (2, 0x0000001300000023#64)] }), _, turned (by decide), by decide⟩,
   ⟨hen0, word 0x01 3 1 2 8, hs (word 0x01 3 1 2 8) (fun x => { x with g := [(1, 0xFFFFFFFF80000005#64), (2, 0x0000001300000023#64)] }), _, turned (by decide), by decide⟩,
   ⟨hen0, word 0x01 3 1 2 (8 + 1024), hs (word 0x01 3 1 2 (8 + 1024)) (fun x => { x with g := [(1, 0xFFFFFFFF80000005#64), (2, 0x0000001300000023#64)] }), _, turned (by decide), by decide⟩,
   ⟨hen0, word 0x01 3 1 2 9, hs (word 0x01 3 1 2 9) (fun x => { x with g := [(1, 0xFFFFFFFF80000005#64), (2, 0x0000001300000023#64)] }), _, turned (by decide), by decide⟩⟩

theorem witness_HenRegisterResults_4 :
    OpRowWMet 9
    ∧ OpRowMet 10
    ∧ OpRowMet 11
    ∧ OpRowMet 12
    ∧ OpRowMet 13 :=
  ⟨⟨hen0, word 0x01 3 1 2 (9 + 1024), hs (word 0x01 3 1 2 (9 + 1024)) (fun x => { x with g := [(1, 0xFFFFFFFF80000005#64), (2, 0x0000001300000023#64)] }), _, turned (by decide), by decide⟩,
   ⟨hen0, word 0x01 3 1 2 10, hs (word 0x01 3 1 2 10) (fun x => { x with g := [(1, 0xFFFFFFFF80000005#64), (2, 0x0000001300000023#64)] }), _, turned (by decide), by decide⟩,
   ⟨hen0, word 0x01 3 1 2 11, hs (word 0x01 3 1 2 11) (fun x => { x with g := [(1, 0xFFFFFFFF80000005#64), (2, 0x0000001300000023#64)] }), _, turned (by decide), by decide⟩,
   ⟨hen0, word 0x01 3 1 2 12, hs (word 0x01 3 1 2 12) (fun x => { x with g := [(1, 0xFFFFFFFF80000005#64), (2, 0x0000001300000023#64)] }), _, turned (by decide), by decide⟩,
   ⟨hen0, word 0x01 3 1 2 13, hs (word 0x01 3 1 2 13) (fun x => { x with g := [(1, 0xFFFFFFFF80000005#64), (2, 0x0000001300000023#64)] }), _, turned (by decide), by decide⟩⟩

theorem witness_HenRegisterResults_5 :
    OpRowMet 14
    ∧ OpRowMet 15
    ∧ OpRowMet 16
    ∧ OpRowWMet 16
    ∧ OpRowMet 17 :=
  ⟨⟨hen0, word 0x01 3 1 2 14, hs (word 0x01 3 1 2 14) (fun x => { x with g := [(1, 0xFFFFFFFF80000005#64), (2, 0x0000001300000023#64)] }), _, turned (by decide), by decide⟩,
   ⟨hen0, word 0x01 3 1 2 15, hs (word 0x01 3 1 2 15) (fun x => { x with g := [(1, 0xFFFFFFFF80000005#64), (2, 0x0000001300000023#64)] }), _, turned (by decide), by decide⟩,
   ⟨hen0, word 0x01 3 1 2 16, hs (word 0x01 3 1 2 16) (fun x => { x with g := [(1, 0xFFFFFFFF80000005#64), (2, 0x0000001300000023#64)] }), _, turned (by decide), by decide⟩,
   ⟨hen0, word 0x01 3 1 2 (16 + 1024), hs (word 0x01 3 1 2 (16 + 1024)) (fun x => { x with g := [(1, 0xFFFFFFFF80000005#64), (2, 0x0000001300000023#64)] }), _, turned (by decide), by decide⟩,
   ⟨hen0, word 0x01 3 1 2 17, hs (word 0x01 3 1 2 17) (fun x => { x with g := [(1, 0xFFFFFFFF80000005#64), (2, 0x0000001300000023#64)] }), _, turned (by decide), by decide⟩⟩

theorem witness_HenRegisterResults_6 :
    OpRowMet 18
    ∧ OpRowMet 19
    ∧ OpRowMet 20
    ∧ OpRowWMet 20
    ∧ OpRowMet 21 :=
  ⟨⟨hen0, word 0x01 3 1 2 18, hs (word 0x01 3 1 2 18) (fun x => { x with g := [(1, 0xFFFFFFFF80000005#64), (2, 0x0000001300000023#64)] }), _, turned (by decide), by decide⟩,
   ⟨hen0, word 0x01 3 1 2 19, hs (word 0x01 3 1 2 19) (fun x => { x with g := [(1, 0xFFFFFFFF80000005#64), (2, 0x0000001300000023#64)] }), _, turned (by decide), by decide⟩,
   ⟨hen0, word 0x01 3 1 2 20, hs (word 0x01 3 1 2 20) (fun x => { x with g := [(1, 0xFFFFFFFF80000005#64), (2, 0x0000001300000023#64)] }), _, turned (by decide), by decide⟩,
   ⟨hen0, word 0x01 3 1 2 (20 + 1024), hs (word 0x01 3 1 2 (20 + 1024)) (fun x => { x with g := [(1, 0xFFFFFFFF80000005#64), (2, 0x0000001300000023#64)] }), _, turned (by decide), by decide⟩,
   ⟨hen0, word 0x01 3 1 2 21, hs (word 0x01 3 1 2 21) (fun x => { x with g := [(1, 0xFFFFFFFF80000005#64), (2, 0x0000001300000023#64)] }), _, turned (by decide), by decide⟩⟩

theorem witness_HenRegisterResults_7 :
    OpRowWMet 21
    ∧ OpRowMet 22
    ∧ OpRowWMet 22
    ∧ OpRowMet 23
    ∧ OpRowWMet 23 :=
  ⟨⟨hen0, word 0x01 3 1 2 (21 + 1024), hs (word 0x01 3 1 2 (21 + 1024)) (fun x => { x with g := [(1, 0xFFFFFFFF80000005#64), (2, 0x0000001300000023#64)] }), _, turned (by decide), by decide⟩,
   ⟨hen0, word 0x01 3 1 2 22, hs (word 0x01 3 1 2 22) (fun x => { x with g := [(1, 0xFFFFFFFF80000005#64), (2, 0x0000001300000023#64)] }), _, turned (by decide), by decide⟩,
   ⟨hen0, word 0x01 3 1 2 (22 + 1024), hs (word 0x01 3 1 2 (22 + 1024)) (fun x => { x with g := [(1, 0xFFFFFFFF80000005#64), (2, 0x0000001300000023#64)] }), _, turned (by decide), by decide⟩,
   ⟨hen0, word 0x01 3 1 2 23, hs (word 0x01 3 1 2 23) (fun x => { x with g := [(1, 0xFFFFFFFF80000005#64), (2, 0x0000001300000023#64)] }), _, turned (by decide), by decide⟩,
   ⟨hen0, word 0x01 3 1 2 (23 + 1024), hs (word 0x01 3 1 2 (23 + 1024)) (fun x => { x with g := [(1, 0xFFFFFFFF80000005#64), (2, 0x0000001300000023#64)] }), _, turned (by decide), by decide⟩⟩

theorem witness_HenRegisterResults_8 :
    OpRow1Met 24
    ∧ OpRow1Met 25
    ∧ OpRow1Met 26 :=
  ⟨⟨hen0, word 0x01 3 1 0 24, hs (word 0x01 3 1 0 24) (fun x => { x with g := [(1, 0xFFFFFFFF80000005#64), (2, 0x0000001300000023#64)] }), _, turned (by decide), by decide⟩,
   ⟨hen0, word 0x01 3 1 0 25, hs (word 0x01 3 1 0 25) (fun x => { x with g := [(1, 0xFFFFFFFF80000005#64), (2, 0x0000001300000023#64)] }), _, turned (by decide), by decide⟩,
   ⟨hen0, word 0x01 3 1 0 26, hs (word 0x01 3 1 0 26) (fun x => { x with g := [(1, 0xFFFFFFFF80000005#64), (2, 0x0000001300000023#64)] }), _, turned (by decide), by decide⟩⟩

def FpRowMet (f : Nat) (one : Bool) : Prop :=
  (∃ (h : HenId) (w : BitVec 32) (s : State) (n : Mach) (t : Fmt), HenTurn s.m h.agent w n ∧ HenAlu.op w = 0x22 ∧ HenAlu.fld w 0 6 = f ∧ HenAlu.fpType (HenAlu.fld w 6 2) = some t ∧ (one = true → HenAlu.fC w = 0))

def ApproxRowMet (f : Nat) : Prop :=
  (∃ (h : HenId) (w : BitVec 32) (s : State) (n : Mach), HenTurn s.m h.agent w n ∧ HenAlu.op w = 0x22 ∧ HenAlu.fld w 0 6 = f ∧ HenAlu.fld w 6 2 = 0 ∧ HenAlu.fC w = 0)

theorem witness_HenVectorFloatResults_1 :
    FpRowMet 0 false
    ∧ FpRowMet 1 false
    ∧ FpRowMet 2 false
    ∧ FpRowMet 3 false
    ∧ FpRowMet 4 false :=
  ⟨⟨hen0, word 0x22 3 1 (if false then 0 else 2) (256 + 0), hs (word 0x22 3 1 (if false then 0 else 2) (256 + 0)) (fun x => { x with v := [(1, 0x3FC00000_C0490FDB_7F800000_7FC00000_00000001_80000000_42F60000_BF800000#512), (2, 0x40000000_3F000000_FF800000_41200000_00800000_00000000_C2C80000_BF000000#512), (3, 0x3F800000_3F800000_3F800000_3F800000_00800000_00000000_C2C80000_BF000000#512)], p := [(1, 0xFFFFFFFFFFFFFF0F#64)] }), _, .f32, turned (by decide), by decide⟩,
   ⟨hen0, word 0x22 3 1 (if false then 0 else 2) (256 + 1), hs (word 0x22 3 1 (if false then 0 else 2) (256 + 1)) (fun x => { x with v := [(1, 0x3FC00000_C0490FDB_7F800000_7FC00000_00000001_80000000_42F60000_BF800000#512), (2, 0x40000000_3F000000_FF800000_41200000_00800000_00000000_C2C80000_BF000000#512), (3, 0x3F800000_3F800000_3F800000_3F800000_00800000_00000000_C2C80000_BF000000#512)], p := [(1, 0xFFFFFFFFFFFFFF0F#64)] }), _, .f32, turned (by decide), by decide⟩,
   ⟨hen0, word 0x22 3 1 (if false then 0 else 2) (256 + 2), hs (word 0x22 3 1 (if false then 0 else 2) (256 + 2)) (fun x => { x with v := [(1, 0x3FC00000_C0490FDB_7F800000_7FC00000_00000001_80000000_42F60000_BF800000#512), (2, 0x40000000_3F000000_FF800000_41200000_00800000_00000000_C2C80000_BF000000#512), (3, 0x3F800000_3F800000_3F800000_3F800000_00800000_00000000_C2C80000_BF000000#512)], p := [(1, 0xFFFFFFFFFFFFFF0F#64)] }), _, .f32, turned (by decide), by decide⟩,
   ⟨hen0, word 0x22 3 1 (if false then 0 else 2) (256 + 3), hs (word 0x22 3 1 (if false then 0 else 2) (256 + 3)) (fun x => { x with v := [(1, 0x3FC00000_C0490FDB_7F800000_7FC00000_00000001_80000000_42F60000_BF800000#512), (2, 0x40000000_3F000000_FF800000_41200000_00800000_00000000_C2C80000_BF000000#512), (3, 0x3F800000_3F800000_3F800000_3F800000_00800000_00000000_C2C80000_BF000000#512)], p := [(1, 0xFFFFFFFFFFFFFF0F#64)] }), _, .f32, turned (by decide), by decide⟩,
   ⟨hen0, word 0x22 3 1 (if false then 0 else 2) (256 + 4), hs (word 0x22 3 1 (if false then 0 else 2) (256 + 4)) (fun x => { x with v := [(1, 0x3FC00000_C0490FDB_7F800000_7FC00000_00000001_80000000_42F60000_BF800000#512), (2, 0x40000000_3F000000_FF800000_41200000_00800000_00000000_C2C80000_BF000000#512), (3, 0x3F800000_3F800000_3F800000_3F800000_00800000_00000000_C2C80000_BF000000#512)], p := [(1, 0xFFFFFFFFFFFFFF0F#64)] }), _, .f32, turned (by decide), by decide⟩⟩

theorem witness_HenVectorFloatResults_2 :
    FpRowMet 5 false
    ∧ FpRowMet 6 false
    ∧ FpRowMet 7 true
    ∧ FpRowMet 8 true
    ∧ ApproxRowMet 16 :=
  ⟨⟨hen0, word 0x22 3 1 (if false then 0 else 2) (256 + 5), hs (word 0x22 3 1 (if false then 0 else 2) (256 + 5)) (fun x => { x with v := [(1, 0x3FC00000_C0490FDB_7F800000_7FC00000_00000001_80000000_42F60000_BF800000#512), (2, 0x40000000_3F000000_FF800000_41200000_00800000_00000000_C2C80000_BF000000#512), (3, 0x3F800000_3F800000_3F800000_3F800000_00800000_00000000_C2C80000_BF000000#512)], p := [(1, 0xFFFFFFFFFFFFFF0F#64)] }), _, .f32, turned (by decide), by decide⟩,
   ⟨hen0, word 0x22 3 1 (if false then 0 else 2) (256 + 6), hs (word 0x22 3 1 (if false then 0 else 2) (256 + 6)) (fun x => { x with v := [(1, 0x3FC00000_C0490FDB_7F800000_7FC00000_00000001_80000000_42F60000_BF800000#512), (2, 0x40000000_3F000000_FF800000_41200000_00800000_00000000_C2C80000_BF000000#512), (3, 0x3F800000_3F800000_3F800000_3F800000_00800000_00000000_C2C80000_BF000000#512)], p := [(1, 0xFFFFFFFFFFFFFF0F#64)] }), _, .f32, turned (by decide), by decide⟩,
   ⟨hen0, word 0x22 3 1 (if true then 0 else 2) (256 + 7), hs (word 0x22 3 1 (if true then 0 else 2) (256 + 7)) (fun x => { x with v := [(1, 0x3FC00000_C0490FDB_7F800000_7FC00000_00000001_80000000_42F60000_BF800000#512), (2, 0x40000000_3F000000_FF800000_41200000_00800000_00000000_C2C80000_BF000000#512), (3, 0x3F800000_3F800000_3F800000_3F800000_00800000_00000000_C2C80000_BF000000#512)], p := [(1, 0xFFFFFFFFFFFFFF0F#64)] }), _, .f32, turned (by decide), by decide⟩,
   ⟨hen0, word 0x22 3 1 (if true then 0 else 2) (256 + 8), hs (word 0x22 3 1 (if true then 0 else 2) (256 + 8)) (fun x => { x with v := [(1, 0x3FC00000_C0490FDB_7F800000_7FC00000_00000001_80000000_42F60000_BF800000#512), (2, 0x40000000_3F000000_FF800000_41200000_00800000_00000000_C2C80000_BF000000#512), (3, 0x3F800000_3F800000_3F800000_3F800000_00800000_00000000_C2C80000_BF000000#512)], p := [(1, 0xFFFFFFFFFFFFFF0F#64)] }), _, .f32, turned (by decide), by decide⟩,
   ⟨hen0, word 0x22 3 1 0 16, hs (word 0x22 3 1 0 16) (fun x => { x with v := [(1, 0x3FC00000_C0490FDB_7F800000_7FC00000_00000001_80000000_42F60000_BF800000#512), (2, 0x40000000_3F000000_FF800000_41200000_00800000_00000000_C2C80000_BF000000#512), (3, 0x3F800000_3F800000_3F800000_3F800000_00800000_00000000_C2C80000_BF000000#512)], p := [(1, 0xFFFFFFFFFFFFFF0F#64)] }), _, turned (by decide), by decide⟩⟩

theorem witness_HenVectorFloatResults_3 :
    ApproxRowMet 17
    ∧ ApproxRowMet 18
    ∧ (∃ (h : HenId) (w : BitVec 32) (s : State) (n : Mach), HenTurn s.m h.agent w n ∧ HenAlu.op w = 0x22 ∧ HenAlu.fld w 0 6 = 20) :=
  ⟨⟨hen0, word 0x22 3 1 0 17, hs (word 0x22 3 1 0 17) (fun x => { x with v := [(1, 0x3FC00000_C0490FDB_7F800000_7FC00000_00000001_80000000_42F60000_BF800000#512), (2, 0x40000000_3F000000_FF800000_41200000_00800000_00000000_C2C80000_BF000000#512), (3, 0x3F800000_3F800000_3F800000_3F800000_00800000_00000000_C2C80000_BF000000#512)], p := [(1, 0xFFFFFFFFFFFFFF0F#64)] }), _, turned (by decide), by decide⟩,
   ⟨hen0, word 0x22 3 1 0 18, hs (word 0x22 3 1 0 18) (fun x => { x with v := [(1, 0x3FC00000_C0490FDB_7F800000_7FC00000_00000001_80000000_42F60000_BF800000#512), (2, 0x40000000_3F000000_FF800000_41200000_00800000_00000000_C2C80000_BF000000#512), (3, 0x3F800000_3F800000_3F800000_3F800000_00800000_00000000_C2C80000_BF000000#512)], p := [(1, 0xFFFFFFFFFFFFFF0F#64)] }), _, turned (by decide), by decide⟩,
   ⟨hen0, word 0x22 3 1 2 (256 + 64 + 20), hs (word 0x22 3 1 2 (256 + 64 + 20)) (fun x => { x with v := [(1, 0x3FC00000_C0490FDB_7F800000_7FC00000_00000001_80000000_42F60000_BF800000#512), (2, 0x40000000_3F000000_FF800000_41200000_00800000_00000000_C2C80000_BF000000#512), (3, 0x3F800000_3F800000_3F800000_3F800000_00800000_00000000_C2C80000_BF000000#512)], p := [(1, 0xFFFFFFFFFFFFFF0F#64)] }), _, turned (by decide), by decide⟩⟩

def IntRowMet (f : Nat) : Prop :=
  (∃ (h : HenId) (w : BitVec 32) (s : State) (n : Mach) (b : Nat), HenTurn s.m h.agent w n ∧ HenAlu.op w = 0x23 ∧ HenAlu.fld w 0 6 = f ∧ b = 8 * 2 ^ HenAlu.fld w 6 2)

def LogicRowMet (f : Nat) : Prop :=
  (∃ (h : HenId) (w : BitVec 32) (s : State) (n : Mach), HenTurn s.m h.agent w n ∧ HenAlu.op w = 0x23 ∧ HenAlu.fld w 0 6 = f)

theorem witness_HenVectorIntegerResults_1 :
    IntRowMet 0
    ∧ IntRowMet 1
    ∧ IntRowMet 2
    ∧ IntRowMet 3
    ∧ IntRowMet 4 :=
  ⟨⟨hen0, word 0x23 3 1 2 (256 + 64 + 0), hs (word 0x23 3 1 2 (256 + 64 + 0)) (fun x => { x with v := [(1, 0x3FC00000_C0490FDB_7F800000_7FC00000_00000001_80000000_42F60000_BF800000#512), (2, 0x40000000_3F000000_FF800000_41200000_00800000_00000000_C2C80000_BF000000#512)], p := [(1, 0xFFFFFFFFFFFFFF0F#64)] }), _, _, turned (by decide), by decide, by decide, rfl⟩,
   ⟨hen0, word 0x23 3 1 2 (256 + 64 + 1), hs (word 0x23 3 1 2 (256 + 64 + 1)) (fun x => { x with v := [(1, 0x3FC00000_C0490FDB_7F800000_7FC00000_00000001_80000000_42F60000_BF800000#512), (2, 0x40000000_3F000000_FF800000_41200000_00800000_00000000_C2C80000_BF000000#512)], p := [(1, 0xFFFFFFFFFFFFFF0F#64)] }), _, _, turned (by decide), by decide, by decide, rfl⟩,
   ⟨hen0, word 0x23 3 1 2 (256 + 64 + 2), hs (word 0x23 3 1 2 (256 + 64 + 2)) (fun x => { x with v := [(1, 0x3FC00000_C0490FDB_7F800000_7FC00000_00000001_80000000_42F60000_BF800000#512), (2, 0x40000000_3F000000_FF800000_41200000_00800000_00000000_C2C80000_BF000000#512)], p := [(1, 0xFFFFFFFFFFFFFF0F#64)] }), _, _, turned (by decide), by decide, by decide, rfl⟩,
   ⟨hen0, word 0x23 3 1 2 (256 + 128 + 3), hs (word 0x23 3 1 2 (256 + 128 + 3)) (fun x => { x with v := [(1, 0x3FC00000_C0490FDB_7F800000_7FC00000_00000001_80000000_42F60000_BF800000#512), (2, 0x40000000_3F000000_FF800000_41200000_00800000_00000000_C2C80000_BF000000#512)], p := [(1, 0xFFFFFFFFFFFFFF0F#64)] }), _, _, turned (by decide), by decide, by decide, rfl⟩,
   ⟨hen0, word 0x23 3 1 2 (256 + 128 + 4), hs (word 0x23 3 1 2 (256 + 128 + 4)) (fun x => { x with v := [(1, 0x3FC00000_C0490FDB_7F800000_7FC00000_00000001_80000000_42F60000_BF800000#512), (2, 0x40000000_3F000000_FF800000_41200000_00800000_00000000_C2C80000_BF000000#512)], p := [(1, 0xFFFFFFFFFFFFFF0F#64)] }), _, _, turned (by decide), by decide, by decide, rfl⟩⟩

theorem witness_HenVectorIntegerResults_2 :
    IntRowMet 5
    ∧ IntRowMet 6
    ∧ LogicRowMet 8
    ∧ LogicRowMet 9
    ∧ LogicRowMet 10 :=
  ⟨⟨hen0, word 0x23 3 1 2 (256 + 128 + 5), hs (word 0x23 3 1 2 (256 + 128 + 5)) (fun x => { x with v := [(1, 0x3FC00000_C0490FDB_7F800000_7FC00000_00000001_80000000_42F60000_BF800000#512), (2, 0x40000000_3F000000_FF800000_41200000_00800000_00000000_C2C80000_BF000000#512)], p := [(1, 0xFFFFFFFFFFFFFF0F#64)] }), _, _, turned (by decide), by decide, by decide, rfl⟩,
   ⟨hen0, word 0x23 3 1 2 (256 + 128 + 6), hs (word 0x23 3 1 2 (256 + 128 + 6)) (fun x => { x with v := [(1, 0x3FC00000_C0490FDB_7F800000_7FC00000_00000001_80000000_42F60000_BF800000#512), (2, 0x40000000_3F000000_FF800000_41200000_00800000_00000000_C2C80000_BF000000#512)], p := [(1, 0xFFFFFFFFFFFFFF0F#64)] }), _, _, turned (by decide), by decide, by decide, rfl⟩,
   ⟨hen0, word 0x23 3 1 2 (256 + 8), hs (word 0x23 3 1 2 (256 + 8)) (fun x => { x with v := [(1, 0x3FC00000_C0490FDB_7F800000_7FC00000_00000001_80000000_42F60000_BF800000#512), (2, 0x40000000_3F000000_FF800000_41200000_00800000_00000000_C2C80000_BF000000#512)], p := [(1, 0xFFFFFFFFFFFFFF0F#64)] }), _, turned (by decide), by decide⟩,
   ⟨hen0, word 0x23 3 1 2 (256 + 9), hs (word 0x23 3 1 2 (256 + 9)) (fun x => { x with v := [(1, 0x3FC00000_C0490FDB_7F800000_7FC00000_00000001_80000000_42F60000_BF800000#512), (2, 0x40000000_3F000000_FF800000_41200000_00800000_00000000_C2C80000_BF000000#512)], p := [(1, 0xFFFFFFFFFFFFFF0F#64)] }), _, turned (by decide), by decide⟩,
   ⟨hen0, word 0x23 3 1 2 (256 + 10), hs (word 0x23 3 1 2 (256 + 10)) (fun x => { x with v := [(1, 0x3FC00000_C0490FDB_7F800000_7FC00000_00000001_80000000_42F60000_BF800000#512), (2, 0x40000000_3F000000_FF800000_41200000_00800000_00000000_C2C80000_BF000000#512)], p := [(1, 0xFFFFFFFFFFFFFF0F#64)] }), _, turned (by decide), by decide⟩⟩

theorem witness_HenVectorIntegerResults_3 :
    LogicRowMet 11
    ∧ IntRowMet 12
    ∧ IntRowMet 13
    ∧ IntRowMet 14 :=
  ⟨⟨hen0, word 0x23 3 1 2 (256 + 11), hs (word 0x23 3 1 2 (256 + 11)) (fun x => { x with v := [(1, 0x3FC00000_C0490FDB_7F800000_7FC00000_00000001_80000000_42F60000_BF800000#512), (2, 0x40000000_3F000000_FF800000_41200000_00800000_00000000_C2C80000_BF000000#512)], p := [(1, 0xFFFFFFFFFFFFFF0F#64)] }), _, turned (by decide), by decide⟩,
   ⟨hen0, word 0x23 3 1 2 (256 + 64 + 12), hs (word 0x23 3 1 2 (256 + 64 + 12)) (fun x => { x with v := [(1, 0x3FC00000_C0490FDB_7F800000_7FC00000_00000001_80000000_42F60000_BF800000#512), (2, 0x40000000_3F000000_FF800000_41200000_00800000_00000000_C2C80000_BF000000#512)], p := [(1, 0xFFFFFFFFFFFFFF0F#64)] }), _, _, turned (by decide), by decide, by decide, rfl⟩,
   ⟨hen0, word 0x23 3 1 2 (256 + 64 + 13), hs (word 0x23 3 1 2 (256 + 64 + 13)) (fun x => { x with v := [(1, 0x3FC00000_C0490FDB_7F800000_7FC00000_00000001_80000000_42F60000_BF800000#512), (2, 0x40000000_3F000000_FF800000_41200000_00800000_00000000_C2C80000_BF000000#512)], p := [(1, 0xFFFFFFFFFFFFFF0F#64)] }), _, _, turned (by decide), by decide, by decide, rfl⟩,
   ⟨hen0, word 0x23 3 1 2 (256 + 64 + 14), hs (word 0x23 3 1 2 (256 + 64 + 14)) (fun x => { x with v := [(1, 0x3FC00000_C0490FDB_7F800000_7FC00000_00000001_80000000_42F60000_BF800000#512), (2, 0x40000000_3F000000_FF800000_41200000_00800000_00000000_C2C80000_BF000000#512)], p := [(1, 0xFFFFFFFFFFFFFF0F#64)] }), _, _, turned (by decide), by decide, by decide, rfl⟩⟩

def PredRowMet (f : Nat) (one : Bool) : Prop :=
  (∃ (h : HenId) (w : BitVec 32) (s : State) (n : Mach), HenTurn s.m h.agent w n ∧ HenAlu.op w = 0x31 ∧ HenAlu.func w = f ∧ HenAlu.fA w < 8 ∧ HenAlu.fB w < 8 ∧ (if one then HenAlu.fC w = 0 else HenAlu.fC w < 8))

theorem witness_HenPredicateResults_1 :
    PredRowMet 0 false
    ∧ PredRowMet 1 false
    ∧ PredRowMet 2 false
    ∧ PredRowMet 3 false
    ∧ PredRowMet 4 true :=
  ⟨⟨hen0, word 0x31 7 1 7 0, hs (word 0x31 7 1 7 0) (fun x => { x with v := [(1, 0x3FC00000_C0490FDB_7F800000_7FC00000_00000001_80000000_42F60000_BF800000#512), (2, 0x40000000_C0490FDB_FF800000_41200000_00800000_00000000_C2C80000_BF000000#512)], p := [(1, 0xFFFFFFFFFFFFFF0F#64), (7, 0xFF00FF00FF00FF00#64)], g := [(1, 0xABCDEF#64)] }), _, turned (by decide), by decide⟩,
   ⟨hen0, word 0x31 7 1 7 1, hs (word 0x31 7 1 7 1) (fun x => { x with v := [(1, 0x3FC00000_C0490FDB_7F800000_7FC00000_00000001_80000000_42F60000_BF800000#512), (2, 0x40000000_C0490FDB_FF800000_41200000_00800000_00000000_C2C80000_BF000000#512)], p := [(1, 0xFFFFFFFFFFFFFF0F#64), (7, 0xFF00FF00FF00FF00#64)], g := [(1, 0xABCDEF#64)] }), _, turned (by decide), by decide⟩,
   ⟨hen0, word 0x31 7 1 7 2, hs (word 0x31 7 1 7 2) (fun x => { x with v := [(1, 0x3FC00000_C0490FDB_7F800000_7FC00000_00000001_80000000_42F60000_BF800000#512), (2, 0x40000000_C0490FDB_FF800000_41200000_00800000_00000000_C2C80000_BF000000#512)], p := [(1, 0xFFFFFFFFFFFFFF0F#64), (7, 0xFF00FF00FF00FF00#64)], g := [(1, 0xABCDEF#64)] }), _, turned (by decide), by decide⟩,
   ⟨hen0, word 0x31 7 1 7 3, hs (word 0x31 7 1 7 3) (fun x => { x with v := [(1, 0x3FC00000_C0490FDB_7F800000_7FC00000_00000001_80000000_42F60000_BF800000#512), (2, 0x40000000_C0490FDB_FF800000_41200000_00800000_00000000_C2C80000_BF000000#512)], p := [(1, 0xFFFFFFFFFFFFFF0F#64), (7, 0xFF00FF00FF00FF00#64)], g := [(1, 0xABCDEF#64)] }), _, turned (by decide), by decide⟩,
   ⟨hen0, word 0x31 2 1 0 4, hs (word 0x31 2 1 0 4) (fun x => { x with v := [(1, 0x3FC00000_C0490FDB_7F800000_7FC00000_00000001_80000000_42F60000_BF800000#512), (2, 0x40000000_C0490FDB_FF800000_41200000_00800000_00000000_C2C80000_BF000000#512)], p := [(1, 0xFFFFFFFFFFFFFF0F#64), (7, 0xFF00FF00FF00FF00#64)], g := [(1, 0xABCDEF#64)] }), _, turned (by decide), by decide⟩⟩

theorem witness_HenPredicateResults_2 :
    (∃ (h : HenId) (w : BitVec 32) (s : State) (n : Mach), HenTurn s.m h.agent w n ∧ HenAlu.op w = 0x31 ∧ HenAlu.func w = 8 ∧ HenAlu.fA w < 8 ∧ HenAlu.fC w = 0)
    ∧ (∃ (h : HenId) (w : BitVec 32) (s : State) (n : Mach), HenTurn s.m h.agent w n ∧ HenAlu.op w = 0x31 ∧ HenAlu.func w = 9 ∧ HenAlu.fB w < 8 ∧ HenAlu.fC w = 0)
    ∧ (∃ (h : HenId) (w : BitVec 32) (s : State) (n : Mach) (b : Nat), HenTurn s.m h.agent w n ∧ HenAlu.op w = 0x27 ∧ HenAlu.fA w < 8 ∧ 3 ≤ HenAlu.fld w 5 3 ∧ HenAlu.fld w 5 3 < 7 ∧ HenAlu.fld w 0 5 < 6 ∧ b = 2 ^ HenAlu.fld w 5 3)
    ∧ (∃ (h : HenId) (w : BitVec 32) (s : State) (n : Mach) (t : Fmt), HenTurn s.m h.agent w n ∧ HenAlu.op w = 0x27 ∧ HenAlu.fA w < 8 ∧ HenAlu.fpType (HenAlu.fld w 5 3) = some t ∧ (HenAlu.fld w 0 5 ≤ 3 ∨ HenAlu.fld w 0 5 = 6)) :=
  ⟨⟨hen0, word 0x31 7 1 0 8, hs (word 0x31 7 1 0 8) (fun x => { x with v := [(1, 0x3FC00000_C0490FDB_7F800000_7FC00000_00000001_80000000_42F60000_BF800000#512), (2, 0x40000000_C0490FDB_FF800000_41200000_00800000_00000000_C2C80000_BF000000#512)], p := [(1, 0xFFFFFFFFFFFFFF0F#64), (7, 0xFF00FF00FF00FF00#64)], g := [(1, 0xABCDEF#64)] }), _, turned (by decide), by decide⟩,
   ⟨hen0, word 0x31 1 7 0 9, hs (word 0x31 1 7 0 9) (fun x => { x with v := [(1, 0x3FC00000_C0490FDB_7F800000_7FC00000_00000001_80000000_42F60000_BF800000#512), (2, 0x40000000_C0490FDB_FF800000_41200000_00800000_00000000_C2C80000_BF000000#512)], p := [(1, 0xFFFFFFFFFFFFFF0F#64), (7, 0xFF00FF00FF00FF00#64)], g := [(1, 0xABCDEF#64)] }), _, turned (by decide), by decide⟩,
   ⟨hen0, word 0x27 7 1 2 (256 + 4 * 32 + 5), hs (word 0x27 7 1 2 (256 + 4 * 32 + 5)) (fun x => { x with v := [(1, 0x3FC00000_C0490FDB_7F800000_7FC00000_00000001_80000000_42F60000_BF800000#512), (2, 0x40000000_C0490FDB_FF800000_41200000_00800000_00000000_C2C80000_BF000000#512)], p := [(1, 0xFFFFFFFFFFFFFF0F#64), (7, 0xFF00FF00FF00FF00#64)], g := [(1, 0xABCDEF#64)] }), _, _, turned (by decide), by decide, by decide, by decide, by decide, by decide, rfl⟩,
   ⟨hen0, word 0x27 7 1 2 (256 + 6), hs (word 0x27 7 1 2 (256 + 6)) (fun x => { x with v := [(1, 0x3FC00000_C0490FDB_7F800000_7FC00000_00000001_80000000_42F60000_BF800000#512), (2, 0x40000000_C0490FDB_FF800000_41200000_00800000_00000000_C2C80000_BF000000#512)], p := [(1, 0xFFFFFFFFFFFFFF0F#64), (7, 0xFF00FF00FF00FF00#64)], g := [(1, 0xABCDEF#64)] }), _, .f32, turned (by decide), by decide⟩⟩

def PermRowMet (f : Nat) (w0 : Bool) : Prop :=
  (∃ (h : HenId) (w : BitVec 32) (s : State) (n : Mach) (b : Nat), HenTurn s.m h.agent w n ∧ HenAlu.op w = 0x24 ∧ HenAlu.fld w 0 6 = f ∧ b = 8 * 2 ^ HenAlu.fld w 6 2 ∧ (w0 = true → b = 8))

def RedRowMet (f : Nat) : Prop :=
  (∃ (h : HenId) (w : BitVec 32) (s : State) (n : Mach) (b : Nat), HenTurn s.m h.agent w n ∧ HenAlu.op w = 0x25 ∧ HenAlu.fld w 0 5 = f ∧ 3 ≤ HenAlu.fld w 5 3 ∧ HenAlu.fld w 5 3 < 7 ∧ b = 2 ^ HenAlu.fld w 5 3 ∧ HenAlu.fC w = 0)

def FpRedRowMet (f : Nat) : Prop :=
  (∃ (h : HenId) (w : BitVec 32) (s : State) (n : Mach), HenTurn s.m h.agent w n ∧ HenAlu.op w = 0x25 ∧ HenAlu.fld w 0 5 = f ∧ HenAlu.fld w 5 3 < 3 ∧ HenAlu.fC w = 0)

theorem witness_HenPermuteReduceConvertResults_1 :
    PermRowMet 0 true
    ∧ PermRowMet 1 false
    ∧ (∃ (h : HenId) (w : BitVec 32) (s : State) (n : Mach) (b : Nat), HenTurn s.m h.agent w n ∧ HenAlu.op w = 0x24 ∧ HenAlu.fld w 0 6 = 2 ∧ b = 8 * 2 ^ HenAlu.fld w 6 2 ∧ HenAlu.fld w 8 3 = 0)
    ∧ (∃ (h : HenId) (w : BitVec 32) (s : State) (n : Mach) (b : Nat), HenTurn s.m h.agent w n ∧ HenAlu.op w = 0x24 ∧ HenAlu.fld w 0 6 = 3 ∧ b = 8 * 2 ^ HenAlu.fld w 6 2 ∧ HenAlu.fld w 8 3 = 0)
    ∧ PermRowMet 4 false :=
  ⟨⟨hen0, word 0x24 3 1 2 (256 + 0), hs (word 0x24 3 1 2 (256 + 0)) (fun x => { x with v := [(1, 0x3FC00000_C0490FDB_7F800000_7FC00000_00000001_80000000_42F60000_BF800000#512), (2, 0x40000000_C0490FDB_3F800000_41200000_00800000_00000000_C2C80000_BF000000#512)], p := [(1, 0xFFFFFFFFFFFFFF0F#64), (7, 0xFF00FF00FF00FF00#64)], g := [(1, 0xABCDEF#64), (2, 0xFFFFFFFFFFFFFF07#64)] }), _, _, turned (by decide), by decide, by decide, rfl, by decide⟩,
   ⟨hen0, word 0x24 3 1 2 (256 + 64 + 1), hs (word 0x24 3 1 2 (256 + 64 + 1)) (fun x => { x with v := [(1, 0x3FC00000_C0490FDB_7F800000_7FC00000_00000001_80000000_42F60000_BF800000#512), (2, 0x40000000_C0490FDB_3F800000_41200000_00800000_00000000_C2C80000_BF000000#512)], p := [(1, 0xFFFFFFFFFFFFFF0F#64), (7, 0xFF00FF00FF00FF00#64)], g := [(1, 0xABCDEF#64), (2, 0xFFFFFFFFFFFFFF07#64)] }), _, _, turned (by decide), by decide, by decide, rfl, by decide⟩,
   ⟨hen0, word 0x24 3 1 2 (128 + 2), hs (word 0x24 3 1 2 (128 + 2)) (fun x => { x with v := [(1, 0x3FC00000_C0490FDB_7F800000_7FC00000_00000001_80000000_42F60000_BF800000#512), (2, 0x40000000_C0490FDB_3F800000_41200000_00800000_00000000_C2C80000_BF000000#512)], p := [(1, 0xFFFFFFFFFFFFFF0F#64), (7, 0xFF00FF00FF00FF00#64)], g := [(1, 0xABCDEF#64), (2, 0xFFFFFFFFFFFFFF07#64)] }), _, _, turned (by decide), by decide, by decide, rfl, by decide⟩,
   ⟨hen0, word 0x24 3 1 2 (192 + 3), hs (word 0x24 3 1 2 (192 + 3)) (fun x => { x with v := [(1, 0x3FC00000_C0490FDB_7F800000_7FC00000_00000001_80000000_42F60000_BF800000#512), (2, 0x40000000_C0490FDB_3F800000_41200000_00800000_00000000_C2C80000_BF000000#512)], p := [(1, 0xFFFFFFFFFFFFFF0F#64), (7, 0xFF00FF00FF00FF00#64)], g := [(1, 0xABCDEF#64), (2, 0xFFFFFFFFFFFFFF07#64)] }), _, _, turned (by decide), by decide, by decide, rfl, by decide⟩,
   ⟨hen0, word 0x24 3 1 2 (256 + 64 + 4), hs (word 0x24 3 1 2 (256 + 64 + 4)) (fun x => { x with v := [(1, 0x3FC00000_C0490FDB_7F800000_7FC00000_00000001_80000000_42F60000_BF800000#512), (2, 0x40000000_C0490FDB_3F800000_41200000_00800000_00000000_C2C80000_BF000000#512)], p := [(1, 0xFFFFFFFFFFFFFF0F#64), (7, 0xFF00FF00FF00FF00#64)], g := [(1, 0xABCDEF#64), (2, 0xFFFFFFFFFFFFFF07#64)] }), _, _, turned (by decide), by decide, by decide, rfl, by decide⟩⟩

theorem witness_HenPermuteReduceConvertResults_2 :
    PermRowMet 5 false
    ∧ PermRowMet 6 false
    ∧ (∃ (h : HenId) (w : BitVec 32) (s : State) (n : Mach) (b : Nat), HenTurn s.m h.agent w n ∧ HenAlu.op w = 0x24 ∧ HenAlu.fld w 0 6 = 7 ∧ b = 8 * 2 ^ HenAlu.fld w 6 2)
    ∧ PermRowMet 8 true
    ∧ PermRowMet 9 true :=
  ⟨⟨hen0, word 0x24 3 1 2 (256 + 64 + 5), hs (word 0x24 3 1 2 (256 + 64 + 5)) (fun x => { x with v := [(1, 0x3FC00000_C0490FDB_7F800000_7FC00000_00000001_80000000_42F60000_BF800000#512), (2, 0x40000000_C0490FDB_3F800000_41200000_00800000_00000000_C2C80000_BF000000#512)], p := [(1, 0xFFFFFFFFFFFFFF0F#64), (7, 0xFF00FF00FF00FF00#64)], g := [(1, 0xABCDEF#64), (2, 0xFFFFFFFFFFFFFF07#64)] }), _, _, turned (by decide), by decide, by decide, rfl, by decide⟩,
   ⟨hen0, word 0x24 3 1 2 (256 + 64 + 6), hs (word 0x24 3 1 2 (256 + 64 + 6)) (fun x => { x with v := [(1, 0x3FC00000_C0490FDB_7F800000_7FC00000_00000001_80000000_42F60000_BF800000#512), (2, 0x40000000_C0490FDB_3F800000_41200000_00800000_00000000_C2C80000_BF000000#512)], p := [(1, 0xFFFFFFFFFFFFFF0F#64), (7, 0xFF00FF00FF00FF00#64)], g := [(1, 0xABCDEF#64), (2, 0xFFFFFFFFFFFFFF07#64)] }), _, _, turned (by decide), by decide, by decide, rfl, by decide⟩,
   ⟨hen0, word 0x24 3 1 2 (256 + 64 + 7), hs (word 0x24 3 1 2 (256 + 64 + 7)) (fun x => { x with v := [(1, 0x3FC00000_C0490FDB_7F800000_7FC00000_00000001_80000000_42F60000_BF800000#512), (2, 0x40000000_C0490FDB_3F800000_41200000_00800000_00000000_C2C80000_BF000000#512)], p := [(1, 0xFFFFFFFFFFFFFF0F#64), (7, 0xFF00FF00FF00FF00#64)], g := [(1, 0xABCDEF#64), (2, 0xFFFFFFFFFFFFFF07#64)] }), _, _, turned (by decide), by decide, by decide, rfl⟩,
   ⟨hen0, word 0x24 3 1 2 (256 + 8), hs (word 0x24 3 1 2 (256 + 8)) (fun x => { x with v := [(1, 0x3FC00000_C0490FDB_7F800000_7FC00000_00000001_80000000_42F60000_BF800000#512), (2, 0x40000000_C0490FDB_3F800000_41200000_00800000_00000000_C2C80000_BF000000#512)], p := [(1, 0xFFFFFFFFFFFFFF0F#64), (7, 0xFF00FF00FF00FF00#64)], g := [(1, 0xABCDEF#64), (2, 0xFFFFFFFFFFFFFF07#64)] }), _, _, turned (by decide), by decide, by decide, rfl, by decide⟩,
   ⟨hen0, word 0x24 3 1 2 (256 + 9), hs (word 0x24 3 1 2 (256 + 9)) (fun x => { x with v := [(1, 0x3FC00000_C0490FDB_7F800000_7FC00000_00000001_80000000_42F60000_BF800000#512), (2, 0x40000000_C0490FDB_3F800000_41200000_00800000_00000000_C2C80000_BF000000#512)], p := [(1, 0xFFFFFFFFFFFFFF0F#64), (7, 0xFF00FF00FF00FF00#64)], g := [(1, 0xABCDEF#64), (2, 0xFFFFFFFFFFFFFF07#64)] }), _, _, turned (by decide), by decide, by decide, rfl, by decide⟩⟩

theorem witness_HenPermuteReduceConvertResults_3 :
    RedRowMet 0
    ∧ RedRowMet 1
    ∧ RedRowMet 2
    ∧ FpRedRowMet 0
    ∧ FpRedRowMet 1 :=
  ⟨⟨hen0, word 0x25 3 2 0 (256 + 4 * 32 + 0), hs (word 0x25 3 2 0 (256 + 4 * 32 + 0)) (fun x => { x with v := [(1, 0x3FC00000_C0490FDB_7F800000_7FC00000_00000001_80000000_42F60000_BF800000#512), (2, 0x40000000_C0490FDB_3F800000_41200000_00800000_00000000_C2C80000_BF000000#512)], p := [(1, 0xFFFFFFFFFFFFFF0F#64), (7, 0xFF00FF00FF00FF00#64)], g := [(1, 0xABCDEF#64), (2, 0xFFFFFFFFFFFFFF07#64)] }), _, _, turned (by decide), by decide, by decide, by decide, by decide, rfl, by decide⟩,
   ⟨hen0, word 0x25 3 2 0 (256 + 4 * 32 + 1), hs (word 0x25 3 2 0 (256 + 4 * 32 + 1)) (fun x => { x with v := [(1, 0x3FC00000_C0490FDB_7F800000_7FC00000_00000001_80000000_42F60000_BF800000#512), (2, 0x40000000_C0490FDB_3F800000_41200000_00800000_00000000_C2C80000_BF000000#512)], p := [(1, 0xFFFFFFFFFFFFFF0F#64), (7, 0xFF00FF00FF00FF00#64)], g := [(1, 0xABCDEF#64), (2, 0xFFFFFFFFFFFFFF07#64)] }), _, _, turned (by decide), by decide, by decide, by decide, by decide, rfl, by decide⟩,
   ⟨hen0, word 0x25 3 2 0 (256 + 4 * 32 + 2), hs (word 0x25 3 2 0 (256 + 4 * 32 + 2)) (fun x => { x with v := [(1, 0x3FC00000_C0490FDB_7F800000_7FC00000_00000001_80000000_42F60000_BF800000#512), (2, 0x40000000_C0490FDB_3F800000_41200000_00800000_00000000_C2C80000_BF000000#512)], p := [(1, 0xFFFFFFFFFFFFFF0F#64), (7, 0xFF00FF00FF00FF00#64)], g := [(1, 0xABCDEF#64), (2, 0xFFFFFFFFFFFFFF07#64)] }), _, _, turned (by decide), by decide, by decide, by decide, by decide, rfl, by decide⟩,
   ⟨hen0, word 0x25 3 2 0 (256 + 0), hs (word 0x25 3 2 0 (256 + 0)) (fun x => { x with v := [(1, 0x3FC00000_C0490FDB_7F800000_7FC00000_00000001_80000000_42F60000_BF800000#512), (2, 0x40000000_C0490FDB_3F800000_41200000_00800000_00000000_C2C80000_BF000000#512)], p := [(1, 0xFFFFFFFFFFFFFF0F#64), (7, 0xFF00FF00FF00FF00#64)], g := [(1, 0xABCDEF#64), (2, 0xFFFFFFFFFFFFFF07#64)] }), _, turned (by decide), by decide⟩,
   ⟨hen0, word 0x25 3 2 0 (256 + 1), hs (word 0x25 3 2 0 (256 + 1)) (fun x => { x with v := [(1, 0x3FC00000_C0490FDB_7F800000_7FC00000_00000001_80000000_42F60000_BF800000#512), (2, 0x40000000_C0490FDB_3F800000_41200000_00800000_00000000_C2C80000_BF000000#512)], p := [(1, 0xFFFFFFFFFFFFFF0F#64), (7, 0xFF00FF00FF00FF00#64)], g := [(1, 0xABCDEF#64), (2, 0xFFFFFFFFFFFFFF07#64)] }), _, turned (by decide), by decide⟩⟩

theorem witness_HenPermuteReduceConvertResults_4 :
    FpRedRowMet 2
    ∧ (∃ (h : HenId) (w : BitVec 32) (s : State) (n : Mach) (f : Fmt) (g : Fmt) (ws : Nat) (wd : Nat) (part : Nat) (k : Nat), HenTurn s.m h.agent w n ∧ HenAlu.op w = 0x26 ∧ HenAlu.fld w 0 1 = 0 ∧ Fmt.ofSpec (HenAlu.fld w 11 4) false = some f ∧ Fmt.ofSpec (HenAlu.fld w 4 4) false = some g ∧ ws = HenAlu.cvtWidth (HenAlu.fld w 11 4) ∧ wd = HenAlu.cvtWidth (HenAlu.fld w 4 4) ∧ part = HenAlu.fld w 1 3 ∧ part < max ws wd / min ws wd ∧ k = 512 / max ws wd) :=
  ⟨⟨hen0, word 0x25 3 2 0 (256 + 2), hs (word 0x25 3 2 0 (256 + 2)) (fun x => { x with v := [(1, 0x3FC00000_C0490FDB_7F800000_7FC00000_00000001_80000000_42F60000_BF800000#512), (2, 0x40000000_C0490FDB_3F800000_41200000_00800000_00000000_C2C80000_BF000000#512)], p := [(1, 0xFFFFFFFFFFFFFF0F#64), (7, 0xFF00FF00FF00FF00#64)], g := [(1, 0xABCDEF#64), (2, 0xFFFFFFFFFFFFFF07#64)] }), _, turned (by decide), by decide⟩,
   ⟨hen0, BitVec.ofNat 32 (0x26 * 2 ^ 26 + 3 * 2 ^ 21 + 2 * 2 ^ 16 + 9 * 2 ^ 11 + 8 * 2 ^ 4 + 2), hs (BitVec.ofNat 32 (0x26 * 2 ^ 26 + 3 * 2 ^ 21 + 2 * 2 ^ 16 + 9 * 2 ^ 11 + 8 * 2 ^ 4 + 2)) (fun x => { x with v := [(1, 0x3FC00000_C0490FDB_7F800000_7FC00000_00000001_80000000_42F60000_BF800000#512), (2, 0x40000000_C0490FDB_3F800000_41200000_00800000_00000000_C2C80000_BF000000#512)], p := [(1, 0xFFFFFFFFFFFFFF0F#64), (7, 0xFF00FF00FF00FF00#64)], g := [(1, 0xABCDEF#64), (2, 0xFFFFFFFFFFFFFF07#64)] }), _, .f32, .f16, _, _, _, _, turned (by decide), by decide, by decide, by decide, by decide, rfl, rfl, rfl, by decide, rfl⟩⟩

def LoadRowMet (o : Nat) (b : Nat) : Prop :=
  (∃ (h : HenId) (w : BitVec 32) (s : State) (n : Mach) (pa : Nat) (ty : Nat) (sa : _) (x : _), HenTurn s.m h.agent w n ∧ HenAlu.op w = o ∧ pa = (addrI n h.agent w).toNat ∧ pa % b = 0 ∧ n.rgnAllow h.agent pa 0 = some ty ∧ ty ≠ 2 ∧ n.sbForward h.agent (n.lineOf pa) (byteMask (pa % 64) b) = none ∧ n.target pa = .home sa ∧ n.targetDead (.home sa) = false ∧ n.targetHeld (.home sa) = false ∧ ty = 0 ∧ (n.hen h.agent).dcEn = true ∧ (n.hen h.agent).find (sa / 64) = some x ∧ x.bad = false ∧ x.poison = false)
  ∧ (∃ (h : HenId) (w : BitVec 32) (s : State) (n : Mach) (pa : Nat) (ty : Nat) (fb : _) (fpa : _), HenTurn s.m h.agent w n ∧ HenAlu.op w = o ∧ pa = (addrI n h.agent w).toNat ∧ pa % b = 0 ∧ n.rgnAllow h.agent pa 0 = some ty ∧ ty ≠ 2 ∧ n.sbForward h.agent (n.lineOf pa) (byteMask (pa % 64) b) = none ∧ n.target pa = .flock fb fpa ∧ n.targetDead (.flock fb fpa) = false ∧ n.targetHeld (.flock fb fpa) = false ∧ FMap.get 0 n.fmUpset (pa / 64) = 0 ∧ FMap.get false n.fmPoison (pa / 64) = false ∧ (∀ x ∈ (n.hen h.agent).crossing, x.line ≠ pa / 64))
  ∧ (∃ (h : HenId) (w : BitVec 32) (s : State) (n : Mach) (pa : Nat) (ty : Nat) (e : _), HenTurn s.m h.agent w n ∧ HenAlu.op w = o ∧ pa = (addrI n h.agent w).toNat ∧ pa % b = 0 ∧ n.rgnAllow h.agent pa 0 = some ty ∧ ty ≠ 2 ∧ n.sbForward h.agent (n.lineOf pa) (byteMask (pa % 64) b) = some e ∧ e.mask &&& byteMask (pa % 64) b = byteMask (pa % 64) b)

theorem witness_HenLoadResults_1 :
    LoadRowMet 0x10 1
    ∧ LoadRowMet 0x11 1
    ∧ LoadRowMet 0x12 2
    ∧ LoadRowMet 0x13 2
    ∧ LoadRowMet 0x14 4 :=
  ⟨⟨⟨hen0, wordI 0x10 3 1 0x7FF8, hs (wordI 0x10 3 1 0x7FF8) (fun x => { x with rgnBase := [(2, some 0x80000000000000FC#64)], rgnLimit := [(2, some 0x000000FFFFFFF000#64)], dc := [(0, { w0 := some ({ line := 0x400000000, st := .s, data := 0xF1F2F3F4F5F6F7F8_8182838485868788#512 } : CacheLine) })], g := [(1, 0xFFFFFFFFFFFF8008#64)] }), _, _, 0, 0x010000000000, ({ line := 0x400000000, st := .s, data := 0xF1F2F3F4F5F6F7F8_8182838485868788#512 } : CacheLine), turned (by decide), by decide, rfl, by decide⟩, ⟨hen0, wordI 0x10 3 1 0xFFF1, hs (wordI 0x10 3 1 0xFFF1) (fun x => { x with g := [(1, 0x02004000004F#64)] }) ({ up with fm := [(0x020040000040, 0x88), (0x020040000041, 0x99), (0x020040000047, 0xFF), (0x020040000048, 0x7F)] }), _, _, 0, flockBase 0 0, 0x020040000040, turned (by decide), by decide, rfl, by decide⟩, ⟨hen0, wordI 0x10 3 1 0, hs (wordI 0x10 3 1 0) (fun x => { x with rgnBase := [(2, some 0x80000000000000FC#64)], rgnLimit := [(2, some 0x000000FFFFFFF000#64)], sb := [({ line := 0x400000001, mask := 0xFF00#64, data := 0xA1A2A3A4A5A6A7A8_0000000000000000#512, uncached := false } : SbEntry)], g := [(1, 0x48#64)] }), _, _, 0, ({ line := 0x400000001, mask := 0xFF00#64, data := 0xA1A2A3A4A5A6A7A8_0000000000000000#512, uncached := false } : SbEntry), turned (by decide), by decide, rfl, by decide⟩⟩,
   ⟨⟨hen0, wordI 0x11 3 1 0x7FF8, hs (wordI 0x11 3 1 0x7FF8) (fun x => { x with rgnBase := [(2, some 0x80000000000000FC#64)], rgnLimit := [(2, some 0x000000FFFFFFF000#64)], dc := [(0, { w0 := some ({ line := 0x400000000, st := .s, data := 0xF1F2F3F4F5F6F7F8_8182838485868788#512 } : CacheLine) })], g := [(1, 0xFFFFFFFFFFFF8008#64)] }), _, _, 0, 0x010000000000, ({ line := 0x400000000, st := .s, data := 0xF1F2F3F4F5F6F7F8_8182838485868788#512 } : CacheLine), turned (by decide), by decide, rfl, by decide⟩, ⟨hen0, wordI 0x11 3 1 0xFFF1, hs (wordI 0x11 3 1 0xFFF1) (fun x => { x with g := [(1, 0x02004000004F#64)] }) ({ up with fm := [(0x020040000040, 0x88), (0x020040000041, 0x99), (0x020040000047, 0xFF), (0x020040000048, 0x7F)] }), _, _, 0, flockBase 0 0, 0x020040000040, turned (by decide), by decide, rfl, by decide⟩, ⟨hen0, wordI 0x11 3 1 0, hs (wordI 0x11 3 1 0) (fun x => { x with rgnBase := [(2, some 0x80000000000000FC#64)], rgnLimit := [(2, some 0x000000FFFFFFF000#64)], sb := [({ line := 0x400000001, mask := 0xFF00#64, data := 0xA1A2A3A4A5A6A7A8_0000000000000000#512, uncached := false } : SbEntry)], g := [(1, 0x48#64)] }), _, _, 0, ({ line := 0x400000001, mask := 0xFF00#64, data := 0xA1A2A3A4A5A6A7A8_0000000000000000#512, uncached := false } : SbEntry), turned (by decide), by decide, rfl, by decide⟩⟩,
   ⟨⟨hen0, wordI 0x12 3 1 0x7FF8, hs (wordI 0x12 3 1 0x7FF8) (fun x => { x with rgnBase := [(2, some 0x80000000000000FC#64)], rgnLimit := [(2, some 0x000000FFFFFFF000#64)], dc := [(0, { w0 := some ({ line := 0x400000000, st := .s, data := 0xF1F2F3F4F5F6F7F8_8182838485868788#512 } : CacheLine) })], g := [(1, 0xFFFFFFFFFFFF8008#64)] }), _, _, 0, 0x010000000000, ({ line := 0x400000000, st := .s, data := 0xF1F2F3F4F5F6F7F8_8182838485868788#512 } : CacheLine), turned (by decide), by decide, rfl, by decide⟩, ⟨hen0, wordI 0x12 3 1 0xFFF1, hs (wordI 0x12 3 1 0xFFF1) (fun x => { x with g := [(1, 0x02004000004F#64)] }) ({ up with fm := [(0x020040000040, 0x88), (0x020040000041, 0x99), (0x020040000047, 0xFF), (0x020040000048, 0x7F)] }), _, _, 0, flockBase 0 0, 0x020040000040, turned (by decide), by decide, rfl, by decide⟩, ⟨hen0, wordI 0x12 3 1 0, hs (wordI 0x12 3 1 0) (fun x => { x with rgnBase := [(2, some 0x80000000000000FC#64)], rgnLimit := [(2, some 0x000000FFFFFFF000#64)], sb := [({ line := 0x400000001, mask := 0xFF00#64, data := 0xA1A2A3A4A5A6A7A8_0000000000000000#512, uncached := false } : SbEntry)], g := [(1, 0x48#64)] }), _, _, 0, ({ line := 0x400000001, mask := 0xFF00#64, data := 0xA1A2A3A4A5A6A7A8_0000000000000000#512, uncached := false } : SbEntry), turned (by decide), by decide, rfl, by decide⟩⟩,
   ⟨⟨hen0, wordI 0x13 3 1 0x7FF8, hs (wordI 0x13 3 1 0x7FF8) (fun x => { x with rgnBase := [(2, some 0x80000000000000FC#64)], rgnLimit := [(2, some 0x000000FFFFFFF000#64)], dc := [(0, { w0 := some ({ line := 0x400000000, st := .s, data := 0xF1F2F3F4F5F6F7F8_8182838485868788#512 } : CacheLine) })], g := [(1, 0xFFFFFFFFFFFF8008#64)] }), _, _, 0, 0x010000000000, ({ line := 0x400000000, st := .s, data := 0xF1F2F3F4F5F6F7F8_8182838485868788#512 } : CacheLine), turned (by decide), by decide, rfl, by decide⟩, ⟨hen0, wordI 0x13 3 1 0xFFF1, hs (wordI 0x13 3 1 0xFFF1) (fun x => { x with g := [(1, 0x02004000004F#64)] }) ({ up with fm := [(0x020040000040, 0x88), (0x020040000041, 0x99), (0x020040000047, 0xFF), (0x020040000048, 0x7F)] }), _, _, 0, flockBase 0 0, 0x020040000040, turned (by decide), by decide, rfl, by decide⟩, ⟨hen0, wordI 0x13 3 1 0, hs (wordI 0x13 3 1 0) (fun x => { x with rgnBase := [(2, some 0x80000000000000FC#64)], rgnLimit := [(2, some 0x000000FFFFFFF000#64)], sb := [({ line := 0x400000001, mask := 0xFF00#64, data := 0xA1A2A3A4A5A6A7A8_0000000000000000#512, uncached := false } : SbEntry)], g := [(1, 0x48#64)] }), _, _, 0, ({ line := 0x400000001, mask := 0xFF00#64, data := 0xA1A2A3A4A5A6A7A8_0000000000000000#512, uncached := false } : SbEntry), turned (by decide), by decide, rfl, by decide⟩⟩,
   ⟨⟨hen0, wordI 0x14 3 1 0x7FF8, hs (wordI 0x14 3 1 0x7FF8) (fun x => { x with rgnBase := [(2, some 0x80000000000000FC#64)], rgnLimit := [(2, some 0x000000FFFFFFF000#64)], dc := [(0, { w0 := some ({ line := 0x400000000, st := .s, data := 0xF1F2F3F4F5F6F7F8_8182838485868788#512 } : CacheLine) })], g := [(1, 0xFFFFFFFFFFFF8008#64)] }), _, _, 0, 0x010000000000, ({ line := 0x400000000, st := .s, data := 0xF1F2F3F4F5F6F7F8_8182838485868788#512 } : CacheLine), turned (by decide), by decide, rfl, by decide⟩, ⟨hen0, wordI 0x14 3 1 0xFFF1, hs (wordI 0x14 3 1 0xFFF1) (fun x => { x with g := [(1, 0x02004000004F#64)] }) ({ up with fm := [(0x020040000040, 0x88), (0x020040000041, 0x99), (0x020040000047, 0xFF), (0x020040000048, 0x7F)] }), _, _, 0, flockBase 0 0, 0x020040000040, turned (by decide), by decide, rfl, by decide⟩, ⟨hen0, wordI 0x14 3 1 0, hs (wordI 0x14 3 1 0) (fun x => { x with rgnBase := [(2, some 0x80000000000000FC#64)], rgnLimit := [(2, some 0x000000FFFFFFF000#64)], sb := [({ line := 0x400000001, mask := 0xFF00#64, data := 0xA1A2A3A4A5A6A7A8_0000000000000000#512, uncached := false } : SbEntry)], g := [(1, 0x48#64)] }), _, _, 0, ({ line := 0x400000001, mask := 0xFF00#64, data := 0xA1A2A3A4A5A6A7A8_0000000000000000#512, uncached := false } : SbEntry), turned (by decide), by decide, rfl, by decide⟩⟩⟩

theorem witness_HenLoadResults_2 :
    LoadRowMet 0x15 4
    ∧ LoadRowMet 0x16 8
    ∧ (∃ (h : HenId) (w : BitVec 32) (s : State) (n : Mach) (pa : Nat) (mask : BitVec 64) (fb : Nat) (fpa : Nat), HenTurn s.m h.agent w n ∧ HenAlu.op w = 0x20 ∧ pa = (n.g h.agent (HenAlu.fB w) + (w.setWidth 13).signExtend 64 * 64).toNat ∧ mask = n.p h.agent (HenAlu.fld w 13 3) ∧ mask ≠ 0 ∧ pa % 64 = 0 ∧ n.rgnAllow h.agent pa 0 = some 0 ∧ n.sbForward h.agent (n.lineOf pa) mask = none ∧ n.target pa = .flock fb fpa ∧ n.targetDead (.flock fb fpa) = false ∧ n.targetHeld (.flock fb fpa) = false ∧ FMap.get 0 n.fmUpset (pa / 64) = 0 ∧ FMap.get false n.fmPoison (pa / 64) = false ∧ (∀ x ∈ (n.hen h.agent).crossing, x.line ≠ pa / 64)) :=
  ⟨⟨⟨hen0, wordI 0x15 3 1 0x7FF8, hs (wordI 0x15 3 1 0x7FF8) (fun x => { x with rgnBase := [(2, some 0x80000000000000FC#64)], rgnLimit := [(2, some 0x000000FFFFFFF000#64)], dc := [(0, { w0 := some ({ line := 0x400000000, st := .s, data := 0xF1F2F3F4F5F6F7F8_8182838485868788#512 } : CacheLine) })], g := [(1, 0xFFFFFFFFFFFF8008#64)] }), _, _, 0, 0x010000000000, ({ line := 0x400000000, st := .s, data := 0xF1F2F3F4F5F6F7F8_8182838485868788#512 } : CacheLine), turned (by decide), by decide, rfl, by decide⟩, ⟨hen0, wordI 0x15 3 1 0xFFF1, hs (wordI 0x15 3 1 0xFFF1) (fun x => { x with g := [(1, 0x02004000004F#64)] }) ({ up with fm := [(0x020040000040, 0x88), (0x020040000041, 0x99), (0x020040000047, 0xFF), (0x020040000048, 0x7F)] }), _, _, 0, flockBase 0 0, 0x020040000040, turned (by decide), by decide, rfl, by decide⟩, ⟨hen0, wordI 0x15 3 1 0, hs (wordI 0x15 3 1 0) (fun x => { x with rgnBase := [(2, some 0x80000000000000FC#64)], rgnLimit := [(2, some 0x000000FFFFFFF000#64)], sb := [({ line := 0x400000001, mask := 0xFF00#64, data := 0xA1A2A3A4A5A6A7A8_0000000000000000#512, uncached := false } : SbEntry)], g := [(1, 0x48#64)] }), _, _, 0, ({ line := 0x400000001, mask := 0xFF00#64, data := 0xA1A2A3A4A5A6A7A8_0000000000000000#512, uncached := false } : SbEntry), turned (by decide), by decide, rfl, by decide⟩⟩,
   ⟨⟨hen0, wordI 0x16 3 1 0x7FF8, hs (wordI 0x16 3 1 0x7FF8) (fun x => { x with rgnBase := [(2, some 0x80000000000000FC#64)], rgnLimit := [(2, some 0x000000FFFFFFF000#64)], dc := [(0, { w0 := some ({ line := 0x400000000, st := .s, data := 0xF1F2F3F4F5F6F7F8_8182838485868788#512 } : CacheLine) })], g := [(1, 0xFFFFFFFFFFFF8008#64)] }), _, _, 0, 0x010000000000, ({ line := 0x400000000, st := .s, data := 0xF1F2F3F4F5F6F7F8_8182838485868788#512 } : CacheLine), turned (by decide), by decide, rfl, by decide⟩, ⟨hen0, wordI 0x16 3 1 0xFFF1, hs (wordI 0x16 3 1 0xFFF1) (fun x => { x with g := [(1, 0x02004000004F#64)] }) ({ up with fm := [(0x020040000040, 0x88), (0x020040000041, 0x99), (0x020040000047, 0xFF), (0x020040000048, 0x7F)] }), _, _, 0, flockBase 0 0, 0x020040000040, turned (by decide), by decide, rfl, by decide⟩, ⟨hen0, wordI 0x16 3 1 0, hs (wordI 0x16 3 1 0) (fun x => { x with rgnBase := [(2, some 0x80000000000000FC#64)], rgnLimit := [(2, some 0x000000FFFFFFF000#64)], sb := [({ line := 0x400000001, mask := 0xFF00#64, data := 0xA1A2A3A4A5A6A7A8_0000000000000000#512, uncached := false } : SbEntry)], g := [(1, 0x48#64)] }), _, _, 0, ({ line := 0x400000001, mask := 0xFF00#64, data := 0xA1A2A3A4A5A6A7A8_0000000000000000#512, uncached := false } : SbEntry), turned (by decide), by decide, rfl, by decide⟩⟩,
   ⟨hen0, wordI 0x20 3 1 (0x2000 + 0x1FFF), hs (wordI 0x20 3 1 (0x2000 + 0x1FFF)) (fun x => { x with g := [(1, 0x020040000080#64)], p := [(1, 0x80000000000001C1#64)] }) ({ up with fm := [(0x020040000040, 0x88), (0x020040000041, 0x99), (0x020040000047, 0xFF), (0x020040000048, 0x7F)] }), _, _, _, flockBase 0 0, 0x020040000040, turned (by decide), by decide, rfl, rfl, by decide⟩⟩

def StoreRowMet (o : Nat) (b : Nat) : Prop :=
  (∃ (h : HenId) (w : BitVec 32) (s : State) (n : Mach) (pa : Nat) (ty : Nat), HenTurn s.m h.agent w n ∧ HenAlu.op w = o ∧ pa = (addrI n h.agent w).toNat ∧ pa % b = 0 ∧ n.rgnAllow h.agent pa 1 = some ty ∧ ty ≠ 2 ∧ (∀ off, n.target pa ≠ .dev off) ∧ n.sbFull h.agent (n.lineOf pa) = false)

theorem witness_HenStoreEntersBuffer_1 :
    StoreRowMet 0x1A 1
    ∧ StoreRowMet 0x1B 2
    ∧ StoreRowMet 0x1C 4
    ∧ StoreRowMet 0x1D 8
    ∧ (∃ (h : HenId) (w : BitVec 32) (s : State) (n : Mach) (pa : Nat) (ty : Nat) (mask : BitVec 64), HenTurn s.m h.agent w n ∧ HenAlu.op w = 0x21 ∧ pa = (n.g h.agent (HenAlu.fB w) + (w.setWidth 13).signExtend 64 * 64).toNat ∧ pa % 64 = 0 ∧ n.rgnAllow h.agent pa 1 = some ty ∧ ty ≠ 2 ∧ (∀ off, n.target pa ≠ .dev off) ∧ mask = n.p h.agent (HenAlu.fld w 13 3) ∧ mask ≠ 0 ∧ n.sbFull h.agent (n.lineOf pa) = false) :=
  ⟨⟨hen0, wordI 0x1A 3 1 1, hs (wordI 0x1A 3 1 1) (fun x => { x with rgnBase := [(2, some 0x80000000000000FC#64)], rgnLimit := [(2, some 0x000000FFFFFFF000#64)], g := [(1, 0x47#64), (3, 0x8182838485868788#64)], sb := [{ line := 0x400000001, mask := 0xFF#64, data := 0x11#512, uncached := false }] }), _, _, 0, turned (by decide), by decide, rfl, by decide, by decide, by decide, notDev (by decide), by decide⟩,
   ⟨hen0, wordI 0x1B 3 1 1, hs (wordI 0x1B 3 1 1) (fun x => { x with rgnBase := [(2, some 0x80000000000000FC#64)], rgnLimit := [(2, some 0x000000FFFFFFF000#64)], g := [(1, 0x47#64), (3, 0x8182838485868788#64)], sb := [{ line := 0x400000001, mask := 0xFF#64, data := 0x11#512, uncached := false }] }), _, _, 0, turned (by decide), by decide, rfl, by decide, by decide, by decide, notDev (by decide), by decide⟩,
   ⟨hen0, wordI 0x1C 3 1 1, hs (wordI 0x1C 3 1 1) (fun x => { x with rgnBase := [(2, some 0x80000000000000FC#64)], rgnLimit := [(2, some 0x000000FFFFFFF000#64)], g := [(1, 0x47#64), (3, 0x8182838485868788#64)], sb := [{ line := 0x400000001, mask := 0xFF#64, data := 0x11#512, uncached := false }] }), _, _, 0, turned (by decide), by decide, rfl, by decide, by decide, by decide, notDev (by decide), by decide⟩,
   ⟨hen0, wordI 0x1D 3 1 1, hs (wordI 0x1D 3 1 1) (fun x => { x with rgnBase := [(2, some 0x80000000000000FC#64)], rgnLimit := [(2, some 0x000000FFFFFFF000#64)], g := [(1, 0x47#64), (3, 0x8182838485868788#64)], sb := [{ line := 0x400000001, mask := 0xFF#64, data := 0x11#512, uncached := false }] }), _, _, 0, turned (by decide), by decide, rfl, by decide, by decide, by decide, notDev (by decide), by decide⟩,
   ⟨hen0, wordI 0x21 3 1 (0x2000 + 1), hs (wordI 0x21 3 1 (0x2000 + 1)) (fun x => { x with rgnBase := [(2, some 0x80000000000000FC#64)], rgnLimit := [(2, some 0x000000FFFFFFF000#64)], g := [(1, 0x40#64)], v := [(3, 0x1234#512)], p := [(1, 0xF#64)] }), _, _, 0, _, turned (by decide), by decide, rfl, by decide, by decide, by decide, notDev (by decide), rfl, by decide⟩⟩

theorem witness_HenStoreEntersBuffer_2 :
    (∃ (h : HenId) (w : BitVec 32) (s : State) (n : Mach) (pa : Nat) (b : Nat) (t : Nat), HenTurn s.m h.agent w n ∧ HenAlu.op w = 0x1E ∧ HenAlu.fld w 0 5 = 0 ∧ HenAlu.fld w 8 1 = 0 ∧ HenAlu.fld w 5 3 = 0 ∧ b = 2 ^ HenAlu.fld w 9 2 ∧ pa = (n.g h.agent (HenAlu.fB w)).toNat ∧ pa % b = 0 ∧ n.rgnAllow h.agent pa 1 = some 0 ∧ (∀ off, n.target pa ≠ .dev off) ∧ t = (n.g h.agent (HenAlu.fC w)).toNat % 8192 ∧ n.sbFull h.agent (n.lineOf pa) = false) :=
  ⟨hen0, BitVec.ofNat 32 (0x1E * 2 ^ 26 + 3 * 2 ^ 21 + 1 * 2 ^ 16 + 2 * 2 ^ 11 + 3 * 2 ^ 9), hs (BitVec.ofNat 32 (0x1E * 2 ^ 26 + 3 * 2 ^ 21 + 1 * 2 ^ 16 + 2 * 2 ^ 11 + 3 * 2 ^ 9)) (fun x => { x with rgnBase := [(2, some 0x80000000000000FC#64)], rgnLimit := [(2, some 0x000000FFFFFFF000#64)], g := [(1, 0x40#64), (2, 0x1801#64), (3, 0x77#64)] }), _, _, _, _, turned (by decide), by decide, by decide, by decide, by decide, rfl, rfl, by decide, by decide, notDev (by decide), rfl, by decide⟩

def AmoRowMet (op : Nat) : Prop :=
  (∃ (h : HenId) (w : BitVec 32) (s : State) (n : Mach) (pa : Nat) (z : Nat) (sa : Nat), HenTurn s.m h.agent w n ∧ HenAlu.op w = 0x18 ∧ HenAlu.fld w 0 4 = 0 ∧ HenAlu.fld w 6 5 = op ∧ HenAlu.fld w 4 2 = z ∧ (z = 2 ∨ z = 3 ∧ op ≠ 12) ∧ pa = (n.g h.agent (HenAlu.fB w)).toNat ∧ AtomOk n h.agent pa (2 ^ z) sa)

theorem witness_HenAtomicRequests_1 :
    AmoRowMet 2
    ∧ AmoRowMet 3
    ∧ AmoRowMet 4
    ∧ AmoRowMet 5
    ∧ AmoRowMet 6 :=
  ⟨⟨hen0, BitVec.ofNat 32 (0x18 * 2 ^ 26 + 3 * 2 ^ 21 + 1 * 2 ^ 16 + 2 * 2 ^ 11 + 2 * 2 ^ 6 + 3 * 2 ^ 4), hs (BitVec.ofNat 32 (0x18 * 2 ^ 26 + 3 * 2 ^ 21 + 1 * 2 ^ 16 + 2 * 2 ^ 11 + 2 * 2 ^ 6 + 3 * 2 ^ 4)) (fun x => { x with rgnBase := [(2, some 0x80000000000000FC#64)], rgnLimit := [(2, some 0x000000FFFFFFF000#64)], g := [(1, 0x48#64), (2, 5#64)] }), _, _, 3, 0x010000000048, turned (by decide), by decide, by decide, by decide, by decide, by decide, rfl, ⟨by decide, ⟨0, by decide, by decide⟩, by decide, by decide, by decide, by decide, by decide, by decide, by decide⟩⟩,
   ⟨hen0, BitVec.ofNat 32 (0x18 * 2 ^ 26 + 3 * 2 ^ 21 + 1 * 2 ^ 16 + 2 * 2 ^ 11 + 3 * 2 ^ 6 + 3 * 2 ^ 4), hs (BitVec.ofNat 32 (0x18 * 2 ^ 26 + 3 * 2 ^ 21 + 1 * 2 ^ 16 + 2 * 2 ^ 11 + 3 * 2 ^ 6 + 3 * 2 ^ 4)) (fun x => { x with rgnBase := [(2, some 0x80000000000000FC#64)], rgnLimit := [(2, some 0x000000FFFFFFF000#64)], g := [(1, 0x48#64), (2, 5#64)] }), _, _, 3, 0x010000000048, turned (by decide), by decide, by decide, by decide, by decide, by decide, rfl, ⟨by decide, ⟨0, by decide, by decide⟩, by decide, by decide, by decide, by decide, by decide, by decide, by decide⟩⟩,
   ⟨hen0, BitVec.ofNat 32 (0x18 * 2 ^ 26 + 3 * 2 ^ 21 + 1 * 2 ^ 16 + 2 * 2 ^ 11 + 4 * 2 ^ 6 + 3 * 2 ^ 4), hs (BitVec.ofNat 32 (0x18 * 2 ^ 26 + 3 * 2 ^ 21 + 1 * 2 ^ 16 + 2 * 2 ^ 11 + 4 * 2 ^ 6 + 3 * 2 ^ 4)) (fun x => { x with rgnBase := [(2, some 0x80000000000000FC#64)], rgnLimit := [(2, some 0x000000FFFFFFF000#64)], g := [(1, 0x48#64), (2, 5#64)] }), _, _, 3, 0x010000000048, turned (by decide), by decide, by decide, by decide, by decide, by decide, rfl, ⟨by decide, ⟨0, by decide, by decide⟩, by decide, by decide, by decide, by decide, by decide, by decide, by decide⟩⟩,
   ⟨hen0, BitVec.ofNat 32 (0x18 * 2 ^ 26 + 3 * 2 ^ 21 + 1 * 2 ^ 16 + 2 * 2 ^ 11 + 5 * 2 ^ 6 + 3 * 2 ^ 4), hs (BitVec.ofNat 32 (0x18 * 2 ^ 26 + 3 * 2 ^ 21 + 1 * 2 ^ 16 + 2 * 2 ^ 11 + 5 * 2 ^ 6 + 3 * 2 ^ 4)) (fun x => { x with rgnBase := [(2, some 0x80000000000000FC#64)], rgnLimit := [(2, some 0x000000FFFFFFF000#64)], g := [(1, 0x48#64), (2, 5#64)] }), _, _, 3, 0x010000000048, turned (by decide), by decide, by decide, by decide, by decide, by decide, rfl, ⟨by decide, ⟨0, by decide, by decide⟩, by decide, by decide, by decide, by decide, by decide, by decide, by decide⟩⟩,
   ⟨hen0, BitVec.ofNat 32 (0x18 * 2 ^ 26 + 3 * 2 ^ 21 + 1 * 2 ^ 16 + 2 * 2 ^ 11 + 6 * 2 ^ 6 + 3 * 2 ^ 4), hs (BitVec.ofNat 32 (0x18 * 2 ^ 26 + 3 * 2 ^ 21 + 1 * 2 ^ 16 + 2 * 2 ^ 11 + 6 * 2 ^ 6 + 3 * 2 ^ 4)) (fun x => { x with rgnBase := [(2, some 0x80000000000000FC#64)], rgnLimit := [(2, some 0x000000FFFFFFF000#64)], g := [(1, 0x48#64), (2, 5#64)] }), _, _, 3, 0x010000000048, turned (by decide), by decide, by decide, by decide, by decide, by decide, rfl, ⟨by decide, ⟨0, by decide, by decide⟩, by decide, by decide, by decide, by decide, by decide, by decide, by decide⟩⟩⟩

theorem witness_HenAtomicRequests_2 :
    AmoRowMet 7
    ∧ AmoRowMet 8
    ∧ AmoRowMet 9
    ∧ AmoRowMet 10
    ∧ AmoRowMet 11 :=
  ⟨⟨hen0, BitVec.ofNat 32 (0x18 * 2 ^ 26 + 3 * 2 ^ 21 + 1 * 2 ^ 16 + 2 * 2 ^ 11 + 7 * 2 ^ 6 + 3 * 2 ^ 4), hs (BitVec.ofNat 32 (0x18 * 2 ^ 26 + 3 * 2 ^ 21 + 1 * 2 ^ 16 + 2 * 2 ^ 11 + 7 * 2 ^ 6 + 3 * 2 ^ 4)) (fun x => { x with rgnBase := [(2, some 0x80000000000000FC#64)], rgnLimit := [(2, some 0x000000FFFFFFF000#64)], g := [(1, 0x48#64), (2, 5#64)] }), _, _, 3, 0x010000000048, turned (by decide), by decide, by decide, by decide, by decide, by decide, rfl, ⟨by decide, ⟨0, by decide, by decide⟩, by decide, by decide, by decide, by decide, by decide, by decide, by decide⟩⟩,
   ⟨hen0, BitVec.ofNat 32 (0x18 * 2 ^ 26 + 3 * 2 ^ 21 + 1 * 2 ^ 16 + 2 * 2 ^ 11 + 8 * 2 ^ 6 + 3 * 2 ^ 4), hs (BitVec.ofNat 32 (0x18 * 2 ^ 26 + 3 * 2 ^ 21 + 1 * 2 ^ 16 + 2 * 2 ^ 11 + 8 * 2 ^ 6 + 3 * 2 ^ 4)) (fun x => { x with rgnBase := [(2, some 0x80000000000000FC#64)], rgnLimit := [(2, some 0x000000FFFFFFF000#64)], g := [(1, 0x48#64), (2, 5#64)] }), _, _, 3, 0x010000000048, turned (by decide), by decide, by decide, by decide, by decide, by decide, rfl, ⟨by decide, ⟨0, by decide, by decide⟩, by decide, by decide, by decide, by decide, by decide, by decide, by decide⟩⟩,
   ⟨hen0, BitVec.ofNat 32 (0x18 * 2 ^ 26 + 3 * 2 ^ 21 + 1 * 2 ^ 16 + 2 * 2 ^ 11 + 9 * 2 ^ 6 + 3 * 2 ^ 4), hs (BitVec.ofNat 32 (0x18 * 2 ^ 26 + 3 * 2 ^ 21 + 1 * 2 ^ 16 + 2 * 2 ^ 11 + 9 * 2 ^ 6 + 3 * 2 ^ 4)) (fun x => { x with rgnBase := [(2, some 0x80000000000000FC#64)], rgnLimit := [(2, some 0x000000FFFFFFF000#64)], g := [(1, 0x48#64), (2, 5#64)] }), _, _, 3, 0x010000000048, turned (by decide), by decide, by decide, by decide, by decide, by decide, rfl, ⟨by decide, ⟨0, by decide, by decide⟩, by decide, by decide, by decide, by decide, by decide, by decide, by decide⟩⟩,
   ⟨hen0, BitVec.ofNat 32 (0x18 * 2 ^ 26 + 3 * 2 ^ 21 + 1 * 2 ^ 16 + 2 * 2 ^ 11 + 10 * 2 ^ 6 + 3 * 2 ^ 4), hs (BitVec.ofNat 32 (0x18 * 2 ^ 26 + 3 * 2 ^ 21 + 1 * 2 ^ 16 + 2 * 2 ^ 11 + 10 * 2 ^ 6 + 3 * 2 ^ 4)) (fun x => { x with rgnBase := [(2, some 0x80000000000000FC#64)], rgnLimit := [(2, some 0x000000FFFFFFF000#64)], g := [(1, 0x48#64), (2, 5#64)] }), _, _, 3, 0x010000000048, turned (by decide), by decide, by decide, by decide, by decide, by decide, rfl, ⟨by decide, ⟨0, by decide, by decide⟩, by decide, by decide, by decide, by decide, by decide, by decide, by decide⟩⟩,
   ⟨hen0, BitVec.ofNat 32 (0x18 * 2 ^ 26 + 3 * 2 ^ 21 + 1 * 2 ^ 16 + 2 * 2 ^ 11 + 11 * 2 ^ 6 + 3 * 2 ^ 4), hs (BitVec.ofNat 32 (0x18 * 2 ^ 26 + 3 * 2 ^ 21 + 1 * 2 ^ 16 + 2 * 2 ^ 11 + 11 * 2 ^ 6 + 3 * 2 ^ 4)) (fun x => { x with rgnBase := [(2, some 0x80000000000000FC#64)], rgnLimit := [(2, some 0x000000FFFFFFF000#64)], g := [(1, 0x48#64), (2, 5#64)] }), _, _, 3, 0x010000000048, turned (by decide), by decide, by decide, by decide, by decide, by decide, rfl, ⟨by decide, ⟨0, by decide, by decide⟩, by decide, by decide, by decide, by decide, by decide, by decide, by decide⟩⟩⟩

theorem witness_HenAtomicRequests_3 :
    AmoRowMet 12
    ∧ (∃ (h : HenId) (w : BitVec 32) (s : State) (n : Mach) (pa : Nat) (z : Nat) (sa : Nat) (x : CacheLine) (q : _), HenTurn s.m h.agent w n ∧ HenAlu.op w = 0x18 ∧ HenAlu.fld w 0 4 = 0 ∧ HenAlu.fld w 6 5 = 0 ∧ HenAlu.fC w = 0 ∧ HenAlu.fld w 4 2 = z ∧ (z = 2 ∨ z = 3) ∧ pa = (n.g h.agent (HenAlu.fB w)).toNat ∧ AtomOk n h.agent pa (2 ^ z) sa ∧ n.rgnAllow h.agent pa 0 = some 0 ∧ n.sbGranule h.agent pa = false ∧ (n.hen h.agent).dcEn = true ∧ (n.hen h.agent).find (sa / 64) = some x ∧ x.bad = false ∧ x.poison = false ∧ x.st ≠ .s ∧ q = ((n.henHit h.agent (sa / 64) 0).setG h.agent (HenAlu.fA w) (lineValue x.data (pa % 64) (2 ^ z) true)).henNext h.agent)
    ∧ (∃ (h : HenId) (w : BitVec 32) (s : State) (n : Mach) (pa : Nat) (z : Nat) (sa : Nat), HenTurn s.m h.agent w n ∧ HenAlu.op w = 0x18 ∧ HenAlu.fld w 0 4 = 0 ∧ HenAlu.fld w 6 5 = 1 ∧ HenAlu.fld w 4 2 = z ∧ (z = 2 ∨ z = 3) ∧ pa = (n.g h.agent (HenAlu.fB w)).toNat ∧ pa % 2 ^ z = 0 ∧ (∃ ty, n.rgnAllow h.agent pa 1 = some ty ∧ ty ≠ 2) ∧ Mach.atomHere pa = true ∧ n.target pa = .home sa ∧ n.targetDead (.home sa) = false ∧ (n.hen h.agent).resv = none)
    ∧ (∃ (h : HenId) (w : BitVec 32) (s : State) (n : Mach) (q : Mach) (pa : Nat) (z : Nat) (sa : Nat) (x : CacheLine) (y : CacheLine), HenTurn s.m h.agent w n ∧ HenAlu.op w = 0x18 ∧ HenAlu.fld w 0 4 = 0 ∧ HenAlu.fld w 6 5 = 1 ∧ HenAlu.fld w 4 2 = z ∧ (z = 2 ∨ z = 3) ∧ pa = (n.g h.agent (HenAlu.fB w)).toNat ∧ pa % 2 ^ z = 0 ∧ n.rgnAllow h.agent pa 1 = some 0 ∧ Mach.atomHere pa = true ∧ n.target pa = .home sa ∧ n.resvOn h.agent (sa / 64) = true ∧ n.sbHas h.agent (sa / 64) = false ∧ (n.hen h.agent).dcEn = true ∧ (n.hen h.agent).find (sa / 64) = some x ∧ x.bad = false ∧ x.st ≠ .s ∧ y = { x with st := .m, data := mergeLine x.data (placeField ((n.g h.agent (HenAlu.fC w)).toNat % 2 ^ (8 * 2 ^ z)) (pa % 64)) (byteMask (pa % 64) (2 ^ z)) } ∧ q = ((((n.modHen h.agent fun u => { u with resv := none, hold := none }).henHit h.agent (sa / 64) 0).modHen h.agent fun u => u.update (sa / 64) (some y)).clearResv (some h.agent) (sa / 64)))
    ∧ (∃ (h : HenId) (w : BitVec 32) (s : State) (n : Mach) (pa : Nat) (z : Nat) (sa : Nat), HenTurn s.m h.agent w n ∧ HenAlu.op w = 0x18 ∧ HenAlu.fld w 0 4 = 0 ∧ HenAlu.fld w 6 5 = 16 ∧ HenAlu.fC w = 0 ∧ HenAlu.fld w 4 2 = z ∧ pa = (n.g h.agent (HenAlu.fB w)).toNat ∧ AtomOk n h.agent pa (2 ^ z) sa ∧ n.sbForward h.agent (n.lineOf pa) (byteMask (pa % 64) (2 ^ z)) = none) :=
  ⟨⟨hen0, BitVec.ofNat 32 (0x18 * 2 ^ 26 + 3 * 2 ^ 21 + 1 * 2 ^ 16 + 2 * 2 ^ 11 + 12 * 2 ^ 6 + 2 * 2 ^ 4), hs (BitVec.ofNat 32 (0x18 * 2 ^ 26 + 3 * 2 ^ 21 + 1 * 2 ^ 16 + 2 * 2 ^ 11 + 12 * 2 ^ 6 + 2 * 2 ^ 4)) (fun x => { x with rgnBase := [(2, some 0x80000000000000FC#64)], rgnLimit := [(2, some 0x000000FFFFFFF000#64)], g := [(1, 0x48#64), (2, 5#64)] }), _, _, 2, 0x010000000048, turned (by decide), by decide, by decide, by decide, by decide, by decide, rfl, ⟨by decide, ⟨0, by decide, by decide⟩, by decide, by decide, by decide, by decide, by decide, by decide, by decide⟩⟩,
   ⟨hen0, BitVec.ofNat 32 (0x18 * 2 ^ 26 + 3 * 2 ^ 21 + 1 * 2 ^ 16 + 2 * 2 ^ 4), hs (BitVec.ofNat 32 (0x18 * 2 ^ 26 + 3 * 2 ^ 21 + 1 * 2 ^ 16 + 2 * 2 ^ 4)) (fun x => { x with rgnBase := [(2, some 0x80000000000000FC#64)], rgnLimit := [(2, some 0x000000FFFFFFF000#64)], g := [(1, 0x48#64)], dc := [(1, { w0 := some ({ line := 0x400000001, st := .e, data := 0xF1F2F3F4F5F6F7F8_8182838485868788#512 } : CacheLine) })] }), _, _, 2, 0x010000000048, ({ line := 0x400000001, st := .e, data := 0xF1F2F3F4F5F6F7F8_8182838485868788#512 } : CacheLine), _, turned (by decide), by decide, by decide, by decide, by decide, by decide, by decide, rfl, ⟨by decide, ⟨0, by decide, by decide⟩, by decide, by decide, by decide, by decide, by decide, by decide, by decide⟩, by decide, by decide, by decide, by decide, by decide, by decide, by decide, rfl⟩,
   ⟨hen0, BitVec.ofNat 32 (0x18 * 2 ^ 26 + 3 * 2 ^ 21 + 1 * 2 ^ 16 + 2 * 2 ^ 11 + 1 * 2 ^ 6 + 2 * 2 ^ 4), hs (BitVec.ofNat 32 (0x18 * 2 ^ 26 + 3 * 2 ^ 21 + 1 * 2 ^ 16 + 2 * 2 ^ 11 + 1 * 2 ^ 6 + 2 * 2 ^ 4)) (fun x => { x with rgnBase := [(2, some 0x80000000000000FC#64)], rgnLimit := [(2, some 0x000000FFFFFFF000#64)], g := [(1, 0x48#64), (2, 5#64)] }), _, _, 2, 0x010000000048, turned (by decide), by decide, by decide, by decide, by decide, by decide, rfl, by decide, ⟨0, by decide, by decide⟩, by decide⟩,
   ⟨hen0, BitVec.ofNat 32 (0x18 * 2 ^ 26 + 3 * 2 ^ 21 + 1 * 2 ^ 16 + 2 * 2 ^ 4 + 2 ^ 6), hs (BitVec.ofNat 32 (0x18 * 2 ^ 26 + 3 * 2 ^ 21 + 1 * 2 ^ 16 + 2 * 2 ^ 4 + 2 ^ 6)) (fun x => { x with resv := some { lines := [0x400000001], cached := true }, rgnBase := [(2, some 0x80000000000000FC#64)], rgnLimit := [(2, some 0x000000FFFFFFF000#64)], g := [(1, 0x48#64)], dc := [(1, { w0 := some ({ line := 0x400000001, st := .e, data := 0xF1F2F3F4F5F6F7F8_8182838485868788#512 } : CacheLine) })] }), _, _, _, 2, 0x010000000048, ({ line := 0x400000001, st := .e, data := 0xF1F2F3F4F5F6F7F8_8182838485868788#512 } : CacheLine), _, turned (by decide), by decide, by decide, by decide, by decide, by decide, rfl, by decide, by decide, by decide, by decide, by decide, by decide, by decide, by decide, by decide, by decide, rfl, rfl⟩,
   ⟨hen0, BitVec.ofNat 32 (0x18 * 2 ^ 26 + 3 * 2 ^ 21 + 1 * 2 ^ 16 + 16 * 2 ^ 6 + 3 * 2 ^ 4), hs (BitVec.ofNat 32 (0x18 * 2 ^ 26 + 3 * 2 ^ 21 + 1 * 2 ^ 16 + 16 * 2 ^ 6 + 3 * 2 ^ 4)) (fun x => { x with rgnBase := [(2, some 0x80000000000000FC#64)], rgnLimit := [(2, some 0x000000FFFFFFF000#64)], g := [(1, 0x48#64), (2, 5#64)] }), _, _, 3, 0x010000000048, turned (by decide), by decide, by decide, by decide, by decide, by decide, rfl, ⟨by decide, ⟨0, by decide, by decide⟩, by decide, by decide, by decide, by decide, by decide, by decide, by decide⟩, by decide⟩⟩

def CmoRowMet (f : Nat) (firmware : Bool) : Prop :=
  (∃ (h : HenId) (w : BitVec 32) (s : State) (n : Mach) (pa : Nat) (sa : Nat) (x : CacheLine), HenTurn s.m h.agent w n ∧ HenAlu.op w = 0x3D ∧ HenAlu.func w = f ∧ HenAlu.fA w = 0 ∧ HenAlu.fC w = 0 ∧ (firmware = true → (n.hen h.agent).priv = true) ∧ (n.hen h.agent).state = .running ∧ pa = (n.g h.agent (HenAlu.fB w)).toNat ∧ n.rgnAllow h.agent pa 0 = some 0 ∧ n.target pa = .home sa ∧ n.sbHas h.agent (sa / 64) = false ∧ HeldGood n h.agent (sa / 64) x)

def CmoSwRowMet (f : Nat) : Prop :=
  (∃ (h : HenId) (w : BitVec 32) (s : State) (n : Mach) (v : Word) (x : CacheLine), HenTurn s.m h.agent w n ∧ HenAlu.op w = 0x3D ∧ HenAlu.func w = f ∧ HenAlu.fA w = 0 ∧ HenAlu.fC w = 0 ∧ (n.hen h.agent).priv = true ∧ (n.hen h.agent).state = .running ∧ v = n.g h.agent (HenAlu.fB w) ∧ ((v.getLsbD 10 = false ∧ (FMap.get {} (n.hen h.agent).dc (v.toNat % 256)).way (Fin.ofNat 4 (v.toNat / 256)) = some x) ∨ (v.getLsbD 10 = true ∧ (n.hen h.agent).vcEntry v.toNat = some x)) ∧ HeldGood n h.agent x.line x)

theorem witness_HenCacheMaintenanceEffects_1 :
    CmoRowMet 0 false
    ∧ CmoRowMet 1 false
    ∧ CmoRowMet 2 true
    ∧ CmoSwRowMet 4
    ∧ CmoSwRowMet 5 :=
  ⟨⟨hen0, word 0x3D 0 1 0 0, hs (word 0x3D 0 1 0 0) (fun x => { x with rgnBase := [(2, some 0x80000000000000FC#64)], rgnLimit := [(2, some 0x000000FFFFFFF000#64)], g := [(1, 0x47#64)], dc := [(1, { w2 := some ({ line := 0x400000001, st := .m, data := 0x8182838485868788#512, poison := true } : CacheLine) })] }), _, _, 0x010000000047, ({ line := 0x400000001, st := .m, data := 0x8182838485868788#512, poison := true } : CacheLine), turned (by decide), by decide, by decide, by decide, by decide, by decide, by decide, rfl, by decide, by decide, by decide, by unfold Claims.HeldGood; decide⟩,
   ⟨hen0, word 0x3D 0 1 0 1, hs (word 0x3D 0 1 0 1) (fun x => { x with rgnBase := [(2, some 0x80000000000000FC#64)], rgnLimit := [(2, some 0x000000FFFFFFF000#64)], g := [(1, 0x47#64)], dc := [(1, { w2 := some ({ line := 0x400000001, st := .m, data := 0x8182838485868788#512, poison := true } : CacheLine) })] }), _, _, 0x010000000047, ({ line := 0x400000001, st := .m, data := 0x8182838485868788#512, poison := true } : CacheLine), turned (by decide), by decide, by decide, by decide, by decide, by decide, by decide, rfl, by decide, by decide, by decide, by unfold Claims.HeldGood; decide⟩,
   ⟨hen0, word 0x3D 0 1 0 2, hs (word 0x3D 0 1 0 2) (fun x => { x with rgnBase := [(2, some 0x80000000000000FC#64)], rgnLimit := [(2, some 0x000000FFFFFFF000#64)], g := [(1, 0x47#64)], dc := [(1, { w2 := some ({ line := 0x400000001, st := .m, data := 0x8182838485868788#512, poison := true } : CacheLine) })] }), _, _, 0x010000000047, ({ line := 0x400000001, st := .m, data := 0x8182838485868788#512, poison := true } : CacheLine), turned (by decide), by decide, by decide, by decide, by decide, by decide, by decide, rfl, by decide, by decide, by decide, by unfold Claims.HeldGood; decide⟩,
   ⟨hen0, word 0x3D 0 1 0 4, hs (word 0x3D 0 1 0 4) (fun x => { x with g := [(1, 0x201#64)], dc := [(1, { w2 := some ({ line := 0x400000001, st := .m, data := 0x8182838485868788#512, poison := true } : CacheLine) })] }), _, _, ({ line := 0x400000001, st := .m, data := 0x8182838485868788#512, poison := true } : CacheLine), turned (by decide), by decide, by decide, by decide, by decide, by decide, by decide, rfl, .inl (by decide), by unfold Claims.HeldGood; decide⟩,
   ⟨hen0, word 0x3D 0 1 0 5, hs (word 0x3D 0 1 0 5) (fun x => { x with g := [(1, 0x201#64)], dc := [(1, { w2 := some ({ line := 0x400000001, st := .m, data := 0x8182838485868788#512, poison := true } : CacheLine) })] }), _, _, ({ line := 0x400000001, st := .m, data := 0x8182838485868788#512, poison := true } : CacheLine), turned (by decide), by decide, by decide, by decide, by decide, by decide, by decide, rfl, .inl (by decide), by unfold Claims.HeldGood; decide⟩⟩

theorem witness_HenCacheMaintenanceEffects_2 :
    CmoSwRowMet 6
    ∧ (∃ (h : HenId) (w : BitVec 32) (s : State) (n : Mach) (pa : Nat) (sa : Nat), HenTurn s.m h.agent w n ∧ HenAlu.op w = 0x3D ∧ HenAlu.func w = 3 ∧ HenAlu.fA w = 0 ∧ HenAlu.fC w = 0 ∧ pa = (n.g h.agent (HenAlu.fB w)).toNat ∧ n.rgnAllow h.agent pa 0 = some 0 ∧ n.target pa = .home sa ∧ (n.hen h.agent).dcEn = true ∧ n.targetDead (.home sa) = false ∧ (n.hen h.agent).find (sa / 64) = none ∧ n.henAsked h.agent (sa / 64) = false)
    ∧ (∃ (h : HenId) (w : BitVec 32) (s : State) (n : Mach) (pa : Nat) (sa : Nat) (x : CacheLine) (i : Fin 4), HenTurn s.m h.agent w n ∧ HenAlu.op w = 0x3D ∧ HenAlu.func w = 3 ∧ HenAlu.fA w = 0 ∧ HenAlu.fC w = 0 ∧ pa = (n.g h.agent (HenAlu.fB w)).toNat ∧ n.rgnAllow h.agent pa 0 = some 0 ∧ n.target pa = .home sa ∧ (n.hen h.agent).dcEn = true ∧ HeldGood n h.agent (sa / 64) x ∧ ((n.hen h.agent).set (sa / 64)).find (sa / 64) = some i)
    ∧ (∃ (h : HenId) (w : BitVec 32) (s : State) (n : Mach) (pa : Nat) (sa : Nat) (x : CacheLine), HenTurn s.m h.agent w n ∧ HenAlu.op w = 0x3D ∧ HenAlu.func w = 3 ∧ HenAlu.fA w = 0 ∧ HenAlu.fC w = 0 ∧ pa = (n.g h.agent (HenAlu.fB w)).toNat ∧ n.rgnAllow h.agent pa 0 = some 0 ∧ n.target pa = .home sa ∧ (n.hen h.agent).dcEn = true ∧ HeldGood n h.agent (sa / 64) x)
    ∧ (∃ (h : HenId) (w : BitVec 32) (s : State) (n : Mach), HenTurn s.m h.agent w n ∧ HenAlu.op w = 0x3D ∧ HenAlu.func w = 8 ∧ HenAlu.fA w = 0 ∧ HenAlu.fB w = 0 ∧ HenAlu.fC w = 0 ∧ (n.hen h.agent).priv = true ∧ (n.hen h.agent).sb = []) :=
  ⟨⟨hen0, word 0x3D 0 1 0 6, hs (word 0x3D 0 1 0 6) (fun x => { x with g := [(1, 0x201#64)], dc := [(1, { w2 := some ({ line := 0x400000001, st := .m, data := 0x8182838485868788#512, poison := true } : CacheLine) })] }), _, _, ({ line := 0x400000001, st := .m, data := 0x8182838485868788#512, poison := true } : CacheLine), turned (by decide), by decide, by decide, by decide, by decide, by decide, by decide, rfl, .inl (by decide), by unfold Claims.HeldGood; decide⟩,
   ⟨hen0, word 0x3D 0 1 0 3, hs (word 0x3D 0 1 0 3) (fun x => { x with rgnBase := [(2, some 0x80000000000000FC#64)], rgnLimit := [(2, some 0x000000FFFFFFF000#64)], g := [(1, 0x47#64)] }), _, _, 0x010000000047, turned (by decide), by decide, by decide, by decide, by decide, rfl, by decide⟩,
   ⟨hen0, word 0x3D 0 1 0 3, hs (word 0x3D 0 1 0 3) (fun x => { x with rgnBase := [(2, some 0x80000000000000FC#64)], rgnLimit := [(2, some 0x000000FFFFFFF000#64)], g := [(1, 0x47#64)], dc := [(1, { w2 := some ({ line := 0x400000001, st := .m, data := 0x8182838485868788#512, poison := true } : CacheLine) })] }), _, _, 0x010000000047, ({ line := 0x400000001, st := .m, data := 0x8182838485868788#512, poison := true } : CacheLine), 2, turned (by decide), by decide, by decide, by decide, by decide, rfl, by decide, by decide, by decide, by unfold Claims.HeldGood; decide, by decide⟩,
   ⟨hen0, word 0x3D 0 1 0 3, hs (word 0x3D 0 1 0 3) (fun x => { x with rgnBase := [(2, some 0x80000000000000FC#64)], rgnLimit := [(2, some 0x000000FFFFFFF000#64)], g := [(1, 0x47#64)], vc := [(3, ({ line := 0x400000001, st := .m, data := 0x8182838485868788#512, poison := true } : CacheLine))] }), _, _, 0x010000000047, ({ line := 0x400000001, st := .m, data := 0x8182838485868788#512, poison := true } : CacheLine), turned (by decide), by decide, by decide, by decide, by decide, rfl, by decide, by decide, by decide, by unfold Claims.HeldGood; decide⟩,
   ⟨hen0, word 0x3D 0 0 0 8, hs (word 0x3D 0 0 0 8), _, turned (by decide), by decide⟩⟩

theorem witness_HenPushAndSyncEffects_1 :
    (∃ (h : HenId) (w : BitVec 32) (s : State) (n : Mach) (x : Word) (a : Nat) (q : Nat), HenTurn s.m h.agent w n ∧ HenAlu.op w = 0x3C ∧ HenAlu.func w = 0 ∧ x = n.g h.agent (HenAlu.fB w) ∧ a = x.toNat % 8192 ∧ q = x.toNat / 8192 % 4 ∧ isMule a = true ∧ (n.mule a).state = .running ∧ n.muleOn a = true ∧ ¬ (q = 3 ∧ n.collieQueue a = true) ∧ ((n.mule a).descs.filter fun d => d.queue == q).length < 64)
    ∧ (∃ (h : HenId) (w : BitVec 32) (s : State) (n : Mach) (x : Word) (a : Nat), HenTurn s.m h.agent w n ∧ HenAlu.op w = 0x3C ∧ HenAlu.func w = 0 ∧ x = n.g h.agent (HenAlu.fB w) ∧ a = x.toNat % 8192 ∧ isMule a = true ∧ (n.mule a).state ≠ .running)
    ∧ (∃ (h : HenId) (w : BitVec 32) (s : State) (n : Mach) (x : Word) (fb : Nat) (i : PoolItem), HenTurn s.m h.agent w n ∧ HenAlu.op w = 0x3C ∧ HenAlu.func w = 1 ∧ x = n.g h.agent (HenAlu.fB w) ∧ isCollie (x.toNat % 8192) = true ∧ fb = flockOf (x.toNat % 8192) ∧ n.flockEnabled fb = true ∧ (n.collie fb).state = .running ∧ n.flockOn fb = true ∧ (n.die (agentDie fb - 1)).dead = false ∧ (n.collie fb).pool.length < 1024 ∧ (x.getLsbD 15 = true → x.toNat / 8192 % 4 = 0 ∧ ((n.collie fb).pool.filter fun j => j.queue == 4).length < 64) ∧ n.badItem (n.v h.agent (HenAlu.fC w)) = false ∧ (i = { id := (n.collie fb).nextId, w := n.v h.agent (HenAlu.fC w), queue := if x.getLsbD 15 then 4 else x.toNat / 8192 % 4 }))
    ∧ (∃ (h : HenId) (w : BitVec 32) (s : State) (n : Mach) (x : Word), HenTurn s.m h.agent w n ∧ HenAlu.op w = 0x3C ∧ HenAlu.func w = 1 ∧ x = n.g h.agent (HenAlu.fB w) ∧ x.getLsbD 15 = true ∧ x.toNat / 8192 % 4 ≠ 0)
    ∧ (∃ (h : HenId) (w : BitVec 32) (s : State) (n : Mach) (x : Word) (fb : Nat), HenTurn s.m h.agent w n ∧ HenAlu.op w = 0x3C ∧ HenAlu.func w = 1 ∧ x = n.g h.agent (HenAlu.fB w) ∧ x.getLsbD 15 = false ∧ isCollie (x.toNat % 8192) = true ∧ fb = flockOf (x.toNat % 8192) ∧ n.flockEnabled fb = true ∧ ((n.collie fb).state ≠ .running ∨ n.flockOn fb = false ∨ (n.die (agentDie fb - 1)).dead = true)) :=
  ⟨⟨hen0, word 0x3C 3 1 2 0, hs (word 0x3C 3 1 2 0) (fun x => { x with g := [(1, 1044 + 8192)], v := [(2, 7#512)] }), _, _, 1044, 1, turned (by decide), by decide, by decide, rfl, by decide⟩,
   ⟨hen0, word 0x3C 3 1 2 0, hs (word 0x3C 3 1 2 0) (fun x => { x with g := [(1, 1044 + 8192)], v := [(2, 7#512)] }) (up.modMule 1044 fun y => { y with state := .quiesced }), _, _, 1044, turned (by decide), by decide, by decide, rfl, by decide⟩,
   ⟨hen0, word 0x3C 3 1 2 1, hs (word 0x3C 3 1 2 1) (fun x => { x with g := [(1, 1046 + 8192 * 3)], v := [(2, 0#512)] }) (up.modCollie 1024 fun y => { y with state := .running }), _, _, 1024, _, turned (by decide), by decide, by decide, rfl, by decide, by decide, by decide, by decide, by decide, by decide, by decide, by decide, by decide, rfl⟩,
   ⟨hen0, word 0x3C 3 1 2 1, hs (word 0x3C 3 1 2 1) (fun x => { x with g := [(1, 1046 + 8192 * 5)], v := [(2, 0#512)] }) (up.modCollie 1024 fun y => { y with state := .running }), _, _, turned (by decide), by decide, by decide, rfl, by decide⟩,
   ⟨hen0, word 0x3C 3 1 2 1, hs (word 0x3C 3 1 2 1) (fun x => { x with g := [(1, 1046 + 8192 * 3)], v := [(2, 0#512)] }) (up.modCollie 1024 fun y => { y with state := .quiesced }), _, _, 1024, turned (by decide), by decide, by decide, rfl, by decide⟩⟩

theorem witness_HenPushAndSyncEffects_2 :
    (∃ (h : HenId) (w : BitVec 32) (s : State) (n : Mach) (d : Nat) (i : Nat) (scope : Nat), HenTurn s.m h.agent w n ∧ HenAlu.op w = 0x3C ∧ HenAlu.fld w 0 9 = 2 ∧ scope = HenAlu.fld w 9 2 ∧ NamesHere n (n.g h.agent (HenAlu.fB w)) d i ∧ Released n h.agent scope)
    ∧ (∃ (h : HenId) (w : BitVec 32) (s : State) (n : Mach) (d : Nat) (i : Nat) (t : BitVec 24), HenTurn s.m h.agent w n ∧ HenAlu.op w = 0x3C ∧ HenAlu.fld w 0 9 = 3 ∧ NamesHere n (n.g h.agent (HenAlu.fB w)) d i ∧ t = (n.g h.agent (HenAlu.fC w)).setWidth 24)
    ∧ (∃ (h : HenId) (w : BitVec 32) (s : State) (n : Mach) (d : Nat) (i : Nat), HenTurn s.m h.agent w n ∧ HenAlu.op w = 0x3C ∧ HenAlu.func w = 4 ∧ HenAlu.fC w = 0 ∧ NamesHere n (n.g h.agent (HenAlu.fB w)) d i)
    ∧ (∃ (h : HenId) (w : BitVec 32) (s : State) (n : Mach) (d : Nat) (i : Nat) (t : BitVec 24), HenTurn s.m h.agent w n ∧ HenAlu.op w = 0x3C ∧ HenAlu.fld w 0 9 = 3 ∧ NamesHere n (n.g h.agent (HenAlu.fB w)) d i ∧ t = (n.g h.agent (HenAlu.fC w)).setWidth 24 ∧ (n.sync d).waits = [] ∧ ((n.syncObj d i).count - t).toNat < 2 ^ 23 ∧ HenAlu.fA w ≠ 0) :=
  ⟨⟨hen0, word 0x3C 3 1 2 (2 + 2 * 512), hs (word 0x3C 3 1 2 (2 + 2 * 512)) (fun x => { x with g := [(1, 0xFF8000 + 0x2005), (2, 0x123456789#64)] }), _, 1, 5, _, turned (by decide), by decide, by decide, rfl, by unfold Claims.NamesHere; decide, by unfold Claims.Released; decide⟩,
   ⟨hen0, word 0x3C 3 1 2 3, hs (word 0x3C 3 1 2 3) (fun x => { x with g := [(1, 0xFF8000 + 0x4FFF), (2, 0x9#64)] }), _, 3, 0xFFF, _, turned (by decide), by decide, by decide, by unfold Claims.NamesHere; decide, rfl⟩,
   ⟨hen0, word 0x3C 3 1 0 4, hs (word 0x3C 3 1 0 4) (fun x => { x with g := [(1, 0xFF8000 + 0x1000)] }), _, 0, 0, turned (by decide), by decide, by decide, by decide, by unfold Claims.NamesHere; decide⟩,
   ⟨hen0, word 0x3C 3 1 2 3, hs (word 0x3C 3 1 2 3) (fun x => { x with g := [(1, 0xFF8000 + 0x1000), (2, 0xFFFFFE#64)] }), _, 0, 0, _, turned (by decide), by decide, by decide, by unfold Claims.NamesHere; decide, rfl, by decide⟩⟩

def CrrRowMet (c : Nat) : Prop :=
  (∃ (h : HenId) (w : BitVec 32) (s : State) (n : Mach), CrTurn s h w n 0 c)

def CrwRowMet (c : Nat) (drains : Bool) : Prop :=
  (∃ (h : HenId) (w : BitVec 32) (s : State) (n : Mach), CrTurn s h w n 1 c ∧ (n.hen h.agent).state = .running ∧ (drains = true → (n.hen h.agent).sb = []))

theorem witness_HenControlRegisterAccess_1 :
    CrrRowMet 0
    ∧ CrrRowMet 1
    ∧ CrrRowMet 2
    ∧ CrrRowMet 3
    ∧ CrrRowMet 4 :=
  ⟨⟨hen0, crWord 0 0 3 0, hs (crWord 0 0 3 0) (fun x => { x with g := [(1, 0xFFFFFFFF80000007#64)], epc := 0x1234#56, etval := 0x55#64, arg0 := 0x66#64 }), _, ⟨turned (by decide), by decide, by decide, by decide, by decide, by decide, by decide, by decide⟩⟩,
   ⟨hen0, crWord 0 1 3 0, hs (crWord 0 1 3 0) (fun x => { x with g := [(1, 0xFFFFFFFF80000007#64)], epc := 0x1234#56, etval := 0x55#64, arg0 := 0x66#64 }), _, ⟨turned (by decide), by decide, by decide, by decide, by decide, by decide, by decide, by decide⟩⟩,
   ⟨hen0, crWord 0 2 3 0, hs (crWord 0 2 3 0) (fun x => { x with g := [(1, 0xFFFFFFFF80000007#64)], epc := 0x1234#56, etval := 0x55#64, arg0 := 0x66#64 }), _, ⟨turned (by decide), by decide, by decide, by decide, by decide, by decide, by decide, by decide⟩⟩,
   ⟨hen0, crWord 0 3 3 0, hs (crWord 0 3 3 0) (fun x => { x with g := [(1, 0xFFFFFFFF80000007#64)], epc := 0x1234#56, etval := 0x55#64, arg0 := 0x66#64 }), _, ⟨turned (by decide), by decide, by decide, by decide, by decide, by decide, by decide, by decide⟩⟩,
   ⟨hen0, crWord 0 4 3 0, hs (crWord 0 4 3 0) (fun x => { x with g := [(1, 0xFFFFFFFF80000007#64)], epc := 0x1234#56, etval := 0x55#64, arg0 := 0x66#64 }), _, ⟨turned (by decide), by decide, by decide, by decide, by decide, by decide, by decide, by decide⟩⟩⟩

theorem witness_HenControlRegisterAccess_2 :
    CrrRowMet 6
    ∧ CrrRowMet 8
    ∧ CrrRowMet 5
    ∧ CrrRowMet 9
    ∧ CrrRowMet 10 :=
  ⟨⟨hen0, crWord 0 6 3 0, hs (crWord 0 6 3 0) (fun x => { x with g := [(1, 0xFFFFFFFF80000007#64)], epc := 0x1234#56, etval := 0x55#64, arg0 := 0x66#64 }), _, ⟨turned (by decide), by decide, by decide, by decide, by decide, by decide, by decide, by decide⟩⟩,
   ⟨hen0, crWord 0 8 3 0, hs (crWord 0 8 3 0) (fun x => { x with g := [(1, 0xFFFFFFFF80000007#64)], epc := 0x1234#56, etval := 0x55#64, arg0 := 0x66#64 }), _, ⟨turned (by decide), by decide, by decide, by decide, by decide, by decide, by decide, by decide⟩⟩,
   ⟨hen0, crWord 0 5 3 0, hs (crWord 0 5 3 0) (fun x => { x with g := [(1, 0xFFFFFFFF80000007#64)], epc := 0x1234#56, etval := 0x55#64, arg0 := 0x66#64 }), _, ⟨turned (by decide), by decide, by decide, by decide, by decide, by decide, by decide, by decide⟩⟩,
   ⟨hen0, crWord 0 9 3 0, hs (crWord 0 9 3 0) (fun x => { x with g := [(1, 0xFFFFFFFF80000007#64)], epc := 0x1234#56, etval := 0x55#64, arg0 := 0x66#64 }), _, ⟨turned (by decide), by decide, by decide, by decide, by decide, by decide, by decide, by decide⟩⟩,
   ⟨hen0, crWord 0 10 3 0, hs (crWord 0 10 3 0) (fun x => { x with g := [(1, 0xFFFFFFFF80000007#64)], epc := 0x1234#56, etval := 0x55#64, arg0 := 0x66#64 }), _, ⟨turned (by decide), by decide, by decide, by decide, by decide, by decide, by decide, by decide⟩⟩⟩

theorem witness_HenControlRegisterAccess_3 :
    CrrRowMet 12
    ∧ CrrRowMet 16
    ∧ CrrRowMet 17
    ∧ CrrRowMet 18
    ∧ CrrRowMet 19 :=
  ⟨⟨hen0, crWord 0 12 3 0, hs (crWord 0 12 3 0) (fun x => { x with g := [(1, 0xFFFFFFFF80000007#64)], epc := 0x1234#56, etval := 0x55#64, arg0 := 0x66#64 }), _, ⟨turned (by decide), by decide, by decide, by decide, by decide, by decide, by decide, by decide⟩⟩,
   ⟨hen0, crWord 0 16 3 0, hs (crWord 0 16 3 0) (fun x => { x with g := [(1, 0xFFFFFFFF80000007#64)], epc := 0x1234#56, etval := 0x55#64, arg0 := 0x66#64 }), _, ⟨turned (by decide), by decide, by decide, by decide, by decide, by decide, by decide, by decide⟩⟩,
   ⟨hen0, crWord 0 17 3 0, hs (crWord 0 17 3 0) (fun x => { x with g := [(1, 0xFFFFFFFF80000007#64)], epc := 0x1234#56, etval := 0x55#64, arg0 := 0x66#64 }), _, ⟨turned (by decide), by decide, by decide, by decide, by decide, by decide, by decide, by decide⟩⟩,
   ⟨hen0, crWord 0 18 3 0, hs (crWord 0 18 3 0) (fun x => { x with g := [(1, 0xFFFFFFFF80000007#64)], epc := 0x1234#56, etval := 0x55#64, arg0 := 0x66#64 }), _, ⟨turned (by decide), by decide, by decide, by decide, by decide, by decide, by decide, by decide⟩⟩,
   ⟨hen0, crWord 0 19 3 0, hs (crWord 0 19 3 0) (fun x => { x with g := [(1, 0xFFFFFFFF80000007#64)], epc := 0x1234#56, etval := 0x55#64, arg0 := 0x66#64 }), _, ⟨turned (by decide), by decide, by decide, by decide, by decide, by decide, by decide, by decide⟩⟩⟩

theorem witness_HenControlRegisterAccess_4 :
    CrwRowMet 0 false
    ∧ CrwRowMet 1 false
    ∧ CrwRowMet 2 false
    ∧ CrwRowMet 3 false
    ∧ CrwRowMet 4 false :=
  ⟨⟨hen0, crWord 1 0 0 1, hs (crWord 1 0 0 1) (fun x => { x with g := [(1, 0xFFFFFFFF80000007#64)], epc := 0x1234#56, etval := 0x55#64, arg0 := 0x66#64 }), _, ⟨turned (by decide), by decide, by decide, by decide, by decide, by decide, by decide, by decide⟩, by decide⟩,
   ⟨hen0, crWord 1 1 0 1, hs (crWord 1 1 0 1) (fun x => { x with g := [(1, 0xFFFFFFFF80000007#64)], epc := 0x1234#56, etval := 0x55#64, arg0 := 0x66#64 }), _, ⟨turned (by decide), by decide, by decide, by decide, by decide, by decide, by decide, by decide⟩, by decide⟩,
   ⟨hen0, crWord 1 2 0 1, hs (crWord 1 2 0 1) (fun x => { x with g := [(1, 0xFFFFFFFF80000007#64)], epc := 0x1234#56, etval := 0x55#64, arg0 := 0x66#64 }), _, ⟨turned (by decide), by decide, by decide, by decide, by decide, by decide, by decide, by decide⟩, by decide⟩,
   ⟨hen0, crWord 1 3 0 1, hs (crWord 1 3 0 1) (fun x => { x with g := [(1, 0xFFFFFFFF80000007#64)], epc := 0x1234#56, etval := 0x55#64, arg0 := 0x66#64 }), _, ⟨turned (by decide), by decide, by decide, by decide, by decide, by decide, by decide, by decide⟩, by decide⟩,
   ⟨hen0, crWord 1 4 0 1, hs (crWord 1 4 0 1) (fun x => { x with g := [(1, 0xFFFFFFFF80000007#64)], epc := 0x1234#56, etval := 0x55#64, arg0 := 0x66#64 }), _, ⟨turned (by decide), by decide, by decide, by decide, by decide, by decide, by decide, by decide⟩, by decide⟩⟩

theorem witness_HenControlRegisterAccess_5 :
    CrwRowMet 5 false
    ∧ CrwRowMet 6 false
    ∧ CrwRowMet 8 false
    ∧ CrwRowMet 9 false
    ∧ CrwRowMet 12 false :=
  ⟨⟨hen0, crWord 1 5 0 1, hs (crWord 1 5 0 1) (fun x => { x with g := [(1, 0xFFFFFFFF80000007#64)], epc := 0x1234#56, etval := 0x55#64, arg0 := 0x66#64 }), _, ⟨turned (by decide), by decide, by decide, by decide, by decide, by decide, by decide, by decide⟩, by decide⟩,
   ⟨hen0, crWord 1 6 0 1, hs (crWord 1 6 0 1) (fun x => { x with g := [(1, 0xFFFFFFFF80000007#64)], epc := 0x1234#56, etval := 0x55#64, arg0 := 0x66#64 }), _, ⟨turned (by decide), by decide, by decide, by decide, by decide, by decide, by decide, by decide⟩, by decide⟩,
   ⟨hen0, crWord 1 8 0 1, hs (crWord 1 8 0 1) (fun x => { x with g := [(1, 0xFFFFFFFF80000007#64)], epc := 0x1234#56, etval := 0x55#64, arg0 := 0x66#64 }), _, ⟨turned (by decide), by decide, by decide, by decide, by decide, by decide, by decide, by decide⟩, by decide⟩,
   ⟨hen0, crWord 1 9 0 1, hs (crWord 1 9 0 1) (fun x => { x with g := [(1, 0xFFFFFFFF80000007#64)], epc := 0x1234#56, etval := 0x55#64, arg0 := 0x66#64 }), _, ⟨turned (by decide), by decide, by decide, by decide, by decide, by decide, by decide, by decide⟩, by decide⟩,
   ⟨hen0, crWord 1 12 0 1, hs (crWord 1 12 0 1) (fun x => { x with g := [(1, 0xFFFFFFFF80000007#64)], epc := 0x1234#56, etval := 0x55#64, arg0 := 0x66#64 }), _, ⟨turned (by decide), by decide, by decide, by decide, by decide, by decide, by decide, by decide⟩, by decide⟩⟩

theorem witness_HenControlRegisterAccess_6 :
    CrwRowMet 10 false
    ∧ CrwRowMet 16 false
    ∧ CrwRowMet 17 false
    ∧ CrwRowMet 18 false
    ∧ CrwRowMet 19 false :=
  ⟨⟨hen0, crWord 1 10 0 1, hs (crWord 1 10 0 1) (fun x => { x with g := [(1, 0xFFFFFFFF80000007#64)], epc := 0x1234#56, etval := 0x55#64, arg0 := 0x66#64 }), _, ⟨turned (by decide), by decide, by decide, by decide, by decide, by decide, by decide, by decide⟩, by decide⟩,
   ⟨hen0, crWord 1 16 0 1, hs (crWord 1 16 0 1) (fun x => { x with g := [(1, 0xFFFFFFFF80000007#64)], epc := 0x1234#56, etval := 0x55#64, arg0 := 0x66#64 }), _, ⟨turned (by decide), by decide, by decide, by decide, by decide, by decide, by decide, by decide⟩, by decide⟩,
   ⟨hen0, crWord 1 17 0 1, hs (crWord 1 17 0 1) (fun x => { x with g := [(1, 0xFFFFFFFF80000007#64)], epc := 0x1234#56, etval := 0x55#64, arg0 := 0x66#64 }), _, ⟨turned (by decide), by decide, by decide, by decide, by decide, by decide, by decide, by decide⟩, by decide⟩,
   ⟨hen0, crWord 1 18 0 1, hs (crWord 1 18 0 1) (fun x => { x with g := [(1, 0xFFFFFFFF80000007#64)], epc := 0x1234#56, etval := 0x55#64, arg0 := 0x66#64 }), _, ⟨turned (by decide), by decide, by decide, by decide, by decide, by decide, by decide, by decide⟩, by decide⟩,
   ⟨hen0, crWord 1 19 0 1, hs (crWord 1 19 0 1) (fun x => { x with g := [(1, 0xFFFFFFFF80000007#64)], epc := 0x1234#56, etval := 0x55#64, arg0 := 0x66#64 }), _, ⟨turned (by decide), by decide, by decide, by decide, by decide, by decide, by decide, by decide⟩, by decide⟩⟩

theorem witness_HenControlRegisterAccess_7 :
    CrwRowMet 25 false
    ∧ CrwRowMet 26 false
    ∧ CrwRowMet 28 false
    ∧ CrwRowMet 31 false
    ∧ CrwRowMet 64 true :=
  ⟨⟨hen0, crWord 1 25 0 1, hs (crWord 1 25 0 1) (fun x => { x with g := [(1, 0xFFFFFFFF80000007#64)], epc := 0x1234#56, etval := 0x55#64, arg0 := 0x66#64 }), _, ⟨turned (by decide), by decide, by decide, by decide, by decide, by decide, by decide, by decide⟩, by decide⟩,
   ⟨hen0, crWord 1 26 0 1, hs (crWord 1 26 0 1) (fun x => { x with g := [(1, 0xFFFFFFFF80000007#64)], epc := 0x1234#56, etval := 0x55#64, arg0 := 0x66#64 }), _, ⟨turned (by decide), by decide, by decide, by decide, by decide, by decide, by decide, by decide⟩, by decide⟩,
   ⟨hen0, crWord 1 28 0 1, hs (crWord 1 28 0 1) (fun x => { x with g := [(1, 0xFFFFFFFF80000007#64)], epc := 0x1234#56, etval := 0x55#64, arg0 := 0x66#64 }), _, ⟨turned (by decide), by decide, by decide, by decide, by decide, by decide, by decide, by decide⟩, by decide⟩,
   ⟨hen0, crWord 1 31 0 1, hs (crWord 1 31 0 1) (fun x => { x with g := [(1, 0xFFFFFFFF80000007#64)], epc := 0x1234#56, etval := 0x55#64, arg0 := 0x66#64 }), _, ⟨turned (by decide), by decide, by decide, by decide, by decide, by decide, by decide, by decide⟩, by decide⟩,
   ⟨hen0, crWord 1 64 0 1, hs (crWord 1 64 0 1) (fun x => { x with g := [(1, 0xFFFFFFFF80000007#64)], epc := 0x1234#56, etval := 0x55#64, arg0 := 0x66#64 }), _, ⟨turned (by decide), by decide, by decide, by decide, by decide, by decide, by decide, by decide⟩, by decide⟩⟩

theorem witness_HenControlRegisterAccess_8 :
    CrwRowMet 95 true
    ∧ (∃ (h : HenId) (w : BitVec 32) (s : State) (n : Mach), CrTurn s h w n 2 16 ∧ (n.hen h.agent).state = .running)
    ∧ (∃ (h : HenId) (w : BitVec 32) (s : State) (n : Mach), CrTurn s h w n 3 16 ∧ (n.hen h.agent).state = .running) :=
  ⟨⟨hen0, crWord 1 95 0 1, hs (crWord 1 95 0 1) (fun x => { x with g := [(1, 0xFFFFFFFF80000007#64)], epc := 0x1234#56, etval := 0x55#64, arg0 := 0x66#64 }), _, ⟨turned (by decide), by decide, by decide, by decide, by decide, by decide, by decide, by decide⟩, by decide⟩,
   ⟨hen0, crWord 2 16 3 1, hs (crWord 2 16 3 1) (fun x => { x with g := [(1, 0xFFFFFFFF80000007#64)], epc := 0x1234#56, etval := 0x55#64, arg0 := 0x66#64 }), _, ⟨turned (by decide), by decide, by decide, by decide, by decide, by decide, by decide, by decide⟩, by decide⟩,
   ⟨hen0, crWord 3 16 3 1, hs (crWord 3 16 3 1) (fun x => { x with g := [(1, 0xFFFFFFFF80000007#64)], epc := 0x1234#56, etval := 0x55#64, arg0 := 0x66#64 }), _, ⟨turned (by decide), by decide, by decide, by decide, by decide, by decide, by decide, by decide⟩, by decide⟩⟩

theorem witness_HenSystemInstructionEffects_1 :
    (∃ (h : HenId) (w : BitVec 32) (s : State) (n : Mach), HenTurn s.m h.agent w n ∧ w = 0xFC000000 ∧ (n.hen h.agent).sb = [] ∧ (n.hen h.agent).unlanded = [] ∧ (n.hen h.agent).crossing = [])
    ∧ (∃ (h : HenId) (w : BitVec 32) (s : State) (n : Mach), HenTurn s.m h.agent w n ∧ w = 0xFC000000 ∧ (n.hen h.agent).sb = [] ∧ ((n.hen h.agent).unlanded ≠ [] ∨ (n.hen h.agent).crossing ≠ []))
    ∧ (∃ (h : HenId) (w : BitVec 32) (s : State) (n : Mach), HenTurn s.m h.agent w n ∧ HenAlu.op w = 0x3F ∧ HenAlu.fld w 20 6 = 1)
    ∧ (∃ (h : HenId) (w : BitVec 32) (s : State) (n : Mach), HenTurn s.m h.agent w n ∧ w = 0xFC200000)
    ∧ (∃ (h : HenId) (w : BitVec 32) (s : State) (n : Mach), HenTurn s.m h.agent w n ∧ w = 0xFC300000 ∧ (n.hen h.agent).priv = true) :=
  ⟨⟨hen0, 0xFC000000, hs (0xFC000000) (fun x => { x with resv := some { lines := [1], cached := false } }), _, turned (by decide), by decide⟩,
   ⟨hen0, 0xFC000000, hs (0xFC000000) (fun x => { x with unlanded := [2] }), _, turned (by decide), by decide⟩,
   ⟨hen0, 0xFC1ABCDE, hs (0xFC1ABCDE), _, turned (by decide), by decide⟩,
   ⟨hen0, 0xFC200000, hs (0xFC200000), _, turned (by decide), by decide⟩,
   ⟨hen0, 0xFC300000, hs (0xFC300000) (fun x => { x with estPriv := false, epc := 0x100 }), _, turned (by decide), by decide⟩⟩

theorem witness_HenSystemInstructionEffects_2 :
    (∃ (h : HenId) (w : BitVec 32) (s : State) (n : Mach), HenTurn s.m h.agent w n ∧ w = 0xFC300000 ∧ (n.hen h.agent).priv = false)
    ∧ (∃ (h : HenId) (w : BitVec 32) (s : State) (n : Mach), HenTurn s.m h.agent w n ∧ w = 0xFC400000 ∧ ((n.hen h.agent).ie = 0 ∨ n.henPending h.agent &&& (n.hen h.agent).ie ≠ 0))
    ∧ (∃ (h : HenId) (w : BitVec 32) (s : State) (n : Mach), HenTurn s.m h.agent w n ∧ w = 0xFC400000 ∧ (n.hen h.agent).ie ≠ 0 ∧ n.henPending h.agent &&& (n.hen h.agent).ie = 0) :=
  ⟨⟨hen0, 0xFC300000, hs (0xFC300000) (fun x => { x with priv := false, rgnBase := [(0, some 0x80000200400000FC#64)] }), _, turned (by decide), by decide⟩,
   ⟨hen0, 0xFC400000, hs (0xFC400000) (fun x => { x with ie := 4, ipMgmt := true }), _, turned (by decide), by decide⟩,
   ⟨hen0, 0xFC400000, hs (0xFC400000) (fun x => { x with ie := 3, ipMgmt := true }), _, turned (by decide), by decide⟩⟩

theorem witness_HenExceptionsAndEvents_1 :
    (∃ (h : HenId) (w : BitVec 32) (s : State) (n : Mach), HenTurn s.m h.agent w n ∧ henAssigned (henKey w) = false)
    ∧ (∃ (h : HenId) (w : BitVec 32) (s : State) (n : Mach), HenTurn s.m h.agent w n ∧ henAssigned (henKey w) = false)
    ∧ (∃ (m : Mach) (a : Nat), ((m.hen a).priv = false ∨ (m.hen a).excEn = true) ∧ m.henUp a = true ∧ (m.hen a).sb = [])
    ∧ (∃ (m : Mach) (a : Nat), (m.hen a).priv = true ∧ (m.hen a).excEn = false)
    ∧ (∃ (m : Mach) (a : Nat), (m.hen a).sb = []) :=
  ⟨⟨hen0, 0x00000000, hs (0x00000000), _, turned (by decide), by decide⟩,
   ⟨hen0, word 0x3D 0 0 0 7, hs (word 0x3D 0 0 0 7), _, turned (by decide), by decide⟩,
   ⟨hm 0 (fun x => { x with excEn := true, vbase := 0x800 }) up, hen0.agent, by decide⟩,
   ⟨hm 0 id up, hen0.agent, by decide⟩,
   ⟨hm 0 id up, hen0.agent, by decide⟩⟩

theorem witness_HenExceptionsAndEvents_2 :
    (∃ (m : Mach) (a : Nat), (m.hen a).sb = [])
    ∧ (∃ (m : Mach) (a : Nat), (m.hen a).sb = [])
    ∧ (∃ (h : HenId) (i : Nat) (s : State) (e : SbEntry) (fb : Nat) (fpa : Nat), (s.m.hen h.agent).sb[i]? = some e ∧ s.m.boot.inReset = false ∧ (s.m.hen h.agent).sb.find? (fun x => x.line == e.line) = some e ∧ s.m.target (64 * e.line) = .flock fb fpa ∧ s.m.targetDead (.flock fb fpa) = false ∧ agentDie fb = agentDie h.agent ∧ s.m.targetHeld (.flock fb fpa) = false)
    ∧ (∃ (h : HenId) (i : Nat) (s : State) (e : SbEntry) (fb : Nat) (fpa : Nat), (s.m.hen h.agent).sb[i]? = some e ∧ s.m.boot.inReset = false ∧ (s.m.hen h.agent).sb.find? (fun x => x.line == e.line) = some e ∧ s.m.target (64 * e.line) = .flock fb fpa ∧ s.m.targetDead (.flock fb fpa) = false ∧ agentDie fb ≠ agentDie h.agent)
    ∧ (∃ (h : HenId) (i : Nat) (s : State) (x : Crossing) (fb : Nat) (fpa : Nat), (s.m.hen h.agent).crossing[i]? = some x ∧ s.m.boot.inReset = false ∧ (s.m.hen h.agent).crossing.find? (fun y => y.line == x.line) = some x ∧ s.m.target (64 * x.line) = .flock fb fpa ∧ s.m.targetDead (.flock fb fpa) = false ∧ s.m.targetHeld (.flock fb fpa) = false) :=
  ⟨⟨hm 0 id up, hen0.agent, by decide⟩,
   ⟨hm 0 id up, hen0.agent, by decide⟩,
   ⟨hen0, 0, hs 0 (fun x => { x with sb := [({ line := 0x020040000000 / 64 + 1, mask := 0xFF00#64, data := 0xA1A2A3A4A5A6A7A8_0000000000000000#512, uncached := false } : SbEntry)] }), ({ line := 0x020040000000 / 64 + 1, mask := 0xFF00#64, data := 0xA1A2A3A4A5A6A7A8_0000000000000000#512, uncached := false } : SbEntry), flockBase 0 0, 0x020040000040, by decide⟩,
   ⟨hen0, 0, hs 0 (fun x => { x with sb := [({ line := 0x020080000000 / 64 + 1, mask := 0xFF00#64, data := 0xA1A2A3A4A5A6A7A8_0000000000000000#512, uncached := false } : SbEntry)] }), ({ line := 0x020080000000 / 64 + 1, mask := 0xFF00#64, data := 0xA1A2A3A4A5A6A7A8_0000000000000000#512, uncached := false } : SbEntry), flockBase 1 0, 0x020080000040, by decide⟩,
   ⟨hen0, 0, hs 0 (fun x => { x with crossing := [({ line := 0x020080000000 / 64 + 1, data := 0xA1A2A3A4A5A6A7A8_0000000000000000#512, mask := 0xFF00#64 } : Crossing)] }), ({ line := 0x020080000000 / 64 + 1, data := 0xA1A2A3A4A5A6A7A8_0000000000000000#512, mask := 0xFF00#64 } : Crossing), flockBase 1 0, 0x020080000040, by decide⟩⟩

theorem witness_HenExceptionsAndEvents_3 :
    (∃ (h : HenId) (s : State) (x : Imprecise), (s.m.hen h.agent).imp = some x ∧ s.m.henLive h.agent = true ∧ (s.m.hen h.agent).wait = .none ∧ s.m.henOpen h.agent = true ∧ (s.m.hen h.agent).sb = [])
    ∧ (∃ (h : HenId) (s : State), s.m.henLive h.agent = true ∧ (s.m.hen h.agent).wait = .none ∧ s.m.henOpen h.agent = true ∧ (s.m.hen h.agent).imp = none ∧ s.m.henPending h.agent &&& (s.m.hen h.agent).ie ≠ 0 ∧ (s.m.hen h.agent).sb = [])
    ∧ (∃ (h : HenId) (t : Nat) (s : State), (s.m.hen h.agent).wait = .none ∧ ((s.m.advance t).henPending h.agent).getLsbD 0 = true)
    ∧ (∃ (h : HenId) (t : Nat) (s : State) (n : Mach), n = s.m.advance t ∧ (n.hen h.agent).wait = .wfi ∧ (n.henPending h.agent).getLsbD 0 = true ∧ (n.hen h.agent).ie.getLsbD 0 = true)
    ∧ (∃ (h : HenId) (s : State), (s.m.hen h.agent).state = .running ∧ s.m.boot.inReset = false ∧ (isFlockAgent h.agent = true → s.m.flockOn (flockOf h.agent) = true) ∧ s.m.henBusy h.agent = false) :=
  ⟨⟨hen0, hs 0 (fun x => { x with excEn := true, imp := some { code := 15, addr := 0x99, overflow := true } }), { code := 15, addr := 0x99, overflow := true }, by decide⟩,
   ⟨hen0, hs 0 (fun x => { x with excEn := true, ie := 6, ipCollie := true, ipMgmt := true }), by decide⟩,
   ⟨hen0, 2000, hs 0 (fun x => { x with timecmp := 3 }), by decide⟩,
   ⟨hen0, 2000, hs 0 (fun x => { x with wait := .wfi, ie := 1, timecmp := 3 }), _, rfl, by decide⟩,
   ⟨hen0, hs 0 (fun x => { x with slice := 0xFFF }), by decide⟩⟩

theorem witness_HenExceptionsAndEvents_4 :
    (∃ (h : HenId) (s : State), (s.m.hen h.agent).state = .running ∧ s.m.boot.inReset = false ∧ (isFlockAgent h.agent = true → s.m.flockOn (flockOf h.agent) = true) ∧ s.m.henBusy h.agent = false)
    ∧ (∃ (h : HenId) (s : State), (s.m.hen h.agent).state = .running ∧ s.m.boot.inReset = false ∧ (isFlockAgent h.agent = true → s.m.flockOn (flockOf h.agent) = true) ∧ s.m.henBusy h.agent = false)
    ∧ (∃ (h : HenId) (s : State), RegOpen s.m (henReg h.agent 0) ∧ (s.m.hen h.agent).state = .disabled)
    ∧ (∃ (h : HenId) (s : State), RegOpen s.m (henReg h.agent 0) ∧ (s.m.hen h.agent).state = .running)
    ∧ (∃ (h : HenId) (s : State), RegOpen s.m (henReg h.agent 0) ∧ (s.m.hen h.agent).state = .disabled) :=
  ⟨⟨hen0, hs 0, by decide⟩,
   ⟨hen0, hs 0, by decide⟩,
   ⟨hen0, hs 0 (fun x => { x with state := .disabled }), by unfold RegOpen; decide, by decide⟩,
   ⟨hen0, hs 0, by unfold RegOpen; decide, by decide⟩,
   ⟨hen0, hs 0 (fun x => { x with state := .disabled }), by unfold RegOpen; decide, by decide⟩⟩

theorem witness_HenExceptionsAndEvents_5 :
    (∃ (h : HenId) (s : State), RegOpen s.m (henReg h.agent 0) ∧ s.m.henUp h.agent = true)
    ∧ (∃ (h : HenId) (s : State), RegOpen s.m (henReg h.agent 0) ∧ (s.m.hen h.agent).state = .halted ∧ (s.m.hen h.agent).heldLines = [])
    ∧ (∃ (h : HenId) (s : State), RegOpen s.m (henReg h.agent 0) ∧ (s.m.hen h.agent).wait = .none) :=
  ⟨⟨hen0, hs 0, by unfold RegOpen; decide, by decide⟩,
   ⟨hen0, hs 0 (fun x => { x with state := .halted, bootPc := 0x1234 }), by unfold RegOpen; decide, by decide⟩,
   ⟨hen0, hs 0, by unfold RegOpen; decide, by decide⟩⟩

theorem witness_BeatEdgesAndWraps_1 :
    (∃ (t : Nat) (high : Nat) (s : State) (b : Beat), b = s.m.beat ∧ 1000 ≤ high ∧ b.locked = true ∧ 7 * b.period ≤ 8 * (t - b.ref) ∧ 8 * (t - b.ref) ≤ 9 * b.period)
    ∧ (∃ (t : Nat) (high : Nat) (s : State), 1000 ≤ high ∧ s.m.beat.locked = true ∧ (8 * (t - s.m.beat.ref) < 7 * s.m.beat.period ∨ 9 * s.m.beat.period < 8 * (t - s.m.beat.ref)))
    ∧ (∃ (t : Nat) (high : Nat) (e : Nat) (p : Nat) (q : Nat) (r : Nat) (s : State) (b : Beat), b = s.m.beat ∧ 1000 ≤ high ∧ b.locked = false ∧ b.lastEdge = some e ∧ b.periods = [p, q, r] ∧ 3571429 ≤ t - e ∧ t - e ≤ 6250000 ∧ (∀ x ∈ [t - e, p, q, r], ∀ y ∈ [t - e, p, q, r], 100 * x ≤ 102 * y))
    ∧ (∃ (t : Nat) (high : Nat) (e : Nat) (s : State) (b : Beat), b = s.m.beat ∧ 1000 ≤ high ∧ b.locked = false ∧ b.lastEdge = some e ∧ (t - e < 3571429 ∨ 6250000 < t - e))
    ∧ (∃ (s : State) (b : Beat), b = s.m.beat ∧ b.locked = true ∧ b.zero ≠ b.ref ∧ b.missing < 2) :=
  ⟨⟨4501000, 1000, beat fun b => { b with number := 5, nextSlot := 4 }, _, rfl, by decide⟩,
   ⟨4300000, 1000, st up, by decide⟩,
   ⟨16001000, 1500, 12001000, 4000000, 3990000, 4010000, beat fun b => { b with locked := false, lastEdge := some 12001000, periods := [4000000, 3990000, 4010000] }, _, rfl, by decide⟩,
   ⟨18251001, 1000, 12001000, beat fun b => { b with locked := false, lastEdge := some 12001000, periods := [4000000] }, _, rfl, by decide⟩,
   ⟨beat fun b => { b with zero := 5001000, missing := 1 }, _, rfl, by decide⟩⟩

theorem witness_BeatEdgesAndWraps_2 :
    (∃ (s : State) (b : Beat), b = s.m.beat ∧ b.locked = true ∧ b.missing = 2)
    ∧ (∃ (s : State), s.m.beat.wordDue = true ∧ s.m.beat.locked = true) :=
  ⟨⟨beat fun b => { b with missing := 2 }, _, rfl, by decide⟩,
   ⟨beat fun b => { b with wordDue := true }, by decide⟩⟩

theorem witness_BeatWordsAndSiteCommands_1 :
    (∃ (t : Nat) (w : BitVec 48) (s : State), WordInTime s t ∧ Mach.wordCrc w = w.toNat / 2 ^ 40 ∧ w.extractLsb' 28 4 = 0)
    ∧ (∃ (t : Nat) (w : BitVec 48) (s : State), WordInTime s t ∧ Mach.wordCrc w = w.toNat / 2 ^ 40 ∧ w.extractLsb' 28 4 = 1)
    ∧ (∃ (t : Nat) (w : BitVec 48) (s : State), WordInTime s t ∧ Mach.wordCrc w = w.toNat / 2 ^ 40 ∧ w.extractLsb' 28 4 = 3)
    ∧ (∃ (t : Nat) (w : BitVec 48) (s : State), WordInTime s t ∧ Mach.wordCrc w = w.toNat / 2 ^ 40 ∧ 5 ≤ (w.extractLsb' 28 4).toNat)
    ∧ (∃ (t : Nat) (w : BitVec 48) (s : State), WordInTime s t ∧ Mach.wordCrc w ≠ w.toNat / 2 ^ 40) :=
  ⟨⟨2000, bw 0x5000007, st up, by unfold Claims.WordInTime; decide, by decide⟩,
   ⟨2000, bw 0x15000007, st up, by unfold Claims.WordInTime; decide, by decide⟩,
   ⟨2000, bw 0x7F35000007, st up, by unfold Claims.WordInTime; decide, by decide⟩,
   ⟨313500, bw 0xFF55000007, st up, by unfold Claims.WordInTime; decide, by decide⟩,
   ⟨313500, bw 0xFF55000007 ^^^ 1, st up, by unfold Claims.WordInTime; decide, by decide⟩⟩

theorem witness_BeatWordsAndSiteCommands_2 :
    (∃ (s : State), NormalIdle s)
    ∧ (∃ (s : State), s.m.boot.inReset = true) :=
  ⟨⟨st up, by unfold Claims.NormalIdle; decide⟩,
   ⟨st { up with boot := { up.boot with inReset := true } }, by decide⟩⟩

theorem witness_OperatingPointsAndRetention_1 :
    (∃ (d : Fin 4) (v : BitVec 3) (s : State), RegOpen s.m (mgmtReg d 0x100) ∧ (s.m.die d).dead = false ∧ v.toNat ≤ s.m.variantTop ∧ (s.m.die d).curOp < v)
    ∧ (∃ (m : Mach) (r : UpReq), m.asked r = true)
    ∧ (∃ (m : Mach) (r : UpReq), m.asked r = false)
    ∧ (∃ (d : Fin 4) (e : Fin 4) (i : Fin 42) (j : Fin 42), (d < e ∨ (d = e ∧ i < j)))
    ∧ (∃ (d : Fin 4) (v : BitVec 3) (s : State) (x : Die), RegOpen s.m (mgmtReg d 0x100) ∧ x = s.m.die d ∧ x.dead = false ∧ x.excluded = false ∧ x.curRet = false ∧ x.computeReset = false ∧ x.stepUp = false ∧ x.stepDown = false ∧ v < x.curOp ∧ v.toNat ≤ s.m.variantTop) :=
  ⟨⟨0, 7, st up, by unfold RegOpen; decide, by decide⟩,
   ⟨up.askUp (.op 1), .op 1, by decide⟩,
   ⟨up.askUp (.op 1), .domain 0 3, by decide⟩,
   ⟨1, 1, 3, 4, by decide⟩,
   ⟨3, 1, st up, _, by unfold RegOpen; decide, rfl, by decide⟩⟩

theorem witness_OperatingPointsAndRetention_2 :
    (∃ (d : Fin 4) (v : BitVec 3) (s : State), RegOpen s.m (mgmtReg d 0x100) ∧ (s.m.die d).dead = false ∧ s.m.variantTop < v.toNat)
    ∧ (∃ (d : Fin 4) (s : State) (x : Die), x = s.m.die d ∧ x.stepUp = true ∧ x.stepDown = false ∧ x.curOp.toNat < s.m.opGoal d)
    ∧ (∃ (d : Fin 4) (s : State) (x : Die), x = s.m.die d ∧ x.stepUp = false ∧ x.stepDown = true ∧ x.curOp.toNat ≤ s.m.opGoal d)
    ∧ (∃ (d : Fin 4) (s : State), RegOpen s.m (mgmtReg d 0x100) ∧ (s.m.die d).dead = false ∧ s.m.dieBusy d none = false ∧ (s.m.save.active = none ∨ ∀ v ∈ Mach.Save.valid s.m.save, Mach.regionOn (Mach.descBase v) d = false) ∧ (s.m.die d).curRet = false)
    ∧ (∃ (d : Fin 4) (s : State), RegOpen s.m (mgmtReg d 0x100) ∧ (s.m.die d).dead = false ∧ s.m.dieBusy d none = false ∧ (s.m.save.active = none ∨ ∀ v ∈ Mach.Save.valid s.m.save, Mach.regionOn (Mach.descBase v) d = false) ∧ (s.m.die d).curRet = true) :=
  ⟨⟨1, 6, st { up with fused := { up.fused with variant := 1 } }, by unfold RegOpen; decide, by decide⟩,
   ⟨2, die 2 (fun x => { x with stepUp := true, targetOp := 5 }), _, rfl, by decide⟩,
   ⟨2, die 2 (fun x => { x with stepDown := true }), _, rfl, by decide⟩,
   ⟨1, st up, by unfold RegOpen; decide, by decide, by decide, .inl (by decide), by decide⟩,
   ⟨1, die 1 (fun x => { x with curRet := true, leaving := true }), by unfold RegOpen; decide, by decide, by decide, .inl (by decide), by decide⟩⟩

theorem witness_OperatingPointsAndRetention_3 :
    (∃ (d : Fin 4) (f : Fin 26) (s : State), RegOpen s.m (mgmtReg d 0x100) ∧ (s.m.die d).dead = false ∧ ((s.m.domain d f = .on ∧ (s.m.collie (flockBase d f)).state ≠ .quiesced) ∨ (s.m.collie (flockBase d f)).pool ≠ [] ∨ (s.m.mule (flockBase d f + 20)).descs ≠ [] ∨ (s.m.mule (flockBase d f + 21)).descs ≠ []))
    ∧ (∃ (d : Fin 4) (s : State) (k : SaveKind) (v : BitVec 128), RegOpen s.m (mgmtReg d 0x100) ∧ (s.m.die d).dead = false ∧ s.m.save.active = some k ∧ Mach.Save.valid s.m.save = [v] ∧ Mach.regionOn (Mach.descBase v) d = true)
    ∧ (∃ (d : Fin 4) (s : State), RegOpen s.m (mgmtReg d 0x100) ∧ (s.m.die d).dead = false ∧ (s.m.die d).curRet = true ∧ (s.m.die d).leaving = false)
    ∧ (∃ (d : Fin 4) (s : State), (s.m.die d).leaving = true) :=
  ⟨⟨1, 23, st (up.modCollie (flockBase 1 23) fun c => { c with state := .running }), by unfold RegOpen; decide, by decide, .inl (by decide)⟩,
   ⟨2, st { up with save := { active := some .lean, descs := [(0, 0x80000000000000000000000000000000#128)] } }, .lean, 0x80000000000000000000000000000000, by unfold RegOpen; decide, by decide⟩,
   ⟨1, die 1 (fun x => { x with curRet := true, targetRet := true }), by unfold RegOpen; decide, by decide⟩,
   ⟨1, die 1 (fun x => { x with curRet := true, leaving := true }), by decide⟩⟩

theorem witness_PowerDomainWrites_1 :
    (∃ (d : Fin 4) (i : Fin 42) (r : Fin 6) (s : State), DomainAsked s d i r ∧ i.val ≠ 41 ∧ s.m.domain d i ≠ .on)
    ∧ (∃ (d : Fin 4) (i : Fin 42) (r : Fin 6) (s : State), DomainAsked s d i r ∧ i.val < 26 ∧ s.m.domain d i = .on ∧ FlockIdle s.m (flockBase d i))
    ∧ (∃ (d : Fin 4) (i : Fin 42) (r : Fin 6) (s : State), DomainAsked s d i r ∧ i.val < 26 ∧ s.m.domain d i = .on ∧ FlockIdle s.m (flockBase d i))
    ∧ (∃ (d : Fin 4) (i : Fin 42) (r : Fin 6) (s : State), DomainAsked s d i r ∧ i.val < 26 ∧ (s.m.collie (flockBase d i)).state ≠ .quiesced)
    ∧ (∃ (d : Fin 4) (i : Fin 42) (r : Fin 6) (s : State), DomainAsked s d i r ∧ i.val < 26 ∧ (s.m.collie (flockBase d i)).state ≠ .quiesced) :=
  ⟨⟨0, 40, 5, die 0 (fun x => { x with domains := [] }), by unfold Claims.DomainAsked RegOpen; decide, by decide⟩,
   ⟨2, 25, 3, st up, by unfold Claims.DomainAsked RegOpen; decide, by decide, by decide, by unfold Claims.FlockIdle; decide⟩,
   ⟨2, 25, 3, st up, by unfold Claims.DomainAsked RegOpen; decide, by decide, by decide, by unfold Claims.FlockIdle; decide⟩,
   ⟨2, 25, 3, st (up.modCollie (flockBase 2 25) fun c => { c with state := .running }), by unfold Claims.DomainAsked RegOpen; decide, by decide⟩,
   ⟨2, 25, 3, st (up.modCollie (flockBase 2 25) fun c => { c with state := .running }), by unfold Claims.DomainAsked RegOpen; decide, by decide⟩⟩

theorem witness_PowerDomainWrites_2 :
    (∃ (d : Fin 4) (i : Fin 42) (r : Fin 6) (s : State), DomainAsked s d i r ∧ 26 ≤ i.val)
    ∧ (∃ (d : Fin 4) (i : Fin 42) (r : Fin 6) (s : State), DomainAsked s d i r ∧ 26 ≤ i.val ∧ i.val ≠ 40)
    ∧ (∃ (d : Fin 4) (i : Fin 42) (r : Fin 6) (s : State), DomainAsked s d i r ∧ i.val = 41)
    ∧ (∃ (d : Fin 4) (i : Fin 42) (r : Fin 6) (s : State), DomainAsked s d i r) :=
  ⟨⟨0, 26, 3, st up, by unfold Claims.DomainAsked RegOpen; decide, by decide⟩,
   ⟨0, 39, 4, st up, by unfold Claims.DomainAsked RegOpen; decide, by decide⟩,
   ⟨0, 41, 5, st up, by unfold Claims.DomainAsked RegOpen; decide, by decide⟩,
   ⟨0, 7, 0, st up, by unfold Claims.DomainAsked RegOpen; decide⟩⟩

theorem witness_SlotGrantsUpwardSteps_1 :
    (∃ (d : Fin 4) (i : Fin 42) (q : UpAsk) (s : State), SlotOpen s ∧ OthersSettled s 4 ∧ s.m.gov.requests = [q] ∧ q.req = .domain d i ∧ s.m.domain d i ≠ .on ∧ s.m.dieOut d = false ∧ (i.val < 26 ∨ i.val = 40))
    ∧ (∃ (d : Fin 4) (i : Fin 42) (q : UpAsk) (s : State), SlotOpen s ∧ OthersSettled s 4 ∧ s.m.gov.requests = [q] ∧ q.req = .domain d i ∧ s.m.domain d i ≠ .on ∧ s.m.dieOut d = false ∧ 26 ≤ i.val ∧ i.val ≠ 40)
    ∧ (∃ (d : Fin 4) (q : UpAsk) (s : State), SlotOpen s ∧ OthersSettled s d ∧ s.m.gov.requests = [q] ∧ q.req = .op d ∧ s.m.holdsPoint d = true ∧ (s.m.die d).stepUp = false ∧ (s.m.die d).stepDown = false ∧ (s.m.die d).curOp.toNat < s.m.opGoal d ∧ (s.m.die d).curOp < (s.m.die d).targetOp)
    ∧ (∃ (d : Fin 4) (i : Fin 42) (q : UpAsk) (s : State), s.m.beat.slotDone = false ∧ SlotAhead s ∧ s.m.beat.locked = true ∧ s.m.site.hold = false ∧ s.m.boot.inReset = false ∧ s.m.lean.state = 0 ∧ s.m.headroomOk = false ∧ s.m.gov.held = [] ∧ s.m.gov.undoHeld = false ∧ s.m.targetClk ≤ s.m.acores.curClk.toNat ∧ OthersSettled s 4 ∧ s.m.gov.requests = [q] ∧ q.req = .domain d i ∧ s.m.domain d i ≠ .on ∧ s.m.dieOut d = false ∧ (i.val < 26 ∨ i.val = 40))
    ∧ (∃ (d : Fin 4) (i : Fin 42) (q : UpAsk) (s : State), s.m.beat.slotDone = false ∧ SlotAhead s ∧ s.m.site.hold = true ∧ s.m.boot.inReset = false ∧ s.m.lean.state = 0 ∧ s.m.gov.held = [] ∧ s.m.targetClk ≤ s.m.acores.curClk.toNat ∧ OthersSettled s 4 ∧ s.m.gov.requests = [q] ∧ q.req = .domain d i ∧ s.m.domain d i ≠ .on ∧ s.m.dieOut d = false) :=
  ⟨⟨0, 40, { since := 5, req := .domain 0 40 }, st ((up.modDie 0 fun x => { x with domains := [] }).modGov fun g => { g with requests := [{ since := 5, req := .domain 0 40 }] }), by unfold Claims.SlotOpen Claims.SlotAhead; decide, by unfold Claims.OthersSettled; decide, by decide⟩,
   ⟨0, 30, { since := 5, req := .domain 0 30 }, st ((up.modDie 0 fun x => { x with domains := [] }).modGov fun g => { g with requests := [{ since := 5, req := .domain 0 30 }] }), by unfold Claims.SlotOpen Claims.SlotAhead; decide, by unfold Claims.OthersSettled; decide, by decide⟩,
   ⟨1, { since := 5, req := .op 1 }, st ((up.modDie 1 fun x => { x with targetOp := 5 }).modGov fun g => { g with requests := [{ since := 5, req := .op 1 }] }), by unfold Claims.SlotOpen Claims.SlotAhead; decide, by unfold Claims.OthersSettled; decide, by decide⟩,
   ⟨0, 40, { since := 5, req := .domain 0 40 }, st ((up.modDie 0 fun x => { x with domains := [] }).modGov fun g => { g with requests := [{ since := 5, req := .domain 0 40 }], samples := [100000000000] }), by decide, by unfold Claims.SlotAhead; decide, by decide, by decide, by decide, by decide, by decide, by decide, by decide, by decide, by unfold Claims.OthersSettled; decide, by decide⟩,
   ⟨0, 40, { since := 5, req := .domain 0 40 }, st (({ up with site := { hold := true } }.modDie 0 fun x => { x with domains := [] }).modGov fun g => { g with requests := [{ since := 5, req := .domain 0 40 }] }), by decide, by unfold Claims.SlotAhead; decide, by decide, by decide, by decide, by decide, by decide, by unfold Claims.OthersSettled; decide, by decide⟩⟩

theorem witness_SlotGrantsUpwardSteps_2 :
    (∃ (s : State), (s.m.beat.slotDone = true ∨ ¬ SlotAhead s)) :=
  ⟨beat fun b => { b with slotDone := true }, .inl (by decide)⟩

theorem witness_GovernorSteps_1 :
    (∃ (d : Fin 4) (s : State), EnfDue s.m ∧ s.m.bit (pwrReg 0x18) 3 = false ∧ EnfPicks s.m (s.m.fld (pwrReg 0x18) 0 3) d)
    ∧ (∃ (s : State), EnfDue s.m ∧ s.m.gov.oxLimit < 2 ∧ (s.m.bit (pwrReg 0x18) 3 = true ∨ (∀ d, ¬ EnfPicks s.m (s.m.fld (pwrReg 0x18) 0 3) d)))
    ∧ (∃ (d : Fin 4) (s : State), EnfDue s.m ∧ s.m.gov.oxLimit = 2 ∧ (∀ e, ¬ EnfPicks s.m (s.m.fld (pwrReg 0x18) 0 3) e) ∧ EnfPicks s.m 0 d)
    ∧ (∃ (s : State), 16000 ≤ s.m.gov.calmUs ∧ s.m.gov.steps ≠ [])
    ∧ (∃ (s : State), 10000 ≤ s.m.gov.spentUs) :=
  ⟨⟨0, gov fun g => { g with overUs := 1000 }, ⟨by decide, fun _ h => by cases (show none = some _ from h)⟩, by decide, by unfold Claims.EnfPicks; decide⟩,
   ⟨st (({ up with regs := [(pwrReg 0x18, 8)] } : Mach).modGov fun g => { g with overUs := 1500, stepAt := some 500 }), ⟨by decide, fun u h => by have h2 : some 500 = some u := h; cases h2; decide⟩, by decide, by unfold Claims.EnfPicks; decide⟩,
   ⟨3, st ((({ up with regs := [(pwrReg 0x18, 4)] } : Mach).modGov fun g => { g with overUs := 1000, oxLimit := 2 }).modDie 3 fun x => { x with curOp := 4 }), ⟨by decide, fun _ h => by cases (show none = some _ from h)⟩, by decide, by unfold Claims.EnfPicks; decide, by unfold Claims.EnfPicks; decide⟩,
   ⟨gov fun g => { g with calmUs := 16000, steps := [.ox] }, by decide⟩,
   ⟨gov fun g => { g with spentUs := 10000 }, by decide⟩⟩

theorem witness_GovernorSteps_2 :
    (∃ (s : State), 50 ≤ s.m.gov.fastUs ∧ s.m.gov.fastEnd = none)
    ∧ (∃ (s : State), 50 ≤ s.m.gov.fastUs ∧ s.m.gov.fastEnd = none)
    ∧ (∃ (s : State) (t : Nat), s.m.gov.fastEnd = some t)
    ∧ (∃ (o : OxId) (s : State), o.agent ∈ (s.m.die (agentDie o.agent - 1)).tokens ∧ (s.m.ox o.agent).flight = []) :=
  ⟨⟨gov fun g => { g with fastUs := 50 }, by decide⟩,
   ⟨gov fun g => { g with fastUs := 50 }, by decide⟩,
   ⟨gov (fun g => { g with fastEnd := some 2000 }), 2000, by decide⟩,
   ⟨⟨1, 2, 3⟩, die 1 (fun x => { x with tokens := [(⟨1, 2, 3⟩ : OxId).agent] }), by decide⟩⟩

theorem witness_SchedulerEntriesRun_1 :
    (∃ (d : Fin 4) (e : Fin 64) (s : State) (w : BitVec 64), EntryDue s d.succ e 1 w)
    ∧ (∃ (d : Fin 4) (e : Fin 64) (i : Fin 42) (s : State) (w : BitVec 64), EntryDue s d.succ e 2 w ∧ w.extractLsb' 44 6 = BitVec.ofNat 6 i ∧ w.extractLsb' 50 2 = 2 ∧ s.m.domain d i ≠ .on ∧ s.m.dieOut d = false ∧ s.m.angle / 0x1000 ≠ s.m.beat.slot.toNat)
    ∧ (∃ (d : Fin 4) (e : Fin 64) (i : Fin 42) (s : State) (w : BitVec 64), EntryDue s d.succ e 2 w ∧ w.extractLsb' 44 6 = BitVec.ofNat 6 i ∧ w.extractLsb' 50 2 = 2 ∧ s.m.domain d i ≠ .on ∧ s.m.dieOut d = false ∧ s.m.angle / 0x1000 = s.m.beat.slot.toNat ∧ s.m.site.hold = false ∧ s.m.beat.locked = true ∧ s.m.gov.slotDoms < 8 ∧ s.m.headroomOk = true ∧ s.m.lean.state = 0 ∧ (i.val < 26 ∨ i.val = 40))
    ∧ (∃ (c : Fin 6) (e : Fin 64) (s : State) (w : BitVec 64), EntryDue s 0 e 2 w ∧ w.extractLsb' 44 6 = BitVec.ofNat 6 c ∧ w.extractLsb' 50 2 = 2 ∧ s.m.clusterState c ≠ 2 ∧ s.m.angle / 0x1000 ≠ s.m.beat.slot.toNat)
    ∧ (∃ (d : Fin 4) (e : Fin 64) (s : State) (w : BitVec 64), EntryDue s d.succ e 3 w ∧ e ∉ (s.m.die d).bursts) :=
  ⟨⟨3, 63, sched 4 63 1 5, ent 1 5, by unfold Claims.EntryDue; decide⟩,
   ⟨0, 1, 4, sched 1 1 2 (4 + 128) { up.modDie 0 (fun x => { x with domains := [] }) with beat := { up.beat with slot := 3 } }, ent 2 (4 + 128), by unfold Claims.EntryDue; decide, by decide⟩,
   ⟨0, 1, 4, sched 1 1 2 (4 + 128) (up.modDie 0 fun x => { x with domains := [] }), ent 2 (4 + 128), by unfold Claims.EntryDue; decide, by decide⟩,
   ⟨5, 1, sched 0 1 2 (5 + 128) { up with acores := { clusters := [(5, 1)] }, beat := { up.beat with slot := 3 } }, ent 2 (5 + 128), by unfold Claims.EntryDue; decide, by decide⟩,
   ⟨2, 0, sched 3 0 3 0, ent 3 0, by unfold Claims.EntryDue; decide, by decide⟩⟩

theorem witness_SchedulerEntriesRun_2 :
    (∃ (d : Fin 4) (e : Fin 64) (s : State) (w : BitVec 64), EntryDue s d.succ e 4 w ∧ e ∉ (s.m.die d).permits)
    ∧ (∃ (k : Fin 5) (d : Fin 4) (e : Fin 64) (e' : Fin 64) (s : State) (w : BitVec 64) (w' : BitVec 64), EntryDue s k e' (w'.extractLsb' 40 4).toNat w' ∧ e' < e ∧ w'.extractLsb' 40 4 ≠ 0 ∧ FMap.get 0 s.m.sched (64 * k.val + e.val) = w ∧ w.extractLsb' 0 40 = w'.extractLsb' 0 40 ∧ k = d.succ)
    ∧ (∃ (k : Fin 5) (d : Fin 4) (e : Fin 64) (e' : Fin 64) (s : State) (w : BitVec 64) (w' : BitVec 64), EntryDue s k e' (w'.extractLsb' 40 4).toNat w' ∧ e' < e ∧ w'.extractLsb' 40 4 ≠ 0 ∧ FMap.get 0 s.m.sched (64 * k.val + e.val) = w ∧ w.extractLsb' 0 40 = w'.extractLsb' 0 40 ∧ k = d.succ)
    ∧ (∃ (k : Fin 5) (d : Fin 4) (e : Fin 64) (e' : Fin 64) (s : State) (w : BitVec 64) (w' : BitVec 64), EntryDue s k e' (w'.extractLsb' 40 4).toNat w' ∧ e' < e ∧ w'.extractLsb' 40 4 ≠ 0 ∧ FMap.get 0 s.m.sched (64 * k.val + e.val) = w ∧ w.extractLsb' 0 40 = w'.extractLsb' 0 40 ∧ k = d.succ)
    ∧ (∃ (k : Fin 5) (d : Fin 4) (e : Fin 64) (e' : Fin 64) (s : State) (w : BitVec 64) (w' : BitVec 64), EntryDue s k e' (w'.extractLsb' 40 4).toNat w' ∧ e' < e ∧ w'.extractLsb' 40 4 ≠ 0 ∧ FMap.get 0 s.m.sched (64 * k.val + e.val) = w ∧ w.extractLsb' 0 40 = w'.extractLsb' 0 40 ∧ k = d.succ) :=
  ⟨⟨2, 0, sched 3 0 4 0, ent 4 0, by unfold Claims.EntryDue; decide, by decide⟩,
   ⟨1, 0, 5, 3, st { up with sched := [(67, ent 3 0), (69, ent 3 0)] }, ent 3 0, ent 3 0, by unfold Claims.EntryDue; decide, by decide⟩,
   ⟨1, 0, 5, 3, st { up with sched := [(67, ent 3 0), (69, ent 4 0)] }, ent 4 0, ent 3 0, by unfold Claims.EntryDue; decide, by decide⟩,
   ⟨1, 0, 5, 3, st { up with sched := [(67, ent 3 0), (69, ent 1 0)] }, ent 1 0, ent 3 0, by unfold Claims.EntryDue; decide, by decide⟩,
   ⟨1, 0, 5, 3, st { up with sched := [(67, ent 3 0), (69, ent 2 0)] }, ent 2 0, ent 3 0, by unfold Claims.EntryDue; decide, by decide⟩⟩

theorem witness_SchedulerEntriesRun_3 :
    (∃ (e : Fin 64) (s : State) (w : BitVec 64), EntryDue s 0 e 5 w ∧ s.m.save.active = none ∧ s.m.inLean = false ∧ s.m.tier.state = .mounted)
    ∧ (∃ (e : Fin 64) (s : State) (w : BitVec 64), EntryDue s 0 e 5 w ∧ (s.m.save.active ≠ none ∨ s.m.inLean = true))
    ∧ (∃ (e : Fin 64) (s : State) (w : BitVec 64), EntryDue s 0 e 5 w ∧ s.m.save.active = none ∧ s.m.inLean = false ∧ s.m.tier.state = .unmounted) :=
  ⟨⟨9, sched 0 9 5 0 { up with tier := { state := .mounted } }, ent 5 0, by unfold Claims.EntryDue; decide, by decide⟩,
   ⟨9, sched 0 9 5 0 { up with lean := { state := 2 } }, ent 5 0, by unfold Claims.EntryDue; decide, by decide⟩,
   ⟨9, sched 0 9 5 0, ent 5 0, by unfold Claims.EntryDue; decide, by decide⟩⟩

theorem witness_SupplyThresholdsAndLean_1 :
    (∃ (vin : BitVec 10) (dur : Nat) (s : State), NormalIdle s ∧ 8 * vin.toNat < 2400 + 10 * s.m.fld (pwrReg 8) 0 8 ∧ 1000 ≤ dur)
    ∧ (∃ (vin : BitVec 10) (dur : Nat) (s : State), s.m.boot.inReset = true ∧ s.m.lean.state = 0 ∧ 8 * vin.toNat < 2400 + 10 * s.m.fld (pwrReg 8) 0 8 ∧ 1000 ≤ dur)
    ∧ (∃ (vin : BitVec 10) (dur : Nat) (s : State), s.m.boot.inReset = true ∧ s.m.lean.state = 0 ∧ 620 < vin.toNat ∧ 5000 ≤ dur)
    ∧ (∃ (dur : Nat), dur < 1000)
    ∧ (∃ (vin : BitVec 10) (dur : Nat) (s : State), NormalIdle s ∧ 620 < vin.toNat ∧ 5000 ≤ dur) :=
  ⟨⟨299, 1000, st { up with tier := { state := .mounted }, regs := [(pwrReg 0x20, 0x10000)] }, by unfold Claims.NormalIdle; decide, by decide⟩,
   ⟨299, 1000, st { up with boot := { up.boot with inReset := true } , regs := [(pwrReg 8, 0)] }, by decide⟩,
   ⟨621, 5000, st { up with boot := { up.boot with inReset := true } }, by decide⟩,
   ⟨999, by decide⟩,
   ⟨621, 5000, st up, by unfold Claims.NormalIdle; decide, by decide⟩⟩

theorem witness_SupplyThresholdsAndLean_2 :
    (∃ (vin : BitVec 10) (s : State), s.m.lean.inputOpen = true ∧ 400 ≤ vin.toNat ∧ vin.toNat ≤ 600 ∧ s.m.lean.state = 0)
    ∧ (∃ (vin : BitVec 10) (s : State), 2400 + 10 * s.m.fld (pwrReg 8) 8 8 < 8 * vin.toNat ∧ s.m.lean.state = 1 ∧ s.m.lean.inputOpen = false ∧ s.m.site.lean = false)
    ∧ (∃ (vin : BitVec 10) (s : State), 2400 + 10 * s.m.fld (pwrReg 8) 8 8 < 8 * vin.toNat ∧ s.m.lean.state = 1 ∧ (s.m.lean.inputOpen = true ∨ s.m.site.lean = true))
    ∧ (∃ (vin : BitVec 10) (s : State), 8 * vin.toNat ≤ 2400 + 10 * s.m.fld (pwrReg 8) 8 8 ∧ 2400 + 10 * s.m.fld (pwrReg 8) 0 8 ≤ 8 * vin.toNat ∧ s.m.lean.state = 2)
    ∧ (∃ (t : Nat) (s : State), s.m.lean.state = 2 ∧ s.m.lean.waitFrom + 2 * s.m.beat.period ≤ t) :=
  ⟨⟨400, st { up with lean := { inputOpen := true } }, by decide⟩,
   ⟨1000, st { up with lean := { state := 1, causeSupply := true } }, by decide⟩,
   ⟨1000, st { up with lean := { state := 1, causeSupply := true, inputOpen := true } }, by decide⟩,
   ⟨430, st { up with lean := { state := 2 } }, by decide⟩,
   ⟨10001000, st { up with lean := { state := 2, waitFrom := 1000 } }, by decide⟩⟩

theorem witness_SupplyThresholdsAndLean_3 :
    (∃ (t : Nat) (s : State), t < s.m.lean.waitFrom + 2 * s.m.beat.period)
    ∧ (∃ (s : State), s.m.boot.powered = true) :=
  ⟨⟨10000999, st { up with lean := { state := 2, waitFrom := 1000 } }, by decide⟩,
   ⟨st up, by decide⟩⟩

theorem witness_SaveEngineSeals_1 :
    (∃ (s : State), s.m.lean.saveDue = true ∧ s.m.inLean = true ∧ (∀ p ∈ s.m.oxen, p.2.flight = []) ∧ (∀ p ∈ s.m.hens, (s.m.hen p.1).priv = true ∨ ((s.m.hen p.1).sb = [] ∧ ((s.m.hen p.1).wait = .none ∨ ((s.m.hen p.1).state ≠ .running ∧ (s.m.hen p.1).state ≠ .quiescing)))))
    ∧ (∃ (a : Nat) (s : State), (s.m.ox a).flight ≠ [])
    ∧ (∃ (s : State) (k : SaveKind) (n : Nat), s.m.save.active = some k ∧ n = (s.m.save.descs.filter fun p => p.2.getLsbD 127).length)
    ∧ (∃ (done : Fin 33) (s : State) (k : SaveKind), s.m.save.active = some k ∧ done.val ≤ (s.m.save.descs.filter fun p => p.2.getLsbD 127).length)
    ∧ (∃ (s : State), s.m.save.active = none) :=
  ⟨⟨st { up with lean := { state := 1, saveDue := true } }, by decide⟩,
   ⟨1024 + 16, st { up with oxen := [(1024 + 16, { flight := [{ word := 0, idx := 0 }] })], lean := { state := 1, saveDue := true } }, by decide⟩,
   ⟨st { up with save := { active := some .lean, descs := [(0, 0x80000000000000000000000000000000#128), (3, 0x80000000000000000000000000000000#128), (4, 0#128)] } }, .lean, 2, by decide⟩,
   ⟨1, st { up with save := { active := some .scheduled, descs := [(0, 0x80000000000000000000000000000000#128), (3, 0x80000000000000000000000000000000#128), (4, 0#128)] } }, .scheduled, by decide⟩,
   ⟨st up, by decide⟩⟩

theorem witness_SaveEngineSeals_2 :
    (∃ (s : State), s.m.save.active = none) :=
  ⟨st up, by decide⟩

def OxFlyRowMet (op : Nat) : Prop :=
  (∃ (o : OxId) (s : State) (w : BitVec 64) (n : Mach), OxTurn s o.agent op w n)

theorem witness_OxFetchAndIssue_1 :
    (∃ (o : OxId) (s : State) (x : Ox) (n : Nat) (bs : List Byte) (m : Mach), x = s.m.ox o.agent ∧ x.state = .running ∧ x.ret = .none ∧ x.fetchStop = false ∧ s.m.flockOn (flockOf o.agent) = true ∧ Die.running (s.m.die (agentDie o.agent - 1)) = true ∧ n = min (8 - (x.entry + 8 * x.fetched) % 64 / 8) (65536 - x.fetched) ∧ 0 < n ∧ x.queue.length + n ≤ 256 ∧ x.entry + 8 * x.fetched < 0x800000 ∧ s.m.oxBytes (flockOf o.agent) (x.entry + 8 * x.fetched) (8 * n) = ((bs, false), m))
    ∧ (∃ (o : OxId) (s : State) (w : BitVec 64) (n : Mach), OxTurn s o.agent 1 w n)
    ∧ (∃ (o : OxId) (s : State) (w : BitVec 64) (n : Mach), OxTurn s o.agent 0x12 w n)
    ∧ (∃ (o : OxId) (s : State) (w : BitVec 64), (s.m.ox o.agent).queue.head? = some w ∧ (w.extractLsb' 58 6).toNat = 0x12 ∧ (s.m.ox o.agent).flight ≠ [])
    ∧ OxFlyRowMet 4 :=
  ⟨⟨ox0, oxs (fun x => { x with entry := 8, fetched := 1 }) { up with fm := [(0x020040000010, 0x55)] }, _, _, _, _, rfl, by decide, by decide, by decide, by decide, by decide, rfl, by decide, by decide, by decide, show _ = _ from Prod.ext (Prod.ext rfl (by decide)) rfl⟩,
   ⟨ox0, oxq (ow 1 0), ow 1 0, _, ⟨by decide, by decide, by decide, by decide, by decide, by decide, by decide, by decide, Prod.ext (by decide) rfl⟩⟩,
   ⟨ox0, oxq (ow 0x12 0), ow 0x12 0, _, ⟨by decide, by decide, by decide, by decide, by decide, by decide, by decide, by decide, Prod.ext (by decide) rfl⟩⟩,
   ⟨ox0, oxq (ow 0x12 0) (fun x => { x with flight := [fl (ow 9 (2 ^ 38))] }), ow 0x12 0, by decide⟩,
   ⟨ox0, oxq (ow 4 (2 ^ 41)), ow 4 (2 ^ 41), _, ⟨by decide, by decide, by decide, by decide, by decide, by decide, by decide, by decide, Prod.ext (by decide) rfl⟩⟩⟩

theorem witness_OxFetchAndIssue_2 :
    OxFlyRowMet 5
    ∧ OxFlyRowMet 9
    ∧ (∃ (o : OxId) (s : State) (w : BitVec 64) (n : Mach), OxTurn s o.agent 6 w n)
    ∧ (∃ (o : OxId) (s : State) (w : BitVec 64) (n : Mach), OxTurn s o.agent 8 w n ∧ Mach.conforms w = true ∧ Mach.flying (s.m.ox o.agent) [8] = [] ∧ s.m.rampHeld o.agent = false)
    ∧ (∃ (o : OxId) (s : State) (w : BitVec 64) (n : Mach), OxTurn s o.agent 8 w n ∧ Mach.conforms w = true ∧ Mach.flying (s.m.ox o.agent) [8] ≠ []) :=
  ⟨⟨ox0, oxq (ow 5 0), ow 5 0, _, ⟨by decide, by decide, by decide, by decide, by decide, by decide, by decide, by decide, Prod.ext (by decide) rfl⟩⟩,
   ⟨ox0, oxq (ow 9 (2 ^ 38)), ow 9 (2 ^ 38), _, ⟨by decide, by decide, by decide, by decide, by decide, by decide, by decide, by decide, Prod.ext (by decide) rfl⟩⟩,
   ⟨ox0, oxq (ow 6 0), ow 6 0, _, ⟨by decide, by decide, by decide, by decide, by decide, by decide, by decide, by decide, Prod.ext (by decide) rfl⟩⟩,
   ⟨ox0, oxq (ow 8 0) (fun x => { x with w0 := wset }), ow 8 0, _, ⟨by decide, by decide, by decide, by decide, by decide, by decide, by decide, by decide, Prod.ext (by decide) rfl⟩, by decide⟩,
   ⟨ox0, oxq (ow 8 (4 * 2 ^ 9)) (fun x => { x with w0 := wset, flight := [fl (ow 8 0)] }), ow 8 (4 * 2 ^ 9), _, ⟨by decide, by decide, by decide, by decide, by decide, by decide, by decide, by decide, Prod.ext (by decide) rfl⟩, by decide⟩⟩

theorem witness_OxFetchAndIssue_3 :
    (∃ (o : OxId) (s : State) (w : BitVec 64) (n : Mach) (x : Ox), OxTurn s o.agent 0xC w n ∧ x = n.ox o.agent ∧ w.getLsbD 10 = false)
    ∧ (∃ (o : OxId) (s : State) (w : BitVec 64) (n : Mach) (x : Ox), OxTurn s o.agent 0xC w n ∧ x = n.ox o.agent ∧ w.getLsbD 10 = true)
    ∧ (∃ (o : OxId) (s : State) (w : BitVec 64) (n : Mach), OxTurn s o.agent 0xD w n ∧ w.getLsbD 57 = false)
    ∧ (∃ (o : OxId) (s : State) (w : BitVec 64) (n : Mach), OxTurn s o.agent 0xD w n ∧ w.getLsbD 57 = true)
    ∧ (∃ (o : OxId) (s : State) (w : BitVec 64) (n : Mach) (d : Nat) (i : Nat), OxTurn s o.agent 0x10 w n ∧ d = (w.extractLsb' 53 3).toNat - 1 ∧ i = (w.extractLsb' 41 12).toNat ∧ ((n.syncObj d i).count - w.extractLsb' 17 24).toNat < 2 ^ 23) :=
  ⟨⟨ox0, oxq (ow 0xC (9 * 2 ^ 14)), ow 0xC (9 * 2 ^ 14), _, _, ⟨by decide, by decide, by decide, by decide, by decide, by decide, by decide, by decide, Prod.ext (by decide) rfl⟩, rfl, by decide⟩,
   ⟨ox0, oxq (ow 0xC (9 * 2 ^ 14 + 2 ^ 10)), ow 0xC (9 * 2 ^ 14 + 2 ^ 10), _, _, ⟨by decide, by decide, by decide, by decide, by decide, by decide, by decide, by decide, Prod.ext (by decide) rfl⟩, rfl, by decide⟩,
   ⟨ox0, oxq (ow 0xD 0x40000000), ow 0xD 0x40000000, _, ⟨by decide, by decide, by decide, by decide, by decide, by decide, by decide, by decide, Prod.ext (by decide) rfl⟩, by decide⟩,
   ⟨ox0, oxq (ow 0xD (2 ^ 57 + 0x40000000)), ow 0xD (2 ^ 57 + 0x40000000), _, ⟨by decide, by decide, by decide, by decide, by decide, by decide, by decide, by decide, Prod.ext (by decide) rfl⟩, by decide⟩,
   ⟨ox0, oxq (ow 0x10 (2 ^ 53 + 5 * 2 ^ 41)), ow 0x10 (2 ^ 53 + 5 * 2 ^ 41), _, _, _, ⟨by decide, by decide, by decide, by decide, by decide, by decide, by decide, by decide, Prod.ext (by decide) rfl⟩, rfl, rfl, by decide⟩⟩

theorem witness_OxFetchAndIssue_4 :
    (∃ (o : OxId) (s : State) (w : BitVec 64) (n : Mach) (d : Nat) (i : Nat), OxTurn s o.agent 0x10 w n ∧ d = (w.extractLsb' 53 3).toNat - 1 ∧ i = (w.extractLsb' 41 12).toNat ∧ 2 ^ 23 ≤ ((n.syncObj d i).count - w.extractLsb' 17 24).toNat ∧ (∀ x ∈ (n.sync d).waits, x.who ≠ .ox o.agent))
    ∧ (∃ (o : OxId) (s : State) (w : BitVec 64) (n : Mach) (d : Nat) (i : Nat), OxTurn s o.agent 0x11 w n ∧ (s.m.ox o.agent).flight = [] ∧ d + 1 = (w.extractLsb' 53 3).toNat ∧ i = (w.extractLsb' 41 12).toNat ∧ n.dieOut d = false ∧ (n.sync d).waits = []) :=
  ⟨⟨ox0, oxq (ow 0x10 (2 ^ 53 + 5 * 2 ^ 41 + 2 ^ 17)), ow 0x10 (2 ^ 53 + 5 * 2 ^ 41 + 2 ^ 17), _, _, _, ⟨by decide, by decide, by decide, by decide, by decide, by decide, by decide, by decide, Prod.ext (by decide) rfl⟩, rfl, rfl, by decide⟩,
   ⟨ox0, oxq (ow 0x11 (4 * 2 ^ 53 + 5 * 2 ^ 41)), ow 0x11 (4 * 2 ^ 53 + 5 * 2 ^ 41), _, 3, _, ⟨by decide, by decide, by decide, by decide, by decide, by decide, by decide, by decide, Prod.ext (by decide) rfl⟩, by decide, by decide, rfl, by decide⟩⟩

theorem witness_OxInstructionsComplete_1 :
    (∃ (o : OxId) (s : State) (f : OxFlight) (ft : Fmt) (n : Nat) (wd : Nat) (ts : List (Byte × Bool)), OnlyFlight s o.agent 4 f ∧ Mach.opFmt (f.word.extractLsb' 18 5).toNat = some ft ∧ f.word.getLsbD 22 = false ∧ n = Mach.tileRows ft (f.word.getLsbD 17) ∧ wd = Mach.tileWidth ft ∧ ts = (s.m.oxTaken (flockOf o.agent) f.seen (64 * (f.word.extractLsb' 41 17).toNat) (n * wd)).1)
    ∧ (∃ (o : OxId) (s : State) (f : OxFlight) (n : Nat) (k : Nat) (base : Nat), OnlyFlight s o.agent 5 f ∧ n = (f.word.extractLsb' 18 10).toNat + 1 ∧ k = (f.word.extractLsb' 17 1).toNat + 1 ∧ base = (f.word.extractLsb' 28 10).toNat ∧ base + n ≤ 1024 ∧ s.m.fmUpset = [] ∧ f.seen = [])
    ∧ (∃ (o : OxId) (s : State) (f : OxFlight), OnlyFlight s o.agent 6 f)
    ∧ (∃ (o : OxId) (s : State) (f : OxFlight), OnlyFlight s o.agent 9 f)
    ∧ (∃ (o : OxId) (s : State) (f : OxFlight) (ft : Fmt), OnlyFlight s o.agent 0xC f ∧ Fmt.ofSpec (f.word.extractLsb' 14 4).toNat (f.word.getLsbD 18) = some ft) :=
  ⟨⟨ox0, oxf (ow 4 (2 ^ 41)) id { up with fm := [(0x020040000040, 0x38), (0x020040000041, 0xB8)] }, fl (ow 4 (2 ^ 41)), .e4m3, _, _, _, by unfold Claims.OnlyFlight; decide, by decide, by decide, rfl, rfl, rfl⟩,
   ⟨ox0, oxf (ow 5 (2 ^ 38 + 2 ^ 28 + 2 ^ 18 + 2 ^ 17)), fl (ow 5 (2 ^ 38 + 2 ^ 28 + 2 ^ 18 + 2 ^ 17)), _, _, _, by unfold Claims.OnlyFlight; decide, rfl, rfl, rfl, by decide⟩,
   ⟨ox0, oxf (ow 6 0), fl (ow 6 0), by unfold Claims.OnlyFlight; decide⟩,
   ⟨ox0, oxf (ow 9 (2 ^ 38)) (fun x => { x with acc := [(3, 5)] }), fl (ow 9 (2 ^ 38)), by unfold Claims.OnlyFlight; decide⟩,
   ⟨ox0, oxf (ow 0xC (9 * 2 ^ 14)) (fun x => { x with acc := [(3, 5)] }), fl (ow 0xC (9 * 2 ^ 14)), .f32, by unfold Claims.OnlyFlight; decide, by decide⟩⟩

theorem witness_OxInstructionsComplete_2 :
    (∃ (o : OxId) (s : State) (f : OxFlight) (ft : Fmt), OnlyFlight s o.agent 4 f ∧ Mach.opFmt (f.word.extractLsb' 18 5).toNat = some ft)
    ∧ (∃ (o : OxId) (s : State) (f : OxFlight), OnlyFlight s o.agent 5 f)
    ∧ (∃ (o : OxId) (s : State) (f : OxFlight) (ft : Fmt), OnlyFlight s o.agent 0xC f ∧ Fmt.ofSpec (f.word.extractLsb' 14 4).toNat (f.word.getLsbD 18) = some ft) :=
  ⟨⟨ox0, oxf (ow 4 (2 ^ 41)) id { up with fm := [(0x020040000040, 0x38), (0x020040000041, 0xB8)] }, fl (ow 4 (2 ^ 41)), .e4m3, by unfold Claims.OnlyFlight; decide, by decide⟩,
   ⟨ox0, oxf (ow 5 (2 ^ 38 + 2 ^ 28 + 2 ^ 18 + 2 ^ 17)), fl (ow 5 (2 ^ 38 + 2 ^ 28 + 2 ^ 18 + 2 ^ 17)), by unfold Claims.OnlyFlight; decide⟩,
   ⟨ox0, oxf (ow 0xC (9 * 2 ^ 14)) (fun x => { x with acc := [(3, 5)] }), fl (ow 0xC (9 * 2 ^ 14)), .f32, by unfold Claims.OnlyFlight; decide, by decide⟩⟩

theorem witness_MmaPassesAndTheirCheck :
    (∃ (o : OxId) (errs : List OxError) (s : State) (f : OxFlight) (af : Fmt) (wf : Fmt) (bs : List Byte) (m' : Mach), MmaStreams s o.agent f af wf ∧ PassBytes s o.agent f af wf bs m' ∧ (mmaPass s o.agent f af wf bs errs).mismatch = false ∧ f.word.getLsbD 2 = false)
    ∧ (∃ (o : OxId) (errs : List OxError) (s : State) (f : OxFlight) (af : Fmt) (wf : Fmt) (bs : List Byte) (m' : Mach), MmaStreams s o.agent f af wf ∧ PassBytes s o.agent f af wf bs m' ∧ (mmaPass s o.agent f af wf bs errs).mismatch = true ∧ f.retry = false)
    ∧ (∃ (o : OxId) (errs : List OxError) (s : State) (f : OxFlight) (af : Fmt) (wf : Fmt) (bs : List Byte) (m' : Mach), MmaStreams s o.agent f af wf ∧ PassBytes s o.agent f af wf bs m' ∧ (mmaPass s o.agent f af wf bs errs).mismatch = true ∧ f.retry = true ∧ f.pass < 1024) :=
  ⟨⟨ox0, [], oxf (ow 8 0) (fun x => { x with w0 := wset }), fl (ow 8 0), .e4m3, .e4m3, List.replicate 32 0, (oxf (ow 8 0) (fun x => { x with w0 := wset })).m, by unfold Claims.MmaStreams; decide, by unfold Claims.PassBytes; decide, by decide +kernel, by decide⟩,
   ⟨ox0, [⟨0, 3, 0, 1, 5⟩], oxf (ow 8 0) (fun x => { x with w0 := wset }), fl (ow 8 0), .e4m3, .e4m3, List.replicate 32 0, (oxf (ow 8 0) (fun x => { x with w0 := wset })).m, by unfold Claims.MmaStreams; decide, by unfold Claims.PassBytes; decide, by decide +kernel, by decide⟩,
   ⟨ox0, [⟨0, 3, 0, 1, 5⟩], oxs (fun x => { x with w0 := wset, flight := [{ fl (ow 8 0) with retry := true }] }), { fl (ow 8 0) with retry := true }, .e4m3, .e4m3, List.replicate 32 0, (oxs (fun x => { x with w0 := wset, flight := [{ fl (ow 8 0) with retry := true }] })).m, by unfold Claims.MmaStreams; decide, by unfold Claims.PassBytes; decide, by decide +kernel, by decide⟩⟩

theorem witness_OxItemsAndService_1 :
    (∃ (o : OxId) (s : State) (w : BitVec 64) (n : Mach) (i : PoolItem), OxTurn s o.agent 2 w n ∧ RunsItem s o.agent i ∧ (s.m.ox o.agent).itemPoison = false ∧ Item.doneValid i.w = false)
    ∧ (∃ (o : OxId) (s : State) (w : BitVec 64) (i : PoolItem), RunsItem s o.agent i ∧ (s.m.ox o.agent).state = .running ∧ (s.m.ox o.agent).ret = .none ∧ s.m.oxHeld o.agent = false ∧ (s.m.ox o.agent).queue.head? = some w ∧ Mach.oxAssigned w = false ∧ (s.m.ox o.agent).flight = [])
    ∧ (∃ (o : OxId) (s : State), (s.m.ox o.agent).ramp = .up)
    ∧ (∃ (o : OxId) (s : State), (s.m.ox o.agent).ramp = .down)
    ∧ (∃ (o : OxId) (s : State), RegOpen s.m (oxReg o.agent 0) ∧ (s.m.ox o.agent).state = .disabled ∧ (s.m.ox o.agent).diagRunning = false ∧ (s.m.ox o.agent).diagOwed = false) :=
  ⟨⟨ox0, oxq (ow 2 0) id (up.modCollie 1024 fun c => { c with state := .running, pool := [({ id := 1, w := 0, queue := 0, place := .current 16 } : PoolItem)] }), ow 2 0, _, ({ id := 1, w := 0, queue := 0, place := .current 16 } : PoolItem), ⟨by decide, by decide, by decide, by decide, by decide, by decide, by decide, by decide, Prod.ext (by decide) rfl⟩, by unfold Claims.RunsItem; decide, by decide⟩,
   ⟨ox0, oxq (ow 3 0) id (up.modCollie 1024 fun c => { c with state := .running, pool := [({ id := 1, w := 0, queue := 0, place := .current 16 } : PoolItem)] }), ow 3 0, ({ id := 1, w := 0, queue := 0, place := .current 16 } : PoolItem), by unfold Claims.RunsItem; decide, by decide⟩,
   ⟨ox0, oxs fun x => { x with ramp := .up }, by decide⟩,
   ⟨ox0, oxs fun x => { x with ramp := .down }, by decide⟩,
   ⟨ox0, oxs fun x => { x with state := .disabled }, by unfold RegOpen; decide, by decide⟩⟩

theorem witness_OxItemsAndService_2 :
    (∃ (o : OxId) (s : State), RegOpen s.m (oxReg o.agent 0) ∧ (s.m.ox o.agent).state = .disabled ∧ (s.m.ox o.agent).diagRunning = false ∧ (s.m.ox o.agent).diagOwed = true)
    ∧ (∃ (o : OxId) (s : State), RegOpen s.m (oxReg o.agent 0) ∧ ((s.m.ox o.agent).state = .idle ∨ (s.m.ox o.agent).state = .running) ∧ (s.m.ox o.agent).ret = .none)
    ∧ (∃ (o : OxId) (s : State), RegOpen s.m (oxReg o.agent 0) ∧ ((s.m.ox o.agent).state = .quarantined ∨ (s.m.ox o.agent).state = .failed))
    ∧ (∃ (o : OxId) (s : State), RegOpen s.m (oxReg o.agent 0) ∧ ((s.m.ox o.agent).state = .quarantined ∨ (s.m.ox o.agent).state = .failed))
    ∧ (∃ (o : OxId) (s : State), RegOpen s.m (oxReg o.agent 0) ∧ ((s.m.ox o.agent).state = .quarantined ∨ (s.m.ox o.agent).state = .failed)) :=
  ⟨⟨ox0, oxs fun x => { x with state := .disabled, diagOwed := true }, by unfold RegOpen; decide, by decide⟩,
   ⟨ox0, oxs fun x => { x with state := .idle }, by unfold RegOpen; decide, by decide⟩,
   ⟨ox0, oxs fun x => { x with state := .failed }, by unfold RegOpen; decide, by decide⟩,
   ⟨ox0, oxs fun x => { x with state := .failed }, by unfold RegOpen; decide, by decide⟩,
   ⟨ox0, oxs fun x => { x with state := .failed }, by unfold RegOpen; decide, by decide⟩⟩

theorem witness_OxItemsAndService_3 :
    (∃ (o : OxId) (s : State), RegOpen s.m (oxReg o.agent 0) ∧ (s.m.ox o.agent).state = .running ∧ (s.m.ox o.agent).flight = [])
    ∧ (∃ (o : OxId) (s : State), RegOpen s.m (oxReg o.agent 0) ∧ (s.m.ox o.agent).state = .disabled ∧ (s.m.ox o.agent).diagRunning = false)
    ∧ (∃ (o : OxId) (s : State), RegOpen s.m (oxReg o.agent 0) ∧ (s.m.ox o.agent).state ≠ .disabled)
    ∧ (∃ (m : Mach) (a : Nat), (m.ox a).diagRunning = false ∧ m.rampHeld a = false)
    ∧ (∃ (m : Mach) (a : Nat), (m.ox a).diagRunning = false ∧ m.rampHeld a = false) :=
  ⟨⟨ox0, oxs id, by unfold RegOpen; decide, by decide⟩,
   ⟨ox0, oxs fun x => { x with state := .disabled }, by unfold RegOpen; decide, by decide⟩,
   ⟨ox0, oxs id, by unfold RegOpen; decide, by decide⟩,
   ⟨(oxs (fun x => { x with state := .disabled, diagOwed := true })).m, 1040, by decide⟩,
   ⟨(oxs (fun x => { x with state := .disabled, diagOwed := true })).m, 1040, by decide⟩⟩

theorem witness_OxItemsAndService_4 :
    (∃ (m : Mach) (a : Nat), (m.ox a).diagRunning = false ∧ m.rampHeld a = false)
    ∧ (∃ (m : Mach) (a : Nat), (m.ox a).diagRunning = false ∧ m.rampHeld a = false)
    ∧ (∃ (m : Mach) (a : Nat), (m.ox a).diagRunning = false ∧ m.rampHeld a = true)
    ∧ (∃ (o : OxId) (s : State), (s.m.ox o.agent).state = .quiescing ∧ (s.m.ox o.agent).ret = .quiesce ∧ (s.m.ox o.agent).flight = [] ∧ (s.m.collie (flockOf o.agent)).hosted = [])
    ∧ (∃ (o : OxId) (s : State), (s.m.ox o.agent).state = .quiescing ∧ (s.m.ox o.agent).ret = .force ∧ (s.m.ox o.agent).flight = []) :=
  ⟨⟨(oxs (fun x => { x with state := .disabled, diagOwed := true })).m, 1040, by decide⟩,
   ⟨(oxs (fun x => { x with state := .disabled, diagOwed := true })).m, 1040, by decide⟩,
   ⟨(oxs (fun x => { x with state := .disabled, diagOwed := true }) { (up.modDie 0 fun x => { x with fclk5 := 100000 }) with beat := { up.beat with slot := 3 }, regs := [(pwrReg 0x18, 16)] }).m, 1040, by decide⟩,
   ⟨ox0, oxs (fun x => { x with state := .quiescing, ret := .quiesce }) (up.modCollie 1024 fun c => { c with state := .running, pool := [({ id := 1, w := 0, queue := 0, place := .current 16 } : PoolItem)] }), by decide⟩,
   ⟨ox0, oxs (fun x => { x with state := .quiescing, ret := .force }) (up.modCollie 1024 fun c => { c with state := .running, pool := [({ id := 1, w := 0, queue := 0, place := .current 16 } : PoolItem)] }), by decide⟩⟩

theorem witness_OxItemsAndService_5 :
    (∃ (o : OxId) (s : State), (s.m.ox o.agent).diagRunning = true ∧ (s.m.ox o.agent).diagHeld = false ∧ (s.m.ox o.agent).ramp ≠ .up)
    ∧ (∃ (o : OxId) (s : State) (b : Fin 4) (r : Fin 34) (p : Fin 35) (q : Fin 35), (s.m.ox o.agent).diagRunning = true ∧ (s.m.ox o.agent).diagHeld = false ∧ (s.m.ox o.agent).ramp ≠ .up ∧ r.val < 32 ∧ p ≠ q ∧ FMap.get 0 (s.m.ox o.agent).repair b = 0 ∧ (s.m.ox o.agent).disableNext = false)
    ∧ (∃ (o : OxId) (s : State) (b : Fin 4) (r : Fin 34) (p : Fin 35), (s.m.ox o.agent).diagRunning = true ∧ (s.m.ox o.agent).diagHeld = false ∧ (s.m.ox o.agent).ramp ≠ .up ∧ r.val < 32 ∧ p.val < 33 ∧ FMap.get 0 (s.m.ox o.agent).repair b = 0 ∧ (s.m.ox o.agent).disableNext = false)
    ∧ (∃ (o : OxId) (s : State) (b : Fin 4) (r : Fin 34) (p : Fin 35), (s.m.ox o.agent).diagRunning = true ∧ (s.m.ox o.agent).diagHeld = false ∧ (s.m.ox o.agent).ramp ≠ .up ∧ r.val < 32 ∧ p.val < 33 ∧ FMap.get 0 (s.m.ox o.agent).repair b = 0 ∧ (s.m.ox o.agent).disableNext = false)
    ∧ (∃ (o : OxId) (s : State) (b : Fin 4) (cells : List OxCell), (s.m.ox o.agent).diagRunning = true ∧ (s.m.ox o.agent).diagHeld = false ∧ (s.m.ox o.agent).ramp ≠ .up ∧ (∀ x ∈ cells, x.array = b) ∧ (cells.map fun x => x.row).Nodup ∧ (cells.map fun x => x.col).Nodup ∧ 5 ≤ cells.length) :=
  ⟨⟨ox0, oxs (fun x => { x with state := .disabled, diagRunning := true }), by decide⟩,
   ⟨ox0, oxs (fun x => { x with state := .disabled, diagRunning := true }), 2, 4, 5, 6, by decide⟩,
   ⟨ox0, oxs (fun x => { x with state := .disabled, diagRunning := true }), 2, 4, 5, by decide⟩,
   ⟨ox0, oxs (fun x => { x with state := .disabled, diagRunning := true }), 2, 4, 5, by decide⟩,
   ⟨ox0, oxs (fun x => { x with state := .disabled, diagRunning := true }), 2, (List.range 5).map fun k => (⟨2, Fin.ofNat 34 k, Fin.ofNat 35 (3 * k)⟩ : OxCell), by decide⟩⟩

theorem witness_CollieItems_1 :
    (∃ (f : FlockId) (hen : Bool) (u : Nat) (s : State) (i : PoolItem), OneItem s f.base i ∧ i.place = .queued ∧ i.queue ≤ 4 ∧ Item.hen i.w = hen ∧ Item.waits i.w = false ∧ (if hen then u < 16 else 16 ≤ u ∧ u < 20) ∧ s.m.unitUp f.base u = true ∧ (∀ v, v < u → (if hen then v < 16 else 16 ≤ v) → s.m.unitUp f.base v = false))
    ∧ (∃ (f : FlockId) (h : Fin 16) (s : State), RegOpen s.m (Mach.colHenReg f.base h) ∧ s.m.slotOf f.base h = 1)
    ∧ (∃ (f : FlockId) (h : Fin 16) (s : State), RegOpen s.m (Mach.colHenReg f.base h) ∧ s.m.slotOf f.base h ≠ 1)
    ∧ (∃ (f : FlockId) (h : Fin 16) (s : State), RegOpen s.m (Mach.colHenReg f.base h) ∧ s.m.slotOf f.base h ≠ 2)
    ∧ (∃ (f : FlockId) (h : Fin 16) (s : State) (i : PoolItem), RegOpen s.m (Mach.colHenReg f.base h) ∧ s.m.slotOf f.base h = 2 ∧ (s.m.collie f.base).pool = [i] ∧ i.place = .current h ∧ Item.doneValid i.w = false) :=
  ⟨⟨f0, false, 16, col (fun c => { c with pool := [item 0 .queued] }) oxIdle, item 0 .queued, by unfold Claims.OneItem; decide, by decide⟩,
   ⟨f0, 3, col fun c => { c with slots := [(3, 1)] }, by unfold RegOpen; decide, by decide⟩,
   ⟨f0, 3, col fun c => { c with slots := [(3, 2)] }, by unfold RegOpen; decide, by decide⟩,
   ⟨f0, 3, col fun c => { c with slots := [(3, 1)] }, by unfold RegOpen; decide, by decide⟩,
   ⟨f0, 3, col fun c => { c with slots := [(3, 2)], pool := [item 1 (.current 3)] }, item 1 (.current 3), by unfold RegOpen; decide, by decide⟩⟩

theorem witness_CollieItems_2 :
    (∃ (f : FlockId) (h : Fin 16) (s : State) (i : PoolItem) (d : _) (j : _), RegOpen s.m (Mach.colHenReg f.base h) ∧ s.m.slotOf f.base h = 2 ∧ (s.m.collie f.base).pool = [i] ∧ i.place = .current h ∧ d < 4 ∧ Item.doneValid i.w = true ∧ Item.doneObj i.w = 4096 * (d + 1) + j ∧ j < 4096 ∧ s.m.dieOut d = false ∧ (s.m.sync d).waits = [])
    ∧ (∃ (f : FlockId) (h : Fin 16) (s : State) (i : PoolItem) (fc : BitVec 8), RegOpen s.m (Mach.colHenReg f.base h) ∧ s.m.slotOf f.base h = 2 ∧ (s.m.collie f.base).pool = [i] ∧ i.place = .current h ∧ 0x80 ≤ fc.toNat ∧ (s.m.collie f.base).hosted = [])
    ∧ (∃ (f : FlockId) (s : State) (r : ItemRet) (i : PoolItem), (s.m.collie f.base).returns = [r] ∧ (s.m.collie f.base).pool = [i] ∧ r.w = none ∧ r.id = i.id ∧ Item.waits i.w = false ∧ r.ev = .plain)
    ∧ (∃ (f : FlockId) (s : State) (r : ItemRet) (i : PoolItem), (s.m.collie f.base).returns = [r] ∧ (s.m.collie f.base).pool = [i] ∧ r.w = none ∧ r.id = i.id ∧ Item.waits i.w = false ∧ r.ev = .raised ∧ Item.idem i.w = true ∧ Item.retry i.w < Item.retryMax i.w)
    ∧ (∃ (f : FlockId) (s : State) (r : ItemRet) (i : PoolItem), (s.m.collie f.base).returns = [r] ∧ (s.m.collie f.base).pool = [i] ∧ r.w = none ∧ r.id = i.id ∧ Item.waits i.w = false ∧ r.ev = .raised ∧ Item.idem i.w = false ∧ (s.m.collie f.base).fails.length < 32 ∧ s.m.bit (flockReg f.base 0x18) 15 = false) :=
  ⟨⟨f0, 15, col fun c => { c with slots := [(15, 2)], pool := [item 0x3FFF41 (.current 15)] }, item 0x3FFF41 (.current 15), 2, 4095, by unfold RegOpen; decide, by decide⟩,
   ⟨f0, 3, col fun c => { c with slots := [(3, 2)], pool := [item 1 (.current 3)] }, item 1 (.current 3), 0x80, by unfold RegOpen; decide, by decide⟩,
   ⟨f0, col fun c => { c with returns := [⟨1, .plain, 1040, 0, none⟩], pool := [item 0 .ended] }, ⟨1, .plain, 1040, 0, none⟩, item 0 .ended, by decide⟩,
   ⟨f0, col fun c => { c with returns := [⟨1, .raised, 1027, 0, none⟩], pool := [item (5 + 2 ^ 125) .ended] }, ⟨1, .raised, 1027, 0, none⟩, item (5 + 2 ^ 125) .ended, by decide⟩,
   ⟨f0, col fun c => { c with returns := [⟨1, .raised, 1027, 0, none⟩], pool := [item 1 .ended] }, ⟨1, .raised, 1027, 0, none⟩, item 1 .ended, by decide⟩⟩

theorem witness_CollieSteals_1 :
    (∃ (f : FlockId) (u : Fin 20) (v : Nat) (s : State) (i : PoolItem), OneItem s f.base i ∧ i.place = .next v ∧ v ≠ u.val ∧ (v < 16 ↔ u.val < 16) ∧ Item.pin i.w = false ∧ i.queue ≠ 4 ∧ s.m.unitUp f.base u = true ∧ (16 ≤ u.val → (s.m.ox (f.base + u)).tokenWait = false ∧ s.m.oxBarred (f.base + u) = false ∧ s.m.rampHeld (f.base + u) = false))
    ∧ (∃ (f : FlockId) (s : State) (u : Nat), s.m.collieActs f.base = true ∧ s.m.bit (flockReg f.base 8) 0 = true ∧ (s.m.collie f.base).roundOx = none ∧ (s.m.collie f.base).hosted = [] ∧ (s.m.collie f.base).pool = [] ∧ 16 ≤ u ∧ u < 20 ∧ s.m.stealIdle f.base u = true)
    ∧ (∃ (f : FlockId) (s : State) (u : Nat) (v : Nat) (w : Nat) (rest : List Nat) (k : Nat), s.m.collieActs f.base = true ∧ 16 ≤ u ∧ u < 20 ∧ s.m.stealIdle f.base u = true ∧ (s.m.collie f.base).hosted.length < 8 ∧ (s.m.collie f.base).roundOx = some { targets := v :: w :: rest, probes := k, xdie := false } ∧ s.m.stealable f.base v false false = none)
    ∧ (∃ (f : FlockId) (s : State) (v : Nat) (rest : List Nat) (k : Nat) (i : PoolItem), s.m.collieActs f.base = true ∧ v ≠ f.base ∧ (∃ u, 16 ≤ u ∧ u < 20 ∧ s.m.stealIdle f.base u = true) ∧ (s.m.collie f.base).hosted.length < 8 ∧ (s.m.collie f.base).roundOx = some { targets := v :: rest, probes := k, xdie := false } ∧ s.m.stealable f.base v false false = some i ∧ Item.waits i.w = false)
    ∧ (∃ (f : FlockId) (s : State) (t : Round) (u : Nat), s.m.collieActs f.base = true ∧ (s.m.collie f.base).roundOx = some t ∧ t.targets ≠ [] ∧ 16 ≤ u ∧ u < 20 ∧ s.m.stealIdle f.base u = true ∧ 8 ≤ (s.m.collie f.base).hosted.length) :=
  ⟨⟨f0, 16, 17, col (fun c => { c with pool := [item 0 (.next 17)] }) oxIdle, item 0 (.next 17), by unfold Claims.OneItem; decide, by decide⟩,
   ⟨f0, col id { oxIdle with regs := [(flockReg 1024 8, 1)] }, 16, by decide⟩,
   ⟨f0, col (fun c => { c with roundOx := some { targets := [1056, 1088], probes := 1, xdie := false } }) oxIdle, 16, 1056, 1088, [], 1, by decide⟩,
   ⟨f0, col (fun c => { c with roundOx := some { targets := [1056, 1088], probes := 1, xdie := false } }) ({ oxIdle with regs := [(flockReg 1024 8, 0x401), (flockReg 1056 8, 0x401)] }.modCollie 1056 fun c => { c with state := .running, pool := (List.range 9).map fun k => ({ id := k, w := 2, queue := 0 } : PoolItem) }), 1056, [1088], 1, { id := 0, w := 2, queue := 0 }, by decide, by decide, ⟨16, by decide, by decide, by decide⟩, by decide⟩,
   ⟨f0, col (fun c => { c with roundOx := some { targets := [1056], probes := 1, xdie := false }, hosted := (List.range 8).map fun k => { victim := 1056, id := k, w := 2, unit := 0 } }) { oxIdle with regs := [(flockReg 1024 8, 1)] }, { targets := [1056], probes := 1, xdie := false }, 16, by decide⟩⟩

theorem witness_CollieSteals_2 :
    (∃ (f : FlockId) (u : Fin 20) (s : State) (x : Hosted), (s.m.collie f.base).hosted = [x] ∧ x.unit = u.val ∧ x.started = false ∧ x.back = false ∧ x.copies = 0 ∧ x.copyErr = false ∧ s.m.collieActs f.base = true ∧ s.m.unitUp f.base u = true)
    ∧ (∃ (f : FlockId) (u : Fin 20) (s : State) (x : Hosted), (s.m.collie f.base).hosted = [x] ∧ x.unit = u.val ∧ x.back = true ∧ x.copies = 0 ∧ x.copyErr = false ∧ x.victim ≠ f.base ∧ s.m.flockOn x.victim = true ∧ (s.m.die (agentDie x.victim - 1)).dead = false ∧ Item.doneValid x.w = false) :=
  ⟨⟨f0, 16, col (fun c => { c with hosted := [({ victim := 1056, id := 7, w := 2, unit := 16 } : Hosted)] }) oxIdle, ({ victim := 1056, id := 7, w := 2, unit := 16 } : Hosted), by decide⟩,
   ⟨f0, 16, col (fun c => { c with hosted := [{ ({ victim := 1056, id := 7, w := 2, unit := 16 } : Hosted) with back := true }] }) oxIdle, { ({ victim := 1056, id := 7, w := 2, unit := 16 } : Hosted) with back := true }, by decide⟩⟩

theorem witness_CollieServiceAndSync_1 :
    (∃ (f : FlockId) (s : State), RegOpen s.m (flockReg f.base 0) ∧ HensDisabled s f.base)
    ∧ (∃ (f : FlockId) (s : State), RegOpen s.m (flockReg f.base 0) ∧ HensDisabled s f.base ∧ (s.m.collie f.base).state = .running ∧ (s.m.collie f.base).hosted = [])
    ∧ (∃ (f : FlockId) (s : State), RegOpen s.m (flockReg f.base 0) ∧ HensDisabled s f.base ∧ (s.m.collie f.base).state = .running ∧ (s.m.collie f.base).hosted = [])
    ∧ (∃ (f : FlockId) (s : State), (s.m.collie f.base).state = .quiescing ∧ HensDisabled s f.base ∧ (∀ u, u < 4 → (s.m.ox (f.base + 16 + u)).state = .disabled) ∧ (s.m.collie f.base).hosted = [] ∧ (∀ i ∈ (s.m.collie f.base).pool, i.place = .queued) ∧ (s.m.collie f.base).returns = [] ∧ (∀ d ∈ (s.m.mule (f.base + 21)).descs, d.collie = none))
    ∧ (∃ (f : FlockId) (s : State), (s.m.collie f.base).returns ≠ []) :=
  ⟨⟨f0, st (hensIn .disabled), by unfold RegOpen; decide, by unfold Claims.HensDisabled; decide⟩,
   ⟨f0, col id (hensIn .disabled), by unfold RegOpen; decide, by unfold Claims.HensDisabled; decide, by decide⟩,
   ⟨f0, col id (hensIn .disabled), by unfold RegOpen; decide, by unfold Claims.HensDisabled; decide, by decide⟩,
   ⟨f0, col (fun c => { c with state := .quiescing, pool := [item 0 .queued] }) (hensIn .disabled), by decide, by unfold Claims.HensDisabled; decide, by decide⟩,
   ⟨f0, col (fun c => { c with returns := [{ id := 1, ev := .plain, engine := 1024, stolenBy := 0 }] }), by decide⟩⟩

theorem witness_CollieServiceAndSync_2 :
    (∃ (f : FlockId) (u : Nat) (s : State), (s.m.hen (f.base + u)).state = .running ∧ u < 16)
    ∧ (∃ (f : FlockId) (g : FlockId) (s : State) (i : PoolItem), RegOpen s.m (flockReg f.base 0) ∧ (s.m.collie f.base).state = .quiesced ∧ g.base ≠ f.base ∧ s.m.fld (flockReg f.base 0x14) 0 13 = collieOf g.base ∧ (s.m.collie f.base).pool = [i] ∧ i.place = .queued ∧ i.queue < 4 ∧ (s.m.collie g.base).state = .running ∧ s.m.flockOn g.base = true ∧ (s.m.die (agentDie g.base - 1)).dead = false ∧ (s.m.collie g.base).pool.length < 1024 ∧ s.m.badItem i.w = false ∧ Item.waits i.w = false)
    ∧ (∃ (f : FlockId) (s : State), RegOpen s.m (flockReg f.base 0) ∧ (s.m.collie f.base).state ≠ .quiesced)
    ∧ (∃ (f : FlockId) (s : State) (l : Nat), s.m.flockOn f.base = true ∧ l = Mach.flockMemBase f.base / 64 + (s.m.collie f.base).scrub.toNat)
    ∧ (∃ (d : Fin 4) (a : Nat) (rd : Nat) (i : Nat) (t : BitVec 24) (sc : BitVec 2) (s : State), (s.m.sync d).waits = [{ index := i, thresh := t, scope := sc, who := .hen a, polled := true }] ∧ (∃ x, (s.m.hen a).wait = .swait rd x d i t sc) ∧ ((s.m.syncObj d i).count - t).toNat < 2 ^ 23 ∧ (s.m.syncObj d i).rel = none ∧ rd ≠ 0 ∧ (s.m.hen a).state = .running) :=
  ⟨⟨f0, 15, col id (hensIn .running), by decide⟩,
   ⟨f0, f1, st (({ up with regs := [(flockReg 1024 0x14, BitVec.ofNat 32 (collieOf 1056))] }.modCollie 1056 fun c => { c with state := .running }).modCollie 1024 fun c => { c with pool := [item 0 .queued] }), item 0 .queued, by unfold RegOpen; decide, by decide⟩,
   ⟨f0, col id, by unfold RegOpen; decide, by decide⟩,
   ⟨f0, col (fun c => { c with scrub := 0x1FFFF }) { up with fmUpset := [(0x0200407FFFC0 / 64, 1)] }, _, by decide, rfl⟩,
   ⟨0, 1027, 3, 5, 0, 0, st { up with hens := [(1027, { state := .running, wait := .swait 3 0x77 0 5 0 0 })], syncs := [(0, { waits := [{ index := 5, thresh := 0, scope := 0, who := .hen 1027, polled := true }] })] }, by decide, ⟨0x77, by decide⟩, by decide⟩⟩

theorem witness_CollieServiceAndSync_3 :
    (∃ (d : Fin 4) (i : Fin 4096) (s : State), RegOpen s.m (syncReg d (0x4000 + 4 * i)) ∧ (s.m.sync d).waits = [])
    ∧ (∃ (d : Fin 4) (i : Fin 4096) (s : State) (j : _), RegOpen s.m (syncReg d (0x4000 + 4 * i)) ∧ (s.m.sync d).waits = [] ∧ j ≠ i.val) :=
  ⟨⟨3, 0xFFF, st up, by unfold RegOpen; decide, by decide⟩,
   ⟨3, 0xFFF, st up, 4, by unfold RegOpen; decide, by decide⟩⟩

def MoveRowMet (op : Nat) : Prop :=
  (∃ (u : MuleId) (k : Nat) (i : Nat) (s : State) (d : Desc) (ch : Chunk), MuleHas s u.agent k d ∧ Desc.op d.w = op ∧ (op = 3 ∨ op = 4 → IndexRead s d i) ∧ ch = chunkAt d.w d.progress i ∧ (op ≠ 5 → FlockByte s ch.src ∧ (lineRead s d false ch.src).2 = false) ∧ FlockByte s ch.dst ∧ d.progress < Desc.total d.w ∧ (∀ p, d.out = some p → p.bad = none ∧ FlockByte s p.pa ∧ Mach.outTakes d.w p ch = true))
  ∧ (∃ (u : MuleId) (k : Nat) (i : Nat) (s : State) (d : Desc) (ch : Chunk) (p : _), MuleHas s u.agent k d ∧ Desc.op d.w = op ∧ (op = 3 ∨ op = 4 → IndexRead s d i) ∧ ch = chunkAt d.w d.progress i ∧ (op ≠ 5 → FlockByte s ch.src ∧ (lineRead s d false ch.src).2 = false) ∧ FlockByte s ch.dst ∧ d.progress < Desc.total d.w ∧ d.out = some p ∧ p.bad = none ∧ FlockByte s p.pa ∧ p.pa / 64 ≠ ch.dst / 64 ∧ p.pa / 64 ≠ ch.src / 64 ∧ d.progress + ch.len < Desc.total d.w)
  ∧ (∃ (u : MuleId) (k : Nat) (s : State) (d : Desc) (p : OutLine), MuleHas s u.agent k d ∧ Desc.op d.w = op ∧ d.out = some p ∧ p.bad = none ∧ FlockByte s p.pa ∧ Desc.total d.w ≤ d.progress)

theorem witness_MuleDataMovement_1 :
    MoveRowMet 1
    ∧ MoveRowMet 2
    ∧ MoveRowMet 3
    ∧ MoveRowMet 4
    ∧ MoveRowMet 5 :=
  ⟨⟨⟨mu0, 0, 0, mule { descs := [desc (line [1, 0x020040000100, 0x020040000200, 7])] } ({ up with fm := [(0x020040000100, 0x11), (0x020040000101, 0x22), (0x020040000103, 0x44)] }), desc (line [1, 0x020040000100, 0x020040000200, 7]), _, by unfold Claims.MuleHas; decide, by decide, fun h => absurd h (by decide), rfl, fun _ => ⟨⟨by decide, flockBase 0 0, by decide, by decide, by decide⟩, by decide⟩, ⟨by decide, flockBase 0 0, by decide, by decide, by decide⟩, by decide, (fun _ h => nomatch h)⟩, ⟨mu0, 0, 0, mule { descs := [{ desc (line [1, 0x020040000100, 0x020040000200, 99]) with out := some ({ pa := 0x020040000400, elem := 0, data := 0x1234#512, mask := 3#64 } : OutLine) }] } ({ up with fm := [(0x020040000100, 0x11), (0x020040000101, 0x22), (0x020040000103, 0x44)] }), { desc (line [1, 0x020040000100, 0x020040000200, 99]) with out := some ({ pa := 0x020040000400, elem := 0, data := 0x1234#512, mask := 3#64 } : OutLine) }, _, ({ pa := 0x020040000400, elem := 0, data := 0x1234#512, mask := 3#64 } : OutLine), by unfold Claims.MuleHas; decide, by decide, fun h => absurd h (by decide), rfl, fun _ => ⟨⟨by decide, flockBase 0 0, by decide, by decide, by decide⟩, by decide⟩, ⟨by decide, flockBase 0 0, by decide, by decide, by decide⟩, by decide, by decide, by decide, ⟨by decide, flockBase 0 0, by decide, by decide, by decide⟩, by decide⟩, ⟨mu0, 0, mule { descs := [{ desc (line [1, 0x020040000100, 0x020040000200, 99]) with out := some ({ pa := 0x020040000400, elem := 0, data := 0x1234#512, mask := 3#64 } : OutLine), progress := 1000 }] } ({ up with fm := [(0x020040000100, 0x11), (0x020040000101, 0x22), (0x020040000103, 0x44)] }), { desc (line [1, 0x020040000100, 0x020040000200, 99]) with out := some ({ pa := 0x020040000400, elem := 0, data := 0x1234#512, mask := 3#64 } : OutLine), progress := 1000 }, ({ pa := 0x020040000400, elem := 0, data := 0x1234#512, mask := 3#64 } : OutLine), by unfold Claims.MuleHas; decide, by decide, by decide, by decide, ⟨by decide, flockBase 0 0, by decide, by decide, by decide⟩, by decide⟩⟩,
   ⟨⟨mu0, 0, 0, mule { descs := [desc (line [2, 0x020040000100, 0x020040000200, 7])] } ({ up with fm := [(0x020040000100, 0x11), (0x020040000101, 0x22), (0x020040000103, 0x44)] }), desc (line [2, 0x020040000100, 0x020040000200, 7]), _, by unfold Claims.MuleHas; decide, by decide, fun h => absurd h (by decide), rfl, fun _ => ⟨⟨by decide, flockBase 0 0, by decide, by decide, by decide⟩, by decide⟩, ⟨by decide, flockBase 0 0, by decide, by decide, by decide⟩, by decide, (fun _ h => nomatch h)⟩, ⟨mu0, 0, 0, mule { descs := [{ desc (line [2, 0x020040000100, 0x020040000200, 99]) with out := some ({ pa := 0x020040000400, elem := 0, data := 0x1234#512, mask := 3#64 } : OutLine) }] } ({ up with fm := [(0x020040000100, 0x11), (0x020040000101, 0x22), (0x020040000103, 0x44)] }), { desc (line [2, 0x020040000100, 0x020040000200, 99]) with out := some ({ pa := 0x020040000400, elem := 0, data := 0x1234#512, mask := 3#64 } : OutLine) }, _, ({ pa := 0x020040000400, elem := 0, data := 0x1234#512, mask := 3#64 } : OutLine), by unfold Claims.MuleHas; decide, by decide, fun h => absurd h (by decide), rfl, fun _ => ⟨⟨by decide, flockBase 0 0, by decide, by decide, by decide⟩, by decide⟩, ⟨by decide, flockBase 0 0, by decide, by decide, by decide⟩, by decide, by decide, by decide, ⟨by decide, flockBase 0 0, by decide, by decide, by decide⟩, by decide⟩, ⟨mu0, 0, mule { descs := [{ desc (line [2, 0x020040000100, 0x020040000200, 99]) with out := some ({ pa := 0x020040000400, elem := 0, data := 0x1234#512, mask := 3#64 } : OutLine), progress := 1000 }] } ({ up with fm := [(0x020040000100, 0x11), (0x020040000101, 0x22), (0x020040000103, 0x44)] }), { desc (line [2, 0x020040000100, 0x020040000200, 99]) with out := some ({ pa := 0x020040000400, elem := 0, data := 0x1234#512, mask := 3#64 } : OutLine), progress := 1000 }, ({ pa := 0x020040000400, elem := 0, data := 0x1234#512, mask := 3#64 } : OutLine), by unfold Claims.MuleHas; decide, by decide, by decide, by decide, ⟨by decide, flockBase 0 0, by decide, by decide, by decide⟩, by decide⟩⟩,
   ⟨⟨mu0, 0, 0, mule { descs := [desc (line [3, 0x020040000100, 0x020040000200, 0x020040000300, 0, 4])] } ({ up with fm := [(0x020040000100, 0x11), (0x020040000101, 0x22), (0x020040000103, 0x44)] }), desc (line [3, 0x020040000100, 0x020040000200, 0x020040000300, 0, 4]), _, by unfold Claims.MuleHas; decide, by decide, fun _ => ⟨_, rfl, by decide, ⟨by decide, flockBase 0 0, by decide, by decide, by decide⟩, by decide, by decide⟩, rfl, fun _ => ⟨⟨by decide, flockBase 0 0, by decide, by decide, by decide⟩, by decide⟩, ⟨by decide, flockBase 0 0, by decide, by decide, by decide⟩, by decide, (fun _ h => nomatch h)⟩, ⟨mu0, 0, 0, mule { descs := [{ desc (line [3, 0x020040000100, 0x020040000200, 0x020040000300, 2, 4]) with out := some ({ pa := 0x020040000400, elem := 0, data := 0x1234#512, mask := 3#64 } : OutLine) }] } ({ up with fm := [(0x020040000100, 0x11), (0x020040000101, 0x22), (0x020040000103, 0x44)] }), { desc (line [3, 0x020040000100, 0x020040000200, 0x020040000300, 2, 4]) with out := some ({ pa := 0x020040000400, elem := 0, data := 0x1234#512, mask := 3#64 } : OutLine) }, _, ({ pa := 0x020040000400, elem := 0, data := 0x1234#512, mask := 3#64 } : OutLine), by unfold Claims.MuleHas; decide, by decide, fun _ => ⟨_, rfl, by decide, ⟨by decide, flockBase 0 0, by decide, by decide, by decide⟩, by decide, by decide⟩, rfl, fun _ => ⟨⟨by decide, flockBase 0 0, by decide, by decide, by decide⟩, by decide⟩, ⟨by decide, flockBase 0 0, by decide, by decide, by decide⟩, by decide, by decide, by decide, ⟨by decide, flockBase 0 0, by decide, by decide, by decide⟩, by decide⟩, ⟨mu0, 0, mule { descs := [{ desc (line [3, 0x020040000100, 0x020040000200, 0x020040000300, 2, 4]) with out := some ({ pa := 0x020040000400, elem := 0, data := 0x1234#512, mask := 3#64 } : OutLine), progress := 1000 }] } ({ up with fm := [(0x020040000100, 0x11), (0x020040000101, 0x22), (0x020040000103, 0x44)] }), { desc (line [3, 0x020040000100, 0x020040000200, 0x020040000300, 2, 4]) with out := some ({ pa := 0x020040000400, elem := 0, data := 0x1234#512, mask := 3#64 } : OutLine), progress := 1000 }, ({ pa := 0x020040000400, elem := 0, data := 0x1234#512, mask := 3#64 } : OutLine), by unfold Claims.MuleHas; decide, by decide, by decide, by decide, ⟨by decide, flockBase 0 0, by decide, by decide, by decide⟩, by decide⟩⟩,
   ⟨⟨mu0, 0, 0, mule { descs := [desc (line [4, 0x020040000100, 0x020040000200, 0x020040000300, 0, 4])] } ({ up with fm := [(0x020040000100, 0x11), (0x020040000101, 0x22), (0x020040000103, 0x44)] }), desc (line [4, 0x020040000100, 0x020040000200, 0x020040000300, 0, 4]), _, by unfold Claims.MuleHas; decide, by decide, fun _ => ⟨_, rfl, by decide, ⟨by decide, flockBase 0 0, by decide, by decide, by decide⟩, by decide, by decide⟩, rfl, fun _ => ⟨⟨by decide, flockBase 0 0, by decide, by decide, by decide⟩, by decide⟩, ⟨by decide, flockBase 0 0, by decide, by decide, by decide⟩, by decide, (fun _ h => nomatch h)⟩, ⟨mu0, 0, 0, mule { descs := [{ desc (line [4, 0x020040000100, 0x020040000200, 0x020040000300, 2, 4]) with out := some ({ pa := 0x020040000400, elem := 0, data := 0x1234#512, mask := 3#64 } : OutLine) }] } ({ up with fm := [(0x020040000100, 0x11), (0x020040000101, 0x22), (0x020040000103, 0x44)] }), { desc (line [4, 0x020040000100, 0x020040000200, 0x020040000300, 2, 4]) with out := some ({ pa := 0x020040000400, elem := 0, data := 0x1234#512, mask := 3#64 } : OutLine) }, _, ({ pa := 0x020040000400, elem := 0, data := 0x1234#512, mask := 3#64 } : OutLine), by unfold Claims.MuleHas; decide, by decide, fun _ => ⟨_, rfl, by decide, ⟨by decide, flockBase 0 0, by decide, by decide, by decide⟩, by decide, by decide⟩, rfl, fun _ => ⟨⟨by decide, flockBase 0 0, by decide, by decide, by decide⟩, by decide⟩, ⟨by decide, flockBase 0 0, by decide, by decide, by decide⟩, by decide, by decide, by decide, ⟨by decide, flockBase 0 0, by decide, by decide, by decide⟩, by decide⟩, ⟨mu0, 0, mule { descs := [{ desc (line [4, 0x020040000100, 0x020040000200, 0x020040000300, 2, 4]) with out := some ({ pa := 0x020040000400, elem := 0, data := 0x1234#512, mask := 3#64 } : OutLine), progress := 1000 }] } ({ up with fm := [(0x020040000100, 0x11), (0x020040000101, 0x22), (0x020040000103, 0x44)] }), { desc (line [4, 0x020040000100, 0x020040000200, 0x020040000300, 2, 4]) with out := some ({ pa := 0x020040000400, elem := 0, data := 0x1234#512, mask := 3#64 } : OutLine), progress := 1000 }, ({ pa := 0x020040000400, elem := 0, data := 0x1234#512, mask := 3#64 } : OutLine), by unfold Claims.MuleHas; decide, by decide, by decide, by decide, ⟨by decide, flockBase 0 0, by decide, by decide, by decide⟩, by decide⟩⟩,
   ⟨⟨mu0, 0, 0, mule { descs := [desc (line [5, 0x020040000100, 0x020040000200, 7])] } ({ up with fm := [(0x020040000100, 0x11), (0x020040000101, 0x22), (0x020040000103, 0x44)] }), desc (line [5, 0x020040000100, 0x020040000200, 7]), _, by unfold Claims.MuleHas; decide, by decide, fun h => absurd h (by decide), rfl, fun h => absurd rfl h, ⟨by decide, flockBase 0 0, by decide, by decide, by decide⟩, by decide, (fun _ h => nomatch h)⟩, ⟨mu0, 0, 0, mule { descs := [{ desc (line [5, 0x020040000100, 0x020040000200, 99]) with out := some ({ pa := 0x020040000400, elem := 0, data := 0x1234#512, mask := 3#64 } : OutLine) }] } ({ up with fm := [(0x020040000100, 0x11), (0x020040000101, 0x22), (0x020040000103, 0x44)] }), { desc (line [5, 0x020040000100, 0x020040000200, 99]) with out := some ({ pa := 0x020040000400, elem := 0, data := 0x1234#512, mask := 3#64 } : OutLine) }, _, ({ pa := 0x020040000400, elem := 0, data := 0x1234#512, mask := 3#64 } : OutLine), by unfold Claims.MuleHas; decide, by decide, fun h => absurd h (by decide), rfl, fun h => absurd rfl h, ⟨by decide, flockBase 0 0, by decide, by decide, by decide⟩, by decide, by decide, by decide, ⟨by decide, flockBase 0 0, by decide, by decide, by decide⟩, by decide⟩, ⟨mu0, 0, mule { descs := [{ desc (line [5, 0x020040000100, 0x020040000200, 99]) with out := some ({ pa := 0x020040000400, elem := 0, data := 0x1234#512, mask := 3#64 } : OutLine), progress := 1000 }] } ({ up with fm := [(0x020040000100, 0x11), (0x020040000101, 0x22), (0x020040000103, 0x44)] }), { desc (line [5, 0x020040000100, 0x020040000200, 99]) with out := some ({ pa := 0x020040000400, elem := 0, data := 0x1234#512, mask := 3#64 } : OutLine), progress := 1000 }, ({ pa := 0x020040000400, elem := 0, data := 0x1234#512, mask := 3#64 } : OutLine), by unfold Claims.MuleHas; decide, by decide, by decide, by decide, ⟨by decide, flockBase 0 0, by decide, by decide, by decide⟩, by decide⟩⟩⟩

theorem witness_MuleDataMovement_2 :
    (∃ (u : MuleId) (k : Nat) (sa : Nat) (l : Nat) (s : State) (d : Desc) (ch : Chunk), MuleHas s u.agent k d ∧ Desc.op d.w = 6 ∧ ch = chunkAt d.w d.progress 0 ∧ FlockByte s ch.src ∧ (lineRead s d false ch.src).2 = false ∧ ch.dst < 2 ^ 56 ∧ s.m.target ch.dst = .home sa ∧ s.m.targetDead (.home sa) = false ∧ s.m.targetHeld (.home sa) = false ∧ l = sa / 64 ∧ l ∉ s.m.tier.flashStall ∧ s.m.deepHeld l true = false ∧ d.out = none ∧ d.progress < Desc.total d.w ∧ d.progress + ch.len < Desc.total d.w)
    ∧ (∃ (u : MuleId) (k : Nat) (sa : Nat) (l : Nat) (s : State) (d : Desc) (ch : Chunk), MuleHas s u.agent k d ∧ Desc.op d.w = 6 ∧ ch = chunkAt d.w d.progress 0 ∧ FlockByte s ch.src ∧ (lineRead s d false ch.src).2 = false ∧ ch.dst < 2 ^ 56 ∧ s.m.target ch.dst = .home sa ∧ s.m.targetDead (.home sa) = false ∧ s.m.targetHeld (.home sa) = false ∧ l = sa / 64 ∧ l ∉ s.m.tier.flashStall ∧ s.m.deepHeld l true = false ∧ d.out = none ∧ d.progress < Desc.total d.w ∧ Desc.total d.w ≤ d.progress + ch.len)
    ∧ (∃ (w : BitVec 512) (x : Nat) (y : Nat) (z : Nat) (v : Nat), Desc.op w = 1 ∧ Desc.isVolatile w = false ∧ x < Desc.xlen w ∧ y < Desc.ycnt w ∧ z < Desc.zcnt w ∧ v < Desc.wcnt w) :=
  ⟨⟨mu0, 0, 0x010000000040, hl, mule { descs := [desc (line [6, 0x020040000100, 0x40, 99])] } ({ up with fm := [(0x020040000100, 0x11), (0x020040000101, 0x22), (0x020040000103, 0x44)] }), desc (line [6, 0x020040000100, 0x40, 99]), _, by unfold Claims.MuleHas; decide, by decide, rfl, ⟨by decide, flockBase 0 0, by decide, by decide, by decide⟩, by decide⟩,
   ⟨mu0, 0, 0x010000000040, hl, mule { descs := [desc (line [6, 0x020040000100, 0x40, 7])] } ({ up with fm := [(0x020040000100, 0x11), (0x020040000101, 0x22), (0x020040000103, 0x44)] }), desc (line [6, 0x020040000100, 0x40, 7]), _, by unfold Claims.MuleHas; decide, by decide, rfl, ⟨by decide, flockBase 0 0, by decide, by decide, by decide⟩, by decide⟩,
   ⟨line [1, 0, 0, 7 + 2 * 2 ^ 24 + 2 ^ 40 + 2 ^ 52], 7, 2, 1, 1, by decide⟩⟩

theorem witness_MuleDescriptorsAndService_1 :
    (∃ (u : MuleId) (s : State) (d : Desc), (s.m.mule u.agent).state = .running ∧ s.m.muleOn u.agent = true ∧ s.m.inLean = false ∧ (s.m.mule u.agent).q0Halted = false ∧ (s.m.mule u.agent).descs = [d] ∧ d.started = none ∧ d.queue < 4)
    ∧ (∃ (u : MuleId) (k : Nat) (s : State) (d : Desc), (s.m.mule u.agent).descs = [d] ∧ d.started = some k ∧ d.finished = true ∧ d.err = none ∧ d.unlanded = [] ∧ d.collie = none ∧ (s.m.mule u.agent).q0Halted = false ∧ wordFld d.w 0 9 1 = 0)
    ∧ (∃ (u : MuleId) (k : Nat) (s : State) (d : Desc) (e : _) (i : _), (s.m.mule u.agent).descs = [d] ∧ d.started = some k ∧ d.finished = true ∧ d.err = none ∧ d.unlanded = [] ∧ d.collie = none ∧ (s.m.mule u.agent).q0Halted = false ∧ e < 4 ∧ i < 4096 ∧ wordFld d.w 0 9 1 = 1 ∧ wordFld d.w 0 12 15 = 4096 * (e + 1) + i ∧ s.m.dieOut e = false ∧ (s.m.sync e).waits = [])
    ∧ (∃ (u : MuleId) (k : Nat) (s : State) (d : Desc), (s.m.mule u.agent).descs = [d] ∧ d.started = some k ∧ d.unlanded ≠ [])
    ∧ (∃ (u : MuleId) (k : Nat) (c : Nat) (a : Nat) (e : Nat) (s : State) (d : Desc), (s.m.mule u.agent).descs = [d] ∧ d.started = some k ∧ d.err = some (c, a, e) ∧ d.unlanded = [] ∧ d.asking = none ∧ d.collie = none ∧ (s.m.mule u.agent).errors.length < 16 ∧ s.m.bit (muleReg u.agent 0xC) 15 = false) :=
  ⟨⟨mu0, mule { descs := [{ w := line [1, 0x020040000100, 0x020040000200, 7], queue := 3, seq := 0 }] }, { w := line [1, 0x020040000100, 0x020040000200, 7], queue := 3, seq := 0 }, by decide⟩,
   ⟨mu0, 0, mule { descs := [{ desc (line [1, 0x020040000100, 0x020040000200, 7]) with finished := true }] }, { desc (line [1, 0x020040000100, 0x020040000200, 7]) with finished := true }, by decide⟩,
   ⟨mu0, 0, mule { descs := [{ desc (line [0x1 + 2 ^ 9 + 0x4FFF * 2 ^ 12, 0x020040000100, 0x020040000200, 7]) with finished := true }] }, { desc (line [0x1 + 2 ^ 9 + 0x4FFF * 2 ^ 12, 0x020040000100, 0x020040000200, 7]) with finished := true }, 3, 4095, by decide⟩,
   ⟨mu0, 0, mule { descs := [{ desc (line [1, 0x020040000100, 0x020040000200, 7]) with finished := true, unlanded := [(1, 2)] }] }, { desc (line [1, 0x020040000100, 0x020040000200, 7]) with finished := true, unlanded := [(1, 2)] }, by decide⟩,
   ⟨mu0, 0, 2, 0x77, 3, mule { descs := [{ desc (line [1, 0x020040000100, 0x020040000200, 7]) with err := some (2, 0x77, 3) }] }, { desc (line [1, 0x020040000100, 0x020040000200, 7]) with err := some (2, 0x77, 3) }, by decide⟩⟩

theorem witness_MuleDescriptorsAndService_2 :
    (∃ (u : MuleId) (s : State), RegOpen s.m (muleReg u.agent 0) ∧ (s.m.mule u.agent).bad = false)
    ∧ (∃ (u : MuleId) (s : State), RegOpen s.m (muleReg u.agent 0) ∧ (s.m.mule u.agent).state = .running)
    ∧ (∃ (u : MuleId) (s : State) (d : _) (k : _), RegOpen s.m (muleReg u.agent 0) ∧ (s.m.mule u.agent).state = .running ∧ (s.m.mule u.agent).descs = [d] ∧ d.started = some k ∧ d.err = none ∧ s.m.host.reqs = [])
    ∧ (∃ (u : MuleId) (s : State), RegOpen s.m (muleReg u.agent 0))
    ∧ (∃ (u : MuleId) (s : State), RegOpen s.m (muleReg u.agent 0) ∧ (s.m.mule u.agent).state ≠ .quiesced) :=
  ⟨⟨mu0, mule { state := .quiesced }, by unfold RegOpen; decide, by decide⟩,
   ⟨mu0, mule {}, by unfold RegOpen; decide, by decide⟩,
   ⟨mu0, mule { descs := [desc (line [1, 0x020040000100, 0x020040000200, 7])] }, desc (line [1, 0x020040000100, 0x020040000200, 7]), 0, by unfold RegOpen; decide, by decide⟩,
   ⟨mu0, mule { q0Halted := true }, by unfold RegOpen; decide⟩,
   ⟨mu0, mule {}, by unfold RegOpen; decide, by decide⟩⟩

theorem witness_MuleDescriptorsAndService_3 :
    (∃ (u : MuleId) (s : State) (d : _), RegOpen s.m (muleReg u.agent 0) ∧ (s.m.mule u.agent).state = .quiesced ∧ (s.m.mule u.agent).descs = [d] ∧ d.started = none ∧ d.queue < 3)
    ∧ (∃ (u : MuleId) (s : State), (s.m.mule u.agent).state = .quiescing ∧ (∀ d ∈ (s.m.mule u.agent).descs, d.started = none))
    ∧ (∃ (u : MuleId) (s : State) (d : Desc), d ∈ (s.m.mule u.agent).descs ∧ d.started.isSome = true ∧ d.finished = false) :=
  ⟨⟨mu0, mule { state := .quiesced, descs := [{ w := line [1, 0x020040000100, 0x020040000200, 7], queue := 2, seq := 0 }] }, ({ w := line [1, 0x020040000100, 0x020040000200, 7], queue := 2, seq := 0 } : Desc), by unfold RegOpen; decide, by decide⟩,
   ⟨mu0, mule { state := .quiescing, descs := [{ w := line [1, 0x020040000100, 0x020040000200, 7], queue := 2, seq := 0 }] }, by decide⟩,
   ⟨mu0, mule { state := .quiescing, descs := [desc (line [1, 0x020040000100, 0x020040000200, 7])] }, desc (line [1, 0x020040000100, 0x020040000200, 7]), by decide⟩⟩

def TakesEMet (k : ReqKind) : Prop :=
  (∃ (a : BitVec 13) (pa : BitVec 56) (r : HomeReq) (l : Nat) (x : SliceLine) (s : State), ReqAt s a pa k r l x ∧ s.m.entry l = {})

def SnoopsOwnerMet (k : ReqKind) : Prop :=
  (∃ (a : BitVec 13) (pa : BitVec 56) (b : Nat) (r : HomeReq) (l : Nat) (x : SliceLine) (s : State), ReqAt s a pa k r l x ∧ s.m.entry l = { state := .em, ptrs := [b] } ∧ b ≠ a.toNat ∧ b ≠ hostAgent)

theorem witness_HomeServesRequests_1 :
    TakesEMet .rds
    ∧ TakesEMet .rdo
    ∧ TakesEMet .upg
    ∧ SnoopsOwnerMet .rds
    ∧ SnoopsOwnerMet .rdo :=
  ⟨⟨1027, 0x40, req .rds, hl, sl0, coh { lines := [(hl, some sl0)], reqs := [req .rds] }, by unfold Claims.ReqAt Claims.HomeReady Claims.HomeFree Claims.StoreRoom; decide, by decide⟩,
   ⟨1027, 0x40, req .rdo, hl, sl0, coh { lines := [(hl, some sl0)], reqs := [req .rdo] }, by unfold Claims.ReqAt Claims.HomeReady Claims.HomeFree Claims.StoreRoom; decide, by decide⟩,
   ⟨1027, 0x40, req .upg, hl, sl0, coh { lines := [(hl, some sl0)], reqs := [req .upg] }, by unfold Claims.ReqAt Claims.HomeReady Claims.HomeFree Claims.StoreRoom; decide, by decide⟩,
   ⟨1027, 0x47, 1030, req .rds, hl, sl0, coh { lines := [(hl, some sl0)], reqs := [req .rds], dir := [(hl, { state := .em, ptrs := [1030] })] }, by unfold Claims.ReqAt Claims.HomeReady Claims.HomeFree Claims.StoreRoom; decide, by decide⟩,
   ⟨1027, 0x47, 1030, req .rdo, hl, sl0, coh { lines := [(hl, some sl0)], reqs := [req .rdo], dir := [(hl, { state := .em, ptrs := [1030] })] }, by unfold Claims.ReqAt Claims.HomeReady Claims.HomeFree Claims.StoreRoom; decide, by decide⟩⟩

theorem witness_HomeServesRequests_2 :
    SnoopsOwnerMet .upg
    ∧ SnoopsOwnerMet .rdu
    ∧ SnoopsOwnerMet .wrl
    ∧ SnoopsOwnerMet .wrp
    ∧ (∃ (a : BitVec 13) (pa : BitVec 56) (r : HomeReq) (l : Nat) (x : SliceLine) (ps : List Nat) (s : State), ReqAt s a pa .rds r l x ∧ s.m.entry l = { state := .s, ptrs := ps } ∧ ps ≠ [] ∧ ps.length < 4 ∧ a.toNat ∉ ps) :=
  ⟨⟨1027, 0x47, 1030, req .upg, hl, sl0, coh { lines := [(hl, some sl0)], reqs := [req .upg], dir := [(hl, { state := .em, ptrs := [1030] })] }, by unfold Claims.ReqAt Claims.HomeReady Claims.HomeFree Claims.StoreRoom; decide, by decide⟩,
   ⟨1027, 0x47, 1030, req .rdu, hl, sl0, coh { lines := [(hl, some sl0)], reqs := [req .rdu], dir := [(hl, { state := .em, ptrs := [1030] })] }, by unfold Claims.ReqAt Claims.HomeReady Claims.HomeFree Claims.StoreRoom; decide, by decide⟩,
   ⟨1027, 0x47, 1030, req .wrl, hl, sl0, coh { lines := [(hl, some sl0)], reqs := [req .wrl], dir := [(hl, { state := .em, ptrs := [1030] })] }, by unfold Claims.ReqAt Claims.HomeReady Claims.HomeFree Claims.StoreRoom; decide, by decide⟩,
   ⟨1027, 0x47, 1030, req .wrp, hl, sl0, coh { lines := [(hl, some sl0)], reqs := [req .wrp], dir := [(hl, { state := .em, ptrs := [1030] })] }, by unfold Claims.ReqAt Claims.HomeReady Claims.HomeFree Claims.StoreRoom; decide, by decide⟩,
   ⟨1027, 0x47, req .rds, hl, sl0, [1030, 1031, 1028], coh { lines := [(hl, some sl0)], reqs := [req .rds], dir := [(hl, { state := .s, ptrs := [1030, 1031, 1028] })] }, by unfold Claims.ReqAt Claims.HomeReady Claims.HomeFree Claims.StoreRoom; decide, by decide⟩⟩

theorem witness_HomeServesRequests_3 :
    (∃ (a : BitVec 13) (pa : BitVec 56) (b : Nat) (r : HomeReq) (l : Nat) (x : SliceLine) (s : State), ReqAt s a pa .rdo r l x ∧ s.m.entry l = { state := .s, ptrs := [a.toNat, b] } ∧ b ≠ a.toNat ∧ b ≠ hostAgent)
    ∧ (∃ (a : BitVec 13) (pa : BitVec 56) (r : HomeReq) (l : Nat) (x : SliceLine) (s : State), ReqAt s a pa .upg r l x ∧ s.m.entry l = { state := .s, ptrs := [a.toNat] })
    ∧ (∃ (a : BitVec 13) (pa : BitVec 56) (r : HomeReq) (l : Nat) (x : SliceLine) (s : State), ReqAt s a pa .rdu r l x ∧ s.m.entry l = {})
    ∧ (∃ (a : BitVec 13) (pa : BitVec 56) (r : HomeReq) (l : Nat) (s : State), HomeFree s l ∧ s.m.coh.reqs = [r] ∧ r.kind = .rds ∧ r.agent = a.toNat ∧ r.line = l ∧ s.m.lineOf pa.toNat = l ∧ s.m.entry l = {} ∧ s.m.homeHas l = false ∧ (s.m.pcOf (Mach.hbmCtl l) (Mach.hbmPc l)).reads = [])
    ∧ (∃ (a : BitVec 13) (pa : BitVec 56) (r : HomeReq) (l : Nat) (x : SliceLine) (s : State), ReqAt s a pa .wrl r l x ∧ s.m.entry l = {}) :=
  ⟨⟨1027, 0x47, 1030, req .rdo, hl, sl0, coh { lines := [(hl, some sl0)], reqs := [req .rdo], dir := [(hl, { state := .s, ptrs := [1027, 1030] })] }, by unfold Claims.ReqAt Claims.HomeReady Claims.HomeFree Claims.StoreRoom; decide, by decide⟩,
   ⟨1027, 0x47, req .upg, hl, sl0, coh { lines := [(hl, some sl0)], reqs := [req .upg], dir := [(hl, { state := .s, ptrs := [1027] })] }, by unfold Claims.ReqAt Claims.HomeReady Claims.HomeFree Claims.StoreRoom; decide, by decide⟩,
   ⟨1044, 0x47, { req .rdu with agent := 1044 }, hl, sl0, coh { lines := [(hl, some sl0)], reqs := [{ req .rdu with agent := 1044 }] }, by unfold Claims.ReqAt Claims.HomeReady Claims.HomeFree Claims.StoreRoom; decide, by decide⟩,
   ⟨1027, 0x47, req .rds, hl, coh { reqs := [req .rds] }, by unfold Claims.HomeFree Claims.StoreRoom; decide, by decide⟩,
   ⟨1044, 0x47, { req .wrl with agent := 1044, data := 7 }, hl, sl0, coh { lines := [(hl, some sl0)], reqs := [{ req .wrl with agent := 1044, data := 7 }] }, by unfold Claims.ReqAt Claims.HomeReady Claims.HomeFree Claims.StoreRoom; decide, by decide⟩⟩

theorem witness_HomeServesRequests_4 :
    (∃ (a : BitVec 13) (pa : BitVec 56) (r : HomeReq) (l : Nat) (x : SliceLine) (s : State), ReqAt s a pa .wrp r l x ∧ s.m.entry l = {} ∧ r.mask ≠ fullMask) :=
  ⟨1044, 0x47, { req .wrp with agent := 1044, data := 7, mask := 3 }, hl, sl0, coh { lines := [(hl, some sl0)], reqs := [{ req .wrp with agent := 1044, data := 7, mask := 3 }] }, by unfold Claims.ReqAt Claims.HomeReady Claims.HomeFree Claims.StoreRoom; decide, by decide⟩

def SnoopRowMet (k : SnpKind) : Prop :=
  (∃ (a : BitVec 13) (pa : BitVec 56) (t : Txn) (l : Nat) (x : CacheLine) (s : State), SnoopAt s a pa k t l x)

theorem witness_SnoopsAndTheirAnswers_1 :
    SnoopRowMet .shr
    ∧ SnoopRowMet .own
    ∧ SnoopRowMet .ownHome
    ∧ SnoopRowMet .data
    ∧ SnoopRowMet .inv :=
  ⟨⟨1027, 0x40, ({ req := { req .rds with agent := 1030 }, snoops := [(1027, .shr)] } : Txn), hl, ({ line := hl, st := .m, data := 0x77 } : CacheLine), coh { txns := [{ req := { req .rds with agent := 1030 }, snoops := [(1027, .shr)] }] } (hen3 ({ line := hl, st := .m, data := 0x77 } : CacheLine)), by unfold Claims.SnoopAt; decide⟩,
   ⟨1027, 0x40, ({ req := { req .rds with agent := 1030 }, snoops := [(1027, .own)] } : Txn), hl, ({ line := hl, st := .m, data := 0x77 } : CacheLine), coh { txns := [{ req := { req .rds with agent := 1030 }, snoops := [(1027, .own)] }] } (hen3 ({ line := hl, st := .m, data := 0x77 } : CacheLine)), by unfold Claims.SnoopAt; decide⟩,
   ⟨1027, 0x40, ({ req := { req .rds with agent := 1030 }, snoops := [(1027, .ownHome)] } : Txn), hl, ({ line := hl, st := .m, data := 0x77 } : CacheLine), coh { txns := [{ req := { req .rds with agent := 1030 }, snoops := [(1027, .ownHome)] }] } (hen3 ({ line := hl, st := .m, data := 0x77 } : CacheLine)), by unfold Claims.SnoopAt; decide⟩,
   ⟨1027, 0x40, ({ req := { req .rds with agent := 1030 }, snoops := [(1027, .data)] } : Txn), hl, ({ line := hl, st := .m, data := 0x77 } : CacheLine), coh { txns := [{ req := { req .rds with agent := 1030 }, snoops := [(1027, .data)] }] } (hen3 ({ line := hl, st := .m, data := 0x77 } : CacheLine)), by unfold Claims.SnoopAt; decide⟩,
   ⟨1027, 0x40, ({ req := { req .rds with agent := 1030 }, snoops := [(1027, .inv)] } : Txn), hl, ({ line := hl, st := .m, data := 0x77 } : CacheLine), coh { txns := [{ req := { req .rds with agent := 1030 }, snoops := [(1027, .inv)] }] } (hen3 ({ line := hl, st := .m, data := 0x77 } : CacheLine)), by unfold Claims.SnoopAt; decide⟩⟩

theorem witness_SnoopsAndTheirAnswers_2 :
    (∃ (a : BitVec 13) (pa : BitVec 56) (t : Txn) (w : WriteBack) (l : Nat) (s : State), s.m.coh.txns = [t] ∧ t.req.line = l ∧ s.m.lineOf pa.toNat = l ∧ (a.toNat, SnpKind.shr) ∈ t.snoops ∧ a.toNat ≠ hostAgent ∧ a.toNat ≠ sysAgent ∧ s.m.coh.dead = [] ∧ s.m.coh.wbs = [w] ∧ w.agent = a.toNat ∧ w.line = l ∧ w.invn = false ∧ w.stale = false ∧ (∀ x, (s.m.hen a.toNat).find l = some x → x.st ≠ .m))
    ∧ (∃ (pa : BitVec 56) (t : Txn) (x : SliceLine) (l : Nat) (s : State), s.m.coh.txns = [t] ∧ t.req.line = l ∧ s.m.lineOf pa.toNat = l ∧ (hostAgent, SnpKind.shr) ∈ t.snoops ∧ s.m.coh.dead = [] ∧ FMap.get none s.m.coh.lines l = some x ∧ x.upset = 0 ∧ s.m.snoopWaits hostAgent l .shr = false)
    ∧ (∃ (a : BitVec 13) (pa : BitVec 56) (r : HomeReq) (d : BitVec 512) (p : Bool) (l : Nat) (s : State), r.kind = .rds ∧ r.line = l ∧ s.m.lineOf pa.toNat = l ∧ isDeep (64 * l) = false ∧ StoreRoom s l ∧ s.m.coh.queue = [] ∧ s.m.coh.txns = [{ req := r, answers := [(a.toNat, .line d p)], forwarded := true }] ∧ s.m.entry l = { state := .em, ptrs := [a.toNat] } ∧ r.agent ≠ a.toNat ∧ r.agent ≠ hostAgent ∧ a.toNat ≠ hostAgent)
    ∧ (∃ (a : BitVec 13) (pa : BitVec 56) (r : HomeReq) (x : SliceLine) (l : Nat) (s : State), r.kind = .rds ∧ r.line = l ∧ s.m.lineOf pa.toNat = l ∧ isDeep (64 * l) = false ∧ StoreRoom s l ∧ s.m.coh.queue = [] ∧ s.m.coh.txns = [{ req := r, answers := [(a.toNat, .np)] }] ∧ s.m.entry l = { state := .em, ptrs := [a.toNat] } ∧ r.agent ≠ hostAgent ∧ FMap.get none s.m.coh.lines l = some x ∧ x.upset = 0)
    ∧ (∃ (a : BitVec 13) (pa : BitVec 56) (x : CacheLine) (l : Nat) (s : State), s.m.lineOf pa.toNat = l ∧ isDeep (64 * l) = false ∧ (s.m.slice (homeSlice (64 * l))).homeReset = true ∧ s.m.coh.wbs = [] ∧ isHen a.toNat = true ∧ a.toNat ≠ hostAgent ∧ a.toNat ≠ sysAgent ∧ (s.m.hen a.toNat).find l = some x) :=
  ⟨⟨1027, 0x40, ({ req := { req .rds with agent := 1030 }, snoops := [(1027, .shr)] } : Txn), ({ agent := 1027, line := hl, data := 0x55, poison := false, keep := true } : WriteBack), hl, coh { txns := [({ req := { req .rds with agent := 1030 }, snoops := [(1027, .shr)] } : Txn)], wbs := [({ agent := 1027, line := hl, data := 0x55, poison := false, keep := true } : WriteBack)] } (hen3 ({ line := hl, st := .e, data := 0x77 } : CacheLine)), by decide⟩,
   ⟨0x40, ({ req := { req .rds with agent := 1030 }, snoops := [(hostAgent, .shr)] } : Txn), sl0, hl, coh { txns := [({ req := { req .rds with agent := 1030 }, snoops := [(hostAgent, .shr)] } : Txn)], lines := [(hl, some sl0)] }, by decide⟩,
   ⟨1027, 0x40, { req .rds with agent := 1030 }, 5, true, hl, coh { dir := [(hl, { state := .em, ptrs := [1027] })], txns := [{ req := { req .rds with agent := 1030 }, answers := [(1027, .line 5 true)], forwarded := true }] }, by decide, by decide, by decide, by decide, by unfold Claims.StoreRoom; decide, by decide⟩,
   ⟨1027, 0x40, { req .rds with agent := 1030 }, sl0, hl, coh { dir := [(hl, { state := .em, ptrs := [1027] })], lines := [(hl, some sl0)], txns := [{ req := { req .rds with agent := 1030 }, answers := [(1027, .np)] }] }, by decide, by decide, by decide, by decide, by unfold Claims.StoreRoom; decide, by decide⟩,
   ⟨1027, 0x40, ({ line := hl, st := .m, data := 0x77 } : CacheLine), hl, coh { slices := [(1, { homeReset := true })] } (hen3 ({ line := hl, st := .m, data := 0x77 } : CacheLine)), by decide⟩⟩

theorem witness_DataGrantsAndWritebacks_1 :
    (∃ (a : BitVec 13) (pa : BitVec 56) (d : DatMsg) (l : Nat) (st : LineState) (s : State), DatAt s a pa d l ∧ d.grantOnly = false ∧ d.st = some st ∧ (s.m.hen a.toNat).wait = .none ∧ (s.m.hen a.toNat).dcEn = true ∧ (s.m.hen a.toNat).mask d.src = 0xF ∧ (s.m.hen a.toNat).vc = [] ∧ FMap.get {} (s.m.hen a.toNat).dc (l % 256) = {})
    ∧ (∃ (a : BitVec 13) (pa : BitVec 56) (d : DatMsg) (l : Nat) (rd : Nat) (addr : Nat) (size : Nat) (s : State), DatAt s a pa d l ∧ d.grantOnly = false ∧ d.st = none ∧ d.poison = false ∧ (s.m.hen a.toNat).wait = .load rd addr size false false 0 false false ∧ s.m.lineOf addr = l ∧ rd ≠ 0 ∧ size ≤ 8)
    ∧ (∃ (pa : BitVec 56) (d : DatMsg) (l : Nat) (s : State), s.m.coh.dats = [d] ∧ d.agent = hostAgent ∧ d.line = l ∧ s.m.lineOf pa.toNat = l ∧ d.grantOnly = false)
    ∧ (∃ (a : BitVec 13) (pa : BitVec 56) (d : DatMsg) (l : Nat) (x : CacheLine) (s : State), DatAt s a pa d l ∧ d.grantOnly = true ∧ (s.m.hen a.toNat).wait = .none ∧ (s.m.hen a.toNat).find l = some x)
    ∧ (∃ (a : BitVec 13) (pa : BitVec 56) (w : WriteBack) (l : Nat) (s : State), WbAt s a pa w l ∧ w.invn = false ∧ w.stale = false ∧ s.m.entry l = { state := .em, ptrs := [a.toNat] }) :=
  ⟨⟨1027, 0x40, ({ agent := 1027, line := hl, st := some .e, data := 0x55, poison := false } : DatMsg), hl, .e, coh { dats := [({ agent := 1027, line := hl, st := some .e, data := 0x55, poison := false } : DatMsg)] } (up.setHen 1027 { state := .running }), by unfold Claims.DatAt; decide, by decide⟩,
   ⟨1027, 0x40, ({ agent := 1027, line := hl, st := none, data := 0x55, poison := false } : DatMsg), hl, 3, 0x43, 4, coh { dats := [({ agent := 1027, line := hl, st := none, data := 0x55, poison := false } : DatMsg)] } (up.setHen 1027 { state := .running, wait := .load 3 0x43 4 false false 0 false false }), by unfold Claims.DatAt; decide, by decide⟩,
   ⟨0x40, ({ agent := hostAgent, line := hl, st := none, data := 0x55, poison := false } : DatMsg), hl, coh { dats := [({ agent := hostAgent, line := hl, st := none, data := 0x55, poison := false } : DatMsg)] }, by decide⟩,
   ⟨1027, 0x40, { ({ agent := 1027, line := hl, st := some .e, data := 0x55, poison := false } : DatMsg) with grantOnly := true }, hl, ({ line := hl, st := .s, data := 0x77 } : CacheLine), coh { dats := [{ ({ agent := 1027, line := hl, st := some .e, data := 0x55, poison := false } : DatMsg) with grantOnly := true }] } (hen3 ({ line := hl, st := .s, data := 0x77 } : CacheLine)), by unfold Claims.DatAt; decide, by decide⟩,
   ⟨1027, 0x40, ({ agent := 1027, line := hl, data := 0x55, poison := false, keep := true } : WriteBack), hl, coh { wbs := [({ agent := 1027, line := hl, data := 0x55, poison := false, keep := true } : WriteBack)], dir := [(hl, { state := .em, ptrs := [1027] })] }, by unfold Claims.WbAt Claims.StoreRoom; decide, by decide⟩⟩

theorem witness_DataGrantsAndWritebacks_2 :
    (∃ (a : BitVec 13) (pa : BitVec 56) (w : WriteBack) (l : Nat) (s : State), WbAt s a pa w l ∧ w.invn = false ∧ w.stale = true)
    ∧ (∃ (a : BitVec 13) (pa : BitVec 56) (w : WriteBack) (l : Nat) (s : State), WbAt s a pa w l ∧ w.invn = true ∧ w.stale = false ∧ s.m.entry l = { state := .em, ptrs := [a.toNat] })
    ∧ (∃ (a : BitVec 13) (pa : BitVec 56) (w : WriteBack) (l : Nat) (s : State), s.m.coh.wbs = [w] ∧ w.agent = a.toNat ∧ w.line = l ∧ s.m.lineOf pa.toNat = l ∧ w.stale = false ∧ s.m.lineBusy l = true)
    ∧ (∃ (a : BitVec 13) (pa : BitVec 56) (w : WriteBack) (l : Nat) (s : State), s.m.coh.wbs = [w] ∧ w.agent = a.toNat ∧ w.line = l ∧ s.m.lineOf pa.toNat = l ∧ w.stale = false ∧ s.m.lineBusy l = true)
    ∧ (∃ (a : BitVec 13) (pa : BitVec 56) (r : HomeReq) (s : State), s.m.coh.nacked = [r] ∧ r.agent = a.toNat ∧ s.m.lineOf pa.toNat = r.line) :=
  ⟨⟨1027, 0x40, { ({ agent := 1027, line := hl, data := 0x55, poison := false, keep := true } : WriteBack) with stale := true }, hl, coh { wbs := [{ ({ agent := 1027, line := hl, data := 0x55, poison := false, keep := true } : WriteBack) with stale := true }], dir := [(hl, { state := .em, ptrs := [1027] })] }, by unfold Claims.WbAt Claims.StoreRoom; decide, by decide⟩,
   ⟨1027, 0x40, { ({ agent := 1027, line := hl, data := 0x55, poison := false, keep := true } : WriteBack) with invn := true }, hl, coh { wbs := [{ ({ agent := 1027, line := hl, data := 0x55, poison := false, keep := true } : WriteBack) with invn := true }], dir := [(hl, { state := .em, ptrs := [1027] })] }, by unfold Claims.WbAt Claims.StoreRoom; decide, by decide⟩,
   ⟨1027, 0x40, ({ agent := 1027, line := hl, data := 0x55, poison := false, keep := true } : WriteBack), hl, coh { wbs := [({ agent := 1027, line := hl, data := 0x55, poison := false, keep := true } : WriteBack)], txns := [{ req := req .rds }], dir := [(hl, { state := .em, ptrs := [1027] })] }, by decide⟩,
   ⟨1027, 0x40, ({ agent := 1027, line := hl, data := 0x55, poison := false, keep := true } : WriteBack), hl, coh { wbs := [({ agent := 1027, line := hl, data := 0x55, poison := false, keep := true } : WriteBack)], txns := [{ req := req .rds }], dir := [(hl, { state := .em, ptrs := [1027] })] }, by decide⟩,
   ⟨1027, 0x40, req .rds, coh { nacked := [req .rds] }, by decide⟩⟩

theorem witness_DataGrantsAndWritebacks_3 :
    (∃ (a : BitVec 13) (pa : BitVec 56) (x : Stash) (s : State), s.m.coh.stashes = [x] ∧ x.agent = a.toNat ∧ s.m.lineOf pa.toNat = x.line ∧ s.m.lineBusy x.line = false ∧ s.m.targetHeld (.home (64 * x.line)) = false ∧ StoreRoom s x.line ∧ ((s.m.hen a.toNat).state = .disabled ∨ (s.m.entry x.line).state ≠ .u) ∧ (s.m.hen a.toNat).hold = none)
    ∧ (∃ (a : BitVec 13) (pa : BitVec 56) (x : Stash) (s : State) (y : _), s.m.coh.stashes = [x] ∧ x.agent = a.toNat ∧ s.m.lineOf pa.toNat = x.line ∧ s.m.lineBusy x.line = false ∧ s.m.targetHeld (.home (64 * x.line)) = false ∧ StoreRoom s x.line ∧ (s.m.hen a.toNat).state = .running ∧ (s.m.hen a.toNat).hold = none ∧ s.m.flockOn (flockOf a.toNat) = true ∧ (s.m.hen a.toNat).mask 1 = 0xF ∧ (s.m.hen a.toNat).dcEn = true ∧ (s.m.hen a.toNat).wait = .none ∧ (s.m.hen a.toNat).vc = [] ∧ FMap.get {} (s.m.hen a.toNat).dc (x.line % 256) = {} ∧ FMap.get none s.m.coh.lines x.line = some y ∧ y.upset = 0 ∧ isDeep (64 * x.line) = false ∧ a.toNat ≠ hostAgent ∧ s.m.entry x.line = {}) :=
  ⟨⟨1027, 0x40, ⟨1027, hl⟩, coh { stashes := [⟨1027, hl⟩] } (up.setHen 1027 { state := .disabled }), by decide, by decide, by decide, by decide, by decide, by unfold Claims.StoreRoom; decide, .inl (by decide), by decide⟩,
   ⟨1027, 0x40, ⟨1027, hl⟩, coh { stashes := [⟨1027, hl⟩], lines := [(hl, some sl0)] } (up.setHen 1027 { state := .running }), sl0, by decide, by decide, by decide, by decide, by decide, by unfold Claims.StoreRoom; decide, by decide⟩⟩

theorem witness_AtomicQueuesAndSliceUpkeep_1 :
    (∃ (a : BitVec 13) (pa : BitVec 56) (e : AqEntry) (k : Nat) (s : State), s.m.lineOf pa.toNat = e.line ∧ k = homeSlice (64 * e.line) ∧ (s.m.slice k).waiting = [e] ∧ e.agent = a.toNat ∧ s.m.coh.dead = [] ∧ s.m.targetHeld (.home (64 * e.line)) = false ∧ (s.m.slice k).aq.length < 64)
    ∧ (∃ (a : BitVec 13) (pa : BitVec 56) (e : AqEntry) (k : Nat) (s : State), s.m.lineOf pa.toNat = e.line ∧ k = homeSlice (64 * e.line) ∧ (s.m.slice k).waiting = [e] ∧ e.agent = a.toNat ∧ s.m.coh.dead = [] ∧ s.m.targetHeld (.home (64 * e.line)) = false ∧ 64 ≤ (s.m.slice k).aq.length)
    ∧ (∃ (sl : SliceId) (e : AqEntry) (x : SliceLine) (k : Nat) (s : State), k = Mach.sliceNo sl ∧ (s.m.slice k).aq = [e] ∧ HomeReady s e.line x ∧ s.m.entry e.line = {} ∧ x.poison = false ∧ s.m.boot.inReset = false ∧ (s.m.die (k / 16)).curRet = false ∧ (s.m.die (k / 16)).computeReset = false ∧ isMule e.agent = false ∧ k = homeSlice (64 * e.line))
    ∧ (∃ (sl : SliceId) (l : Nat) (b : Nat) (k : Nat) (x : SliceLine) (s : State), k = Mach.sliceNo sl ∧ (s.m.slice k).reclaiming = true ∧ Die.running (s.m.die (k / 16)) = true ∧ homeSlice (64 * l) = k ∧ s.m.coh.dir = [(l, { state := .em, ptrs := [b] })] ∧ s.m.coh.txns = [] ∧ s.m.deadAgent b = true ∧ FMap.get none s.m.coh.lines l = some x ∧ x.upset = 0)
    ∧ (∃ (sl : SliceId) (pa : BitVec 56) (sa : Nat) (l : Nat) (k : Nat) (x : SliceLine) (s : State), k = Mach.sliceNo sl ∧ s.m.target pa.toNat = .home sa ∧ l = sa / 64 ∧ homeSlice sa = k ∧ s.m.coh.txns = [] ∧ Die.running (s.m.die (k / 16)) = true ∧ FMap.get none s.m.coh.lines l = some x ∧ (s.m.entry l).bad = false ∧ x.upset = 1) :=
  ⟨⟨1027, 0x48, ({ agent := 1027, line := hl, code := 15, off := 8, arg := 1, cmp := 0, mask := 0xFF00, stamp := 9 } : AqEntry), _, coh { slices := [(1, { waiting := [({ agent := 1027, line := hl, code := 15, off := 8, arg := 1, cmp := 0, mask := 0xFF00, stamp := 9 } : AqEntry)] })] }, by decide, rfl, by decide⟩,
   ⟨1027, 0x48, ({ agent := 1027, line := hl, code := 15, off := 8, arg := 1, cmp := 0, mask := 0xFF00, stamp := 9 } : AqEntry), _, coh { slices := [(1, { waiting := [({ agent := 1027, line := hl, code := 15, off := 8, arg := 1, cmp := 0, mask := 0xFF00, stamp := 9 } : AqEntry)], aq := List.replicate 64 ({ agent := 1027, line := hl, code := 15, off := 8, arg := 1, cmp := 0, mask := 0xFF00, stamp := 9 } : AqEntry) })] }, by decide, rfl, by decide⟩,
   ⟨⟨0, 1⟩, ({ agent := 1027, line := hl, code := 15, off := 8, arg := 1, cmp := 0, mask := 0xFF00, stamp := 9 } : AqEntry), sl0, _, coh { slices := [(1, { aq := [({ agent := 1027, line := hl, code := 15, off := 8, arg := 1, cmp := 0, mask := 0xFF00, stamp := 9 } : AqEntry)] })], lines := [(hl, some sl0)] }, rfl, by decide, by unfold Claims.HomeReady Claims.HomeFree Claims.StoreRoom; decide, by decide, by decide, by decide, by decide, by decide, by decide, rfl⟩,
   ⟨⟨0, 1⟩, hl, 1027, _, sl0, coh { slices := [(1, { reclaiming := true })], lines := [(hl, some sl0)], dir := [(hl, { state := .em, ptrs := [1027] })], dead := [⟨1024, 0x1FE0⟩] }, rfl, by decide⟩,
   ⟨⟨0, 1⟩, 0x40, 0x010000000040, hl, _, ({ sl0 with upset := 1 } : SliceLine), coh { lines := [(hl, some ({ sl0 with upset := 1 } : SliceLine))] }, rfl, by decide⟩⟩

theorem witness_AtomicQueuesAndSliceUpkeep_2 :
    (∃ (sl : SliceId) (pa : BitVec 56) (sa : Nat) (l : Nat) (k : Nat) (x : SliceLine) (s : State), k = Mach.sliceNo sl ∧ s.m.target pa.toNat = .home sa ∧ l = sa / 64 ∧ homeSlice sa = k ∧ s.m.coh.txns = [] ∧ Die.running (s.m.die (k / 16)) = true ∧ FMap.get none s.m.coh.lines l = some x ∧ (s.m.entry l).bad = false ∧ x.upset = 2)
    ∧ (∃ (sl : SliceId) (k : Nat) (s : State), k = Mach.sliceNo sl ∧ RegOpen s.m (sliceReg k 0))
    ∧ (∃ (sl : SliceId) (l : Nat) (k : Nat) (x : SliceLine) (s : State), k = Mach.sliceNo sl ∧ (s.m.slice k).flushing = true ∧ s.m.coh.lines = [(l, some x)] ∧ homeSlice (64 * l) = k ∧ isDeep (64 * l) = false ∧ x.dirty = true) :=
  ⟨⟨⟨0, 1⟩, 0x40, 0x010000000040, hl, _, ({ sl0 with upset := 2 } : SliceLine), coh { lines := [(hl, some ({ sl0 with upset := 2 } : SliceLine))] }, rfl, by decide⟩,
   ⟨⟨3, 15⟩, _, st up, rfl, by unfold RegOpen; decide⟩,
   ⟨⟨0, 1⟩, hl, _, { sl0 with dirty := true }, coh { slices := [(1, { flushing := true })], lines := [(hl, some { sl0 with dirty := true })] }, rfl, by decide⟩⟩

theorem witness_HbmUpkeep_1 :
    (∃ (m : Mach) (k : Nat) (p : Nat), (∃ r ∈ (m.pcOf k p).reads, r.cls = 0) ∧ ((m.pcOf k p).recent.filter fun b => b).length < m.fld (hbmSet k 0xC) 12 4)
    ∧ (∃ (m : Mach) (k : Nat) (p : Nat) (r : PcRead), r ∈ (m.pcOf k p).reads ∧ 1 ≤ r.cls ∧ r.cls ≤ 3 ∧ m.fld (hbmSet k 0xC) 12 4 ≤ ((m.pcOf k p).recent.filter fun b => b).length)
    ∧ (∃ (m : Mach) (k : Nat) (p : Nat) (r : PcRead), r ∈ (m.pcOf k p).reads ∧ r.cls = 2 ∧ (∀ r' ∈ (m.pcOf k p).reads, r'.cls ≠ 0) ∧ m.save.active.isSome = true)
    ∧ (∃ (m : Mach) (k : Nat) (p : Nat) (c : Nat), (m.pcOf k p).turn = c ∧ 1 ≤ c ∧ c ≤ 3 ∧ (∃ r ∈ (m.pcOf k p).reads, r.cls = c) ∧ (∀ r ∈ (m.pcOf k p).reads, r.cls ≠ 0) ∧ m.save.active = none ∧ ((m.pcOf k p).taken < (if c = 3 ∧ (m.hbmc k).scrubBehind = true then 15 else m.fld (hbmSet k 0xC) (4 * (c - 1)) 4)))
    ∧ (∃ (pa : BitVec 56) (cls : Fin 4) (l : Nat) (r : PcRead) (s : State), s.m.hbmLineOf pa.toNat = some l ∧ s.m.pcRead (Mach.hbmCtl l) (Mach.hbmPc l) = some r ∧ r.store = l ∧ r.cls = cls.val ∧ s.m.hbmHeld l = true) :=
  ⟨⟨(pc0 { reads := [{ line := hl, store := hl, cls := 1, since := 0 }, { line := hl, store := hl, cls := 0, since := 0 }] }).m, 0, 5, by decide⟩,
   ⟨(pc0 { reads := [{ line := hl, store := hl, cls := 2, since := 0 }, { line := hl, store := hl, cls := 0, since := 0 }], recent := List.replicate 15 true }).m, 0, 5, { line := hl, store := hl, cls := 2, since := 0 }, by decide⟩,
   ⟨{ (pc0 { reads := [{ line := hl, store := hl, cls := 1, since := 0 }, { line := hl, store := hl, cls := 2, since := 0 }] }).m with save := { active := some .lean } }, 0, 5, { line := hl, store := hl, cls := 2, since := 0 }, by decide⟩,
   ⟨(pc0 { reads := [{ line := hl, store := hl, cls := 1, since := 0 }, { line := hl, store := hl, cls := 2, since := 0 }], turn := 2 }).m, 0, 5, 2, by decide⟩,
   ⟨0x40, 0, hl, { line := hl, store := hl, cls := 0, since := 0 }, hbm0 { pcs := [(1, { reads := [{ line := hl, store := hl, cls := 0, since := 0 }], writes := [{ line := hl, data := 7, poison := true, cls := 1 }] })] }, by decide⟩⟩

theorem witness_HbmUpkeep_2 :
    (∃ (pa : BitVec 56) (cls : Fin 4) (l : Nat) (r : PcRead) (s : State), s.m.hbmLineOf pa.toNat = some l ∧ s.m.pcRead (Mach.hbmCtl l) (Mach.hbmPc l) = some r ∧ r.store = l ∧ r.cls = cls.val ∧ s.m.hbmHeld l = false)
    ∧ (∃ (m : Mach) (l : Nat), m.linePoison l = true ∧ m.hbmHeld l = false)
    ∧ (∃ (m : Mach) (l : Nat) (cls : Nat) (n : Nat) (sector : Option Nat) (scrub : Bool) (t : ReadTry) (u : ReadTry) (x : (BitVec 512 × Bool) × Mach), LineClean m l ∧ n = m.hbmAccesses (Mach.hbmCtl l) sector.isSome ∧ x = m.hbmSend l cls sector scrub t u ∧ t.first = .clean ∧ (m.hbmc (Mach.hbmCtl l)).mode = false)
    ∧ (∃ (m : Mach) (l : Nat) (cls : Nat) (n : Nat) (sector : Option Nat) (scrub : Bool) (t : ReadTry) (u : ReadTry) (x : (BitVec 512 × Bool) × Mach), LineClean m l ∧ n = m.hbmAccesses (Mach.hbmCtl l) sector.isSome ∧ x = m.hbmSend l cls sector scrub t u ∧ t.first ≠ .clean ∧ t.second = .ue)
    ∧ (∃ (m : Mach) (l : Nat) (cls : Nat) (n : Nat) (sector : Option Nat) (scrub : Bool) (t : ReadTry) (u : ReadTry) (x : (BitVec 512 × Bool) × Mach), LineClean m l ∧ n = m.hbmAccesses (Mach.hbmCtl l) sector.isSome ∧ x = m.hbmSend l cls sector scrub t u ∧ t.first ≠ .clean ∧ t.second = .ue) :=
  ⟨⟨0x40, 0, hl, { line := hl, store := hl, cls := 0, since := 0 }, hbm0 { pcs := [(1, { reads := [{ line := hl, store := hl, cls := 0, since := 0 }] })] }, by decide⟩,
   ⟨{ up with hbmPoison := [(hl, true)] }, hl, by decide⟩,
   ⟨up, hl, 1, _, none, false, ({} : ReadTry), ({} : ReadTry), _, by unfold Claims.LineClean; decide, rfl, rfl, by decide⟩,
   ⟨up, hl, 1, _, none, false, ({ first := .ce, second := .ue } : ReadTry), ({} : ReadTry), _, by unfold Claims.LineClean; decide, rfl, rfl, by decide⟩,
   ⟨up, hl, 1, _, none, false, ({ first := .ce, second := .ue } : ReadTry), ({} : ReadTry), _, by unfold Claims.LineClean; decide, rfl, rfl, by decide⟩⟩

theorem witness_HbmUpkeep_3 :
    (∃ (m : Mach) (l : Nat) (cls : Nat) (n : Nat) (sector : Option Nat) (scrub : Bool) (t : ReadTry) (u : ReadTry) (x : (BitVec 512 × Bool) × Mach), LineClean m l ∧ n = m.hbmAccesses (Mach.hbmCtl l) sector.isSome ∧ x = m.hbmSend l cls sector scrub t u ∧ (m.hbmc (Mach.hbmCtl l)).mode = true ∧ sector = none ∧ t.first = .clean ∧ u.first ≠ .clean ∧ u.second = .ue)
    ∧ (∃ (m : Mach) (l : Nat) (cls : Nat) (n : Nat) (sector : Option Nat) (scrub : Bool) (t : ReadTry) (u : ReadTry) (x : (BitVec 512 × Bool) × Mach), LineClean m l ∧ n = m.hbmAccesses (Mach.hbmCtl l) sector.isSome ∧ x = m.hbmSend l cls sector scrub t u ∧ (m.hbmc (Mach.hbmCtl l)).mode = true ∧ sector = none ∧ t.first = .clean ∧ u.first ≠ .clean ∧ u.second = .ue)
    ∧ (∃ (m : Mach) (l : Nat) (t : ReadTry), m.linePoison l = false ∧ t.first ≠ .clean ∧ t.second = .clean)
    ∧ (∃ (m : Mach) (l : Nat) (t : ReadTry), m.linePoison l = false ∧ t.first ≠ .clean ∧ t.second = .ce ∧ t.third = .clean)
    ∧ (∃ (m : Mach) (l : Nat) (t : ReadTry), m.linePoison l = false ∧ t.first ≠ .clean ∧ t.second = .ce ∧ t.third ≠ .clean ∧ (m.hbmc (Mach.hbmCtl l)).log.length < 16) :=
  ⟨⟨{ up with hbms := [(0, { mode := true })] }, hl, 1, _, none, false, ({} : ReadTry), ({ first := .ce, second := .ue } : ReadTry), _, by unfold Claims.LineClean; decide, rfl, rfl, by decide⟩,
   ⟨{ up with hbms := [(0, { mode := true })] }, hl, 1, _, none, false, ({} : ReadTry), ({ first := .ce, second := .ue } : ReadTry), _, by unfold Claims.LineClean; decide, rfl, rfl, by decide⟩,
   ⟨up, hl, ({ first := .ce, second := .clean, third := .clean } : ReadTry), by decide⟩,
   ⟨up, hl, ({ first := .ce, second := .ce, third := .clean } : ReadTry), by decide⟩,
   ⟨up, hl, ({ first := .ce, second := .ce, third := .ce } : ReadTry), by decide⟩⟩

theorem witness_HbmUpkeep_4 :
    (∃ (m : Mach) (l : Nat) (t : ReadTry), m.linePoison l = false ∧ t.first ≠ .clean ∧ t.second = .ce ∧ t.third ≠ .clean ∧ (m.hbmc (Mach.hbmCtl l)).log.length < 16)
    ∧ (∃ (m : Mach) (l : Nat) (t : ReadTry), m.linePoison l = false ∧ t.first ≠ .clean ∧ t.second = .ue ∧ (m.hbmc (Mach.hbmCtl l)).log.length < 16)
    ∧ (∃ (m : Mach) (l : Nat) (t : ReadTry), m.linePoison l = false ∧ t.first ≠ .clean ∧ t.second = .ue ∧ (m.hbmc (Mach.hbmCtl l)).log.length < 16)
    ∧ (∃ (m : Mach) (l : Nat), (m.hbmc (Mach.hbmCtl l)).log.length = 16)
    ∧ (∃ (m : Mach) (l : Nat), (m.hbmc (Mach.hbmCtl l)).log.length = 16) :=
  ⟨⟨up, hl, ({ first := .ce, second := .ce, third := .ue } : ReadTry), by decide⟩,
   ⟨up, hl, ({ first := .ue, second := .ue, third := .clean } : ReadTry), by decide⟩,
   ⟨up, hl, ({ first := .ue, second := .ue, third := .clean } : ReadTry), by decide⟩,
   ⟨{ up with hbms := [(0, { log := List.replicate 16 0 })] }, hl, by decide⟩,
   ⟨{ up with hbms := [(0, { log := List.replicate 16 0 })] }, hl, by decide⟩⟩

theorem witness_HbmUpkeep_5 :
    (∃ (b : HbmId) (p : Fin 32) (s : State), s.m.stackServes b.key = true ∧ (s.m.pcOf b.key p).training = false ∧ 8 < (s.m.pcOf b.key p).writes.length ∧ ((s.m.pcOf b.key p).reads = [] ∨ 24 ≤ (s.m.pcOf b.key p).writes.length))
    ∧ (∃ (b : HbmId) (p : Fin 32) (s : State), s.m.stackServes b.key = true ∧ (s.m.pcOf b.key p).training = false ∧ (s.m.pcOf b.key p).reads ≠ [] ∧ (s.m.pcOf b.key p).writes.length < 24)
    ∧ (∃ (b : HbmId) (p : Fin 32) (s : State), (s.m.pcOf b.key p).training = true)
    ∧ (∃ (b : HbmId) (p : Fin 32) (s : State), (s.m.pcOf b.key p).training = true)
    ∧ (∃ (b : HbmId) (p : Fin 32) (s : State), (s.m.pcOf b.key p).training = true) :=
  ⟨⟨b0, 5, pc0 { writes := (List.range 12).map fun i => { line := hl + 4 + 32 * i, data := 7, poison := false, cls := 1 } }, by decide, by decide, by decide, .inl (by decide)⟩,
   ⟨b0, 5, pc0 { reads := [{ line := hl, store := hl, cls := 1, since := 0 }] }, by decide⟩,
   ⟨b0, 5, pc0 { training := true, failedOnce := true }, by decide⟩,
   ⟨b0, 5, pc0 { training := true, failedOnce := true }, by decide⟩,
   ⟨b0, 5, pc0 { training := true }, by decide⟩⟩

theorem witness_HbmUpkeep_6 :
    (∃ (b : HbmId) (s : State), s.m.stackRuns b.key = true)
    ∧ (∃ (b : HbmId) (t : Fin 256) (p : Nat) (s : State), s.m.stackRuns b.key = true ∧ p < 32 ∧ (s.m.pcOf b.key p).training = false ∧ s.m.fld (hbmSet b.key 0x10) 8 5 ≤ max t.val (s.m.pcOf b.key p).lastTemp - min t.val (s.m.pcOf b.key p).lastTemp)
    ∧ (∃ (b : HbmId) (p : Fin 32) (s : State), s.m.stackServes b.key = true ∧ (s.m.pcOf b.key p).training = false ∧ ((s.m.hbmc b.key).scrubMask.getLsbD p = true ∨ s.m.pcClass b.key p (some 3) ≠ some 3))
    ∧ (∃ (b : HbmId) (p : Fin 32) (s : State), s.m.stackServes b.key = true ∧ (s.m.pcOf b.key p).training = false ∧ (s.m.hbmc b.key).scrubMask.getLsbD p = false ∧ s.m.pcClass b.key p (some 3) = some 3)
    ∧ (∃ (b : HbmId) (p : Fin 32) (t : ReadTry) (l : Nat) (s : State), s.m.stackServes b.key = true ∧ (s.m.pcOf b.key p).training = false ∧ (s.m.hbmc b.key).scrubMask.getLsbD p = false ∧ s.m.pcClass b.key p (some 3) = some 3 ∧ l = stackBase b.key / 64 + 32 * (s.m.hbmc b.key).scrubPos.toNat + p ∧ Mach.hbmCtl l = b.key ∧ Mach.hbmPc l = p ∧ LineClean s.m l ∧ t.first ≠ .clean ∧ t.second = .ue) :=
  ⟨⟨b0, st up, by decide⟩,
   ⟨b0, 60, 5, st up, by decide⟩,
   ⟨b0, 5, hbm0 { scrubMask := 32 }, by decide, by decide, .inl (by decide)⟩,
   ⟨b0, 5, st up, by decide⟩,
   ⟨b0, 5, ({ first := .ce, second := .ue } : ReadTry), _, st up, by decide, by decide, by decide, by decide, rfl, by decide, by decide, by unfold Claims.LineClean; decide, by decide⟩⟩

theorem witness_HbmUpkeep_7 :
    (∃ (b : HbmId) (s : State), RegOpen s.m (hbmSet b.key 0))
    ∧ (∃ (pa : BitVec 56) (l : Nat) (s : State), s.m.hbmLineOf pa.toNat = some l ∧ s.m.stackServes (Mach.hbmCtl l) = true ∧ (s.m.pcOf (Mach.hbmCtl l) (Mach.hbmPc l)).training = false)
    ∧ (∃ (pa : BitVec 56) (l : Nat) (s : State), s.m.hbmLineOf pa.toNat = some l ∧ s.m.stackServes (Mach.hbmCtl l) = true ∧ (s.m.pcOf (Mach.hbmCtl l) (Mach.hbmPc l)).training = false ∧ (s.m.hbmc (Mach.hbmCtl l)).log.length < 16)
    ∧ (∃ (pa : BitVec 56) (l : Nat) (s : State), s.m.hbmLineOf pa.toNat = some l ∧ s.m.stackServes (Mach.hbmCtl l) = true ∧ (s.m.hbmc (Mach.hbmCtl l)).pcs = [])
    ∧ (∃ (b : HbmId) (p : Fin 32) (s : State), s.m.stackRuns b.key = true ∧ (s.m.pcOf b.key p).training = false ∧ (s.m.pcOf b.key p).lastTrained + s.m.fld (hbmSet b.key 0x10) 0 8 * 50000000 ≤ s.m.now) :=
  ⟨⟨b0, hbm0 { counters := [(3, 9)] }, by unfold RegOpen; decide⟩,
   ⟨0x40, hl, st up, by decide⟩,
   ⟨0x40, hl, st up, by decide⟩,
   ⟨0x40, hl, st up, by decide⟩,
   ⟨b0, 5, st { up with now := 20000000000 }, by decide⟩⟩

theorem witness_HbmUpkeep_8 :
    (∃ (b : HbmId) (p : Fin 32) (s : State), s.m.stackRuns b.key = true ∧ (s.m.pcOf b.key p).training = false ∧ s.m.now < (s.m.pcOf b.key p).lastTrained + s.m.fld (hbmSet b.key 0x10) 0 8 * 50000000)
    ∧ (∃ (b : HbmId) (p : Fin 32) (s : State), NextDue s.m b.key p ∧ ((s.m.pcOf b.key p).forced = true ∨ (s.m.angle / 0x1000 ≠ s.m.beat.slot.toNat ∧ (s.m.pcOf b.key p).writes.length + (s.m.pcOf b.key p).reads.length ≤ s.m.fld (hbmSet b.key 0x10) 13 3)))
    ∧ (∃ (b : HbmId) (p : Fin 32) (s : State), NextDue s.m b.key p ∧ (s.m.pcOf b.key p).forced = false ∧ (s.m.angle / 0x1000 = s.m.beat.slot.toNat ∨ s.m.fld (hbmSet b.key 0x10) 13 3 < (s.m.pcOf b.key p).writes.length + (s.m.pcOf b.key p).reads.length))
    ∧ (∃ (b : HbmId) (p : Fin 32) (s : State), NextDue s.m b.key p ∧ (s.m.pcOf b.key p).dueSince + 10000000 ≤ s.m.now)
    ∧ (∃ (b : HbmId) (p : Fin 32) (s : State), (s.m.pcOf b.key p).training = true) :=
  ⟨⟨b0, 5, st up, by decide⟩,
   ⟨b0, 5, pc0 { due := true, forced := true } { dueList := [5, 6] }, by unfold Claims.NextDue; decide, .inl (by decide)⟩,
   ⟨b0, 5, pc0 { due := true } { dueList := [5, 6] }, by unfold Claims.NextDue; decide, by decide, .inl (by decide)⟩,
   ⟨b0, 5, hbm0 { dueList := [5, 6], pcs := [(5, { due := true })] } { up with now := 10001000 }, by unfold Claims.NextDue; decide, by decide⟩,
   ⟨b0, 5, pc0 { training := true, failedOnce := true }, by decide⟩⟩

theorem witness_HbmUpkeep_9 :
    (∃ (b : HbmId) (p : Fin 32) (s : State) (l : _) (w : _) (cls : _) (sector : _), (s.m.pcOf b.key p).training = true ∧ (s.m.pcOf b.key p).after = [{ line := l, isWrite := w, cls := cls, sector := sector, ok := false }] ∧ (s.m.pcOf b.key p).writes = [] ∧ (s.m.hbmc b.key).entering = false)
    ∧ (∃ (b : HbmId) (p : Fin 32) (s : State), (s.m.pcOf b.key p).training = true ∧ (s.m.setPc b.key p { s.m.pcOf b.key p with training := false }).retraining b.key = false)
    ∧ (∃ (b : HbmId) (p : Fin 32) (s : State), (s.m.pcOf b.key p).training = true ∧ (s.m.pcOf b.key p).failedOnce = false)
    ∧ (∃ (b : HbmId) (p : Fin 32) (s : State), (s.m.pcOf b.key p).training = true ∧ (s.m.pcOf b.key p).failedOnce = true)
    ∧ (∃ (b : HbmId) (s : State), RegOpen s.m (hbmSet b.key 0)) :=
  ⟨⟨b0, 5, pc0 { training := true, after := [{ line := hl + 4, isWrite := true, cls := 2, sector := 0, ok := false }] }, hl + 4, true, 2, 0, by decide⟩,
   ⟨b0, 5, pc0 { training := true } { entering := true }, by decide⟩,
   ⟨b0, 5, pc0 { training := true }, by decide⟩,
   ⟨b0, 5, pc0 { training := true, failedOnce := true }, by decide⟩,
   ⟨b0, st up, by unfold RegOpen; decide⟩⟩

theorem witness_DeepTierMoves_1 :
    (∃ (m : Mach) (v : Nat × TierPage), m.victim = some v)
    ∧ (∃ (m : Mach) (v : Nat × TierPage), m.victim = some v)
    ∧ (∃ (m : Mach) (v : Nat × TierPage), m.victim = some v)
    ∧ (∃ (m : Mach) (v : Nat × TierPage), m.victim = some v)
    ∧ (∃ (m : Mach) (v : Nat × TierPage) (q : _), m.victim = some v ∧ q ∈ m.tier.pages ∧ q.2.frame.isSome = true ∧ q.2.promoting = false ∧ q.2.evicting = false ∧ m.tier.state ≠ .readOnly) :=
  ⟨⟨({ up with tier := { state := .mounted, size := 1, pages := [(3, ({ frame := some 48, heat := 7, valid := 1, dirty := 1 } : TierPage)), (5, ({ frame := some 49, heat := 9 } : TierPage))] } } : Mach), (3, ({ frame := some 48, heat := 7, valid := 1, dirty := 1 } : TierPage)), by decide⟩,
   ⟨({ up with tier := { state := .mounted, size := 1, pages := [(3, ({ frame := some 48, heat := 7, valid := 1, dirty := 1 } : TierPage)), (5, ({ frame := some 49, heat := 9 } : TierPage))] } } : Mach), (3, ({ frame := some 48, heat := 7, valid := 1, dirty := 1 } : TierPage)), by decide⟩,
   ⟨({ up with tier := { state := .mounted, size := 1, pages := [(3, ({ frame := some 48, heat := 7, valid := 1, dirty := 1 } : TierPage)), (5, ({ frame := some 49, heat := 9 } : TierPage))] } } : Mach), (3, ({ frame := some 48, heat := 7, valid := 1, dirty := 1 } : TierPage)), by decide⟩,
   ⟨({ up with tier := { state := .mounted, size := 1, pages := [(3, ({ frame := some 48, heat := 7, valid := 1, dirty := 1 } : TierPage)), (5, ({ frame := some 49, heat := 9 } : TierPage))] } } : Mach), (3, ({ frame := some 48, heat := 7, valid := 1, dirty := 1 } : TierPage)), by decide⟩,
   ⟨({ up with tier := { state := .mounted, size := 1, pages := [(3, ({ frame := some 48, heat := 7, valid := 1, dirty := 1 } : TierPage)), (5, ({ frame := some 49, heat := 9 } : TierPage))] } } : Mach), (3, ({ frame := some 48, heat := 7, valid := 1, dirty := 1 } : TierPage)), (5, ({ frame := some 49, heat := 9 } : TierPage)), by decide⟩⟩

theorem witness_DeepTierMoves_2 :
    (∃ (p : Nat) (f : Nat) (rest : List Nat) (h : Held) (more : List Held) (s : State), s.m.tierMoves = true ∧ s.m.promoting < 256 ∧ s.m.tier.demand = p :: rest ∧ (s.m.pageOf p).evicting = false ∧ (s.m.pageOf p).frame = none ∧ s.m.freeFrame = some f ∧ s.m.tier.held = h :: more ∧ Mach.deepPage (64 * h.line) = p)
    ∧ (∃ (p : Nat) (f : Nat) (hint : Bool) (rest : List (Nat × Bool)) (s : State), s.m.tierMoves = true ∧ s.m.promoting < 256 ∧ s.m.tier.demand = [] ∧ s.m.tier.hints = (p, hint) :: rest ∧ (s.m.pageOf p).frame = none ∧ s.m.freeFrame = some f)
    ∧ (∃ (p : Nat) (rest : List (Nat × Bool)) (v : Nat × TierPage) (s : State), s.m.tierMoves = true ∧ s.m.promoting < 256 ∧ s.m.tier.demand = [] ∧ s.m.tier.hints = (p, false) :: rest ∧ (s.m.pageOf p).frame = none ∧ s.m.freeFrames = 0 ∧ s.m.victim = some v ∧ (s.m.pageOf p).heat < v.2.heat + s.m.fld (tierReg 8) 8 4)
    ∧ (∃ (p : Nat) (rest : List Nat) (v : Nat × TierPage) (s : State), s.m.tierMoves = true ∧ s.m.promoting < 256 ∧ s.m.tier.demand = p :: rest ∧ (s.m.pageOf p).evicting = false ∧ (s.m.pageOf p).frame = none ∧ s.m.freeFrame = none ∧ (∀ q ∈ s.m.tier.pages, q.2.wanted ≠ some p) ∧ s.m.victim = some v ∧ s.m.tier.state ≠ .readOnly ∧ s.m.pageHeld v.1 = [] ∧ (s.m.pageOf v.1).writing = [] ∧ (s.m.pageOf v.1).dirty ≠ 0 ∧ (s.m.pageOf v.1).frame.isSome = true)
    ∧ (∃ (p : Nat) (rest : List Nat) (q : Nat × TierPage) (s : State), s.m.tierMoves = true ∧ s.m.promoting < 256 ∧ s.m.tier.demand = p :: rest ∧ (s.m.pageOf p).evicting = false ∧ (s.m.pageOf p).frame = none ∧ s.m.freeFrame = none ∧ s.m.tier.state ≠ .readOnly ∧ s.m.tier.pages.find? (fun q => q.2.evicting && q.2.wanted == some p) = some q ∧ (s.m.pageOf q.1).recalled = true) :=
  ⟨⟨7, 48, [9], ({ agent := 1044, line := deepLine 7 3, since := 0 } : Held), [], tier fun t => { t with demand := [7, 9], held := [({ agent := 1044, line := deepLine 7 3, since := 0 } : Held)] }, by decide⟩,
   ⟨7, 48, true, [(9, false)], tier fun t => { t with hints := [(7, true), (9, false)] }, by decide⟩,
   ⟨8, [(9, true)], (10, ({ frame := some 48, heat := 9, valid := 0xFFFFFFFF, dirty := 1 } : TierPage)), fullTier 9 1 fun t => { t with hints := [(8, false), (9, true)] }, by decide +kernel, by decide +kernel, by decide, by decide, by decide +kernel, by decide +kernel, by decide +kernel, by decide +kernel⟩,
   ⟨8, [], (10, ({ frame := some 48, heat := 9, valid := 0xFFFFFFFF, dirty := 1 } : TierPage)), fullTier 9 1 fun t => { t with demand := [8] }, by decide +kernel, by decide +kernel, by decide, by decide +kernel, by decide +kernel, by decide +kernel, by decide +kernel, by decide +kernel, by decide, by decide +kernel, by decide +kernel, by decide +kernel, by decide +kernel⟩,
   ⟨8, [], (10, ({ frame := some 48, evicting := true, recalled := true, wanted := some 8, dirty := 1, writing := [0] } : TierPage)), fullTier 9 1 fun t => { t with demand := [8], pages := (10, ({ frame := some 48, evicting := true, recalled := true, wanted := some 8, dirty := 1, writing := [0] } : TierPage)) :: t.pages.drop 1 }, by decide +kernel, by decide +kernel, by decide, by decide +kernel, by decide +kernel, by decide +kernel, by decide, by decide +kernel, by decide +kernel⟩⟩

theorem witness_DeepTierMoves_3 :
    (∃ (p : Nat) (rest : List Nat) (h : Held) (r : HomeReq) (s : State), s.m.tierMoves = true ∧ s.m.promoting < 256 ∧ s.m.tier.demand = p :: rest ∧ p ∉ rest ∧ (s.m.pageOf p).evicting = false ∧ (s.m.pageOf p).frame = none ∧ s.m.tier.state = .readOnly ∧ s.m.freeFrames = 0 ∧ s.m.victim = none ∧ s.m.tier.held = [h] ∧ Mach.deepPage (64 * h.line) = p ∧ h.req = some r ∧ isHen r.agent = false)
    ∧ (∃ (p : Nat) (s : State), s.m.tierUp = true ∧ p < 11403264 ∧ (s.m.pageOf p).frame = none ∧ (s.m.freeFrames ≠ 0 ∨ (∃ v, s.m.victim = some v ∧ v.2.heat + s.m.fld (tierReg 8) 8 4 ≤ max (s.m.pageOf p).heat (s.m.fld (tierReg 8) 12 8))) ∧ (∀ x ∈ s.m.tier.hints, x.1 ≠ p) ∧ s.m.tier.hints.length < 1024)
    ∧ (∃ (p : Nat) (s : State), s.m.tierUp = true ∧ p < 11403264 ∧ (s.m.pageOf p).frame = none ∧ (s.m.freeFrames ≠ 0 ∨ (∃ v, s.m.victim = some v ∧ v.2.heat + s.m.fld (tierReg 8) 8 4 ≤ max (s.m.pageOf p).heat (s.m.fld (tierReg 8) 12 8))) ∧ (∀ x ∈ s.m.tier.hints, x.1 ≠ p) ∧ 1024 ≤ s.m.tier.hints.length)
    ∧ (∃ (p : Nat) (s : State) (v : _), s.m.tierUp = true ∧ p < 11403264 ∧ (s.m.pageOf p).frame = none ∧ s.m.freeFrames = 0 ∧ s.m.victim = some v ∧ max (s.m.pageOf p).heat (s.m.fld (tierReg 8) 12 8) < v.2.heat + s.m.fld (tierReg 8) 8 4)
    ∧ (∃ (p : Nat) (u : Fin 128) (s : State), s.m.inLean = false ∧ (s.m.pageOf p).promoting = true ∧ (s.m.pageOf p).arrived.getLsbD u = false ∧ (s.m.pageOf p).order.head? = some (u.val / 4) ∧ (s.m.pageOf p).lost.getLsbD u = false ∧ s.m.tier.held = []) :=
  ⟨⟨7, [], ({ agent := 1044, line := deepLine 7 3, since := 0, req := some { req .rdu with agent := 1044, line := deepLine 7 3 } } : Held), { req .rdu with agent := 1044, line := deepLine 7 3 }, fullTier 9 1 fun t => { t with state := .readOnly, demand := [7], held := [({ agent := 1044, line := deepLine 7 3, since := 0, req := some { req .rdu with agent := 1044, line := deepLine 7 3 } } : Held)] }, by decide +kernel, by decide +kernel, by decide, by decide, by decide +kernel, by decide +kernel, by decide, by decide +kernel, by decide +kernel, by decide⟩,
   ⟨7, tier, by decide, by decide, by decide, .inl (by decide), by decide⟩,
   ⟨7, tier fun t => { t with hints := List.replicate 1024 (3, true) }, by decide, by decide, by decide, .inl (by decide), by decide⟩,
   ⟨7, fullTier 200 1, (10, ({ frame := some 48, heat := 200, valid := 0xFFFFFFFF, dirty := 1 } : TierPage)), by decide +kernel, by decide, by decide +kernel, by decide +kernel, by decide +kernel, by decide +kernel⟩,
   ⟨3, 5, tier fun t => { t with pages := [(3, ({ frame := some 48, promoting := true, order := [1, 2] } : TierPage))] }, by decide⟩⟩

theorem witness_DeepTierMoves_4 :
    (∃ (p : Nat) (u : Fin 128) (s : State), s.m.inLean = false ∧ (s.m.pageOf p).promoting = true ∧ (s.m.pageOf p).arrived.getLsbD u = false ∧ (s.m.pageOf p).order.head? = some (u.val / 4) ∧ (s.m.pageOf p).lost.getLsbD u = false ∧ s.m.tier.held = [] ∧ FMap.get 0 (s.m.pageOf p).rungs u < 3)
    ∧ (∃ (p : Nat) (u : Fin 128) (s : State), s.m.inLean = false ∧ (s.m.pageOf p).promoting = true ∧ (s.m.pageOf p).arrived.getLsbD u = false ∧ (s.m.pageOf p).order.head? = some (u.val / 4) ∧ (s.m.pageOf p).lost.getLsbD u = false ∧ s.m.tier.held = [] ∧ 3 ≤ FMap.get 0 (s.m.pageOf p).rungs u)
    ∧ (∃ (p : Nat) (u : Fin 128) (s : State), s.m.inLean = false ∧ (s.m.pageOf p).promoting = true ∧ (s.m.pageOf p).arrived.getLsbD u = false ∧ (s.m.pageOf p).order.head? = some (u.val / 4) ∧ (s.m.pageOf p).lost.getLsbD u = false ∧ s.m.tier.held = [] ∧ FMap.get 0 (s.m.pageOf p).rungs u = 1)
    ∧ (∃ (p : Nat) (u : Fin 128) (s : State), s.m.inLean = false ∧ (s.m.pageOf p).promoting = true ∧ (s.m.pageOf p).arrived.getLsbD u = false ∧ (s.m.pageOf p).order.head? = some (u.val / 4) ∧ (s.m.pageOf p).lost.getLsbD u = false ∧ s.m.tier.held = [] ∧ FMap.get 0 (s.m.pageOf p).rungs u = 2)
    ∧ (∃ (p : Nat) (u : Fin 128) (s : State), s.m.inLean = false ∧ (s.m.pageOf p).promoting = true ∧ (s.m.pageOf p).arrived.getLsbD u = false ∧ (s.m.pageOf p).order.head? = some (u.val / 4) ∧ (s.m.pageOf p).lost.getLsbD u = false ∧ s.m.tier.held = [] ∧ FMap.get 0 (s.m.pageOf p).rungs u = 3) :=
  ⟨⟨3, 5, tier fun t => { t with pages := [(3, { ({ frame := some 48, promoting := true, order := [1, 2] } : TierPage) with rungs := [(5, 2)] })] }, by decide⟩,
   ⟨3, 5, tier fun t => { t with pages := [(3, { ({ frame := some 48, promoting := true, order := [1, 2] } : TierPage) with rungs := [(5, 3)] })] }, by decide⟩,
   ⟨3, 5, tier fun t => { t with pages := [(3, { ({ frame := some 48, promoting := true, order := [1, 2] } : TierPage) with rungs := [(5, 1)] })] }, by decide⟩,
   ⟨3, 5, tier fun t => { t with pages := [(3, { ({ frame := some 48, promoting := true, order := [1, 2] } : TierPage) with rungs := [(5, 2)] })] }, by decide⟩,
   ⟨3, 5, tier fun t => { t with pages := [(3, { ({ frame := some 48, promoting := true, order := [1, 2] } : TierPage) with rungs := [(5, 3)] })] }, by decide⟩⟩

theorem witness_DeepTierMoves_5 :
    (∃ (k : Nat) (h : Held) (s : State), s.m.tier.held[k]? = some h ∧ h.late = false ∧ h.since + 1000000 ≤ s.m.now)
    ∧ (∃ (k : Nat) (h : Held) (s : State), s.m.tier.held[k]? = some h ∧ (h.late = true ∨ s.m.now < h.since + 1000000))
    ∧ (∃ (v : Nat × TierPage) (s : State), s.m.tierMoves = true ∧ (∀ p ∈ s.m.tier.pages, p.2.evicting = true → p.2.recalled = true) ∧ s.m.freeFrames + (s.m.tier.pages.filter fun p => p.2.evicting && p.2.wanted.isNone).length < 8 * s.m.fld (tierReg 0xC) 16 8 ∧ s.m.victim = some v ∧ s.m.pageHeld v.1 = [] ∧ (s.m.pageOf v.1).writing = [] ∧ s.m.tier.state ≠ .readOnly ∧ (s.m.pageOf v.1).dirty = 0)
    ∧ (∃ (v : Nat × TierPage) (s : State) (i : _), s.m.tierMoves = true ∧ (∀ p ∈ s.m.tier.pages, p.2.evicting = true → p.2.recalled = true) ∧ s.m.freeFrames + (s.m.tier.pages.filter fun p => p.2.evicting && p.2.wanted.isNone).length < 8 * s.m.fld (tierReg 0xC) 16 8 ∧ s.m.victim = some v ∧ s.m.pageHeld v.1 = [] ∧ (s.m.pageOf v.1).writing = [] ∧ s.m.tier.state ≠ .readOnly ∧ i < 32 ∧ (s.m.pageOf v.1).dirty.getLsbD i = true)
    ∧ (∃ (p : Nat) (rest : List (Nat × TierPage)) (s : State), s.m.tierMoves = true ∧ (s.m.tier.pages.filter fun q => q.2.evicting && !q.2.recalled) = (p, s.m.pageOf p) :: rest ∧ s.m.pageHeld p = [] ∧ (s.m.pageOf p).writing = [] ∧ (s.m.pageOf p).dirty = 0) :=
  ⟨⟨1, ({ agent := 1044, line := deepLine 7 3, since := 0 } : Held), tier (fun t => { t with held := [({ agent := 1044, line := deepLine 7 3, since := 0 } : Held), ({ agent := 1044, line := deepLine 7 3, since := 0 } : Held)] }) { up with now := 2000000 }, by decide⟩,
   ⟨1, { ({ agent := 1044, line := deepLine 7 3, since := 0 } : Held) with late := true }, tier fun t => { t with held := [({ agent := 1044, line := deepLine 7 3, since := 0 } : Held), { ({ agent := 1044, line := deepLine 7 3, since := 0 } : Held) with late := true }] }, by decide, .inl (by decide)⟩,
   ⟨(10, { frame := some 48, heat := 9, valid := 1 }), tier fun t => { t with pages := (List.range 8144).map fun i => (i + 10, { frame := some (48 + i), heat := 9, valid := 1 }) }, by decide +kernel, by decide +kernel, by decide +kernel, by decide +kernel, by decide +kernel, by decide +kernel, by decide, by decide +kernel⟩,
   ⟨(10, { frame := some 48, heat := 9, valid := 0xFFFFFFFF, dirty := 2 }), fullTier 9 2, 1, by decide +kernel, by decide +kernel, by decide +kernel, by decide +kernel, by decide +kernel, by decide +kernel, by decide, by decide, by decide +kernel⟩,
   ⟨3, [], tier fun t => { t with pages := [(3, { frame := some 48, evicting := true, valid := 1 })] }, by decide⟩⟩

theorem witness_DeepTierMoves_6 :
    (∃ (p : Nat) (i : Fin 32) (s : State), s.m.inLean = false ∧ i.val ∈ (s.m.pageOf p).writing ∧ (s.m.pageOf p).evicting = true ∧ (s.m.pageOf p).recalled = true ∧ (s.m.pageOf p).dirty.getLsbD i = true ∧ s.m.tier.flushing = false ∧ s.m.tier.state ≠ .readOnly)
    ∧ (∃ (p : Nat) (i : Fin 32) (s : State), s.m.inLean = false ∧ i.val ∈ (s.m.pageOf p).writing ∧ (s.m.pageOf p).evicting = false ∧ s.m.tier.flushing = false ∧ FMap.wf none s.m.tier.inFlight = true ∧ 65536 * 86400 < s.m.tier.account)
    ∧ (∃ (p : Nat) (i : Fin 32) (s : State), s.m.inLean = false ∧ i.val ∈ (s.m.pageOf p).writing ∧ (s.m.pageOf p).evicting = false ∧ s.m.tier.flushing = false ∧ FMap.wf none s.m.tier.inFlight = true ∧ 65536 * 86400 < s.m.tier.account)
    ∧ (∃ (p : Nat) (i : Fin 32) (s : State), s.m.inLean = false ∧ i.val ∈ (s.m.pageOf p).writing ∧ (s.m.pageOf p).evicting = false ∧ s.m.tier.flushing = false ∧ FMap.wf none s.m.tier.inFlight = true ∧ 65536 * 86400 < s.m.tier.account)
    ∧ (∃ (p : Nat) (i : Fin 32) (s : State), s.m.inLean = false ∧ i.val ∈ (s.m.pageOf p).writing ∧ (s.m.pageOf p).evicting = false ∧ s.m.tier.flushing = false ∧ FMap.wf none s.m.tier.inFlight = true ∧ 65536 * 86400 < s.m.tier.account) :=
  ⟨⟨3, 4, tier fun t => { t with pages := [(3, { frame := some 48, evicting := true, recalled := true, dirty := 16, writing := [4] })] }, by decide⟩,
   ⟨3, 4, tier fun t => { t with account := 65536 * 86400 + 1, inFlight := [(3 * 0x200000 + 4 * 0x10000 + 2, some 9)], pages := [(3, { ({ frame := some 48, heat := 7, valid := 1, dirty := 1 } : TierPage) with writing := [4] })] }, by decide⟩,
   ⟨3, 4, tier fun t => { t with account := 65536 * 86400 + 1, inFlight := [(3 * 0x200000 + 4 * 0x10000 + 2, some 9)], pages := [(3, { ({ frame := some 48, heat := 7, valid := 1, dirty := 1 } : TierPage) with writing := [4] })] }, by decide⟩,
   ⟨3, 4, tier fun t => { t with account := 65536 * 86400 + 1, inFlight := [(3 * 0x200000 + 4 * 0x10000 + 2, some 9)], pages := [(3, { ({ frame := some 48, heat := 7, valid := 1, dirty := 1 } : TierPage) with writing := [4] })] }, by decide⟩,
   ⟨3, 4, tier fun t => { t with account := 65536 * 86400 + 1, inFlight := [(3 * 0x200000 + 4 * 0x10000 + 2, some 9)], pages := [(3, { ({ frame := some 48, heat := 7, valid := 1, dirty := 1 } : TierPage) with writing := [4] })] }, by decide⟩⟩

theorem witness_DeepTierMoves_7 :
    (∃ (p : Nat) (i : Fin 32) (s : State), s.m.inLean = false ∧ i.val ∈ (s.m.pageOf p).writing ∧ (s.m.pageOf p).evicting = false ∧ s.m.tier.flushing = false ∧ FMap.wf none s.m.tier.inFlight = true ∧ 65536 * 86400 < s.m.tier.account)
    ∧ (∃ (p : Nat) (i : Fin 32) (s : State) (a : _), s.m.inLean = false ∧ i.val ∈ (s.m.pageOf p).writing ∧ (s.m.pageOf p).evicting = false ∧ s.m.tier.flushing = false ∧ FMap.wf none s.m.tier.inFlight = true ∧ 65536 * 86400 < s.m.tier.account ∧ p * 0x200000 + i.val * 0x10000 ≤ a ∧ a < p * 0x200000 + i.val * 0x10000 + 0x10000)
    ∧ (∃ (p : Nat) (i : Fin 32) (s : State), s.m.inLean = false ∧ i.val ∈ (s.m.pageOf p).writing ∧ (s.m.pageOf p).evicting = false ∧ s.m.tier.flushing = false ∧ 0 < s.m.tier.account ∧ s.m.tier.account ≤ 65536 * 86400)
    ∧ (∃ (gone : Nat) (s : State), FMap.wf {} s.m.tier.pages = true ∧ gone = (s.m.beat.number.toNat + 2 ^ 24 - s.m.tier.epochBeat) % 2 ^ 24 ∧ gone < 2 ^ 23 ∧ s.m.fld (tierReg 0xC) 0 16 ≤ gone)
    ∧ (∃ (gone : Nat) (s : State), FMap.wf {} s.m.tier.pages = true ∧ gone = (s.m.beat.number.toNat + 2 ^ 24 - s.m.tier.epochBeat) % 2 ^ 24 ∧ gone < 2 ^ 23 ∧ gone < s.m.fld (tierReg 0xC) 0 16) :=
  ⟨⟨3, 4, tier fun t => { t with account := 65536 * 86400 + 1, inFlight := [(3 * 0x200000 + 4 * 0x10000 + 2, some 9)], pages := [(3, { ({ frame := some 48, heat := 7, valid := 1, dirty := 1 } : TierPage) with writing := [4] })] }, by decide⟩,
   ⟨3, 4, tier fun t => { t with account := 65536 * 86400 + 1, inFlight := [(3 * 0x200000 + 4 * 0x10000 + 2, some 9)], pages := [(3, { ({ frame := some 48, heat := 7, valid := 1, dirty := 1 } : TierPage) with writing := [4] })] }, 3 * 0x200000 + 4 * 0x10000 + 2, by decide⟩,
   ⟨3, 4, tier fun t => { t with account := 65536 * 86400, inFlight := [(3 * 0x200000 + 4 * 0x10000 + 2, some 9)], pages := [(3, { ({ frame := some 48, heat := 7, valid := 1, dirty := 1 } : TierPage) with writing := [4] })] }, by decide⟩,
   ⟨_, tier (fun t => { t with pages := [(3, { frame := some 48, heat := 9 })] }) { up with beat := { up.beat with number := 0x10000 } }, by decide, rfl, by decide⟩,
   ⟨_, tier (fun t => { t with pages := [(3, { frame := some 48, heat := 9 })] }), by decide, rfl, by decide⟩⟩

theorem witness_DeepTierMoves_8 :
    (∃ (p : Nat) (i : Fin 32) (pg : TierPage) (s : State), s.m.tierMoves = true ∧ s.m.tier.state ≠ .readOnly ∧ s.m.bit (tierReg 0) 6 = true ∧ s.m.tier.budgetSpent = false ∧ s.m.tier.demand = [] ∧ s.m.tier.hints = [] ∧ s.m.tier.pages = [(p, pg)] ∧ pg.frame.isSome = true ∧ pg.promoting = false ∧ pg.evicting = false ∧ pg.writing = [] ∧ pg.dirty.getLsbD i = true ∧ pg.heat < s.m.fld (tierReg 8) 20 8 ∧ s.m.save.active = none ∧ 8 * s.m.fld (tierReg 0xC) 16 8 ≤ s.m.freeFrames)
    ∧ (∃ (s : State), s.m.boot.powered = false)
    ∧ (∃ (s : State), s.m.boot.powered = true)
    ∧ (∃ (s : State), s.m.inLean = false ∧ s.m.tierUp = true)
    ∧ (∃ (s : State), s.m.inLean = false ∧ s.m.tierUp = true) :=
  ⟨⟨3, 0, ({ frame := some 48, heat := 7, valid := 1, dirty := 1 } : TierPage), tier (fun t => { t with pages := [(3, ({ frame := some 48, heat := 7, valid := 1, dirty := 1 } : TierPage))] }) { up with regs := [(tierReg 0, 0x40)] }, by decide⟩,
   ⟨st { up with boot := { up.boot with powered := false } }, by decide⟩,
   ⟨st up, by decide⟩,
   ⟨tier, by decide⟩,
   ⟨tier, by decide⟩⟩

theorem witness_DeepTierMoves_9 :
    (∃ (s : State), RegOpen s.m (tierReg 0) ∧ s.m.tierUp = true ∧ s.m.tier.pages = [])
    ∧ (∃ (s : State) (p : _) (pg : _) (i : _), RegOpen s.m (tierReg 0) ∧ s.m.tierUp = true ∧ i < 32 ∧ s.m.tier.pages = [(p, pg)] ∧ pg.evicting = false ∧ pg.writing = [] ∧ pg.dirty.getLsbD i = true ∧ s.m.inLean = false ∧ s.m.tier.state ≠ .readOnly)
    ∧ (∃ (s : State), s.m.tier.flushing = true ∧ s.m.inLean = false ∧ (∀ p ∈ s.m.tier.pages, p.2.dirty = 0 ∧ p.2.writing = [])) :=
  ⟨⟨tier, by unfold RegOpen; decide, by decide⟩,
   ⟨tier fun t => { t with pages := [(3, ({ frame := some 48, heat := 7, valid := 1, dirty := 1 } : TierPage))] }, 3, ({ frame := some 48, heat := 7, valid := 1, dirty := 1 } : TierPage), 0, by unfold RegOpen; decide, by decide⟩,
   ⟨tier fun t => { t with flushing := true, pages := [(5, ({ frame := some 49, heat := 9 } : TierPage))] }, by decide⟩⟩

theorem witness_FlitsReceived_1 :
    (∃ (l : LinkId) (h : FlitHdr) (post : List (BitVec 12 × FlitBody)) (s : State), GoodFlit s.m l.key h ∧ Retry s.m l.key h post)
    ∧ (∃ (type : Nat), type < 16)
    ∧ (∃ (l : LinkId) (h : FlitHdr) (post : List (BitVec 12 × FlitBody)) (s : State), GoodFlit s.m l.key h ∧ Retry s.m l.key h post ∧ ((s.m.link l.key).nakRun = 0 ∨ (s.m.link l.key).nakAck ≠ h.ack) ∧ (s.m.link l.key).owed = [])
    ∧ (∃ (l : LinkId) (h : FlitHdr) (s : State), GoodFlit s.m l.key h ∧ (s.m.link l.key).nakRun = 7 ∧ (s.m.link l.key).nakAck = h.ack)
    ∧ (∃ (l : LinkId) (h : FlitHdr) (p : BitVec 152) (v : BitVec 8) (s : State), GoodFlit s.m l.key h ∧ (s.m.link l.key).retry = [] ∧ (v = (if (discOf p).version.toNat ≤ Config.linkVersion.toNat then (discOf p).version else Config.linkVersion)) ∧ isHerdLink l.key = true ∧ p.extractLsb' 0 64 ≠ s.m.herd.identity) :=
  ⟨⟨lp, hdr 0 3, [(4, FlitBody.topo (trec 5 1 2))], lnk { retry := [(3, FlitBody.topo (trec 5 1 2)), (4, FlitBody.topo (trec 5 1 2))] }, by unfold Claims.GoodFlit; decide, ⟨[], _, rfl, fun _ h => nomatch h⟩⟩,
   ⟨4, by decide⟩,
   ⟨lp, hdr 0 3, [(4, FlitBody.topo (trec 5 1 2))], lnk { retry := [(3, FlitBody.topo (trec 5 1 2)), (4, FlitBody.topo (trec 5 1 2))] }, by unfold Claims.GoodFlit; decide, ⟨[], _, rfl, fun _ h => nomatch h⟩, .inl (by decide), by decide⟩,
   ⟨lp, hdr 0 3, lnk { retry := [(3, FlitBody.topo (trec 5 1 2)), (4, FlitBody.topo (trec 5 1 2))], nakRun := 7, nakAck := 3 }, by unfold Claims.GoodFlit; decide, by decide⟩,
   ⟨lp, hdr 0 3, pay 9, _, lnk {}, by unfold Claims.GoodFlit; decide, by decide, rfl, by decide⟩⟩

theorem witness_FlitsReceived_2 :
    (∃ (l : LinkId) (h : FlitHdr) (p : BitVec 152) (v : BitVec 8) (s : State), GoodFlit s.m l.key h ∧ (s.m.link l.key).retry = [] ∧ (v = (if (discOf p).version.toNat ≤ Config.linkVersion.toNat then (discOf p).version else Config.linkVersion)) ∧ isHerdLink l.key = true ∧ p.extractLsb' 0 64 = s.m.herd.identity ∧ s.m.herd.topo = [])
    ∧ (∃ (l : LinkId) (h : FlitHdr) (p : BitVec 152) (v : BitVec 8) (s : State), GoodFlit s.m l.key h ∧ (s.m.link l.key).retry = [] ∧ (v = (if (discOf p).version.toNat ≤ Config.linkVersion.toNat then (discOf p).version else Config.linkVersion)) ∧ isHerdLink l.key = false)
    ∧ (∃ (l : LinkId) (h : FlitHdr) (s : State), GoodFlit s.m l.key h ∧ h.seq = (s.m.link l.key).rxSeq)
    ∧ (∃ (l : LinkId) (h : FlitHdr) (x : HerdMsg) (s : State), GoodFlit s.m l.key h ∧ isHerdLink l.key = true ∧ h.seq = (s.m.link l.key).rxSeq ∧ (s.m.topoOf x.src.toNat).dead = false ∧ x.kind ≠ .multicast ∧ s.m.herd.attached = true ∧ x.dst = s.m.herd.module)
    ∧ (∃ (l : LinkId) (h : FlitHdr) (x : HerdMsg) (s : State), GoodFlit s.m l.key h ∧ isHerdLink l.key = true ∧ h.seq = (s.m.link l.key).rxSeq ∧ (s.m.topoOf x.src.toNat).dead = false ∧ x.kind ≠ .multicast ∧ x.dst ≠ s.m.herd.module ∧ 15 ≤ x.hops) :=
  ⟨⟨lp, hdr 0 3, pay 0, _, lnk {}, by unfold Claims.GoodFlit; decide, by decide, rfl, by decide⟩,
   ⟨.cdie 1, hdr 0 3, pay 9, _, st { up with links := [(13, { state := .up })] }, by unfold Claims.GoodFlit; decide, by decide, rfl, by decide⟩,
   ⟨lp, hdr 6 3, lnk { rxSeq := 6 }, by unfold Claims.GoodFlit; decide, by decide⟩,
   ⟨lp, hdr 6 3, { hmsg .read with dst := 4, src := 5 }, lnk { rxSeq := 6 } { up with herd := { module := 4, attached := true } }, by unfold Claims.GoodFlit; decide, by decide⟩,
   ⟨lp, hdr 6 3, { hmsg .read with dst := 9, src := 5, hops := 15 }, lnk { rxSeq := 6 } { up with herd := { module := 4, attached := true } }, by unfold Claims.GoodFlit; decide, by decide⟩⟩

theorem witness_FlitsReceived_3 :
    (∃ (l : LinkId) (h : FlitHdr) (s : State), GoodFlit s.m l.key h ∧ h.seq ≠ (s.m.link l.key).rxSeq ∧ (s.m.link l.key).discarding = false ∧ (s.m.link l.key).owed = [])
    ∧ (∃ (l : LinkId) (h : FlitHdr) (s : State), GoodFlit s.m l.key h ∧ h.seq ≠ (s.m.link l.key).rxSeq ∧ (s.m.link l.key).discarding = true)
    ∧ (∃ (l : LinkId) (h : FlitHdr) (r : TopoRec) (s : State), GoodFlit s.m l.key h ∧ isHerdLink l.key = true ∧ h.seq = (s.m.link l.key).rxSeq ∧ r.identity ≠ s.m.herd.identity ∧ r.module ≠ 511 ∧ s.m.herd.attached = false ∧ (∀ x, (s.m.topoOf r.module.toNat).record = some x → x.seq < r.seq ∧ x.identity = r.identity))
    ∧ (∃ (l : LinkId) (h : FlitHdr) (r : TopoRec) (s : State) (x : _), GoodFlit s.m l.key h ∧ isHerdLink l.key = true ∧ h.seq = (s.m.link l.key).rxSeq ∧ r.identity ≠ s.m.herd.identity ∧ r.module ≠ 511 ∧ (s.m.topoOf r.module.toNat).record = some x ∧ r.seq ≤ x.seq ∧ x.identity = r.identity)
    ∧ (∃ (l : LinkId) (h : FlitHdr) (r : TopoRec) (s : State), GoodFlit s.m l.key h ∧ isHerdLink l.key = true ∧ h.seq = (s.m.link l.key).rxSeq ∧ r.identity ≠ s.m.herd.identity ∧ r.module ≠ 511 ∧ s.m.herd.bellwether = true ∧ r.bellwether = true ∧ s.m.herd.identity.toNat < r.identity.toNat ∧ (s.m.topoOf r.module.toNat).dead = false ∧ (∃ x, (s.m.topoOf r.module.toNat).record = some x ∧ x.identity ≠ r.identity)) :=
  ⟨⟨lp, hdr 7 3, lnk { rxSeq := 6 }, by unfold Claims.GoodFlit; decide, by decide⟩,
   ⟨lp, hdr 7 3, lnk { rxSeq := 6, discarding := true }, by unfold Claims.GoodFlit; decide, by decide⟩,
   ⟨lp, hdr 6 3, trec 5 1 2, lnk { rxSeq := 6 }, by unfold Claims.GoodFlit; decide, by decide, by decide, by decide, by decide, by decide, fun _ h => nomatch (show none = some _ from h)⟩,
   ⟨lp, hdr 6 3, trec 5 1 2, lnk { rxSeq := 6 } { up with herd := { topo := [(5, { record := some (trec 5 1 2) })] } }, trec 5 1 2, by unfold Claims.GoodFlit; decide, by decide⟩,
   ⟨lp, hdr 6 3, { trec 5 1 2 with bellwether := true }, lnk { rxSeq := 6 } { up with herd := { identity := 1, bellwether := true, topo := [(5, { record := some (trec 5 1 3) })] } }, by unfold Claims.GoodFlit; decide, by decide, by decide, by decide, by decide, by decide, by decide, by decide, by decide, ⟨_, rfl, by decide⟩⟩⟩

theorem witness_FlitsReceived_4 :
    (∃ (l : LinkId) (h : FlitHdr) (r : TopoRec) (s : State), GoodFlit s.m l.key h ∧ isHerdLink l.key = true ∧ h.seq = (s.m.link l.key).rxSeq ∧ r.identity ≠ s.m.herd.identity ∧ r.module ≠ 511 ∧ s.m.herd.attached = true ∧ s.m.herd.bellwether = true ∧ r.bellwether = true ∧ r.module = s.m.herd.module ∧ r.identity.toNat < s.m.herd.identity.toNat ∧ (s.m.topoOf r.module.toNat).record = none)
    ∧ (∃ (l : LinkId) (h : FlitHdr) (j : Nat) (s : State), GoodFlit s.m l.key h ∧ (s.m.link l.key).retry = [] ∧ isHerdLink l.key = false ∧ linkMate l.key = some j ∧ j < 12 ∧ (s.m.die (j / 3)).dead = true)
    ∧ (∃ (l : LinkId) (h : FlitHdr) (j : Nat) (s : State), GoodFlit s.m l.key h ∧ isHerdLink l.key = false ∧ linkMate l.key = some j ∧ j < 12) :=
  ⟨⟨lp, hdr 6 3, { trec 5 1 2 with bellwether := true }, lnk { rxSeq := 6 } { up with herd := { identity := 9, attached := true, bellwether := true, module := 5 } }, by unfold Claims.GoodFlit; decide, by decide⟩,
   ⟨.cdie 1, hdr 6 3, 3, st { up.modDie 1 (fun d => { d with dead := true }) with links := [(13, { state := .up })] }, by unfold Claims.GoodFlit; decide, by decide⟩,
   ⟨.cdie 1, hdr 6 3, 3, st { up with links := [(13, { state := .up })] }, by unfold Claims.GoodFlit; decide, by decide⟩⟩

theorem witness_LinkTrainingAndDown_1 :
    (∃ (l : LinkId) (lane : Fin 34) (s : State), (s.m.link l.key).isUp = true ∧ lane.val < (linkLanes l.key).1 + (linkLanes l.key).2)
    ∧ (∃ (l : LinkId) (s : State), (s.m.link l.key).isUp = true ∧ (s.m.link l.key).lastGood + 50000 ≤ s.m.now)
    ∧ (∃ (l : LinkId) (s : State), (s.m.link l.key).isUp = true ∧ s.m.now < (s.m.link l.key).lastGood + 50000)
    ∧ (∃ (l : LinkId) (s : State), (s.m.link l.key).isUp = true ∧ RegOpen s.m (linkReg l.key 0))
    ∧ (∃ (l : LinkId) (s : State), (s.m.link l.key).isUp = true ∧ (s.m.link l.key).txq = []) :=
  ⟨⟨lp, 4, lnk {}, by decide⟩,
   ⟨lp, lnk {} { up with now := 60000 }, by decide⟩,
   ⟨lp, lnk {}, by decide⟩,
   ⟨lp, lnk {}, by decide, by unfold RegOpen; decide⟩,
   ⟨lp, lnk {}, by decide⟩⟩

theorem witness_LinkTrainingAndDown_2 :
    (∃ (l : LinkId) (f : BitVec 34) (s : State), (s.m.link l.key).state = .training ∧ lanesLost l.key f ≤ sparesLeft l.key f)
    ∧ (∃ (l : LinkId) (f : BitVec 34) (s : State), (s.m.link l.key).state = .training ∧ sparesLeft l.key f < lanesLost l.key f ∧ lanesLost l.key f - sparesLeft l.key f ≤ (linkLanes l.key).1 / 2)
    ∧ (∃ (l : LinkId) (f : BitVec 34) (s : State), (s.m.link l.key).state = .training ∧ (linkLanes l.key).1 / 2 < lanesLost l.key f - sparesLeft l.key f ∧ lanesLost l.key f - sparesLeft l.key f ≤ (linkLanes l.key).1 - (linkLanes l.key).1 / 4)
    ∧ (∃ (l : LinkId) (f : BitVec 34) (s : State), (s.m.link l.key).state = .training ∧ (linkLanes l.key).1 - (linkLanes l.key).1 / 4 < lanesLost l.key f - sparesLeft l.key f ∧ isHerdLink l.key = true ∧ s.m.herd.topo = [])
    ∧ (∃ (l : LinkId) (s : State), (s.m.link l.key).state = .training ∧ isHerdLink l.key = true ∧ s.m.herd.topo = []) :=
  ⟨⟨lp, 0x2, st { up with links := [(18, { state := .training })] }, by decide⟩,
   ⟨lp, 0x3, st { up with links := [(18, { state := .training })] }, by decide⟩,
   ⟨lp, 0x17, st { up with links := [(18, { state := .training })] }, by decide⟩,
   ⟨lp, 0x1F, st { up with links := [(18, { state := .training })] }, by decide⟩,
   ⟨lp, st { up with links := [(18, { state := .training })] }, by decide⟩⟩

theorem witness_LinkTrainingAndDown_3 :
    (∃ (l : LinkId) (d : Nat) (s : State), (s.m.link l.key).state = .training ∧ isHerdLink l.key = false ∧ linkVictim l.key = some d)
    ∧ (∃ (m : Mach) (d : Nat), Quiet m ∧ (m.die d).dead = false)
    ∧ (∃ (m : Mach) (d : Nat) (k : _), Quiet m ∧ (m.die d).dead = false ∧ k ∈ dieLinks d)
    ∧ (∃ (m : Mach) (d : Nat), Quiet m ∧ (m.die d).dead = false)
    ∧ (∃ (p : Fin 16) (s : State), (s.m.link (16 + p)).state = .down ∧ (s.m.link (16 + p)).held = false ∧ s.m.portEnabled p = true ∧ (∀ d, (s.m.die d).dead = false) ∧ (s.m.link (16 + p)).looped = false ∧ (s.m.link (16 + p)).cable = true) :=
  ⟨⟨.adie 2 1, 2, st { up with links := [(7, { state := .training })] }, by decide⟩,
   ⟨up, 2, ⟨rfl, rfl, rfl, rfl, rfl, rfl, rfl, rfl, rfl, rfl, rfl, fun _ => rfl, by decide⟩, by decide⟩,
   ⟨up, 2, 14, ⟨rfl, rfl, rfl, rfl, rfl, rfl, rfl, rfl, rfl, rfl, rfl, fun _ => rfl, by decide⟩, by decide⟩,
   ⟨up, 2, ⟨rfl, rfl, rfl, rfl, rfl, rfl, rfl, rfl, rfl, rfl, rfl, fun _ => rfl, by decide⟩, by decide⟩,
   ⟨2, st { links := [(18, { cable := true })], regs := [(herdReg 0x408, 0xFFFF0000)] }, by decide, by decide, by decide, fun _ => rfl, by decide⟩⟩

theorem witness_LinkTrainingAndDown_4 :
    (∃ (p : Fin 16) (s : State), (s.m.link (16 + p)).state = .down ∧ (s.m.link (16 + p)).held = false ∧ s.m.portEnabled p = true ∧ (∀ d, (s.m.die d).dead = false) ∧ (s.m.link (16 + p)).cable = false)
    ∧ (∃ (p : Fin 16) (s : State), (s.m.link (16 + p)).isUp = true ∧ s.m.herd.topo = [])
    ∧ (∃ (l : LinkId) (s : State), RegOpen s.m (linkReg l.key 0) ∧ (s.m.link l.key).isUp = true ∧ isHerdLink l.key = true ∧ s.m.herd.topo = [])
    ∧ (∃ (l : LinkId) (s : State), RegOpen s.m (linkReg l.key 0)) :=
  ⟨⟨2, st { links := [], regs := [(herdReg 0x408, 0xFFFF0000)] }, by decide, by decide, by decide, fun _ => rfl, by decide⟩,
   ⟨2, lnk { cable := true }, by decide⟩,
   ⟨lp, lnk {}, by unfold RegOpen; decide, by decide⟩,
   ⟨lp, lnk { held := true }, by unfold RegOpen; decide⟩⟩

theorem witness_HerdRequestsAndAttach_1 :
    (∃ (h : HerdMsg) (rest : List HerdMsg) (sa : Nat) (x : SliceLine) (s : State), Asked s h rest ∧ h.kind = .write ∧ s.m.target h.addr.toNat = .home sa ∧ s.m.targetDead (.home sa) = false ∧ s.m.targetHeld (.home sa) = false ∧ HomeReady s (sa / 64) x ∧ s.m.entry (sa / 64) = {} ∧ h.mask = fullMask)
    ∧ (∃ (h : HerdMsg) (rest : List HerdMsg) (sa : Nat) (x : SliceLine) (s : State), Asked s h rest ∧ h.kind = .read ∧ s.m.target h.addr.toNat = .home sa ∧ s.m.targetDead (.home sa) = false ∧ s.m.targetHeld (.home sa) = false ∧ HomeReady s (sa / 64) x ∧ s.m.entry (sa / 64) = {})
    ∧ (∃ (h : HerdMsg) (rest : List HerdMsg) (sa : Nat) (x : SliceLine) (old : Nat) (new : BitVec 512) (s : State), Asked s h rest ∧ h.kind = .amo ∧ s.m.target h.addr.toNat = .home sa ∧ s.m.targetDead (.home sa) = false ∧ s.m.targetHeld (.home sa) = false ∧ HomeReady s (sa / 64) x ∧ s.m.entry (sa / 64) = {} ∧ x.poison = false ∧ h.poison = false ∧ (old, new) = aqApply x.data { agent := ingressAgent, line := sa / 64, code := h.code.toNat, off := h.addr.toNat % 64, arg := h.data, cmp := h.cmp, mask := h.mask, stamp := 0 })
    ∧ (∃ (h : HerdMsg) (rest : List HerdMsg) (sa : Nat) (x : SliceLine) (s : State), Asked s h rest ∧ h.kind = .amo ∧ s.m.target h.addr.toNat = .home sa ∧ s.m.targetDead (.home sa) = false ∧ s.m.targetHeld (.home sa) = false ∧ HomeReady s (sa / 64) x ∧ s.m.entry (sa / 64) = {} ∧ h.poison = true)
    ∧ (∃ (h : HerdMsg) (rest : List HerdMsg) (sa : Nat) (s : State), Asked s h rest ∧ (h.kind = .read ∨ h.kind = .write ∨ h.kind = .amo) ∧ s.m.target h.addr.toNat = .home sa ∧ s.m.targetDead (.home sa) = false ∧ s.m.targetHeld (.home sa) = true) :=
  ⟨⟨hmsg .write, [], 0x010000000040, sl0, herd { inbox := [hmsg .write] } { up with coh := { lines := [(hl, some sl0)] } }, by unfold Claims.Asked; decide, by decide, by decide, by decide, by decide, by unfold Claims.HomeReady Claims.HomeFree Claims.StoreRoom; decide, by decide⟩,
   ⟨hmsg .read, [], 0x010000000040, sl0, herd { inbox := [hmsg .read] } { up with coh := { lines := [(hl, some sl0)] } }, by unfold Claims.Asked; decide, by decide, by decide, by decide, by decide, by unfold Claims.HomeReady Claims.HomeFree Claims.StoreRoom; decide, by decide⟩,
   ⟨{ hmsg .amo with code := 15 }, [], 0x010000000040, sl0, _, _, herd { inbox := [{ hmsg .amo with code := 15 }] } { up with coh := { lines := [(hl, some sl0)] } }, by unfold Claims.Asked; decide, by decide, by decide, by decide, by decide, by unfold Claims.HomeReady Claims.HomeFree Claims.StoreRoom; decide, by decide, by decide, by decide, rfl⟩,
   ⟨{ hmsg .amo with code := 15, poison := true }, [], 0x010000000040, sl0, herd { inbox := [{ hmsg .amo with code := 15, poison := true }] } { up with coh := { lines := [(hl, some sl0)] } }, by unfold Claims.Asked; decide, by decide, by decide, by decide, by decide, by unfold Claims.HomeReady Claims.HomeFree Claims.StoreRoom; decide, by decide⟩,
   ⟨hmsg .read, [], 0x010000000040, herd { inbox := [hmsg .read] } (up.modDie 0 fun x => { x with curRet := true }), by unfold Claims.Asked; decide, .inl (by decide), by decide⟩⟩

theorem witness_HerdRequestsAndAttach_2 :
    (∃ (h : HerdMsg) (sa : Nat) (x : SliceLine) (s : State), s.m.herd.inbox = [] ∧ s.m.herd.issued = [h] ∧ h.src = s.m.herd.module ∧ h.kind = .read ∧ s.m.target h.addr.toNat = .home sa ∧ s.m.targetDead (.home sa) = false ∧ s.m.targetHeld (.home sa) = false ∧ HomeReady s (sa / 64) x ∧ s.m.entry (sa / 64) = {})
    ∧ (∃ (h : HerdMsg) (rest : List HerdMsg) (d : Nat) (i : Nat) (s : State), Asked s h rest ∧ d < 4 ∧ i < 4096 ∧ h.addr.toNat % 0x8000 = (d + 1) * 4096 + i ∧ s.m.dieOut d = false ∧ h.kind = .sadd ∧ (s.m.sync d).waits = [])
    ∧ (∃ (h : HerdMsg) (rest : List HerdMsg) (d : Nat) (i : Nat) (s : State), Asked s h rest ∧ d < 4 ∧ i < 4096 ∧ h.addr.toNat % 0x8000 = (d + 1) * 4096 + i ∧ s.m.dieOut d = false ∧ h.kind = .sread)
    ∧ (∃ (h : HerdMsg) (rest : List HerdMsg) (d : Nat) (i : Nat) (s : State), Asked s h rest ∧ d < 4 ∧ i < 4096 ∧ h.addr.toNat % 0x8000 = (d + 1) * 4096 + i ∧ s.m.dieOut d = false ∧ h.kind = .swait ∧ (s.m.sync d).waits = [] ∧ Mach.syncReached (s.m.syncObj d i).count (BitVec.ofNat 24 h.data.toNat) = false)
    ∧ (∃ (h : HerdMsg) (rest : List HerdMsg) (s : State), s.m.herd.inbox = h :: rest ∧ (h.kind = .write ∨ h.kind = .amo ∨ h.kind = .sadd) ∧ (FMap.get {} s.m.herd.ingress h.src.toNat).next < h.num) :=
  ⟨⟨hmsg .read, 0x010000000040, sl0, herd { issued := [hmsg .read] } { up with coh := { lines := [(hl, some sl0)] } }, by decide, by decide, by decide, by decide, by decide, by decide, by decide, by unfold Claims.HomeReady Claims.HomeFree Claims.StoreRoom; decide, by decide⟩,
   ⟨{ hmsg .sadd with addr := 0x4FFF }, [], 3, 4095, herd { inbox := [{ hmsg .sadd with addr := 0x4FFF }] }, by unfold Claims.Asked; decide, by decide⟩,
   ⟨{ hmsg .sread with addr := 0x1000 }, [], 0, 0, herd { inbox := [{ hmsg .sread with addr := 0x1000 }] }, by unfold Claims.Asked; decide, by decide⟩,
   ⟨{ hmsg .swait with addr := 0x1000 }, [], 0, 0, herd { inbox := [{ hmsg .swait with addr := 0x1000 }] }, by unfold Claims.Asked; decide, by decide⟩,
   ⟨{ hmsg .write with num := 3 }, [], herd { inbox := [{ hmsg .write with num := 3 }] }, by decide⟩⟩

theorem witness_HerdRequestsAndAttach_3 :
    (∃ (h : HerdMsg) (rest : List HerdMsg) (s : State) (a : _) (more : _), s.m.herd.inbox = h :: rest ∧ (h.kind = .write ∨ h.kind = .amo ∨ h.kind = .sadd) ∧ h.num < (FMap.get {} s.m.herd.ingress h.src.toNat).next ∧ (FMap.get {} s.m.herd.ingress h.src.toNat).kept = (h.num, a) :: more ∧ a.dst = s.m.herd.module)
    ∧ (∃ (h : HerdMsg) (o : OutReq) (a : Nat) (rd : Nat) (s : State), s.m.herd.inbox = [h] ∧ (h.kind = .result ∨ h.kind = .completion) ∧ s.m.herd.unanswered = [o] ∧ s.m.herd.waiting = [] ∧ o.msg.dst = h.src ∧ o.msg.num = h.num ∧ a = o.msg.agent.toNat ∧ isHen a = true ∧ (o.msg.kind = .sadd ∨ o.msg.kind = .sread ∨ o.msg.kind = .swait) ∧ (∃ x1 x2 x3 x4 x5, (s.m.hen a).wait = .herd (herdKey o.msg.dst.toNat o.msg.num) rd x1 x2 x3 x4 x5) ∧ (s.m.hen a).state = .running ∧ rd ≠ 0 ∧ rd < 32)
    ∧ (∃ (h : HerdMsg) (s : State), s.m.herd.inbox = [h] ∧ (h.kind = .dataRsp ∨ h.kind = .receipt ∨ h.kind = .completion) ∧ (∀ o ∈ s.m.herd.unanswered, o.msg.dst ≠ h.src ∨ o.msg.num ≠ h.num))
    ∧ (∃ (h : HerdMsg) (s : State) (o : _), s.m.herd.inbox = [h] ∧ (h.kind = .dataRsp ∨ h.kind = .receipt ∨ h.kind = .completion) ∧ h.kind = .receipt ∧ s.m.herd.unanswered = [o] ∧ o.msg.dst = h.src ∧ o.msg.num = h.num)
    ∧ (∃ (u : BitVec 9) (o : OutReq) (s : State), s.m.herd.unanswered = [o] ∧ o.msg.dst = u ∧ o.receipt = false ∧ u ≠ s.m.herd.module ∧ s.m.now < o.sentAt + 500000) :=
  ⟨⟨hmsg .write, [], herd { inbox := [hmsg .write], ingress := [(511, { next := 1, kept := [(0, hmsg .completion)] })] }, hmsg .completion, ([] : List (Nat × HerdMsg)), by decide⟩,
   ⟨{ hmsg .result with src := 9, dst := 4 }, ({ msg := { hmsg .sread with src := 4, dst := 9 }, sentAt := 0 } : OutReq), 1027, 3, herd { inbox := [{ hmsg .result with src := 9, dst := 4 }], unanswered := [({ msg := { hmsg .sread with src := 4, dst := 9 }, sentAt := 0 } : OutReq)], module := 4 } (up.setHen 1027 { state := .running, wait := .herd (herdKey 9 0) 3 0 8 false false 0 }), by decide, by decide, by decide, by decide, by decide, by decide, by decide, by decide, by decide, ⟨_, _, _, _, _, rfl⟩, by decide⟩,
   ⟨hmsg .receipt, herd { inbox := [hmsg .receipt] }, by decide⟩,
   ⟨{ hmsg .receipt with src := 9, dst := 4 }, herd { inbox := [{ hmsg .receipt with src := 9, dst := 4 }], unanswered := [({ msg := { hmsg .sread with src := 4, dst := 9 }, sentAt := 0 } : OutReq)], module := 4 }, ({ msg := { hmsg .sread with src := 4, dst := 9 }, sentAt := 0 } : OutReq), by decide⟩,
   ⟨9, ({ msg := { hmsg .sread with src := 4, dst := 9 }, sentAt := 0 } : OutReq), herd { unanswered := [({ msg := { hmsg .sread with src := 4, dst := 9 }, sentAt := 0 } : OutReq)], module := 4 }, by decide⟩⟩

theorem witness_HerdRequestsAndAttach_4 :
    (∃ (u : BitVec 9) (o : OutReq) (s : State), s.m.herd.unanswered = [o] ∧ o.msg.dst = u ∧ o.receipt = false ∧ u ≠ s.m.herd.module ∧ o.sentAt + 500000 ≤ s.m.now ∧ o.tries < 3)
    ∧ (∃ (u : BitVec 9) (o : OutReq) (s : State), s.m.herd.unanswered = [o] ∧ o.msg.dst = u ∧ o.receipt = false ∧ u ≠ s.m.herd.module ∧ o.sentAt + 500000 ≤ s.m.now ∧ 3 ≤ o.tries ∧ (s.m.topoOf u.toNat).dead = false ∧ s.m.herd.waiting = [] ∧ isHen o.msg.agent.toNat = true ∧ o.msg.kind = .read ∧ (s.m.hen o.msg.agent.toNat).wait = .none)
    ∧ (∃ (s : State), RegOpen s.m (herdReg 0x400) ∧ s.m.herd.attached = false ∧ Alone s.m ∧ s.m.bellCand = true ∧ s.m.fld (herdReg 0x408) 0 9 ≠ 511)
    ∧ (∃ (g : Option (BitVec 9)) (s : State) (n : _), RegOpen s.m (herdReg 0x400) ∧ s.m.herd.attached = false ∧ Alone s.m ∧ s.m.bellCand = false ∧ g = some n ∧ n ≠ 511)
    ∧ (∃ (g : Option (BitVec 9)) (s : State), RegOpen s.m (herdReg 0x400) ∧ s.m.herd.attached = false ∧ Alone s.m ∧ s.m.bellCand = false ∧ g = none) :=
  ⟨⟨9, ({ msg := { hmsg .sread with src := 4, dst := 9 }, sentAt := 0 } : OutReq), herd { unanswered := [({ msg := { hmsg .sread with src := 4, dst := 9 }, sentAt := 0 } : OutReq)], module := 4 } { up with now := 600000 }, by decide⟩,
   ⟨9, ({ msg := { hmsg .read with src := 4, dst := 9 }, sentAt := 0, tries := 3 } : OutReq), herd { unanswered := [({ msg := { hmsg .read with src := 4, dst := 9 }, sentAt := 0, tries := 3 } : OutReq)], module := 4 } { up with now := 600000 }, by decide⟩,
   ⟨st { up with regs := [(herdReg 0x400, 1), (herdReg 0x408, 5)] }, by unfold RegOpen; decide, by decide, by unfold Claims.Alone; decide, by decide⟩,
   ⟨some 8, st up, 8, by unfold RegOpen; decide, by decide, by unfold Claims.Alone; decide, by decide⟩,
   ⟨none, st up, by unfold RegOpen; decide, by decide, by unfold Claims.Alone; decide, by decide⟩⟩

theorem witness_HerdRequestsAndAttach_5 :
    (∃ (s : State), (∀ p < 16, s.m.link (16 + p) = {}))
    ∧ (∃ (p : Nat) (l : Link) (s : State), p < 16 ∧ s.m.links = [(16 + p, l)] ∧ l.isUp = true ∧ l.peer.isSome = true ∧ l.txq = [] ∧ l.retry.length < 128 ∧ l.owed = [])
    ∧ (∃ (n : Nat) (e : TopoEntry) (r : TopoRec) (s : State), s.m.herd.attached = true ∧ (∀ p < 16, s.m.link (16 + p) = {}) ∧ s.m.herd.topo = [(n, e)] ∧ n < 511 ∧ n ≠ s.m.herd.module.toNat ∧ e.dead = false ∧ e.record = some r ∧ s.m.herd.unanswered = [] ∧ s.m.herd.waiting = [])
    ∧ (∃ (s : State), s.m.herd.attached = false ∧ Alone s.m)
    ∧ (∃ (s : State), Alone s.m ∧ s.m.herd.attached = false) :=
  ⟨⟨st up, by decide⟩,
   ⟨2, { state := .up, peer := some (disc 9) }, lnk { peer := some (disc 9) }, by decide⟩,
   ⟨7, { record := some (trec 7 1 2) }, trec 7 1 2, herd { attached := true, module := 4, topo := [(7, { record := some (trec 7 1 2) })] }, by decide⟩,
   ⟨st up, by decide, by unfold Claims.Alone; decide⟩,
   ⟨st up, by unfold Claims.Alone; decide, by decide⟩⟩

theorem witness_HerdRequestsAndAttach_6 :
    (∃ (dst : BitVec 46) (g : Fin 16) (s : State) (sa : _) (x : _), Alone s.m ∧ s.m.herd.attached = true ∧ s.m.mcGroups.getLsbD g = true ∧ s.m.herd.inbox = [] ∧ s.m.target dst.toNat = .home sa ∧ s.m.targetDead (.home sa) = false ∧ HomeReady s (sa / 64) x ∧ s.m.entry (sa / 64) = {})
    ∧ (∃ (dst : BitVec 46) (g : Fin 16) (s : State) (c : _), Alone s.m ∧ s.m.herd.attached = true ∧ s.m.mcGroups.getLsbD g = true ∧ s.m.herd.inbox = [] ∧ s.m.target dst.toNat = .bad c)
    ∧ (∃ (s : State), s.m.herd.mcast = []) :=
  ⟨⟨0x40, 0, herd { attached := true, module := 4 } { up with coh := { lines := [(hl, some sl0)] } }, 0x010000000040, sl0, by unfold Claims.Alone; decide, by decide, by decide, by decide, by decide, by decide, by unfold Claims.HomeReady Claims.HomeFree Claims.StoreRoom; decide, by decide⟩,
   ⟨0x7E0000000000, 0, herd { attached := true, module := 4 }, (.nowhere : Charge), by unfold Claims.Alone; decide, by decide⟩,
   ⟨herd { mcastBusy := true }, by decide⟩⟩

theorem witness_HostRequestsAndPeerWindow_1 :
    (∃ (pa : BitVec 56) (sa : Nat) (s : State), Serves s.m ∧ s.m.inHdm pa.toNat = true ∧ s.m.target pa.toNat = .home sa ∧ s.m.targetDead (.home sa) = false)
    ∧ (∃ (pa : BitVec 56) (sa : Nat) (s : State), Serves s.m ∧ s.m.inHdm pa.toNat = true ∧ s.m.target pa.toNat = .home sa ∧ s.m.targetDead (.home sa) = false)
    ∧ (∃ (pa : BitVec 56) (sa : Nat) (s : State), Serves s.m ∧ s.m.inHdm pa.toNat = true ∧ s.m.target pa.toNat = .home sa ∧ s.m.targetDead (.home sa) = false)
    ∧ (∃ (pa : BitVec 56) (sa : Nat) (s : State), Serves s.m ∧ s.m.inHdm pa.toNat = true ∧ s.m.target pa.toNat = .home sa ∧ s.m.targetDead (.home sa) = false)
    ∧ (∃ (pa : BitVec 56) (sa : Nat) (s : State), Serves s.m ∧ s.m.inHdm pa.toNat = true ∧ s.m.target pa.toNat = .home sa ∧ s.m.targetDead (.home sa) = false) :=
  ⟨⟨0x47, 0x010000000047, host { state := .attached }, by unfold Claims.Serves; decide, by decide⟩,
   ⟨0x47, 0x010000000047, host { state := .attached }, by unfold Claims.Serves; decide, by decide⟩,
   ⟨0x47, 0x010000000047, host { state := .attached }, by unfold Claims.Serves; decide, by decide⟩,
   ⟨0x47, 0x010000000047, host { state := .attached }, by unfold Claims.Serves; decide, by decide⟩,
   ⟨0x47, 0x010000000047, host { state := .attached }, by unfold Claims.Serves; decide, by decide⟩⟩

theorem witness_HostRequestsAndPeerWindow_2 :
    (∃ (pa : BitVec 56) (sa : Nat) (s : State), Serves s.m ∧ s.m.inHdm pa.toNat = true ∧ s.m.target pa.toNat = .home sa ∧ s.m.targetDead (.home sa) = false)
    ∧ (∃ (pa : BitVec 56) (sa : Nat) (s : State), Serves s.m ∧ s.m.inHdm pa.toNat = true ∧ s.m.target pa.toNat = .home sa ∧ s.m.targetDead (.home sa) = false)
    ∧ (∃ (pa : BitVec 56) (sa : Nat) (s : State), Serves s.m ∧ s.m.inHdm pa.toNat = true ∧ s.m.target pa.toNat = .home sa ∧ s.m.targetDead (.home sa) = false)
    ∧ (∃ (pa : BitVec 56) (sa : Nat) (s : State), Serves s.m ∧ s.m.inHdm pa.toNat = true ∧ s.m.target pa.toNat = .home sa ∧ s.m.targetDead (.home sa) = false)
    ∧ (∃ (pa : BitVec 56) (sa : Nat) (mask : BitVec 64) (s : State), Serves s.m ∧ s.m.inHdm pa.toNat = true ∧ s.m.target pa.toNat = .home sa ∧ s.m.targetDead (.home sa) = false ∧ mask = fullMask) :=
  ⟨⟨0x47, 0x010000000047, host { state := .attached }, by unfold Claims.Serves; decide, by decide⟩,
   ⟨0x47, 0x010000000047, host { state := .attached }, by unfold Claims.Serves; decide, by decide⟩,
   ⟨0x47, 0x010000000047, host { state := .attached }, by unfold Claims.Serves; decide, by decide⟩,
   ⟨0x47, 0x010000000047, host { state := .attached }, by unfold Claims.Serves; decide, by decide⟩,
   ⟨0x47, 0x010000000047, _, host { state := .attached }, by unfold Claims.Serves; decide, by decide, by decide, by decide, rfl⟩⟩

theorem witness_HostRequestsAndPeerWindow_3 :
    (∃ (pa : BitVec 56) (sa : Nat) (mask : BitVec 64) (s : State), Serves s.m ∧ s.m.inHdm pa.toNat = true ∧ s.m.target pa.toNat = .home sa ∧ s.m.targetDead (.home sa) = false ∧ mask ≠ fullMask)
    ∧ (∃ (pa : BitVec 56) (s : State), Serves s.m ∧ s.m.inHdm pa.toNat = false)
    ∧ (∃ (s : State), (s.m.host.state = .detached ∨ s.m.host.state = .replaying))
    ∧ (∃ (pa : BitVec 56) (s : State), s.m.sysLine (pa.toNat / 64) = none)
    ∧ (∃ (pa : BitVec 56) (x : SysLine) (s : State), s.m.sysLine (pa.toNat / 64) = some x) :=
  ⟨⟨0x47, 0x010000000047, 3, host { state := .attached }, by unfold Claims.Serves; decide, by decide⟩,
   ⟨0x7E0000000000, host { state := .attached }, by unfold Claims.Serves; decide, by decide⟩,
   ⟨host { state := .replaying }, by decide⟩,
   ⟨0x40, host { state := .attached }, by decide⟩,
   ⟨0x40, ({ st := .m, data := 9, dirty := true, holders := [3] } : SysLine), st { up with acores := { sys := [(1, some ({ st := .m, data := 9, dirty := true, holders := [3] } : SysLine))], lru := [1] } }, by decide⟩⟩

theorem witness_HostRequestsAndPeerWindow_4 :
    (∃ (pa : BitVec 56) (x : SysLine) (s : State), s.m.sysLine (pa.toNat / 64) = some x)
    ∧ (∃ (pa : BitVec 56) (x : SysLine) (s : State), s.m.sysLine (pa.toNat / 64) = some x)
    ∧ (∃ (k : Nat) (q : HostReq) (s : State) (r : _), s.m.host.reqs = [q] ∧ q.num = k ∧ q.sent = true ∧ q.discard = false ∧ q.who = .slot r)
    ∧ (∃ (k : Nat) (q : HostReq) (s : State) (r : _), s.m.host.reqs = [q] ∧ q.num = k ∧ q.sent = true ∧ q.discard = false ∧ q.who = .record r true ∧ s.m.host.state = .attached ∧ s.m.host.bme = true)
    ∧ (∃ (k : Nat) (q : HostReq) (s : State) (r : _), s.m.host.reqs = [q] ∧ q.num = k ∧ q.sent = true ∧ q.discard = false ∧ q.who = .slot r) :=
  ⟨⟨0x40, ({ st := .m, data := 9, dirty := true, holders := [3] } : SysLine), st { up with acores := { sys := [(1, some ({ st := .m, data := 9, dirty := true, holders := [3] } : SysLine))], lru := [1] } }, by decide⟩,
   ⟨0x40, ({ st := .m, data := 9, dirty := true, holders := [3] } : SysLine), st { up with acores := { sys := [(1, some ({ st := .m, data := 9, dirty := true, holders := [3] } : SysLine))], lru := [1] } }, by decide⟩,
   ⟨2, ({ num := 2, who := .slot 3, line := 1, write := false } : HostReq), host { state := .attached, reqs := [({ num := 2, who := .slot 3, line := 1, write := false } : HostReq)] }, 3, by decide⟩,
   ⟨2, ({ num := 2, who := .record 3 true, line := 1, write := true } : HostReq), host { state := .attached, bme := true, reqs := [({ num := 2, who := .record 3 true, line := 1, write := true } : HostReq)] }, 3, by decide⟩,
   ⟨2, ({ num := 2, who := .slot 3, line := 1, write := false } : HostReq), host { state := .attached, reqs := [({ num := 2, who := .slot 3, line := 1, write := false } : HostReq)] }, 3, by decide⟩⟩

theorem witness_HostRequestsAndPeerWindow_5 :
    (∃ (k : Nat) (q : HostReq) (s : State) (r : _) (irq : _), s.m.host.reqs = [q] ∧ q.num = k ∧ q.sent = true ∧ q.discard = false ∧ q.who = .record r irq)
    ∧ (∃ (k : Nat) (q : HostReq) (s : State) (a : _) (rd : _) (addr : _) (size : _), s.m.host.reqs = [q] ∧ q.num = k ∧ q.sent = true ∧ q.discard = false ∧ q.who = .henRead a ∧ (s.m.hen a).wait = .host (hostKey k) rd addr size false false 0 ∧ (s.m.hen a).state = .running ∧ rd ≠ 0 ∧ rd < 32 ∧ size ≤ 8)
    ∧ (∃ (off : Nat) (pa : Nat) (x : PeerLine) (rest : List PeerLine) (s : State), s.m.peerAddr off = some pa ∧ s.m.host.prefetch = x :: rest ∧ x.line = pa / 64)
    ∧ (∃ (off : Nat) (pa : Nat) (sa : Nat) (x : SliceLine) (s : State), s.m.peerAddr off = some pa ∧ s.m.host.prefetch = [] ∧ HomeAt s (64 * (pa / 64)) sa x ∧ (∀ i, 1 ≤ i → i ≤ 3 → s.m.peerLine (pa / 64 + i) = false))
    ∧ (∃ (off : Nat) (s : State), s.m.peerAddr off = none) :=
  ⟨⟨2, ({ num := 2, who := .record 3 true, line := 1, write := true , sent := true } : HostReq), host { state := .attached, reqs := [({ num := 2, who := .record 3 true, line := 1, write := true , sent := true } : HostReq)] }, 3, true, by decide⟩,
   ⟨2, ({ num := 2, who := .henRead 1027, line := 1, write := false } : HostReq), host { state := .attached, reqs := [({ num := 2, who := .henRead 1027, line := 1, write := false } : HostReq)] } (up.setHen 1027 { state := .running, wait := .host (hostKey 2) 3 0x43 4 false false 0 }), 1027, 3, 0x43, 4, by decide⟩,
   ⟨0x40, 0x40, ({ line := 1, data := 7, poison := false } : PeerLine), [], host { state := .attached, prefetch := [({ line := 1, data := 7, poison := false } : PeerLine)] } { up with regs := [(hostReg 0xC, 1)] }, by decide⟩,
   ⟨0, 431999999936, 1410389533376, sl0, host { state := .attached, peerBase := 431999999936 } { up with regs := [(hostReg 0xC, 1)], coh := { lines := [(22037336459, some sl0)] } }, by decide, by decide, by unfold Claims.HomeAt Claims.HomeReady Claims.HomeFree Claims.StoreRoom; decide, oneTo3 (by decide) (by decide) (by decide)⟩,
   ⟨0x40, host { state := .attached }, by decide⟩⟩

theorem witness_HostRequestsAndPeerWindow_6 :
    (∃ (off : Nat) (s : State), s.m.peerAddr off = none)
    ∧ (∃ (off : Nat) (pa : Nat) (sa : Nat) (x : SliceLine) (s : State), s.m.peerAddr off = some pa ∧ HomeAt s (64 * (pa / 64)) sa x) :=
  ⟨⟨0x40, host { state := .attached }, by decide⟩,
   ⟨0x40, 0x40, 0x010000000040, sl0, host { state := .attached } { withLine sl0 with regs := [(hostReg 0xC, 1)] }, by decide, by unfold Claims.HomeAt Claims.HomeReady Claims.HomeFree Claims.StoreRoom; decide⟩⟩

def EndsBadMet (op : Nat) : Prop :=
  (∃ (r : Fin 64) (q : Nat) (w : BitVec 512) (s : State), CmdAt s.m r q w ∧ Slot.op w = op ∧ Slot.bad w = true)

theorem witness_CommandRings_1 :
    (∃ (r : Fin 64) (w : BitVec 32) (n : Nat) (s : State), RegOpen s.m (hostReg (0x1008 + 0x10 * r)) ∧ n = (w.toNat % 65536 + 65536 - (s.m.ring r).head % 65536) % 65536 ∧ n ≤ 4096)
    ∧ (∃ (r : Fin 64) (w : BitVec 32) (n : Nat) (s : State), RegOpen s.m (hostReg (0x1008 + 0x10 * r)) ∧ n = (w.toNat % 65536 + 65536 - (s.m.ring r).head % 65536) % 65536 ∧ 4096 < n)
    ∧ (∃ (r : Fin 64) (sa : Nat) (x : SliceLine) (s : State), SlotAt s r sa x ∧ x.poison = false ∧ (s.m.ring r).polling = false ∧ (s.m.ring r).timedOut = false ∧ (s.m.ring r).head < (s.m.ring r).upTo ∧ Slot.tagOk x.data (s.m.ring r).head = true ∧ Slot.op x.data ≤ 5)
    ∧ (∃ (r : Fin 64) (sa : Nat) (x : SliceLine) (s : State), SlotAt s r sa x ∧ x.poison = false ∧ (s.m.ring r).polling = false ∧ (s.m.ring r).timedOut = false ∧ (s.m.ring r).head < (s.m.ring r).upTo ∧ Slot.tagOk x.data (s.m.ring r).head = true ∧ 5 < Slot.op x.data)
    ∧ (∃ (r : Fin 64) (sa : Nat) (x : SliceLine) (s : State), SlotAt s r sa x ∧ x.poison = false ∧ (s.m.ring r).polling = false ∧ (s.m.ring r).timedOut = false ∧ (s.m.ring r).head < (s.m.ring r).upTo ∧ Slot.tagOk x.data (s.m.ring r).head = false ∧ (s.m.ring r).polls = 0) :=
  ⟨⟨3, 0x1005, _, ring3 { head := 5 }, by unfold RegOpen; decide, rfl, by decide⟩,
   ⟨3, 0x1006, _, ring3 { head := 5 }, by unfold RegOpen; decide, rfl, by decide⟩,
   ⟨3, 0x010000000040, { data := slot [0, 0, 0, 0, 0, 0, 0, 0, 0, 0, 0, 0, 0, 0, 0, 1] }, ring3 { base := 0x40, upTo := 1 } (withLine { data := slot [0, 0, 0, 0, 0, 0, 0, 0, 0, 0, 0, 0, 0, 0, 0, 1] }), by unfold Claims.SlotAt Claims.HomeAt Claims.HomeReady Claims.HomeFree Claims.StoreRoom; decide, by decide⟩,
   ⟨3, 0x010000000040, { data := slot [6, 0, 0, 0, 0, 0, 0, 0, 0, 0, 0, 0, 0, 0, 0, 1] }, ring3 { base := 0x40, upTo := 1 } (withLine { data := slot [6, 0, 0, 0, 0, 0, 0, 0, 0, 0, 0, 0, 0, 0, 0, 1] }), by unfold Claims.SlotAt Claims.HomeAt Claims.HomeReady Claims.HomeFree Claims.StoreRoom; decide, by decide⟩,
   ⟨3, 0x010000000040, ({ data := 0 } : SliceLine), ring3 { base := 0x40, upTo := 1 } (withLine { data := 0 }), by unfold Claims.SlotAt Claims.HomeAt Claims.HomeReady Claims.HomeFree Claims.StoreRoom; decide, by decide⟩⟩

theorem witness_CommandRings_2 :
    (∃ (r : Fin 64) (sa : Nat) (x : SliceLine) (s : State), SlotAt s r sa x ∧ x.poison = false ∧ (s.m.ring r).polling = true ∧ Slot.tagOk x.data (s.m.ring r).head = true ∧ Slot.op x.data ≤ 5)
    ∧ (∃ (r : Fin 64) (sa : Nat) (x : SliceLine) (s : State), SlotAt s r sa x ∧ x.poison = false ∧ (s.m.ring r).polling = true ∧ Slot.tagOk x.data (s.m.ring r).head = false ∧ (s.m.ring r).polls < 1000)
    ∧ (∃ (r : Fin 64) (sa : Nat) (x : SliceLine) (s : State), SlotAt s r sa x ∧ x.poison = false ∧ (s.m.ring r).polling = true ∧ Slot.tagOk x.data (s.m.ring r).head = false ∧ 1000 ≤ (s.m.ring r).polls)
    ∧ (∃ (r : Fin 64) (q : Nat) (w : BitVec 512) (s : State), CmdAt s.m r q w ∧ Slot.bad w = false ∧ Slot.op w = 0)
    ∧ (∃ (r : Fin 64) (q : Nat) (w : BitVec 512) (s : State) (sa : _) (x : _) (a : _), CmdAt s.m r q w ∧ Slot.bad w = false ∧ a = Slot.word w 3 % 8192 ∧ Slot.op w = 1 ∧ HomeAt s (Slot.addr w) sa x ∧ x.poison = false ∧ isCollie a = true ∧ s.m.flockOn (flockOf a) = true ∧ (s.m.collie (flockOf a)).state = .running ∧ (s.m.collie (flockOf a)).pool = [] ∧ s.m.badItem x.data = false ∧ Item.waits x.data = false) :=
  ⟨⟨3, 0x010000000040, { data := slot [0, 0, 0, 0, 0, 0, 0, 0, 0, 0, 0, 0, 0, 0, 0, 1] }, ring3 { base := 0x40, upTo := 1, polling := true } (withLine { data := slot [0, 0, 0, 0, 0, 0, 0, 0, 0, 0, 0, 0, 0, 0, 0, 1] }), by unfold Claims.SlotAt Claims.HomeAt Claims.HomeReady Claims.HomeFree Claims.StoreRoom; decide, by decide⟩,
   ⟨3, 0x010000000040, ({ data := 0 } : SliceLine), ring3 { base := 0x40, upTo := 1, polling := true, polls := 999 } (withLine { data := 0 }), by unfold Claims.SlotAt Claims.HomeAt Claims.HomeReady Claims.HomeFree Claims.StoreRoom; decide, by decide⟩,
   ⟨3, 0x010000000040, ({ data := 0 } : SliceLine), ring3 { base := 0x40, upTo := 1, polling := true, polls := 1000 } (withLine { data := 0 }), by unfold Claims.SlotAt Claims.HomeAt Claims.HomeReady Claims.HomeFree Claims.StoreRoom; decide, by decide⟩,
   ⟨3, 7, slot [0x100], cmd3 (slot [0x100]), by unfold Claims.CmdAt; decide, by decide⟩,
   ⟨3, 7, slot [1, 0x40, 0, 1046], cmd3 (slot [1, 0x40, 0, 1046]) ((withLine { data := 0 }).modCollie 1024 fun c => { c with state := .running }), 0x010000000040, ({ data := 0 } : SliceLine), _, by unfold Claims.CmdAt; decide, by decide, rfl, by decide, by unfold Claims.HomeAt Claims.HomeReady Claims.HomeFree Claims.StoreRoom; decide, by decide⟩⟩

theorem witness_CommandRings_3 :
    (∃ (r : Fin 64) (q : Nat) (w : BitVec 512) (s : State) (a : _), CmdAt s.m r q w ∧ Slot.bad w = false ∧ a = Slot.word w 3 % 8192 ∧ Slot.op w = 1 ∧ isCollie a = false)
    ∧ (∃ (r : Fin 64) (q : Nat) (w : BitVec 512) (s : State) (sa : _) (x : _) (a : _), CmdAt s.m r q w ∧ Slot.bad w = false ∧ a = Slot.word w 3 % 8192 ∧ Slot.op w = 2 ∧ HomeAt s (Slot.addr w) sa x ∧ x.poison = false ∧ isMule a = true ∧ s.m.muleOn a = true ∧ (s.m.mule a).state = .running ∧ s.m.collieQueue a = false ∧ (s.m.mule a).descs = [])
    ∧ (∃ (r : Fin 64) (q : Nat) (w : BitVec 512) (s : State) (sa : _) (x : _) (a : _), CmdAt s.m r q w ∧ Slot.bad w = false ∧ a = Slot.word w 3 % 8192 ∧ Slot.op w = 2 ∧ HomeAt s (Slot.addr w) sa x ∧ x.poison = false ∧ isMule a = true ∧ s.m.muleOn a = true ∧ (s.m.mule a).state = .running ∧ s.m.collieQueue a = false ∧ 64 ≤ ((s.m.mule a).descs.filter fun e => e.queue == Bits.nfield (Slot.word w 3) 13 2).length)
    ∧ (∃ (r : Fin 64) (q : Nat) (w : BitVec 512) (s : State) (sa : _) (x : _) (a : _), CmdAt s.m r q w ∧ Slot.bad w = false ∧ a = Slot.word w 3 % 8192 ∧ Slot.op w = 2 ∧ HomeAt s (Slot.addr w) sa x ∧ x.poison = true ∧ isMule a = true)
    ∧ (∃ (r : Fin 64) (q : Nat) (w : BitVec 512) (s : State) (sa : _) (x : _), CmdAt s.m r q w ∧ Slot.bad w = false ∧ Slot.op w = 3 ∧ HomeAt s (Slot.addr w) sa x) :=
  ⟨⟨3, 7, slot [1, 0x40, 0, 1044], cmd3 (slot [1, 0x40, 0, 1044]), _, by unfold Claims.CmdAt; decide, by decide, rfl, by decide⟩,
   ⟨3, 7, slot [2, 0x40, 0, 1044 + 0x2000], cmd3 (slot [2, 0x40, 0, 1044 + 0x2000]) (withLine { data := 0 }), 0x010000000040, ({ data := 0 } : SliceLine), _, by unfold Claims.CmdAt; decide, by decide, rfl, by decide, by unfold Claims.HomeAt Claims.HomeReady Claims.HomeFree Claims.StoreRoom; decide, by decide⟩,
   ⟨3, 7, slot [2, 0x40, 0, 1044 + 0x2000], cmd3 (slot [2, 0x40, 0, 1044 + 0x2000]) { withLine { data := 0 } with mules := [(1044, ({ descs := List.replicate 64 { w := 0, queue := 1, seq := 0 } } : Mule))] }, 0x010000000040, ({ data := 0 } : SliceLine), _, by unfold Claims.CmdAt; decide, by decide, rfl, by decide, by unfold Claims.HomeAt Claims.HomeReady Claims.HomeFree Claims.StoreRoom; decide, by decide⟩,
   ⟨3, 7, slot [2, 0x40, 0, 1044 + 0x2000], cmd3 (slot [2, 0x40, 0, 1044 + 0x2000]) (withLine { data := 0, poison := true }), 0x010000000040, { data := 0, poison := true }, _, by unfold Claims.CmdAt; decide, by decide, rfl, by decide, by unfold Claims.HomeAt Claims.HomeReady Claims.HomeFree Claims.StoreRoom; decide, by decide⟩,
   ⟨3, 7, slot [3, 0x44, 0x3000000, 0xAABBCCDD], cmd3 (slot [3, 0x44, 0x3000000, 0xAABBCCDD]) (withLine sl0), 0x010000000044, sl0, by unfold Claims.CmdAt; decide, by decide, by decide, by unfold Claims.HomeAt Claims.HomeReady Claims.HomeFree Claims.StoreRoom; decide⟩⟩

theorem witness_CommandRings_4 :
    (∃ (r : Fin 64) (q : Nat) (w : BitVec 512) (s : State) (ch : _), CmdAt s.m r q w ∧ Slot.bad w = false ∧ Slot.op w = 3 ∧ s.m.target (Slot.addr w) = .bad ch ∧ s.m.targetDead (.bad ch) = false)
    ∧ (∃ (r : Fin 64) (q : Nat) (w : BitVec 512) (s : State) (off : _), CmdAt s.m r q w ∧ Slot.bad w = false ∧ Slot.op w = 3 ∧ s.m.target (Slot.addr w) = .dev off ∧ s.m.targetDead (.dev off) = false ∧ s.m.targetHeld (.dev off) = false ∧ (Slot.len w ≠ 4 ∨ Mach.devOk off 4 = false))
    ∧ (∃ (r : Fin 64) (q : Nat) (w : BitVec 512) (s : State) (d : _), CmdAt s.m r q w ∧ Slot.bad w = false ∧ Slot.op w = 4 ∧ s.m.syncModule (Slot.word w 3) = some 511 ∧ d = Bits.nfield (Slot.word w 3) 12 3 - 1 ∧ s.m.dieOut d = false ∧ (s.m.sync d).waits = [])
    ∧ (∃ (r : Fin 64) (q : Nat) (w : BitVec 512) (s : State) (d : _), CmdAt s.m r q w ∧ Slot.bad w = false ∧ Slot.op w = 4 ∧ s.m.syncModule (Slot.word w 3) = some 511 ∧ d = Bits.nfield (Slot.word w 3) 12 3 - 1 ∧ s.m.dieOut d = true)
    ∧ (∃ (r : Fin 64) (q : Nat) (w : BitVec 512) (s : State) (d : _), CmdAt s.m r q w ∧ Slot.bad w = false ∧ Slot.op w = 5 ∧ s.m.syncModule (Slot.word w 3) = some 511 ∧ d = Bits.nfield (Slot.word w 3) 12 3 - 1 ∧ s.m.dieOut d = false ∧ (s.m.sync d).waits = [] ∧ Mach.syncReached (s.m.syncObj d (Slot.word w 3 % 4096)).count (BitVec.ofNat 24 (Slot.word w 4)) = true) :=
  ⟨⟨3, 7, slot [3, 0x44, 0x3007E00, 0xAABBCCDD], cmd3 (slot [3, 0x44, 0x3007E00, 0xAABBCCDD]), (.nowhere : Charge), by unfold Claims.CmdAt; decide, by decide⟩,
   ⟨3, 7, slot [3, 0x10060, 0x7007F00, 5], cmd3 (slot [3, 0x10060, 0x7007F00, 5]), 0x10060, by unfold Claims.CmdAt; decide, by decide, by decide, by decide, by decide, by decide, .inl (by decide)⟩,
   ⟨3, 7, slot [4, 0, 0, 0xFFC005, 0xFFFF], cmd3 (slot [4, 0, 0, 0xFFC005, 0xFFFF]), _, by unfold Claims.CmdAt; decide, by decide, by decide, by decide, rfl, by decide⟩,
   ⟨3, 7, slot [4, 0, 0, 0xFFC005, 0xFFFF], cmd3 (slot [4, 0, 0, 0xFFC005, 0xFFFF]) (up.modDie 3 fun d => { d with dead := true }), _, by unfold Claims.CmdAt; decide, by decide, by decide, by decide, rfl, by decide⟩,
   ⟨3, 7, slot [5, 0, 0, 0xFFC005, 0xFFFFFF], cmd3 (slot [5, 0, 0, 0xFFC005, 0xFFFFFF]), _, by unfold Claims.CmdAt; decide, by decide, by decide, by decide, rfl, by decide⟩⟩

theorem witness_CommandRings_5 :
    (∃ (r : Fin 64) (q : Nat) (w : BitVec 512) (s : State) (d : _), CmdAt s.m r q w ∧ Slot.bad w = false ∧ Slot.op w = 5 ∧ s.m.syncModule (Slot.word w 3) = some 511 ∧ d = Bits.nfield (Slot.word w 3) 12 3 - 1 ∧ s.m.dieOut d = false ∧ (s.m.sync d).waits = [] ∧ Mach.syncReached (s.m.syncObj d (Slot.word w 3 % 4096)).count (BitVec.ofNat 24 (Slot.word w 4)) = false)
    ∧ (∃ (r : Fin 64) (q : Nat) (a : Nat) (w : BitVec 512) (b : BitVec 512) (s : State), (s.m.ring r).cmds = [{ w := w, seq := q, started := true, retry := true, body := some (b, false) }] ∧ Slot.op w = 2 ∧ a = Slot.word w 3 % 8192 ∧ (s.m.mule a).state = .running ∧ s.m.muleOn a = true ∧ s.m.collieQueue a = false ∧ (s.m.mule a).descs = [])
    ∧ (∃ (r : Fin 64) (q : Nat) (a : Nat) (w : BitVec 512) (b : BitVec 512) (s : State), (s.m.ring r).cmds = [{ w := w, seq := q, started := true, retry := true, body := some (b, false) }] ∧ Slot.op w = 2 ∧ a = Slot.word w 3 % 8192 ∧ (s.m.mule a).state = .running ∧ s.m.muleOn a = true ∧ s.m.collieQueue a = false ∧ 64 ≤ ((s.m.mule a).descs.filter fun e => e.queue == Bits.nfield (Slot.word w 3) 13 2).length)
    ∧ EndsBadMet 0
    ∧ EndsBadMet 1 :=
  ⟨⟨3, 7, slot [5, 0, 0, 0xFFC005, 1], cmd3 (slot [5, 0, 0, 0xFFC005, 1]), _, by unfold Claims.CmdAt; decide, by decide, by decide, by decide, rfl, by decide⟩,
   ⟨3, 7, _, slot [2, 0x40, 0, 1044 + 0x2000], 5, ring3 { cmds := [{ w := slot [2, 0x40, 0, 1044 + 0x2000], seq := 7, started := true, retry := true, body := some (5, false) }] }, by decide, by decide, rfl, by decide⟩,
   ⟨3, 7, _, slot [2, 0x40, 0, 1044 + 0x2000], 5, ring3 { cmds := [{ w := slot [2, 0x40, 0, 1044 + 0x2000], seq := 7, started := true, retry := true, body := some (5, false) }] } { up with mules := [(1044, ({ descs := List.replicate 64 { w := 0, queue := 1, seq := 0 } } : Mule))] }, by decide, by decide, rfl, by decide⟩,
   ⟨3, 7, slot [0 + 0x2000], cmd3 (slot [0 + 0x2000]), by unfold Claims.CmdAt; decide, by decide⟩,
   ⟨3, 7, slot [1 + 0x2000], cmd3 (slot [1 + 0x2000]), by unfold Claims.CmdAt; decide, by decide⟩⟩

theorem witness_CommandRings_6 :
    EndsBadMet 2
    ∧ EndsBadMet 3
    ∧ EndsBadMet 4
    ∧ EndsBadMet 5 :=
  ⟨⟨3, 7, slot [2 + 0x2000], cmd3 (slot [2 + 0x2000]), by unfold Claims.CmdAt; decide, by decide⟩,
   ⟨3, 7, slot [3 + 0x2000], cmd3 (slot [3 + 0x2000]), by unfold Claims.CmdAt; decide, by decide⟩,
   ⟨3, 7, slot [4 + 0x2000], cmd3 (slot [4 + 0x2000]), by unfold Claims.CmdAt; decide, by decide⟩,
   ⟨3, 7, slot [5 + 0x2000], cmd3 (slot [5 + 0x2000]), by unfold Claims.CmdAt; decide, by decide⟩⟩

theorem witness_HostRecordsAndDetach_1 :
    (∃ (r : Fin 64) (c : RingCmd) (status : Nat) (res : Nat) (sa : Nat) (pa : Nat) (x : SliceLine) (s : State), s.m.host.held = [] ∧ (s.m.ring r).cmds = [c] ∧ c.done = some (status, res) ∧ status < 256 ∧ c.due = true ∧ s.m.cqInHost r = false ∧ Mach.cqFull (s.m.ring r) = false ∧ pa = (s.m.ring r).cqBase.toNat + 16 * ((s.m.ring r).cqPos % Mach.cqSize (s.m.ring r)) ∧ HomeAt s pa sa x)
    ∧ (∃ (r : Fin 64) (c : RingCmd) (status : Nat) (res : Nat) (pa : Nat) (ch : Charge) (s : State), s.m.host.held = [] ∧ (s.m.ring r).cmds = [c] ∧ c.done = some (status, res) ∧ c.due = true ∧ s.m.cqInHost r = false ∧ Mach.cqFull (s.m.ring r) = false ∧ pa = (s.m.ring r).cqBase.toNat + 16 * ((s.m.ring r).cqPos % Mach.cqSize (s.m.ring r)) ∧ s.m.target pa = .bad ch ∧ s.m.targetDead (.bad ch) = false)
    ∧ (∃ (r : Fin 64) (c : RingCmd) (status : Nat) (res : Nat) (s : State), s.m.host.held = [] ∧ (s.m.ring r).cmds = [c] ∧ c.done = some (status, res) ∧ c.due = true ∧ s.m.cqInHost r = false ∧ Mach.cqFull (s.m.ring r) = true ∧ (s.m.ring r).waitCq = false)
    ∧ (∃ (r : Fin 64) (c : RingCmd) (status : Nat) (res : Nat) (sa : Nat) (x : SliceLine) (s : State), s.m.host.held = [] ∧ (s.m.ring r).cmds = [c] ∧ c.done = some (status, res) ∧ c.due = true ∧ s.m.cqInHost r = true ∧ s.m.host.state = .detached ∧ HomeAt s (64 * s.m.viewLines - 0x100000 + 16 * (s.m.host.heldPos % 65536)) sa x)
    ∧ (∃ (r : Fin 64) (s : State), RegOpen s.m (hostReg (0x100C + 0x10 * r))) :=
  ⟨⟨3, ({ w := slot [0x100], seq := 7, started := true, done := some (0, 5) } : RingCmd), 0, 5, 0x010000000050, _, sl0, ring3 { cqBase := 0x40, cqPos := 1, cmds := [({ w := slot [0x100], seq := 7, started := true, done := some (0, 5) } : RingCmd)] } (withLine sl0), by decide, by decide, by decide, by decide, by decide, by decide, by decide, rfl, by unfold Claims.HomeAt Claims.HomeReady Claims.HomeFree Claims.StoreRoom; decide⟩,
   ⟨3, ({ w := slot [0x100], seq := 7, started := true, done := some (0, 5) } : RingCmd), 0, 5, _, .nowhere, ring3 { cqBase := 0x01FF00000000, cqPos := 1, cmds := [({ w := slot [0x100], seq := 7, started := true, done := some (0, 5) } : RingCmd)] }, by decide, by decide, by decide, by decide, by decide, by decide, rfl, by decide⟩,
   ⟨3, ({ w := slot [0x100], seq := 7, started := true, done := some (0, 5) } : RingCmd), 0, 5, ring3 { cqBase := 0x40, cqPos := 64, cmds := [({ w := slot [0x100], seq := 7, started := true, done := some (0, 5) } : RingCmd)] }, by decide⟩,
   ⟨3, ({ w := slot [0x100], seq := 7, started := true, done := some (0, 5) } : RingCmd), 0, 5, heldSa, sl0, host { rings := [(3, { en := true, cqBase := 0x40000000000000, cmds := [({ w := slot [0x100], seq := 7, started := true, done := some (0, 5) } : RingCmd)] })] } { up with coh := { lines := [(heldSa / 64, some sl0)] } }, by decide, by decide, by decide, by decide, by decide, by decide, by unfold Claims.HomeAt Claims.HomeReady Claims.HomeFree Claims.StoreRoom; decide⟩,
   ⟨3, ring3 {}, by unfold RegOpen; decide⟩⟩

theorem witness_HostRecordsAndDetach_2 :
    (∃ (r : Fin 64) (s : State), RegOpen s.m (hostReg (0x1000 + 0x10 * r)) ∧ (s.m.ring r).en = false)
    ∧ (∃ (r : Fin 64) (s : State), RegOpen s.m (hostReg (0x1000 + 0x10 * r)))
    ∧ (∃ (r : Fin 64) (s : State), RegOpen s.m (hostReg (0x1000 + 0x10 * r)) ∧ ((s.m.ring r).haltCause ≠ 2 ∨ s.m.host.state ≠ .attached ∨ s.m.host.bme = true))
    ∧ (∃ (r : Fin 64) (s : State), RegOpen s.m (hostReg (0x1000 + 0x10 * r)) ∧ (s.m.ring r).haltCause = 2 ∧ s.m.host.state = .attached ∧ s.m.host.bme = false)
    ∧ (∃ (r : Nat) (g : Ring) (s : State), s.m.host.bme = true ∧ s.m.host.rings = [(r, g)] ∧ g.en = true) :=
  ⟨⟨3, host { rings := [(3, { cqPos := 4 })] }, by unfold RegOpen; decide, by decide⟩,
   ⟨3, ring3 { cmds := [({ w := slot [0x100], seq := 7, started := true, done := some (0, 5) } : RingCmd)] }, by unfold RegOpen; decide⟩,
   ⟨3, ring3 { haltCause := 3 }, by unfold RegOpen; decide, by decide⟩,
   ⟨3, host { state := .attached, rings := [(3, { en := true, haltCause := 2 })] }, by unfold RegOpen; decide, by decide⟩,
   ⟨3, { en := true }, ring3 {}, by decide⟩⟩

theorem witness_HostRecordsAndDetach_3 :
    (∃ (s : State), s.m.host.held = [])
    ∧ (∃ (s : State), RegOpen s.m (hostReg 8))
    ∧ (∃ (t : Nat) (d : Nat) (s : State), s.m.host.deadline = some d ∧ (s.m.advance t).now < d)
    ∧ (∃ (t : Nat) (d : Nat) (s : State), s.m.host.deadline = some d ∧ d ≤ (s.m.advance t).now ∧ s.m.host.state ≠ .detached ∧ s.m.acores.sys = [] ∧ s.m.coh.txns = [])
    ∧ (∃ (s : State), s.m.host.state ≠ .detached ∧ s.m.acores.sys = [] ∧ s.m.coh.txns = []) :=
  ⟨⟨host { state := .attached }, by decide⟩,
   ⟨host { state := .attached }, by unfold RegOpen; decide⟩,
   ⟨5000, 5001, host { state := .attached, deadline := some 5001 }, by decide⟩,
   ⟨5000, 5000, host { state := .attached, deadline := some 5000 }, by decide⟩,
   ⟨host { state := .attached, linkUp := true }, by decide⟩⟩

theorem witness_HostRecordsAndDetach_4 :
    (∃ (s : State), s.m.host.state ≠ .detached ∧ s.m.acores.sys = [] ∧ s.m.coh.txns = [])
    ∧ (∃ (s : State), s.m.host.state ≠ .detached ∧ s.m.acores.sys = [] ∧ s.m.coh.txns = [] ∧ s.m.host.state = .detaching ∧ (∀ q ∈ s.m.host.reqs, q.sent = false))
    ∧ (∃ (l : Nat) (y : SysLine) (s : State), s.m.host.state ≠ .detached ∧ s.m.acores.sys = [(l, some y)] ∧ isHostLine l = true ∧ y.dirty = true ∧ s.m.coh.txns = [] ∧ s.m.host.lostLog = [])
    ∧ (∃ (s : State), RegOpen s.m (hostReg 0) ∧ s.m.host.state = .attached ∧ s.m.acores.sys = [])
    ∧ (∃ (s : State), s.m.host.state = .replaying ∧ s.m.host.held = [] ∧ s.m.sec.entropyFail = true) :=
  ⟨⟨host { state := .attached, linkUp := true }, by decide⟩,
   ⟨host { state := .detaching, linkUp := true }, by decide⟩,
   ⟨2 ^ 48 + 3, { st := .m, data := 9, dirty := true }, host { state := .attached } { up with acores := { up.acores with sys := [(2 ^ 48 + 3, some { st := .m, data := 9, dirty := true })] } }, by decide⟩,
   ⟨host { state := .attached, linkUp := true }, by unfold RegOpen; decide, by decide⟩,
   ⟨st { up with host := { state := .replaying, linkUp := true }, sec := { up.sec with entropyFail := true } }, by decide⟩⟩

theorem witness_HostRecordsAndDetach_5 :
    (∃ (s : State), s.m.host.state = .replaying ∧ s.m.host.held = [] ∧ s.m.sec.entropyFail = false)
    ∧ (∃ (s : State), RegOpen s.m (hostReg 0) ∧ s.m.host.state = .detached ∧ s.m.host.linkUp = true ∧ s.m.host.reqs = [] ∧ s.m.sec.entropyFail = false) :=
  ⟨⟨host { state := .replaying, linkUp := true }, by decide⟩,
   ⟨host { linkUp := true }, by unfold RegOpen; decide, by decide⟩⟩

theorem witness_ApplicationCores_1 :
    (∃ (c : CoreIx) (pa : BitVec 56) (k : Fin 4) (ty : Pbmt) (x : SysLine) (s : State), CoreHit s.m c pa.toNat (2 ^ k.val) ty x)
    ∧ (∃ (c : CoreIx) (pa : BitVec 56) (k : Fin 4) (ty : Pbmt) (x : SysLine) (s : State), CoreHit s.m c pa.toNat (2 ^ k.val) ty x ∧ x.st ≠ .s)
    ∧ (∃ (c : CoreIx) (pa : BitVec 56) (k : Fin 4) (ty : Pbmt) (x : SysLine) (s : State), CoreHit s.m c pa.toNat (2 ^ k.val) ty x ∧ x.st = .s ∧ isHostLine (s.m.lineOf pa.toNat) = false ∧ (∃ sa, s.m.target (64 * (pa.toNat / 64)) = .home sa ∧ s.m.targetDead (.home sa) = false) ∧ s.m.henAsked sysAgent (s.m.lineOf pa.toNat) = false)
    ∧ (∃ (c : CoreIx) (pa : BitVec 56) (k : Fin 4) (ty : Pbmt) (sa : Nat) (s : State), s.m.coreReady c = true ∧ coreType pa.toNat ty = .cached ∧ pa.toNat % 64 + 2 ^ k.val ≤ 64 ∧ s.m.target (64 * (pa.toNat / 64)) = .home sa ∧ s.m.targetDead (.home sa) = false ∧ s.m.sysLine (sa / 64) = none ∧ isHostLine (sa / 64) = false ∧ s.m.henAsked sysAgent (sa / 64) = false)
    ∧ (∃ (c : CoreIx) (pa : BitVec 56) (ty : Pbmt) (s : State), s.m.coreReady c = true ∧ (coreType pa.toNat ty = .fault ∨ coreType pa.toNat ty = .vacant)) :=
  ⟨⟨9, 0x41, 2, .pma, ({ st := .e, data := 0x1122334455667788, holders := [9] } : SysLine), sys1 ({ st := .e, data := 0x1122334455667788, holders := [9] } : SysLine), by unfold Claims.CoreHit; decide⟩,
   ⟨9, 0x41, 2, .pma, ({ st := .e, data := 0x1122334455667788, holders := [9] } : SysLine), sys1 ({ st := .e, data := 0x1122334455667788, holders := [9] } : SysLine), by unfold Claims.CoreHit; decide, by decide⟩,
   ⟨9, 0x41, 2, .pma, ({ st := .s, data := 0x1122334455667788 } : SysLine), sys1 ({ st := .s, data := 0x1122334455667788 } : SysLine), by unfold Claims.CoreHit; decide, by decide, by decide, ⟨0x010000000040, by decide, by decide⟩, by decide⟩,
   ⟨9, 0x41, 3, .pma, 0x010000000040, st up, by decide⟩,
   ⟨9, 0x7E0000000000, .pma, st up, by decide⟩⟩

theorem witness_ApplicationCores_2 :
    (∃ (c : CoreIx) (pa : BitVec 56) (ty : Pbmt) (s : State), s.m.coreReady c = true ∧ (coreType pa.toNat ty = .fault ∨ coreType pa.toNat ty = .vacant))
    ∧ (∃ (c : CoreIx) (pa : BitVec 56) (k : Fin 4) (ty : Pbmt) (s : State), s.m.coreReady c = true ∧ coreType pa.toNat ty = .io ∧ k.val ≠ 2)
    ∧ (∃ (c : CoreIx) (pa : BitVec 56) (k : Fin 4) (ty : Pbmt) (s : State), s.m.coreReady c = true ∧ coreType pa.toNat ty = .io ∧ k.val ≠ 2)
    ∧ (∃ (c : CoreIx) (pa : BitVec 56) (k : Fin 4) (ty : Pbmt) (s : State), s.m.coreReady c = true ∧ coreType pa.toNat ty = .io ∧ k.val = 2 ∧ pa.toNat % 4 = 0 ∧ (pa.toNat - 0x7F00_0000_0000) % 4 = 0 ∧ Mach.regExists (pa.toNat - 0x7F00_0000_0000) = true ∧ s.m.targetDead (.dev (pa.toNat - 0x7F00_0000_0000)) = false)
    ∧ (∃ (c : CoreIx) (pa : BitVec 56) (k : Fin 4) (ty : Pbmt) (s : State), s.m.coreReady c = true ∧ coreType pa.toNat ty = .io ∧ k.val = 2 ∧ pa.toNat % 4 = 0 ∧ (pa.toNat - 0x7F00_0000_0000) % 4 = 0 ∧ Mach.regExists (pa.toNat - 0x7F00_0000_0000) = true ∧ s.m.targetDead (.dev (pa.toNat - 0x7F00_0000_0000)) = false) :=
  ⟨⟨9, 0x7E0000000000, .pma, st up, by decide⟩,
   ⟨9, 0x7F0000010060, 3, .pma, st up, by decide⟩,
   ⟨9, 0x7F0000010060, 3, .pma, st up, by decide⟩,
   ⟨9, 0x7F0000010060, 2, .io, st up, by decide⟩,
   ⟨9, 0x7F0000010060, 2, .io, st up, by decide⟩⟩

theorem witness_ApplicationCores_3 :
    (∃ (c : CoreIx) (pa : BitVec 56) (dw : Bool) (s : State), s.m.coreReady c = true ∧ (pa.toNat % (if dw then 8 else 4) ≠ 0))
    ∧ (∃ (c : CoreIx) (pa : BitVec 56) (dw : Bool) (s : State), s.m.coreReady c = true ∧ (pa.toNat % (if dw then 8 else 4) ≠ 0))
    ∧ (∃ (c : CoreIx) (pa : BitVec 56) (dw : Bool) (s : State), s.m.coreReady c = true ∧ (pa.toNat % (if dw then 8 else 4) ≠ 0))
    ∧ (∃ (c : CoreIx) (pa : BitVec 56) (dw : Bool) (ty : Pbmt) (s : State) (sa : _), s.m.coreReady c = true ∧ (pa.toNat % (if dw then 8 else 4) = 0) ∧ (coreType pa.toNat ty = .cached ∨ coreType pa.toNat ty = .nc) ∧ s.m.target pa.toNat = .home sa ∧ s.m.targetDead (.home sa) = false)
    ∧ (∃ (c : CoreIx) (pa : BitVec 56) (dw : Bool) (ty : Pbmt) (x : SysLine) (s : State), (CoreHit s.m c pa.toNat (if dw then 8 else 4) ty x) ∧ (pa.toNat % (if dw then 8 else 4) = 0)) :=
  ⟨⟨9, 0x44, true, st up, by decide⟩,
   ⟨9, 0x44, true, st up, by decide⟩,
   ⟨9, 0x44, true, st up, by decide⟩,
   ⟨9, 0x48, true, .pma, st up, 0x010000000048, by decide⟩,
   ⟨9, 0x48, true, .pma, ({ st := .e, data := 0x1122334455667788, holders := [9] } : SysLine), sys1 ({ st := .e, data := 0x1122334455667788, holders := [9] } : SysLine), by unfold Claims.CoreHit; decide, by decide⟩⟩

theorem witness_ApplicationCores_4 :
    (∃ (c : CoreIx) (pa : BitVec 56) (dw : Bool) (ty : Pbmt) (x : SysLine) (s : State), (CoreHit s.m c pa.toNat (if dw then 8 else 4) ty x) ∧ (pa.toNat % (if dw then 8 else 4) = 0) ∧ (s.m.core c).resv ≠ some (s.m.lineOf pa.toNat))
    ∧ (∃ (c : CoreIx) (pa : BitVec 56) (dw : Bool) (ty : Pbmt) (x : SysLine) (s : State), (CoreHit s.m c pa.toNat (if dw then 8 else 4) ty x) ∧ (pa.toNat % (if dw then 8 else 4) = 0) ∧ (s.m.core c).resv = some (s.m.lineOf pa.toNat) ∧ x.st ≠ .s)
    ∧ (∃ (c : CoreIx) (s : State), s.m.coreReady c = true ∧ (s.m.core c).unlanded = [])
    ∧ (∃ (c : CoreIx) (p : BitVec 4) (q : BitVec 4) (s : State), s.m.coreReady c = true ∧ (s.m.core c).unlanded ≠ [] ∧ p.getLsbD 0 = true ∧ p.getLsbD 1 = true ∧ q.getLsbD 0 = true ∧ q.getLsbD 1 = true)
    ∧ (∃ (c : CoreIx) (p : BitVec 4) (q : BitVec 4) (s : State), s.m.coreReady c = true ∧ (s.m.core c).unlanded ≠ [] ∧ q.getLsbD 2 = true ∧ (p.getLsbD 0 = true ∨ p.getLsbD 2 = true)) :=
  ⟨⟨9, 0x48, true, .pma, ({ st := .e, data := 0x1122334455667788, holders := [9] } : SysLine), sys1 ({ st := .e, data := 0x1122334455667788, holders := [9] } : SysLine), by unfold Claims.CoreHit; decide, by decide⟩,
   ⟨9, 0x44, false, .pma, ({ st := .e, data := 0x1122334455667788, holders := [9] } : SysLine), sys1 ({ st := .e, data := 0x1122334455667788, holders := [9] } : SysLine) { resv := some hl }, by unfold Claims.CoreHit; decide, by decide⟩,
   ⟨9, st up, by decide⟩,
   ⟨9, 3, 3, st { up with acores := { up.acores with cores := [(9, { unlanded := [4] })] } }, by decide⟩,
   ⟨9, 1, 4, st { up with acores := { up.acores with cores := [(9, { unlanded := [4] })] } }, by decide⟩⟩

theorem witness_ApplicationCores_5 :
    (∃ (c : CoreIx) (q : BitVec 4) (s : State), s.m.coreReady c = true ∧ q.getLsbD 2 = false ∧ (q.getLsbD 0 = false ∨ q.getLsbD 1 = false))
    ∧ (∃ (c : CoreIx) (pa : BitVec 56) (ty : Pbmt) (s : State), s.m.coreReady c = true ∧ (coreType pa.toNat ty = .cached ∨ coreType pa.toNat ty = .nc) ∧ s.m.sysLine (s.m.lineOf pa.toNat) = none ∧ s.m.sysBackBusy (s.m.lineOf pa.toNat) = false)
    ∧ (∃ (c : CoreIx) (pa : BitVec 56) (ty : Pbmt) (s : State), s.m.coreReady c = true ∧ (coreType pa.toNat ty = .cached ∨ coreType pa.toNat ty = .nc) ∧ s.m.sysLine (s.m.lineOf pa.toNat) = none ∧ s.m.sysBackBusy (s.m.lineOf pa.toNat) = false)
    ∧ (∃ (c : CoreIx) (pa : BitVec 56) (ty : Pbmt) (s : State), s.m.coreReady c = true ∧ (coreType pa.toNat ty = .cached ∨ coreType pa.toNat ty = .nc) ∧ s.m.sysLine (s.m.lineOf pa.toNat) = none ∧ s.m.sysBackBusy (s.m.lineOf pa.toNat) = false)
    ∧ (∃ (c : CoreIx) (pa : BitVec 56) (ty : Pbmt) (s : State) (x : _), s.m.coreReady c = true ∧ (coreType pa.toNat ty = .cached ∨ coreType pa.toNat ty = .nc) ∧ s.m.sysLine (s.m.lineOf pa.toNat) = some x ∧ x.dirty = true ∧ isHostLine (s.m.lineOf pa.toNat) = false) :=
  ⟨⟨9, 2, st { up with acores := { up.acores with cores := [(9, { unlanded := [4] })] } }, by decide⟩,
   ⟨9, 0x41, .pma, st up, by decide⟩,
   ⟨9, 0x41, .pma, st up, by decide⟩,
   ⟨9, 0x41, .pma, st up, by decide⟩,
   ⟨9, 0x41, .pma, sys1 ({ st := .m, data := 0x1122334455667788, dirty := true, holders := [9] } : SysLine), ({ st := .m, data := 0x1122334455667788, dirty := true, holders := [9] } : SysLine), by decide⟩⟩

theorem witness_ApplicationCores_6 :
    (∃ (c : CoreIx) (pa : BitVec 56) (ty : Pbmt) (s : State) (x : _), s.m.coreReady c = true ∧ (coreType pa.toNat ty = .cached ∨ coreType pa.toNat ty = .nc) ∧ s.m.sysLine (s.m.lineOf pa.toNat) = some x ∧ x.dirty = true ∧ isHostLine (s.m.lineOf pa.toNat) = false)
    ∧ (∃ (c : CoreIx) (pa : BitVec 56) (ty : Pbmt) (s : State) (x : _), s.m.coreReady c = true ∧ (coreType pa.toNat ty = .cached ∨ coreType pa.toNat ty = .nc) ∧ s.m.sysLine (s.m.lineOf pa.toNat) = some x ∧ x.dirty = true ∧ isHostLine (s.m.lineOf pa.toNat) = false)
    ∧ (∃ (c : CoreIx) (pa : BitVec 56) (ty : Pbmt) (x : SysLine) (s : State), s.m.coreReady c = true ∧ coreType (pa.toNat / 64 * 64) ty = .cached ∧ s.m.sysLine (s.m.lineOf (64 * (pa.toNat / 64))) = some x ∧ x.st ≠ .s)
    ∧ (∃ (m : Mach) (l : Nat) (x : SysLine), m.sysLine l = some x ∧ x.dirty = false ∧ isHostLine l = true ∧ m.host.state = .attached ∧ m.host.bme = true ∧ m.inUio (64 * (l - 2 ^ 48)) = false)
    ∧ (∃ (m : Mach) (l : Nat) (x : SysLine), m.sysLine l = some x ∧ x.dirty = false ∧ isHostLine l = true ∧ m.host.state = .attached ∧ m.host.bme = true ∧ m.inUio (64 * (l - 2 ^ 48)) = false) :=
  ⟨⟨9, 0x41, .pma, sys1 ({ st := .m, data := 0x1122334455667788, dirty := true, holders := [9] } : SysLine), ({ st := .m, data := 0x1122334455667788, dirty := true, holders := [9] } : SysLine), by decide⟩,
   ⟨9, 0x41, .pma, sys1 ({ st := .m, data := 0x1122334455667788, dirty := true, holders := [9] } : SysLine), ({ st := .m, data := 0x1122334455667788, dirty := true, holders := [9] } : SysLine), by decide⟩,
   ⟨9, 0x41, .pma, ({ st := .e, data := 0x1122334455667788, holders := [9] } : SysLine), sys1 ({ st := .e, data := 0x1122334455667788, holders := [9] } : SysLine), by decide⟩,
   ⟨{ up with host := { state := .attached, bme := true }, acores := { up.acores with sys := [(2 ^ 48 + 5, some { st := .e, data := 5 })], lru := [2 ^ 48 + 5] } }, 2 ^ 48 + 5, { st := .e, data := 5 }, by decide⟩,
   ⟨{ up with host := { state := .attached, bme := true }, acores := { up.acores with sys := [(2 ^ 48 + 5, some { st := .e, data := 5 })], lru := [2 ^ 48 + 5] } }, 2 ^ 48 + 5, { st := .e, data := 5 }, by decide⟩⟩

theorem witness_ApplicationCores_7 :
    (∃ (c : CoreIx) (a : BitVec 56) (t : List (BitVec 56)) (s : State), (s.m.core c).errStores = a :: t)
    ∧ (∃ (c : CoreIx) (a : BitVec 56) (t : List (BitVec 56)) (s : State), (s.m.core c).lostStores = a :: t)
    ∧ (∃ (v : BitVec 4) (s : State), RegOpen s.m (pwrReg 0x60) ∧ s.m.acores.stepTo = none ∧ 12 < v.toNat)
    ∧ (∃ (v : BitVec 4) (s : State), RegOpen s.m (pwrReg 0x60) ∧ s.m.acores.stepTo = none ∧ v.toNat ≤ 12 ∧ s.m.acores.curClk.toNat < v.toNat)
    ∧ (∃ (v : BitVec 4) (s : State), RegOpen s.m (pwrReg 0x60) ∧ s.m.acores.stepTo = none ∧ v.toNat < s.m.acores.curClk.toNat ∧ s.m.acores.curClk.toNat ≤ 12 ∧ s.m.inLean = false) :=
  ⟨⟨9, 0x41, [0x42], st { up with acores := { up.acores with cores := [(9, { errStores := [0x41, 0x42] })] } }, by decide⟩,
   ⟨9, 0x41, [0x42], st { up with acores := { up.acores with cores := [(9, { lostStores := [0x41, 0x42] })] } }, by decide⟩,
   ⟨13, st up, by unfold RegOpen; decide, by decide⟩,
   ⟨12, st up, by unfold RegOpen; decide, by decide⟩,
   ⟨3, st { up with acores := { curClk := 5 } }, by unfold RegOpen; decide, by decide⟩⟩

theorem witness_ApplicationCores_8 :
    (∃ (c : Fin 6) (v : BitVec 2) (s : State), RegOpen s.m (pwrReg 0x60) ∧ v = 2 ∧ s.m.clusterState c ≠ 2)
    ∧ (∃ (c : Fin 6) (v : BitVec 2) (s : State), RegOpen s.m (pwrReg 0x60) ∧ v.toNat < 2 ∧ s.m.clusterState c ≠ v ∧ s.m.acores.sys = [])
    ∧ (∃ (v : BitVec 2) (s : State), RegOpen s.m (pwrReg 0x60) ∧ v = 3)
    ∧ (∃ (v : BitVec 4) (s : State), s.m.acores.stepTo = some v) :=
  ⟨⟨2, _, st { up with acores := { clusters := [(2, 1)] } }, by unfold RegOpen; decide, rfl, by decide⟩,
   ⟨2, 1, st up, by unfold RegOpen; decide, by decide⟩,
   ⟨_, st up, by unfold RegOpen; decide, rfl⟩,
   ⟨5, st { up with acores := { stepTo := some 5 } }, by decide⟩⟩

theorem witness_ModuleResets_1 :
    (∃ (s : State), RegOpen s.m (bootReg 8) ∧ s.m.boot.stopped = false)
    ∧ (∃ (low : Nat) (s : State), s.m.boot.powered = true ∧ 5000 ≤ low)
    ∧ (∃ (low : Nat), low < 500)
    ∧ (∃ (s : State), s.m.boot.resetPin = true ∧ s.m.boot.inReset = true ∧ s.m.boot.stopped = false ∧ s.m.boot.cause ≠ 1 ∧ NothingHolds { s.m with boot := { s.m.boot with resetPin := false } })
    ∧ (∃ (s : State), s.m.boot.powered = true ∧ s.m.boot.resetPin = false) :=
  ⟨⟨st up, by unfold RegOpen; decide, by decide⟩,
   ⟨5000, st up, by decide⟩,
   ⟨499, by decide⟩,
   ⟨st { up with boot := { up.boot with resetPin := true, inReset := true, cause := 2 } }, by decide, by decide, by decide, by decide, by unfold Claims.NothingHolds; decide⟩,
   ⟨st up, by decide⟩⟩

theorem witness_ModuleResets_2 :
    (∃ (s : State), s.m.boot.powered = true)
    ∧ (∃ (s : State), RegOpen s.m (bootReg 8))
    ∧ (∃ (s : State), s.m.boot.stopped = true ∧ s.m.boot.recovery = true)
    ∧ (∃ (s : State), s.m.boot.stopped = true ∧ s.m.boot.recovery = true ∧ s.m.boot.inReset = false)
    ∧ (∃ (a : Image) (b : Image) (c : Image) (s : State), (s.m.imageOk 0 a && s.m.imageOk 1 b && s.m.imageOk 2 c) = false) :=
  ⟨⟨st up, by decide⟩,
   ⟨st up, by unfold RegOpen; decide⟩,
   ⟨st { up with boot := { stopped := true, recovery := true } }, by decide⟩,
   ⟨st { up with boot := { stopped := true, recovery := true } }, by decide⟩,
   ⟨({ version := 0, minRev := 0, chunks := 1, entry := 0, vector := 0, digest := 0, sig := 0, key := 0, secVersion := 0, data := [] } : Image), ({ version := 0, minRev := 0, chunks := 1, entry := 0, vector := 0, digest := 0, sig := 0, key := 0, secVersion := 0, data := [] } : Image), ({ version := 0, minRev := 0, chunks := 1, entry := 0, vector := 0, digest := 0, sig := 0, key := 0, secVersion := 0, data := [] } : Image), st { up with fused := { rollback := [(0, 1)] } }, by simp [Mach.imageOk, st, FMap.get]⟩⟩

theorem witness_StartStages_1 :
    (∃ (s : State), ¬ InStage s.m 0)
    ∧ (∃ (s : State), ¬ InStage s.m 1)
    ∧ (∃ (s : State), ¬ InStage s.m 2)
    ∧ (∃ (s : State), ¬ InStage s.m 3)
    ∧ (∃ (s : State), ¬ InStage s.m 4) :=
  ⟨⟨st up, by unfold Claims.InStage; decide⟩,
   ⟨st up, by unfold Claims.InStage; decide⟩,
   ⟨st up, by unfold Claims.InStage; decide⟩,
   ⟨st up, by unfold Claims.InStage; decide⟩,
   ⟨st up, by unfold Claims.InStage; decide⟩⟩

theorem witness_StartStages_2 :
    (∃ (s : State), ¬ InStage s.m 5)
    ∧ (∃ (s : State), ¬ InStage s.m 6)
    ∧ (∃ (s : State), ¬ InStage s.m 7)
    ∧ (∃ (s : State), ¬ InStage s.m 8)
    ∧ (∃ (s : State), ¬ InStage s.m 9) :=
  ⟨⟨st up, by unfold Claims.InStage; decide⟩,
   ⟨st up, by unfold Claims.InStage; decide⟩,
   ⟨st up, by unfold Claims.InStage; decide⟩,
   ⟨st up, by unfold Claims.InStage; decide⟩,
   ⟨st up, by unfold Claims.InStage; decide⟩⟩

theorem witness_StartStages_3 :
    (∃ (vin : BitVec 10) (vbus : BitVec 10) (s : State), InStage s.m 0 ∧ s.m.lean.inputOpen = false ∧ 2400 + 10 * s.m.fld (pwrReg 8) 8 8 < 8 * vin.toNat ∧ vin.toNat ≤ vbus.toNat + 10 ∧ vbus.toNat ≤ vin.toNat + 10)
    ∧ (∃ (vin : BitVec 10) (vbus : BitVec 10), vbus.toNat + 10 < vin.toNat)
    ∧ (∃ (s : State), InStage s.m 1)
    ∧ (∃ (s : State), InStage s.m 2 ∧ (FMap.get ({} : BootSlot) s.m.boot.slots 0).failed = true ∧ (FMap.get ({} : BootSlot) s.m.boot.slots 1).failed = true ∧ s.m.boot.slot < 2)
    ∧ (∃ (k : Nat) (s : State) (i : Image), InStage s.m 2 ∧ k < 2 ∧ (FMap.get ({} : BootSlot) s.m.boot.slots k).stage1 = some i ∧ (FMap.get ({} : BootSlot) s.m.boot.slots k).failed = false ∧ (s.m.boot.preferOther = true → k = 1 - s.m.boot.slot) ∧ (s.m.boot.preferOther = false → ∀ j, (FMap.get ({} : BootSlot) s.m.boot.slots (1 - k)).stage1 = some j → j.version.toNat < i.version.toNat)) :=
  ⟨⟨603, 600, st { up with boot := {} }, by unfold Claims.InStage; decide, by decide⟩,
   ⟨603, 592, by decide⟩,
   ⟨st { up with boot := { stage := 1 } }, by unfold Claims.InStage; decide⟩,
   ⟨st { up with boot := { stage := 2, slots := [(0, { failed := true }), (1, { failed := true })] } }, by unfold Claims.InStage; decide, by decide⟩,
   ⟨1, st { up with boot := { stage := 2, slots := [(1, { stage1 := some ({ version := 2, minRev := 1, chunks := 1, entry := 0, vector := 0, digest := 0, sig := 0, key := 0, secVersion := 0, data := [] } : Image) })] } }, ({ version := 2, minRev := 1, chunks := 1, entry := 0, vector := 0, digest := 0, sig := 0, key := 0, secVersion := 0, data := [] } : Image), by unfold Claims.InStage; decide, by decide, by decide, by decide, by decide, by rintro _ j h; cases h⟩⟩

theorem witness_StartStages_4 :
    (∃ (s : State), InStage s.m 3)
    ∧ (∃ (s : State), InStage s.m 3)
    ∧ (∃ (a : DieFind) (b : DieFind) (c : DieFind) (d : DieFind) (s : State), InStage s.m 4 ∧ s.m.boot.warm = false ∧ (∀ i < 4, s.m.dieOut i = false) ∧ (∀ x ∈ [a, b, c, d], x.trained = true ∧ s.m.boot.minRev.toNat ≤ x.revision.toNat))
    ∧ (∃ (a : DieFind) (b : DieFind) (c : DieFind) (d : DieFind) (s : State), InStage s.m 4 ∧ s.m.boot.warm = true ∧ (∃ i x, [a, b, c, d][i]? = some x ∧ FMap.get (0, 0) s.m.boot.retained.dieIds i ≠ (x.revision, x.features)))
    ∧ (∃ (a : DieTest) (b : DieTest) (c : DieTest) (d : DieTest) (s : State), InStage s.m 5 ∧ s.m.boot.warm = true ∧ (∃ i x, [a, b, c, d][i]? = some x ∧ s.m.dieOut i = false ∧ x.voteOk = false)) :=
  ⟨⟨st { up with boot := { stage := 3 } }, by unfold Claims.InStage; decide⟩,
   ⟨st { up with boot := { stage := 3 } }, by unfold Claims.InStage; decide⟩,
   ⟨({ trained := true, revision := 1, features := 3, version := 1, width := 63 } : DieFind), ({ trained := true, revision := 1, features := 3, version := 1, width := 63 } : DieFind), ({ trained := true, revision := 2, features := 1, version := 1, width := 63 } : DieFind), ({ trained := true, revision := 1, features := 3, version := 1, width := 63 } : DieFind), st { up with boot := { stage := 4, minRev := 1 } }, by unfold Claims.InStage; decide, by decide⟩,
   ⟨({ trained := true, revision := 1, features := 3, version := 1, width := 63 } : DieFind), ({ trained := true, revision := 1, features := 3, version := 1, width := 63 } : DieFind), ({ trained := true, revision := 2, features := 1, version := 1, width := 63 } : DieFind), ({ trained := true, revision := 1, features := 3, version := 1, width := 63 } : DieFind), st { up with boot := { stage := 4, warm := true } }, by unfold Claims.InStage; decide, by decide, ⟨0, ({ trained := true, revision := 1, features := 3, version := 1, width := 63 } : DieFind), rfl, by decide⟩⟩,
   ⟨({ voteOk := true, badFlocks := 3, oxCells := [], badHens := [], badMules := 0, spares := 0, fatal := false } : DieTest), ({ voteOk := false, badFlocks := 0, oxCells := [], badHens := [], badMules := 0, spares := 0, fatal := false } : DieTest), ({ voteOk := true, badFlocks := 3, oxCells := [], badHens := [], badMules := 0, spares := 0, fatal := false } : DieTest), ({ voteOk := true, badFlocks := 3, oxCells := [], badHens := [], badMules := 0, spares := 0, fatal := false } : DieTest), st { up with boot := { stage := 5, warm := true } }, by unfold Claims.InStage; decide, by decide, ⟨1, ({ voteOk := false, badFlocks := 0, oxCells := [], badHens := [], badMules := 0, spares := 0, fatal := false } : DieTest), rfl, by decide, rfl⟩⟩⟩

theorem witness_StartStages_5 :
    (∃ (s : State), InStage s.m 5 ∧ s.m.boot.warm = false)
    ∧ (∃ (d : Nat) (s : State), InStage s.m 5 ∧ s.m.boot.warm = false ∧ d < 4 ∧ s.m.dieOut d = true)
    ∧ (∃ (d : Nat) (s : State), InStage s.m 6 ∧ s.m.boot.warm = false ∧ d < 4 ∧ s.m.dieOut d = true)
    ∧ (∃ (s : State), InStage s.m 6)
    ∧ (∃ (s : State), InStage s.m 7 ∧ (FMap.get ({} : BootSlot) s.m.boot.slots s.m.boot.slot).mHen = none) :=
  ⟨⟨st { up with boot := { stage := 5 } }, by unfold Claims.InStage; decide, by decide⟩,
   ⟨2, st { (up.modDie 2 fun x => { x with excluded := true }) with boot := { stage := 5 } }, by unfold Claims.InStage; decide, by decide⟩,
   ⟨2, st { (up.modDie 2 fun x => { x with excluded := true }) with boot := { stage := 6 } }, by unfold Claims.InStage; decide, by decide⟩,
   ⟨st { up with boot := { stage := 6 } }, by unfold Claims.InStage; decide⟩,
   ⟨st { up with boot := { stage := 7 } }, by unfold Claims.InStage; decide, by decide⟩⟩

theorem witness_StartStages_6 :
    (∃ (s : State) (i : Image), InStage s.m 7 ∧ (FMap.get ({} : BootSlot) s.m.boot.slots s.m.boot.slot).mHen = some i ∧ (s.m.hen (agentId 0 2 0)).state ≠ .failed ∧ s.m.boot.dist.missing = [])
    ∧ (∃ (s : State), InStage s.m 8)
    ∧ (∃ (s : State), InStage s.m 9) :=
  ⟨⟨st { up with boot := { stage := 7, slots := [(0, { mHen := some ({ version := 2, minRev := 1, chunks := 1, entry := 0, vector := 0, digest := 0, sig := 0, key := 0, secVersion := 0, data := [] } : Image) })] } }, ({ version := 2, minRev := 1, chunks := 1, entry := 0, vector := 0, digest := 0, sig := 0, key := 0, secVersion := 0, data := [] } : Image), by unfold Claims.InStage; decide, by decide⟩,
   ⟨st { up with boot := { stage := 8 } }, by unfold Claims.InStage; decide⟩,
   ⟨st { up with boot := { stage := 9 } }, by unfold Claims.InStage; decide⟩⟩

theorem witness_ServiceSteps_1 :
    (∃ (die : Fin 8) (d : Nat) (s : State), SvcMay s die d ∧ (LiveDie s.m d))
    ∧ (∃ (die : Fin 8) (s : State), SvcBars s die (fun d => LiveDie s.m d))
    ∧ (∃ (die : Fin 8) (d : Nat) (s : State), SvcMay s die d ∧ (LiveDie s.m d ∧ (s.m.svcDie d).quiesced = true))
    ∧ (∃ (die : Fin 8) (s : State), SvcBars s die (fun d => LiveDie s.m d ∧ (s.m.svcDie d).quiesced = true))
    ∧ (∃ (die : Fin 8) (opt : BitVec 2) (d : Nat) (s : State), SvcMay s die d ∧ (LiveDie s.m d ∧ (opt.getLsbD 0 = true ∨ ((s.m.svcDie d).quiesced = true ∧ (s.m.svcDie d).flushed = true)))) :=
  ⟨⟨1, 0, st up, ⟨by unfold RegOpen; decide, by decide, by decide, by decide, by decide⟩, ⟨by decide, by decide, by decide⟩⟩,
   ⟨0, st up, ⟨by unfold RegOpen; decide, .inl (by decide)⟩⟩,
   ⟨1, 0, svc { quiesced := true }, ⟨by unfold RegOpen; decide, by decide, by decide, by decide, by decide⟩, ⟨⟨by decide, by decide, by decide⟩, by decide⟩⟩,
   ⟨0, st up, ⟨by unfold RegOpen; decide, .inl (by decide)⟩⟩,
   ⟨1, 1, 0, st up, ⟨by unfold RegOpen; decide, by decide, by decide, by decide, by decide⟩, ⟨⟨by decide, by decide, by decide⟩, .inl (by decide)⟩⟩⟩

theorem witness_ServiceSteps_2 :
    (∃ (die : Fin 8) (opt : BitVec 2) (s : State), (SvcBars s die (fun d => LiveDie s.m d ∧ (opt.getLsbD 0 = true ∨ ((s.m.svcDie d).quiesced = true ∧ (s.m.svcDie d).flushed = true)))))
    ∧ (∃ (die : Fin 8) (opt : BitVec 2) (d : Nat) (s : State), SvcMay s die d ∧ (((s.m.svcDie d).inReset = true ∧ (s.m.die d).computeReset = true) ∨ ((s.m.svcDie d).added = true ∧ opt.getLsbD 0 = false)))
    ∧ (∃ (die : Fin 8) (opt : BitVec 2) (s : State), (SvcBars s die (fun d => ((s.m.svcDie d).inReset = true ∧ (s.m.die d).computeReset = true) ∨ ((s.m.svcDie d).added = true ∧ opt.getLsbD 0 = false))))
    ∧ (∃ (die : Fin 8) (d : Nat) (s : State), SvcMay s die d ∧ ((s.m.svcDie d).tested = true))
    ∧ (∃ (die : Fin 8) (s : State), SvcBars s die (fun d => (s.m.svcDie d).tested = true)) :=
  ⟨⟨0, 0, st up, ⟨by unfold RegOpen; decide, .inl (by decide)⟩⟩,
   ⟨1, 0, 0, svc { added := true }, ⟨by unfold RegOpen; decide, by decide, by decide, by decide, by decide⟩, .inr ⟨by decide, by decide⟩⟩,
   ⟨0, 0, st up, ⟨by unfold RegOpen; decide, .inl (by decide)⟩⟩,
   ⟨1, 0, svc { tested := true }, ⟨by unfold RegOpen; decide, by decide, by decide, by decide, by decide⟩, by decide⟩,
   ⟨0, st up, ⟨by unfold RegOpen; decide, .inl (by decide)⟩⟩⟩

theorem witness_ServiceSteps_3 :
    (∃ (die : Fin 8) (flock : Fin 32) (opt : BitVec 2) (d : Nat) (s : State), SvcMay s die d ∧ (if opt.getLsbD 1 then ((s.m.svcDie d).hbmUp = true ∨ flock.val ∈ (s.m.svcDie d).flockOn) ∧ s.m.flockEnabled (flockBase d flock) = true else (s.m.svcDie d).hbmUp = true ∨ (s.m.svcDie d).flockOn ≠ []))
    ∧ (∃ (die : Fin 8) (flock : Fin 32) (opt : BitVec 2) (s : State), (SvcBars s die (fun d => if opt.getLsbD 1 then ((s.m.svcDie d).hbmUp = true ∨ flock.val ∈ (s.m.svcDie d).flockOn) ∧ s.m.flockEnabled (flockBase d flock) = true else (s.m.svcDie d).hbmUp = true ∨ (s.m.svcDie d).flockOn ≠ [])))
    ∧ (∃ (die : Fin 8) (d : Nat) (s : State), SvcMay s die d ∧ ((s.m.svcDie d).loaded = true))
    ∧ (∃ (die : Fin 8) (s : State), SvcBars s die (fun d => (s.m.svcDie d).loaded = true))
    ∧ (∃ (die : Fin 8) (flock : Fin 32) (opt : BitVec 2) (d : Nat) (s : State), SvcMay s die d ∧ (if opt.getLsbD 1 then ((s.m.svcDie d).rejoined = true ∨ (flock.val ∈ (s.m.svcDie d).flockOn ∧ flock.val ∈ (s.m.svcDie d).flockLoaded)) ∧ s.m.flockEnabled (flockBase d flock) = true else (s.m.svcDie d).rejoined = true ∨ ∃ g ∈ (s.m.svcDie d).flockOn, g ∈ (s.m.svcDie d).flockLoaded)) :=
  ⟨⟨1, 0, 0, 0, svc { hbmUp := true }, ⟨by unfold RegOpen; decide, by decide, by decide, by decide, by decide⟩, .inl (by decide)⟩,
   ⟨0, 0, 0, st up, ⟨by unfold RegOpen; decide, .inl (by decide)⟩⟩,
   ⟨1, 0, svc { loaded := true }, ⟨by unfold RegOpen; decide, by decide, by decide, by decide, by decide⟩, by decide⟩,
   ⟨0, st up, ⟨by unfold RegOpen; decide, .inl (by decide)⟩⟩,
   ⟨1, 3, 2, 0, svc { flockOn := [3], flockLoaded := [3] }, ⟨by unfold RegOpen; decide, by decide, by decide, by decide, by decide⟩, ⟨.inr ⟨by decide, by decide⟩, by decide⟩⟩⟩

theorem witness_ServiceSteps_4 :
    (∃ (die : Fin 8) (flock : Fin 32) (opt : BitVec 2) (s : State), (SvcBars s die (fun d => if opt.getLsbD 1 then ((s.m.svcDie d).rejoined = true ∨ (flock.val ∈ (s.m.svcDie d).flockOn ∧ flock.val ∈ (s.m.svcDie d).flockLoaded)) ∧ s.m.flockEnabled (flockBase d flock) = true else (s.m.svcDie d).rejoined = true ∨ ∃ g ∈ (s.m.svcDie d).flockOn, g ∈ (s.m.svcDie d).flockLoaded)))
    ∧ (∃ (die : Fin 8) (d : Nat) (s : State), SvcMay s die d ∧ ((s.m.die d).excluded = true ∨ (s.m.die d).dead = true))
    ∧ (∃ (die : Fin 8) (s : State), (SvcBars s die (fun d => (s.m.die d).excluded = true ∨ (s.m.die d).dead = true)))
    ∧ (∃ (die : Fin 8) (flock : Fin 32) (d : Nat) (s : State), SvcMay s die d ∧ (flock.val < 26 ∧ LiveDie s.m d ∧ (s.m.die d).flockMap.getLsbD flock = true ∧ FlockEmpty s.m (flockBase d flock)))
    ∧ (∃ (die : Fin 8) (flock : Fin 32) (s : State), SvcBars s die (fun d => flock.val < 26 ∧ LiveDie s.m d ∧ (s.m.die d).flockMap.getLsbD flock = true ∧ FlockEmpty s.m (flockBase d flock))) :=
  ⟨⟨0, 0, 0, st up, ⟨by unfold RegOpen; decide, .inl (by decide)⟩⟩,
   ⟨4, 3, die 3 fun d => { d with dead := true }, ⟨by unfold RegOpen; decide, by decide, by decide, by decide, by decide⟩, .inr (by decide)⟩,
   ⟨0, st up, ⟨by unfold RegOpen; decide, .inl (by decide)⟩⟩,
   ⟨1, 0, 0, st (up.modCollie 1024 fun c => { c with state := .quiesced }), ⟨by unfold RegOpen; decide, by decide, by decide, by decide, by decide⟩, ⟨by decide, ⟨by decide, by decide, by decide⟩, by decide, ⟨by decide, by decide, by decide, by decide, by decide⟩⟩⟩,
   ⟨0, 0, st up, ⟨by unfold RegOpen; decide, .inl (by decide)⟩⟩⟩

theorem witness_ServiceSteps_5 :
    (∃ (die : Fin 8) (flock : Fin 32) (d : Nat) (s : State), SvcMay s die d ∧ (flock.val < 26 ∧ LiveDie s.m d ∧ (s.m.svcDie d).goodFlocks.getLsbD flock = true ∧ (s.m.die d).flockMap.getLsbD flock = false ∧ s.m.flockCount d < 24))
    ∧ (∃ (die : Fin 8) (flock : Fin 32) (s : State), SvcBars s die (fun d => flock.val < 26 ∧ LiveDie s.m d ∧ (s.m.svcDie d).goodFlocks.getLsbD flock = true ∧ (s.m.die d).flockMap.getLsbD flock = false ∧ s.m.flockCount d < 24))
    ∧ (∃ (s : State), (s.m.boot.svcBusy = none ∨ s.m.inLean = true))
    ∧ (∃ (f : SvcFind) (s : State) (x : SvcStep), InStep s x ∧ f.ok = false ∧ x.die < 4)
    ∧ (∃ (f : SvcFind) (s : State) (x : SvcStep), InStep s x ∧ f.ok = true ∧ x.step = 1 ∧ s.m.dieQuiesced x.die = false) :=
  ⟨⟨1, 25, 0, st { up with dies := [(0, { dieUp with flockMap := 7 })], boot := { up.boot with svcDies := [(0, { goodFlocks := 0x2000000 })] } }, ⟨by unfold RegOpen; decide, by decide, by decide, by decide, by decide⟩, ⟨by decide, ⟨by decide, by decide, by decide⟩, by decide, by decide, by decide⟩⟩,
   ⟨0, 0, st up, ⟨by unfold RegOpen; decide, .inl (by decide)⟩⟩,
   ⟨st up, by decide⟩,
   ⟨({ ok := false, test := ({ voteOk := true, badFlocks := 3, oxCells := [], badHens := [], badMules := 0, spares := 0, fatal := false } : DieTest), disc := ({ trained := true, revision := 1, features := 3, version := 1, width := 63 } : DieFind) } : SvcFind), svcAt 3 {}, ⟨3, 0, 0, 0⟩, ⟨by decide, by decide⟩, by decide⟩,
   ⟨({ ok := true, test := ({ voteOk := true, badFlocks := 3, oxCells := [], badHens := [], badMules := 0, spares := 0, fatal := false } : DieTest), disc := ({ trained := true, revision := 1, features := 3, version := 1, width := 63 } : DieFind) } : SvcFind), svcAt 1 {} (up.modCollie 1024 fun c => { c with state := .running }), ⟨1, 0, 0, 0⟩, ⟨by decide, by decide⟩, by decide⟩⟩

theorem witness_ServiceSteps_6 :
    (∃ (f : SvcFind) (s : State) (x : SvcStep), InStep s x ∧ f.ok = true ∧ x.step = 1 ∧ s.m.dieQuiesced x.die = true)
    ∧ (∃ (f : SvcFind) (s : State) (x : SvcStep), InStep s x ∧ f.ok = true ∧ x.step = 2 ∧ (∃ w ∈ s.m.coh.wbs, agentDie w.agent = x.die + 1))
    ∧ (∃ (f : SvcFind) (s : State) (x : SvcStep), InStep s x ∧ f.ok = true ∧ x.step = 2 ∧ (∀ w ∈ s.m.coh.wbs, agentDie w.agent ≠ x.die + 1))
    ∧ (∃ (f : SvcFind) (s : State) (x : SvcStep), InStep s x ∧ f.ok = true ∧ x.step = 3)
    ∧ (∃ (f : SvcFind) (s : State) (x : SvcStep), InStep s x ∧ f.ok = true ∧ x.step = 4 ∧ (f.test.fatal = false ∨ x.opt.getLsbD 0 = true)) :=
  ⟨⟨({ ok := true, test := ({ voteOk := true, badFlocks := 3, oxCells := [], badHens := [], badMules := 0, spares := 0, fatal := false } : DieTest), disc := ({ trained := true, revision := 1, features := 3, version := 1, width := 63 } : DieFind) } : SvcFind), svcAt 1 {} quiet, ⟨1, 0, 0, 0⟩, ⟨by decide, by decide⟩, by decide⟩,
   ⟨({ ok := true, test := ({ voteOk := true, badFlocks := 3, oxCells := [], badHens := [], badMules := 0, spares := 0, fatal := false } : DieTest), disc := ({ trained := true, revision := 1, features := 3, version := 1, width := 63 } : DieFind) } : SvcFind), svcAt 2 {} { up with coh := { wbs := [({ agent := 1027, line := hl, data := 0x55, poison := false, keep := true } : WriteBack)] } }, ⟨2, 0, 0, 0⟩, ⟨by decide, by decide⟩, by decide, by decide, ⟨_, .head _, by decide⟩⟩,
   ⟨({ ok := true, test := ({ voteOk := true, badFlocks := 3, oxCells := [], badHens := [], badMules := 0, spares := 0, fatal := false } : DieTest), disc := ({ trained := true, revision := 1, features := 3, version := 1, width := 63 } : DieFind) } : SvcFind), svcAt 2 {}, ⟨2, 0, 0, 0⟩, ⟨by decide, by decide⟩, by decide⟩,
   ⟨({ ok := true, test := ({ voteOk := true, badFlocks := 3, oxCells := [], badHens := [], badMules := 0, spares := 0, fatal := false } : DieTest), disc := ({ trained := true, revision := 1, features := 3, version := 1, width := 63 } : DieFind) } : SvcFind), svcAt 3 {}, ⟨3, 0, 0, 0⟩, ⟨by decide, by decide⟩, by decide⟩,
   ⟨({ ok := true, test := ({ voteOk := true, badFlocks := 3, oxCells := [], badHens := [], badMules := 0, spares := 0, fatal := false } : DieTest), disc := ({ trained := true, revision := 1, features := 3, version := 1, width := 63 } : DieFind) } : SvcFind), svcAt 4 {}, ⟨4, 0, 0, 0⟩, ⟨by decide, by decide⟩, by decide, by decide, .inl (by decide)⟩⟩

theorem witness_ServiceSteps_7 :
    (∃ (f : SvcFind) (s : State) (x : SvcStep), InStep s x ∧ f.ok = true ∧ x.step = 4 ∧ f.test.fatal = true ∧ x.opt.getLsbD 0 = false)
    ∧ (∃ (f : SvcFind) (s : State) (x : SvcStep), InStep s x ∧ f.ok = true ∧ x.step = 5 ∧ x.die < 4)
    ∧ (∃ (f : SvcFind) (s : State) (x : SvcStep), InStep s x ∧ f.ok = true ∧ x.step = 6 ∧ x.die < 4)
    ∧ (∃ (f : SvcFind) (s : State) (x : SvcStep), InStep s x ∧ f.ok = true ∧ x.step = 7 ∧ x.die < 4 ∧ s.m.linesLeft x.die = true)
    ∧ (∃ (f : SvcFind) (s : State) (x : SvcStep), InStep s x ∧ f.ok = true ∧ x.step = 7 ∧ x.die < 4 ∧ s.m.linesLeft x.die = false) :=
  ⟨⟨({ ok := true, test := ({ voteOk := true, badFlocks := 3, oxCells := [], badHens := [], badMules := 0, spares := 0, fatal := true } : DieTest), disc := ({ trained := false, revision := 1, features := 3, version := 1, width := 63 } : DieFind) } : SvcFind), svcAt 4 {}, ⟨4, 0, 0, 0⟩, ⟨by decide, by decide⟩, by decide⟩,
   ⟨({ ok := true, test := ({ voteOk := true, badFlocks := 3, oxCells := [], badHens := [], badMules := 0, spares := 0, fatal := false } : DieTest), disc := ({ trained := true, revision := 1, features := 3, version := 1, width := 63 } : DieFind) } : SvcFind), svcAt 5 {}, ⟨5, 0, 0, 0⟩, ⟨by decide, by decide⟩, by decide⟩,
   ⟨({ ok := true, test := ({ voteOk := true, badFlocks := 3, oxCells := [], badHens := [], badMules := 0, spares := 0, fatal := false } : DieTest), disc := ({ trained := true, revision := 1, features := 3, version := 1, width := 63 } : DieFind) } : SvcFind), svcAt 6 {}, ⟨6, 0, 0, 0⟩, ⟨by decide, by decide⟩, by decide⟩,
   ⟨({ ok := true, test := ({ voteOk := true, badFlocks := 3, oxCells := [], badHens := [], badMules := 0, spares := 0, fatal := false } : DieTest), disc := ({ trained := true, revision := 1, features := 3, version := 1, width := 63 } : DieFind) } : SvcFind), svcAt 7 {} (hen3 { line := hl, st := .m, data := 0 }), ⟨7, 0, 0, 0⟩, ⟨by decide, by decide⟩, by decide⟩,
   ⟨({ ok := true, test := ({ voteOk := true, badFlocks := 3, oxCells := [], badHens := [], badMules := 0, spares := 0, fatal := false } : DieTest), disc := ({ trained := true, revision := 1, features := 3, version := 1, width := 63 } : DieFind) } : SvcFind), svcAt 7 {}, ⟨7, 0, 0, 0⟩, ⟨by decide, by decide⟩, by decide⟩⟩

theorem witness_ServiceSteps_8 :
    (∃ (f : SvcFind) (s : State) (x : SvcStep), InStep s x ∧ f.ok = true ∧ x.step = 8)
    ∧ (∃ (f : SvcFind) (s : State) (x : SvcStep), InStep s x ∧ f.ok = true ∧ x.step = 9 ∧ x.die < 4 ∧ f.disc.trained = true ∧ s.m.boot.minRev.toNat ≤ f.disc.revision.toNat ∧ f.disc.features &&& s.m.boot.features = s.m.boot.features ∧ s.m.boot.linkVersion.toNat ≤ f.disc.version.toNat)
    ∧ (∃ (f : SvcFind) (s : State) (x : SvcStep), InStep s x ∧ f.ok = true ∧ x.step = 9 ∧ x.die < 4 ∧ f.disc.trained = false)
    ∧ (∃ (f : SvcFind) (s : State) (x : SvcStep), InStep s x ∧ f.ok = true ∧ x.step = 10)
    ∧ (∃ (f : SvcFind) (s : State) (x : SvcStep), InStep s x ∧ f.ok = true ∧ x.step = 11 ∧ x.die < 4 ∧ x.flock < 26 ∧ (s.m.domain x.die x.flock ≠ .on ∨ x.flock ∈ (s.m.die x.die).waking)) :=
  ⟨⟨({ ok := true, test := ({ voteOk := true, badFlocks := 3, oxCells := [], badHens := [], badMules := 0, spares := 0, fatal := false } : DieTest), disc := ({ trained := true, revision := 1, features := 3, version := 1, width := 63 } : DieFind) } : SvcFind), svcAt 8 {}, ⟨8, 0, 0, 0⟩, ⟨by decide, by decide⟩, by decide⟩,
   ⟨({ ok := true, test := ({ voteOk := true, badFlocks := 3, oxCells := [], badHens := [], badMules := 0, spares := 0, fatal := false } : DieTest), disc := ({ trained := true, revision := 1, features := 3, version := 1, width := 63 } : DieFind) } : SvcFind), svcAt 9 {}, ⟨9, 0, 0, 0⟩, ⟨by decide, by decide⟩, by decide⟩,
   ⟨({ ok := true, test := ({ voteOk := true, badFlocks := 3, oxCells := [], badHens := [], badMules := 0, spares := 0, fatal := true } : DieTest), disc := ({ trained := false, revision := 1, features := 3, version := 1, width := 63 } : DieFind) } : SvcFind), svcAt 9 {}, ⟨9, 0, 0, 0⟩, ⟨by decide, by decide⟩, by decide⟩,
   ⟨({ ok := true, test := ({ voteOk := true, badFlocks := 3, oxCells := [], badHens := [], badMules := 0, spares := 0, fatal := false } : DieTest), disc := ({ trained := true, revision := 1, features := 3, version := 1, width := 63 } : DieFind) } : SvcFind), svcAt 10 {}, ⟨10, 0, 0, 0⟩, ⟨by decide, by decide⟩, by decide⟩,
   ⟨({ ok := true, test := ({ voteOk := true, badFlocks := 3, oxCells := [], badHens := [], badMules := 0, spares := 0, fatal := false } : DieTest), disc := ({ trained := true, revision := 1, features := 3, version := 1, width := 63 } : DieFind) } : SvcFind), svcAt 11 {} (up.modDie 0 fun x => { x with domains := [] }), ⟨11, 0, 0, 0⟩, ⟨by decide, by decide⟩, by decide, by decide, by decide, by decide, .inl (by decide)⟩⟩

theorem witness_ServiceSteps_9 :
    (∃ (f : SvcFind) (s : State) (x : SvcStep), InStep s x ∧ f.ok = true ∧ x.step = 11 ∧ x.die < 4 ∧ x.flock < 26 ∧ s.m.domain x.die x.flock = .on ∧ x.flock ∉ (s.m.die x.die).waking ∧ f.test.badFlocks.getLsbD x.flock = true)
    ∧ (∃ (f : SvcFind) (s : State) (x : SvcStep), InStep s x ∧ f.ok = true ∧ x.step = 11 ∧ x.die < 4 ∧ x.flock < 26 ∧ s.m.domain x.die x.flock = .on ∧ x.flock ∉ (s.m.die x.die).waking ∧ f.test.badFlocks.getLsbD x.flock = false ∧ (FMap.get ({} : DieFuse) s.m.fused.dies x.die).badFlocks.getLsbD x.flock = false) :=
  ⟨⟨({ ok := true, test := ({ voteOk := true, badFlocks := 3, oxCells := [], badHens := [], badMules := 0, spares := 0, fatal := false } : DieTest), disc := ({ trained := true, revision := 1, features := 3, version := 1, width := 63 } : DieFind) } : SvcFind), svcAt 11 {}, ⟨11, 0, 0, 0⟩, ⟨by decide, by decide⟩, by decide⟩,
   ⟨({ ok := true, test := ({ voteOk := true, badFlocks := 3, oxCells := [], badHens := [], badMules := 0, spares := 0, fatal := false } : DieTest), disc := ({ trained := true, revision := 1, features := 3, version := 1, width := 63 } : DieFind) } : SvcFind), st { up with boot := { up.boot with svcBusy := some ⟨11, 0, 25, 0⟩ } }, ⟨11, 0, 25, 0⟩, ⟨by decide, by decide⟩, by decide⟩⟩

theorem witness_UpdatesAndRestore_1 :
    (∃ (s : State), RegOpen s.m (bootReg 0x28) ∧ s.m.herd.bellwether = true ∧ s.m.boot.ready = true ∧ s.m.boot.sending = none)
    ∧ (∃ (s : State), RegOpen s.m (bootReg 0x28) ∧ (s.m.herd.bellwether = false ∨ s.m.boot.ready = false))
    ∧ (∃ (s : State) (d : FwDist), s.m.boot.sending = some d)
    ∧ (∃ (s : State), s.m.boot.sending = none ∧ s.m.boot.dist.running = true)
    ∧ (∃ (s : State), RegOpen s.m (bootReg 0x1C) ∧ (s.m.boot.ready = false ∨ s.m.boot.restoring = true ∨ s.m.fused.zeroised = true ∨ s.m.invasive = true ∨ s.m.newestSeal = none)) :=
  ⟨⟨st { up with herd := { bellwether := true } }, by unfold RegOpen; decide, by decide⟩,
   ⟨st up, by unfold RegOpen; decide, by decide⟩,
   ⟨st { up with boot := { up.boot with sending := some { rounds := 2 } } }, { rounds := 2 }, by decide⟩,
   ⟨st { up with boot := { up.boot with dist := { running := true } } }, by decide⟩,
   ⟨st up, by unfold RegOpen; decide, by decide⟩⟩

theorem witness_UpdatesAndRestore_2 :
    (∃ (s : State) (x : Seal), RegOpen s.m (bootReg 0x1C) ∧ s.m.boot.ready = true ∧ s.m.boot.restoring = false ∧ s.m.fused.zeroised = false ∧ s.m.invasive = false ∧ s.m.newestSeal = some x ∧ x.regions.take x.regionsDone = [])
    ∧ (∃ (s : State) (x : Seal) (r : SavedRegion) (j : Nat), RegOpen s.m (bootReg 0x1C) ∧ s.m.boot.ready = true ∧ s.m.boot.restoring = false ∧ s.m.fused.zeroised = false ∧ s.m.invasive = false ∧ s.m.newestSeal = some x ∧ x.regions.take x.regionsDone = [r] ∧ s.m.boot.digestBad = 0 ∧ j < Mach.descLines r.desc ∧ s.m.restorable (Mach.descBase r.desc + 64 * j) = false) :=
  ⟨⟨st { up with save := { seal0 := some ({ epoch := 0, seq := 1, incomplete := false, regionsDone := 0, descs := [], regions := [], dirtyMap := none } : Seal) } }, ({ epoch := 0, seq := 1, incomplete := false, regionsDone := 0, descs := [], regions := [], dirtyMap := none } : Seal), by unfold RegOpen; decide, by decide⟩,
   ⟨st { up with save := { seal1 := some ({ epoch := 0, seq := 1, incomplete := false, regionsDone := 1, descs := [], regions := [({ index := 0, desc := BitVec.ofNat 128 (0x7F0100000000 + 2 ^ 56), badLines := 0, bad := [], digest := 0, data := [] } : SavedRegion)], dirtyMap := none } : Seal) } }, ({ epoch := 0, seq := 1, incomplete := false, regionsDone := 1, descs := [], regions := [({ index := 0, desc := BitVec.ofNat 128 (0x7F0100000000 + 2 ^ 56), badLines := 0, bad := [], digest := 0, data := [] } : SavedRegion)], dirtyMap := none } : Seal), ({ index := 0, desc := BitVec.ofNat 128 (0x7F0100000000 + 2 ^ 56), badLines := 0, bad := [], digest := 0, data := [] } : SavedRegion), 0, by unfold RegOpen; decide, by decide⟩⟩

theorem witness_GooseEvents_1 :
    (∃ (s : State), s.m.boot.powered = true)
    ∧ (∃ (s : State), s.m.boot.powered = true)
    ∧ (∃ (s : State), s.m.boot.powered = true)
    ∧ (∃ (s : State), s.m.boot.powered = true ∧ s.m.boot.inReset = false)
    ∧ (∃ (s : State), s.m.boot.powered = false) :=
  ⟨⟨st up, by decide⟩,
   ⟨st up, by decide⟩,
   ⟨st up, by decide⟩,
   ⟨st up, by decide⟩,
   ⟨st { up with boot := { up.boot with powered := false } }, by decide⟩⟩

theorem witness_GooseEvents_2 :
    (∃ (s : State), s.m.boot.powered = false)
    ∧ (∃ (s : State), s.m.boot.powered = false)
    ∧ (∃ (s : State), s.m.boot.powered = true ∧ s.m.boot.inReset = false)
    ∧ (∃ (c : GooseHold) (s : State), s.m.boot.inReset = true ∧ s.m.boot.stopped = false ∧ s.m.boot.cause = 8 ∧ NothingHolds { s.m with goose := holdGone s.m.goose c })
    ∧ (∃ (t : Nat) (s : State), (s.m.goose.armed = false ∨ t < s.m.goose.windowEnd)) :=
  ⟨⟨st { up with boot := { up.boot with powered := false } }, by decide⟩,
   ⟨st { up with boot := { up.boot with powered := false } }, by decide⟩,
   ⟨st up, by decide⟩,
   ⟨.mclk, st { up with goose := { heldMclk := true }, boot := { up.boot with inReset := true, cause := 8 } }, by decide, by decide, by decide, by unfold Claims.NothingHolds; decide⟩,
   ⟨1999, st { up with goose := ({ armed := true, windowEnd := 2000 } : Goose) }, by decide⟩⟩

theorem witness_GooseEvents_3 :
    (∃ (t : Nat) (s : State), s.m.goose.armed = true ∧ s.m.boot.inReset = false ∧ s.m.goose.windowEnd ≤ t ∧ s.m.goose.missed = 0)
    ∧ (∃ (t : Nat) (s : State), s.m.boot.powered = true ∧ s.m.goose.armed = true ∧ s.m.boot.inReset = false ∧ s.m.goose.windowEnd ≤ t ∧ s.m.goose.missed ≠ 0)
    ∧ (∃ (w : BitVec 32) (s : State), RegOpen s.m (gooseReg 0) ∧ (w.setWidth 8 = (if s.m.goose.expect5A then 0x5A#8 else 0xA5#8)))
    ∧ (∃ (w : BitVec 32) (s : State), RegOpen s.m (gooseReg 0) ∧ (w.setWidth 8 ≠ (if s.m.goose.expect5A then 0x5A#8 else 0xA5#8)))
    ∧ (∃ (s : State), s.m.boot.powered = true ∧ s.m.blows = []) :=
  ⟨⟨2000, st { up with goose := ({ armed := true, windowEnd := 2000 } : Goose) }, by decide⟩,
   ⟨2000, st { up with goose := ({ armed := true, windowEnd := 2000, missed := 1 } : Goose) }, by decide⟩,
   ⟨0x5A, st { up with goose := ({ armed := true, windowEnd := 2000 } : Goose) }, by unfold RegOpen; decide, by decide⟩,
   ⟨0xA5, st { up with goose := ({ armed := true, windowEnd := 2000 } : Goose) }, by unfold RegOpen; decide, by decide⟩,
   ⟨st up, by decide⟩⟩

theorem witness_GooseEvents_4 :
    (∃ (s : State), RegOpen s.m (modReg 8)) :=
  ⟨st up, by unfold RegOpen; decide⟩

theorem witness_DieFaultsAndVotes_1 :
    (∃ (d : Fin 4) (s : State), s.m.dieOut d = false ∧ s.m.boot.inReset = false)
    ∧ (∃ (d : Fin 4) (s : State), s.m.dieOut d = true)
    ∧ (∃ (d : Fin 4) (s : State), s.m.dieOut d = false ∧ s.m.boot.inReset = false)
    ∧ (∃ (d : Fin 4) (temp : Nat) (s : State), s.m.dieOut d = false ∧ s.m.boot.inReset = false ∧ 115 < temp)
    ∧ (∃ (d : Fin 4) (temp : Nat) (s : State), s.m.dieOut d = false ∧ s.m.boot.inReset = false ∧ 105 < temp ∧ temp ≤ 115) :=
  ⟨⟨3, st up, by decide⟩,
   ⟨3, die 3 fun d => { d with excluded := true }, by decide⟩,
   ⟨3, st up, by decide⟩,
   ⟨0, 116, st up, by decide⟩,
   ⟨0, 115, st up, by decide⟩⟩

theorem witness_DieFaultsAndVotes_2 :
    (∃ (d : Fin 4) (temp : Nat) (s : State), s.m.dieOut d = false ∧ s.m.boot.inReset = false ∧ (s.m.die d).hot = false ∧ temp ≤ 105)
    ∧ (∃ (d : Fin 4) (temp : Nat) (s : State), s.m.dieOut d = false ∧ s.m.boot.inReset = false ∧ temp < 100)
    ∧ (∃ (s : State), s.m.boot.inReset = true)
    ∧ (∃ (s : State), s.m.boot.inReset = false)
    ∧ (∃ (s : State), s.m.boot.inReset = false) :=
  ⟨⟨0, 105, st up, by decide⟩,
   ⟨0, 99, die 0 fun d => { d with hot := true }, by decide⟩,
   ⟨st { up with boot := { up.boot with inReset := true } }, by decide⟩,
   ⟨st up, by decide⟩,
   ⟨st up, by decide⟩⟩

theorem witness_DieFaultsAndVotes_3 :
    (∃ (s : State), s.m.boot.inReset = false)
    ∧ (∃ (s : State), s.m.boot.inReset = false)
    ∧ (∃ (s : State), s.m.boot.inReset = false)
    ∧ (∃ (s : State), s.m.boot.inReset = false)
    ∧ (∃ (s : State), s.m.boot.inReset = false) :=
  ⟨⟨st up, by decide⟩,
   ⟨st up, by decide⟩,
   ⟨st up, by decide⟩,
   ⟨st up, by decide⟩,
   ⟨st up, by decide⟩⟩

theorem witness_DieFaultsAndVotes_4 :
    (∃ (d : Fin 4) (s : State), s.m.boot.inReset = false ∧ s.m.dieOut d = false) :=
  ⟨2, st up, by decide⟩

theorem witness_SecurityAndTelemetry_1 :
    (∃ (s : State), RegOpen s.m (secReg 4))
    ∧ (∃ (s : State), s.m.blows = [] ∧ RegOpen s.m (secReg 4) ∧ s.m.fused.rollback = s.fuses.rollback)
    ∧ (∃ (s : State) (n : BitVec 256), s.m.sec.quoteFor = some n)
    ∧ (∃ (s : State), s.m.sec.quoteFor = none)
    ∧ (∃ (d : Fin 5) (s : State), RegOpen s.m (telReg d 0) ∧ (s.m.tel d).wr = (s.m.tel d).rd) :=
  ⟨⟨st up, by unfold RegOpen; decide⟩,
   ⟨st up, by decide, by unfold RegOpen; decide, by decide⟩,
   ⟨st { up with sec := { up.sec with quoteFor := some 77 } }, 77, by decide⟩,
   ⟨st up, by decide⟩,
   ⟨0, st up, by unfold RegOpen; decide, by decide⟩⟩

theorem witness_SecurityAndTelemetry_2 :
    (∃ (d : Fin 5) (s : State) (n : Nat), RegOpen s.m (telReg d 0) ∧ 0 < n ∧ n ≤ ((s.m.tel d).wr - (s.m.tel d).rd).toNat ∧ n ≤ 512 ∧ (∀ j, 0 < j → j < n → FMap.get false (s.m.tel d).starts (((s.m.tel d).rd.toNat + j) % 512) = false) ∧ (n < ((s.m.tel d).wr - (s.m.tel d).rd).toNat → FMap.get false (s.m.tel d).starts (((s.m.tel d).rd.toNat + n) % 512) = true)) :=
  ⟨1, st { up with tels := [(1, { wr := 3, starts := [(0, true), (2, true)] })] }, 2, by unfold RegOpen; decide, by decide, by decide, by decide, only1 (by decide), by decide⟩

theorem witness_RegisterAccess_1 :
    (∃ (b : Fin 1280) (s : State), BoxOpen s.m b 0xFF08 ∧ (s.m.mailbox b).held = false)
    ∧ (∃ (b : Fin 1280) (s : State), BoxOpen s.m b 0xFF08 ∧ (s.m.mailbox b).held = true)
    ∧ (∃ (a : BitVec 13) (b : Fin 1280) (s : State), BoxOpen s.m b 0xFF08 ∧ (((s.m.mailbox b).held = true ∧ (s.m.mailbox b).owner = a) ∨ isMgmtHen a.toNat = true))
    ∧ (∃ (a : BitVec 13) (b : Fin 1280) (s : State), BoxOpen s.m b 0xFF08 ∧ ((s.m.mailbox b).held = false ∨ (s.m.mailbox b).owner ≠ a) ∧ isMgmtHen a.toNat = false)
    ∧ (∃ (a : BitVec 13) (b : Fin 1280) (w : BitVec 32) (s : State) (c : Instr), BoxOpen s.m b 0xFF00 ∧ w.getLsbD 0 = true ∧ (c = (if w.getLsbD 1 then .mbxWrite a b w else .mbxRead a b w)) ∧ ((s.m.mailbox b).busy = true ∨ ((s.m.mailbox b).held = true ∧ (s.m.mailbox b).owner ≠ a))) :=
  ⟨⟨0, st up, by unfold Claims.BoxOpen RegOpen; decide, by decide⟩,
   ⟨0, st { up with mbx := [(0, { held := true, owner := 5 })] }, by unfold Claims.BoxOpen RegOpen; decide, by decide⟩,
   ⟨1027, 0, st { up with mbx := [(0, { held := true, owner := 1027 })] }, by unfold Claims.BoxOpen RegOpen; decide, by decide⟩,
   ⟨1027, 0, st { up with mbx := [(0, { held := true, owner := 5 })] }, by unfold Claims.BoxOpen RegOpen; decide, by decide⟩,
   ⟨1027, 0, 3, st { up with mbx := [(0, { busy := true })] }, _, by unfold Claims.BoxOpen RegOpen; decide, by decide, rfl, by decide⟩⟩

theorem witness_RegisterAccess_2 :
    (∃ (a : BitVec 13) (b : Fin 1280) (w : BitVec 32) (s : State) (c : Instr), BoxOpen s.m b 0xFF00 ∧ w.getLsbD 0 = true ∧ (c = (if w.getLsbD 1 then .mbxWrite a b w else .mbxRead a b w)) ∧ (s.m.mailbox b).busy = false ∧ ((s.m.mailbox b).held = false ∨ (s.m.mailbox b).owner = a))
    ∧ (∃ (b : Fin 1280) (s : State), (s.m.mailbox b).busy = false)
    ∧ (∃ (b : Fin 1280) (s : State), (s.m.mailbox b).busy = true ∧ s.m.boot.inReset = false)
    ∧ (∃ (s : State), (s.m.mailbox 0).busy = true ∧ s.m.boot.inReset = false ∧ (s.m.mailbox 0).dir = false ∧ (s.m.mailbox 0).part = false ∧ (s.m.mailbox 0).addr = 0x10)
    ∧ (∃ (a : BitVec 13) (off : DevOff) (s : State) (v : Nat) (n : Mach) (ls : List Latch), ShadowAt s.m off v n ∧ off % 8 = 0 ∧ ls = (FMap.get [] s.m.latches (blkKey off)).filter (fun y => y.agent ≠ a)) :=
  ⟨⟨1027, 0, 1, st { up with mbx := [(0, { held := true, owner := 1027 })] }, _, by unfold Claims.BoxOpen RegOpen; decide, by decide, rfl, by decide⟩,
   ⟨0, st up, by decide⟩,
   ⟨0, st { up with mbx := [(0, { busy := true })] }, by decide⟩,
   ⟨st { up with mbx := [(0, { busy := true, addr := 0x10 })] }, by decide⟩,
   ⟨1027, 0x88000, st up, 0, _, [], ⟨by decide, by decide, by decide, by decide, rfl⟩, by decide⟩⟩

theorem witness_RegisterAccess_3 :
    (∃ (a : BitVec 13) (off : DevOff) (s : State) (v : Nat) (n : Mach) (x : Latch), ShadowAt s.m off v n ∧ off % 8 = 4 ∧ (FMap.get [] s.m.latches (blkKey off)).find? (fun y => y.agent = a ∧ y.off = Mach.regOff off - 4) = some x)
    ∧ (∃ (a : BitVec 13) (off : DevOff) (s : State) (v : Nat) (n : Mach), ShadowAt s.m off v n ∧ off % 8 = 4 ∧ (∀ y ∈ FMap.get [] s.m.latches (blkKey off), y.agent = a → y.off ≠ Mach.regOff off - 4))
    ∧ (∃ (off : DevOff) (s : State), s.m.regReach off = true ∧ Mach.regExists off = true ∧ off % 4 = 0 ∧ counterReg off = true)
    ∧ (∃ (off : DevOff) (s : State), s.m.regReach off = false)
    ∧ (∃ (off : DevOff) (s : State), s.m.regReach off = true ∧ Mach.regExists off = true ∧ off % 4 = 0 ∧ s.m.regDomainIs off .on = false ∧ counterReg off = false) :=
  ⟨⟨1027, 0x88004, st { up with latches := [(8, [⟨1027, 0x8000, 7⟩])] }, 0, _, ⟨1027, 0x8000, 7⟩, ⟨by decide, by decide, by decide, by decide, rfl⟩, by decide⟩,
   ⟨1027, 0x88004, st up, 0, _, ⟨by decide, by decide, by decide, by decide, rfl⟩, by decide⟩,
   ⟨0x1FF0C, st up, by decide⟩,
   ⟨0x100000010, st { up with dies := [(0, { dead := true })] }, by decide⟩,
   ⟨0x100000010, st { up with dies := [] }, by decide⟩⟩

theorem witness_RegisterAccess_4 :
    (∃ (s : State), s.m.boot.inReset = false)
    ∧ (∃ (s : State), s.m.boot.inReset = false) :=
  ⟨⟨st up, by decide⟩,
   ⟨st up, by decide⟩⟩

theorem witness_StepRunsTheFrontCommand :
    (∃ (c : Instr) (q : List Instr) (s : State), s.pending = c :: q)
    ∧ (∃ (s : State), s.pending = []) :=
  ⟨⟨.siteHold, [.siteNop], { st up with pending := [.siteHold, .siteNop] }, by decide⟩,
   ⟨st up, by decide⟩⟩

theorem witness_StepKeepsTheInvariant :
    (∃ (s : State) (t : State), s.Inv ∧ step s = .next t) :=
  ⟨{ pending := [.linkLocalTimeout], fuses := {}, m := { up with boot := { stopped := true, recovery := true } } }, { pending := [], fuses := {}, m := { up with boot := { stopped := true, recovery := true, linkLocal := true } } }, ⟨⟨fun _ => show 0 ≤ 63 by decide, by decide, by decide⟩, rfl⟩, rfl⟩

theorem witness_FusesOnlyAdvance :
    (∃ (s : State) (t : State), step s = .next t) :=
  ⟨{ pending := [.linkLocalTimeout], fuses := { glitches := 3 }, m := { up with boot := { stopped := true, recovery := true } } }, { pending := [], fuses := { glitches := 3 }, m := { up with boot := { stopped := true, recovery := true, linkLocal := true } } }, rfl⟩

theorem witness_HenIssueFrame_1 :
    (∃ (m : Mach) (n : Mach) (a : Nat) (w : BitVec 32), HenTurn m a w n)
    ∧ (∃ (m : Mach) (n : Mach) (a : Nat) (w : BitVec 32), HenTurn m a w n)
    ∧ (∃ (m : Mach) (n : Mach) (a : Nat) (w : BitVec 32), HenTurn m a w n)
    ∧ (∃ (m : Mach) (n : Mach) (a : Nat) (w : BitVec 32), HenTurn m a w n)
    ∧ (∃ (m : Mach) (n : Mach) (a : Nat) (w : BitVec 32), HenTurn m a w n) :=
  ⟨⟨hm 0x08000000 id up, _, 1024, 0x08000000, turned (by decide)⟩,
   ⟨hm 0x08000000 id up, _, 1024, 0x08000000, turned (by decide)⟩,
   ⟨hm 0x08000000 id up, _, 1024, 0x08000000, turned (by decide)⟩,
   ⟨hm 0x08000000 id up, _, 1024, 0x08000000, turned (by decide)⟩,
   ⟨hm 0x08000000 id up, _, 1024, 0x08000000, turned (by decide)⟩⟩

theorem witness_HenIssueFrame_2 :
    (∃ (m : Mach) (n : Mach) (a : Nat) (w : BitVec 32), HenTurn m a w n)
    ∧ (∃ (m : Mach) (n : Mach) (a : Nat) (w : BitVec 32), HenTurn m a w n)
    ∧ (∃ (m : Mach) (n : Mach) (a : Nat) (w : BitVec 32), HenTurn m a w n)
    ∧ (∃ (m : Mach) (n : Mach) (a : Nat) (w : BitVec 32), HenTurn m a w n)
    ∧ (∃ (m : Mach) (n : Mach) (a : Nat) (w : BitVec 32), HenTurn m a w n) :=
  ⟨⟨hm 0x08000000 id up, _, 1024, 0x08000000, turned (by decide)⟩,
   ⟨hm 0x08000000 id up, _, 1024, 0x08000000, turned (by decide)⟩,
   ⟨hm 0x08000000 id up, _, 1024, 0x08000000, turned (by decide)⟩,
   ⟨hm 0x08000000 id up, _, 1024, 0x08000000, turned (by decide)⟩,
   ⟨hm 0x08000000 id up, _, 1024, 0x08000000, turned (by decide)⟩⟩

theorem witness_HenIssueFrame_3 :
    (∃ (m : Mach) (n : Mach) (a : Nat) (w : BitVec 32), HenTurn m a w n)
    ∧ (∃ (m : Mach) (n : Mach) (a : Nat) (w : BitVec 32), HenTurn m a w n)
    ∧ (∃ (m : Mach) (n : Mach) (a : Nat) (w : BitVec 32), HenTurn m a w n)
    ∧ (∃ (m : Mach) (n : Mach) (a : Nat) (w : BitVec 32), HenTurn m a w n)
    ∧ (∃ (m : Mach) (n : Mach) (a : Nat) (w : BitVec 32), HenTurn m a w n) :=
  ⟨⟨hm 0x08000000 id up, _, 1024, 0x08000000, turned (by decide)⟩,
   ⟨hm 0x08000000 id up, _, 1024, 0x08000000, turned (by decide)⟩,
   ⟨hm 0x08000000 id up, _, 1024, 0x08000000, turned (by decide)⟩,
   ⟨hm 0x08000000 id up, _, 1024, 0x08000000, turned (by decide)⟩,
   ⟨hm 0x08000000 id up, _, 1024, 0x08000000, turned (by decide)⟩⟩

end Sys2Proof.Tests
end

section
/-!
PROOFS. The Hen's integer and vector integer instructions (R207 to R213, R225): a command that runs one Hen instruction answers what the
instruction's body makes of the module on the Hen's turn; each shared form of the model computes the result that its table row names.
-/
namespace Sys2Proof

/-! ### Immediate fields and counts (R205, R207) -/

namespace HenAlu

/-- The low field of an instruction word, read as a signed number. -/
theorem sext_fld_low (w : BitVec 32) {n : Nat} (hn : 0 < n) : Bits.sext (fld w 0 n) n = (w.setWidth n).toInt := by
  have h : (w.setWidth n).toNat = fld w 0 n := by simp [fld]
  have hp : 2 ^ n = 2 * 2 ^ (n - 1) := by rw [← Nat.pow_succ', Nat.succ_eq_add_one, Nat.sub_add_cancel hn]
  have hm : fld w 0 n % 2 ^ n = fld w 0 n := by simp [fld]
  rw [BitVec.toInt_eq_toNat_cond, h, Bits.sext, if_neg hn.ne', hm]
  exact if_congr (by omega) rfl rfl

theorem imm16s_eq_signExtend (w : BitVec 32) : imm16s w = (w.setWidth 16).signExtend 64 := by
  rw [imm16s, sext_fld_low w (by omega), BitVec.signExtend]

theorem imm16z_eq_setWidth (w : BitVec 32) : imm16z w = (w.setWidth 16).setWidth 64 := by
  apply BitVec.eq_of_toNat_eq
  simp [imm16z, fld]

/-- The immediate of a row whose extension is chosen by `signed`. -/
theorem imm16_eq (signed : Bool) (w : BitVec 32) :
    (if signed then imm16s w else imm16z w) = if signed then (w.setWidth 16).signExtend 64 else (w.setWidth 16).setWidth 64 := by
  rw [imm16s_eq_signExtend, imm16z_eq_setWidth]

theorem ofInt_off16 (w : BitVec 32) : BitVec.ofInt 56 (off16 w) = (w.setWidth 16).signExtend 56 * 4 := by
  rw [off16, BitVec.ofInt_mul, sext_fld_low w (by omega)]; rfl

theorem ofInt_off26 (w : BitVec 32) : BitVec.ofInt 56 (off26 w) = (w.setWidth 26).signExtend 56 * 4 := by
  rw [off26, BitVec.ofInt_mul, sext_fld_low w (by omega)]; rfl

/-- The trailing zeros of the low `n` bits are the place of the first bit set. -/
theorem ctzN_eq_find? (a n : Nat) : ctzN a n = ((List.range n).find? fun i => a.testBit i).getD n := by
  induction n generalizing a with
  | zero => rfl
  | succ n ih =>
    rw [ctzN, List.range_succ_eq_map, List.find?_cons, Nat.testBit_zero]
    by_cases h : a % 2 = 1
    · simp [h]
    · simp only [h, if_false, decide_false, List.find?_map, Function.comp_def, Nat.testBit_succ]
      rw [← Nat.succ_eq_add_one n, Option.getD_map, ← ih, Nat.succ_eq_add_one, Nat.add_comm]

/-- The count of the low `n` bits counts the places of bits set. -/
theorem popCount_eq_countP (a n : Nat) : Bits.popCount a n = (List.range n).countP fun i => a.testBit i := by
  induction n generalizing a with
  | zero => rfl
  | succ n ih =>
    rw [Bits.popCount, ih, List.range_succ_eq_map, List.countP_cons, List.countP_map, Nat.testBit_zero, Nat.add_comm]
    rcases Nat.mod_two_eq_zero_or_one a with h | h <;> simp [h, Function.comp_def, Nat.testBit_succ]

/-- Whether an operation has one source only, and rs2 must be 0 (R208). -/
abbrev IntOp.isCount (o : IntOp) : Bool := o == .clz || o == .ctz || o == .popc

/-! ### Results of the integer operations in the rows' own terms (Table 7-3, R209) -/

theorem bool64_decide (p : Prop) [Decidable p] : bool64 (decide p) = Claims.flag p := by
  by_cases h : p <;> simp [bool64, Claims.flag, h]

theorem int64_slt (x y : Word) : int64 .slt x y = Claims.flag (x.toInt < y.toInt) := bool64_decide _

theorem int64_sltu (x y : Word) : int64 .sltu x y = Claims.flag (x.toNat < y.toNat) := bool64_decide _

theorem int64_min (x y : Word) : int64 .min x y = if x.toInt < y.toInt then x else y := by
  simp only [int64, BitVec.slt_iff_toInt_lt]

theorem int64_max (x y : Word) : int64 .max x y = if x.toInt < y.toInt then y else x := by
  simp only [int64, BitVec.slt_iff_toInt_lt]

theorem int64_minu (x y : Word) : int64 .minu x y = if x.toNat < y.toNat then x else y := by
  simp only [int64, BitVec.ult_iff_lt, BitVec.lt_def]

theorem int64_maxu (x y : Word) : int64 .maxu x y = if x.toNat < y.toNat then y else x := by
  simp only [int64, BitVec.ult_iff_lt, BitVec.lt_def]

/-- A shift of an integer by 64 is a division, whether its amount is an `Int` or a `Nat`. -/
theorem int_shiftRight_64 (k : Int) : k >>> (64 : Int) = k / 2 ^ 64 ∧ k >>> (64 : Nat) = k / 2 ^ 64 :=
  ⟨(Int.shiftRight_natCast_right k 64).trans (Int.shiftRight_eq_div_pow k 64), Int.shiftRight_eq_div_pow k 64⟩

theorem int64_mulh (x y : Word) : int64 .mulh x y = BitVec.ofInt 64 (x.toInt * y.toInt / 2 ^ 64) := by
  simp only [int64, int_shiftRight_64]

theorem int64_mulhu (x y : Word) : int64 .mulhu x y = BitVec.ofNat 64 (x.toNat * y.toNat / 2 ^ 64) := by
  simp only [int64, Nat.shiftRight_eq_div_pow]

theorem int64_mulhsu (x y : Word) : int64 .mulhsu x y = BitVec.ofInt 64 (x.toInt * y.toNat / 2 ^ 64) := by
  simp only [int64, int_shiftRight_64]

theorem common_ror {n : Nat} (x y : BitVec n) : common .ror x y = Claims.rotr x y.toNat := by
  simp only [common, rorN, Claims.rotr, Nat.mod_mod]

theorem common_divu {n : Nat} (x y : BitVec n) : common .divu x y = Claims.quotu x y := by
  simp only [common, divU, Claims.quotu, BitVec.udiv_def]

theorem common_remu {n : Nat} (x y : BitVec n) : common .remu x y = Claims.restu x y := by
  simp only [common, remU, Claims.restu, BitVec.umod_def]

theorem int64_clz (x y : Word) : int64 .clz x y = BitVec.ofNat 64 (if x = 0 then 64 else 63 - x.toNat.log2) := by
  have h : x.toNat = 0 ↔ x = 0 := BitVec.toNat_inj (y := 0)
  simp only [int64, clzN, h]

theorem int64_ctz (x y : Word) : int64 .ctz x y =
    if x = 0 then 64 else BitVec.ofNat 64 (((List.range 64).find? fun i => x.getLsbD i).getD 64) := by
  simp only [int64, ctzN_eq_find?, BitVec.testBit_toNat]
  split
  case isTrue h => subst h; rfl
  case isFalse => rfl

theorem int64_popc (x y : Word) : int64 .popc x y = BitVec.ofNat 64 ((List.range 64).countP fun i => x.getLsbD i) := by
  simp only [int64, popCount_eq_countP, BitVec.testBit_toNat]

/-! ### Elements of the vector integer operations in the rows' own terms (Table 7-7) -/

theorem viElem_min (b x y : Nat) : viElem .min b x y =
    (if (BitVec.ofNat b x).toInt < (BitVec.ofNat b y).toInt then BitVec.ofNat b x else BitVec.ofNat b y).toNat := by
  simp only [viElem, BitVec.slt_iff_toInt_lt]

theorem viElem_max (b x y : Nat) : viElem .max b x y =
    (if (BitVec.ofNat b x).toInt < (BitVec.ofNat b y).toInt then BitVec.ofNat b y else BitVec.ofNat b x).toNat := by
  simp only [viElem, BitVec.slt_iff_toInt_lt]

theorem viElem_minu (b x y : Nat) : viElem .minu b x y =
    (if (BitVec.ofNat b x).toNat < (BitVec.ofNat b y).toNat then BitVec.ofNat b x else BitVec.ofNat b y).toNat := by
  simp only [viElem, BitVec.ult_iff_lt, BitVec.lt_def]

theorem viElem_maxu (b x y : Nat) : viElem .maxu b x y =
    (if (BitVec.ofNat b x).toNat < (BitVec.ofNat b y).toNat then BitVec.ofNat b y else BitVec.ofNat b x).toNat := by
  simp only [viElem, BitVec.ult_iff_lt, BitVec.lt_def]

theorem viElem_sll (b x y : Nat) (hy : y < 2 ^ b) :
    viElem .sll b x y = (BitVec.ofNat b x <<< ((BitVec.ofNat b y).toNat % b)).toNat := by
  simp only [viElem, BitVec.toNat_ofNat, Nat.mod_eq_of_lt hy]

theorem viElem_srl (b x y : Nat) (hy : y < 2 ^ b) :
    viElem .srl b x y = (BitVec.ofNat b x >>> ((BitVec.ofNat b y).toNat % b)).toNat := by
  simp only [viElem, BitVec.toNat_ofNat, Nat.mod_eq_of_lt hy]

theorem viElem_sra (b x y : Nat) (hy : y < 2 ^ b) :
    viElem .sra b x y = ((BitVec.ofNat b x).sshiftRight ((BitVec.ofNat b y).toNat % b)).toNat := by
  simp only [viElem, BitVec.toNat_ofNat, Nat.mod_eq_of_lt hy]

end HenAlu

namespace Machine
open Claims

/-! ### The command of a Hen instruction -/

/-- The opcodes some of whose words differ in a selecting func, KIND or SUB field (Table 7-2). -/
abbrev selectorOpcodes : List Nat := [0x01, 0x18, 0x22, 0x23, 0x24, 0x25, 0x31, 0x3C, 0x3D, 0x3E, 0x3F]

/-- An assigned opcode that selects its instruction alone. -/
abbrev PlainOpcode (o : Nat) : Prop := o ∉ selectorOpcodes ∧ henAssigned (o * 64) = true

theorem henKey_plain {w : BitVec 32} {o : Nat} (h : HenAlu.op w = o) (ho : o ∉ selectorOpcodes) : henKey w = o * 64 := by
  simp only [List.mem_cons, not_or] at ho
  simp only [henKey, h]
  split <;> simp_all

theorem henKey_op {w : BitVec 32} (h : HenAlu.op w = 0x01) : henKey w = 0x01 * 64 + HenAlu.fld w 0 6 := by
  simp only [henKey, h]

theorem henKey_vopi {w : BitVec 32} (h : HenAlu.op w = 0x23) : henKey w = 0x23 * 64 + HenAlu.fld w 0 6 := by
  simp only [henKey, h]

/-- The command `c` runs the Hen instruction with selection `key`, whose effect is `body`. -/
def HenRuns (c : HenId → BitVec 32 → Instr) (key : Nat) (body : Mach → Nat → BitVec 32 → Mach) : Prop :=
  ∀ (h : HenId) (w : BitVec 32) (s : State), exec (c h w) s = s.act fun m => m.henStep h.agent w key fun m => body m h.agent w

section
variable {c : HenId → BitVec 32 → Instr} {key : Nat} {body : Mach → Nat → BitVec 32 → Mach} {h : HenId} {w : BitVec 32} {s : State} {n : Mach}

/-- On the Hen's turn the command of the fetched instruction answers what the instruction's body makes of the module. -/
theorem HenRuns.answers (hr : HenRuns c key body) (ht : HenTurn s.m h.agent w n) (hk : henKey w = key) (ha : henAssigned key = true) :
    Answers (c h w) s (body n h.agent w) :=
  Answers.intro (hr h w s) (Mach.henStep_turn ht hk ha _)

theorem HenRuns.answers_plain {o : Nat} (hr : HenRuns c (o * 64) body) (ho : PlainOpcode o) (ht : HenTurn s.m h.agent w n)
    (hw : HenAlu.op w = o) : Answers (c h w) s (body n h.agent w) :=
  hr.answers ht (henKey_plain hw ho.1) ho.2

end

/-! ### Register operations (R208) -/

theorem henAssigned_op (o : HenAlu.IntOp) : henAssigned (0x01 * 64 + o.code) = true := by cases o <;> rfl

/-- The fields of an OP word whose func field holds an operation's code and W = `k`. -/
theorem fields_of_func {w : BitVec 32} {o : HenAlu.IntOp} {k : Nat} (hk : k < 2) (hf : HenAlu.func w = o.code + 1024 * k) :
    HenAlu.fld w 0 6 = o.code ∧ HenAlu.fld w 6 4 = 0 ∧ HenAlu.fld w 10 1 = k := by
  obtain ⟨hcode, hzero, -, hW⟩ := HenAlu.func_fields w _ hf
  have hlt : o.code < 64 := by cases o <;> decide
  omega

section
variable {c : HenId → BitVec 32 → Instr} {o : HenAlu.IntOp}

/-- An OP word that R208 allows writes its operation's result to g[rd] and goes on. -/
theorem HenRuns.answers_henOp (hr : HenRuns c (0x01 * 64 + o.code) fun m a w => m.henOp a w o) {h : HenId} {w : BitVec 32} {s : State} {n : Mach}
    (ht : HenTurn s.m h.agent w n) (hw : HenAlu.op w = 0x01) {k : Nat} (hk : k < 2) (hf : HenAlu.func w = o.code + 1024 * k)
    (hW : k = 0 ∨ o.hasW = true) (hC : o.isCount = false ∨ HenAlu.fC w = 0) :
    Answers (c h w) s ((n.setG h.agent (HenAlu.fA w)
      (HenAlu.intOp o (k == 1) (n.g h.agent (HenAlu.fB w)) (n.g h.agent (HenAlu.fC w)))).henNext h.agent) := by
  obtain ⟨hcode, hzero, rfl⟩ := fields_of_func hk hf
  have hl : Mach.opLegal w o = true := by
    simp only [Mach.opLegal, hzero, Bool.and_eq_true, Bool.or_eq_true, beq_iff_eq, Bool.not_eq_true']
    exact ⟨⟨trivial, hW⟩, hC⟩
  have hb := hr.answers ht (by rw [henKey_op hw, hcode]) (henAssigned_op o)
  simpa only [Mach.henOp, hl, Bool.not_true, Bool.false_eq_true, if_false] using hb

/-- The row of an operation with two sources and W = 0. -/
theorem HenRuns.opRow {r : Word → Word → Word} (hr : HenRuns c (0x01 * 64 + o.code) fun m a w => m.henOp a w o)
    (hc : o.isCount = false) (hv : ∀ x y, HenAlu.int64 o x y = r x y) : OpRow c o.code r := by
  intro h w s n ht hw hf
  rw [← hv]
  exact hr.answers_henOp ht hw (k := 0) (by decide) hf (.inl rfl) (.inl hc)

/-- The row of an operation with a 32-bit form and W = 1. -/
theorem HenRuns.opRowW {r : BitVec 32 → BitVec 32 → BitVec 32} (hr : HenRuns c (0x01 * 64 + o.code) fun m a w => m.henOp a w o)
    (ho : o.hasW = true) (hv : ∀ x y, HenAlu.common o x y = r x y) : OpRowW c o.code r := by
  intro h w s n ht hw hf
  have hc : o.isCount = false := by revert ho; cases o <;> decide
  beta_reduce
  rw [← hv]
  exact hr.answers_henOp ht hw (k := 1) (by decide) hf (.inr ho) (.inl hc)

/-- The row of a count. -/
theorem HenRuns.opRow1 {r : Word → Word} (hr : HenRuns c (0x01 * 64 + o.code) fun m a w => m.henOp a w o)
    (hv : ∀ x y, HenAlu.int64 o x y = r x) : OpRow1 c o.code r := by
  intro h w s n ht hw hf hC
  rw [← hv _ (n.g h.agent (HenAlu.fC w))]
  exact hr.answers_henOp ht hw (k := 0) (by decide) hf (.inl rfl) (.inr hC)

end

/-! ### Immediate forms (R207, R210, R211) -/

/-- The row of an immediate form. -/
theorem HenRuns.immRow {c : HenId → BitVec 32 → Instr} {op : Nat} {o : HenAlu.IntOp} {signed : Bool} {r : Word → Word → Word}
    (hr : HenRuns c (op * 64) fun m a w => m.henImm a w o (if signed then HenAlu.imm16s w else HenAlu.imm16z w)) (hp : PlainOpcode op)
    (hv : ∀ x y, HenAlu.int64 o x y = r x y) : ImmRow c op signed r := by
  intro h w s n ht hw
  rw [← hv, ← HenAlu.imm16_eq]
  exact hr.answers_plain hp ht hw

/-- A shift amount below 2^6 as the operand of a shift. -/
theorem toNat_ofNat_fld6 (w : BitVec 32) : (BitVec.ofNat 64 (HenAlu.fld w 0 6)).toNat = HenAlu.fld w 0 6 := by
  have : HenAlu.fld w 0 6 < 64 := Nat.mod_lt _ (by decide)
  rw [BitVec.toNat_ofNat]
  omega

/-- A SHI word that R210 allows shifts by its amount with the operation that imm16[7:6] selects. -/
theorem answers_henShi {h : HenId} {w : BitVec 32} {s : State} {n : Mach} (ht : HenTurn s.m h.agent w n) (hw : HenAlu.op w = 0x0A)
    (hz : HenAlu.fld w 9 7 = 0) (hl : HenAlu.fld w 8 1 = 0 ∨ HenAlu.fld w 5 1 = 0) :
    Answers (.henShi h w) s ((n.setG h.agent (HenAlu.fA w) (HenAlu.intOp (Mach.shiOp (HenAlu.fld w 6 2)) (HenAlu.fld w 8 1 == 1)
      (n.g h.agent (HenAlu.fB w)) (BitVec.ofNat 64 (HenAlu.fld w 0 6)))).henNext h.agent) := by
  have hr : HenRuns .henShi (0x0A * 64) fun m a w => m.henShift a w := fun _ _ _ => rfl
  have hc : (HenAlu.fld w 8 1 == 1 && HenAlu.fld w 5 1 == 1) = false := by rcases hl with hl | hl <;> simp [hl]
  simpa [Mach.henShift, hz, hc] using hr.answers_plain (by decide) ht hw

/-- The row of SHI for the operation that imm16[7:6] selects. -/
theorem shiRow_of_common {k : Nat} {r : Word → Nat → Word} {r32 : BitVec 32 → Nat → BitVec 32}
    (h64 : ∀ x y, HenAlu.int64 (Mach.shiOp k) x y = r x (y.toNat % 64))
    (h32 : ∀ x y, HenAlu.common (Mach.shiOp k) x y = r32 x (y.toNat % 32)) : ShiRow k r r32 := by
  rintro h w s n ht hw rfl hz
  have hlt : HenAlu.fld w 0 6 < 64 := Nat.mod_lt _ (by decide)
  constructor
  · intro hW
    have hb := answers_henShi ht hw hz (.inl hW)
    rwa [hW, HenAlu.intOp, if_neg (by decide), h64, toNat_ofNat_fld6, Nat.mod_eq_of_lt hlt] at hb
  · intro hW h5
    have hb := answers_henShi ht hw hz (.inr h5)
    have hlt5 : HenAlu.fld w 0 6 < 32 := by
      have hbit := HenAlu.fld_fld w 0 6 5 1 (by decide)
      rw [Nat.zero_add, h5] at hbit
      omega
    rwa [hW, HenAlu.intOp, if_pos (by decide), h32, BitVec.toNat_setWidth, toNat_ofNat_fld6, Nat.mod_mod_of_dvd _ (by decide),
      Nat.mod_eq_of_lt hlt5] at hb

theorem getLsbD_halfMask (i : Nat) : (0xFFFF#64).getLsbD i = decide (i < 16) := by
  have h : 0xFFFF#64 = (BitVec.allOnes 16).setWidth 64 := by decide
  rw [h, BitVec.getLsbD_setWidth, BitVec.getLsbD_allOnes]
  by_cases hi : i < 16
  · simp [hi, Nat.lt_trans hi (by decide : 16 < 64)]
  · simp [hi]

/-- The bits of a word whose half-word `k` is replaced by imm16. -/
theorem getLsbD_replaceHalf (x : Word) (w : BitVec 32) (k i : Nat) (hi : i < 64) :
    (x &&& ~~~(0xFFFF#64 <<< (16 * k)) ||| HenAlu.imm16z w <<< (16 * k)).getLsbD i
      = if 16 * k ≤ i ∧ i < 16 * k + 16 then w.getLsbD (i - 16 * k) else x.getLsbD i := by
  have hsub : i - 16 * k < 16 ↔ i < 16 * k + 16 := by omega
  simp only [BitVec.getLsbD_or, BitVec.getLsbD_and, BitVec.getLsbD_not, BitVec.getLsbD_shiftLeft, getLsbD_halfMask,
    HenAlu.imm16z_eq_setWidth, BitVec.getLsbD_setWidth, hi, hsub]
  by_cases hlo : i < 16 * k
  · simp [hlo, Nat.not_le.2 hlo]
  · by_cases hhi : i < 16 * k + 16
    · simp [hlo, hhi, Nat.not_lt.1 hlo]; omega
    · simp [hhi]

/-- The row of IMZ and IMK. -/
theorem HenRuns.halfRow {c : HenId → BitVec 32 → Instr} {op : Nat} {keep : Bool} (hr : HenRuns c (op * 64) fun m a w => m.henHalf a w keep)
    (hp : PlainOpcode op) : HalfRow c op keep := by
  intro h w s n k ht hw hz hk
  have hb := hr.answers_plain hp ht hw
  have hold : (if keep then n.g h.agent (HenAlu.fA w) &&& ~~~(0xFFFF#64 <<< (16 * k)) else 0)
      = (if keep then n.g h.agent (HenAlu.fA w) else 0) &&& ~~~(0xFFFF#64 <<< (16 * k)) := by cases keep <;> simp
  simp only [Mach.henHalf, hz, hk, hold, ne_eq, not_true_eq_false, if_false] at hb
  refine ⟨_, hb, fun i hi => ?_⟩
  rw [getLsbD_replaceHalf _ _ _ _ hi]
  cases keep <;> simp

/-! ### Branches and jumps (R212, R213) -/

theorem henGoto_eq_goneTo (n : Mach) (a : Nat) (pc : BitVec 56) : n.henGoto a pc = goneTo n a pc := rfl

theorem pcPlus_off16 (n : Mach) (a : Nat) (w : BitVec 32) : n.pcPlus a (HenAlu.off16 w) = rel16 n a w := by
  rw [Mach.pcPlus, HenAlu.ofInt_off16, rel16]

theorem pcPlus_off26 (n : Mach) (a : Nat) (w : BitVec 32) : n.pcPlus a (HenAlu.off26 w) = rel26 n a w := by
  rw [Mach.pcPlus, HenAlu.ofInt_off26, rel26]

theorem pcPlus_four (n : Mach) (a : Nat) : n.pcPlus a 4 = (n.hen a).pc + 4 := rfl

/-- The row of a conditional branch. -/
theorem HenRuns.branchRow {c : HenId → BitVec 32 → Instr} {op : Nat} {o : HenAlu.Cond} {p : Word → Word → Prop}
    (hr : HenRuns c (op * 64) fun m a w => m.henBranch a w o) (hp : PlainOpcode op) (hv : ∀ x y, o.holds x y = true ↔ p x y) :
    BranchRow c op p := by
  intro h w s n ht hw
  have hb := hr.answers_plain hp ht hw
  rw [Mach.henBranch, pcPlus_off16, henGoto_eq_goneTo] at hb
  constructor
  · intro htaken
    rwa [if_pos ((hv _ _).2 htaken)] at hb
  · intro hnot
    rwa [if_neg (mt (hv _ _).1 hnot)] at hb

/-- J and JAL go to PC + off26, JAL with the link in g31. -/
theorem HenRuns.answers_henJump {c : HenId → BitVec 32 → Instr} {op : Nat} {link : Bool} (hr : HenRuns c (op * 64) fun m a w => m.henJump a w link)
    (hp : PlainOpcode op) {h : HenId} {w : BitVec 32} {s : State} {n : Mach} (ht : HenTurn s.m h.agent w n) (hw : HenAlu.op w = op) :
    Answers (c h w) s (goneTo (if link then n.setG h.agent 31 (((n.hen h.agent).pc + 4).setWidth 64) else n) h.agent (rel26 n h.agent w)) := by
  have hb := hr.answers_plain hp ht hw
  rwa [Mach.henJump, pcPlus_off26, pcPlus_four] at hb

theorem answers_henJalr {h : HenId} {w : BitVec 32} {s : State} {n : Mach} (ht : HenTurn s.m h.agent w n) (hw : HenAlu.op w = 0x30) {t : Word}
    (hT : t = (n.g h.agent (HenAlu.fB w) + (w.setWidth 16).signExtend 64) &&& ~~~3) :
    Answers (.henJalr h w) s (if 2 ^ 56 ≤ t.toNat then n.henRaise h.agent 3 t.toNat
      else goneTo (n.setG h.agent (HenAlu.fA w) (((n.hen h.agent).pc + 4).setWidth 64)) h.agent (t.setWidth 56)) := by
  have hr : HenRuns .henJalr (0x30 * 64) fun m a w => m.henJumpReg a w := fun _ _ _ => rfl
  have hb := hr.answers_plain (by decide) ht hw
  simp only [Mach.henJumpReg, HenAlu.imm16s_eq_signExtend, pcPlus_four] at hb
  subst hT
  exact hb

/-! ### Vector integer operations (R225) -/

/-- A VOPI command leaves in each active element the operation's value on the elements of va and vb. -/
theorem HenRuns.vecBecomes_vopi {c : HenId → BitVec 32 → Instr} {f : Nat} {o : HenAlu.ViOp}
    (hr : HenRuns c (0x23 * 64 + f) fun m a w => m.henVopi a w o) (ha : henAssigned (0x23 * 64 + f) = true)
    {h : HenId} {w : BitVec 32} {s : State} {n : Mach} (ht : HenTurn s.m h.agent w n) (hw : HenAlu.op w = 0x23) (hf : HenAlu.fld w 0 6 = f)
    {b : Nat} (hb : b = 8 * 2 ^ if o.logic then 0 else HenAlu.fld w 6 2) {r : Nat → Nat}
    (hv : ∀ i, HenAlu.viElem o b (HenAlu.elem (n.v h.agent (HenAlu.fB w)) b i) (HenAlu.elem (n.v h.agent (HenAlu.fC w)) b i) = r i) :
    VecBecomes c h w s n b r := by
  refine ⟨_, hr.answers ht (by rw [henKey_vopi hw, hf]) ha, fun i hi => ?_⟩
  rw [HenAlu.vopi, ← hb, HenAlu.elem_mapActive _ _ _ _ _ hi, hv, Nat.mod_eq_of_lt]
  · rfl
  · rw [← hv]; exact BitVec.isLt _

section
variable {c : HenId → BitVec 32 → Instr} {f : Nat} {o : HenAlu.ViOp}

/-- The row of a VOPI operation on elements of the word's width. -/
theorem HenRuns.intRow {r : (b : Nat) → BitVec b → BitVec b → BitVec b} (hr : HenRuns c (0x23 * 64 + f) fun m a w => m.henVopi a w o)
    (ha : henAssigned (0x23 * 64 + f) = true) (ho : o.logic = false)
    (hv : ∀ b x y, y < 2 ^ b → HenAlu.viElem o b x y = (r b (BitVec.ofNat b x) (BitVec.ofNat b y)).toNat) : IntRow c f r := by
  intro h w s n b ht hw hf hb
  exact hr.vecBecomes_vopi ha ht hw hf (by simp [ho, hb]) fun i => hv _ _ _ (HenAlu.elem_lt _ _ _)

/-- The row of a logic operation of VOPI, on bytes. -/
theorem HenRuns.logicRow {r : BitVec 8 → BitVec 8 → BitVec 8} (hr : HenRuns c (0x23 * 64 + f) fun m a w => m.henVopi a w o)
    (ha : henAssigned (0x23 * 64 + f) = true) (ho : o.logic = true)
    (hv : ∀ x y, HenAlu.viElem o 8 x y = (r (BitVec.ofNat 8 x) (BitVec.ofNat 8 y)).toNat) : LogicRow c f r := by
  intro h w s n ht hw hf
  exact hr.vecBecomes_vopi ha ht hw hf (by simp [ho]) fun i => hv _ _

end

end Machine

open Machine Claims

/-! ### The statements -/

theorem henLogicAndShiftResults : Claims.HenLogicAndShiftResults :=
  ⟨HenRuns.opRow (o := .add) (fun _ _ _ => rfl) rfl fun _ _ => rfl,
   HenRuns.opRowW (o := .add) (fun _ _ _ => rfl) rfl fun _ _ => rfl,
   HenRuns.opRow (o := .sub) (fun _ _ _ => rfl) rfl fun _ _ => rfl,
   HenRuns.opRowW (o := .sub) (fun _ _ _ => rfl) rfl fun _ _ => rfl,
   HenRuns.opRow (o := .and) (fun _ _ _ => rfl) rfl fun _ _ => rfl,
   HenRuns.opRow (o := .or) (fun _ _ _ => rfl) rfl fun _ _ => rfl,
   HenRuns.opRow (o := .xor) (fun _ _ _ => rfl) rfl fun _ _ => rfl,
   HenRuns.opRow (o := .andn) (fun _ _ _ => rfl) rfl fun _ _ => rfl,
   HenRuns.opRow (o := .sll) (fun _ _ _ => rfl) rfl fun _ _ => rfl,
   HenRuns.opRowW (o := .sll) (fun _ _ _ => rfl) rfl fun _ _ => rfl,
   HenRuns.opRow (o := .srl) (fun _ _ _ => rfl) rfl fun _ _ => rfl,
   HenRuns.opRowW (o := .srl) (fun _ _ _ => rfl) rfl fun _ _ => rfl,
   HenRuns.opRow (o := .sra) (fun _ _ _ => rfl) rfl fun _ _ => rfl,
   HenRuns.opRowW (o := .sra) (fun _ _ _ => rfl) rfl fun _ _ => rfl,
   HenRuns.opRow (o := .ror) (fun _ _ _ => rfl) rfl HenAlu.common_ror,
   HenRuns.opRowW (o := .ror) (fun _ _ _ => rfl) rfl HenAlu.common_ror⟩

theorem henCompareMultiplyDivideResults : Claims.HenCompareMultiplyDivideResults :=
  ⟨HenRuns.opRow (o := .slt) (fun _ _ _ => rfl) rfl HenAlu.int64_slt,
   HenRuns.opRow (o := .sltu) (fun _ _ _ => rfl) rfl HenAlu.int64_sltu,
   HenRuns.opRow (o := .min) (fun _ _ _ => rfl) rfl HenAlu.int64_min,
   HenRuns.opRow (o := .max) (fun _ _ _ => rfl) rfl HenAlu.int64_max,
   HenRuns.opRow (o := .minu) (fun _ _ _ => rfl) rfl HenAlu.int64_minu,
   HenRuns.opRow (o := .maxu) (fun _ _ _ => rfl) rfl HenAlu.int64_maxu,
   HenRuns.opRow (o := .mul) (fun _ _ _ => rfl) rfl fun _ _ => rfl,
   HenRuns.opRowW (o := .mul) (fun _ _ _ => rfl) rfl fun _ _ => rfl,
   HenRuns.opRow (o := .mulh) (fun _ _ _ => rfl) rfl HenAlu.int64_mulh,
   HenRuns.opRow (o := .mulhu) (fun _ _ _ => rfl) rfl HenAlu.int64_mulhu,
   HenRuns.opRow (o := .mulhsu) (fun _ _ _ => rfl) rfl HenAlu.int64_mulhsu,
   HenRuns.opRow (o := .div) (fun _ _ _ => rfl) rfl fun _ _ => rfl,
   HenRuns.opRowW (o := .div) (fun _ _ _ => rfl) rfl fun _ _ => rfl,
   HenRuns.opRow (o := .divu) (fun _ _ _ => rfl) rfl HenAlu.common_divu,
   HenRuns.opRowW (o := .divu) (fun _ _ _ => rfl) rfl HenAlu.common_divu,
   HenRuns.opRow (o := .rem) (fun _ _ _ => rfl) rfl fun _ _ => rfl,
   HenRuns.opRowW (o := .rem) (fun _ _ _ => rfl) rfl fun _ _ => rfl,
   HenRuns.opRow (o := .remu) (fun _ _ _ => rfl) rfl HenAlu.common_remu,
   HenRuns.opRowW (o := .remu) (fun _ _ _ => rfl) rfl HenAlu.common_remu,
   HenRuns.opRow1 (o := .clz) (fun _ _ _ => rfl) HenAlu.int64_clz,
   HenRuns.opRow1 (o := .ctz) (fun _ _ _ => rfl) HenAlu.int64_ctz,
   HenRuns.opRow1 (o := .popc) (fun _ _ _ => rfl) HenAlu.int64_popc⟩

/-- Settles O3: every row is the model's OP form with the row's operation. -/
theorem henRegisterResults : Obligations.HenRegisterResults := ⟨henLogicAndShiftResults, henCompareMultiplyDivideResults⟩

/-- Settles O1: the immediate forms share the OP operations, SHI selects one of its four, IMZ and IMK replace one half-word. -/
theorem henImmediateResults : Obligations.HenImmediateResults :=
  ⟨HenRuns.immRow (o := .add) (fun _ _ _ => rfl) (by decide) fun _ _ => rfl,
   HenRuns.immRow (o := .and) (fun _ _ _ => rfl) (by decide) fun _ _ => rfl,
   HenRuns.immRow (o := .or) (fun _ _ _ => rfl) (by decide) fun _ _ => rfl,
   HenRuns.immRow (o := .xor) (fun _ _ _ => rfl) (by decide) fun _ _ => rfl,
   HenRuns.immRow (o := .slt) (fun _ _ _ => rfl) (by decide) HenAlu.int64_slt,
   HenRuns.immRow (o := .sltu) (fun _ _ _ => rfl) (by decide) HenAlu.int64_sltu,
   shiRow_of_common (fun _ _ => rfl) (fun _ _ => rfl),
   shiRow_of_common (fun _ _ => rfl) (fun _ _ => rfl),
   shiRow_of_common (fun _ _ => rfl) (fun _ _ => rfl),
   shiRow_of_common (fun _ _ => rfl) (fun _ _ => rfl),
   HenRuns.halfRow (fun _ _ _ => rfl) (by decide),
   HenRuns.halfRow (fun _ _ _ => rfl) (by decide)⟩

/-- Settles O2: the six branches are one form with six conditions; JALR's target decides between the transfer and FETCH_FAULT. -/
theorem henBranchAndJumpTargets : Obligations.HenBranchAndJumpTargets := by
  refine ⟨HenRuns.branchRow (o := .eq) (fun _ _ _ => rfl) (by decide) fun x y => beq_iff_eq,
    HenRuns.branchRow (o := .ne) (fun _ _ _ => rfl) (by decide) fun x y => bne_iff_ne,
    HenRuns.branchRow (o := .lt) (fun _ _ _ => rfl) (by decide) fun x y => BitVec.slt_iff_toInt_lt,
    HenRuns.branchRow (o := .ge) (fun _ _ _ => rfl) (by decide) fun x y => ?_,
    HenRuns.branchRow (o := .ltu) (fun _ _ _ => rfl) (by decide) fun x y => BitVec.ult_iff_lt,
    HenRuns.branchRow (o := .geu) (fun _ _ _ => rfl) (by decide) fun x y => ?_,
    fun h w s n ht hw => HenRuns.answers_henJump (link := false) (fun _ _ _ => rfl) (by decide) ht hw,
    fun h w s n ht hw => HenRuns.answers_henJump (link := true) (fun _ _ _ => rfl) (by decide) ht hw,
    fun h w s n t ht hw hT => ⟨fun hlt => ?_, fun hge => ?_⟩⟩
  · simp [HenAlu.Cond.holds, BitVec.slt_eq_decide]
  · simp [HenAlu.Cond.holds, BitVec.ult_eq_decide]
  · simpa only [Nat.not_le.2 hlt, if_false] using answers_henJalr ht hw hT
  · simpa only [hge, if_true] using answers_henJalr ht hw hT

/-- Settles O5: every row is the model's VOPI form with the row's operation on elements, the logic rows on bytes. -/
theorem henVectorIntegerResults : Obligations.HenVectorIntegerResults :=
  ⟨HenRuns.intRow (o := .add) (fun _ _ _ => rfl) rfl rfl fun _ _ _ _ => rfl,
   HenRuns.intRow (o := .sub) (fun _ _ _ => rfl) rfl rfl fun _ _ _ _ => rfl,
   HenRuns.intRow (o := .mul) (fun _ _ _ => rfl) rfl rfl fun _ _ _ _ => rfl,
   HenRuns.intRow (o := .min) (fun _ _ _ => rfl) rfl rfl fun b x y _ => HenAlu.viElem_min b x y,
   HenRuns.intRow (o := .max) (fun _ _ _ => rfl) rfl rfl fun b x y _ => HenAlu.viElem_max b x y,
   HenRuns.intRow (o := .minu) (fun _ _ _ => rfl) rfl rfl fun b x y _ => HenAlu.viElem_minu b x y,
   HenRuns.intRow (o := .maxu) (fun _ _ _ => rfl) rfl rfl fun b x y _ => HenAlu.viElem_maxu b x y,
   HenRuns.logicRow (o := .and) (fun _ _ _ => rfl) rfl rfl fun _ _ => rfl,
   HenRuns.logicRow (o := .or) (fun _ _ _ => rfl) rfl rfl fun _ _ => rfl,
   HenRuns.logicRow (o := .xor) (fun _ _ _ => rfl) rfl rfl fun _ _ => rfl,
   HenRuns.logicRow (o := .andn) (fun _ _ _ => rfl) rfl rfl fun _ _ => rfl,
   HenRuns.intRow (o := .sll) (fun _ _ _ => rfl) rfl rfl HenAlu.viElem_sll,
   HenRuns.intRow (o := .srl) (fun _ _ _ => rfl) rfl rfl HenAlu.viElem_srl,
   HenRuns.intRow (o := .sra) (fun _ _ _ => rfl) rfl rfl HenAlu.viElem_sra⟩

end Sys2Proof
end
